-- ==== Sys2Proof/Word.lean ====
section
/-! DEFINITION. The word types of the KZ9 and the names of a thread (R5, R10, R123). -/

namespace Sys2Proof

abbrev Byte := BitVec 8
/-- A general register (R10). -/
abbrev Word := BitVec 32
/-- A register pair, a pointer or a program counter (R5, R13). -/
abbrev DWord := BitVec 64
/-- A 96-bit instruction word (R39). -/
abbrev InsnWord := BitVec 96

/-- A thread, by where it runs: the core (256 × die + 64 × cluster + core, R134), the warp slot (0–63; 64 stands
for the core's trap warp, R314) and the home lane (R123). -/
structure TRef where
  core : Nat
  slot : Nat
  lane : Nat
  deriving DecidableEq, Repr

/-- A home of global memory (R154): the kind with the module, die or pool segment it names. -/
inductive Home where
  | hall (dev die : Nat)
  | cellar (dev die : Nat)
  | host
  | pool (dev seg : Nat)
  deriving DecidableEq, Repr

end Sys2Proof
end

