-- ==== Sys2Proof/Config.lean ====
section
/-! DEFINITION. What the spec leaves free: uninterpreted constants with no body (log 3, DESIGN CHOICE), and the figures it fixes. -/

namespace Sys2Proof

/-- R20: whether an early read, the `n`th free choice, of register `r` returns the value before the pending write. -/
opaque Config.earlyOld (n r : Nat) : Bool
/-- R164: whether a core-scope load, the `n`th free choice, is served from the L1 line that holds its bytes. -/
opaque Config.l1Serve (n : Nat) : Bool
/-- R186, R209: which of the units still to be moved goes next, the `n`th free choice. -/
opaque Config.unitOrder (n : Nat) : Nat
/-- R181: how many arrivals Serril lets the queue of a die hold. -/
opaque Config.arrivalQueue (die : Nat) : Nat
/-- R168: how many of the stores since the start of its task an LDR does not see. -/
opaque Config.ldrBack (n : Nat) : Nat
/-- R361: whether another accelerator has written a pool line that no bridge held. -/
opaque Config.poolChanged (n : Nat) : Bool
/-- R364: the paths that Serril chooses for a destination module: pairs of a local and a remote port. -/
opaque Config.afrikPaths (n dev : Nat) : List (Nat × Nat)
/-- R390: whether the flash write of the `n`th log entry fails. -/
opaque Config.logFails (n : Nat) : Bool
/-- R258: the card and the context of a household of another module that asks for this module's dies, and whether a gang of it goes to the
die asked (log 17, DESIGN CHOICE). -/
opaque Config.awayCard (n : Nat) : BitVec 512
opaque Config.awayCtx (n : Nat) : Nat
opaque Config.awayPlace (n gang : Nat) : Bool
/-- R282, R367: element `k` of the source of a collective's participant on another module, by instance and rank. -/
opaque Config.awaySource (inst rank k : Nat) : BitVec 32
/-- R323: the answer of Serril to a known service. -/
opaque Config.syscAnswer (n : Nat) (service : BitVec 16) (arg : DWord) : Word
/-- R323: which service numbers Serril knows. -/
opaque Config.syscKnown (service : BitVec 16) : Bool
/-- R323, R324: which of them have the gang of the recorded thread ended. -/
opaque Config.syscEnds (service : BitVec 16) : Bool
/-- R23, R316, R325, R328: the settings that the driver gives a context when it is bound: private size, whether every task is checked,
ctl.fpen and the watchdog's interval. -/
opaque Config.ctxSettings (n ctx : Nat) : Nat × Bool × Word × Nat
/-- R305: the allocation of page requests that the host sets when PRI is enabled again. -/
opaque Config.priAllocation (n : Nat) : Nat
/-- R348: the free frames that Serril gives migration engines with a write of a frame map: the engine's cellar die, whether the frame lies in
HBM4E, its die and its number. -/
opaque Config.givenFrames (n : Nat) : List (Nat × Bool × Nat × Nat)
/-- The XMSS signature of a message with a state index (R386). -/
opaque Config.xmssSign (index : Nat) (msg : List Byte) : List Byte
/-- The digest of the firmware key's public key that the fuses hold (R384). -/
opaque Config.fuseDigest : BitVec 256
/-- The public key and the XMSS signature that an image carries, the bytes that they sign, and whether a signature verifies under a key
(R384). -/
opaque Config.imageKey (image : List Byte) : List Byte
opaque Config.imageSignature (image : List Byte) : List Byte
opaque Config.imageBody (image : List Byte) : List Byte
opaque Config.xmssVerify (key signature msg : List Byte) : Bool
/-- The certificate chain of slot 0 (R386). -/
opaque Config.certChain (n : Nat) : List Byte
/-- The ROM's version word, and the module's serial number and fuse settings, which the ROM measures (R383). -/
opaque Config.romIdentity (n : Nat) : List Byte
opaque Config.serialNumber : List Byte
opaque Config.fuseSettings : List Byte
/-- Whether a core passes its self-test, the `n`th free choice (R326, R382). -/
opaque Config.selfTest (n core : Nat) : Bool
/-- The registry of Dravtia, and the numbers there of XMSS-SHAKE256_20_256 and of SHAKE256 (R385). -/
opaque Config.registry : Byte
opaque Config.xmssNumber : BitVec 16
opaque Config.shakeNumber : BitVec 16
/-- The trap table that Serril gives a core at boot (R382), and what the KZ9 answers to GET_CAPABILITIES (R385). -/
opaque Config.bootTrapTable (core : Nat) : BitVec 64
opaque Config.spdmCapabilities (n : Nat) : List Byte
/-- Result of a special function whose bits the bounded evaluation below does not separate (log 13, DESIGN CHOICE). -/
opaque Config.specialOpen (fn : Nat) (x : Word) : Word
/-- A value that the spec leaves open, the `n`th. -/
opaque Config.openWord (n : Nat) : Word
opaque Config.openByte (n : Nat) : Byte

namespace Config

/-- R124: figures of a core. -/
def warpSlots : Nat := 64
def registerWords : Nat := 131072
def scratchBytes : Nat := 524288
def accRows : Nat := 128
def accCols : Nat := 256
def coreBlocks : Nat := 16
/-- R2, R134: the cores of a cluster, clusters of a die, hall dies and cellar dies of a module. -/
def coresPerCluster : Nat := 64
def clustersPerDie : Nat := 4
def coresPerDie : Nat := 256
def hallDies : Nat := 12
def cellarDies : Nat := 6
def cores : Nat := 3072
/-- R4: the 64 KiB frames of a hall die's 384 GiB and of a cellar die's 1 TiB; the lines that an L2, an L1 and an instruction cache hold. -/
def hallFrames : Nat := 6291456
def cellarFrames : Nat := 16777216
def l2Lines : Nat := 524288
def l1Lines : Nat := 512
def icacheLines : Nat := 2048
/-- R158, R337: the memory channels of a hall die, and of a cellar die. R299: a home's walk-cache entries. -/
def channels : Nat := 192
def cellarChannels : Nat := 32
/-- R299: a home's translation entries. -/
def transEntries : Nat := 65536
def walkEntries : Nat := 4096
/-- R127. -/
def progressBound : Nat := 4096
/-- R328: the default watchdog interval, in units of 65,536 cycles. -/
def watchdogDefault : Nat := 21363
/-- R256: the default queue size. -/
def queueDefault : Nat := 256
/-- R305: the reported page request capacity. -/
def priCapacity : Nat := 8192

end Config

end Sys2Proof
end

