-- ==== Sys2Proof/Syntax.lean ====
section
/-! DEFINITION. The syntax of the KZ9: the fields of an instruction word (R39), the arguments of the machine's
events, and `Instr`, one constructor for each row of the opcode table. -/

namespace Sys2Proof

/-- The fields of a 96-bit instruction word other than its opcode (R39). -/
structure Fields where
  imm : BitVec 32
  m : BitVec 5
  ck : BitVec 4
  pk : BitVec 4
  c : BitVec 8
  b : BitVec 8
  a : BitVec 8
  d : BitVec 8
  neg : Bool
  guard : BitVec 3
  yield : Bool
  stall : BitVec 4
  deriving DecidableEq, Repr

/-- The trap causes of R312. -/
inductive Cause where
  | illegalOpcode | illegalLine | illegalTarget | illegalOperand | stallShort | privileged | trapInsn | breakpoint
  | misaligned | atomType | spaceFault | bufferStale | bufferBounds | bufferRights | hhDeparted | rejoinCycle
  | watchdog | keyMisuse | poison | poolLost | pageDenied | callSpill | queueOverflow | fpTrap | engineFault
  | coherenceLost
  deriving DecidableEq, Repr

/-- Access rights of a page or of a request for one (R298, R305). -/
structure Rights where
  read : Bool
  write : Bool
  exec : Bool
  deriving DecidableEq, Repr

/-- An ATS Translation Completion (R299): the translated page, and the rights that each part grants (one part for a
grant of 64 KiB or more, sixteen parts of 4 KiB otherwise; none where nothing is mapped). -/
structure AtsReply where
  tpage : Nat
  parts : List Rights
  deriving DecidableEq, Repr

/-- A holder of tokens (R338): the home memory, a hall die's L2, the host bridge, a pool bridge, another module. -/
inductive Holder where
  | home
  | l2 (die : Nat)
  | hostBridge
  | poolBridge (port : Nat)
  | peer (dev : Nat)
  deriving DecidableEq, Repr

/-- The CXL state that the host holds for a 64-byte half (R355). -/
inductive HalfState where
  | invalid | shared | any
  deriving DecidableEq, Repr

/-- Where an uncorrectable error lies (R327). -/
inductive ErrorSite where
  | l1Line (core line : Nat)
  | icacheLine (core : Nat) (line : DWord)
  | cleanL2 (die line : Nat)
  | larder (line : Nat)
  | dirtyLine (line : Nat)
  | register (t : TRef) (reg : Nat)
  | uniform (core slot reg : Nat)
  | keyFile (core slot : Nat)
  | rejoinTable (core slot : Nat)
  | scratchpad (core word : Nat)
  | accumulator (core row col : Nat)
  | trapWarp (core : Nat)
  deriving DecidableEq, Repr

/-- One constructor for each row of the opcode table: the word rows carry their fields, the event rows the data of
the event. The events that only the outside world causes stand last. -/
inductive Instr where
  /-- ADD (R79): Adds operands a and b per lane, wrapping or saturating with .sat. -/
  | add (f : Fields)
  /-- SUB (R79): Subtracts b from a per lane, wrapping or saturating with .sat. -/
  | sub (f : Fields)
  /-- ADDC (R80): Adds a, b and the carry predicate in c, writing the sum and the carry out to that predicate. -/
  | addc (f : Fields)
  /-- SUBB (R80): Subtracts b and the borrow predicate in c from a, writing the difference and the borrow out to that predicate. -/
  | subb (f : Fields)
  /-- MUL (R79): Multiplies a by b per lane, keeping the low bits or saturating. -/
  | mul (f : Fields)
  /-- MULH (R81): Writes the high half of the exact product of a and b. -/
  | mulh (f : Fields)
  /-- MAD (R79): Computes a times b plus c per lane, wrapping or saturating. -/
  | mad (f : Fields)
  /-- MADW (R81): Computes the 64-bit product of two 32-bit values plus a 64-bit pair. -/
  | madw (f : Fields)
  /-- ABS (R79): Writes the absolute value of a per lane. -/
  | abs (f : Fields)
  /-- NEG (R79): Writes the negation of a per lane. -/
  | neg (f : Fields)
  /-- MIN (R79): Writes the lesser of a and b per lane. -/
  | min (f : Fields)
  /-- MAX (R79): Writes the greater of a and b per lane. -/
  | max (f : Fields)
  /-- CLAMP (R79): Clamps a between b and c per lane. -/
  | clamp (f : Fields)
  /-- LEA (R82): Forms a 64-bit address from a pair plus a scaled, extended index. -/
  | lea (f : Fields)
  /-- SAD (R83): Accumulates the sum of absolute lane differences of a and b into c. -/
  | sad (f : Fields)
  /-- CMP (R84): Compares a with b under a condition code and writes a predicate. -/
  | cmp (f : Fields)
  /-- AND (R86): Bitwise AND of a and b. -/
  | and (f : Fields)
  /-- OR (R86): Bitwise OR of a and b. -/
  | or (f : Fields)
  /-- XOR (R86): Bitwise exclusive OR of a and b. -/
  | xor (f : Fields)
  /-- ANDN (R86): Bitwise AND of a with the complement of b. -/
  | andn (f : Fields)
  /-- NOT (R86): Bitwise complement of a. -/
  | not (f : Fields)
  /-- SHL (R87): Shifts a left by b bits. -/
  | shl (f : Fields)
  /-- SHR (R87): Shifts a right logically by b bits. -/
  | shr (f : Fields)
  /-- SAR (R87): Shifts a right arithmetically by b bits. -/
  | sar (f : Fields)
  /-- ROT (R87): Rotates a left by b modulo the width. -/
  | rot (f : Fields)
  /-- FUNL (R88): Funnel-shifts the 64-bit value b:a and writes 32 bits of it. -/
  | funl (f : Fields)
  /-- BFX (R89): Extracts a bit field of a, sign- or zero-extended. -/
  | bfx (f : Fields)
  /-- BFI (R89): Inserts the low bits of a into a field of b. -/
  | bfi (f : Fields)
  /-- POPC (R90): Counts the set bits of a. -/
  | popc (f : Fields)
  /-- CLZ (R90): Counts the leading zero bits of a. -/
  | clz (f : Fields)
  /-- BREV (R90): Reverses the bit order of a. -/
  | brev (f : Fields)
  /-- BYTP (R91): Selects and optionally sign-fills bytes of b:a under selectors in c. -/
  | bytp (f : Fields)
  /-- LOG3 (R86): Applies a three-input truth table to the bits of a, b and c. -/
  | log3 (f : Fields)
  /-- MOV (R93): Copies a register, pair or uniform value into d. -/
  | mov (f : Fields)
  /-- MOVI (R93): Writes an immediate, extended by type, into d. -/
  | movi (f : Fields)
  /-- SEL (R93): Writes a or b to d according to a predicate. -/
  | sel (f : Fields)
  /-- MOVS (R94): Reads a special register into d as a tracked result. -/
  | movs (f : Fields)
  /-- PLOG (R95): Applies a truth table to three predicates and writes a predicate. -/
  | plog (f : Fields)
  /-- P2W (R95): Writes all eight predicates into a register. -/
  | p2w (f : Fields)
  /-- W2P (R95): Writes masked predicates from a register value. -/
  | w2p (f : Fields)
  /-- RDU (R96): Reads a uniform register or pair into d. -/
  | rdu (f : Fields)
  /-- WRU (R96): Writes a value into a uniform register of the warp, highest lane winning in one issue. -/
  | wru (f : Fields)
  /-- FADD (R98): Floating add of a and b, rounded once. -/
  | fadd (f : Fields)
  /-- FSUB (R98): Floating subtract of b from a, rounded once. -/
  | fsub (f : Fields)
  /-- FMUL (R98): Floating multiply of a and b, rounded once. -/
  | fmul (f : Fields)
  /-- FFMA (R98): Fused multiply-add a times b plus c, rounded once. -/
  | ffma (f : Fields)
  /-- FMIN (R99): minimumNumber of a and b. -/
  | fmin (f : Fields)
  /-- FMAX (R99): maximumNumber of a and b. -/
  | fmax (f : Fields)
  /-- FCMP (R100): Compares two floats under a condition and writes a predicate. -/
  | fcmp (f : Fields)
  /-- FRND (R101): Rounds each lane to an integral value in its own format. -/
  | frnd (f : Fields)
  /-- FCLS (R102): Sets a predicate when the class of a is selected by the mask b. -/
  | fcls (f : Fields)
  /-- FDOT2 (R103): Two-element FP16 or BF16 dot product plus FP32 c, rounded once. -/
  | fdot2 (f : Fields)
  /-- FRCP (R104): Correctly rounded reciprocal. -/
  | frcp (f : Fields)
  /-- FRSQ (R104): Correctly rounded reciprocal square root. -/
  | frsq (f : Fields)
  /-- FSQRT (R104): Correctly rounded square root. -/
  | fsqrt (f : Fields)
  /-- FEX2 (R104): Correctly rounded base-2 exponential. -/
  | fex2 (f : Fields)
  /-- FLG2 (R104): Correctly rounded base-2 logarithm. -/
  | flg2 (f : Fields)
  /-- FSIN (R104): Correctly rounded sine. -/
  | fsin (f : Fields)
  /-- FCOS (R104): Correctly rounded cosine. -/
  | fcos (f : Fields)
  /-- FDIV (R104): Correctly rounded quotient a/b. -/
  | fdiv (f : Fields)
  /-- FTANH (R104): Correctly rounded hyperbolic tangent. -/
  | ftanh (f : Fields)
  /-- CVT (R107): Converts between integer types or between f32 and f64. -/
  | cvt (f : Fields)
  /-- CVTI (R108): Converts a float to a saturated integer. -/
  | cvti (f : Fields)
  /-- CVTF (R108): Converts an integer to a float. -/
  | cvtf (f : Fields)
  /-- PACK (R109): Converts and packs elements of a and b into a narrower packed type. -/
  | pack (f : Fields)
  /-- UNPK (R110): Widens packed elements exactly into a register group. -/
  | unpk (f : Fields)
  /-- QBLK (R111): Quantises eight FP32 values into one Q4 block and its scale. -/
  | qblk (f : Fields)
  /-- BRA (R113): Transfers to an encoded line offset and slot after target checks. -/
  | bra (f : Fields)
  /-- BRX (R113): Transfers to a program counter held in a pair. -/
  | brx (f : Fields)
  /-- CALL (R114): Transfers to an encoded target and pushes the return address. -/
  | call (f : Fields)
  /-- CALLX (R114): Transfers to a register target and pushes the return address. -/
  | callx (f : Fields)
  /-- RET (R115): Pops the newest call-stack entry and transfers to it after checks. -/
  | ret (f : Fields)
  /-- EXIT (R116): Ends the thread, possibly held at EXIT for household peers. -/
  | exit (f : Fields)
  /-- NOP (R117): Has no effect beyond its stall count. -/
  | nop (f : Fields)
  /-- REP (R51): Makes the follower run as n repetitions with advancing fields. -/
  | rep (f : Fields)
  /-- REP_REPETITION (R51): Issues one repetition of a REP follower with its incremented fields. -/
  | repRepetition (f : Fields)
  /-- RJSET (R119): Records or widens a rejoin point in the warp's rejoin table. -/
  | rjset (f : Fields)
  /-- RJWAIT (R119): Arrives at a rejoin point and waits for every live thread of its mask. -/
  | rjwait (f : Fields)
  /-- YIELD (R117): Asks the picker to pass the thread over at its next issue opportunity. -/
  | yield (f : Fields)
  /-- SLEEP (R118): Makes the thread wait for n cycles. -/
  | sleep (f : Fields)
  /-- BKPT (R120): Raises BREAKPOINT. -/
  | bkpt (f : Fields)
  /-- TRAP (R120): Raises TRAP_INSN. -/
  | trap (f : Fields)
  /-- SHFL (R141): Warp collective exchanging register values between lanes by index, up, down or xor. -/
  | shfl (f : Fields)
  /-- VOTE (R142): Warp collective computing all, any, eq or ballot of a predicate. -/
  | vote (f : Fields)
  /-- WRED (R143): Warp collective reducing a value over all participants. -/
  | wred (f : Fields)
  /-- MATCH (R144): Warp collective writing the mask of participants with equal values. -/
  | matchLanes (f : Fields)
  /-- ELECT (R145): Warp collective setting a predicate true in the lowest participant only. -/
  | elect (f : Fields)
  /-- WSYNC (R146): Warp collective that only waits for the expected threads. -/
  | wsync (f : Fields)
  /-- BARB (R147): Arrives at a block barrier, optionally after a release KeyWait. -/
  | barb (f : Fields)
  /-- BARG (R147): Arrives at a gang barrier, optionally after a release KeyWait. -/
  | barg (f : Fields)
  /-- BARH (R147): Arrives at a household barrier, optionally after a release KeyWait. -/
  | barh (f : Fields)
  /-- LD (R202): Loads from memory into a register group, with optional residency mode. -/
  | ld (f : Fields)
  /-- ST (R205): Stores a register group to memory. -/
  | st (f : Fields)
  /-- LDR (R204): Loads through the read-only path, unordered by keys. -/
  | ldr (f : Fields)
  /-- LDD (R206): Decodes eight elements of a formatted page into FP32 registers. -/
  | ldd (f : Fields)
  /-- STD (R207): Writes one Q4 block as an indivisible line update. -/
  | std (f : Fields)
  /-- LDT (R208): Copies a tile to own scratchpad under the version protocol, writing success to a predicate. -/
  | ldt (f : Fields)
  /-- STT (R209): Writes a tile's rows from scratchpad, all-or-nothing with .aon. -/
  | stt (f : Fields)
  /-- ATOM (R212): Performs an atomic read-modify-write and returns the old value. -/
  | atom (f : Fields)
  /-- ATOM_CAS (R212): Atomic compare-and-swap returning the old value. -/
  | atomCas (f : Fields)
  /-- RED (R212): Performs an atomic reduction without returning a value. -/
  | red (f : Fields)
  /-- PREF (R213): Brings a range of lines into L2. -/
  | pref (f : Fields)
  /-- CCTL_INV1 (R214): Drops this core's L1 copies of a range. -/
  | cctlInv1 (f : Fields)
  /-- CCTL_INV1ALL (R214): Drops this core's whole L1. -/
  | cctlInv1all (f : Fields)
  /-- CCTL_WB2 (R214): Writes dirty L2 data of a range back to its frames. -/
  | cctlWb2 (f : Fields)
  /-- CCTL_EVICT2 (R214): Evicts a range from this die's L2 to its home. -/
  | cctlEvict2 (f : Fields)
  /-- PGREQ (R215): Requests residency of a page without holding the thread. -/
  | pgreq (f : Fields)
  /-- KJOIN (R219): Sets a key to the merged producer sets of two keys. -/
  | kjoin (f : Fields)
  /-- KCOPY (R219): Copies one key's producer set and fault cause to another. -/
  | kcopy (f : Fields)
  /-- KWAIT (R220): Waits until a key is satisfied at a scope. -/
  | kwait (f : Fields)
  /-- KTEST (R220): Writes whether a key is satisfied at a scope. -/
  | ktest (f : Fields)
  /-- FENCE (R180): Performs once every earlier producer of the warp has performed at the scope. -/
  | fence (f : Fields)
  /-- KSEND (R221): Sends a key at a scope to a slot of a named warp. -/
  | ksend (f : Fields)
  /-- KRECV (R222): Arms a key slot to receive an arrival. -/
  | krecv (f : Fields)
  /-- KCLR (R222): Clears a key that has nothing outstanding. -/
  | kclr (f : Fields)
  /-- CPY (R274): Hands a tensor box copy between memory and scratchpad to the copy engine. -/
  | cpy (f : Fields)
  /-- CPYB (R275): Hands a linear byte copy, optionally decompressing, to the copy engine. -/
  | cpyb (f : Fields)
  /-- CPYF (R237): Hands a box copy that is forwarded along a chain of gang blocks to the copy engine. -/
  | cpyf (f : Fields)
  /-- ACCLD (R276): Moves raw words from scratchpad into accumulator rows. -/
  | accld (f : Fields)
  /-- ACCST (R276): Moves raw words from accumulator rows into scratchpad. -/
  | accst (f : Fields)
  /-- OBINIT (R278): Initialises a barrier object with an expected count. -/
  | obinit (f : Fields)
  /-- OBARR (R278): Arrives at a barrier object. -/
  | obarr (f : Fields)
  /-- OBARR_HOLD (R278): Holds bytes on a barrier object and arrives in one update. -/
  | obarrHold (f : Fields)
  /-- OBEXP (R278): Holds bytes pending on a barrier object. -/
  | obexp (f : Fields)
  /-- OBEXP_RLS (R278): Releases held bytes from a barrier object. -/
  | obexpRls (f : Fields)
  /-- OBWAIT (R279): Waits while a barrier object's phase equals the given parity. -/
  | obwait (f : Fields)
  /-- COLL (R281): Joins a collective instance of the household. -/
  | coll (f : Fields)
  /-- MMA (R284): Hands a matrix product into the accumulator to the matrix engine. -/
  | mma (f : Fields)
  /-- MDRN (R285): Hands an accumulator drain to direct and transposed copies to the matrix engine. -/
  | mdrn (f : Fields)
  /-- MZERO (R277): Zeroes an accumulator region in issue order. -/
  | mzero (f : Fields)
  /-- POST (R286): Sends a job card to a hardware queue and receives its status. -/
  | post (f : Fields)
  /-- SPAWN (R288): Claims and starts a child gang directly from the dispatcher warp. -/
  | spawn (f : Fields)
  /-- MBSEND (R289): Sends a record to a die's Porch and waits for acceptance or refusal. -/
  | mbsend (f : Fields)
  /-- MBRECV (R290): Takes the oldest Porch record into registers, waiting if empty. -/
  | mbrecv (f : Fields)
  /-- MBSTAT (R291): Reads a snapshot of the die's Porch and ring counts. -/
  | mbstat (f : Fields)
  /-- CHAPP (R292): Appends an entry to a command chain and starts its walk. -/
  | chapp (f : Fields)
  /-- CHSEQ (R293): Loads a command chain's completion word. -/
  | chseq (f : Fields)
  /-- GLAUNCH (R294): Starts a graph in a graph walker. -/
  | glaunch (f : Fields)
  /-- HHATT (R373): Attaches the gang and waits for the household to attach. -/
  | hhatt (f : Fields)
  /-- HHDET (R374): Detaches the gang and waits until the detach completes. -/
  | hhdet (f : Fields)
  /-- HHSTAT (R375): Reads a snapshot of the household attach table. -/
  | hhstat (f : Fields)
  /-- CTLR (R318): Reads a control register. -/
  | ctlr (f : Fields)
  /-- CTLW (R318): Writes a control register. -/
  | ctlw (f : Fields)
  /-- RESUME (R320): Ends the trap handler and resumes the core. -/
  | resume (f : Fields)
  /-- KILLW (R321): Ends a selected thread or warp as if by EXIT. -/
  | killw (f : Fields)
  /-- SNAPR (R319): Reads an item of a stopped thread's state. -/
  | snapr (f : Fields)
  /-- SNAPW (R319): Writes an item of a stopped thread's state. -/
  | snapw (f : Fields)
  /-- RETT (R322): Passes the trap to the task's user trap entry and resumes. -/
  | rett (f : Fields)
  /-- HALT (R323): Ends the trap handler, leaves the core stopped and notifies the management core. -/
  | halt (f : Fields)
  /-- SYSC (R323): Requests a Serril service from the management core. -/
  | sysc (f : Fields)
  /-- ISSUE_GROUP (R125): Each cycle a picker forms and issues one issue group of ready threads. -/
  | issueGroup (core picker : Nat)
  /-- TRACKED_RESULT_WRITE (R19): A unit writes a tracked result to its register, readying waiting readers. -/
  | trackedResultWrite (t : TRef) (id : Nat)
  /-- LINE_FETCH (R14): A thread first issues from a fetch line, which is fetched and its line word checked. -/
  | lineFetch (t : TRef)
  /-- FETCH_PARITY_RETRY (R37): A line failing parity is refetched once from L2. -/
  | fetchParityRetry (t : TRef)
  /-- CORE_SELF_TEST (R326): A reset core finishes self-test and returns to or leaves service. -/
  | coreSelfTest (core : Nat) (pass : Bool)
  /-- BARRIER_RELEASE (R148): A released thread of a completed gang or household barrier becomes ready. -/
  | barrierRelease (t : TRef)
  /-- SLEEP_EXPIRE (R118): A sleeping thread's count elapses and it becomes ready. -/
  | sleepExpire (t : TRef)
  /-- HOME_RESOLVE (R299): An access reaches its home, which resolves attributes, translation and frame. -/
  | homeResolve (id : Nat)
  /-- ACCESS_ACCEPT (R200): The home's answer accepts, faults or denies a thread's access. -/
  | accessAccept (id : Nat)
  /-- LOAD_BIND (R174): A load's value is bound and written to its registers. -/
  | loadBind (id : Nat)
  /-- STORE_PERFORM (R176): An acknowledgement of performance at a scope is counted on the key. -/
  | storePerform (id scope : Nat)
  /-- FAULT_FILTER_FORWARD (R303): A core's fault filter passes a new or widened entry to the cluster stage. -/
  | faultFilterForward (core ctx page : Nat)
  /-- CLUSTER_STAGE_FORWARD (R304): The cluster stage forwards a merged entry to the management core and page-request unit. -/
  | clusterStageForward (cluster ctx page : Nat)
  /-- PAGE_REQUEST_GROUP (R305): The page-request unit sends a PRI group of 16 page requests. -/
  | pageRequestGroup (pasid page : Nat)
  /-- PAGE_RESIDENT_RELEASE (R302): A page becomes resident and every waiter on it is released. -/
  | pageResidentRelease (ctx page : Nat)
  /-- INVALIDATE_COMPLETION (R307): All invalidation work is done and the completion is sent. -/
  | invalidateCompletion (pasid lo hi : Nat)
  /-- RETIRE_SWEEP_END (R309): The retire sweep ends and the number becomes free. -/
  | retireSweepEnd (ctx : Nat)
  /-- KSEND_MARKER (R182): A point gathers a flush marker and sends a notice once its count is applied. -/
  | ksendMarker (id point : Nat)
  /-- KSEND_NOTICE (R182): A notice reaches the destination slot's arrival. -/
  | ksendNotice (id point : Nat)
  /-- ARRIVAL_DELIVERY (R181): An arrival reaches its slot, becoming armed, held or queued. -/
  | arrivalDelivery (id : Nat)
  /-- COPY_LINE_ACCEPT (R233): A copy line is accepted, waits for its page, or stops the copy on a fault. -/
  | copyLineAccept (id line : Nat)
  /-- COPY_WRITE (R274): The copy engine writes elements of a copy and advances its progress. -/
  | copyWrite (id count : Nat)
  /-- COPY_BLOCK_DECODE (R235): The engine decodes one compressed block, stopping on a stream error. -/
  | copyBlockDecode (id : Nat)
  /-- COPY_RETIRE (R163): A copy's last write is done and its scoreboard range is removed. -/
  | copyRetire (id : Nat)
  /-- CPYF_HOP_FORWARD (R237): A CPYF hop is written and its key slot signalled. -/
  | cpyfHopForward (id : Nat)
  /-- MMA_SLICE_WRITE (R245): A finished 16-row slice is written into the accumulator and progress advances. -/
  | mmaSliceWrite (id : Nat)
  /-- OPERANDS_CONSUMED (R246): Every operand read of an MMA has bound and the event arrives at its object. -/
  | operandsConsumed (id : Nat)
  /-- MDRN_DRAIN (R249): The matrix engine reads, converts and writes a drain region. -/
  | mdrnDrain (id : Nat)
  /-- ENGINE_PERFORM (R189): An engine operation performs and is counted on its produce key. -/
  | enginePerform (id : Nat)
  /-- CHAIN_ENTRY_RUN (R252): An engine runs a chain entry and writes the completion word after it performs. -/
  | chainEntryRun (id : Nat)
  /-- COLL_COMPUTE (R282): A collective with all participants issued computes and writes its destinations. -/
  | collCompute (id : Nat)
  /-- POST_ARRIVAL (R255): A queue reads and checks a posted card and answers its status. -/
  | postArrival (id : Nat)
  /-- ADMISSION_DECISION (R257): Serril chooses an item and binds or holds it. -/
  | admissionDecision (die : Nat)
  /-- AGEING (R257): An item reaches 1 ms of waiting and its effective priority rises. -/
  | ageing (die item : Nat)
  /-- HOUSEHOLD_SEQUENCE_NUMBER (R258): The root manager issues a household sequence number. -/
  | householdSequenceNumber (item : Nat)
  /-- RESERVATION_REQUEST (R258): A reservation request reaches a named die's Serril as an item. -/
  | reservationRequest (item die : Nat)
  /-- HOLD_CLEAR (R258): With every die reserved, the holding die clears br.hold everywhere. -/
  | holdClear (item : Nat)
  /-- BLOCK_DISPATCH (R260): Dispatch starts a block whose gang is bound and not held. -/
  | blockDispatch (block : Nat)
  /-- BLOCK_END (R261): A block whose threads exited and operations performed ends and frees resources. -/
  | blockEnd (block : Nat)
  /-- PORCH_ACCEPT (R264): The Porch unit places an arriving record in the Porch or ring, or refuses it. -/
  | porchAccept (id : Nat)
  /-- PORCH_REFILL (R264): The ring head moves to the Porch tail between acceptances. -/
  | porchRefill (die : Nat)
  /-- GRAPH_NODE_END (R263): An activation at an end node ends. -/
  | graphNodeEnd (graph node : Nat)
  /-- GRAPH_NODE_TASK (R263): An activation at a task node posts its card. -/
  | graphNodeTask (graph node : Nat)
  /-- GRAPH_NODE_CONDITION (R263): An activation reads a condition word and takes next or alt. -/
  | graphNodeCondition (graph node : Nat)
  /-- GRAPH_NODE_WHILE (R263): An activation reads a condition word, counting iterations. -/
  | graphNodeWhile (graph node : Nat)
  /-- GRAPH_NODE_JOIN (R263): An activation adds an arrival to a join node. -/
  | graphNodeJoin (graph node : Nat)
  /-- GRAPH_POST_RETRY (R263): The walker retries a card posted with status queue full. -/
  | graphPostRetry (graph node : Nat)
  /-- GRAPH_TASK_COMPLETE (R263): A graph's task completes and sends activations to its successors. -/
  | graphTaskComplete (graph task : Nat)
  /-- GRAPH_COMPLETION (R294): A graph with no activations or incomplete tasks writes its completion value. -/
  | graphCompletion (graph : Nat)
  /-- TRAP_WARP_START (R314): The trap warp starts a handler thread at the trap table entry. -/
  | trapWarpStart (core : Nat)
  /-- WATCHDOG (R328): A gang's watchdog counter reaches its interval and WATCHDOG is raised. -/
  | watchdog (gang : Nat)
  /-- PREEMPT_HOLD_TIMEOUT (R329): A held high-priority item reaches 100 us and lower gangs are pre-empted. -/
  | preemptHoldTimeout (die : Nat)
  /-- PREEMPT_DRAIN_END (R330): The drain of a stopped gang ends and its state is saved. -/
  | preemptDrainEnd (gang : Nat)
  /-- RESUME_RESTORE (R331): A pre-empted gang is bound again and its state restored. -/
  | resumeRestore (gang : Nat)
  /-- TRANSIENT_REQUEST (R341): An L2 slice issues a transient token request attempt. -/
  | transientRequest (req : Nat)
  /-- TRANSIENT_ATTEMPT_TIMEOUT (R341): A 400 ns attempt window ends unsatisfied and the next attempt starts. -/
  | transientAttemptTimeout (req : Nat)
  /-- TRANSIENT_ESCALATION (R341): After four attempts or 2 us the requester escalates to a persistent request. -/
  | transientEscalation (req : Nat)
  /-- TRANSIENT_ANSWER (R342): A holder receiving a transient request answers from its state. -/
  | transientAnswer (req : Nat) (holder : Holder)
  /-- TOKEN_MESSAGE_RECEIVE (R340): A token message arrives and is kept or discarded by epoch. -/
  | tokenMessageReceive (msg : Nat)
  /-- PERSISTENT_REQUEST (R343): A persistent request reaches the line's home arbiter queue. -/
  | persistentRequest (req : Nat)
  /-- PERSISTENT_TABLE_ENTRY (R343): An activation entry reaches a die's persistent table and holders yield. -/
  | persistentTableEntry (line : Nat) (holder : Holder)
  /-- PERSISTENT_COMPLETION (R343): The arbiter removes the entry and activates the next request. -/
  | persistentCompletion (line : Nat)
  /-- EVICTION_ACK (R345): The home acknowledges an eviction after counting its tokens. -/
  | evictionAck (die line : Nat)
  /-- HEARTH_ATOMIC (R346): An atomic at the Hearth or cellar unit executes after a recall. -/
  | hearthAtomic (id : Nat)
  /-- MASKED_WRITE (R347): A masked write is applied at a direct-mode line's home slice. -/
  | maskedWrite (id : Nat)
  /-- MIGRATION_CLAIM (R349): A move claims a destination frame, sets fm.move and recalls the page. -/
  | migrationClaim (move : Nat)
  /-- MIGRATION_COPY (R349): With all tokens recalled the engine copies the page. -/
  | migrationCopy (move : Nat)
  /-- MIGRATION_SWITCH (R349): The frame map switches to the destination and held writes apply. -/
  | migrationSwitch (move : Nat)
  /-- MIGRATION_ABANDON (R349): A move is abandoned on a fault or after 40 us of held writes. -/
  | migrationAbandon (move : Nat)
  /-- LINK_WAKE (R350): A message for a sleeping link starts its wake. -/
  | linkWake (link : Nat)
  /-- LINK_WAKE_COMPLETE (R350): A link finishes training and becomes Active. -/
  | linkWakeComplete (link : Nat)
  /-- LINK_WAKE_LATE (R350): A wake passes 3 us and is counted as late. -/
  | linkWakeLate (link : Nat)
  /-- TOKEN_RECREATION (R353): A home recreates a line's tokens under a new epoch after a link loss. -/
  | tokenRecreation (line : Nat)
  /-- AFRIK_GRANT (R365): A grant unit issues a 4 KiB grant to a source. -/
  | afrikGrant (dev : Nat)
  /-- BRIDGE_READ_REQUEST (R357): A slice's read of a host-held line is served after BISnpData. -/
  | bridgeReadRequest (id : Nat)
  /-- BRIDGE_WRITE_REDIRECT (R357): A slice's write request is answered with a masked-write redirect. -/
  | bridgeWriteRedirect (id : Nat)
  /-- BRIDGE_MASKED_WRITE (R357): A masked write is merged at the bridge after BISnpInv of touched halves. -/
  | bridgeMaskedWrite (id : Nat)
  /-- BRIDGE_ATOMIC (R357): A forwarded atomic is applied at the bridge. -/
  | bridgeAtomic (id : Nat)
  /-- BRIDGE_RECALL (R357): A home recall makes the bridge invalidate the host and yield all tokens. -/
  | bridgeRecall (line : Nat)
  /-- HOST_LINE_FETCH (R358): The bridge fetches a host line with RdShared or RdOwn. -/
  | hostLineFetch (line : Nat) (own : Bool)
  /-- DIRTY_EVICT (R358): The bridge writes a dirty host line back. -/
  | dirtyEvict (line : Nat)
  /-- POOL_LINE_FETCH (R361): A pool bridge fetches a line with Any and creates its tokens. -/
  | poolLineFetch (line : Nat)
  /-- ATTACH_NOTICE (R373): A gang's attach reaches the household's cores. -/
  | attachNotice (gang core : Nat)
  /-- DETACH_NOTICE (R370): A core marks a gang detaching and traps household waiters. -/
  | detachNotice (gang core : Nat)
  /-- DETACH_COMPLETE (R370): In-flight Landing accesses and arrivals finish and the gang becomes detached. -/
  | detachComplete (gang : Nat)
  /-- CONTEXT_BIND (R308): Serril binds a context number to a PASID. -/
  | contextBind (ctx pasid : Nat)
  /-- BUFFER_ENTRY_CHANGE (R159): Serril changes a buffer entry after cores drop copies and old accesses perform. -/
  | bufferEntryChange (ctx idx : Nat) (entry : BitVec 128)
  /-- LINK_RETIRE (R350): A link fails training or stays waking 100 us and is retired. -/
  | linkRetire (link : Nat)
  /-- MODULE_LOST (R368): A module unreachable for 100 us is lost to this module. -/
  | moduleLost (dev : Nat)
  /-- HOST_READ_NO_CACHE (R356): A host read with no caching returns a half. -/
  | hostReadNoCache (line half : Nat)
  /-- HOST_READ_SHARED (R356): A host read for Shared gathers all tokens and returns a half. -/
  | hostReadShared (line half : Nat)
  /-- HOST_READ_ANY (R356): A host read for Any gathers all tokens and returns a half. -/
  | hostReadAny (line half : Nat)
  /-- HOST_WRITE (R356): A host write or write-back of a half is merged at the bridge. -/
  | hostWrite (line half : Nat) (st : HalfState) (bytes : List (Nat × Byte))
  /-- HOST_SNOOP (R358): The bridge answers a host snoop from its host-line cache. -/
  | hostSnoop (line : Nat) (inv : Bool)
  /-- MIGRATION_DRIVER_REQUEST (R348): The driver asks Serril to move a named page. -/
  | migrationDriverRequest (ctx page : Nat) (up : Bool)
  /-- ACCESS_FAILURE (R201): An accepted access fails, faulting its registers and key. -/
  | accessFailure (id : Nat) (cause : Cause)
  /-- BOOT_STAGE (R382): A boot stage finishes and the next begins. -/
  | bootStage
  /-- ATS_TRANSLATION_COMPLETION (R299): A translation completion arrives and held accesses resolve. -/
  | atsTranslationCompletion (ctx page : Nat) (reply : AtsReply)
  /-- PRG_RESPONSE_SUCCESS (R306): A Success response makes each home request a fresh translation. -/
  | prgResponseSuccess (pasid page : Nat)
  /-- PRG_RESPONSE_INVALID_REQUEST (R306): An Invalid Request response denies the page. -/
  | prgResponseInvalidRequest (pasid page : Nat)
  /-- PRG_RESPONSE_FAILURE (R306): A Response Failure denies every outstanding group and stops PRI. -/
  | prgResponseFailure (pasid page : Nat)
  /-- ATS_INVALIDATE_REQUEST (R307): An invalidation drops translations, recalls lines and holds accesses for a range. -/
  | atsInvalidateRequest (pasid lo hi : Nat)
  /-- CONTEXT_UNBIND (R309): Unbinding a number starts its retire sweep. -/
  | contextUnbind (ctx : Nat)
  /-- HOME_WINDOW_WRITE (R154): Serril writes a context's home-window entry. -/
  | homeWindowWrite (ctx win : Nat) (entry : DWord)
  /-- ATTRIBUTE_ENTRY_WRITE (R156): Serril writes a page's attribute entry, clearing its migration counter. -/
  | attributeEntryWrite (ctx page : Nat) (entry : DWord)
  /-- HOST_DOORBELL (R256): A host doorbell write posts a card from a host-visible ring. -/
  | hostDoorbell (die queue ctx : Nat) (card : BitVec 512)
  /-- CORRECTABLE_ERROR (R327): A correctable ECC error is corrected and counted. -/
  | correctableError (unit : Nat)
  /-- UNCORRECTABLE_ERROR (R327): An uncorrectable error drops, poisons or faults state by location. -/
  | uncorrectableError (site : ErrorSite)
  /-- PREEMPT_REQUEST (R329): Serril pre-empts a gang at the driver's request or for a dispatcher, stopping it. -/
  | preemptRequest (ctx : Nat)
  /-- L2_EVICTION (R345): An L2 slice evicts a line, sending its tokens home. -/
  | l2Eviction (die line : Nat)
  /-- LINK_SLEEP (R350): Firmware puts an idle link to sleep. -/
  | linkSleep (link : Nat)
  /-- FLIT_CRC_FAILURE (R350): A flit fails its check and is resent, retraining after 16 failures. -/
  | flitCrcFailure (link : Nat)
  /-- AFRIK_DEMAND (R365): A source announces demand to a destination's grant unit. -/
  | afrikDemand (dev bytes : Nat)
  /-- BICONFLICT (R357): A back-invalidation meets a host request and the BIConflict handshake runs. -/
  | biconflict (line half : Nat)
  /-- POOL_BISNPINV (R362): A pool invalidation snoop recalls, writes back and releases a line. -/
  | poolBisnpinv (line : Nat)
  /-- POOL_BISNPDATA (R362): A pool data snoop recalls, writes back and keeps the line Shared. -/
  | poolBisnpdata (line : Nat)
  /-- POOL_PORT_LOST (R363): A pool port is lost and its segments fail with POOL_LOST. -/
  | poolPortLost (port : Nat)
  /-- POOL_SEGMENT_REATTACH (R363): The driver returns a lost segment to service. -/
  | poolSegmentReattach (seg : Nat)
  /-- POOL_SEGMENT_UNMAP (R363): The driver unmaps a lost segment. -/
  | poolSegmentUnmap (seg : Nat)
  /-- POWER_GOOD_RESET (R382): Module reset starts the boot ROM on cellar die 0. -/
  | powerGoodReset
  /-- MEASUREMENT_EXTEND (R383): Serril extends a run-time measurement register at the driver's request. -/
  | measurementExtend (reg : Nat) (data : List Byte)
  /-- GET_VERSION (R385): Answers an SPDM GET_VERSION request. -/
  | getVersion
  /-- GET_CAPABILITIES (R385): Answers an SPDM GET_CAPABILITIES request. -/
  | getCapabilities
  /-- NEGOTIATE_ALGORITHMS (R385): Answers an SPDM NEGOTIATE_ALGORITHMS request. -/
  | negotiateAlgorithms (asym hash : Bool)
  /-- GET_DIGESTS (R385): Answers an SPDM GET_DIGESTS request for slot 0. -/
  | getDigests (slot : Nat)
  /-- GET_CERTIFICATE (R385): Answers an SPDM GET_CERTIFICATE request for slot 0. -/
  | getCertificate (slot : Nat)
  /-- CHALLENGE (R386): Answers an SPDM CHALLENGE with a one-time XMSS signature. -/
  | challenge (slot : Nat) (nonce : List Byte)
  /-- GET_MEASUREMENTS (R385): Answers an SPDM GET_MEASUREMENTS request, signed if asked. -/
  | getMeasurements (index : Nat) (sign : Bool) (nonce : List Byte)
  /-- SPDM_UNSUPPORTED_REQUEST (R385): Answers an unsupported SPDM request with ERROR. -/
  | spdmUnsupportedRequest (code : Nat)
  /-- POWER_TELEMETRY (R387): Management cores read rail telemetry and limit engine rates. -/
  | powerTelemetry (near : Nat) (temps : List (Nat × Nat))
  /-- LIFETIME_COMMIT (R389): Lifetime records are committed to flash every 60 s or at shutdown. -/
  | lifetimeCommit
  /-- LIFETIME_CLEAR (R389): An authorised management-port command clears the lifetime records. -/
  | lifetimeClear (authorised : Bool)
  /-- MANAGEMENT_CORE_RESUME (R323): After HALT the die's management core either resumes the stopped core or ends its gangs through its own interface. -/
  | managementCoreResume (core : Nat) (resume : Bool)
  /-- PRI_REENABLE (R306): The driver re-enables PRI after a Response Failure, so the page-request unit again sends groups and new faults are no longer denied. -/
  | priReenable
  /-- POISON_SCRUB (R327): Serril scrubs a poisoned line at the driver's request, clearing its poison. -/
  | poisonScrub (line : Nat)
  /-- FRAME_MAP_WRITE (R300): Serril writes a home's frame-map entry for a 64 KiB frame. -/
  | frameMapWrite (home : Home) (tpage : Nat) (entry : DWord)
  /-- POOL_SEGMENT_BIND (R360): Serril binds a pool segment to a pool port with a base and a length. -/
  | poolSegmentBind (seg port base len : Nat)
  /-- POWER_LOSS (R389): Power is lost, which loses uncommitted lifetime counts and any burned but unused signing index. -/
  | powerLoss
  /-- MODULE_REACHABLE (R255): A module of the Afrik domain becomes present and reachable again, so cards naming it are no longer refused with status 3. -/
  | moduleReachable (dev : Nat)
  deriving DecidableEq, Repr

end Sys2Proof
end

