-- ==== Sys2Proof/Machine/Forms.lean ====
section
/-! DEFINITION. The operand forms of every opcode: what each field of the word names, and which field values the
encoding admits (R40–R47, R49, R78, R85, R92, R97, R104, R106, R112, R135, R197, R218, R270–R272, R317, R372). An opcode is
class × 64 + index (R53). -/

namespace Sys2Proof.Machine

/-- What an operand field of a word names. -/
inductive FieldKind where
  | unused
  | reg
  /-- n registers from a field that is a multiple of `al`; a strict group must not reach w255 (R198, R273). -/
  | group (n al : Nat) (strict : Bool)
  /-- A uniform register or pair (R43, R96). -/
  | uni (wide : Bool)
  | pred
  /-- An index, condition or control code (R76). -/
  | index
  deriving DecidableEq, Repr

structure FieldUse where
  kind : FieldKind
  rd : Bool
  wr : Bool
  deriving DecidableEq, Repr

/-- The use of the four operand fields. -/
structure Uses where
  d : FieldUse
  a : FieldUse
  b : FieldUse
  c : FieldUse
  deriving DecidableEq, Repr

namespace Forms

def none' : FieldUse := ⟨.unused, false, false⟩
/-- One register, or a pair for a wide operand (R75). -/
def regKind (wide : Bool) : FieldKind := if wide then .group 2 2 false else .reg
def rd (wide : Bool) : FieldUse := ⟨regKind wide, true, false⟩
def wr (wide : Bool) : FieldUse := ⟨regKind wide, false, true⟩
def prd : FieldUse := ⟨.pred, true, false⟩
def pwr : FieldUse := ⟨.pred, false, true⟩
def grp (n al : Nat) (strict read : Bool) : FieldUse := ⟨.group n al strict, read, !read⟩
def idx : FieldUse := ⟨.index, false, false⟩

/-- Types whose operands are pairs (R75). -/
def wide (ty : Nat) : Bool := ty == 2 || ty == 3 || ty == 9

def td (f : Fields) : Nat := f.pk.toNat
def ts (f : Fields) : Nat := f.ck.toNat
def m4 (f : Fields) : Bool := f.m.getLsbD 4
def m3 (f : Fields) : Bool := f.m.getLsbD 3
/-- m[2:0]. -/
def mlow (f : Fields) : Nat := f.m.toNat % 8
/-- imm32[h:l]. -/
def immBits (f : Fields) (h l : Nat) : Nat := (f.imm.toNat / 2 ^ l) % 2 ^ (h - l + 1)

/-- Operand a, a uniform register or pair under m[3] (R43). -/
def srcA (f : Fields) (w : Bool) : FieldUse := if m3 f then ⟨.uni w, true, false⟩ else rd w
/-- Operand b, unused as a register under m[4] (R43). -/
def srcB (f : Fields) (w : Bool) : FieldUse := if m4 f then none' else rd w
/-- The data group of an access of size code `sz` (R198). -/
def dataGroup (sz : Nat) (read : Bool) : FieldUse :=
  match sz with
  | 3 => grp 2 2 true read
  | 4 => grp 4 4 true read
  | 5 => grp 8 8 true read
  | _ => ⟨.reg, read, !read⟩

/-- Sources and registers of PACK (R109): whether a and b are pairs, by td and ts; none for another combination. -/
def packPairs (td ts : Nat) : Option Bool :=
  if (td = 0xA ∨ td = 0xB) ∧ ts = 8 then some false
  else if (td = 0xC ∨ td = 0xD) ∧ ts = 8 then some true
  else if (td = 0xC ∨ td = 0xD) ∧ (ts = 0xA ∨ ts = 0xB) then some false
  else if td = 0xE ∧ (ts = 0xA ∨ ts = 0xB) then some true
  else if td = 0xE ∧ (ts = 0xC ∨ ts = 0xD) then some false
  else none

/-- Registers at d of UNPK (R110), by td and ts. -/
def unpkRegs (td ts : Nat) : Option Nat :=
  if td = 8 ∧ (ts = 0xA ∨ ts = 0xB) then some 2
  else if td = 8 ∧ (ts = 0xC ∨ ts = 0xD) then some 4
  else if (td = 0xA ∨ td = 0xB) ∧ (ts = 0xC ∨ ts = 0xD) then some 2
  else if (td = 0xA ∨ td = 0xB) ∧ ts = 0xE then some 4
  else if (td = 0xC ∨ td = 0xD) ∧ ts = 0xE then some 2
  else none

/-- The uses of classes 0x0–0x2 (R78, R85, R92). -/
def usesInt (op : Nat) (f : Fields) : Uses :=
  let w := wide (ts f)
  let three : Uses := ⟨wr w, srcA f w, srcB f w, none'⟩
  match op with
  | 0x002 => ⟨wr false, srcA f false, srcB f false, ⟨.pred, true, true⟩⟩
  | 0x003 => ⟨wr false, srcA f false, srcB f false, ⟨.pred, true, true⟩⟩
  | 0x006 => ⟨wr w, srcA f w, srcB f w, rd w⟩
  | 0x007 => ⟨wr true, srcA f false, srcB f false, rd true⟩
  | 0x008 => ⟨wr w, srcA f w, none', none'⟩
  | 0x009 => ⟨wr w, srcA f w, none', none'⟩
  | 0x00C => ⟨wr w, srcA f w, srcB f w, rd w⟩
  | 0x00D => ⟨wr true, srcA f true, srcB f false, none'⟩
  | 0x00E => ⟨wr false, srcA f false, srcB f false, rd false⟩
  | 0x00F => ⟨pwr, srcA f w, srcB f w, none'⟩
  | 0x044 => ⟨wr w, srcA f w, none', none'⟩
  | 0x045 => ⟨wr w, srcA f w, srcB f false, none'⟩
  | 0x046 => ⟨wr w, srcA f w, srcB f false, none'⟩
  | 0x047 => ⟨wr w, srcA f w, srcB f false, none'⟩
  | 0x048 => ⟨wr w, srcA f w, srcB f false, none'⟩
  | 0x049 => ⟨wr false, srcA f false, srcB f false, rd false⟩
  | 0x04A => ⟨wr w, srcA f w, srcB f false, none'⟩
  | 0x04B => ⟨wr w, srcA f w, srcB f w, rd false⟩
  | 0x04C => ⟨wr false, srcA f w, none', none'⟩
  | 0x04D => ⟨wr false, srcA f w, none', none'⟩
  | 0x04E => ⟨wr w, srcA f w, none', none'⟩
  | 0x04F => ⟨wr false, srcA f false, srcB f false, rd false⟩
  | 0x050 => ⟨wr w, srcA f w, rd w, rd w⟩
  | 0x080 => ⟨wr w, srcA f w, none', none'⟩
  | 0x081 => ⟨wr w, none', none', none'⟩
  | 0x082 => ⟨wr w, srcA f w, srcB f w, prd⟩
  | 0x083 => ⟨wr w, idx, none', none'⟩
  | 0x084 => ⟨pwr, prd, prd, prd⟩
  | 0x085 => ⟨wr false, none', none', none'⟩
  | 0x086 => ⟨none', srcA f false, srcB f false, none'⟩
  | 0x087 => ⟨wr w, ⟨.uni w, true, false⟩, none', none'⟩
  | 0x088 => ⟨⟨.uni w, false, true⟩, srcA f w, none', none'⟩
  | _ => three

/-- The uses of classes 0x3–0x5 (R97, R104, R106). -/
def usesFloat (op : Nat) (f : Fields) : Uses :=
  let w := wide (ts f)
  match op with
  | 0x0C3 => ⟨wr w, srcA f w, srcB f w, rd w⟩
  | 0x0C6 => ⟨pwr, srcA f w, srcB f w, idx⟩
  | 0x0C7 => ⟨wr w, srcA f w, none', none'⟩
  | 0x0C8 => ⟨pwr, srcA f w, srcB f false, none'⟩
  | 0x0C9 => ⟨wr false, srcA f false, srcB f false, rd false⟩
  | 0x107 => ⟨wr w, srcA f w, srcB f w, none'⟩
  | 0x140 => ⟨wr (wide (td f)), srcA f w, none', idx⟩
  | 0x141 => ⟨wr (wide (td f)), srcA f w, none', idx⟩
  | 0x142 => ⟨wr (wide (td f)), srcA f w, none', idx⟩
  | 0x143 =>
    let p := (packPairs (td f) (ts f)).getD false
    ⟨wr false, srcA f p, srcB f p, idx⟩
  | 0x144 =>
    let n := (unpkRegs (td f) (ts f)).getD 2
    ⟨grp n n false false, srcA f false, none', idx⟩
  | 0x145 => ⟨wr true, grp 8 8 false true, srcB f false, idx⟩
  | op => if op / 64 = 4 then ⟨wr w, srcA f w, none', none'⟩ else ⟨wr w, srcA f w, srcB f w, none'⟩

/-- The mask operand of a warp collective (R135). -/
def maskC (f : Fields) : FieldUse := if m3 f then rd false else none'

/-- The uses of classes 0x6 and 0x7 (R112, R135). -/
def usesControl (op : Nat) (f : Fields) : Uses :=
  let w := wide (ts f)
  match op with
  | 0x181 => ⟨none', rd true, none', none'⟩
  | 0x183 => ⟨none', rd true, none', none'⟩
  | 0x188 => ⟨none', srcA f false, none', none'⟩
  | 0x18B => ⟨none', if m4 f then none' else rd false, none', none'⟩
  | 0x1C0 => ⟨wr w, rd w, srcB f false, maskC f⟩
  | 0x1C1 => ⟨if f.m.toNat % 4 = 3 then wr false else pwr, prd, none', maskC f⟩
  | 0x1C2 => ⟨wr w, rd w, none', maskC f⟩
  | 0x1C3 => ⟨wr false, rd w, none', maskC f⟩
  | 0x1C4 => ⟨pwr, none', none', maskC f⟩
  | 0x1C8 => ⟨none', none', none', maskC f⟩
  | _ => ⟨none', none', none', none'⟩

/-- The uses of classes 0x8–0xC (R197, R218, R270–R272). -/
def usesMemory (op : Nat) (f : Fields) : Uses :=
  let sz := mlow f
  let rz := f.imm.getLsbD 29
  let flag := if rz then pwr else none'
  let p := rd true
  match op with
  | 0x200 => ⟨dataGroup sz false, p, none', flag⟩
  | 0x201 => ⟨none', p, dataGroup sz true, none'⟩
  | 0x202 => ⟨dataGroup sz false, p, none', flag⟩
  | 0x203 => ⟨grp 8 8 true false, p, none', flag⟩
  | 0x204 => ⟨none', p, grp 2 2 true true, none'⟩
  | 0x205 => ⟨none', p, rd true, pwr⟩
  | 0x206 => ⟨none', p, rd true, none'⟩
  | 0x207 => ⟨dataGroup sz false, p, dataGroup sz true, if m3 f then dataGroup sz true else idx⟩
  | 0x208 => ⟨none', p, dataGroup sz true, idx⟩
  | 0x209 => ⟨none', p, rd false, none'⟩
  | 0x20A => if f.m.toNat / 8 = 1 then ⟨none', none', none', none'⟩ else ⟨none', p, rd false, none'⟩
  | 0x20B => ⟨none', p, none', none'⟩
  | 0x243 => ⟨pwr, none', none', none'⟩
  | 0x245 => ⟨none', srcA f false, none', none'⟩
  | 0x280 => ⟨if m4 f then rd true else none', p, rd true, grp 6 2 true true⟩
  | 0x281 => ⟨if m4 f then rd true else none', p, rd true, rd false⟩
  | 0x282 => ⟨if m4 f then rd true else none', p, rd true, grp 6 2 true true⟩
  | 0x283 => ⟨none', p, rd false, rd false⟩
  | 0x284 => ⟨none', p, rd false, rd false⟩
  | 0x285 => ⟨none', p, rd false, none'⟩
  | 0x286 => ⟨none', p, if m3 f then rd false else none', none'⟩
  | 0x287 => ⟨none', p, rd false, none'⟩
  | 0x288 => ⟨none', p, rd false, none'⟩
  | 0x289 => ⟨none', p, none', none'⟩
  | 0x2C0 => ⟨none', p, none', none'⟩
  | 0x2C1 => ⟨none', p, none', none'⟩
  | 0x2C2 => ⟨none', none', srcB f false, none'⟩
  | 0x300 => ⟨wr false, p, rd false, none'⟩
  | 0x301 => ⟨wr false, none', grp 8 8 true true, none'⟩
  | 0x302 => ⟨none', srcA f false, grp 8 1 true true, none'⟩
  | 0x303 => ⟨grp 8 8 true false, none', none', none'⟩
  | 0x304 => ⟨wr false, none', none', none'⟩
  | 0x305 => ⟨none', p, grp 16 16 true true, none'⟩
  | 0x306 => ⟨grp 2 2 true false, p, none', none'⟩
  | 0x307 => ⟨wr false, p, none', none'⟩
  | _ => ⟨none', none', none', none'⟩

/-- The uses of classes 0xD and 0xE (R372, R317). -/
def usesSystem (op : Nat) (f : Fields) : Uses :=
  let w := wide (ts f)
  match op with
  | 0x342 => ⟨wr false, none', none', none'⟩
  | 0x380 => ⟨wr w, idx, none', none'⟩
  | 0x381 => ⟨idx, if m4 f then none' else rd w, none', none'⟩
  | 0x383 => ⟨none', rd false, none', none'⟩
  | 0x384 => ⟨wr w, rd false, none', none'⟩
  | 0x385 => ⟨none', rd false, rd w, none'⟩
  | 0x386 => ⟨wr false, rd false, none', none'⟩
  | 0x388 => ⟨wr false, rd true, none', none'⟩
  | _ => ⟨none', none', none', none'⟩

/-- Whether an opcode is assigned (R53). -/
def assigned (op : Nat) : Bool :=
  let i := op % 64
  match op / 64 with
  | 0 => decide (i ≤ 0x0F)
  | 1 => decide (i ≤ 0x10)
  | 2 => decide (i ≤ 0x08)
  | 3 => decide (i ≤ 0x09)
  | 4 => decide (i ≤ 0x08)
  | 5 => decide (i ≤ 0x05)
  | 6 => decide (i ≤ 0x0D)
  | 7 => decide (i ≤ 0x08)
  | 8 => decide (i ≤ 0x0B)
  | 9 => decide (i ≤ 0x07)
  | 10 => decide (i ≤ 0x09)
  | 11 => decide (i ≤ 0x02)
  | 12 => decide (i ≤ 0x07)
  | 13 => decide (i ≤ 0x02)
  | 14 => decide (i ≤ 0x08)
  | _ => false

/-! ## Type codes (R42) -/

def tyS (t : Nat) : Bool := t ≤ 3
def tyI (t : Nat) : Bool := t ≤ 7
def tyF (t : Nat) : Bool := t == 8 || t == 9 || t == 0xA || t == 0xB
def tyFS (t : Nat) : Bool := t == 8 || t == 9
def tyAny (t : Nat) : Bool := t ≤ 0xE

/-- What each operand field of a word with an opcode of its class names. -/
def usesOfClass (op : Nat) (f : Fields) : Uses :=
  match op / 64 with
  | 0 => usesInt op f
  | 1 => usesInt op f
  | 2 => usesInt op f
  | 3 => usesFloat op f
  | 4 => usesFloat op f
  | 5 => usesFloat op f
  | 6 => usesControl op f
  | 7 => usesControl op f
  | 13 => usesSystem op f
  | 14 => usesSystem op f
  | _ => usesMemory op f

/-- What each operand field of a word with opcode `op` names: of an unassigned opcode, nothing (R54). -/
def uses (op : Nat) (f : Fields) : Uses :=
  if assigned op then usesOfClass op f else ⟨none', none', none', none'⟩

/-- The pairs td, ts that an opcode of classes 0x0–0x7, 0xD and 0xE lists. -/
def typesOk (op td ts : Nat) : Bool :=
  let same (ok : Nat → Bool) : Bool := td == ts && ok ts
  match op with
  | 0x000 => same tyI
  | 0x001 => same tyI
  | 0x002 => same (fun t => t ≤ 1)
  | 0x003 => same (fun t => t ≤ 1)
  | 0x004 => same (fun t => t ≤ 5)
  | 0x005 => same tyS
  | 0x006 => same (fun t => t ≤ 1 || t == 4 || t == 5)
  | 0x007 => (td == 2 && ts == 0) || (td == 3 && ts == 1)
  | 0x008 => same (fun t => t == 0 || t == 2 || t == 4 || t == 6)
  | 0x009 => same (fun t => t == 0 || t == 2 || t == 4 || t == 6)
  | 0x00A => same tyI
  | 0x00B => same tyI
  | 0x00C => same tyI
  | 0x00D => td == 3 && ts ≤ 1
  | 0x00E => same (fun t => tyI t && t != 2 && t != 3)
  | 0x00F => same tyS
  | 0x049 => same (fun t => t ≤ 1)
  | 0x04F => same (fun t => t ≤ 1)
  | 0x080 => same tyAny
  | 0x081 => same (fun t => tyS t || t == 8)
  | 0x082 => same tyAny
  | 0x083 => same (fun t => t == 0 || t == 2)
  | 0x087 => same tyAny
  | 0x088 => same tyAny
  | 0x0C6 => same tyFS
  | 0x0C8 => same tyFS
  | 0x0C9 => td == 8 && (ts == 0xA || ts == 0xB)
  | 0x100 => same tyFS
  | 0x101 => same tyFS
  | 0x102 => same tyFS
  | 0x107 => same tyFS
  | 0x140 => (tyS td && tyS ts) || (tyFS td && tyFS ts)
  | 0x141 => tyS td && tyFS ts
  | 0x142 => tyFS td && tyS ts
  | 0x143 => (packPairs td ts).isSome
  | 0x144 => (unpkRegs td ts).isSome
  | 0x145 => td == 0xE && ts == 8
  | 0x1C0 => same tyAny
  | 0x1C2 => same (fun t => tyS t || tyFS t)
  | 0x1C3 => same tyAny
  | 0x380 => same (fun t => t == 0 || t == 2)
  | 0x381 => same (fun t => t == 0 || t == 2)
  | 0x384 => same (fun t => t == 0 || t == 2)
  | 0x385 => same (fun t => t == 0 || t == 2)
  | _ =>
    match op / 64 with
    | 1 => same tyS
    | 3 => same tyF
    | 4 => same (fun t => t == 8)
    | _ => td == 0 && ts == 0

/-! ## Modifier bits and imm32 -/

/-- The source-modifier bits that name a floating operand of the word (R45). -/
def smodMask (op : Nat) (f : Fields) : Nat :=
  let a := 0b000011; let b := 0b001100; let c := 0b110000
  match op with
  | 0x0C3 => a + b + c
  | 0x0C7 => a
  | 0x0C8 => a
  | 0x0C9 => a + b + c
  | 0x107 => a + b
  | 0x140 => if tyFS (ts f) then a else 0
  | 0x141 => a
  | 0x142 => 0
  | 0x143 => a + b
  | 0x144 => a
  | 0x145 => a
  | op => if op / 64 = 4 then a else a + b

/-- Operand b exists and may be an immediate. -/
def immB (op : Nat) : Bool :=
  match op with
  | 0x008 => false
  | 0x009 => false
  | 0x044 => false
  | 0x04C => false
  | 0x04D => false
  | 0x04E => false
  | 0x050 => false
  | 0x080 => false
  | 0x081 => false
  | 0x083 => false
  | 0x084 => false
  | 0x085 => false
  | 0x087 => false
  | 0x088 => false
  | 0x0C7 => false
  | 0x140 => false
  | 0x141 => false
  | 0x142 => false
  | 0x144 => false
  | op => op / 64 != 4 || op == 0x107

/-- Operand a may be a uniform register. -/
def uniA (op : Nat) : Bool :=
  match op with
  | 0x081 => false
  | 0x083 => false
  | 0x084 => false
  | 0x085 => false
  | 0x087 => false
  | 0x145 => false
  | _ => true

/-- m and imm32 of classes 0x0–0x2 (R43, R44, R78, R85, R92). -/
def modIntOk (op : Nat) (f : Fields) : Bool :=
  let low := mlow f
  (immB op || !m4 f) && (uniA op || !m3 f) &&
  (match op with
   | 0x000 => low ≤ 1
   | 0x001 => low ≤ 1
   | 0x004 => low ≤ 1
   | 0x006 => low ≤ 1
   | 0x008 => low ≤ 1
   | 0x009 => low ≤ 1
   | 0x00D => true
   | 0x00F => low ≤ 5
   | 0x045 => low ≤ 1
   | 0x046 => low ≤ 1
   | 0x047 => low ≤ 1
   | 0x049 => low ≤ 1
   | _ => low == 0) &&
  (match op with
   | 0x050 => immBits f 31 8 == 0
   | 0x084 => immBits f 31 8 == 0
   | 0x081 => true
   | _ => m4 f || f.imm == 0)

/-- m and imm32 of classes 0x3–0x5, the condition and control fields, and the mode restriction of R63 (R45, R100, R106). -/
def modFloatOk (op : Nat) (f : Fields) : Bool :=
  (immB op || !m4 f) && (uniA op || !m3 f) &&
  (m4 f || (immBits f 31 6 == 0 && f.imm.toNat &&& (63 - smodMask op f) == 0)) &&
  (match op with
   | 0x0C6 => f.c.toNat ≤ 7
   | 0x140 => f.c.toNat ≤ 1
   | 0x141 => f.c.toNat ≤ 1
   | 0x142 => f.c.toNat == 0
   | 0x143 => f.c.toNat ≤ 1 && (!(m4 f) || packPairs (td f) (ts f) == some false) &&
              (td f == 0xA || td f == 0xB || f.m.toNat % 4 == 0)
   | 0x144 => f.c.toNat == 0
   | 0x145 => f.c.toNat == 0 && f.m.toNat % 4 == 0
   | _ => true)

/-- m and imm32 of class 0x6 (R112) and class 0x7 (R135). -/
def modControlOk (op : Nat) (f : Fields) : Bool :=
  match op with
  | 0x180 => f.m.toNat < 8
  | 0x182 => f.m.toNat < 8
  | 0x187 => f.m == 0
  | 0x188 => !(m4 f)
  | 0x18B => f.m.toNat % 16 == 0 && (m4 f || f.imm == 0)
  | 0x18C => f.m == 0
  | 0x18D => f.m == 0
  | 0x1C0 => mlow f ≤ 3 && (if m4 f then immBits f 31 5 == 0 else f.imm == 0)
  | 0x1C1 => !(m4 f) && f.imm == 0
  | 0x1C2 => !(m4 f) && f.imm == 0 && mlow f ≤ 5 && (mlow f ≤ 2 || tyS (ts f))
  | 0x1C3 => !(m4 f) && f.imm == 0 && mlow f == 0
  | 0x1C4 => !(m4 f) && f.imm == 0 && mlow f == 0
  | 0x1C5 => f.m.toNat ≤ 1 && f.imm.toNat ≤ 15
  | 0x1C6 => f.m.toNat ≤ 1 && f.imm.toNat ≤ 7
  | 0x1C7 => f.m.toNat ≤ 1 && f.imm.toNat ≤ 3
  | 0x1C8 => !(m4 f) && f.imm == 0 && mlow f == 0
  | _ => f.m == 0 && f.imm == 0

/-- The scope code of a memory operand or of imm32[26:24] (R46, R218, R272). -/
def scope (f : Fields) : Nat := immBits f 26 24
def policy (f : Fields) : Nat := immBits f 28 27
def rz (f : Fields) : Bool := f.imm.getLsbD 29

/-- The memory-operand layout of imm32 (R46, R47). -/
def memImm (f : Fields) (rzOk polOk : Bool) : Bool :=
  immBits f 31 30 == 0 && (rzOk || !(rz f)) && scope f != 7 && (polOk || policy f == 0)
/-- imm32 that holds a scope alone (R218, R272). -/
def scopeImm (f : Fields) : Bool :=
  immBits f 31 27 == 0 && immBits f 23 0 == 0 && scope f != 7

/-- The atomic control in field c (R210). -/
def atomCtlOk (f : Fields) : Bool :=
  let ty := f.c.toNat % 16
  f.c.toNat < 128 && f.c.toNat / 16 ≤ 6 && ty != 15 && (mlow f == 3) == wide ty

/-- m, imm32 and key fields of classes 0x8–0xC (R197, R210, R218, R270–R272). -/
def modMemoryOk (op : Nat) (f : Fields) : Bool :=
  let sz := mlow f
  let hi := f.m.toNat / 8
  let ldSz := sz ≤ 5 && !(m4 f) && (!(m3 f) || sz ≤ 1)
  match op with
  | 0x200 => ldSz && memImm f true true
  | 0x201 => sz ≤ 5 && hi == 0 && memImm f false true
  | 0x202 => ldSz && memImm f true true && f.ck == 0 && scope f == 0
  | 0x203 => (sz == 2 || sz == 3) && hi == 0 && memImm f true true
  | 0x204 => sz == 2 && hi == 0 && memImm f false true
  | 0x205 => sz == 5 && hi == 0 && memImm f false true
  | 0x206 => sz == 5 && hi ≤ 1 && memImm f false true
  | 0x207 => (sz == 2 || sz == 3) && hi ≤ 1 && memImm f false false && (m3 f || atomCtlOk f)
  | 0x208 => (sz == 2 || sz == 3) && hi == 0 && memImm f false false && atomCtlOk f
  | 0x209 => sz == 0 && hi == 0 && memImm f false true
  | 0x20A => sz == 0 && memImm f false false
  | 0x20B => sz == 0 && hi == 0 && memImm f false false
  | 0x240 => f.m == 0 && immBits f 31 4 == 0
  | 0x241 => f.m == 0 && f.imm == 0
  | 0x242 => f.m == 0 && f.pk == 0 && scopeImm f
  | 0x243 => f.m == 0 && f.pk == 0 && scopeImm f
  | 0x244 => f.m == 0 && f.pk == 0 && f.ck == 15 && scopeImm f
  | 0x245 => f.m.toNat &&& 0b10111 == 0 && f.pk == 0 && scopeImm f
  | 0x246 => f.m == 0 && f.ck == 0 && f.imm == 0
  | 0x247 => f.m == 0 && f.ck == 0 && f.imm == 0
  | 0x280 => sz == 0 && !(m4 f && m3 f) && memImm f false true
  | 0x281 => sz == 0 && memImm f false true
  | 0x282 => sz == 0 && !(m3 f) && memImm f false true
  | 0x283 => sz == 2 && hi == 0 && memImm f false false
  | 0x284 => sz == 2 && hi == 0 && memImm f false false
  | 0x285 => sz == 4 && hi == 0 && memImm f false false && scope f == 0
  | 0x286 => sz == 4 && hi ≤ 1 && memImm f false false && scope f == 0
  | 0x287 => sz == 4 && hi ≤ 1 && memImm f false false
  | 0x288 => sz == 4 && hi == 0 && memImm f false false && scope f == 0
  | 0x289 => f.m == 0 && memImm f false false && scope f == 4
  | 0x2C0 => f.m == 0 && memImm f false true
  | 0x2C1 => f.m == 0 && memImm f false true
  | 0x2C2 => sz == 0 && (m4 f || f.imm == 0)
  | 0x300 => f.m == 0 && memImm f false false
  | 0x301 => f.m == 0 && scopeImm f
  | 0x302 => f.m.toNat &&& 0b10111 == 0 && scopeImm f
  | 0x303 => f.m == 0 && f.imm == 0
  | 0x304 => f.m == 0 && f.imm == 0 && f.pk == 0 && f.ck == 0
  | _ => f.m == 0 && memImm f false false

/-- Control registers by number (R315): whether it exists for the type, and whether it is written. -/
def ctlReadable (n ty : Nat) : Bool :=
  if ty = 2 then n == 2 || n == 11 || n == 13 || n == 15 || n == 17 else n ≤ 18
def ctlWritable (n ty : Nat) : Bool :=
  if ty = 2 then n == 17 else n == 0 || n == 1 || n == 4 || n == 5 || n == 6 || n == 7 || n == 8

/-- MOVS indexes (R94). -/
def movsOk (n ty : Nat) : Bool :=
  if ty = 2 then n == 15 || n == 18 || n == 23 || n == 25 else n ≤ 25

/-- m, imm32 and index fields of classes 0xD and 0xE (R372, R317). -/
def modSystemOk (op : Nat) (f : Fields) : Bool :=
  match op with
  | 0x380 => f.m == 0 && f.imm == 0 && ctlReadable f.a.toNat (ts f)
  | 0x381 => f.m.toNat % 16 == 0 && (if m4 f then ts f == 0 else f.imm == 0) && ctlWritable f.d.toNat (ts f)
  | 0x384 => f.m == 0 && immBits f 31 16 == 0
  | 0x385 => f.m == 0 && immBits f 31 16 == 0
  | 0x388 => f.m == 0 && immBits f 31 16 == 0
  | _ => f.m == 0 && f.imm == 0

/-- Whether a class keeps types, not keys, in pk and ck (R42, R46). -/
def typed (op : Nat) : Bool := op / 64 ≤ 7 || op / 64 == 13 || op / 64 == 14

/-- A produce key of k15 is misuse in the memory-bearing classes (R46). -/
def keyOk (op : Nat) (f : Fields) : Bool := !(8 ≤ op / 64 && op / 64 ≤ 12) || f.pk != 15

/-- A field value that its use admits, whatever the allocation (R40, R43, R76). -/
def fieldOk (u : FieldUse) (x : BitVec 8) : Bool :=
  match u.kind with
  | .unused => true
  | .reg => true
  | .group n al strict =>
    x.toNat % al == 0 && x.toNat != 255 && (if strict then x.toNat + n ≤ 255 else x.toNat + n ≤ 256)
  | .uni w => x.toNat < 64 && (!w || x.toNat % 2 == 0)
  | .pred => x.toNat < 8
  | .index => true

/-- The checks of step 4 of R55 that depend on the word alone: the word of an assigned opcode is well formed. -/
def wordOk (op : Nat) (f : Fields) : Bool :=
  let u := uses op f
  fieldOk u.d f.d && fieldOk u.a f.a && fieldOk u.b f.b && fieldOk u.c f.c &&
  (!(typed op) || typesOk op (td f) (ts f)) &&
  (match op / 64 with
   | 0 => modIntOk op f
   | 1 => modIntOk op f
   | 2 => modIntOk op f && (op != 0x083 || movsOk f.a.toNat (ts f))
   | 3 => modFloatOk op f
   | 4 => modFloatOk op f
   | 5 => modFloatOk op f
   | 6 => modControlOk op f
   | 7 => modControlOk op f
   | 13 => modSystemOk op f
   | 14 => modSystemOk op f
   | _ => modMemoryOk op f)

/-- A field value that an allocation of n registers admits (R11, R40). -/
def allocOk (u : FieldUse) (x : BitVec 8) (n : Nat) : Bool :=
  match u.kind with
  | .unused => x.toNat < n || x.toNat == 255
  | .reg => x.toNat < n || x.toNat == 255
  | .group k _ _ => x.toNat + k ≤ n
  | _ => true

/-- R11 for the whole word. -/
def wordAllocOk (op : Nat) (f : Fields) (n : Nat) : Bool :=
  let u := uses op f
  allocOk u.d f.d n && allocOk u.a f.a n && allocOk u.b f.b n && allocOk u.c f.c n

/-- The registers that a field names. -/
def regsOf (u : FieldUse) (x : BitVec 8) : List Nat :=
  match u.kind with
  | .reg => if x.toNat = 255 then [] else [x.toNat]
  | .group n _ _ => ((List.range n).map (x.toNat + ·)).filter (· < 255)
  | _ => []

def predsOf (u : FieldUse) (x : BitVec 8) : List Nat :=
  match u.kind with
  | .pred => if x.toNat % 8 = 7 then [] else [x.toNat % 8]
  | _ => []

def unisOf (u : FieldUse) (x : BitVec 8) : List Nat :=
  match u.kind with
  | .uni w => (if w then [x.toNat, x.toNat + 1] else [x.toNat]).filter (· < 63)
  | _ => []

/-- The four fields with their uses. -/
def fieldsOf (op : Nat) (f : Fields) : List (FieldUse × BitVec 8) :=
  let u := uses op f
  [(u.d, f.d), (u.a, f.a), (u.b, f.b), (u.c, f.c)]

/-- General registers read and written by a word. -/
def readRegs (op : Nat) (f : Fields) : List Nat :=
  (fieldsOf op f).flatMap (fun (u, x) => if u.rd then regsOf u x else [])
def writeRegs (op : Nat) (f : Fields) : List Nat :=
  (fieldsOf op f).flatMap (fun (u, x) => if u.wr then regsOf u x else [])

/-- Predicates read as operands (P2W reads all; the guard is not among them) and written. -/
def readPreds (op : Nat) (f : Fields) : List Nat :=
  if op = 0x085 then List.range 7
  else (fieldsOf op f).flatMap (fun (u, x) => if u.rd then predsOf u x else [])
def writePreds (op : Nat) (f : Fields) : List Nat :=
  (fieldsOf op f).flatMap (fun (u, x) => if u.wr then predsOf u x else [])

def readUnis (op : Nat) (f : Fields) : List Nat :=
  (fieldsOf op f).flatMap (fun (u, x) => if u.rd then unisOf u x else [])
def writeUnis (op : Nat) (f : Fields) : List Nat :=
  (fieldsOf op f).flatMap (fun (u, x) => if u.wr then unisOf u x else [])

/-- Whether an opcode has a memory operand, and so an offset (R46, R50). -/
def hasOff (op : Nat) : Bool :=
  op / 64 == 8 || op / 64 == 10 || op == 0x2C0 || op == 0x2C1 || op == 0x300 || op == 0x305 || op == 0x306 || op == 0x307

/-- Whether a field of the word names a register in the form that the word encodes (R50). -/
def namesReg (u : FieldUse) : Bool :=
  match u.kind with
  | .reg => true
  | .group _ _ _ => true
  | _ => false

/-- Transfers (R38). -/
def isTransfer (op : Nat) : Bool := 0x180 ≤ op && op ≤ 0x184

/-- The latency of the fixed-latency results of an opcode: none for tracked results (R19). -/
def latency (op : Nat) (f : Fields) : Option Nat :=
  match op / 64 with
  | 0 => some (if (uses op f).d.kind == .group 2 2 false then 8 else 4)
  | 1 => some (if (uses op f).d.kind == .group 2 2 false then 8 else 4)
  | 2 => if op = 0x083 then none
         else some (if (uses op f).d.kind == .group 2 2 false then 8 else 4)
  | 3 => some (if td f == 9 || ts f == 9 then 8 else 6)
  | 5 => some (if td f == 9 || ts f == 9 || wide (td f) || op == 0x145 then 8 else 6)
  | _ => none

/-- SignExt(mem.off, 64) (R46). -/
def memOff (f : Fields) : DWord := (f.imm.extractLsb' 0 24).signExtend 64

/-- The opcode and fields of a word row (R53); none for REP_REPETITION and the events. -/
def wordOf : Instr → Option (Nat × Fields)
  | .add f => some (0x000, f)
  | .sub f => some (0x001, f)
  | .addc f => some (0x002, f)
  | .subb f => some (0x003, f)
  | .mul f => some (0x004, f)
  | .mulh f => some (0x005, f)
  | .mad f => some (0x006, f)
  | .madw f => some (0x007, f)
  | .abs f => some (0x008, f)
  | .neg f => some (0x009, f)
  | .min f => some (0x00A, f)
  | .max f => some (0x00B, f)
  | .clamp f => some (0x00C, f)
  | .lea f => some (0x00D, f)
  | .sad f => some (0x00E, f)
  | .cmp f => some (0x00F, f)
  | .and f => some (0x040, f)
  | .or f => some (0x041, f)
  | .xor f => some (0x042, f)
  | .andn f => some (0x043, f)
  | .not f => some (0x044, f)
  | .shl f => some (0x045, f)
  | .shr f => some (0x046, f)
  | .sar f => some (0x047, f)
  | .rot f => some (0x048, f)
  | .funl f => some (0x049, f)
  | .bfx f => some (0x04A, f)
  | .bfi f => some (0x04B, f)
  | .popc f => some (0x04C, f)
  | .clz f => some (0x04D, f)
  | .brev f => some (0x04E, f)
  | .bytp f => some (0x04F, f)
  | .log3 f => some (0x050, f)
  | .mov f => some (0x080, f)
  | .movi f => some (0x081, f)
  | .sel f => some (0x082, f)
  | .movs f => some (0x083, f)
  | .plog f => some (0x084, f)
  | .p2w f => some (0x085, f)
  | .w2p f => some (0x086, f)
  | .rdu f => some (0x087, f)
  | .wru f => some (0x088, f)
  | .fadd f => some (0x0C0, f)
  | .fsub f => some (0x0C1, f)
  | .fmul f => some (0x0C2, f)
  | .ffma f => some (0x0C3, f)
  | .fmin f => some (0x0C4, f)
  | .fmax f => some (0x0C5, f)
  | .fcmp f => some (0x0C6, f)
  | .frnd f => some (0x0C7, f)
  | .fcls f => some (0x0C8, f)
  | .fdot2 f => some (0x0C9, f)
  | .frcp f => some (0x100, f)
  | .frsq f => some (0x101, f)
  | .fsqrt f => some (0x102, f)
  | .fex2 f => some (0x103, f)
  | .flg2 f => some (0x104, f)
  | .fsin f => some (0x105, f)
  | .fcos f => some (0x106, f)
  | .fdiv f => some (0x107, f)
  | .ftanh f => some (0x108, f)
  | .cvt f => some (0x140, f)
  | .cvti f => some (0x141, f)
  | .cvtf f => some (0x142, f)
  | .pack f => some (0x143, f)
  | .unpk f => some (0x144, f)
  | .qblk f => some (0x145, f)
  | .bra f => some (0x180, f)
  | .brx f => some (0x181, f)
  | .call f => some (0x182, f)
  | .callx f => some (0x183, f)
  | .ret f => some (0x184, f)
  | .exit f => some (0x185, f)
  | .nop f => some (0x186, f)
  | .rep f => some (0x187, f)
  | .rjset f => some (0x188, f)
  | .rjwait f => some (0x189, f)
  | .yield f => some (0x18A, f)
  | .sleep f => some (0x18B, f)
  | .bkpt f => some (0x18C, f)
  | .trap f => some (0x18D, f)
  | .shfl f => some (0x1C0, f)
  | .vote f => some (0x1C1, f)
  | .wred f => some (0x1C2, f)
  | .matchLanes f => some (0x1C3, f)
  | .elect f => some (0x1C4, f)
  | .wsync f => some (0x1C8, f)
  | .barb f => some (0x1C5, f)
  | .barg f => some (0x1C6, f)
  | .barh f => some (0x1C7, f)
  | .ld f => some (0x200, f)
  | .st f => some (0x201, f)
  | .ldr f => some (0x202, f)
  | .ldd f => some (0x203, f)
  | .std f => some (0x204, f)
  | .ldt f => some (0x205, f)
  | .stt f => some (0x206, f)
  | .atom f => some (0x207, f)
  | .atomCas f => some (0x207, f)
  | .red f => some (0x208, f)
  | .pref f => some (0x209, f)
  | .cctlInv1 f => some (0x20A, f)
  | .cctlInv1all f => some (0x20A, f)
  | .cctlWb2 f => some (0x20A, f)
  | .cctlEvict2 f => some (0x20A, f)
  | .pgreq f => some (0x20B, f)
  | .kjoin f => some (0x240, f)
  | .kcopy f => some (0x241, f)
  | .kwait f => some (0x242, f)
  | .ktest f => some (0x243, f)
  | .fence f => some (0x244, f)
  | .ksend f => some (0x245, f)
  | .krecv f => some (0x246, f)
  | .kclr f => some (0x247, f)
  | .cpy f => some (0x280, f)
  | .cpyb f => some (0x281, f)
  | .cpyf f => some (0x282, f)
  | .accld f => some (0x283, f)
  | .accst f => some (0x284, f)
  | .obinit f => some (0x285, f)
  | .obarr f => some (0x286, f)
  | .obarrHold f => some (0x286, f)
  | .obexp f => some (0x287, f)
  | .obexpRls f => some (0x287, f)
  | .obwait f => some (0x288, f)
  | .coll f => some (0x289, f)
  | .mma f => some (0x2C0, f)
  | .mdrn f => some (0x2C1, f)
  | .mzero f => some (0x2C2, f)
  | .post f => some (0x300, f)
  | .spawn f => some (0x301, f)
  | .mbsend f => some (0x302, f)
  | .mbrecv f => some (0x303, f)
  | .mbstat f => some (0x304, f)
  | .chapp f => some (0x305, f)
  | .chseq f => some (0x306, f)
  | .glaunch f => some (0x307, f)
  | .hhatt f => some (0x340, f)
  | .hhdet f => some (0x341, f)
  | .hhstat f => some (0x342, f)
  | .ctlr f => some (0x380, f)
  | .ctlw f => some (0x381, f)
  | .resume f => some (0x382, f)
  | .killw f => some (0x383, f)
  | .snapr f => some (0x384, f)
  | .snapw f => some (0x385, f)
  | .rett f => some (0x386, f)
  | .halt f => some (0x387, f)
  | .sysc f => some (0x388, f)
  | _ => none

/-- Where one opcode gives several rows, the row that m selects (R197, R210, R214, R278). -/
def rowOk : Instr → Bool
  | .atom f => !(m3 f)
  | .atomCas f => m3 f
  | .cctlInv1 f => f.m.toNat / 8 == 0
  | .cctlInv1all f => f.m.toNat / 8 == 1
  | .cctlWb2 f => f.m.toNat / 8 == 2
  | .cctlEvict2 f => f.m.toNat / 8 == 3
  | .obarr f => !(m3 f)
  | .obarrHold f => m3 f
  | .obexp f => !(m3 f)
  | .obexpRls f => m3 f
  | _ => true

end Forms

end Sys2Proof.Machine
end

