-- ==== Sys2Proof/WellFormed.lean ====
section
/-! DEFINITION. Well-formedness: the checks of steps 4 and 5 of R55 that depend on the word alone. -/

namespace Sys2Proof

/-- An instruction that the encoding admits: a word row whose fields pass the checks of R40–R47, R46 (pk) and of its own entry; the
events of the machine have no fields to check. -/
def Instr.wellFormed (i : Instr) : Bool :=
  match Machine.Forms.wordOf i with
  | some (op, f) => Machine.Forms.assigned op && Machine.Forms.wordOk op f && Machine.Forms.keyOk op f &&
      Machine.Forms.rowOk i
  | none => true

abbrev WellFormed (i : Instr) : Prop := i.wellFormed = true

end Sys2Proof
end

