-- ==== Sys2Proof/Decode.lean ====
section
/-! DEFINITION. The decoder (R35, R36, R39, R53, R54), total on any bytes, and the encoder written from the same layouts. -/

namespace Sys2Proof

/-- Why bits are no instruction. -/
inductive DecodeError where
  /-- The opcode is unassigned (R54). -/
  | illegalOpcode (op : Nat)
  /-- Fewer than 12 bytes. -/
  | tooShort
  deriving DecidableEq, Repr

/-- The fields of a word (R39). -/
def fieldsOfWord (w : InsnWord) : Fields :=
  { imm := w.extractLsb' 64 32, m := w.extractLsb' 59 5, ck := w.extractLsb' 55 4, pk := w.extractLsb' 51 4,
    c := w.extractLsb' 43 8, b := w.extractLsb' 35 8, a := w.extractLsb' 27 8, d := w.extractLsb' 19 8,
    neg := w.getLsbD 18, guard := w.extractLsb' 15 3, yield := w.getLsbD 14, stall := w.extractLsb' 10 4 }

/-- insn.opcode (R39). -/
def opcodeOfWord (w : InsnWord) : Nat := (w.extractLsb' 0 10).toNat

/-- The word with these fields and opcode (R39). -/
def wordOfFields (op : BitVec 10) (f : Fields) : InsnWord :=
  f.imm ++ f.m ++ f.ck ++ f.pk ++ f.c ++ f.b ++ f.a ++ f.d ++ BitVec.ofBool f.neg ++ f.guard ++ BitVec.ofBool f.yield
    ++ f.stall ++ op

/-- The row of an opcode (R53). -/
def instrOf (op : Nat) (f : Fields) : Option Instr :=
  match op with
  | 0x000 => some (.add f)
  | 0x001 => some (.sub f)
  | 0x002 => some (.addc f)
  | 0x003 => some (.subb f)
  | 0x004 => some (.mul f)
  | 0x005 => some (.mulh f)
  | 0x006 => some (.mad f)
  | 0x007 => some (.madw f)
  | 0x008 => some (.abs f)
  | 0x009 => some (.neg f)
  | 0x00A => some (.min f)
  | 0x00B => some (.max f)
  | 0x00C => some (.clamp f)
  | 0x00D => some (.lea f)
  | 0x00E => some (.sad f)
  | 0x00F => some (.cmp f)
  | 0x040 => some (.and f)
  | 0x041 => some (.or f)
  | 0x042 => some (.xor f)
  | 0x043 => some (.andn f)
  | 0x044 => some (.not f)
  | 0x045 => some (.shl f)
  | 0x046 => some (.shr f)
  | 0x047 => some (.sar f)
  | 0x048 => some (.rot f)
  | 0x049 => some (.funl f)
  | 0x04A => some (.bfx f)
  | 0x04B => some (.bfi f)
  | 0x04C => some (.popc f)
  | 0x04D => some (.clz f)
  | 0x04E => some (.brev f)
  | 0x04F => some (.bytp f)
  | 0x050 => some (.log3 f)
  | 0x080 => some (.mov f)
  | 0x081 => some (.movi f)
  | 0x082 => some (.sel f)
  | 0x083 => some (.movs f)
  | 0x084 => some (.plog f)
  | 0x085 => some (.p2w f)
  | 0x086 => some (.w2p f)
  | 0x087 => some (.rdu f)
  | 0x088 => some (.wru f)
  | 0x0C0 => some (.fadd f)
  | 0x0C1 => some (.fsub f)
  | 0x0C2 => some (.fmul f)
  | 0x0C3 => some (.ffma f)
  | 0x0C4 => some (.fmin f)
  | 0x0C5 => some (.fmax f)
  | 0x0C6 => some (.fcmp f)
  | 0x0C7 => some (.frnd f)
  | 0x0C8 => some (.fcls f)
  | 0x0C9 => some (.fdot2 f)
  | 0x100 => some (.frcp f)
  | 0x101 => some (.frsq f)
  | 0x102 => some (.fsqrt f)
  | 0x103 => some (.fex2 f)
  | 0x104 => some (.flg2 f)
  | 0x105 => some (.fsin f)
  | 0x106 => some (.fcos f)
  | 0x107 => some (.fdiv f)
  | 0x108 => some (.ftanh f)
  | 0x140 => some (.cvt f)
  | 0x141 => some (.cvti f)
  | 0x142 => some (.cvtf f)
  | 0x143 => some (.pack f)
  | 0x144 => some (.unpk f)
  | 0x145 => some (.qblk f)
  | 0x180 => some (.bra f)
  | 0x181 => some (.brx f)
  | 0x182 => some (.call f)
  | 0x183 => some (.callx f)
  | 0x184 => some (.ret f)
  | 0x185 => some (.exit f)
  | 0x186 => some (.nop f)
  | 0x187 => some (.rep f)
  | 0x188 => some (.rjset f)
  | 0x189 => some (.rjwait f)
  | 0x18A => some (.yield f)
  | 0x18B => some (.sleep f)
  | 0x18C => some (.bkpt f)
  | 0x18D => some (.trap f)
  | 0x1C0 => some (.shfl f)
  | 0x1C1 => some (.vote f)
  | 0x1C2 => some (.wred f)
  | 0x1C3 => some (.matchLanes f)
  | 0x1C4 => some (.elect f)
  | 0x1C8 => some (.wsync f)
  | 0x1C5 => some (.barb f)
  | 0x1C6 => some (.barg f)
  | 0x1C7 => some (.barh f)
  | 0x200 => some (.ld f)
  | 0x201 => some (.st f)
  | 0x202 => some (.ldr f)
  | 0x203 => some (.ldd f)
  | 0x204 => some (.std f)
  | 0x205 => some (.ldt f)
  | 0x206 => some (.stt f)
  | 0x207 => some (if Machine.Forms.m3 f then .atomCas f else .atom f)
  | 0x208 => some (.red f)
  | 0x209 => some (.pref f)
  | 0x20A => some (match f.m.toNat / 8 with
      | 0 => .cctlInv1 f
      | 1 => .cctlInv1all f
      | 2 => .cctlWb2 f
      | _ => .cctlEvict2 f)
  | 0x20B => some (.pgreq f)
  | 0x240 => some (.kjoin f)
  | 0x241 => some (.kcopy f)
  | 0x242 => some (.kwait f)
  | 0x243 => some (.ktest f)
  | 0x244 => some (.fence f)
  | 0x245 => some (.ksend f)
  | 0x246 => some (.krecv f)
  | 0x247 => some (.kclr f)
  | 0x280 => some (.cpy f)
  | 0x281 => some (.cpyb f)
  | 0x282 => some (.cpyf f)
  | 0x283 => some (.accld f)
  | 0x284 => some (.accst f)
  | 0x285 => some (.obinit f)
  | 0x286 => some (if Machine.Forms.m3 f then .obarrHold f else .obarr f)
  | 0x287 => some (if Machine.Forms.m3 f then .obexpRls f else .obexp f)
  | 0x288 => some (.obwait f)
  | 0x289 => some (.coll f)
  | 0x2C0 => some (.mma f)
  | 0x2C1 => some (.mdrn f)
  | 0x2C2 => some (.mzero f)
  | 0x300 => some (.post f)
  | 0x301 => some (.spawn f)
  | 0x302 => some (.mbsend f)
  | 0x303 => some (.mbrecv f)
  | 0x304 => some (.mbstat f)
  | 0x305 => some (.chapp f)
  | 0x306 => some (.chseq f)
  | 0x307 => some (.glaunch f)
  | 0x340 => some (.hhatt f)
  | 0x341 => some (.hhdet f)
  | 0x342 => some (.hhstat f)
  | 0x380 => some (.ctlr f)
  | 0x381 => some (.ctlw f)
  | 0x382 => some (.resume f)
  | 0x383 => some (.killw f)
  | 0x384 => some (.snapr f)
  | 0x385 => some (.snapw f)
  | 0x386 => some (.rett f)
  | 0x387 => some (.halt f)
  | 0x388 => some (.sysc f)
  | _ => none

/-- Decodes one 96-bit word. A word of an assigned opcode decodes whatever its fields: a malformed field is a trap of the
instruction (R41, R55), which `WellFormed` names. -/
def decodeWord (w : InsnWord) : Except DecodeError Instr :=
  match instrOf (opcodeOfWord w) (fieldsOfWord w) with
  | some i => .ok i
  | none => .error (.illegalOpcode (opcodeOfWord w))

/-- Little-endian value of a list of bytes (R5). -/
def leValue : List Byte → Nat
  | [] => 0
  | b :: bs => b.toNat + 256 * leValue bs

/-- The n low bytes of a value, lowest first (R5). -/
def bytesOf : Nat → Nat → List Byte
  | 0, _ => []
  | n + 1, x => BitVec.ofNat 8 x :: bytesOf n (x / 256)

/-- Decodes the 12 bytes at the front of a list; the rest is returned. -/
def decode (bs : List Byte) : Except DecodeError (Instr × List Byte) :=
  if bs.length < 12 then .error .tooShort
  else match decodeWord (BitVec.ofNat 96 (leValue (bs.take 12))) with
    | .ok i => .ok (i, bs.drop 12)
    | .error e => .error e

/-- The instruction that a word of `nbits` bits reads as, its higher bits zero. -/
def decodeTableWord (nbits w : Nat) : Option Instr :=
  match decode (bytesOf 12 (w % 2 ^ nbits)) with
  | .ok (i, _) => some i
  | .error _ => none

/-- The word of an instruction; none for REP_REPETITION and the events, which have no encoding. -/
def encode (i : Instr) : Option InsnWord :=
  match Machine.Forms.wordOf i with
  | some (op, f) => some (wordOfFields (BitVec.ofNat 10 op) f)
  | none => none

/-! ## Fetch lines (R35–R38) -/

/-- A fetch line: its five words and its line word. -/
structure Line where
  slots : List InsnWord
  word : BitVec 32
  deriving DecidableEq, Repr

/-- The line of 64 bytes (R35). -/
def lineOf (bs : List Byte) : Line :=
  { slots := (List.range 5).map (fun i => BitVec.ofNat 96 (leValue ((bs.drop (12 * i)).take 12))),
    word := BitVec.ofNat 32 (leValue ((bs.drop 60).take 4)) }

def Line.slot (l : Line) (i : Nat) : InsnWord := l.slots.getD i 0
/-- line.tmask (R36). -/
def Line.tmask (l : Line) (i : Nat) : Bool := i < 5 && l.word.getLsbD i
/-- line.pair (R36). -/
def Line.pair (l : Line) (j : Nat) : Bool := j < 4 && l.word.getLsbD (5 + j)
/-- Bits [15:9] of the line word are zero (R36). -/
def Line.reservedOk (l : Line) : Bool := l.word.extractLsb' 9 7 == 0

/-- Exclusive OR of the six 16-bit pieces of a word. -/
def fold16 (w : InsnWord) : BitVec 16 :=
  (List.range 6).foldl (fun acc i => acc ^^^ w.extractLsb' (16 * i) 16) 0

/-- The parity that a line must carry (R36). -/
def Line.parity (l : Line) : BitVec 16 :=
  l.slots.foldl (fun acc w => acc ^^^ fold16 w) (l.word.extractLsb' 0 16)

def Line.parityOk (l : Line) : Bool := l.parity == l.word.extractLsb' 16 16

/-- The line word for given slots, with tmask, pair and the right parity. -/
def lineWordFor (slots : List InsnWord) (tmask : BitVec 5) (pair : BitVec 4) : BitVec 32 :=
  let low : BitVec 16 := (0 : BitVec 7) ++ pair ++ tmask
  (Line.parity ⟨slots, low.zeroExtend 32⟩) ++ low

/-- The 64 bytes of a line (R35). -/
def lineBytes (l : Line) : List Byte :=
  l.slots.flatMap (fun w => bytesOf 12 w.toNat) ++ bytesOf 4 l.word.toNat

end Sys2Proof
end

