-- ==== Sys2Proof/Machine/Num.lean ====
section
/-! DEFINITION. Number formats and exact arithmetic (R56–R72): decoding a code to its exact value, rounding an exact
value to a format, sums, conversions, the special functions, and the Q4 block format. -/

namespace Sys2Proof.Machine

/-- Rounding modes, by m[1:0] (R45). -/
inductive RMode where
  | rne | rz | rdn | rup
  deriving DecidableEq, Repr

def RMode.ofBits (b : BitVec 2) : RMode :=
  if b = 0 then .rne else if b = 1 then .rz else if b = 2 then .rdn else .rup

/-- How a format uses its highest exponent (R56). -/
inductive FmtKind where
  | ieee | e4m3 | e2m1 | e3m5
  deriving DecidableEq, Repr

/-- A floating format: its width, exponent and fraction bits and bias (R56). -/
structure Fmt where
  kind : FmtKind
  width : Nat
  eb : Nat
  fb : Nat
  bias : Nat
  deriving DecidableEq, Repr

namespace Fmt

def f64 : Fmt := ⟨.ieee, 64, 11, 52, 1023⟩
def f32 : Fmt := ⟨.ieee, 32, 8, 23, 127⟩
def f16 : Fmt := ⟨.ieee, 16, 5, 10, 15⟩
def bf16 : Fmt := ⟨.ieee, 16, 8, 7, 127⟩
def e5m2 : Fmt := ⟨.ieee, 8, 5, 2, 15⟩
def e4m3 : Fmt := ⟨.e4m3, 8, 4, 3, 7⟩
def e2m1 : Fmt := ⟨.e2m1, 4, 2, 1, 1⟩
def e3m5 : Fmt := ⟨.e3m5, 8, 3, 5, 3⟩

/-- The position of the sign bit. -/
def signPos (F : Fmt) : Nat := F.eb + F.fb

/-- The canonical NaN (R56). -/
def nan (F : Fmt) : Nat :=
  match F.kind with
  | .ieee => (2 ^ F.eb - 1) * 2 ^ F.fb + 2 ^ (F.fb - 1)
  | .e4m3 => 0x7F
  | .e2m1 => 0
  | .e3m5 => 0xFF

/-- The code of the largest finite magnitude (R56). -/
def maxCode (F : Fmt) : Nat :=
  match F.kind with
  | .ieee => (2 ^ F.eb - 1) * 2 ^ F.fb - 1
  | .e4m3 => 0x7E
  | .e2m1 => 7
  | .e3m5 => 0xFE

/-- The code of +∞, in a format that has infinities. -/
def infCode (F : Fmt) : Nat := (2 ^ F.eb - 1) * 2 ^ F.fb

/-- A code with the sign given. -/
def withSign (F : Fmt) (neg : Bool) (mag : Nat) : Nat := if neg then mag + 2 ^ F.signPos else mag

/-- Whether ftz applies to the format (R61). -/
def flushable (F : Fmt) : Bool :=
  F == f64 || F == f32 || F == f16 || F == bf16

end Fmt

/-- An exact value: a NaN, an infinity, or (−1)^neg × m × 2^e. -/
inductive Val where
  | nan
  | inf (neg : Bool)
  | fin (neg : Bool) (m : Nat) (e : Int)
  deriving DecidableEq, Repr

/-- The value of a code (R57). -/
def Fmt.decode (F : Fmt) (x : Nat) : Val :=
  let neg := F.kind != .e3m5 && x.testBit F.signPos
  let ex := x / 2 ^ F.fb % 2 ^ F.eb
  let f := x % 2 ^ F.fb
  let top := ex == 2 ^ F.eb - 1
  let finite : Val :=
    if ex = 0 then .fin neg f (1 - (F.bias : Int) - F.fb)
    else .fin neg (2 ^ F.fb + f) ((ex : Int) - F.bias - F.fb)
  match F.kind with
  | .ieee => if top then (if f = 0 then .inf neg else .nan) else finite
  | .e4m3 => if top && f == 7 then .nan else finite
  | .e2m1 => finite
  | .e3m5 => if x % 256 = 0xFF then .nan else finite

/-- Whether a code is subnormal. -/
def Fmt.isSub (F : Fmt) (x : Nat) : Bool :=
  x / 2 ^ F.fb % 2 ^ F.eb == 0 && x % 2 ^ F.fb != 0

/-- The value of a source operand under ftz and its source modifiers (R45, R61): the flush comes first, then the
absolute value, then the negation. -/
def Fmt.source (F : Fmt) (ftz abs neg : Bool) (x : Nat) : Val :=
  let v := if ftz && F.flushable && F.isSub x then
      (match F.decode x with | .fin s _ e => Val.fin s 0 e | v => v)
    else F.decode x
  match v with
  | .nan => .nan
  | .inf s => .inf ((s && !abs) != neg)
  | .fin s m e => .fin ((s && !abs) != neg) m e

namespace Val

def isNan : Val → Bool | .nan => true | _ => false
def isInf : Val → Bool | .inf _ => true | _ => false
def isZero : Val → Bool | .fin _ m _ => m == 0 | _ => false
def sign : Val → Bool | .nan => false | .inf s => s | .fin s _ _ => s
def negate : Val → Val | .nan => .nan | .inf s => .inf (!s) | .fin s m e => .fin (!s) m e
def abs : Val → Val | .nan => .nan | .inf _ => .inf false | .fin _ m e => .fin false m e

/-- The exact product (R62). -/
def mul : Val → Val → Val
  | .nan, _ => .nan
  | _, .nan => .nan
  | .inf s, .inf t => .inf (s != t)
  | .inf s, .fin t m _ => if m = 0 then .nan else .inf (s != t)
  | .fin s m _, .inf t => if m = 0 then .nan else .inf (s != t)
  | .fin s m e, .fin t n f => .fin (s != t) (m * n) (e + f)

/-- A finite value as an integer count of 2^q, for q at most its exponent. -/
def scaled (v : Val) (q : Int) : Int :=
  match v with
  | .fin s m e => let k : Int := m * 2 ^ (e - q).toNat; if s then -k else k
  | _ => 0

def exponent : Val → Int | .fin _ _ e => e | _ => 0

/-- Comparison of two values that are not NaN, −0 equal to +0: less, equal, greater as −1, 0, 1. -/
def cmp (a b : Val) : Int :=
  match a, b with
  | .inf s, .inf t => if s = t then 0 else if s then -1 else 1
  | .inf s, _ => if s then -1 else 1
  | _, .inf t => if t then 1 else -1
  | a, b =>
    let q := min a.exponent b.exponent
    let x := a.scaled q; let y := b.scaled q
    if x < y then -1 else if x = y then 0 else 1

end Val

/-- The exceptions of R325: invalid, divide by zero, overflow, underflow, inexact, in bits 0 to 4. -/
abbrev Exc := BitVec 5

def Exc.mk (inv dz ovf unf inx : Bool) : Exc :=
  BitVec.ofNat 5 (inv.toNat + 2 * dz.toNat + 4 * ovf.toNat + 8 * unf.toNat + 16 * inx.toNat)

/-- A lane's result: its code and the exceptions it signals. -/
structure LaneRes where
  code : Nat
  exc : Exc
  deriving DecidableEq, Repr

/-- A magnitude rounded to `fb` fraction bits with least exponent `emin`: n × 2^q, and whether it is inexact. -/
structure RoundedMag where
  n : Nat
  q : Int
  inexact : Bool
  deriving DecidableEq, Repr

/-- Floor of log₂ of num/den, both positive. -/
def floorLog2Ratio (num den : Nat) : Int :=
  let k : Int := (Nat.log2 num : Int) - Nat.log2 den
  let ge := if k ≥ 0 then decide (num ≥ den * 2 ^ k.toNat) else decide (num * 2 ^ (-k).toNat ≥ den)
  if ge then k else k - 1

/-- Whether a magnitude with quotient parity `odd`, remainder r of d, is rounded up (R60). -/
def roundsUp (mode : RMode) (neg odd : Bool) (r d : Nat) : Bool :=
  match mode with
  | .rne => 2 * r > d || (2 * r == d && odd)
  | .rz => false
  | .rdn => neg && r != 0
  | .rup => !neg && r != 0

/-- Rounds the positive magnitude num/den × 2^e (R60), the exponent unbounded above. -/
def roundMag (fb : Nat) (emin : Int) (mode : RMode) (neg : Bool) (num den : Nat) (e : Int) : RoundedMag :=
  let ex := floorLog2Ratio num den + e
  let q := max ex emin - fb
  let sh := e - q
  let a := if sh ≥ 0 then num * 2 ^ sh.toNat else num
  let d := if sh ≥ 0 then den else den * 2 ^ (-sh).toNat
  let n := a / d
  let r := a % d
  let n' := if roundsUp mode neg (n % 2 == 1) r d then n + 1 else n
  if n' = 2 ^ (fb + 1) then ⟨2 ^ fb, q + 1, r != 0⟩ else ⟨n', q, r != 0⟩

namespace Fmt

def emin (F : Fmt) : Int := 1 - (F.bias : Int)

/-- The code of the magnitude n × 2^q, within the format's range. -/
def encodeMag (F : Fmt) (n : Nat) (q : Int) : Nat :=
  if n < 2 ^ F.fb then n
  else (q + F.fb + F.bias).toNat * 2 ^ F.fb + (n - 2 ^ F.fb)

/-- Whether the rounded magnitude exceeds Max (R60). -/
def overflows (F : Fmt) (n : Nat) (q : Int) : Bool :=
  n ≥ 2 ^ F.fb && (F.encodeMag n q > F.maxCode)

/-- The outcome of an overflow in a format with infinities (R60). -/
def overflowCode (F : Fmt) (mode : RMode) (neg : Bool) : Nat :=
  let toInf := match mode with
    | .rne => true
    | .rz => false
    | .rdn => neg
    | .rup => !neg
  F.withSign neg (if toInf then F.infCode else F.maxCode)

/-- Rounds the exact magnitude num/den × 2^e with its sign to the format under R60 and R61 (log 27, DEDUCED). -/
def roundRatio (F : Fmt) (mode : RMode) (ftz neg : Bool) (num den : Nat) (e : Int) : LaneRes :=
  if num = 0 then ⟨F.withSign neg 0, 0⟩
  else
    let r := roundMag F.fb F.emin mode neg num den e
    if F.overflows r.n r.q then ⟨F.overflowCode mode neg, Exc.mk false false true false true⟩
    else
      let sub := decide (0 < r.n ∧ r.n < 2 ^ F.fb)
      if ftz && F.flushable && sub then ⟨F.withSign neg 0, Exc.mk false false false true true⟩
      else ⟨F.withSign neg (F.encodeMag r.n r.q),
            Exc.mk false false false (sub && r.inexact) r.inexact⟩

/-- `Round` of R9 for an exact value. -/
def round (F : Fmt) (mode : RMode) (ftz : Bool) (v : Val) : LaneRes :=
  match v with
  | .nan => ⟨F.nan, 0⟩
  | .inf s => ⟨F.withSign s F.infCode, 0⟩
  | .fin s m e => F.roundRatio mode ftz s m 1 e

end Fmt

/-- The exact sum of terms (R62): NaN if a term is NaN or infinities of both signs meet, an infinity if one is there,
otherwise the finite sum, whose zero takes its sign from R62. -/
def exactSum (mode : RMode) (terms : List Val) : Val :=
  if terms.any Val.isNan then .nan
  else if terms.any (fun t => t.isInf && t.sign) && terms.any (fun t => t.isInf && !t.sign) then .nan
  else match terms.find? Val.isInf with
  | some v => v
  | none =>
    let q := terms.foldl (fun acc t => min acc t.exponent) 0
    let s := terms.foldl (fun acc t => acc + t.scaled q) (0 : Int)
    if s = 0 then
      if terms.all Val.isZero then .fin (terms.all Val.sign && !terms.isEmpty) 0 0
      else .fin (mode == .rdn) 0 0
    else .fin (s < 0) s.natAbs q

/-- A sum of terms rounded once (R98, R103); invalid when it makes a NaN that no operand was (R325). -/
def sumRound (F : Fmt) (mode : RMode) (ftz anyNan : Bool) (terms : List Val) : LaneRes :=
  match exactSum mode terms with
  | .nan => ⟨F.nan, Exc.mk (!anyNan) false false false false⟩
  | v => F.round mode ftz v

/-- SumRound of R73: FP32, RNE, subnormals kept. -/
def sumRound32 (terms : List Val) : Nat := (sumRound Fmt.f32 .rne false true terms).code

/-! ## Minimum, maximum, comparison, classes (R99–R102) -/

/-- minimumNumber or maximumNumber (R99), as a code of the format. -/
def minMaxNum (F : Fmt) (isMax : Bool) (a b : Val) : LaneRes :=
  let pick (v : Val) : LaneRes := ⟨(F.round .rne false v).code, 0⟩
  if a.isNan && b.isNan then ⟨F.nan, 0⟩
  else if a.isNan then pick b
  else if b.isNan then pick a
  else
    let lt := if a.isZero && b.isZero then a.sign && !b.sign else decide (a.cmp b < 0)
    pick (if lt != isMax then a else b)

/-- The outcome of an FCMP condition (R100). -/
def fcmpHolds (cond : Nat) (a b : Val) : Bool :=
  let uno := a.isNan || b.isNan
  let c := a.cmp b
  match cond with
  | 0 => !uno && c == 0
  | 1 => uno || c != 0
  | 2 => !uno && decide (c < 0)
  | 3 => !uno && decide (c ≤ 0)
  | 4 => !uno && decide (c > 0)
  | 5 => !uno && decide (c ≥ 0)
  | 6 => !uno
  | _ => uno

/-- The class of a code as FCLS numbers them (R102), after ftz and the source modifiers on its sign. -/
def fclass (F : Fmt) (ftz abs neg : Bool) (x : Nat) : Nat :=
  let sign := (x.testBit F.signPos && !abs) != neg
  let ex := x / 2 ^ F.fb % 2 ^ F.eb
  let f := x % 2 ^ F.fb
  if ex = 2 ^ F.eb - 1 then
    if f = 0 then (if sign then 0 else 7)
    else if f.testBit (F.fb - 1) then 9 else 8
  else if ex = 0 then
    if f = 0 || (ftz && F.flushable) then (if sign then 3 else 4)
    else (if sign then 2 else 5)
  else (if sign then 1 else 6)

/-- The exact value rounded to an integer under a mode (R64, R101), magnitude only. -/
def roundToInt (mode : RMode) (neg : Bool) (m : Nat) (e : Int) : Nat × Bool :=
  if e ≥ 0 then (m * 2 ^ e.toNat, false)
  else
    let d := 2 ^ (-e).toNat
    let n := m / d
    let r := m % d
    (if roundsUp mode neg (n % 2 == 1) r d then n + 1 else n, r != 0)

/-- FRND (R101) (log 29, DEDUCED). -/
def frnd (F : Fmt) (mode : RMode) (ftz : Bool) (v : Val) : LaneRes :=
  match v with
  | .nan => ⟨F.nan, 0⟩
  | .inf s => ⟨F.withSign s F.infCode, 0⟩
  | .fin s m e =>
    let (n, inx) := roundToInt mode s m e
    ⟨(F.roundRatio .rne ftz s n 1 0).code, Exc.mk false false false false inx⟩

/-- A float to an integer of the range lo..hi (R64, R108). -/
def toInteger (mode : RMode) (lo hi : Int) (v : Val) : Int × Exc :=
  let inv := Exc.mk true false false false true
  match v with
  | .nan => (0, inv)
  | .inf s => (if s then lo else hi, inv)
  | .fin s m e =>
    let (n, inx) := roundToInt mode s m e
    let x : Int := if s then -n else n
    if x < lo then (lo, inv) else if x > hi then (hi, inv) else (x, Exc.mk false false false false inx)

/-- An integer to a float (R64). -/
def ofInteger (F : Fmt) (mode : RMode) (ftz : Bool) (x : Int) : LaneRes :=
  F.roundRatio mode ftz (decide (x < 0)) x.natAbs 1 0

/-- A conversion between float formats: under R60 and R61, with .sat where an entry gives it (R107, R109). -/
def convFloat (F : Fmt) (mode : RMode) (ftz sat : Bool) (v : Val) : LaneRes :=
  match v with
  | .inf s => if sat then ⟨F.withSign s F.maxCode, Exc.mk false false false false true⟩ else ⟨F.withSign s F.infCode, 0⟩
  | v =>
    let r := F.round mode ftz v
    if sat && r.exc.getLsbD 2 then ⟨F.withSign v.sign F.maxCode, r.exc⟩ else r

/-- A conversion into E4M3, E5M2 or E2M1 (R63); the second part tells whether a NaN met E2M1 (ctl.fmterr). -/
def convNarrow (F : Fmt) (sat : Bool) (v : Val) : LaneRes × Bool :=
  let e2m1 := F.kind == .e2m1
  match v with
  | .nan => if e2m1 then (⟨0, Exc.mk true false false false true⟩, true) else (⟨F.nan, 0⟩, false)
  | .inf s =>
    if e2m1 || sat then (⟨F.withSign s F.maxCode, Exc.mk false false false false true⟩, false)
    else if F.kind == .e4m3 then (⟨F.nan, Exc.mk true false false false true⟩, false)
    else (⟨F.withSign s F.infCode, 0⟩, false)
  | .fin s m e =>
    if m = 0 then (⟨F.withSign s 0, 0⟩, false)
    else
      let r := roundMag F.fb F.emin .rne s m 1 e
      let ovf := if e2m1 then decide ((Val.fin false m e).cmp (.fin false 6 0) > 0) else F.overflows r.n r.q
      if ovf then
        let ex := Exc.mk false false true false true
        if e2m1 || sat then (⟨F.withSign s F.maxCode, ex⟩, false)
        else if F.kind == .e4m3 then (⟨F.nan, Exc.mk true false true false true⟩, false)
        else (⟨F.withSign s F.infCode, ex⟩, false)
      else
        let sub := decide (0 < r.n ∧ r.n < 2 ^ F.fb)
        (⟨F.withSign s (F.encodeMag r.n r.q), Exc.mk false false false (sub && r.inexact) r.inexact⟩, false)

/-! ## Special functions (R104, R105) -/

/-- Integer square root of x, trying the bits i − 1 … 0 on top of r. -/
def isqrtFrom (x : Nat) : Nat → Nat → Nat
  | 0, r => r
  | i + 1, r => isqrtFrom x i (if (r + 2 ^ i) * (r + 2 ^ i) ≤ x then r + 2 ^ i else r)

def isqrt (x : Nat) : Nat := isqrtFrom x (Nat.log2 x / 2 + 1) 0

/-- A positive real known to lie strictly between k and k + 1 units of 2^e, or to equal k units when `exact`,
as a magnitude that rounds the same way. -/
def sticky (k : Nat) (exact : Bool) : Nat := 2 * k + (if exact then 0 else 1)

/-- √(m × 2^e) rounded; m positive. -/
def sqrtRound (F : Fmt) (mode : RMode) (ftz : Bool) (m : Nat) (e : Int) : LaneRes :=
  let pad : Int := 2 * (F.fb + 8)
  let odd := (e - pad) % 2 != 0
  let sh := if odd then pad.toNat + 1 else pad.toNat
  let x := m * 2 ^ sh
  let k := isqrt x
  F.roundRatio mode ftz false (sticky k (k * k == x)) 1 ((e - sh) / 2 - 1)

/-- 1/√(m × 2^e) rounded; m positive. -/
def rsqrtRound (F : Fmt) (mode : RMode) (ftz : Bool) (m : Nat) (e : Int) : LaneRes :=
  let even := e % 2 == 0
  let m' := if even then m else m * 2
  let e' := if even then e else e - 1
  let kk := Nat.log2 m' + F.fb + 8
  let x := 2 ^ (2 * kk)
  let k := isqrt (x / m')
  F.roundRatio mode ftz false (sticky k (k * k * m' == x)) 1 (-(kk : Int) - e' / 2 - 1)

/-- Fraction bits of the fixed-point evaluation below. -/
def fixBits : Nat := 640
def fixOne : Int := 2 ^ fixBits

/-- Σ of the series with first term t, each next term t × x2 / (k(k+step)) and alternating when `alt`; `n` terms. -/
def factSeries (alt : Bool) (x : Int) (step : Nat) : Nat → Nat → Int → Int → Int
  | 0, _, _, acc => acc
  | n + 1, k, t, acc =>
    let t' := t * x / fixOne / ((if step = 2 then k * (k + 1) else k : Nat) : Int)
    let t'' := if alt then -t' else t'
    factSeries alt x step n (k + step) t'' (acc + t'')

/-- exp of a fixed-point argument in [0, 1). -/
def fixExp (x : Int) : Int := factSeries false x 1 130 1 fixOne fixOne
/-- sin and cos of a fixed-point argument in [0, 2). -/
def fixSin (x : Int) : Int := factSeries true (x * x / fixOne) 2 90 2 x x
def fixCos (x : Int) : Int := factSeries true (x * x / fixOne) 2 90 1 fixOne fixOne

/-- Σ z^(2k+1)/(2k+1), alternating when `alt`. -/
def oddSeries (alt : Bool) (z2 : Int) : Nat → Nat → Int → Int → Int
  | 0, _, _, acc => acc
  | n + 1, k, t, acc =>
    let t' := t * z2 / fixOne
    let t'' := if alt then -t' else t'
    oddSeries alt z2 n (k + 2) t'' (acc + t'' / ((k + 2 : Nat) : Int))

def fixAtanh (z : Int) : Int := oddSeries false (z * z / fixOne) 210 1 z z
def fixAtanInv (n : Nat) : Int :=
  let z := fixOne / (n : Int)
  oddSeries true (z * z / fixOne) 150 1 z z

def fixLn2 : Int := 2 * fixAtanh (fixOne / 3)
/-- π by Machin's formula. -/
def fixPi : Int := 4 * (4 * fixAtanInv 5 - fixAtanInv 239)

/-- Half the width, in units of 2^−640, of the interval in which the exact value lies: above every truncation error of
the series, and above 2^130 units of argument reduction. -/
def fixSlack : Int := 2 ^ 200

/-- The rounding of a value known to lie in the interval v ± slack (units 2^−640 × 2^e): both ends round alike, or the
value stays open (log 13, DESIGN CHOICE). -/
def roundInterval (F : Fmt) (mode : RMode) (ftz : Bool) (v : Int) (e : Int) (fallback : Nat) : LaneRes :=
  let r (x : Int) := F.roundRatio mode ftz (decide (x < 0)) x.natAbs 1 (e - fixBits)
  let a := r (v - fixSlack); let b := r (v + fixSlack)
  if a.code = b.code then a else ⟨fallback, Exc.mk false false false false true⟩

/-- A finite value as fixed point (exact, for exponents from −640). -/
def toFix (s : Bool) (m : Nat) (e : Int) : Int :=
  let k : Int := if e + fixBits ≥ 0 then m * 2 ^ (e + fixBits).toNat else (m / 2 ^ (-(e + fixBits)).toNat : Nat)
  if s then -k else k

/-- 2^x for a finite x that is not an integer, or that is. -/
def exp2Round (F : Fmt) (mode : RMode) (ftz s : Bool) (m : Nat) (e : Int) (fb : Nat) : LaneRes :=
  let big := decide ((Val.fin false m e).cmp (.fin false 400 0) ≥ 0)
  if m = 0 then F.roundRatio mode ftz false 1 1 0
  else if big then F.roundRatio mode ftz false 3 1 (if s then -400 else 400)
  else
    let x := toFix s m e
    let n := x.fdiv fixOne
    let f := x - n * fixOne
    if f = 0 then F.roundRatio mode ftz false 1 1 n
    else roundInterval F mode ftz (fixExp (f * fixLn2 / fixOne)) n fb

/-- log₂ of a positive finite value. -/
def log2Round (F : Fmt) (mode : RMode) (ftz : Bool) (m : Nat) (e : Int) (fb : Nat) : LaneRes :=
  let k := Nat.log2 m
  let ex := e + k
  if m = 2 ^ k then ofInteger F mode ftz ex
  else
    let y : Int := m * 2 ^ (fixBits - k)
    let z := (y - fixOne) * fixOne / (y + fixOne)
    roundInterval F mode ftz (ex * fixOne + 2 * fixAtanh z * fixOne / fixLn2) 0 fb

/-- A magnitude just below m × 2^e, which rounds as every value a little below it does. -/
def justBelow (F : Fmt) (mode : RMode) (ftz s : Bool) (m : Nat) (e : Int) : LaneRes :=
  F.roundRatio mode ftz s (m * 2 ^ 200 - 1) 1 (e - 200)

/-- Whether |x| < 2^−60. -/
def tiny (m : Nat) (e : Int) : Bool := (Val.fin false m e).cmp (.fin false 1 (-60)) < 0

/-- sin x or cos x of a finite nonzero x. -/
def sinCosRound (isCos : Bool) (F : Fmt) (mode : RMode) (ftz s : Bool) (m : Nat) (e : Int) (fb : Nat) : LaneRes :=
  if tiny m e then (if isCos then justBelow F mode ftz false 1 0 else justBelow F mode ftz s m e)
  else
    let x := toFix false m e
    let half := fixPi / 2
    let k := x.fdiv half
    let r := x - k * half
    let q := (k % 4).toNat
    let v := match (if isCos then (q + 1) % 4 else q) with
      | 0 => fixSin r
      | 1 => fixCos r
      | 2 => -(fixSin r)
      | _ => -(fixCos r)
    roundInterval F mode ftz (if s && !isCos then -v else v) 0 fb

/-- tanh x of a finite nonzero x. -/
def tanhRound (F : Fmt) (mode : RMode) (ftz s : Bool) (m : Nat) (e : Int) (fb : Nat) : LaneRes :=
  if tiny m e then justBelow F mode ftz s m e
  else if (Val.fin false m e).cmp (.fin false 64 0) ≥ 0 then justBelow F mode ftz s 1 0
  else
    let y := 2 * toFix false m e
    let n := y.fdiv fixLn2
    let ex := fixExp (y - n * fixLn2) * 2 ^ n.toNat
    let v := (ex - fixOne) * fixOne / (ex + fixOne)
    roundInterval F mode ftz (if s then -v else v) 0 fb

/-- The special functions of R104, by index 0–6 and 8. -/
def specialFn (fn : Nat) (F : Fmt) (mode : RMode) (ftz : Bool) (v : Val) (fb : Nat) : LaneRes :=
  let invalid : LaneRes := ⟨F.nan, Exc.mk true false false false false⟩
  let infinity (s dz : Bool) : LaneRes := ⟨F.withSign s F.infCode, Exc.mk false dz false false false⟩
  let zero (s : Bool) : LaneRes := ⟨F.withSign s 0, 0⟩
  let one (s : Bool) : LaneRes := F.roundRatio mode ftz s 1 1 0
  match v with
  | .nan => ⟨F.nan, 0⟩
  | .inf s =>
    match fn with
    | 0 => zero s
    | 1 => if s then invalid else zero false
    | 2 => if s then invalid else infinity false false
    | 3 => if s then zero false else infinity false false
    | 4 => if s then invalid else infinity false false
    | 5 => invalid
    | 6 => invalid
    | _ => one s
  | .fin s m e =>
    if m = 0 then
      match fn with
      | 0 => infinity s true
      | 1 => infinity s true
      | 2 => zero s
      | 3 => one false
      | 4 => infinity true true
      | 5 => zero s
      | 6 => one false
      | _ => zero s
    else
      match fn with
      | 0 => F.roundRatio mode ftz s 1 m (-e)
      | 1 => if s then invalid else rsqrtRound F mode ftz m e
      | 2 => if s then invalid else sqrtRound F mode ftz m e
      | 3 => exp2Round F mode ftz s m e fb
      | 4 => if s then invalid else log2Round F mode ftz m e fb
      | 5 => sinCosRound false F mode ftz s m e fb
      | 6 => sinCosRound true F mode ftz s m e fb
      | _ => tanhRound F mode ftz s m e fb

/-- FDIV (R62, R104). -/
def fdiv (F : Fmt) (mode : RMode) (ftz : Bool) (a b : Val) : LaneRes :=
  let invalid : LaneRes := ⟨F.nan, Exc.mk true false false false false⟩
  match a, b with
  | .nan, _ => ⟨F.nan, 0⟩
  | _, .nan => ⟨F.nan, 0⟩
  | .inf _, .inf _ => invalid
  | .inf s, .fin t _ _ => ⟨F.withSign (s != t) F.infCode, 0⟩
  | .fin s _ _, .inf t => ⟨F.withSign (s != t) 0, 0⟩
  | .fin s m e, .fin t n f =>
    if n = 0 then (if m = 0 then invalid else ⟨F.withSign (s != t) F.infCode, Exc.mk false true false false false⟩)
    else F.roundRatio mode ftz (s != t) m n (e - f)

/-! ## The Q4 block format (R65–R72) -/

/-- A block of Q4: its scale code and its eight element codes. -/
structure Q4Block where
  scale : Nat
  elems : List Nat
  deriving DecidableEq, Repr

/-- Whether a × 2^.. of one magnitude is at most another (finite values, signs ignored). -/
def magLe (a b : Val) : Bool := decide (a.abs.cmp b.abs ≤ 0)

/-- The largest magnitude of a list of finite or infinite values. -/
def maxMag (vs : List Val) : Val := vs.foldl (fun acc v => if magLe acc v then v.abs else acc) (.fin false 0 0)

/-- One element v / (S × g) converted to E2M1 (R71, step 5), for S = sm × 2^se and g = ±gm × 2^ge. -/
def quantElem (gs : Bool) (gm sm : Nat) (ge se : Int) (v : Val) : LaneRes :=
  match v with
  | .fin s m e =>
    let sg := s != gs
    if m = 0 then ⟨Fmt.e2m1.withSign sg 0, 0⟩
    else if (Val.fin false m e).cmp (.fin false (6 * sm * gm) (se + ge)) > 0 then
      ⟨Fmt.e2m1.withSign sg 7, Exc.mk false false true false true⟩
    else
      let r := roundMag 1 0 .rne sg m (sm * gm) (e - se - ge)
      ⟨Fmt.e2m1.withSign sg (Fmt.e2m1.encodeMag r.n r.q), Exc.mk false false false (decide (0 < r.n ∧ r.n < 2) && r.inexact) r.inexact⟩
  | .inf s => ⟨Fmt.e2m1.withSign (s != gs) 7, Exc.mk false false false false true⟩
  | .nan => ⟨0, Exc.mk true false false false true⟩

/-- R71: the scale and elements of one block under the band scale g; whether ctl.fmterr is set; and the exceptions of its
conversions. -/
def quantBlock (g : Val) (vs : List Val) : Q4Block × Bool × Exc :=
  let dead : Q4Block := ⟨0xFF, vs.map (fun _ => 0)⟩
  match g with
  | .fin gs gm ge =>
    if gm = 0 then (dead, true, 0)
    else if vs.any Val.isNan then (dead, true, Exc.mk true false false false true)
    else
      let a := maxMag vs
      if a.isZero then (⟨0, vs.map (fun v => if v.sign then 8 else 0)⟩, false, 0)
      else
        -- the smallest code S with 6 · S · |g| ≥ max |v|
        let scale := ((List.range 255).find? (fun c =>
          magLe a (((Fmt.e3m5.decode c).mul (.fin false (6 * gm) ge))))).getD 0xFE
        match Fmt.e3m5.decode scale with
        | .fin _ sm se =>
          let rs := vs.map (quantElem gs gm sm ge se)
          (⟨scale, rs.map (·.code)⟩, false, rs.foldl (fun acc r => acc ||| r.exc) 0)
        | _ => (dead, true, 0)
  | _ => (dead, true, 0)

/-- R72: the band scale (a BF16 code) chosen from the values written into a band. -/
def bandScale (vs : List Val) : Nat :=
  match maxMag (vs.filter (fun v => !v.isNan)) with
  | .fin _ m e =>
    if m = 0 then 0x3F80
    else (Fmt.bf16.roundRatio .rup false false m 186 e).code
  | _ => 0x7F80

/-- R67: the check of a Q4 line's bytes 0–125. -/
def q4Check (line : List Byte) : BitVec 16 :=
  (List.range 63).foldl (fun acc n =>
    let h : BitVec 16 := (line.getD (2 * n + 1) 0 ++ line.getD (2 * n) 0 : BitVec 16)
    acc ^^^ h.rotateLeft (n % 16)) 0

/-- Little-endian value of a list of bytes (R5). -/
def leNat : List Byte → Nat
  | [] => 0
  | b :: bs => b.toNat + 256 * leNat bs

/-- The low n bytes of a value, little-endian (R5). -/
def leBytes : Nat → Nat → List Byte
  | 0, _ => []
  | n + 1, x => BitVec.ofNat 8 x :: leBytes n (x / 256)

/-- R68: element i of a Q4 line, and whether a poisoning cause made it NaN. -/
def q4Element (line : List Byte) (i : Nat) : Val × Bool :=
  let band := Fmt.bf16.decode (leNat ((line.drop 122).take 2))
  let scale := (line.getD (96 + i / 8) 0).toNat
  let elem := (line.getD (i / 2) 0).toNat / 16 ^ (i % 2) % 16
  if (q4Check line).toNat ≠ leNat ((line.drop 126).take 2) then (.nan, true)
  else if band.isNan || band.isInf then (.nan, true)
  else if scale = 0xFF then (.nan, true)
  else (((Fmt.e2m1.decode elem).mul (Fmt.e3m5.decode scale)).mul band, false)

/-- The FP32 word that an FP32 writer stores for a decoded Q4 value (R68): exact below 2^128, ∞ from there. -/
def q4Word (v : Val) : Nat := (Fmt.f32.round .rne false v).code

end Sys2Proof.Machine
end

