-- ==== Sys2Proof/Machine/State.lean ====
section
/-! DEFINITION. The state of the KZ9 as plain data: every piece of state the spec names (INVENTORY.md, "## State"),
and the machine right after module reset. -/

namespace Sys2Proof.Machine

/-- Reasons for which the module takes no further step until it is reset. -/
inductive Fault where
  /-- Raised by `step` after DIE_LOST (R351) or a thermal trip (R388): the module accepts no work until reset. Safe. -/
  | moduleStopped
  /-- Raised by `step` after a boot image failed its check (R384): the boot stops at the stage named. Safe. -/
  | bootStopped (stage : Nat)
  deriving DecidableEq, Repr

/-- Reasons for which the model gives an instruction no meaning. -/
inductive Refusal where
  /-- Raised by `exec` for a row without a meaning. Safe. -/
  | notModelled (mnemonic : String)
  deriving DecidableEq, Repr

/-! ## Threads and warps -/

/-- What a thread is doing (R125, R200, item 0x102 of R319). -/
inductive Status where
  | ready
  /-- Awaiting the acceptance or the answer of operation `id` (R200, R228, R278, R286, R289); not waiting (R125). -/
  | accept (id : Nat)
  /-- A line that it needs before it can issue is being fetched (R14, R48). -/
  | fetch (line : DWord)
  | rejoin
  /-- Performing the KeyWait of `.rel` before it arrives at barrier `id` of level 0 block, 1 gang, 2 household (R147). -/
  | barrierKeys (level id : Nat) (waits : List Nat)
  | barrier (level id : Nat)
  /-- Released from a gang or household barrier, HHATT or HHDET, not yet ready (R148). -/
  | released
  | collective
  | kwait (key scope : Nat) (waits : List Nat)
  | page (ctx page : Nat)
  /-- MBRECV on an empty Porch, with its destination; operation `id` is counted on its produce key (R290). -/
  | mbrecv (id d : Nat)
  | sleep (until_ : Nat)
  /-- OBWAIT on the object at location `loc`, while its phase equals `parity`; operation `id` performs at the release (R279). -/
  | obwait (loc : Nat) (parity : Bool) (id : Nat)
  | hhatt
  | hhdet
  /-- Held at an instruction whose consume key is not satisfied at `scope` (R173, R269); it issues again once it is. Operation `id` has
  joined its produce key. -/
  | keyed (scope : Nat) (waits : List Nat) (id : Nat)
  deriving DecidableEq, Repr

/-- Repeat state (R52): the REP's program counter, the count and the index of the next repetition. -/
structure RepState where
  pc : DWord
  n : Nat
  j : Nat
  deriving DecidableEq, Repr

/-- A fixed-latency result not yet ready (R19, R20): the register (0–254; 256 + k is predicate k; 512 + u is uniform
register u), the cycle from which it is ready, and the value before the write. -/
structure Pending where
  reg : Nat
  due : Nat
  old : Word
  deriving DecidableEq, Repr

/-- A tracked result computed and not yet written (R19, R136): its registers and predicates, and the cycle from which
it may be written. An access that has not bound has an entry without values (`known = false`); one whose latency the spec
gives (R136, R218) is `timed`: it is written in the cycle `due`. -/
structure Tracked where
  id : Nat
  due : Nat
  known : Bool
  timed : Bool
  regs : List (Nat × Word)
  preds : List (Nat × Bool)
  deriving DecidableEq, Repr

/-- A live thread (R10); one that has exited has no record. -/
structure Thread where
  ref : TRef
  tid : Nat
  block : Nat
  /-- Registers per thread (R11). -/
  alloc : Nat
  /-- w0–w254 (R10). -/
  w : List Word
  /-- p0–p6 (R10). -/
  p : List Bool
  pc : DWord
  /-- On-chip call stack, oldest first (R21). -/
  calls : List DWord
  callsp : DWord
  /-- Names the thread's private space (R23). -/
  priv : Nat
  rep : Option RepState
  status : Status
  /-- The first cycle in which it may issue (R18). -/
  readyAt : Nat
  /-- The cycle in which it last became ready (R125). -/
  age : Nat
  /-- It was passed over once for the yield hint of its next instruction (R127). -/
  yielded : Bool
  pend : List Pending
  tracked : List Tracked
  /-- Faulted registers with their cause (R201). -/
  marks : List (Nat × Cause)
  /-- The line it last issued from, with the line's check done (R14). -/
  line : Option DWord
  /-- The page that the instruction here awaited was denied: it traps PAGE_DENIED when it next issues (R306). -/
  denied : Option DWord
  /-- The consume key of the instruction here has been waited for, and its operation (R173). -/
  cleared : Option (DWord × Nat)
  /-- Its program counter was written while it waited (R319, R322): the end of the wait leaves it as written. -/
  edited : Bool
  deriving DecidableEq, Repr

/-- The arrival state of a key slot (R171, R181); consumers of an armed slot wait for operation `mark`, which performs when
the arrival is satisfied. -/
inductive ArrivalState where
  | none
  | armed (mark : Nat) (send : Option Nat)
  | held (send : Nat)
  deriving DecidableEq, Repr

/-- A key k1–k14 (R171); the fault keeps the record pointer of a faulted engine operation (R315, ctl.engrec). -/
structure KeyState where
  producers : List Nat
  fault : Option (Cause × DWord × Nat)
  arrival : ArrivalState
  deriving DecidableEq, Repr

/-- A rejoin entry (R128). -/
structure RejoinEntry where
  point : DWord
  mask : Word
  arrived : Word
  deriving DecidableEq, Repr

/-- What a participant of a warp collective read at its arrival (R137): its lane, destination field, value, second
operand and predicate. -/
structure Participant where
  lane : Nat
  d : Nat
  v : DWord
  n : Nat
  x : Bool
  deriving DecidableEq, Repr

/-- An open instance of a warp collective (R137): named by the program counter and the repeat index. -/
structure Collective where
  pc : DWord
  j : Option Nat
  mask : Word
  instr : Nat
  m : BitVec 5
  ty : Nat
  arrived : List Participant
  deriving DecidableEq, Repr

/-- A warp: what its 32 home lanes share (R10, R121). -/
structure Warp where
  core : Nat
  slot : Nat
  widx : Nat
  block : Nat
  /-- s0–s62 (R10). -/
  u : List Word
  upend : List Pending
  /-- k1–k14; position k − 1 (R171). -/
  keys : List KeyState
  rejoin : List RejoinEntry
  /-- Lanes whose threads have ended in this cycle: entries that wait for them are released at its end (R128). -/
  left : Word
  serial : Bool
  serialPtr : Nat
  colls : List Collective
  /-- Threads of the warp trap POISON at their next issue (R327). -/
  poisoned : Bool
  deriving DecidableEq, Repr

/-! ## Cores -/

/-- A line that L1 or the instruction cache holds: since which cycle, and under which policy (R164, R165). -/
structure CacheLine where
  ctx : Nat
  addr : Nat
  bytes : List Byte
  filled : Nat
  policy : Nat
  deriving DecidableEq, Repr

/-- A range of the range scoreboard (R163): the copy that owns it and its lowest and highest scratchpad byte. -/
structure Range where
  op : Nat
  lo : Nat
  hi : Nat
  deriving DecidableEq, Repr

/-- A core: its control registers (R315) and the structures beside its threads. -/
structure Core where
  id : Nat
  trapcause : Word
  trapwarp : Word
  trappc : DWord
  /-- The cause and the thread that the trap recorded: what the hardware itself goes by, which no CTLW changes (R318). -/
  recCause : Word
  recWarp : Word
  check : Word
  fpen : Word
  fpcause : Word
  fmterr : Word
  engrec : DWord
  /-- The engine operation that ctl.engrec names (for ctl.mprog and ctl.cprog). -/
  engop : Nat
  ttab : DWord
  /-- The cycle of the stop, while the core is stopped (R313). -/
  stopped : Option Nat
  halted : Bool
  /-- Stopped by a machine check and waiting for its self-test (R326). -/
  mcheck : Bool
  inService : Bool
  /-- Rotation pointers of the four pickers (R125). -/
  rot : List Nat
  l1 : List CacheLine
  icache : List CacheLine
  /-- Lines that failed parity once and are being refetched (R37). -/
  refetch : List DWord
  ranges : List Range
  /-- Accumulator words that are not zero, by row × 256 + column (R242). -/
  acc : List (Nat × Word)
  /-- Poisoned words: scratchpad word numbers, and accumulator word numbers from 2^20 (R327). -/
  badWords : List Nat
  deriving DecidableEq, Repr

/-! ## Blocks, gangs, households, tasks -/

/-- A block with its bind record (R121, R259). -/
structure Block where
  uid : Nat
  gang : Nat
  /-- Its bind record among its core's sixteen: entry 16 × (64 × cluster + core) + index of the die's slot table (R259). -/
  index : Nat
  rank : Nat
  core : Nat
  /-- br.sp0: where its scratchpad allocation starts in its core's 512 KiB (R259). -/
  sp0 : Nat
  spSize : Nat
  acc0 : Nat
  accRows : Nat
  ntid : Nat
  regs : Nat
  entry : DWord
  argp : DWord
  /-- br.state: 1 bound, 2 running, 3 ending; 0 once its resources are free while a completion word of its gang's end waits (R259, R261). -/
  state : Nat
  hold : Bool
  deriving DecidableEq, Repr

/-- The life of a gang (R132, R330). -/
inductive GangPhase where
  | bound | running | stopping | saved | resuming | ended
  deriving DecidableEq, Repr

structure Gang where
  uid : Nat
  /-- br.gid, the die's own number of it (R259). -/
  gid : Nat
  die : Nat
  cluster : Nat
  rank : Nat
  hh : Nat
  task : Nat
  ctx : Nat
  nblock : Nat
  prio : Nat
  posted : Nat
  dispatcher : Bool
  /-- The completion word of a spawned gang (R288). -/
  spawned : Option DWord
  failed : Bool
  wdInterval : Nat
  wdCount : Nat
  phase : GangPhase
  /-- A thread of it has executed HHATT (R371). -/
  hasAtt : Bool
  /-- Its pre-emption has been asked for and is deferred while a core of it is stopped (R329). -/
  wanted : Bool
  deriving DecidableEq, Repr

/-- Attach states (R369). -/
inductive Attach where
  | unattached | attached | detaching | detached
  deriving DecidableEq, Repr

structure Household where
  uid : Nat
  task : Nat
  rank : Nat
  ngang : Nat
  /-- Household sequence number: counter, module (R258). -/
  seq : Option (Nat × Nat)
  /-- The module of each gang (R258). -/
  modules : List Nat
  /-- Attach state by gang rank. -/
  att : List Attach
  /-- Each core's copy of the table (R369). -/
  copies : List (Nat × List Attach)
  deriving DecidableEq, Repr

structure Task where
  num : Nat
  ctx : Nat
  card : BitVec 512
  die : Nat
  failed : Bool
  complete : Bool
  nhhLeft : Nat
  /-- The graph and node that posted its card (R263). -/
  graph : Option (Nat × Nat)
  /-- The cycle in which it started (R15, R168). -/
  started : Nat
  deriving DecidableEq, Repr

/-! ## Operations in flight -/

/-- A producer that has not performed at every scope: the scopes at which it has performed are those below `perf`
(R174, R176), and `points` names the places its messages reach (R182). -/
structure Op where
  id : Nat
  core : Nat
  slot : Nat
  gang : Nat
  perf : Nat
  points : List Nat
  deriving DecidableEq, Repr

/-- What a thread's access does (R197). -/
inductive AccOp where
  | ld (sx : Bool)
  | ldr (sx : Bool)
  | st
  | ldd (fp8 : Bool)
  | std
  /-- The own scratchpad from location `sp` on, with the end of the block's allocation (R208, R209). -/
  | ldt (sp lim : Nat)
  | stt (aon : Bool) (sp lim : Nat)
  | atom (ret cas : Bool) (op ty : Nat)
  | pref (len : Nat)
  /-- Of the operation op: 0 .inv1, 1 .inv1all, 2 .wb2, 3 .evict2 (R214). -/
  | cctl (op len : Nat)
  | pgreq
  | chseq
  deriving DecidableEq, Repr

/-- What the home decided about an access (R299). -/
inductive Verdict where
  | ok | absent | denied | space | poolLost
  deriving DecidableEq, Repr

/-- Where an access stands (R200, R299): a store in the core's queue has performed at core scope; one that is visible in the module may
still gather markers for the wider scopes (R176). -/
inductive AccPhase where
  | sent | translating | resolved (v : Verdict) | accepted | coreDone | visible
  deriving DecidableEq, Repr

/-- How an accepted access is served (R157, R161, R176): by a scratchpad unit, one of another module, or its home. -/
inductive AccMode where
  | scratch | remote (dev : Nat) | direct | cached | host | pool (seg : Nat)
  deriving DecidableEq, Repr

/-- A memory access of a thread; accesses of one issue group share `grp` (R172, R216). -/
structure Access where
  id : Nat
  t : TRef
  pc : DWord
  op : AccOp
  ctx : Nat
  /-- The pointer used; the global address it stands for (R152, R159); the location once resolved. -/
  ptr : DWord
  gaddr : DWord
  loc : Nat
  /-- The thread's private space (R23). -/
  priv : Nat
  /-- The locations of the pages reached, by page number. -/
  pages : List (Nat × Nat)
  /-- The memory channel on which a buffer's interleaving places it, where one applies (R158, R299). -/
  channel : Option Nat
  mode : AccMode
  n : Nat
  grp : Nat
  /-- Attempts of an LDT (R208), or the stage of an STT .aon (R170). -/
  tries : Nat
  /-- Of a tile: whether an LDT's attempt has read the header, the version and the rows that it read there, and the 16-byte units still to
  be moved (R186, R208, R209). -/
  begun : Bool
  ver : Nat
  len : Nat
  units : List Nat
  data : List Byte
  data2 : List Byte
  scope : Nat
  pk : Nat
  waits : List Nat
  policy : Nat
  rz : Bool
  d : Nat
  pd : Nat
  phase : AccPhase
  /-- The operation is held by a page move (R349) or an invalidation (R307). -/
  held : Bool
  deriving DecidableEq, Repr

/-- Kinds of engine operation (R269). -/
inductive EngKind where
  | cpy (store : Bool) | cpyb (dz : Bool) | cpyf | accld | accst | mma | mdrn | mzero (pair : Bool) | coll
  deriving DecidableEq, Repr

/-- Where an engine operation stands. -/
inductive EngPhase where
  | accepted
  | pageWait (ctx page : Nat)
  /-- Everything is written; a copy has still to retire, an MMA's event to arrive. -/
  | written
  | hopping (h : Nat)
  /-- Ended by a fault. -/
  | stopped (cause : Cause)
  deriving DecidableEq, Repr

/-- An engine operation in flight (R228): its record as read at acceptance, and its progress. -/
structure EngOp where
  id : Nat
  kind : EngKind
  t : TRef
  core : Nat
  block : Nat
  gang : Nat
  ctx : Nat
  /-- The partner's core and its first granted row, as at acceptance (R243). -/
  mate : Option (Nat × Nat)
  record : BitVec 512
  recPtr : DWord
  src : DWord
  dst : DWord
  orig : List Int
  len : Nat
  obj : Option Nat
  scope : Nat
  pk : Nat
  waits : List Nat
  policy : Nat
  progress : Nat
  /-- Lines accepted at their home so far (R233), and the memory channel of the last one (R158, R299). -/
  lines : List Nat
  channel : Option Nat
  consumed : Bool
  /-- The buffer handles whose entries have changed since its acceptance (R160). -/
  changed : List Nat
  /-- Bytes written of poisoned lines, as a mask by line (R327). -/
  cover : List (Nat × Nat)
  /-- What has been read and not yet used, and which pieces of what is being written lie in memory already. -/
  got : List Byte
  put : List Nat
  chain : Option Nat
  phase : EngPhase
  deriving DecidableEq, Repr

/-- A KSEND on its way (R181, R182): what it covers, the points of its manifest that have not sent their notice with the number of
messages that each must have applied, and the warp and slot it is bound for (by gang, block rank, warp index). -/
structure Send where
  id : Nat
  core : Nat
  fromGang : Nat
  gang : Nat
  block : Nat
  warp : Nat
  slot : Nat
  scope : Nat
  ops : List Nat
  points : List (Nat × Nat)
  delivered : Bool
  /-- The issue group that sent it (R391). -/
  grp : Nat
  deriving DecidableEq, Repr

/-- A POST, host posting or GLAUNCH-posted card on its way to a queue (R255, R256), or an MBSEND record on its way to
a Porch (R264). -/
structure Message where
  id : Nat
  /-- The thread that awaits the answer, if any. -/
  t : Option TRef
  d : Nat
  pk : Nat
  waits : List Nat
  scope : Nat
  dev : Nat
  die : Nat
  ctx : Nat
  /-- Where the card lies, for a POST; none where the message holds the card, or the record of an MBSEND in its low 256 bits. -/
  ptr : Option DWord
  /-- The argument pointer that a graph's node gives the card; 0 for none. -/
  argp : DWord
  card : BitVec 512
  graph : Option (Nat × Nat)
  /-- The issue group that sent it (R255, R289). -/
  grp : Nat
  deriving DecidableEq, Repr

/-! ## Tables (R154–R160, R300, R308, R360) -/

/-- Settings of a context that the driver gives Serril (R23, R316, R325, R328). -/
structure CtxConfig where
  privSize : Nat
  checkAll : Bool
  fpen : Word
  wdInterval : Nat
  deriving DecidableEq, Repr

/-- A free frame of a migration engine's pool (R348): the engine's cellar die, whether the frame lies in HBM4E, its die there, and its
number. -/
structure FreeFrame where
  engine : Nat
  hbm : Bool
  die : Nat
  frame : Nat
  deriving DecidableEq, Repr

/-- A pool segment (R360, R363); of a segment that is poisoned as a whole, the lines written whole or scrubbed since. -/
structure Segment where
  seg : Nat
  port : Nat
  base : Nat
  len : Nat
  lost : Bool
  poisoned : Bool
  cleared : List Nat
  deriving DecidableEq, Repr

structure Tables where
  /-- Home-window entries that are not 0, by context and index (R154). -/
  windows : List ((Nat × Nat) × DWord)
  /-- Attribute entries that are not 0, by context and page number (pointer / 2^16) (R156). -/
  attrs : List ((Nat × Nat) × DWord)
  /-- Buffer table entries by context and index, and the tables' lengths (R158). -/
  bufs : List ((Nat × Nat) × BitVec 128)
  bufLen : List (Nat × Nat)
  /-- Frame map entries that are not 0, by home and translated page (R300). -/
  frames : List ((Home × Nat) × DWord)
  /-- Binding table entries that are not 0 (R308). -/
  binds : List (Nat × DWord)
  ctxs : List (Nat × CtxConfig)
  segs : List Segment
  deriving DecidableEq, Repr

/-! ## Translation and page faults (R298–R309) -/

/-- A translation in the cache of a home (R155, R299). -/
structure TransEntry where
  home : Home
  ctx : Nat
  page : Nat
  tpage : Nat
  rights : Rights
  deriving DecidableEq, Repr

/-- What the waiters on a page need: the union of their rights, and whether an atomic is among them, which needs write and asks for read
as well (R298, R305). -/
structure Ask where
  rights : Rights
  both : Bool
  deriving DecidableEq, Repr

/-- An entry of a fault filter (`unit` a core), of a cluster stage (`unit` a cluster of the module) (R303, R304). -/
structure FaultEntry where
  unit : Nat
  ctx : Nat
  page : Nat
  ask : Ask
  waiters : Nat
  deriving DecidableEq, Repr

/-- A page request group (R304–R306): what it asks, what was joined to it since it was sent, the successive groups sent, and the PRG
index of the one that is outstanding. -/
structure Group where
  pasid : Nat
  ctx : Nat
  page : Nat
  ask : Ask
  more : Ask
  waiters : Nat
  count : Nat
  index : Option Nat
  deriving DecidableEq, Repr

structure Translation where
  tcache : List TransEntry
  /-- The walk-cache entries of the homes: home, context, the region of 512 pages (R299; log 75, DESIGN CHOICE). -/
  walks : List (Home × Nat × Nat)
  /-- Translation Requests not yet answered, oldest first: home, context, page (R299). -/
  atsOut : List (Home × Nat × Nat)
  /-- Outstanding invalidations: PASID, first and last page (R307). -/
  invs : List (Nat × Nat × Nat)
  invDone : Nat
  filters : List FaultEntry
  stages : List FaultEntry
  groups : List Group
  priOn : Bool
  priAlloc : Nat
  /-- Pages that a chain, a graph walker or a completion awaits, and those that were denied to it: unit, context, page. -/
  agents : List (Nat × Nat × Nat)
  denials : List (Nat × Nat × Nat)
  deriving DecidableEq, Repr

/-! ## Scheduler (R254–R268) -/

/-- An item of H (R257): a card with the households still to admit, a reservation request, or a gang or household
waiting to resume. -/
structure Item where
  id : Nat
  die : Nat
  queue : Nat
  card : BitVec 512
  place : List (BitVec 16)
  ctx : Nat
  prio : Nat
  posted : Nat
  aged : Bool
  /-- Next household rank to admit (R257). -/
  next : Nat
  task : Nat
  seq : Option (Nat × Nat)
  /-- The item is a reservation request of item `parent` (R258). -/
  parent : Option Nat
  /-- Gangs waiting to resume (R331); empty for a card. -/
  resume : List Nat
  /-- The module and die of each gang rank of the household being admitted (R257, R258). -/
  chosen : List (Nat × Nat)
  /-- Gangs this item has reserved on its die (R258). -/
  reserved : List Nat
  graph : Option (Nat × Nat)
  deriving DecidableEq, Repr

structure Porch where
  die : Nat
  porch : List (BitVec 256)
  ring : List (BitVec 256)
  /-- log₂ of the ring size (R264). -/
  q : Nat
  deriving DecidableEq, Repr

/-- A graph in a walker (R262, R263, R294). -/
structure Graph where
  id : Nat
  die : Nat
  ctx : Nat
  base : DWord
  done : DWord
  doneval : Word
  failval : Word
  nodes : Nat
  /-- Nodes with an activation on them. -/
  acts : List Nat
  joins : List (Nat × Nat)
  loops : List (Nat × Nat)
  /-- Task nodes whose card awaits the queue's answer, and whose task is incomplete: node, successor, second successor. -/
  posting : List (Nat × Nat × Nat)
  tasks : List (Nat × Nat × Nat)
  faulted : Bool
  deriving DecidableEq, Repr

/-- A command chain being walked (R250–R252): its header's location, its core and block, the operation of the entry in
progress, and the entry it stopped at (with whether the header caused the stop). -/
structure Chain where
  id : Nat
  core : Nat
  block : Nat
  t : TRef
  hdr : Nat
  /-- Entries consumed. -/
  count : Nat
  busy : Option Nat
  walking : Bool
  stopped : Option (Nat × Bool)
  deriving DecidableEq, Repr

/-- An instance of a collective (R281): participants by gang uid with their operation. -/
structure CollInst where
  id : Nat
  hh : Nat
  tag : Nat
  n : Nat
  parts : List (Nat × Nat)
  deriving DecidableEq, Repr

/-- A saved gang (R330). -/
structure Saved where
  gang : Nat
  die : Nat
  threads : List Thread
  warps : List Warp
  blocks : List Block
  scratch : List (Nat × List Host.Cell)
  acc : List (Nat × List (Nat × Word))
  /-- Poisoned words, as Core.badWords numbers them from the grant on (R327). -/
  bad : List (Nat × List Nat)
  /-- Accesses accepted and not yet performed, and engine operations with their progress. -/
  accs : List Access
  engs : List EngOp
  ranges : List (Nat × Range)
  deriving DecidableEq, Repr

structure Scheduler where
  items : List Item
  /-- The last queue admitted, per die (R257). -/
  lastQueue : List (Nat × Nat)
  /-- The held items: die, item, and the cycle since which it is held (R257, R329). -/
  heldItem : List (Nat × Nat × Nat)
  queueSize : List ((Nat × Nat) × Nat)
  /-- The root manager's sequence counter (R258). -/
  seqCounter : Nat
  taskCount : Nat
  porches : List Porch
  graphs : List Graph
  chains : List Chain
  colls : List CollInst
  saved : List Saved
  deriving DecidableEq, Repr

/-! ## Tokens, migration, links (R336–R353) -/

/-- What a holder other than the home holds of a line (R339). -/
structure Hold where
  holder : Holder
  count : Nat
  owner : Bool
  data : Bool
  dirty : Bool
  /-- The cache policy of the access that brought the line, and its context (R165, R308). -/
  policy : Nat
  ctx : Nat
  deriving DecidableEq, Repr

/-- The tokens of a 128-byte line (R338, R340): those of the home, and those of the other holders. -/
structure TokenLine where
  line : Nat
  epoch : Nat
  home : Nat
  homeOwner : Bool
  holds : List Hold
  deriving DecidableEq, Repr

structure TokenMsg where
  id : Nat
  line : Nat
  dest : Holder
  count : Nat
  owner : Bool
  data : Bool
  poison : Bool
  epoch : Nat
  /-- The links that it takes, of its sender's die and of its receiver's (R336, R350), and whether it has left its sender. -/
  links : List Nat
  sent : Bool
  deriving DecidableEq, Repr

/-- A token request of a holder for an access (R341, R343), or a recall on the home's own behalf (R346): when its first and its present
attempt were issued, the cache policy and the context of the access (R165, R308), and whether the access that a persistent request was made
for has been performed. -/
structure TokenReq where
  id : Nat
  holder : Holder
  line : Nat
  write : Bool
  acc : Nat
  attempt : Nat
  started : Nat
  issued : Nat
  persistent : Bool
  policy : Nat
  ctx : Nat
  used : Bool
  deriving DecidableEq, Repr

/-- A token flit in a link's replay buffer (R350, R353). -/
structure Flit where
  link : Nat
  msg : Nat
  line : Nat
  owner : Bool
  deriving DecidableEq, Repr

inductive MovePhase where
  | request | claim | recall | copied
  deriving DecidableEq, Repr

/-- A page move (R348, R349). -/
structure Move where
  id : Nat
  home : Home
  ctx : Nat
  page : Nat
  tpage : Nat
  up : Bool
  /-- The cellar die whose engine makes the move. -/
  engine : Nat
  /-- The locations of the source frame, and of the destination. -/
  srcLoc : Nat
  dst : Nat
  phase : MovePhase
  /-- The cycle in which it first held a write (R349). -/
  heldAt : Option Nat
  deriving DecidableEq, Repr

inductive LinkMode where
  | active | sleeping | waking | retraining | retired
  deriving DecidableEq, Repr

structure Link where
  id : Nat
  mode : LinkMode
  fails : Nat
  since : Nat
  deriving DecidableEq, Repr

structure Fabric where
  tokens : List TokenLine
  msgs : List TokenMsg
  reqs : List TokenReq
  /-- The home arbiters' queues, first the active request (R343). -/
  arb : List (Nat × List Nat)
  /-- Persistent tables: holder, line, request (R343). -/
  ptable : List (Holder × Nat × Nat)
  evicting : List (Nat × Nat)
  discards : Nat
  /-- Remote masks: page location, modules (R337). -/
  remote : List (Nat × Nat)
  links : List Link
  /-- Token flits in replay buffers (R353). -/
  replay : List Flit
  moves : List Move
  /-- Migration counters by context and page (R348). -/
  counters : List ((Nat × Nat) × Nat)
  /-- The migration engines' pools of free frames (R348). -/
  freeFrames : List FreeFrame
  deriving DecidableEq, Repr

/-! ## Neighbours (R354–R368) -/

structure Module where
  dev : Nat
  reachable : Bool
  lost : Bool
  /-- Announced demand and grants issued (R365). -/
  demand : Nat
  granted : Nat
  /-- The paths to it, pairs of a local and a remote port (R364), and since when there is none (R368). -/
  paths : List (Nat × Nat)
  cut : Option Nat
  deriving DecidableEq, Repr

/-- A line of the host-state table, most recently granted last (R355). -/
structure HostLine where
  line : Nat
  half0 : HalfState
  half1 : HalfState
  deriving DecidableEq, Repr

/-- A line that a bridge's own cache holds (R358, R361), and the context that brought it (R308). -/
structure BridgeLine where
  line : Nat
  own : Bool
  dirty : Bool
  ctx : Nat
  deriving DecidableEq, Repr

structure External where
  modules : List Module
  hostTable : List HostLine
  hostCache : List BridgeLine
  poolCache : List BridgeLine
  /-- Host lines and pool lines asked for, with the context of the first access that asks (R308). -/
  asked : List (Nat × Nat)
  portsLost : List Nat
  /-- The loss lists: port, line (R363). -/
  lossList : List (Nat × Nat)
  /-- Back-invalidations that the host has not answered: line, half, whether the host gives the half up (R357). -/
  snoops : List (Nat × Nat × Bool)
  /-- Responses sent to the host or pool: line, poisoned (R327, R356, R362). -/
  answers : List (Nat × List Byte × Bool)
  deriving DecidableEq, Repr

/-! ## Bring-up and health (R382–R390) -/

structure LogEntry where
  seq : Nat
  addr : Nat
  time : Word
  ctx : Nat
  die : Nat
  cellar : Bool
  cause : Nat
  kind : Nat
  info : Nat
  deriving DecidableEq, Repr

/-- A signed response that has been accepted (R386): the request, the response's code, what it reports and the nonce, and the index that was
burned for it. -/
structure Signature where
  request : Nat
  code : Nat
  payload : List Byte
  nonce : List Byte
  index : Option Nat
  deriving DecidableEq, Repr

structure Boot where
  /-- Stages finished (R382). -/
  stage : Nat
  failed : Option Nat
  /-- DIE_LOST or thermal trip (R351, R388). -/
  dead : Bool
  viral : Bool
  mr : List (BitVec 256)
  locked : Bool
  /-- The digest of the firmware key's public key, in fuses (R384). -/
  fuse : BitVec 256
  /-- The OTP index counter, and the signed responses still to be made, in the order of their acceptance (R386). -/
  otp : Nat
  signing : List Signature
  /-- Flash images: link training, Serril, trap table (R382). -/
  images : List (List Byte)
  log : List LogEntry
  logSeq : Nat
  logLost : Nat
  /-- Lifetime counters: in RAM, and the two flash copies with their sequence numbers and checks; a copy whose commit has not finished has
  none (R389). -/
  life : List (Nat × Nat)
  flash : List (Nat × List (Nat × Nat) × Option (BitVec 256))
  /-- Limiting by the rails: 0 none, 1 matrix engines, 2 copy engines too, 3 Afrik grants too (R387); and the dies limited by their own
  temperature (R388). -/
  limit : Nat
  hot : List Nat
  spdmAlgs : Bool × Bool
  /-- SPDM responses sent: request code, payload (R385). -/
  spdmOut : List (Nat × List Byte)
  deriving DecidableEq, Repr

/-! ## The issue record and the state -/

/-- The issue group being executed (R125): threads still to execute the instruction, the thread executing it now, all
members, the program counter, the warps whose key file this issue has changed (R391) with what each KTEST, KRECV or
KCLR of the issue answered, and the word of the repetition about to issue (R51). -/
structure Issue where
  /-- The slot of the thread that the group was formed for; none in a paired slot (R125). -/
  lead : Option Nat
  /-- Members that turned out not ready: their agent or key is full (R163, R177, R269). -/
  held : List TRef
  todo : List TRef
  cur : TRef
  group : List TRef
  picker : Nat
  pc : DWord
  keyDone : List (Nat × Nat)
  /-- The number from which on the operations of this issue are numbered (R172). -/
  firstId : Nat
  follower : Option Instr
  /-- Members that have executed the instruction and gone on. -/
  retired : List TRef
  /-- The group may go on to the paired slot in this cycle (R38). -/
  paired : Bool
  deriving DecidableEq, Repr

structure State where
  clock : Nat
  device : Nat
  /-- The MODEL's own: free-value counter (log 3, DESIGN CHOICE), number supply, due events and where new ones enter (log 2, DESIGN CHOICE). -/
  free : Nat
  nextId : Nat
  agenda : List Instr
  sched : List Nat
  turn : Bool
  cursor : Nat
  issue : Issue
  threads : List Thread
  warps : List Warp
  cores : List Core
  blocks : List Block
  gangs : List Gang
  hhs : List Household
  tasks : List Task
  ops : List Op
  accs : List Access
  engs : List EngOp
  sends : List Send
  /-- Arrivals behind others of their slot, in the order in which they came; of each die's, as many as its queue holds are in it, and the
  rest wait at the points that gathered their markers (R181). -/
  arrivals : List Nat
  /-- Messages sent, by core and point (R182). -/
  paths : List ((Nat × Nat) × Nat)
  messages : List Message
  mem : List Host.Cell
  /-- The MODEL's own: what stores to global memory replaced since the oldest running task started, oldest first: cycle, location and bytes.
  LDR may still return it (R168). -/
  past : List (Nat × Nat × List Byte)
  /-- Poisoned lines with their cause (R327, R353). -/
  poison : List (Nat × Cause)
  tabs : Tables
  tx : Translation
  sch : Scheduler
  fab : Fabric
  ext : External
  boot : Boot
  deriving DecidableEq, Repr

/-- No issue is being executed. -/
def Issue.idle : Issue :=
  { lead := none, held := [], todo := [], cur := ⟨0, 0, 0⟩, group := [], picker := 0, pc := 0, keyDone := [], firstId := 0,
    follower := none, retired := [], paired := false }

/-- A core as module reset leaves it (R316, R325; log 4, DESIGN CHOICE). -/
def Core.fresh (id : Nat) : Core :=
  { id := id, trapcause := 0, trapwarp := 0, trappc := 0, recCause := 0, recWarp := 0, check := 0, fpen := 0, fpcause := 0, fmterr := 0,
    engrec := 0, engop := 0, ttab := 0, stopped := none, halted := false, mcheck := false, inService := true,
    rot := [0, 0, 0, 0], l1 := [], icache := [], refetch := [], ranges := [], acc := [], badWords := [] }

/-- The machine right after module reset (R382): no stage finished and the first due, the measurement registers clear, nothing resident,
nothing in flight; registers without a stated value as log 4 gives. -/
def State.reset : State :=
  { clock := 0, device := 0, free := 0, nextId := 1, agenda := [.bootStage], sched := [], turn := false, cursor := 0,
    issue := Issue.idle, threads := [], warps := [], cores := [], blocks := [], gangs := [], hhs := [], tasks := [],
    ops := [], accs := [], engs := [], sends := [], arrivals := [], paths := [], messages := [], mem := [], past := [],
    poison := [],
    tabs := { windows := [], attrs := [], bufs := [], bufLen := [], frames := [], binds := [], ctxs := [], segs := [] },
    tx := { tcache := [], walks := [], atsOut := [], invs := [], invDone := 0, filters := [], stages := [], groups := [],
            priOn := true, priAlloc := Config.priCapacity, agents := [], denials := [] },
    sch := { items := [], lastQueue := [], heldItem := [], queueSize := [], seqCounter := 0, taskCount := 0,
             porches := [], graphs := [], chains := [], colls := [], saved := [] },
    fab := { tokens := [], msgs := [], reqs := [], arb := [], ptable := [], evicting := [], discards := 0,
             remote := [], links := [], replay := [], moves := [], counters := [], freeFrames := [] },
    ext := { modules := [], hostTable := [], hostCache := [], poolCache := [], asked := [], portsLost := [], lossList := [],
             snoops := [], answers := [] },
    boot := { stage := 0, failed := none, dead := false, viral := false, mr := List.replicate 16 0, locked := false,
              fuse := Config.fuseDigest, otp := 0, signing := [], images := [[], [], []], log := [], logSeq := 0, logLost := 0, life := [], flash := [],
              limit := 0, hot := [], spdmAlgs := (false, false), spdmOut := [] } }

end Sys2Proof.Machine
end

