-- ==== Sys2Proof/Machine/Base.lean ====
section
/-! DEFINITION. The named operations over memory, registers and the records of the state, on which every meaning
rests. -/

namespace Sys2Proof.Machine

/-! ## Lists with a key -/

/-- Replaces the first element that satisfies `p`, or appends. -/
def upsert {α : Type} (p : α → Bool) (x : α) : List α → List α
  | [] => [x]
  | y :: ys => if p y then x :: ys else y :: upsert p x ys

/-- The value of a key in an association list. -/
def assoc {κ β : Type} [DecidableEq κ] (k : κ) : List (κ × β) → Option β
  | [] => none
  | (k', v) :: l => if k' = k then some v else assoc k l

/-- Sets the value of a key. -/
def setAssoc {κ β : Type} [DecidableEq κ] (k : κ) (v : β) : List (κ × β) → List (κ × β)
  | [] => [(k, v)]
  | (k', v') :: l => if k' = k then (k, v) :: l else (k', v') :: setAssoc k v l

/-- Removes a key. -/
def eraseAssoc {κ β : Type} [DecidableEq κ] (k : κ) (l : List (κ × β)) : List (κ × β) :=
  l.filter (fun x => decide (x.1 ≠ k))

/-- Inserts at a position, or at the end. -/
def insertAt {α : Type} : Nat → α → List α → List α
  | 0, x, l => x :: l
  | _ + 1, x, [] => [x]
  | n + 1, x, y :: l => y :: insertAt n x l

/-! ## Memory: the one canonical list of bytes (log 5, DESIGN CHOICE, log 7, DESIGN CHOICE) -/

/-- The byte at a location; an unlisted location reads 0 (R382). -/
def Memory.read : List Host.Cell → Nat → Byte
  | [], _ => 0
  | (k, v) :: m, a => if k = a then v else Memory.read m a

/-- The memory with byte `b` at location `a`, in canonical form. -/
def Memory.write (a : Nat) (b : Byte) : List Host.Cell → List Host.Cell
  | [] => if b = 0 then [] else [(a, b)]
  | (k, v) :: m =>
    if k < a then (k, v) :: Memory.write a b m
    else if k = a then (if b = 0 then m else (a, b) :: m)
    else if b = 0 then (k, v) :: m else (a, b) :: (k, v) :: m

/-- Locations rise from `lo`, and no listed byte is 0. -/
def Memory.wfFrom : Nat → List Host.Cell → Bool
  | _, [] => true
  | lo, (k, v) :: m => decide (lo ≤ k) && v != 0 && Memory.wfFrom (k + 1) m

/-- The canonical form of memory. -/
def Memory.wf (m : List Host.Cell) : Bool := Memory.wfFrom 0 m

/-- n bytes from a location up. -/
def Memory.readN (m : List Host.Cell) (a n : Nat) : List Byte := (List.range n).map (fun i => Memory.read m (a + i))

/-- Writes a list of bytes from a location up. -/
def Memory.writeN : Nat → List Byte → List Host.Cell → List Host.Cell
  | _, [], m => m
  | a, b :: bs, m => Memory.writeN (a + 1) bs (Memory.write a b m)

/-- Locations of the places that hold bytes (log 7, DESIGN CHOICE): kind and index of a place, then the byte within it. -/
def placeBase (kind idx : Nat) : Nat := (kind + 8 * idx) * 2 ^ 64
def hallBase (dev die : Nat) : Nat := placeBase 0 (dev * 16 + die)
def cellarBase (dev die : Nat) : Nat := placeBase 1 (dev * 16 + die)
def hostBase : Nat := placeBase 2 0
def poolBase (port : Nat) : Nat := placeBase 3 port
def scratchBase (core : Nat) : Nat := placeBase 4 core
/-- Pool segments that another module serves, and the memory of another module's host. -/
def awayPoolBase (dev seg : Nat) : Nat := placeBase 6 (dev * 1024 + seg)
def awayHostBase (dev : Nat) : Nat := placeBase 5 dev
/-- The module of a location outside host memory, scratchpads and this module's pool. -/
def devOfLoc (loc : Nat) : Nat :=
  let p := loc / 2 ^ 64
  match p % 8 with
  | 5 => p / 8
  | 6 => p / 8 / 1024
  | _ => p / 8 / 16

/-- The 128-byte line of a location (R155). -/
def lineNum (loc : Nat) : Nat := loc / 128

def State.readBytes (s : State) (loc n : Nat) : List Byte := Memory.readN s.mem loc n
/-- What the machine remembers when n bytes at a location of global memory are replaced (R168). -/
def State.pastAfter (s : State) (loc n : Nat) : List (Nat × Nat × List Byte) :=
  if loc / 2 ^ 64 % 8 = 4 then s.past else s.past ++ [(s.clock, loc, s.readBytes loc n)]
def State.writeBytes (s : State) (loc : Nat) (bs : List Byte) : State :=
  { s with mem := Memory.writeN loc bs s.mem, past := s.pastAfter loc bs.length }
/-- A little-endian value of n bytes (R5). -/
def State.readLe (s : State) (loc n : Nat) : Nat := leValue (s.readBytes loc n)

/-! ## Records -/

def State.thread? (s : State) (r : TRef) : Option Thread := s.threads.find? (fun t => decide (t.ref = r))
/-- Changes the thread at `r`. -/
def State.modThread (r : TRef) (f : Thread → Thread) (s : State) : State :=
  { s with threads := s.threads.map (fun t => if t.ref = r then f t else t) }
def State.setThread (th : Thread) (s : State) : State := s.modThread th.ref (fun _ => th)

/-- A warp without keys, as a new warp starts (R12, R171). -/
def Warp.fresh (core slot widx block : Nat) : Warp :=
  { core := core, slot := slot, widx := widx, block := block, u := List.replicate 63 0, upend := [],
    keys := List.replicate 14 ⟨[], none, .none⟩, rejoin := [], left := 0, serial := false, serialPtr := 0, colls := [],
    poisoned := false }

/-- A thread as it starts (R12, R21, R23): registers and predicates zero, ready at `pc`. -/
def Thread.fresh (r : TRef) (tid block alloc priv : Nat) (pc : DWord) (at_ : Nat) : Thread :=
  { ref := r, tid := tid, block := block, alloc := alloc, w := List.replicate 255 0, p := List.replicate 7 false, pc := pc,
    calls := [], callsp := 0xB000000000000000, priv := priv, rep := none, status := .ready, readyAt := at_, age := at_,
    yielded := false, pend := [], tracked := [], marks := [], line := none, denied := none, cleared := none, edited := false }

def Warp.at (core slot : Nat) (w : Warp) : Bool := w.core == core && w.slot == slot
def State.warp? (s : State) (core slot : Nat) : Option Warp := s.warps.find? (Warp.at core slot)
def State.warp (s : State) (core slot : Nat) : Warp := (s.warp? core slot).getD (Warp.fresh core slot 0 0)
def State.modWarp (core slot : Nat) (f : Warp → Warp) (s : State) : State :=
  { s with warps := s.warps.map (fun w => if Warp.at core slot w then f w else w) }
def State.warpOf (s : State) (th : Thread) : Warp := s.warp th.ref.core th.ref.slot

/-- The core with a number; one that nothing has changed since reset has no record. -/
def State.core (s : State) (c : Nat) : Core := (s.cores.find? (fun x => decide (x.id = c))).getD (Core.fresh c)
def State.setCore (c : Core) (s : State) : State := { s with cores := upsert (fun x => decide (x.id = c.id)) c s.cores }
def State.modCore (c : Nat) (f : Core → Core) (s : State) : State := s.setCore { f (s.core c) with id := c }

/-- Where a block's scratchpad allocation stands among the places of its core: by its bind record (log 7, DESIGN CHOICE). -/
def Block.spBase (b : Block) : Nat := b.index * Config.scratchBytes

def State.block? (s : State) (u : Nat) : Option Block := s.blocks.find? (fun b => decide (b.uid = u))
def State.gang? (s : State) (u : Nat) : Option Gang := s.gangs.find? (fun g => decide (g.uid = u))
def State.hh? (s : State) (u : Nat) : Option Household := s.hhs.find? (fun h => decide (h.uid = u))
def State.task? (s : State) (n : Nat) : Option Task := s.tasks.find? (fun t => decide (t.num = n))
def State.modGang (u : Nat) (f : Gang → Gang) (s : State) : State :=
  { s with gangs := s.gangs.map (fun g => if g.uid = u then f g else g) }
def State.modHh (u : Nat) (f : Household → Household) (s : State) : State :=
  { s with hhs := s.hhs.map (fun h => if h.uid = u then f h else h) }

def State.blockOf (s : State) (th : Thread) : Option Block := s.block? th.block
def State.gangOf (s : State) (th : Thread) : Option Gang := (s.blockOf th).bind (fun b => s.gang? b.gang)
def State.hhOf (s : State) (th : Thread) : Option Household := (s.gangOf th).bind (fun g => s.hh? g.hh)
def State.taskOf (s : State) (th : Thread) : Option Task := (s.gangOf th).bind (fun g => s.task? g.task)
/-- The context a thread runs in: its gang's, and 0 for the trap warp (R308, R314). -/
def State.ctxOf (s : State) (th : Thread) : Nat := match s.gangOf th with | some g => g.ctx | none => 0

def State.threadsOfWarp (s : State) (core slot : Nat) : List Thread :=
  s.threads.filter (fun t => t.ref.core == core && t.ref.slot == slot)
def State.threadsOfBlock (s : State) (u : Nat) : List Thread := s.threads.filter (fun t => t.block == u)
/-- Whether a thread belongs to a block of the gang. -/
def State.inGang (s : State) (g : Nat) (th : Thread) : Bool :=
  match s.blockOf th with | some b => b.gang == g | none => false
def State.inHh (s : State) (h : Nat) (th : Thread) : Bool :=
  match s.gangOf th with | some g => g.hh == h | none => false

/-- Lanes of a list of threads as a mask. -/
def laneMask (ts : List Thread) : Word := ts.foldl (fun acc t => acc ||| BitVec.ofNat 32 (2 ^ t.ref.lane)) 0

/-! ## Events (log 2, DESIGN CHOICE) -/

/-- Enters a follow-up event in the agenda, at the place that `sched` gives, else at the end. -/
def State.post (e : Instr) (s : State) : State :=
  match s.sched with
  | [] => { s with agenda := s.agenda ++ [e] }
  | k :: ks => { s with agenda := insertAt k e s.agenda, sched := ks }

/-- Enters several. -/
def State.postAll (es : List Instr) (s : State) : State := es.foldl (fun s e => s.post e) s

/-- A new number for an operation or record. -/
def State.fresh (s : State) : Nat × State := (s.nextId, { s with nextId := s.nextId + 1 })
/-- The next free choice (log 3, DESIGN CHOICE). -/
def State.choice (s : State) : Nat × State := (s.free, { s with free := s.free + 1 })

/-- A lifetime counter's number: its record (0 correctable errors, 1 uncorrectable errors and poison, 2 link retries,
3 link wake latencies, 4 persistent-request durations, 5 thermal excursions, 6 thermal trips, 7 retired links, 8 machine
checks, 9 cores out of service, 10 power-on hours, 11 failed log writes) and what it is kept per, with its bin (R389). -/
def lifeKey (kind unit bin : Nat) : Nat := (kind * 2 ^ 16 + unit) * 8 + bin

/-- Counts an event in a lifetime record; a counter stops at its maximum of 48 bits (R389). -/
def State.count (kind unit bin : Nat) (s : State) : State :=
  let k := lifeKey kind unit bin
  { s with boot := { s.boot with life := setAssoc k (Nat.min (2 ^ 48 - 1) ((assoc k s.boot.life).getD 0 + 1)) s.boot.life } }

/-- Appends to the management log (R390); where the flash write fails the entry is lost and the loss counted. -/
def State.logEvent (e : LogEntry) (s : State) : State :=
  if Config.logFails (s.boot.logSeq + s.boot.logLost) then
    State.count 11 0 0 { s with boot := { s.boot with logLost := s.boot.logLost + 1 } }
  else
    let full := decide (s.boot.log.length ≥ 65536)
    { s with boot := { s.boot with
        log := (if full then s.boot.log.drop 1 else s.boot.log) ++ [{ e with seq := s.boot.logSeq }],
        logSeq := s.boot.logSeq + 1 } }

/-- A log entry of the kind given at the present time, by die `die`: hall dies are 0–11, cellar dies 12–17. -/
def State.log (kind die ctx cause addr info : Nat) (s : State) : State :=
  s.logEvent { seq := 0, addr := addr, time := BitVec.ofNat 32 s.clock, ctx := ctx, die := if die < 12 then die else die - 12,
               cellar := decide (die ≥ 12), cause := cause, kind := kind, info := info }

def State.setItem (x : Item) (s : State) : State :=
  { s with sch := { s.sch with items := s.sch.items.map (fun y => if y.id = x.id then x else y) } }

/-- Enters an event unless it is due already. -/
def State.postOnce (e : Instr) (s : State) : State := if s.agenda.contains e then s else s.post e

/-- Where the admission policy may have something new to decide: the die, and the dies with gangs waiting to resume, which may
go to any die (R257, R331). -/
def wakeAdmission (die : Nat) (s : State) : State :=
  let ds := (die :: (s.sch.items.filter (fun x => !x.resume.isEmpty)).map (·.die)).eraseDups
  ds.foldl (fun s d => s.postOnce (.admissionDecision d)) s

/-- Something of the gang retired: its watchdog counter restarts (R328). -/
def State.progress (g : Nat) (s : State) : State := s.modGang g (fun x => { x with wdCount := 0 })
def State.progressOf (th : Thread) (s : State) : State :=
  match s.gangOf th with | some g => s.progress g.uid | none => s

/-! ## Program counters (R13, R14) -/

def pcLine (pc : DWord) : DWord := pc &&& ~~~ (63 : DWord)
def pcSlot (pc : DWord) : Nat := pc.toNat % 64
/-- The next instruction in fall-through order (R14). Past the last line of global space it leaves that space, and its fetch raises
SPACE_FAULT (log 76, DESIGN CHOICE). -/
def nextPc (pc : DWord) : DWord := if pcSlot pc ≥ 4 then pcLine pc + 64 else pc + 1

/-- The thread after its instruction, or repetition, at its program counter is done (R14, R51). -/
def Thread.advance (th : Thread) : Thread :=
  match th.rep with
  | some r => if r.j + 1 < r.n then { th with rep := some { r with j := r.j + 1 } }
              else { th with rep := none, pc := nextPc th.pc }
  | none => { th with pc := nextPc th.pc }

/-- The line that the core's instruction cache holds (R14). -/
def State.cachedLine (s : State) (core ctx : Nat) (addr : DWord) : Option Line :=
  ((s.core core).icache.find? (fun l => l.ctx == ctx && l.addr == addr.toNat)).map (fun l => lineOf l.bytes)

/-! ## Registers, predicates and uniform registers (R10, R19, R20) -/

/-- The pending fixed-latency result of a register that is not yet ready. -/
def Thread.early? (th : Thread) (clock reg : Nat) : Option Pending :=
  th.pend.find? (fun p => p.reg == reg && decide (clock < p.due))

/-- Register r as operand number `pos` reads it: w255 reads zero; an early read takes the old or the new value (log 9, DESIGN CHOICE). -/
def Thread.readW (th : Thread) (clock choice pos r : Nat) : Word :=
  if r ≥ 255 then 0
  else match th.early? clock r with
    | some p => if Config.earlyOld choice (r + 1024 * pos) then p.old else th.w.getD r 0
    | none => th.w.getD r 0

/-- The pair at r (R75). -/
def Thread.readPair (th : Thread) (clock choice pos r : Nat) : DWord :=
  th.readW clock choice pos (r + 1) ++ th.readW clock choice pos r

/-- Predicate k (R10): p7 reads true. -/
def Thread.readP (th : Thread) (clock choice pos k : Nat) : Bool :=
  if k ≥ 7 then true
  else match th.early? clock (256 + k) with
    | some p => if Config.earlyOld choice (256 + k + 1024 * pos) then p.old != 0 else th.p.getD k false
    | none => th.p.getD k false

/-- Uniform register k: s63 reads zero (R10, R96). -/
def Warp.readU (w : Warp) (clock choice pos k : Nat) : Word :=
  if k ≥ 63 then 0
  else match w.upend.find? (fun p => p.reg == k && decide (clock < p.due)) with
    | some p => if Config.earlyOld choice (512 + k + 1024 * pos) then p.old else w.u.getD k 0
    | none => w.u.getD k 0

/-- Replaces the pending entry of a register. -/
def addPending (reg due : Nat) (old : Word) (l : List Pending) : List Pending :=
  ⟨reg, due, old⟩ :: l.filter (fun p => p.reg != reg)

def dropMark (reg : Nat) (l : List (Nat × Cause)) : List (Nat × Cause) := l.filter (fun m => m.1 != reg)

/-- A fixed-latency write of register r, ready at `due` (R19); it clears a faulted mark (R201). -/
def Thread.writeW (th : Thread) (due r : Nat) (v : Word) : Thread :=
  if r ≥ 255 then th
  else { th with w := th.w.set r v, pend := addPending r due (th.w.getD r 0) th.pend, marks := dropMark r th.marks }

/-- A fixed-latency write of predicate k. -/
def Thread.writeP (th : Thread) (due k : Nat) (b : Bool) : Thread :=
  if k ≥ 7 then th
  else { th with p := th.p.set k b,
                 pend := addPending (256 + k) due (if th.p.getD k false then 1 else 0) th.pend }

/-- A tracked write of register r, ready at once (R19). -/
def Thread.putW (th : Thread) (r : Nat) (v : Word) : Thread :=
  if r ≥ 255 then th
  else { th with w := th.w.set r v, pend := th.pend.filter (fun p => p.reg != r), marks := dropMark r th.marks }

def Thread.putP (th : Thread) (k : Nat) (b : Bool) : Thread :=
  if k ≥ 7 then th else { th with p := th.p.set k b, pend := th.pend.filter (fun p => p.reg != 256 + k) }

/-- The tracked result `x` written (R19). -/
def Thread.putTracked (x : Tracked) (th : Thread) : Thread :=
  x.preds.foldl (fun th q => th.putP q.1 q.2) (x.regs.foldl (fun th q => th.putW q.1 q.2) th)

/-- Registers of a value of n words from register d up. -/
def wordRegs (d : Nat) : List Word → List (Nat × Word)
  | [] => []
  | v :: vs => (d, v) :: wordRegs (d + 1) vs

/-- A 32- or 64-bit value at d. -/
def valueRegs (wide : Bool) (d : Nat) (v : DWord) : List (Nat × Word) :=
  if wide then [(d, v.extractLsb' 0 32), (d + 1, v.extractLsb' 32 32)] else [(d, v.extractLsb' 0 32)]

/-- Adds a tracked result that may be written from cycle `due` on, and its event (R19, R136). -/
def State.track (r : TRef) (x : Tracked) (s : State) : State :=
  (s.modThread r (fun th => { th with tracked := th.tracked ++ [x] })).post (.trackedResultWrite r x.id)

/-- Cause codes (R312). -/
def causeCode : Cause → Nat
  | .illegalOpcode => 0x01 | .illegalLine => 0x02 | .illegalTarget => 0x03 | .illegalOperand => 0x04
  | .stallShort => 0x05 | .privileged => 0x06 | .trapInsn => 0x07 | .breakpoint => 0x08 | .misaligned => 0x09
  | .atomType => 0x0A | .spaceFault => 0x0B | .bufferStale => 0x0C | .bufferBounds => 0x0D | .bufferRights => 0x0E
  | .hhDeparted => 0x0F | .rejoinCycle => 0x10 | .watchdog => 0x11 | .keyMisuse => 0x12 | .poison => 0x13
  | .poolLost => 0x14 | .pageDenied => 0x15 | .callSpill => 0x16 | .queueOverflow => 0x17 | .fpTrap => 0x18
  | .engineFault => 0x19 | .coherenceLost => 0x1A

/-! ## Operations and keys (R171–R179) -/

/-- Whether operation `id` has performed at a scope; one that is no longer outstanding has (R179) (log 26, DEDUCED). -/
def State.performed (s : State) (id scope : Nat) : Bool :=
  match s.ops.find? (fun o => o.id == id) with
  | some o => decide (scope < o.perf)
  | none => true

def State.allPerformed (s : State) (ids : List Nat) (scope : Nat) : Bool := ids.all (fun i => s.performed i scope)

def KeyState.clear : KeyState := ⟨[], none, .none⟩

/-- Key k of the file, 1–14. -/
def Warp.key (w : Warp) (k : Nat) : KeyState := if k = 0 then KeyState.clear else w.keys.getD (k - 1) KeyState.clear
def Warp.setKey (w : Warp) (k : Nat) (x : KeyState) : Warp := if k = 0 then w else { w with keys := w.keys.set (k - 1) x }
def Warp.modKey (k : Nat) (f : KeyState → KeyState) (w : Warp) : Warp := w.setKey k (f (w.key k))

/-- The keys that a consume of ck covers (R171): none for k0, all for k15. -/
def coveredKeys (ck : Nat) : List Nat := if ck = 0 then [] else if ck = 15 then (List.range 14).map (· + 1) else [ck]

/-- The producers a consume of ck waits for (R173). -/
def Warp.producersOf (w : Warp) (ck : Nat) : List Nat := (coveredKeys ck).flatMap (fun k => (w.key k).producers)

/-- The fault a consume of ck meets: the lowest-numbered faulted key's (R179). -/
def Warp.faultOf (w : Warp) (ck : Nat) : Option (Cause × DWord × Nat) :=
  (coveredKeys ck).findSome? (fun k => (w.key k).fault)

/-- The armed slots' arrivals that a consume of ck waits for, by their marks (R181). -/
def Warp.armedMarks (w : Warp) (ck : Nat) : List Nat :=
  (coveredKeys ck).filterMap (fun k => match (w.key k).arrival with | .armed m _ => some m | _ => none)

/-- Everything that a consume of ck waits for: the producers, and the arrivals of armed slots (R173, R178, R181). -/
def Warp.waitsOf (w : Warp) (ck : Nat) : List Nat := w.producersOf ck ++ w.armedMarks ck

/-- The waits of an operation that issues now: those of earlier issues only (R172, R173). -/
def State.waitsNow (s : State) (w : Warp) (ck : Nat) : List Nat := (w.waitsOf ck).filter (· < s.issue.firstId)

/-- k is satisfied at a scope (R178). -/
def State.keySatisfied (s : State) (w : Warp) (ck scope : Nat) : Bool := s.allPerformed (w.waitsOf ck) scope

/-- Enters a new operation of a thread, counted on produce key pk (R173); point names where its messages go (R182). -/
def State.addOp (th : Thread) (id pk point : Nat) (s : State) : State :=
  let g := match s.blockOf th with | some b => b.gang | none => 0
  let o : Op := { id := id, core := th.ref.core, slot := th.ref.slot, gang := g, perf := 0, points := [point] }
  let s := { s with ops := s.ops ++ [o] }
  s.modWarp th.ref.core th.ref.slot (Warp.modKey pk (fun (k : KeyState) => { k with producers := k.producers ++ [id] }))

/-- Changes every key of every warp, those of saved gangs included (R330). -/
def State.mapKeys (f : KeyState → KeyState) (s : State) : State :=
  let g (w : Warp) : Warp := { w with keys := w.keys.map f }
  { s with
    warps := s.warps.map g,
    sch := { s.sch with saved := s.sch.saved.map (fun (x : Saved) => { x with warps := x.warps.map g }) } }

/-- Removes an operation from every producer set. -/
def State.dropProducer (id : Nat) (s : State) : State :=
  ({ s with ops := s.ops.filter (fun o => o.id != id) } : State).mapKeys
    (fun (k : KeyState) => { k with producers := k.producers.filter (· != id) })

/-- Operation `id` has performed at `scope` and every narrower one; at system scope it leaves its keys (R174). -/
def State.performAt (id scope : Nat) (s : State) : State :=
  if scope ≥ 6 then s.dropProducer id
  else { s with ops := s.ops.map (fun (o : Op) => if o.id = id then { o with perf := Nat.max o.perf (scope + 1) } else o) }

/-- Operation `id` ends with a fault: its keys are faulted, and it no longer counts as outstanding (R179, R201) (log 45, DEDUCED). -/
def State.failOp (id : Nat) (c : Cause) (rcd : DWord) (s : State) : State :=
  let mark (k : KeyState) : KeyState :=
    if k.producers.contains id then
      { k with producers := k.producers.filter (· != id),
               fault := match k.fault with | some x => some x | none => some (c, rcd, id) }
    else k
  ({ s with ops := s.ops.filter (fun o => o.id != id) } : State).mapKeys mark

/-- The operation of an instruction that has waited for its consume key and issues again (R173). -/
def Thread.entered (th : Thread) : Option Nat := th.cleared.bind (fun x => if x.1 = th.pc then some x.2 else none)
/-- The operation of the instruction that a thread waits at, which ends with it. -/
def Thread.ownOp (th : Thread) : Option Nat :=
  match th.status with
  | .obwait _ _ id => some id
  | .mbrecv id _ => some id
  | .keyed _ _ id => some id
  | _ => th.entered
/-- The instruction that a thread is at does not happen: its operation does not exist. -/
def Thread.dropOwn (th : Thread) (s : State) : State := match th.ownOp with | some id => s.dropProducer id | none => s

/-- Where the messages of an access go (R182): a home, or a core's scratchpad unit. -/
def pointOfHome : Home → Nat
  | .hall dev d => dev * 4096 + d
  | .cellar dev d => dev * 4096 + 16 + d
  | .host => 32
  | .pool dev seg => dev * 4096 + 2048 + seg
def pointOfCore (core : Nat) : Nat := 2 ^ 20 + core

end Sys2Proof.Machine
end

