-- ==== Sys2Proof/Machine/Waits.lean ====
section
/-! DEFINITION. What lets waiting threads go on: rejoin entries, warp collectives, barriers, and the exit of a thread
(R116, R128, R130, R137–R150, R369–R371). -/

namespace Sys2Proof.Machine

/-- The wait of a thread ends with its instruction done: it is ready from cycle `at_`, once its stall count has elapsed (R18,
R125; log 69, DESIGN CHOICE, for the participants of a collective and for the last arriver at a barrier), at the next instruction or where a handler has sent it meanwhile (R319, R322). -/
def Thread.finish (at_ : Nat) (th : Thread) : Thread :=
  { (if th.edited then th else th.advance) with
    status := .ready, age := Nat.max th.readyAt at_, readyAt := Nat.max th.readyAt at_, edited := false }

/-- The wait of a thread ends with its instruction not done: it issues it again. -/
def Thread.replay (at_ : Nat) (th : Thread) : Thread :=
  { th with status := .ready, age := Nat.max th.readyAt at_, readyAt := Nat.max th.readyAt at_, edited := false }

/-- A thread of the warp is released from a wait: its gang's watchdog counter restarts (R328). -/
def progressWarp (core slot : Nat) (s : State) : State :=
  match s.block? (s.warp core slot).block with | some b => s.progress b.gang | none => s

/-! ## Rejoin entries (R128–R130) -/

def hasLane (m : Word) (l : Nat) : Bool := m.getLsbD l

/-- The release condition of an entry: every live thread of its mask has arrived (R128). -/
def rejoinMet (live : Word) (e : RejoinEntry) : Bool := e.mask &&& live &&& ~~~ e.arrived == 0

/-- The end of a cycle for the rejoin table (R128): releases the entries whose condition holds, having gained an arrival or
lost a lane in this cycle, wherever a handler has sent the threads that arrived meanwhile. They have equal ages; one with a stall count above
1 is still stalled (log 69, DESIGN CHOICE). -/
def settleRejoin (core slot : Nat) (s : State) : State :=
  let w := s.warp core slot
  let live := laneMask (s.threadsOfWarp core slot)
  let go (e : RejoinEntry) : Bool := rejoinMet live e && (e.arrived != 0 || e.mask &&& w.left != 0)
  let freed := (w.rejoin.filter go).foldl (fun acc e => acc ||| e.arrived) 0
  let rest := w.rejoin.filter (fun e => !(go e))
  let s := s.modWarp core slot (fun w => { w with rejoin := rest, left := 0 })
  let s := if freed == 0 then s else progressWarp core slot s
  { s with threads := s.threads.map (fun t =>
      if t.ref.core = core ∧ t.ref.slot = slot ∧ t.status = .rejoin ∧ hasLane freed t.ref.lane = true
      then { t.finish (s.clock + 1) with age := s.clock + 1 } else t) }

/-! ## Warp collectives (R137–R146) -/

def participant? (c : Collective) (l : Nat) : Option Participant := c.arrived.find? (fun p => p.lane == l)

/-- The source lane of SHFL (R141). -/
def shflLane (mode lane n : Nat) : Int :=
  match mode with
  | 0 => n
  | 1 => (lane : Int) - n
  | 2 => (lane : Int) + n
  | _ => ((lane ^^^ n : Nat) : Int)

/-- SHFL (R141). -/
def shflValue (c : Collective) (p : Participant) : DWord :=
  let j := shflLane (c.m.toNat % 8) p.lane p.n
  if 0 ≤ j ∧ j ≤ 31 then
    match participant? c j.toNat with
    | some q => q.v
    | none => p.v
  else p.v

/-- The mask of the participants that satisfy a predicate. -/
def lanesWhere (c : Collective) (f : Participant → Bool) : Word :=
  c.arrived.foldl (fun acc q => if f q then acc ||| BitVec.ofNat 32 (2 ^ q.lane) else acc) 0

/-- VOTE (R142), for the modes that write a predicate. -/
def votePred (c : Collective) : Bool :=
  match c.m.toNat % 4 with
  | 0 => c.arrived.all (·.x)
  | 1 => c.arrived.any (·.x)
  | _ => c.arrived.all (·.x) || c.arrived.all (fun p => !p.x)

/-- WRED (R143): the reduction of the participants' values of type ty under op. -/
def wredValue (ty op : Nat) (vs : List DWord) : DWord :=
  let w := if Forms.wide ty then 64 else 32
  let signed := ty % 2 == 0
  let val (v : DWord) : Int := if signed then (if w = 64 then v.toInt else (v.extractLsb' 0 32).toInt) else (v.toNat : Int)
  let F := if ty = 9 then Fmt.f64 else Fmt.f32
  let float := ty == 8 || ty == 9
  match op with
  | 0 =>
    if float then
      let terms := vs.map (fun v => F.decode v.toNat)
      BitVec.ofNat 64 (sumRound F .rne false true terms).code
    else BitVec.ofNat 64 ((vs.foldl (fun acc v => acc + v.toNat) 0) % 2 ^ w)
  | 1 =>
    if float then BitVec.ofNat 64 (vs.foldl (fun acc v => (minMaxNum F false (F.decode acc) (F.decode v.toNat)).code) F.nan)
    else vs.foldl (fun acc v => if val v < val acc then v else acc) (vs.headD 0)
  | 2 =>
    if float then BitVec.ofNat 64 (vs.foldl (fun acc v => (minMaxNum F true (F.decode acc) (F.decode v.toNat)).code) F.nan)
    else vs.foldl (fun acc v => if val v > val acc then v else acc) (vs.headD 0)
  | 3 => vs.foldl (· &&& ·) (vs.headD 0)
  | 4 => vs.foldl (· ||| ·) 0
  | _ => vs.foldl (· ^^^ ·) 0

/-- What a participant's destination receives, by the index of the instruction in class 0x7. -/
def collResult (c : Collective) (p : Participant) : List (Nat × Word) × List (Nat × Bool) :=
  match c.instr with
  | 0 => (valueRegs (Forms.wide c.ty) p.d (shflValue c p), [])
  | 1 => if c.m.toNat % 4 = 3 then ([(p.d, lanesWhere c (·.x))], []) else ([], [(p.d, votePred c)])
  | 2 => (valueRegs (Forms.wide c.ty) p.d (wredValue c.ty (c.m.toNat % 8) (c.arrived.map (·.v))), [])
  | 3 => ([(p.d, lanesWhere c (fun q => q.v == p.v))], [])
  | 4 => ([], [(p.d, c.arrived.all (fun q => decide (p.lane ≤ q.lane)))])
  | _ => ([], [])

/-- Cycles from completion to a ready result (R136). -/
def collLatency (c : Collective) : Nat := if c.instr = 2 then (if c.ty = 9 then 12 else 8) else 4

/-- The instance completes (R137): every participant's result is tracked and it is ready in the next cycle, all with equal ages; one with a
stall count above 1 is still stalled (log 69, DESIGN CHOICE). -/
def completeColl (core slot : Nat) (c : Collective) (s : State) : State :=
  let s := progressWarp core slot s
  c.arrived.foldl (fun s p =>
    let r : TRef := ⟨core, slot, p.lane⟩
    let (rs, ps) := collResult c p
    let (id, s) := s.fresh
    let s := s.modThread r (fun t => { t.finish (s.clock + 1) with age := s.clock + 1 })
    if rs.isEmpty && ps.isEmpty then s
    else s.track r { id := id, due := s.clock + collLatency c, known := true, timed := true, regs := rs, preds := ps }) s

/-- Completes the open instances whose every expected thread has arrived (R137); one that a KILLW has left with nobody, arrived
or expected, ceases to exist (R140). -/
def settleColls (core slot : Nat) (s : State) : State :=
  let live := laneMask (s.threadsOfWarp core slot)
  let full (c : Collective) : Bool := c.mask &&& live &&& ~~~ (lanesWhere c (fun _ => true)) == 0
  let w := s.warp core slot
  let done := w.colls.filter full
  let s := s.modWarp core slot (fun w => { w with colls := w.colls.filter (fun c => !(full c)) })
  done.foldl (fun s c => completeColl core slot c s) s

/-- The end of a cycle for a warp: releases and completions of its threads (R128, R130, R137). -/
def settleWarp (core slot : Nat) (s : State) : State := settleColls core slot (settleRejoin core slot s)
/-- The end of a cycle for every warp. -/
def settleWarps (s : State) : State := s.warps.foldl (fun s w => settleWarp w.core w.slot s) s

/-! ## Households (R369) -/

def Household.stateOf (h : Household) (g : Nat) : Attach := h.att.getD g .unattached
/-- A core's copy of the household table. -/
def Household.copy (h : Household) (core : Nat) : List Attach := (assoc core h.copies).getD (List.replicate h.ngang .unattached)
def Household.copyOf (h : Household) (core g : Nat) : Attach := (h.copy core).getD g .unattached
def Household.setCopy (core g : Nat) (a : Attach) (h : Household) : Household :=
  { h with copies := setAssoc core ((h.copy core).set g a) h.copies }
def Attach.gone : Attach → Bool | .detaching => true | .detached => true | _ => false

/-- The cores that hold a block of the household, or of one of its gangs. -/
def State.coresOfGang (s : State) (g : Nat) : List Nat := (s.blocks.filter (fun b => b.gang == g)).map (·.core)
def State.gangsOfHh (s : State) (h : Nat) : List Gang := s.gangs.filter (fun g => g.hh == h)
def State.coresOfHh (s : State) (h : Nat) : List Nat := (s.gangsOfHh h).flatMap (fun g => s.coresOfGang g.uid)

/-- Gang g becomes detaching (R370, step 1): its own cores' copies change, and a notice goes to every core. -/
def startDetach (g : Nat) (s : State) : State :=
  match s.gang? g with
  | none => s
  | some gg =>
    let own := s.coresOfGang g
    let s := s.modHh gg.hh (fun h => own.foldl (fun h c => h.setCopy c gg.rank .detaching)
      { h with att := h.att.set gg.rank .detaching })
    let s := s.postAll ((s.coresOfHh gg.hh).map (fun c => .detachNotice g c))
    s.post (.detachComplete g)

/-- Posts the ends of a household's blocks whose threads have exited, once every gang is detached (R371). -/
def postHeldEnds (h : Nat) (s : State) : State :=
  match s.hh? h with
  | none => s
  | some hh =>
    if hh.att.all (fun a => a == .detached) then
      let bs := s.blocks.filter (fun b => b.state != 1 && (s.threadsOfBlock b.uid).isEmpty &&
        (s.gangsOfHh h).any (fun g => g.uid == b.gang))
      s.postAll (bs.map (fun b => .blockEnd b.uid))
    else s

/-- The last thread of a gang has exited (R371): one that attached begins to detach, one that never did is detached. -/
def gangEmptied (g : Nat) (s : State) : State :=
  match s.gang? g with
  | none => s
  | some gg =>
    if s.blocks.any (fun b => b.gang == g && (b.state == 1 || !(s.threadsOfBlock b.uid).isEmpty)) then s
    else match s.hh? gg.hh with
    | none => s
    | some h =>
      match h.stateOf gg.rank with
      | .attached => startDetach g s
      | .unattached =>
        let cs := s.coresOfHh gg.hh
        let s := s.modHh gg.hh (fun h => cs.foldl (fun h c => h.setCopy c gg.rank .detached)
          { h with att := h.att.set gg.rank .detached })
        (postHeldEnds gg.hh s).postAll ((s.sch.colls.filter (fun i => i.hh == gg.hh)).map (fun i => .collCompute i.id))
      | _ => s

/-! ## Barriers (R147, R148) -/

/-- Whether a thread counts at the barrier of a level (0 block, 1 gang, 2 household) with owner `own`. -/
def State.atLevel (s : State) (level own : Nat) (th : Thread) : Bool :=
  match level with
  | 0 => th.block == own
  | 1 => s.inGang own th
  | _ => s.inHh own th

/-- Whether a block of the level is bound and not yet dispatched: its threads are expected at the level's barriers (R147). -/
def State.undispatched (s : State) (level own : Nat) : Bool :=
  s.blocks.any (fun b => b.state == 1 && (match level with
    | 0 => b.uid == own
    | 1 => b.gang == own
    | _ => (s.gangsOfHh own).any (fun g => g.uid == b.gang)))

/-- Completes barrier `id` if every expected thread has arrived (R147), those of blocks that have not started included, and those of
gangs on other modules taken to have arrived (log 17, DESIGN CHOICE); a household barrier does not complete once a gang is detaching (R149). -/
def checkBarrier (level own id : Nat) (s : State) : State :=
  let exp := s.threads.filter (s.atLevel level own)
  let gone := level == 2 && (match s.hh? own with | some h => h.att.any Attach.gone | none => false)
  if exp.isEmpty || gone || s.undispatched level own || !(exp.all (fun t => t.status == .barrier level id)) then s
  else
    let refs := exp.map (·.ref)
    let s := exp.foldl (fun s t => s.progressOf t) s
    if level = 0 then
      { s with threads := s.threads.map (fun t => if refs.contains t.ref then t.finish (s.clock + 1) else t) }
    else
      let s := { s with threads := s.threads.map (fun (t : Thread) => if refs.contains t.ref then { t with status := .released } else t) }
      s.postAll (refs.map (fun r => .barrierRelease r))

/-- The barriers of its levels that a thread's exit may complete. -/
def checkBarriersOf (th : Thread) (s : State) : State :=
  let s := (List.range 16).foldl (fun s i => checkBarrier 0 th.block i s) s
  match s.gangOf th with
  | none => s
  | some g =>
    let s := (List.range 8).foldl (fun s i => checkBarrier 1 g.uid i s) s
    (List.range 4).foldl (fun s i => checkBarrier 2 g.hh i s) s

/-! ## The exit of a thread (R116, R321) -/

/-- An arrival is for a warp (R181). -/
def State.namesWarp (s : State) (w : Warp) (x : Send) : Bool :=
  match s.block? w.block with
  | some b => x.gang == b.gang && x.block == b.rank && x.warp == w.widx
  | none => false

/-- The last thread of a warp has exited: its key file is discarded with the marks of its armed slots (R183; log 97, DESIGN CHOICE) and the arrivals for it
(R181), and its free slot may let an item be admitted (R124, R257). -/
def dropWarp (core slot : Nat) (s : State) : State :=
  let s := if slot ≥ 64 then s else wakeAdmission (core / 256) s
  let marks := (s.warp core slot).keys.filterMap (fun (k : KeyState) => match k.arrival with | .armed m _ => some m | _ => none)
  let ended := (s.sends.filter (s.namesWarp (s.warp core slot))).map (·.id)
  { s with warps := s.warps.filter (fun w => !(Warp.at core slot w)), ops := s.ops.filter (fun o => !(marks.contains o.id)),
           sends := s.sends.filter (fun x => !(ended.contains x.id)), arrivals := s.arrivals.filter (fun i => !(ended.contains i)) }

/-- A thread ends: its lane counts as exited everywhere; the slot is freed with the warp's last thread, and the block may
end (R116, R123, R261). Barriers that this completes do so before its gang begins to detach (log 70, DESIGN CHOICE). -/
def exitThread (r : TRef) (s : State) : State :=
  match s.thread? r with
  | none => s
  | some th =>
    let bit : Word := BitVec.ofNat 32 (2 ^ r.lane)
    let s := { s with threads := s.threads.filter (fun t => decide (t.ref ≠ r)) }
    let s := th.dropOwn s
    let s := s.modWarp r.core r.slot (fun w => { w with left := w.left ||| bit, colls := w.colls.map (fun (c : Collective) =>
      { c with arrived := c.arrived.filter (fun p => p.lane != r.lane) }) })
    let s := s.progressOf th
    let s := if (s.threadsOfWarp r.core r.slot).isEmpty then dropWarp r.core r.slot s else s
    let s := checkBarriersOf th s
    match s.block? th.block with
    | none => s
    | some b =>
      if (s.threadsOfBlock b.uid).isEmpty then gangEmptied b.gang (s.post (.blockEnd b.uid)) else s

/-- The blocks of a gang that are bound and have not started end without starting (R324, R326). -/
def endUnstarted (g : Nat) (s : State) : State :=
  let us := s.blocks.filter (fun b => b.gang == g && b.state == 1)
  if us.isEmpty then s
  else
    let s := { s with blocks := s.blocks.map (fun (b : Block) => if b.gang = g ∧ b.state = 1 then { b with state := 3 } else b) }
    gangEmptied g (s.postAll (us.map (fun b => .blockEnd b.uid)))

/-- A reservation is withdrawn: its resources are free, and its request is an item again (R258, step 4). Gangs that are to resume stay
saved. -/
def withdraw (y : Item) (s : State) : State :=
  let s : State := { s with
    blocks := s.blocks.filter (fun b => !(y.reserved.contains b.gang)),
    gangs := if y.resume.isEmpty then s.gangs.filter (fun g => !(y.reserved.contains g.uid)) else s.gangs }
  s.setItem { y with reserved := [] }

/-- A gang that has been bound again and is not yet restored ends: what was saved of it is dropped. -/
def dropSaved (g : Nat) (s : State) : State :=
  match s.gang? g with
  | some x =>
    if x.phase = .resuming then
      ({ s with ops := s.ops.filter (fun o => o.gang != g), sch := { s.sch with saved := s.sch.saved.filter (fun y => y.gang != g) } } : State).modGang g
        (fun x => { x with phase := .running })
    else s
  | none => s

/-- Ends a gang (R324): every thread of it on every core ends in one step, in which none of its cores issues, blocks that have not
started never do, the gang counts as failed, and a household gang detaches (log 54, DEDUCED). -/
def endGang (g : Nat) (s : State) : State :=
  let s := (dropSaved g s).modGang g (fun x => { x with failed := true })
  let refs := (s.threads.filter (s.inGang g)).map (·.ref)
  endUnstarted g (refs.foldl (fun s r => exitThread r s) s)

end Sys2Proof.Machine
end

