-- ==== Sys2Proof/Machine/Ops.lean ====
section
/-! DEFINITION. Shared operations of every word row: taking a trap and the machine check (R313, R326), the gate that an
issue passes (R55), retiring, barrier objects (R238, R239), and the release of threads that wait for keys. -/

namespace Sys2Proof.Machine

/-! ## Machine checks and traps -/

/-- The core of a machine check stays stopped and its gangs end (R326); what is only reserved on it, and has no bind record, is withdrawn (R258). -/
def stopChecked (c : Nat) (s : State) : State :=
  let s := s.modCore c (fun x => { x with stopped := some (x.stopped.getD s.clock), mcheck := true })
  let s := s.count 8 0 0
  let s := { s with threads := s.threads.filter (fun t => !(t.ref.core == c && t.ref.slot == 64)) }
  let held := (s.blocks.filter (fun b => b.core == c && b.hold)).map (·.gang)
  let s := (s.sch.items.filter (fun y => y.reserved.any held.contains)).foldl (fun s y => withdraw y s) s
  let gs := ((s.blocks.filter (fun b => b.core == c)).map (·.gang)).eraseDups
  gs.foldl (fun s g => endGang g s) s

/-- A machine check (R326): the core's self-test follows, with a result that the spec leaves to the core (log 44, DESIGN CHOICE). -/
def machineCheck (c : Nat) (s : State) : State :=
  let (n, s) := s.choice
  (stopChecked c s).post (.coreSelfTest c (Config.selfTest n c))

/-- What a trap records (R312, R315): its cause, the faulted engine operation consumed, the exceptions of an FP_TRAP. -/
structure TrapInfo where
  cause : Cause
  rcd : DWord
  eng : Nat
  fp : Word
  deriving DecidableEq, Repr

def TrapInfo.of (c : Cause) : TrapInfo := ⟨c, 0, 0, 0⟩
def TrapInfo.ofKey (x : Cause × DWord × Nat) : TrapInfo := ⟨x.1, x.2.1, x.2.2, 0⟩

/-- Where a thread stands among those that trap in one cycle: the lowest picker, then slot, then lane is recorded (R313). -/
def trapOrder (slot lane : Nat) : Nat := slot % 4 * 4096 + slot * 32 + lane

/-- The core's record of a trap of thread `th` (R312, R313, R315). -/
def recordTrap (th : Thread) (i : TrapInfo) (k : Core) : Core :=
  { k with
    trapcause := BitVec.ofNat 32 (causeCode i.cause), trapwarp := BitVec.ofNat 32 (64 * th.ref.lane + th.ref.slot),
    recCause := BitVec.ofNat 32 (causeCode i.cause), recWarp := BitVec.ofNat 32 (64 * th.ref.lane + th.ref.slot),
    trappc := th.pc, engrec := i.rcd, engop := i.eng,
    fpcause := if i.cause = Cause.fpTrap then i.fp else k.fpcause }

/-- The thread has trapped: it will issue its instruction again, no sooner than in cycle `at_`. One that was ready keeps its age (R320). -/
def Thread.stopped (at_ : Nat) (th : Thread) : Thread :=
  if th.status = .ready then { th with readyAt := Nat.max th.readyAt at_, edited := false, cleared := none }
  else { th.replay at_ with cleared := none }

/-- Taking a trap (R25, R313): the thread has done nothing, its operation does not exist (R228), and it will issue its instruction again; the core stops and
records the cause, the program counter and the thread, and its trap warp starts. Of several traps of one cycle the first
by `trapOrder` is recorded; a later one is not. A trap of the trap warp itself is a machine check (R314, R326). -/
def raiseTrap (r : TRef) (i : TrapInfo) (s : State) : State :=
  match s.thread? r with
  | none => s
  | some th =>
    let s := (th.dropOwn s).modThread r (Thread.stopped (s.clock + 1))
    let s := if s.issue.cur = r then { s with issue := { s.issue with paired := false } } else s
    if r.slot = 64 then machineCheck r.core s
    else
      let k := s.core r.core
      match k.stopped with
      | some c =>
        if c = s.clock ∧ !k.halted ∧ trapOrder r.slot r.lane < trapOrder (k.recWarp.toNat % 64) (k.recWarp.toNat / 64)
        then s.modCore r.core (recordTrap th i) else s
      | none => (s.modCore r.core (fun k => { recordTrap th i k with stopped := some s.clock })).post (.trapWarpStart r.core)

/-- The end of a handler that resumes the core (R320): the trap warp's thread ends and the pickers issue again. -/
def resumeCore (c : Nat) (s : State) : State :=
  let s := { s with threads := s.threads.filter (fun t => !(t.ref.core == c && t.ref.slot == 64)),
                    warps := s.warps.filter (fun w => !(Warp.at c 64 w)) }
  s.modCore c (fun k => { k with stopped := none, halted := false })

/-! ## Barrier objects (R238, R239) -/

def obExp (v : Nat) : Nat := v / 2 ^ 112 % 2 ^ 16
def obCur (v : Nat) : Nat := v / 2 ^ 96 % 2 ^ 16
def obPhase (v : Nat) : Bool := v.testBit 64
def obPend (v : Nat) : Nat := v % 2 ^ 48
/-- An object with new fields; its reserved bits stay as written. -/
def obMake (v e cur : Nat) (ph : Bool) (pend : Nat) : Nat :=
  e % 2 ^ 16 * 2 ^ 112 + cur % 2 ^ 16 * 2 ^ 96 + v / 2 ^ 65 % 2 ^ 31 * 2 ^ 65 + ph.toNat * 2 ^ 64
    + v / 2 ^ 48 % 2 ^ 16 * 2 ^ 48 + pend % 2 ^ 48

/-- The updates of R239; `take` is a delivery. -/
inductive ObUpdate where
  | init (e : Nat)
  | charge (n : Nat)
  | release (n : Nat)
  | arrive
  | holdArrive (n : Nat)
  | take (n : Nat)
  deriving DecidableEq, Repr

/-- The object after the update and before the phase test; none where the unit refuses it. -/
def obStep (u : ObUpdate) (v : Nat) : Option Nat :=
  match u with
  | .init e => some (obMake v e 0 false 0)
  | .charge n => some (obMake v (obExp v) (obCur v) (obPhase v) (obPend v + n))
  | .release n => if n > obPend v then none else some (obMake v (obExp v) (obCur v) (obPhase v) (obPend v - n))
  | .arrive => if obCur v = obExp v then none else some (obMake v (obExp v) (obCur v + 1) (obPhase v) (obPend v))
  | .holdArrive n =>
    if obCur v = obExp v then none else some (obMake v (obExp v) (obCur v + 1) (obPhase v) (obPend v + n))
  | .take n => some (obMake v (obExp v) (obCur v) (obPhase v) (obPend v + 2 ^ 48 - n % 2 ^ 48))

/-- Whether the phase is complete (R239). -/
def obComplete (v : Nat) : Bool := obCur v == obExp v && obPend v == 0

/-- One indivisible update with its phase test (R239). -/
def obUpdate (u : ObUpdate) (v : Nat) : Option Nat :=
  (obStep u v).map (fun v => if obComplete v then obMake v (obExp v) 0 (!(obPhase v)) (obPend v) else v)

/-- Releases the OBWAITs on the object at `loc` whose parity differs from its phase (R239, R279). -/
def releaseObWaiters (loc : Nat) (ph : Bool) (s : State) : State :=
  s.threads.foldl (fun s t =>
    match t.status with
    | .obwait l par id =>
      if l = loc ∧ par ≠ ph then
        (s.performAt id 6).modThread t.ref (Thread.finish (s.clock + 1)) |>.progressOf t
      else s
    | _ => s) s

/-- Updates the object at a scratchpad location; none where the unit refuses. -/
def objectUpdate (loc : Nat) (u : ObUpdate) (s : State) : Option State :=
  let old := s.readLe loc 16
  match obUpdate u old with
  | none => none
  | some v =>
    let s := s.writeBytes loc (bytesOf 16 v)
    some (if obPhase v != obPhase old then releaseObWaiters loc (obPhase v) s else s)

/-! ## Threads that wait for keys -/

/-- The scope of a `.rel` barrier by level (R147). -/
def relScope (level : Nat) : Nat := match level with | 0 => 0 | 1 => 1 | _ => 4

/-- The owner of the barriers of a level for a thread. -/
def State.ownerAt (s : State) (level : Nat) (th : Thread) : Nat :=
  match level with
  | 0 => th.block
  | 1 => match s.gangOf th with | some g => g.uid | none => 0
  | _ => match s.gangOf th with | some g => g.hh | none => 0

/-- A thread arrives at a barrier (R147). -/
def arriveBarrier (th : Thread) (level id : Nat) (s : State) : State :=
  checkBarrier level (s.ownerAt level th) id (s.modThread th.ref (fun t => { t with status := .barrier level id }))

/-- Examines the wait of one thread: KWAIT, a `.rel` barrier, an instruction held for its consume key
(R147, R173, R220). -/
def settleThread (r : TRef) (s : State) : State :=
  match s.thread? r with
  | none => s
  | some th =>
    let w := s.warpOf th
    match th.status with
    | .kwait k sc ws =>
      match w.faultOf k with
      | some x => raiseTrap r (TrapInfo.ofKey x) s
      | none =>
        if s.allPerformed ws sc then (s.modThread r (Thread.finish (s.clock + 1))).progressOf th else s
    | .barrierKeys lv id ws =>
      match w.faultOf 15 with
      | some x => raiseTrap r (TrapInfo.ofKey x) s
      | none =>
        if s.allPerformed ws (relScope lv) then arriveBarrier th lv id s else s
    | .keyed sc ws id =>
      if s.allPerformed ws sc then
        let s := if th.edited then s.dropProducer id else s
        (s.modThread r (fun t => { t.replay (s.clock + 1) with cleared := if t.edited then none else some (t.pc, id) })).progressOf th
      else s
    | _ => s

/-- Examines every waiting thread; made whenever an operation performs or a key changes. -/
def settle (s : State) : State := s.threads.foldl (fun s t => settleThread t.ref s) s

/-! ## Issue (R16, R18, R20, R55) -/

/-- What an instruction's own effect comes to: done; done with a transfer; the thread waits at the instruction, which has
issued; the thread is not ready for it and issues it again; a trap. -/
inductive Res where
  | ok (s : State)
  | jump (s : State) (pc : DWord)
  | wait (s : State)
  | hold (s : State)
  | trap (i : TrapInfo)

/-- The thread that executes an instruction, as its operands are read: the state, the free choice of this issue, the
fields and the opcode. -/
structure Ctx where
  s : State
  th : Thread
  n : Nat
  f : Fields
  op : Nat

/-- The predicates that W2P writes (R95). -/
def w2pWrites (f : Fields) (th : Thread) : List Nat :=
  let mask : Word := if Forms.m4 f then f.imm else if f.b = 255 then 0 else th.w.getD f.b.toNat 0
  (List.range 7).filter (fun k => mask.getLsbD k)

/-- The registers (0–254), predicates (256 + k) and uniform registers (512 + k) that a word reads, guard included. -/
def touchedReads (op : Nat) (f : Fields) : List Nat :=
  Forms.readRegs op f ++ (Forms.readPreds op f).map (256 + ·) ++ (Forms.readUnis op f).map (512 + ·)
    ++ (if f.guard = 7 then [] else [256 + f.guard.toNat])

/-- Those that it writes. -/
def touchedWrites (op : Nat) (f : Fields) (th : Thread) : List Nat :=
  Forms.writeRegs op f ++ (if op = 0x086 then w2pWrites f th else Forms.writePreds op f).map (256 + ·)
    ++ (Forms.writeUnis op f).map (512 + ·)

/-- R20: the word reads or overwrites a fixed-latency result that is not yet ready. -/
def tooEarly (op : Nat) (f : Fields) (clock : Nat) (th : Thread) : Bool :=
  (touchedReads op f ++ touchedWrites op f th).any (fun r => (th.early? clock r).isSome)

/-- Whether a tracked result of the thread is pending on a register or predicate (R19). -/
def Thread.trackedOn (th : Thread) (r : Nat) : Bool :=
  th.tracked.any (fun x => x.regs.any (fun q => q.1 == r) || x.preds.any (fun q => 256 + q.1 == r))

/-- R19: the word reads or overwrites a tracked result that is not yet written (log 25, DEDUCED). -/
def awaitsTracked (op : Nat) (f : Fields) (th : Thread) : Bool :=
  (touchedReads op f ++ touchedWrites op f th).any th.trackedOn

/-- The first faulted register among those that a word reads (R201). -/
def faultedRead (op : Nat) (f : Fields) (th : Thread) : Option Cause :=
  (Forms.readRegs op f ++ (Forms.readUnis op f).map (512 + ·)).findSome? (fun r => assoc r th.marks)

/-- The value of the guard (R16). -/
def guardOn (f : Fields) (clock n : Nat) (th : Thread) : Bool := th.readP clock n 4 f.guard.toNat != f.neg

/-- The outcome of the checks before an instruction's own effect. -/
inductive Gate where
  | go
  | skip
  | hold
  | trap (c : Cause)
  deriving DecidableEq, Repr

/-- The checks of R55 in their order; `pre` and `bad` are those of a REP (R50) (log 24, DEDUCED). -/
def gate (op : Nat) (f : Fields) (pre : Option Cause) (bad : Bool) (s : State) (th : Thread) : Gate :=
  if (s.warpOf th).poisoned then .trap .poison
  else if (s.core th.ref.core).check.getLsbD 0 && tooEarly op f s.clock th then .trap .stallShort
  else match pre with
  | some c => .trap c
  | none =>
    if op / 64 == 14 && th.ref.slot != 64 then .trap .privileged
    else if !(Forms.wordOk op f) || !(Forms.wordAllocOk op f th.alloc) || bad then .trap .illegalOperand
    else if !(Forms.keyOk op f) then .trap .keyMisuse
    else if f.guard != 7 && th.trackedOn (256 + f.guard.toNat) then .hold
    else if !(guardOn f s.clock s.free th) then .skip
    else match faultedRead op f th with
    | some c => .trap c
    | none => if awaitsTracked op f th then .hold else .go

/-- The stall count of an instruction that has issued (R18). -/
def Thread.stalled (clock : Nat) (f : Fields) (th : Thread) : Thread :=
  let at_ := clock + Nat.max 1 f.stall.toNat
  { th with readyAt := at_, age := at_, yielded := false, cleared := none, edited := false }

/-- The thread goes on to its next instruction, or repetition. -/
def retire (r : TRef) (f : Fields) (s : State) : State :=
  { s.modThread r (fun t => t.advance.stalled s.clock f) with issue := { s.issue with retired := s.issue.retired ++ [r] } }
/-- The thread goes on at `pc`. -/
def transfer (r : TRef) (f : Fields) (pc : DWord) (s : State) : State :=
  s.modThread r (fun t => { t with pc := pc }.stalled s.clock f)
/-- The thread waits at its instruction, which has issued. Once its wait ends it still serves the rest of its stall count (R18; log 69,
DESIGN CHOICE, for the waits whose end R137 and R148 put in the next cycle). -/
def parked (r : TRef) (f : Fields) (s : State) : State := s.modThread r (fun t => t.stalled s.clock f)

/-- The thread is not ready for its instruction, which it issues again (R125, R163, R177, R269): the cycle in which it becomes ready
is a later one. -/
def notReady (r : TRef) (s : State) : State :=
  { s.modThread r (fun t => { t with readyAt := Nat.max t.readyAt (s.clock + 1), age := Nat.max t.readyAt (s.clock + 1) }) with
    issue := { s.issue with held := s.issue.held ++ [r] } }

/-- Issues a word for the thread of the issue record: the gate, the effect, the retirement. -/
def issueWith (op : Nat) (f : Fields) (pre : Option Cause) (bad : Bool) (s : State) (body : Ctx → Res) : State :=
  match s.thread? s.issue.cur with
  | none => s
  | some th =>
    let r := th.ref
    let s1 := { s with free := s.free + 1 }
    match gate op f pre bad s th with
    | .trap c => raiseTrap r (TrapInfo.of c) s1
    | .hold => notReady r s1
    | .skip => retire r f (th.dropOwn s1)
    | .go =>
      match body { s := s1, th := th, n := s.free, f := f, op := op } with
      | .ok s => retire r f s
      | .jump s pc => transfer r f pc s
      | .wait s => parked r f s
      | .hold s => notReady r s
      | .trap i => raiseTrap r i s1

/-- The issue of a word row: always a next state. -/
def issueOp (op : Nat) (f : Fields) (s : State) (body : Ctx → Res) : Host.Outcome State Fault Refusal :=
  .next (issueWith op f none false s body)

end Sys2Proof.Machine
end

