-- ==== Sys2Proof/Machine/Operands.lean ====
section
/-! DEFINITION. Reading the operands of a word (R43, R75) and writing its results (R19). -/

namespace Sys2Proof.Machine

/-- A value of one register as a 64-bit value. -/
def ofWord (v : Word) : DWord := v.zeroExtend 64

/-- Registers, pairs and predicates as operand number `pos` (0 a, 1 b, 2 c, 3 d) reads them. -/
def Ctx.reg (c : Ctx) (pos r : Nat) : Word := c.th.readW c.s.clock c.n pos r
def Ctx.pair (c : Ctx) (pos r : Nat) : DWord := c.th.readPair c.s.clock c.n pos r
def Ctx.pred (c : Ctx) (pos k : Nat) : Bool := c.th.readP c.s.clock c.n pos k
def Ctx.warp (c : Ctx) : Warp := c.s.warpOf c.th
def Ctx.uni (c : Ctx) (pos k : Nat) : Word := c.warp.readU c.s.clock c.n pos k
def Ctx.r (c : Ctx) : TRef := c.th.ref

/-- A register or pair as a 64-bit value. -/
def Ctx.regv (c : Ctx) (pos : Nat) (wide : Bool) (r : Nat) : DWord := if wide then c.pair pos r else ofWord (c.reg pos r)
/-- A uniform register or pair as a 64-bit value. -/
def Ctx.univ (c : Ctx) (pos : Nat) (wide : Bool) (k : Nat) : DWord :=
  if wide then c.uni pos (k + 1) ++ c.uni pos k else ofWord (c.uni pos k)

/-- va: operand a, or the uniform register or pair under m[3] (R43). -/
def Ctx.va (c : Ctx) (wide : Bool) : DWord :=
  if Forms.m3 c.f then c.univ 0 wide c.f.a.toNat else c.regv 0 wide c.f.a.toNat

/-- imm32 as operand b of a type (R43). -/
def immValue (f : Fields) (wide : Bool) : DWord :=
  if wide then
    match Forms.ts f with
    | 2 => f.imm.signExtend 64
    | 9 => f.imm ++ (0 : Word)
    | _ => f.imm.zeroExtend 64
  else f.imm.zeroExtend 64

/-- vb: operand b, or imm32 under m[4] (R43). -/
def Ctx.vb (c : Ctx) (wide : Bool) : DWord := if Forms.m4 c.f then immValue c.f wide else c.regv 1 wide c.f.b.toNat
/-- vc: operand c. -/
def Ctx.vc (c : Ctx) (wide : Bool) : DWord := c.regv 2 wide c.f.c.toNat

/-- n registers from r up, as operand `pos`. -/
def Ctx.group (c : Ctx) (pos r n : Nat) : List Word := (List.range n).map (fun i => c.reg pos (r + i))

/-- Whether the types of the word are 64 bits wide (R75). -/
def Ctx.w (c : Ctx) : Bool := Forms.wide (Forms.ts c.f)

/-- Writes fixed-latency results (R19). -/
def Ctx.write (c : Ctx) (regs : List (Nat × Word)) (preds : List (Nat × Bool)) : State :=
  let due := c.s.clock + (Forms.latency c.op c.f).getD 1
  c.s.modThread c.r (fun th =>
    preds.foldl (fun th q => th.writeP due q.1 q.2) (regs.foldl (fun th q => th.writeW due q.1 q.2) th))

/-- Done, with a value for destination d. -/
def Ctx.value (c : Ctx) (wide : Bool) (v : DWord) : Res := .ok (c.write (valueRegs wide c.f.d.toNat v) [])
/-- Done, with a predicate for destination d. -/
def Ctx.predicate (c : Ctx) (b : Bool) : Res := .ok (c.write [] [(c.f.d.toNat, b)])

/-- Done, with tracked results that may be written from cycle `due` on (R19) (log 15, DEDUCED). -/
def Ctx.tracked (c : Ctx) (s : State) (due : Nat) (regs : List (Nat × Word)) (preds : List (Nat × Bool)) : State :=
  let (id, s) := s.fresh
  s.track c.r { id := id, due := due, known := true, timed := false, regs := regs, preds := preds }

/-- Done, with a tracked value for destination d, of no fixed latency. -/
def Ctx.trackedValue (c : Ctx) (wide : Bool) (v : DWord) : Res :=
  .ok (c.tracked c.s (c.s.clock + 1) (valueRegs wide c.f.d.toNat v) [])

end Sys2Proof.Machine
end

