-- ==== Sys2Proof/Machine/Flags.lean ====
section
/-! DEFINITION. Every flag and condition computation: lanes, wrapping and saturation (R9, R59, R79), carries (R80),
conditions (R84), and the floating-point exceptions with their trap (R325). -/

namespace Sys2Proof.Machine

/-- The width of a lane of an integer type, and whether it is signed (R42). -/
def laneWidth (ty : Nat) : Nat :=
  match ty with
  | 0 => 32 | 1 => 32 | 2 => 64 | 3 => 64 | 4 => 16 | 5 => 16 | 6 => 8 | 7 => 8 | _ => 32
def signedTy (ty : Nat) : Bool := ty % 2 == 0
/-- The width W of an operand of a type (R75). -/
def width (ty : Nat) : Nat := if Forms.wide ty then 64 else 32

/-- The lanes of a value as natural numbers, lowest first (R59). -/
def lanesOf (ty : Nat) (v : DWord) : List Nat :=
  (List.range (width ty / laneWidth ty)).map (fun i => v.toNat / 2 ^ (laneWidth ty * i) % 2 ^ laneWidth ty)

/-- The value of lanes of width w, lowest first. -/
def joinLanes (w : Nat) : List Nat → Nat
  | [] => 0
  | x :: xs => x % 2 ^ w + 2 ^ w * joinLanes w xs

/-- The integer of a lane's bits. -/
def laneInt (ty x : Nat) : Int :=
  if signedTy ty && decide (x ≥ 2 ^ (laneWidth ty - 1)) then (x : Int) - 2 ^ laneWidth ty else x

/-- `Wrap` of R9: the low w bits. -/
def wrapInt (w : Nat) (x : Int) : Nat := (x % (2 ^ w : Nat)).toNat

/-- The least and greatest values of a lane (R9). -/
def minInt (ty : Nat) : Int := if signedTy ty then -(2 ^ (laneWidth ty - 1)) else 0
def maxInt (ty : Nat) : Int := if signedTy ty then 2 ^ (laneWidth ty - 1) - 1 else 2 ^ laneWidth ty - 1

/-- `Sat` of R9. -/
def satInt (ty : Nat) (x : Int) : Int := max (minInt ty) (min (maxInt ty) x)

/-- A lane's result, saturated or wrapped (R79). -/
def laneResult (sat : Bool) (ty : Nat) (x : Int) : Nat := wrapInt (laneWidth ty) (if sat then satInt ty x else x)

/-- An operation on each lane (R75, R79). -/
def lanes1 (ty : Nat) (sat : Bool) (f : Int → Int) (a : DWord) : DWord :=
  BitVec.ofNat 64 (joinLanes (laneWidth ty) ((lanesOf ty a).map (fun x => laneResult sat ty (f (laneInt ty x)))))
def lanes2 (ty : Nat) (sat : Bool) (f : Int → Int → Int) (a b : DWord) : DWord :=
  BitVec.ofNat 64 (joinLanes (laneWidth ty)
    (((lanesOf ty a).zip (lanesOf ty b)).map (fun x => laneResult sat ty (f (laneInt ty x.1) (laneInt ty x.2)))))
def lanes3 (ty : Nat) (sat : Bool) (f : Int → Int → Int → Int) (a b c : DWord) : DWord :=
  BitVec.ofNat 64 (joinLanes (laneWidth ty)
    (((lanesOf ty a).zip ((lanesOf ty b).zip (lanesOf ty c))).map
      (fun x => laneResult sat ty (f (laneInt ty x.1) (laneInt ty x.2.1) (laneInt ty x.2.2)))))

/-- The integer of a whole value of a scalar type. -/
def scalarInt (ty : Nat) (v : DWord) : Int := laneInt ty (v.toNat % 2 ^ laneWidth ty)

/-- ADDC: sum and carry out (R80). -/
def addCarry (a b : Nat) (cin : Bool) : Nat × Bool := ((a + b + cin.toNat) % 2 ^ 32, decide (a + b + cin.toNat ≥ 2 ^ 32))
/-- SUBB: difference and borrow out (R80). -/
def subBorrow (a b : Nat) (bin : Bool) : Nat × Bool :=
  (wrapInt 32 ((a : Int) - b - (bin.toNat : Nat)), decide ((a : Int) - b - (bin.toNat : Nat) < 0))

/-- The conditions of CMP (R84). -/
def cmpHolds (cc : Nat) (a b : Int) : Bool :=
  match cc with
  | 0 => decide (a = b)
  | 1 => decide (a ≠ b)
  | 2 => decide (a < b)
  | 3 => decide (a ≤ b)
  | 4 => decide (a > b)
  | _ => decide (a ≥ b)

/-- The enabled exceptions that an instruction signals (R325). -/
def Ctx.fpHit (c : Ctx) (e : Exc) : Word := (c.s.core c.r.core).fpen &&& e.zeroExtend 32

/-- The outcome of a float instruction that signals `e`: FP_TRAP if one of its exceptions is enabled (R325). -/
def Ctx.fpResult (c : Ctx) (e : Exc) (k : Res) : Res :=
  if c.fpHit e = 0 then k else .trap ⟨.fpTrap, 0, 0, c.fpHit e⟩

/-- All exceptions of several lanes. -/
def excAll (l : List LaneRes) : Exc := l.foldl (fun acc x => acc ||| x.exc) 0

/-- Sets ctl.fmterr (R70). -/
def setFmterr (core : Nat) (on : Bool) (s : State) : State :=
  if on then s.modCore core (fun k => { k with fmterr := 1 }) else s

end Sys2Proof.Machine
end

