-- ==== Sys2Proof/Machine/Space.lean ====
section
/-! DEFINITION. Pointers, the checks of an access at issue, homes and their tables, residency and the fault path, and the
L1 cache (R23, R152–R164, R199, R298–R304). -/

namespace Sys2Proof.Machine

/-! ## Pointers (R152) -/

inductive Ptr where
  | glob (win off : Nat)
  | own (off : Nat)
  | cluster (rank off : Nat)
  | landing (hh rank off : Nat)
  | priv (off : Nat)
  | handle (idx gen off : Nat)
  deriving DecidableEq, Repr

/-- Decodes a pointer; none where it matches no row or sets a reserved bit (R152). -/
def decodePtr (p : DWord) : Option Ptr :=
  let v := p.toNat
  let bits (h l : Nat) : Nat := v / 2 ^ l % 2 ^ (h - l + 1)
  match bits 63 60 with
  | 0 => if bits 59 57 = 0 then some (.glob (bits 56 46) (bits 45 0)) else none
  | 8 => if bits 59 19 = 0 then some (.own (bits 18 0)) else none
  | 9 => if bits 59 25 = 0 then some (.cluster (bits 24 19) (bits 18 0)) else none
  | 10 => if bits 59 29 = 0 then some (.landing (bits 28 25) (bits 24 19) (bits 18 0)) else none
  | 11 => if bits 59 40 = 0 then some (.priv (bits 39 0)) else none
  | 12 => some (.handle (bits 59 40) (bits 39 32) (bits 31 0))
  | _ => none

/-- Spaces as a set of flags, for the instructions' tables (R199, R270). -/
structure Spaces where
  glob : Bool
  own : Bool
  cluster : Bool
  landing : Bool
  priv : Bool
  handle : Bool
  deriving DecidableEq, Repr

def Spaces.all : Spaces := ⟨true, true, true, true, true, true⟩
def Spaces.mem : Spaces := ⟨true, false, false, false, false, true⟩
def Spaces.cctl : Spaces := ⟨true, false, false, false, true, true⟩
def Spaces.none : Spaces := ⟨false, false, false, false, false, false⟩
def Spaces.globOnly : Spaces := ⟨true, false, false, false, false, false⟩
/-- Own scratchpad or global: where an engine's record may lie (R270). -/
def Spaces.recordSet : Spaces := ⟨true, true, false, false, false, false⟩

def Spaces.has (x : Spaces) : Ptr → Bool
  | .glob _ _ => x.glob
  | .own _ => x.own
  | .cluster _ _ => x.cluster
  | .landing _ _ _ => x.landing
  | .priv _ => x.priv
  | .handle _ _ _ => x.handle

/-! ## Homes (R154) -/

/-- The home that a home-window entry names; none raises SPACE_FAULT (R154). -/
def homeOfEntry (device : Nat) (e : DWord) : Option Home :=
  let v := e.toNat
  let bits (h l : Nat) : Nat := v / 2 ^ l % 2 ^ (h - l + 1)
  let kind := bits 62 60
  let dev := bits 59 54
  let die := bits 53 50
  let pool := bits 49 40
  if bits 63 63 = 0 ∨ dev ≥ 60 ∨ bits 39 0 ≠ 0 then none
  else match kind with
  | 0 => if die ≤ 11 ∧ pool = 0 then some (.hall dev die) else none
  | 1 => if die ≤ 5 ∧ pool = 0 then some (.cellar dev die) else none
  | 2 => if die = 0 ∧ pool = 0 ∧ dev = device then some .host else none
  | 3 => if die = 0 then some (.pool dev pool) else none
  | _ => none

def State.windowEntry (s : State) (ctx win : Nat) : DWord := (assoc (ctx, win) s.tabs.windows).getD 0

/-- The home of a global address of a context; none outside global space, which a program counter or a buffer's base and offset can
leave (R13; log 76, DESIGN CHOICE). -/
def State.homeOf (s : State) (ctx : Nat) (g : DWord) : Option Home :=
  if g.toNat ≥ 2 ^ 57 then none else homeOfEntry s.device (s.windowEntry ctx (g.toNat / 2 ^ 46 % 2 ^ 11))

/-- The entry that Serril reserves for a context's private space (R301) stands behind the 2,048 of its programs; one that Serril has not
written names hall die 0 (log 8, DESIGN CHOICE). -/
def privWindow : Nat := 2048
def State.privHome (s : State) (ctx : Nat) : Option Home :=
  if s.windowEntry ctx privWindow = 0 then some (.hall s.device 0) else homeOfEntry s.device (s.windowEntry ctx privWindow)

/-! ## Buffer handles (R158, R159) -/

structure BufEntry where
  valid : Bool
  read : Bool
  write : Bool
  atomic : Bool
  ctx : Nat
  gen : Nat
  len : Nat
  base : Nat
  ilv : Nat
  chan0 : Nat
  deriving DecidableEq, Repr

def bufEntry (e : BitVec 128) : BufEntry :=
  let v := e.toNat
  let bits (h l : Nat) : Nat := v / 2 ^ l % 2 ^ (h - l + 1)
  { valid := v.testBit 127, read := v.testBit 126, write := v.testBit 125, atomic := v.testBit 124, ctx := bits 123 112,
    gen := bits 111 104, len := bits 80 49, base := bits 48 0 * 256, ilv := bits 103 100, chan0 := bits 99 92 }

/-- The channel on which a home's own placement lays a byte of its frame space: granules of 1 KiB in turn (R337). -/
def homeChannel (loc : Nat) : Option Nat :=
  let g := loc % 2 ^ 64 / 1024
  match loc / 2 ^ 64 % 8 with
  | 0 => some (g % Config.channels)
  | 1 => some (g % Config.cellarChannels)
  | _ => none

/-- The channel of the home on which a buffer's interleaving places a byte of it (R158). -/
def BufEntry.channel (e : BufEntry) (off : Nat) : Option Nat :=
  if e.ilv = 0 then none else some ((e.chan0 + off / 2 ^ (e.ilv + 7)) % Config.channels)

def State.buffer (s : State) (ctx idx : Nat) : BufEntry := bufEntry ((assoc (ctx, idx) s.tabs.bufs).getD 0)

/-- The right that an access needs of a handle: read, write or atomic (R159). -/
inductive Need where
  | read | write | atomic
  deriving DecidableEq, Repr

/-- R159: the global address of a handle access, or the cause of the first failing check. -/
def State.checkHandle (s : State) (ctx idx gen off n : Nat) (need : Need) : Except Cause DWord :=
  if idx ≥ (assoc ctx s.tabs.bufLen).getD 0 then .error .bufferBounds
  else
    let e := s.buffer ctx idx
    if !e.valid || e.gen != gen then .error .bufferStale
    else if e.ctx ≠ ctx then .error .bufferRights
    else if off + n > e.len then .error .bufferBounds
    else if !(match need with | .read => e.read | .write => e.write | .atomic => e.atomic) then .error .bufferRights
    else .ok (BitVec.ofNat 64 (e.base + off))

/-! ## The checks at issue (R199, steps 2–5) -/

/-- Where an access that passed its checks goes. -/
inductive Target where
  /-- Scratchpad of a core, at a location; a peer gang's through the Landing. -/
  | scratch (core loc : Nat) (peer : Bool)
  /-- Scratchpad of a peer gang's block on another module. -/
  | remote (dev : Nat)
  | glob (g : DWord)
  | priv (off : Nat)
  deriving DecidableEq, Repr

/-- The block of a rank in a gang. -/
def State.blockOfRank (s : State) (gang rank : Nat) : Option Block :=
  s.blocks.find? (fun b => b.gang == gang && b.rank == rank)

/-- A scratchpad access of n bytes in a block's allocation (R161). A block that has ended has no allocation, and the access raises
SPACE_FAULT (log 77, DESIGN CHOICE). -/
def inScratch (b : Option Block) (off n : Nat) (peer : Bool) : Except Cause Target :=
  match b with
  | some b => if off + n ≤ b.spSize then .ok (.scratch b.core (scratchBase b.core + b.spBase + off) peer) else .error .spaceFault
  | none => .error .spaceFault

def State.ctxConfig (s : State) (ctx : Nat) : CtxConfig :=
  (assoc ctx s.tabs.ctxs).getD { privSize := 4096, checkAll := false, fpen := 0, wdInterval := Config.watchdogDefault }

/-- A Landing access to a gang that runs on another module, of which this model holds no scratchpad (R162; log 17, DESIGN CHOICE): its
bounds are those of the thread's own gang, since one card shapes both. -/
def remoteTarget (th : Option Block) (g : Gang) (dev rank off n : Nat) : Except Cause Target :=
  match th with
  | some b => if rank < g.nblock ∧ off + n ≤ b.spSize then .ok (.remote dev) else .error .spaceFault
  | none => .error .spaceFault

/-- Where a Landing access to gang hh goes (R162): to one's own gang, or to a peer. -/
def State.landingPlace (s : State) (th : Thread) (hh rank off n : Nat) : Except Cause Target :=
  match s.gangOf th, s.hhOf th with
  | some g, some h =>
    if hh = g.rank then inScratch (s.blockOfRank g.uid rank) off n false
    else match (s.gangsOfHh h.uid).find? (fun x => x.rank == hh) with
      | some p => inScratch (s.blockOfRank p.uid rank) off n true
      | none => remoteTarget (s.blockOf th) g (h.modules.getD hh 0) rank off n
  | _, _ => .error .spaceFault

/-- A Landing access to gang hh (R162, R369): a peer's household must be attached. -/
def State.landingTarget (s : State) (th : Thread) (hh rank off n : Nat) : Except Cause Target :=
  match s.gangOf th, s.hhOf th with
  | some g, some h =>
    if hh = g.rank then s.landingPlace th hh rank off n
    else if hh ≥ h.ngang then .error .spaceFault
    else if h.copyOf th.ref.core g.rank ≠ .attached ∨ h.copyOf th.ref.core hh ≠ .attached then .error .hhDeparted
    else s.landingPlace th hh rank off n
  | _, _ => .error .spaceFault

/-- Steps 2–5 of R199 for an access of n bytes, aligned to `al`, in the spaces accepted. -/
def State.checkAccess (s : State) (th : Thread) (ok : Spaces) (need : Need) (p : DWord) (n al : Nat) : Except Cause Target :=
  let ctx := s.ctxOf th
  match decodePtr p with
  | none => .error .spaceFault
  | some q =>
    if !(ok.has q) then .error .spaceFault
    else
      let aligned : Bool := p.toNat % al == 0
      match q with
      | .glob _ _ =>
        if (s.homeOf ctx p).isNone then .error .spaceFault
        else if !aligned then .error .misaligned
        else .ok (.glob p)
      | .handle idx gen off =>
        match s.checkHandle ctx idx gen off n need with
        | .error c => .error c
        | .ok g =>
          if (s.homeOf ctx g).isNone then .error .spaceFault
          else if !aligned then .error .misaligned
          else .ok (.glob g)
      | .own off => if !aligned then .error .misaligned else inScratch (s.blockOf th) off n false
      | .cluster rank off =>
        if !aligned then .error .misaligned
        else match s.gangOf th with
          | some g => inScratch (s.blockOfRank g.uid rank) off n false
          | none => .error .spaceFault
      | .landing hh rank off => if !aligned then .error .misaligned else s.landingTarget th hh rank off n
      | .priv off =>
        if !aligned then .error .misaligned
        else if off + n > (s.ctxConfig ctx).privSize then .error .spaceFault
        else .ok (.priv off)

/-! ## Attributes and frames (R156, R300) -/

structure Attr where
  fmt : Nat
  mode : Nat
  n : Nat
  geom : Nat
  pseg : Nat
  /-- The node that holds the frames: its module, die and kind. -/
  pdev : Nat
  pdie : Nat
  pkind : Nat
  deriving DecidableEq, Repr

/-- An attribute entry; none where it is illegal, which denies the page (R156). -/
def attrOf (e : DWord) : Option Attr :=
  let v := e.toNat
  let bits (h l : Nat) : Nat := v / 2 ^ l % 2 ^ (h - l + 1)
  let a : Attr := { fmt := bits 63 62, mode := bits 61 60, n := bits 59 48, geom := bits 47 32, pseg := bits 11 0,
                    pdev := bits 23 18, pdie := bits 17 14, pkind := bits 13 12 }
  if a.mode = 3 ∨ (a.mode = 2 ∧ a.n = 0) ∨ ((a.fmt = 0) ≠ (a.geom = 0)) ∨ bits 31 24 ≠ 0 then none else some a

/-- The attribute entry of a page. Entries stand by context and page, so a window that changes its home keeps those of its pages (R155, R156;
log 93, DESIGN CHOICE). -/
def State.attrEntry (s : State) (ctx page : Nat) : DWord := (assoc (ctx, page) s.tabs.attrs).getD 0

/-- A frame of a hall die's or a cellar die's memory (R2, R4): none where the die or the frame does not exist, which denies the page
(log 78, DESIGN CHOICE). -/
def hallFrame (dev die frame : Nat) : Option Nat :=
  if die < Config.hallDies ∧ frame < Config.hallFrames then some (hallBase dev die + frame * 65536) else none
def cellarFrame (dev die frame : Nat) : Option Nat :=
  if die < Config.cellarDies ∧ frame < Config.cellarFrames then some (cellarBase dev die + frame * 65536) else none

/-- A frame-map entry (R300): the location of its frame; none denies the page. Of another module, fm.dev names the module and the page's
attributes the die and its kind (R156) (log 79, DEDUCED). -/
def State.frameBase (s : State) (home : Home) (a : Attr) (e : DWord) : Option Nat :=
  let v := e.toNat
  let bits (h l : Nat) : Nat := v / 2 ^ l % 2 ^ (h - l + 1)
  let frame := bits 35 0
  if bits 63 63 = 0 ∨ bits 48 36 ≠ 0 then none
  else match bits 62 60 with
  | 0 => match home with
    | .hall dev die => hallFrame dev die frame
    | .cellar dev die => cellarFrame dev die frame
    | _ => none
  | 1 => match home with
    | .hall dev _ => cellarFrame dev (bits 52 49) frame
    | .cellar dev _ => cellarFrame dev (bits 52 49) frame
    | _ => none
  | 2 => (s.tabs.segs.find? (fun g => g.seg == a.pseg)).map (fun g => poolBase g.port + frame * 65536)
  | 3 => some (hostBase + frame * 65536)
  | 4 => match a.pkind with
    | 0 => hallFrame (bits 58 53) a.pdie frame
    | 1 => cellarFrame (bits 58 53) a.pdie frame
    | 2 => some (awayHostBase (bits 58 53) + frame * 65536)
    | _ => some (awayPoolBase (bits 58 53) a.pseg + frame * 65536)
  | _ => none

def fmMove (e : DWord) : Bool := e.getLsbD 59

/-- The key of a page in the translation tables: the pointer's page for global memory; a number of its own for each page
of a thread's private space, beyond every global page (log 8, DESIGN CHOICE). -/
def globPage (g : DWord) : Nat := g.toNat / 65536
def privPage (priv off : Nat) : Nat := 2 ^ 48 + priv * 2 ^ 24 + off / 65536

/-- The page of an access in the translation tables. -/
def Access.page (a : Access) : Nat :=
  match decodePtr a.ptr with
  | some (.priv off) => privPage a.priv off
  | _ => globPage a.gaddr

/-- A page placed by its home: attributes, location of its first byte, home, translated page. -/
structure Placed where
  home : Home
  attr : Attr
  base : Nat
  tpage : Nat
  move : Bool
  deriving DecidableEq, Repr

/-- What steps 1–4 of R299 come to. -/
inductive Resolved where
  | ok (p : Placed)
  | noTranslation
  | absent
  | denied
  | space
  | poolLost
  deriving DecidableEq, Repr

def rightsCover (have_ want : Rights) : Bool :=
  (have_.read || !want.read) && (have_.write || !want.write) && (have_.exec || !want.exec)
def rightsR : Rights := ⟨true, false, false⟩
def rightsW : Rights := ⟨false, true, false⟩
def rightsX : Rights := ⟨false, false, true⟩
def rightsRW : Rights := ⟨true, true, false⟩

/-- Looks up a translation in a home's cache (R298, R299). -/
def State.translation (s : State) (home : Home) (ctx page : Nat) : Option TransEntry :=
  s.tx.tcache.find? (fun t => t.home == home && t.ctx == ctx && t.page == page)

/-- Steps 2–4 of R299 at a home that takes translations. -/
def State.resolveAt (s : State) (home : Home) (ctx page : Nat) (a : Attr) (want : Rights) : Resolved :=
  match s.translation home ctx page with
  | none => .noTranslation
  | some t =>
    if !(rightsCover t.rights want) then .absent
    else match home with
    | .host => .ok { home := home, attr := a, base := hostBase + t.tpage * 65536, tpage := t.tpage, move := false }
    | _ =>
      let e := (assoc (home, t.tpage) s.tabs.frames).getD 0
      match s.frameBase home a e with
      | none => .denied
      | some b => .ok { home := home, attr := a, base := b, tpage := t.tpage, move := fmMove e }

/-- A pool segment takes no translation: n bytes from offset `off` of it on. Bytes beyond its length, or of a segment that no port is bound
to, raise SPACE_FAULT (R298, R360) (log 30, DEDUCED). -/
def State.resolveSegment (s : State) (home : Home) (dev seg off n page : Nat) (a : Attr) : Resolved :=
  -- a segment that another module serves lies beyond this module's tables (log 17, DESIGN CHOICE)
  if dev ≠ s.device then
    .ok { home := home, attr := a, base := awayPoolBase dev seg + off / 65536 * 65536, tpage := page, move := false }
  else match s.tabs.segs.find? (fun g => g.seg == seg) with
  | none => .space
  | some x =>
    if x.lost then .poolLost
    else if off + n > x.len then .space
    else .ok { home := home, attr := a, base := poolBase x.port + x.base + off / 65536 * 65536, tpage := page, move := false }

/-- Steps 1–4 of R299 for n bytes of a page from the address g on; `fmtOk` is the format check of R206 and R207. -/
def State.resolvePage (s : State) (ctx : Nat) (g : DWord) (n : Nat) (home : Home) (want : Rights) (fmtOk : Attr → Bool) : Resolved :=
  let page := globPage g
  match attrOf (s.attrEntry ctx page) with
  | none => .denied
  | some a =>
    if !(fmtOk a) then .space
    else match home with
    | .pool dev seg => s.resolveSegment home dev seg (g.toNat % 2 ^ 46) n page a
    | _ => s.resolveAt home ctx page a want

/-- The same for a page of private space, at the home of the context's reserved entry (R301; log 8, DESIGN CHOICE for its page number and
for where it lies in a pool segment). -/
def State.resolvePriv (s : State) (ctx priv off : Nat) (want : Rights) : Resolved :=
  let page := privPage priv off
  match s.privHome ctx, attrOf (s.attrEntry ctx page) with
  | none, _ => .space
  | some _, none => .denied
  | some (.pool dev seg), some a => s.resolveSegment (.pool dev seg) dev seg ((page - 2 ^ 48) * 65536 + off % 65536) 1 page a
  | some h, some a => s.resolveAt h ctx page a want

/-- The same for n bytes from a global address on, all of one page. -/
def State.resolve (s : State) (ctx : Nat) (g : DWord) (n : Nat) (want : Rights) (fmtOk : Attr → Bool) : Resolved :=
  match s.homeOf ctx g with
  | none => .space
  | some h => s.resolvePage ctx g n h want fmtOk

/-- The format a read of any page accepts. -/
def anyFmt (_ : Attr) : Bool := true

/-- The channel on which a byte lies, `k` bytes after a pointer: of a frame in the HBM4E of the page's own home, where a buffer's
interleaving places it (R158, R299); else where the home does (R337). -/
def State.channelAt (s : State) (ctx : Nat) (ptr g : DWord) (k loc : Nat) : Option Nat :=
  match decodePtr ptr, s.homeOf ctx g with
  | some (.handle i _ off), some (.hall dev die) =>
    if hallBase dev die ≤ loc ∧ loc < hallBase dev die + Config.hallFrames * 65536 then
      ((s.buffer ctx i).channel (off + k)).or (homeChannel loc)
    else homeChannel loc
  | _, _ => homeChannel loc

/-! ## The fault path (R301–R304) -/

def rightsJoin (a b : Rights) : Rights := ⟨a.read || b.read, a.write || b.write, a.exec || b.exec⟩

def noRights : Rights := ⟨false, false, false⟩

def Ask.of (r : Rights) : Ask := ⟨r, false⟩
def Ask.none : Ask := Ask.of noRights
/-- What an atomic asks (R305). -/
def Ask.atomic : Ask := ⟨rightsW, true⟩
def Ask.join (a b : Ask) : Ask := ⟨rightsJoin a.rights b.rights, a.both || b.both⟩
/-- The rights that a request names (R305). -/
def Ask.named (a : Ask) : Rights := ⟨a.rights.read || a.both, a.rights.write || a.both, a.rights.exec⟩
/-- An ask that names no right beyond those of another. -/
def Ask.within (a b : Ask) : Bool := rightsCover b.named a.named

def FaultEntry.on (ctx page : Nat) (e : FaultEntry) : Bool := e.ctx == ctx && e.page == page

/-- The cluster stage behind a filter: the agents of a die use that of its cluster 0. -/
def stageOf (unit : Nat) : Nat := if unit ≥ 2 ^ 16 then (unit - 2 ^ 16) * 4 else unit / 64

/-- Waiters on a page behind a stage, and behind the page-request unit (R304). -/
def State.stageWaiters (s : State) (stage ctx page : Nat) : Nat :=
  ((s.tx.filters.filter (fun x => stageOf x.unit == stage && x.on ctx page)).map (·.waiters)).sum
def State.pageWaiters (s : State) (ctx page : Nat) : Nat := ((s.tx.stages.filter (fun x => x.on ctx page)).map (·.waiters)).sum

/-- A further waiter on a page is counted in the stages and in the page's group (R303, R304). -/
def recount (ctx page : Nat) (s : State) : State :=
  let s : State := { s with tx := { s.tx with stages := s.tx.stages.map (fun x =>
    if x.on ctx page then { x with waiters := s.stageWaiters x.unit ctx page } else x) } }
  { s with tx := { s.tx with groups := s.tx.groups.map (fun g =>
    if g.ctx = ctx ∧ g.page = page then { g with waiters := s.pageWaiters ctx page } else g) } }

/-- A fault enters its core's filter (R303): merged into the page's entry, or a new one while there is room; a new or
widened entry goes on to the cluster's stage. -/
def enterFilter (core ctx page : Nat) (want : Ask) (s : State) : State :=
  let is (e : FaultEntry) : Bool := e.unit == core && e.on ctx page
  match s.tx.filters.find? is with
  | some e =>
    let e' := { e with ask := e.ask.join want, waiters := e.waiters + 1 }
    let s' := recount ctx page { s with tx := { s.tx with filters := upsert is e' s.tx.filters } }
    if want.within e.ask then s' else s'.post (.faultFilterForward core ctx page)
  | none =>
    if (s.tx.filters.filter (fun e => e.unit == core)).length ≥ 64 then s
    else
      let e : FaultEntry := { unit := core, ctx := ctx, page := page, ask := want, waiters := 1 }
      ({ s with tx := { s.tx with filters := s.tx.filters ++ [e] } } : State).post (.faultFilterForward core ctx page)

/-- The home of a page of the translation tables. -/
def State.pageHome (s : State) (ctx page : Nat) : Option Home :=
  if page ≥ 2 ^ 48 then s.privHome ctx else s.homeOf ctx (BitVec.ofNat 64 (page * 65536))

/-- A thread waits for a page (PageWait, R301). -/
def pageWait (r : TRef) (ctx page : Nat) (want : Ask) (s : State) : State :=
  enterFilter r.core ctx page want (s.modThread r (fun t => { t with status := .page ctx page }))

/-- The home of a page sends an ATS Translation Request, unless one is outstanding (R299). -/
def requestTranslation (ctx page : Nat) (s : State) : State :=
  match s.pageHome ctx page with
  | some h => if s.tx.atsOut.contains (h, ctx, page) then s else { s with tx := { s.tx with atsOut := s.tx.atsOut ++ [(h, ctx, page)] } }
  | none => s

/-- A page for which the last answer gave no right has been found absent: an access that reaches its home later asks again (R299, step 2). -/
def forgetAnswer (ctx page : Nat) (s : State) : State :=
  { s with tx := { s.tx with tcache := s.tx.tcache.filter (fun t =>
      t.ctx != ctx || t.page != page || t.rights.read || t.rights.write || t.rights.exec) } }

/-- Whether an invalidation that is not complete covers a page of a context (R307). -/
def State.invalidating (s : State) (ctx page : Nat) : Bool :=
  let pasid := (s.tabs.binds.find? (fun b => b.1 == ctx)).map (fun b => b.2.toNat / 2 ^ 32 % 2 ^ 20)
  s.tx.invs.any (fun i => pasid == some i.1 && i.2.1 ≤ page && page ≤ i.2.2)

/-- What an access is: a load of some kind, a store, an atomic, or an operation on lines. -/
inductive AccClass where
  | load | store | atomic | lines
  deriving DecidableEq, Repr

def AccOp.cls : AccOp → AccClass
  | .ld _ => .load | .ldr _ => .load | .ldd _ => .load | .ldt _ _ => .load | .chseq => .load
  | .st => .store | .std => .store | .stt _ _ _ => .store
  | .atom _ _ _ _ => .atomic
  | .pref _ => .lines | .cctl _ _ => .lines | .pgreq => .lines

/-- The page of a location is being moved, so that its writes and atomics are held (R349). -/
def State.heldByMove (s : State) (loc : Nat) : Bool :=
  s.fab.moves.any (fun m => (m.phase == .recall || m.phase == .copied) && decide (m.srcLoc ≤ loc) && decide (loc < m.srcLoc + 65536))

/-- A page move holds a write or an atomic that the thread has had accepted: the thread is not ready (R349). -/
def State.writeHeld (s : State) (r : TRef) : Bool :=
  s.accs.any (fun a => decide (a.t = r) && (a.phase == .accepted || a.phase == .coreDone) && a.mode != .scratch &&
    (a.op.cls == .store || a.op.cls == .atomic) && s.heldByMove a.loc)

/-- A home of this module's dies, whose pages its migration engines move (R348). -/
def movesHere (device : Nat) : Home → Bool
  | .hall dev _ => dev == device
  | .cellar dev _ => dev == device
  | _ => false

/-- The home counts an access to a migrate-after-n page in the far tier, and asks for a move at the threshold (R157, R348). -/
def countMigration (ctx page : Nat) (p : Placed) (s : State) : State :=
  if p.attr.mode != 2 || p.base / 2 ^ 64 % 8 != 1 || !(movesHere s.device p.home) then s
  else
    let n := (assoc (ctx, page) s.fab.counters).getD 0 + 1
    if n ≥ p.attr.n then
      let (id, s) := s.fresh
      let m : Move := { id := id, home := p.home, ctx := ctx, page := page, tpage := p.tpage, up := true, engine := p.base / 2 ^ 64 / 8 % 16,
                        srcLoc := 0, dst := 0, phase := .request, heldAt := none }
      let s : State := { s with fab := { s.fab with counters := eraseAssoc (ctx, page) s.fab.counters, moves := s.fab.moves ++ [m] } }
      s.post (.migrationClaim id)
    else { s with fab := { s.fab with counters := setAssoc (ctx, page) n s.fab.counters } }

/-! ## L1 (R164) -/

def isLine (ctx line : Nat) (l : CacheLine) : Bool := l.ctx == ctx && l.addr == line

/-- The bytes of an access that L1 holds. -/
def Core.l1Bytes (k : Core) (ctx loc n : Nat) : Option (List Byte) :=
  (k.l1.find? (isLine ctx (lineNum loc))).map (fun l => (l.bytes.drop (loc % 128)).take n)

/-- The lines left when another enters a cache of n lines that is full (R165): the oldest of the stream policy goes, else the oldest
(log 81, DESIGN CHOICE). -/
def evictOver (n : Nat) (ls : List CacheLine) : List CacheLine :=
  if ls.length < n then ls
  else match ls.findIdx? (fun l => l.policy == 1) with
    | some i => ls.eraseIdx i
    | none => ls.drop 1

/-- Fills a line (R164, R165). -/
def Core.l1Fill (ctx line : Nat) (bytes : List Byte) (at_ policy : Nat) (k : Core) : Core :=
  let old := k.l1.filter (fun l => !(isLine ctx line l))
  { k with l1 := evictOver Config.l1Lines old ++ [⟨ctx, line, bytes, at_, policy⟩] }

/-- Replaces bytes of a list at an offset. -/
def patch (off : Nat) (new old : List Byte) : List Byte :=
  old.take off ++ new ++ old.drop (off + new.length)

/-- A store updates any L1 copy of its bytes (R164). -/
def Core.l1Store (loc : Nat) (bs : List Byte) (k : Core) : Core :=
  { k with l1 := k.l1.map (fun l => if l.addr = lineNum loc then { l with bytes := patch (loc % 128) bs l.bytes } else l) }

/-- Drops the L1 copies of lines. -/
def Core.l1Drop (p : CacheLine → Bool) (k : Core) : Core := { k with l1 := k.l1.filter (fun l => !(p l)) }

/-! ## The range scoreboard (R163) -/

/-- Whether n scratchpad bytes at a location overlap a range of the core. -/
def State.rangeHeld (s : State) (core loc n : Nat) : Bool :=
  let off := loc - scratchBase core
  (s.core core).ranges.any (fun r => decide (r.lo < off + n) && decide (off ≤ r.hi))

/-! ## Poison (R327) -/

/-- A line of the pooled tier, whose tokens its bridge creates and retires (R361); the port behind which it lies. -/
def poolLine (line : Nat) : Bool := line / 2 ^ 57 % 8 == 3
def portOf (line : Nat) : Nat := line / 2 ^ 57 / 8

def Segment.hasLine (line : Nat) (g : Segment) : Bool :=
  poolLine line && portOf line == g.port && decide (poolBase g.port + g.base ≤ line * 128) && decide (line * 128 < poolBase g.port + g.base + g.len)

/-- A line of a segment that was poisoned as a whole, not written whole or scrubbed since (R363). -/
def State.segPoison (s : State) (line : Nat) : Bool :=
  s.tabs.segs.any (fun g => g.poisoned && g.hasLine line && !(g.cleared.contains line))

/-- Lines of an access that are poisoned, with the cause. -/
def State.poisonOf (s : State) (loc n : Nat) : Option Cause :=
  let last := lineNum (loc + n - 1)
  match s.poison.find? (fun p => decide (lineNum loc ≤ p.1) && decide (p.1 ≤ last)) with
  | some p => some p.2
  | none => if (List.range (last + 1 - lineNum loc)).any (fun i => s.segPoison (lineNum loc + i)) then some .poison else none

/-- A line is written whole or scrubbed: it is poisoned no more (R327, R363). -/
def State.cleanLine (line : Nat) (s : State) : State :=
  { s with
    poison := s.poison.filter (fun p => p.1 != line),
    tabs := { s.tabs with segs := s.tabs.segs.map (fun (g : Segment) =>
      if g.poisoned && g.hasLine line then { g with cleared := line :: g.cleared } else g) } }

/-- Poisoned scratchpad words that an access of n bytes at a location of a core reads (R327). -/
def State.badScratch (s : State) (core loc n : Nat) : Bool :=
  let off := loc - scratchBase core
  (s.core core).badWords.any (fun w => decide (w < 2 ^ 20) && decide (off / 8 ≤ w) && decide (w ≤ (off + n - 1) / 8))

end Sys2Proof.Machine
end

