-- ==== Sys2Proof/Machine/Tokens.lean ====
section
/-! DEFINITION. Tokens of a line: holders, requests, persistent requests, evictions, recalls, the recovery of lost tokens,
and the links that carry token messages (R338–R345, R350–R353). A line's data stands once in memory, since every valid copy
is equal to the line's last written value (R339; log 16, DEDUCED). -/

namespace Sys2Proof.Machine

/-- Cycles of the figures that R341–R353 give in time, at the 1.4 GHz that R328 gives. -/
def attemptCycles : Nat := 560
def escalateCycles : Nat := 2800
def wakeCycles : Nat := 4200

/-- The bin of a persistent request's duration, and of a wake's latency (R389). -/
def durationBin (c : Nat) : Nat :=
  if c < 700 then 0 else if c < 1400 then 1 else if c < 2800 then 2 else if c < 5600 then 3 else if c ≤ 11200 then 4 else 5
def wakeBin (c : Nat) : Nat := if c < 700 then 0 else if c < 1400 then 1 else if c < 2800 then 2 else 3

/-! ## Holders (R338, R339) -/

/-- The tokens of a line; a line without a record has all 32 at its home, and none if it is a pool line that no bridge has
fetched. -/
def State.tokens (s : State) (line : Nat) : TokenLine :=
  (s.fab.tokens.find? (fun t => t.line == line)).getD
    { line := line, epoch := 0, home := if poolLine line then 0 else 32, homeOwner := !(poolLine line), holds := [] }

/-- Appends a response to the host or a pool: the line, its bytes, and whether they are poisoned. -/
def State.answerLine (line : Nat) (bs : List Byte) (bad : Bool) (s : State) : State :=
  { s with ext := { s.ext with answers := s.ext.answers ++ [(line, bs, bad)] } }

/-- Dirty lines that satisfy `p` go back from the host-line cache to the host (R358), and from the pool bridges' buffers to the pool (R361);
each stays in its cache, clean. -/
def writeBackHost (p : Nat → Bool) (s : State) : State :=
  let s' := (s.ext.hostCache.filter (fun x => x.dirty && p x.line)).foldl (fun s x =>
    s.answerLine x.line (s.readBytes (x.line * 64) 64) (s.poisonOf (x.line * 64) 64).isSome) s
  { s' with ext := { s'.ext with hostCache := s'.ext.hostCache.map (fun x => if p x.line then { x with dirty := false } else x) } }
def writeBackPool (p : Nat → Bool) (s : State) : State :=
  let s' := (s.ext.poolCache.filter (fun x => x.dirty && p x.line)).foldl (fun s x =>
    s.answerLine x.line (s.readBytes (x.line * 128) 128) (s.poisonOf (x.line * 128) 128).isSome) s
  { s' with ext := { s'.ext with poolCache := s'.ext.poolCache.map (fun x => if p x.line then { x with dirty := false } else x) } }

/-- The host-line cache gives up the lines that satisfy `p`, dirty ones with DirtyEvict (R358). -/
def releaseHost (p : Nat → Bool) (s : State) : State :=
  let s := writeBackHost p s
  { s with ext := { s.ext with hostCache := s.ext.hostCache.filter (fun x => !(p x.line)) } }

/-- The context of the first access that asked for a line of a bridge (R308). -/
def askBridge (line ctx : Nat) (s : State) : State :=
  if s.ext.asked.any (fun x => x.1 == line) then s else { s with ext := { s.ext with asked := s.ext.asked ++ [(line, ctx)] } }

/-- The pool bridges drop the lines that satisfy `p` and retire their tokens (R361). -/
def releasePool (p : Nat → Bool) (s : State) : State :=
  { s with
    ext := { s.ext with poolCache := s.ext.poolCache.filter (fun x => !(p x.line)) },
    fab := { s.fab with tokens := s.fab.tokens.filter (fun t => !(poolLine t.line && p t.line)) } }

def State.setTokens (t : TokenLine) (s : State) : State :=
  { s with fab := { s.fab with tokens := s.fab.tokens.filter (fun x => x.line != t.line) ++ [t] } }

/-- What a holder other than the home holds. -/
def TokenLine.hold (t : TokenLine) (h : Holder) : Hold :=
  (t.holds.find? (fun x => x.holder == h)).getD { holder := h, count := 0, owner := false, data := false, dirty := false, policy := 0, ctx := 0 }

def TokenLine.setHold (x : Hold) (t : TokenLine) : TokenLine :=
  { t with holds := t.holds.filter (fun y => y.holder != x.holder) ++ (if x.count = 0 then [] else [x]) }

/-- Tokens of a holder, whether the owner token is among them, and whether it holds valid data. -/
def TokenLine.count (t : TokenLine) (h : Holder) : Nat := if h = .home then t.home else (t.hold h).count
def TokenLine.owner (t : TokenLine) (h : Holder) : Bool := if h = .home then t.homeOwner else (t.hold h).owner
def TokenLine.data (t : TokenLine) (h : Holder) : Bool := if h = .home then true else (t.hold h).data

/-- The line with tokens added to a holder. -/
def TokenLine.give (h : Holder) (n : Nat) (owner data : Bool) (t : TokenLine) : TokenLine :=
  if n = 0 then t
  else if h = .home then { t with home := t.home + n, homeOwner := t.homeOwner || owner }
  else
    let x := t.hold h
    t.setHold { x with count := x.count + n, owner := x.owner || owner, data := x.data || data }

/-- The line with tokens taken from a holder. -/
def TokenLine.take (h : Holder) (n : Nat) (owner : Bool) (t : TokenLine) : TokenLine :=
  if h = .home then { t with home := t.home - n, homeOwner := t.homeOwner && !owner }
  else
    let x := t.hold h
    t.setHold { x with count := x.count - n, owner := x.owner && !owner }

/-- The holder's copy of the line is dirty (R339). -/
def TokenLine.soil (h : Holder) (t : TokenLine) : TokenLine :=
  if h = .home ∨ t.count h = 0 then t else t.setHold { t.hold h with dirty := true }

/-- The line with the policy and the context for which a holder asked for it (R165, R308). -/
def TokenLine.mark (h : Holder) (m : Option (Nat × Nat)) (t : TokenLine) : TokenLine :=
  match m with
  | some (policy, ctx) => if t.count h = 0 ∨ h = .home then t else t.setHold { t.hold h with policy := policy, ctx := ctx }
  | none => t

/-- Whether a holder may read, or write, the line (R339). -/
def TokenLine.may (h : Holder) (write : Bool) (t : TokenLine) : Bool :=
  if write then t.count h == 32 else decide (t.count h ≥ 1) && t.data h

/-- Messages that satisfy `p` are received or gathered; their flits leave the replay buffers. -/
def State.dropMsgs (p : TokenMsg → Bool) (s : State) : State :=
  let gone := (s.fab.msgs.filter p).map (·.id)
  { s with fab := { s.fab with
      msgs := s.fab.msgs.filter (fun m => !(p m)), replay := s.fab.replay.filter (fun x => !(gone.contains x.msg)) } }

def State.msgsOf (s : State) (line : Nat) : List TokenMsg := s.fab.msgs.filter (fun m => m.line == line)

/-! ## Links (R350, R352) -/

def State.link (s : State) (i : Nat) : Link :=
  (s.fab.links.find? (fun l => l.id == i)).getD { id := i, mode := .active, fails := 0, since := 0 }
def State.setLink (l : Link) (s : State) : State :=
  { s with fab := { s.fab with links := upsert (fun x => x.id == l.id) l s.fab.links } }

/-- The die of a location's home: hall dies 0–11, cellar dies 12–17, the host bridge and the pool bridges with the cellar
dies that hold them. -/
def dieOfLoc (loc : Nat) : Nat :=
  let p := loc / 2 ^ 64
  match p % 8 with
  | 0 => p / 8 % 16
  | 1 => 12 + p / 8 % 16
  | 2 => 12
  | 3 => 12 + p / 8 % 6
  | _ => 0

/-- The die of a holder of a line; another module's messages pass cellar die 0. -/
def dieOfHolder (line : Nat) : Holder → Nat
  | .l2 d => d
  | .home => dieOfLoc (line * 128)
  | .hostBridge => 12
  | .poolBridge p => 12 + p % 6
  | .peer _ => 12

/-- The four links of die d are 4d to 4d + 3 (R336); a message takes one of a die's links by its key, the next one that is not retired
(R350; log 18, DESIGN CHOICE). -/
def State.dieLink (s : State) (die key : Nat) : Nat :=
  (((List.range 4).map (fun i => 4 * die + (key + i) % 4)).find? (fun l => (s.link l).mode != .retired)).getD (4 * die + key % 4)

/-- The route of a message between two dies: a link of each (R336). -/
def State.routeOf (s : State) (src dst key : Nat) : List Nat := if src = dst then [] else [s.dieLink src key, s.dieLink dst key]

/-- A link on which messages are held (R350), and one that trains, which stops the timers of R352. -/
def State.linkShut (s : State) (l : Nat) : Bool :=
  match (s.link l).mode with | .active => false | .retired => false | _ => true
def State.linkTraining (s : State) (l : Nat) : Bool := (s.link l).mode == .waking || (s.link l).mode == .retraining

/-- A message finds links on its route: one that sleeps starts to wake. -/
def wakeLinks (ls : List Nat) (s : State) : State :=
  (ls.filter (fun l => (s.link l).mode == .sleeping)).foldl (fun s l => s.postOnce (.linkWake l)) s

/-- A message between two dies of the module is held at its sender while a link on its route sleeps, which starts a wake, or trains (R350;
log 18, DESIGN CHOICE). The state in which it waits; none where it goes on. -/
def linkHeld (src dst key : Nat) (s : State) : Option State :=
  let ls := s.routeOf src dst key
  if ls.any s.linkShut then some (wakeLinks ls s) else none

/-- Such a message is held at a link that wakes or retrains (R328). -/
def State.linkTrains (s : State) (src dst key : Nat) : Bool := (s.routeOf src dst key).any s.linkTraining

/-- The Afrik ports' links follow those of the dies (R364); the next path of a module that a message takes, by its key. -/
def portLink (port : Nat) : Nat := 72 + port
def State.pathTo (s : State) (dev key : Nat) : Option (Nat × Nat) :=
  match s.ext.modules.find? (fun m => m.dev == dev) with
  | some m => m.paths[key % m.paths.length]?
  | none => none
/-- An access on its way to its home stands at a link that wakes or retrains (R328, R352). -/
def State.homeTrains (s : State) (a : Access) : Bool :=
  a.phase == .sent && (match s.pageHome a.ctx a.page with
    | some (.hall dev d) => dev == s.device && s.linkTrains (a.t.core / 256) d a.id
    | some (.cellar dev d) => dev == s.device && s.linkTrains (a.t.core / 256) (12 + d) a.id
    | some .host => s.linkTrains (a.t.core / 256) 12 a.id
    | _ => false)

/-- A message to another module is held while the link of the local port of its path sleeps or trains (R364). -/
def pathHeld (dev key : Nat) (s : State) : Option State :=
  match s.pathTo dev key with
  | some p => if s.linkShut (portLink p.1) then some (wakeLinks [portLink p.1] s) else none
  | none => none

/-- The die of a point (R182). -/
def dieOfPoint (point : Nat) : Nat := if point ≥ 2 ^ 20 then (point - 2 ^ 20) / 256 else Nat.min (point % 4096) 12

/-- Whether the timers of a request stand still: a link on its route wakes or retrains (R352), or the bridge waits for the host's answer on
its line (R357). -/
def State.linkWaiting (s : State) (r : TokenReq) : Bool :=
  s.linkTrains (dieOfHolder r.line r.holder) (dieOfLoc (r.line * 128)) r.line || s.ext.snoops.any (fun x => x.1 == r.line)

/-- A flit has passed an active link: what is counted towards its retraining are the failures of one flit (R350). -/
def State.flitPassed (i : Nat) (s : State) : State :=
  let l := s.link i
  if l.mode = .active ∧ l.fails ≠ 0 then s.setLink { l with fails := 0 } else s

/-- 100 µs. -/
def retireCycles : Nat := 140000

/-- A link begins to train (R350). -/
def startTraining (i : Nat) (m : LinkMode) (s : State) : State :=
  (s.setLink { id := i, mode := m, fails := 0, since := s.clock }).postAll [.linkWakeComplete i, .linkWakeLate i]

/-- Token messages whose links are all active leave their senders: their flits stand in the links' replay buffers (R350). -/
def launch (s : State) : State :=
  let go (m : TokenMsg) : Bool := !m.sent && m.links.all (fun l => (s.link l).mode == .active)
  let flits := (s.fab.msgs.filter go).flatMap (fun m => m.links.map (fun l => (⟨l, m.id, m.line, m.owner⟩ : Flit)))
  { s with fab := { s.fab with
      msgs := s.fab.msgs.map (fun m => if go m then { m with sent := true } else m), replay := s.fab.replay ++ flits } }

/-- The home grants tokens across the Afrik fabric: the module enters the page's remote mask; one that holds, and is being sent, no token of
the page leaves it (R337). -/
def maskAdd (line : Nat) (h : Holder) (s : State) : State :=
  match h with
  | .peer d =>
    let old := (assoc (line / 512) s.fab.remote).getD 0
    { s with fab := { s.fab with remote := setAssoc (line / 512) (old ||| 2 ^ d) s.fab.remote } }
  | _ => s
def maskTidy (line : Nat) (s : State) : State :=
  let page := line / 512
  let holds (d : Nat) : Bool :=
    s.fab.tokens.any (fun t => t.line / 512 == page && decide (t.count (.peer d) > 0)) ||
    s.fab.msgs.any (fun m => m.line / 512 == page && m.dest == .peer d)
  match assoc page s.fab.remote with
  | none => s
  | some m =>
    let new := ((List.range 60).filter (fun d => m.testBit d && holds d)).foldl (fun a d => a + 2 ^ d) 0
    { s with fab := { s.fab with remote := if new = 0 then eraseAssoc page s.fab.remote else setAssoc page new s.fab.remote } }

/-- The links that a message between two holders takes: within the module a link of each die (R336); to another module a path's local port,
and links between the die that carries the port and the other holder's (R364). -/
def State.linksOf (s : State) (line : Nat) (src dst : Holder) : List Nat :=
  let away (d : Nat) (h : Holder) : List Nat := match s.pathTo d line with
    | some p => portLink p.1 :: s.routeOf (p.1 / 3) (dieOfHolder line h) line
    | none => []
  match src, dst with
  | .peer d, h => away d h
  | h, .peer d => away d h
  | _, _ => s.routeOf (dieOfHolder line src) (dieOfHolder line dst) line

/-- Sends tokens of a line from a holder to another, as a message that carries the line's epoch (R340); one that finds a link of its route
asleep starts a wake. -/
def sendTokens (line : Nat) (src dst : Holder) (n : Nat) (owner data : Bool) (s : State) : State :=
  if n = 0 then s
  else
    let t := s.tokens line
    let (id, s) := s.fresh
    let bad := (s.poison.find? (fun p => p.1 == line)).isSome
    let ls := s.linksOf line src dst
    let m : TokenMsg :=
      { id := id, line := line, dest := dst, count := n, owner := owner, data := data, poison := bad && data, epoch := t.epoch,
        links := ls, sent := false }
    let s := maskAdd line dst (s.setTokens (t.take src n owner))
    let s : State := { s with fab := { s.fab with msgs := s.fab.msgs ++ [m] } }
    (wakeLinks ls (launch s)).post (.tokenMessageReceive id)

/-- Every token of a holder goes to another, with the data where the owner token is among them (R342, R343, R345). -/
def sendAll (line : Nat) (src dst : Holder) (s : State) : State :=
  let t := s.tokens line
  sendTokens line src dst (t.count src) (t.owner src) (t.owner src) s

/-! ## Requests (R341, R342) -/

def State.tokenReq? (s : State) (id : Nat) : Option TokenReq := s.fab.reqs.find? (fun r => r.id == id)
def State.modReq (id : Nat) (f : TokenReq → TokenReq) (s : State) : State :=
  { s with fab := { s.fab with reqs := s.fab.reqs.map (fun r => if r.id = id then f r else r) } }
def State.dropReq (id : Nat) (s : State) : State :=
  { s with fab := { s.fab with reqs := s.fab.reqs.filter (fun r => r.id != id) } }

/-- The active persistent request of a line (R343). -/
def State.activeReq (s : State) (line : Nat) : Option Nat := ((assoc line s.fab.arb).getD []).head?

/-- A request is satisfied: its holder may make the access (R341). -/
def State.satisfied (s : State) (r : TokenReq) : Bool := (s.tokens r.line).may r.holder r.write

/-- For whom a line is asked: an access or an operation, with its cache policy and its context (R165, R308). -/
structure Asker where
  acc : Nat
  policy : Nat
  ctx : Nat
  deriving DecidableEq, Repr

/-- An eviction of the line by the holder is not acknowledged: the evictor does not take the line again (R345). -/
def State.evicts (s : State) (h : Holder) (line : Nat) : Bool :=
  match h with | .l2 d => s.fab.evicting.contains (d, line) | _ => false

/-- Enters a request for a line. -/
def newRequest (h : Holder) (line : Nat) (write persistent : Bool) (who : Asker) (s : State) : Nat × State :=
  let (id, s) := s.fresh
  let r : TokenReq := { id := id, holder := h, line := line, write := write, acc := who.acc, attempt := 1, started := s.clock, issued := s.clock,
                        persistent := persistent, policy := who.policy, ctx := who.ctx, used := false }
  (id, { s with fab := { s.fab with reqs := s.fab.reqs ++ [r] } })

/-- Asks for a line, unless the holder already asks for as much (R341). -/
def requestLine (h : Holder) (line : Nat) (write : Bool) (who : Asker) (s : State) : State :=
  if s.evicts h line || s.fab.reqs.any (fun r => r.holder == h && r.line == line && (r.write || !write)) then s
  else
    let x := newRequest h line write false who s
    x.2.post (.transientRequest x.1)

/-- A holder makes an access for which it asked: persistent requests for it are done (R343). -/
def useLines (h : Holder) (lines : List Nat) (write : Bool) (s : State) : State :=
  { s with fab := { s.fab with reqs := s.fab.reqs.map (fun r =>
      if r.holder = h ∧ lines.contains r.line = true ∧ (write || !r.write) = true then { r with used := true } else r) } }

/-- Asks for every line that the holder may not yet read, or write; true when it may all of them, and makes the access. -/
def demandLines (h : Holder) (lines : List Nat) (write : Bool) (who : Asker) (s : State) : State × Bool :=
  let missing := lines.filter (fun l => !((s.tokens l).may h write))
  if missing.isEmpty then (useLines h lines write s, true)
  else (missing.foldl (fun s l => requestLine h l write who s) s, false)

/-- What a holder sends in answer to a transient request (R342): tokens, the owner among them, data. -/
def answerOf (t : TokenLine) (h : Holder) (write : Bool) : Option (Nat × Bool × Bool) :=
  let n := t.count h
  let own := t.owner h
  if n = 0 then none
  else if write then some (n, own, own)
  else if h = .home then some (1, n == 1 && own, true)
  else if own && decide (n ≥ 2) then some (1, false, true)
  else none

/-- The host's states of a line's halves (R355). -/
def State.hostHalf (s : State) (line half : Nat) : HalfState :=
  match s.ext.hostTable.find? (fun x => x.line == line) with
  | some x => if half = 0 then x.half0 else x.half1
  | none => .invalid
def State.hostHolds (s : State) (line : Nat) : Bool :=
  s.hostHalf line 0 != .invalid || s.hostHalf line 1 != .invalid

/-- Sets the host's state of a half; a line of which the host holds nothing has no entry. -/
def State.setHalf (line half : Nat) (st : HalfState) (s : State) : State :=
  let a := if half = 0 then st else s.hostHalf line 0
  let b := if half = 1 then st else s.hostHalf line 1
  let e : HostLine := { line := line, half0 := a, half1 := b }
  let l := if a = .invalid ∧ b = .invalid then s.ext.hostTable.filter (fun x => x.line != line)
    else upsert (fun x => x.line == line) e s.ext.hostTable
  { s with ext := { s.ext with hostTable := l } }

/-- The halves that `n` bytes of a line at a location touch. -/
def halvesAt (loc n : Nat) : List Nat := [0, 1].filter (fun h => decide (loc % 128 < 64 * (h + 1)) && decide (64 * h < loc % 128 + n))

/-- Whether the host may have changed, in its own cache, a half that `n` bytes of a line touch: then its answer brings the data (R357). -/
def State.hostOwns (s : State) (loc n : Nat) : Bool := (halvesAt loc n).any (fun h => s.hostHalf (lineNum loc) h == .any)

/-- A back-invalidation of a half goes to the host, once. -/
def askHost (line half : Nat) (inv : Bool) (s : State) : State :=
  if s.ext.snoops.contains (line, half, inv) then s
  else { s with ext := { s.ext with snoops := s.ext.snoops ++ [(line, half, inv)] } }

/-- BISnpData: each half that the host holds in Any becomes Shared, with the host's answer (R357); true once none is in Any. -/
def snoopData (line : Nat) (s : State) : State × Bool :=
  (((halvesAt 0 128).filter (fun h => s.hostHalf line h == .any)).foldl (fun s h => askHost line h false s) s, !(s.hostOwns (line * 128) 128))

/-- BISnpInv of the halves that `n` bytes at a location touch (R357): a half in Shared is given up, and one in Any with the host's answer;
true once none that is touched is in Any. -/
def snoopInv (loc n : Nat) (s : State) : State × Bool :=
  let line := lineNum loc
  ((halvesAt loc n).foldl (fun s h => if s.hostHalf line h = .any then askHost line h true s else s.setHalf line h .invalid) s,
    !(s.hostOwns loc n))

/-- A request that reaches the host bridge for a line that the host holds (R357): the access itself goes on at the bridge. -/
def bridgeTakes (r : TokenReq) (s : State) : State :=
  match s.accs.find? (fun a => a.id == r.acc) with
  | none => s
  | some a =>
    match a.op with
    | .atom _ _ _ _ => s.post (.bridgeAtomic a.id)
    | _ => s.post (if r.write then .bridgeWriteRedirect a.id else .bridgeReadRequest a.id)

/-- The other holders of the module. -/
def moduleHolders : List Holder := (List.range 12).map .l2

/-- TRANSIENT_REQUEST (R341): the request of the present attempt goes to its holders. -/
def execTransientRequest (req : Nat) (s : State) : Host.Outcome State Fault Refusal :=
  match s.tokenReq? req with
  | none => .next s
  | some r =>
    if s.satisfied r then .next (s.dropReq req)
    else
      let peers := if r.attempt ≥ 3 then
        (s.fab.remote.filter (fun x => x.1 == r.line / 512)).flatMap (fun x =>
          (List.range 60).filterMap (fun d => if x.2.testBit d then some (Holder.peer d) else none))
        else []
      let others := if r.attempt = 1 then [] else moduleHolders.filter (· != r.holder)
      let bridge := if (s.tokens r.line).count .hostBridge = 0 then [] else [Holder.hostBridge]
      let s := s.modReq req (fun r => { r with issued := s.clock, started := if r.attempt = 1 then s.clock else r.started })
      let s := s.postAll ((([Holder.home] ++ bridge ++ others ++ peers).filter (· != r.holder)).map (.transientAnswer req))
      .next (s.post (.transientAttemptTimeout req))

/-- A request or an entry on its way between a holder and another is held at a link (R350); another module's go by Afrik. -/
def reqHeld (src dst : Holder) (line : Nat) (s : State) : Option State :=
  let ls := s.linksOf line src dst
  if ls.any s.linkShut then some (wakeLinks ls s) else none

/-- TRANSIENT_ANSWER (R342): a holder answers from what it holds; one that itself waits for all 32 tokens keeps them but from a persistent
request that is active, and one in whose table a persistent entry stands answers no other request (R343). An evictor holds no tokens, and its
redirect to the home leaves the next attempt to count (R345). -/
def execTransientAnswer (req : Nat) (holder : Holder) (s : State) : Host.Outcome State Fault Refusal :=
  match s.tokenReq? req with
  | none => .next s
  | some r =>
    if holder = r.holder then .next s
    else match reqHeld r.holder holder r.line s with
    | some s => .next (s.post (.transientAnswer req holder))
    | none =>
    if holder = .hostBridge ∧ s.hostHolds r.line = true then .next (bridgeTakes r (s.dropReq req))
    else if s.fab.ptable.any (fun e => e.1 == holder && e.2.1 == r.line && e.2.2 != req) then .next s
    else if s.activeReq r.line ≠ some req ∧ s.fab.reqs.any (fun x => x.holder == holder && x.line == r.line && x.write) = true then .next s
    else match answerOf (s.tokens r.line) holder r.write with
    | some (n, own, data) => .next (sendTokens r.line holder r.holder n own data s)
    | none => .next s

/-- TRANSIENT_ATTEMPT_TIMEOUT (R341): an attempt failed within 400 ns of its issue; the next follows, or the escalation after the fourth or
after 2 µs of the first. A waking link on the request's route stops the time (R352). -/
def execTransientAttemptTimeout (req : Nat) (s : State) : Host.Outcome State Fault Refusal :=
  match s.tokenReq? req with
  | none => .next s
  | some r =>
    if s.satisfied r then .next (s.dropReq req)
    else if r.persistent then .next s
    else if s.clock ≥ r.started + escalateCycles then .next (s.post (.transientEscalation req))
    else if s.clock < r.issued + attemptCycles || s.linkWaiting r then .next (s.post (.transientAttemptTimeout req))
    else if r.attempt ≥ 4 then .next (s.post (.transientEscalation req))
    else .next ((s.modReq req (fun r => { r with attempt := r.attempt + 1 })).post (.transientRequest req))

/-- TRANSIENT_ESCALATION (R341): the requester makes a persistent request. -/
def execTransientEscalation (req : Nat) (s : State) : Host.Outcome State Fault Refusal :=
  match s.tokenReq? req with
  | none => .next s
  | some r =>
    if s.satisfied r then .next (s.dropReq req)
    else if r.persistent then .next s
    else .next ((s.modReq req (fun r => { r with persistent := true, started := s.clock })).post (.persistentRequest req))

/-! ## Persistent requests (R343) -/

/-- The active request of a line enters the tables of every holder. -/
def activate (line : Nat) (s : State) : State :=
  match s.activeReq line with
  | none => s
  | some _ =>
    let peers := (s.fab.remote.filter (fun x => x.1 == line / 512)).flatMap (fun x =>
      (List.range 60).filterMap (fun d => if x.2.testBit d then some (Holder.peer d) else none))
    s.postAll (([Holder.home, .hostBridge] ++ moduleHolders ++ peers).map (.persistentTableEntry line))

def State.setQueue (line : Nat) (q : List Nat) (s : State) : State :=
  { s with fab := { s.fab with arb := if q.isEmpty then eraseAssoc line s.fab.arb else setAssoc line q s.fab.arb } }

/-- PERSISTENT_REQUEST (R343): the request enters its line's queue at the home arbiter. -/
def execPersistentRequest (req : Nat) (s : State) : Host.Outcome State Fault Refusal :=
  match s.tokenReq? req with
  | none => .next s
  | some r =>
    let q := (assoc r.line s.fab.arb).getD []
    if q.contains req then .next s
    else match reqHeld r.holder .home r.line s with
    | some s => .next (s.post (.persistentRequest req))
    | none =>
      let s := s.setQueue r.line (q ++ [req])
      .next (if q.isEmpty then activate r.line s else s)

/-- The requester of a persistent request has what it asked for: it performs its access and tells the arbiter (R343). -/
def checkReq (req : Nat) (s : State) : State :=
  match s.tokenReq? req with
  | none => s
  | some r =>
    if !(s.satisfied r) then s
    else if r.persistent then s.postOnce (.persistentCompletion r.line)
    else s.dropReq req

/-- Entries of a die's persistent table (R344). -/
def tableSize : Nat := 256
def State.tableFull (s : State) (line : Nat) (h : Holder) : Bool :=
  decide ((s.fab.ptable.filter (fun e => dieOfHolder e.2.1 e.1 == dieOfHolder line h)).length ≥ tableSize)

/-- The access for which a request was made is still to be performed: an access, a line of an engine's operation, a page move; the home and
the host bridge come back for what they asked. -/
def State.stillWants (s : State) (r : TokenReq) : Bool :=
  if r.acc = 0 then r.holder == .home || r.holder == .hostBridge
  else s.accs.any (fun a => a.id == r.acc) || s.engs.any (fun e => e.id == r.acc && e.phase == .accepted) || s.fab.moves.any (fun m => m.id == r.acc)

/-- PERSISTENT_TABLE_ENTRY (R343, R344): the active entry reaches a holder whose die's table has room, which sends the requester every token
it holds; the host bridge serves the request itself while the host holds the line, and takes the host's halves for a recall (R357). -/
def execPersistentTableEntry (line : Nat) (holder : Holder) (s : State) : Host.Outcome State Fault Refusal :=
  match (s.activeReq line).bind s.tokenReq? with
  | none => .next s
  | some r =>
    match reqHeld .home holder line s with
    | some s => .next (s.post (.persistentTableEntry line holder))
    | none =>
    if holder = .hostBridge ∧ s.hostHolds line = true ∧ r.holder ≠ .hostBridge then
      .next (if r.holder = .home then s.postOnce (.bridgeRecall line) else (bridgeTakes r s).postOnce (.persistentCompletion line))
    else if s.tableFull line holder then .next (s.post (.persistentTableEntry line holder))
    else
      let old := s.fab.ptable.filter (fun e => !(e.1 == holder && e.2.1 == line))
      let s : State := { s with fab := { s.fab with ptable := old ++ [(holder, line, r.id)] } }
      if holder = r.holder then .next (checkReq r.id s) else .next (sendAll line holder r.holder s)

/-- PERSISTENT_COMPLETION (R343): once the access is performed the arbiter removes the entry from every table and activates the next
request. -/
def execPersistentCompletion (line : Nat) (s : State) : Host.Outcome State Fault Refusal :=
  match s.activeReq line with
  | none => .next s
  | some req =>
    if (s.tokenReq? req).any (fun r => !r.used && s.stillWants r) then .next (s.post (.persistentCompletion line))
    else
    let s := match s.tokenReq? req with
      | some r => s.count 4 (dieOfHolder line r.holder) (durationBin (s.clock - r.started))
      | none => s
    let s : State := { s with fab := { s.fab with ptable := s.fab.ptable.filter (fun e => e.2.1 != line) } }
    let s := (s.dropReq req).setQueue line (((assoc line s.fab.arb).getD []).drop 1)
    .next (activate line s)

/-! ## Eviction (R345) -/

/-- An L2 slice evicts a line: its tokens go home, and its entry stays until the home acknowledges. -/
def evictLine (die line : Nat) (s : State) : State :=
  if (s.tokens line).count (.l2 die) = 0 || s.fab.evicting.contains (die, line) then s
  else
    let s := sendAll line (.l2 die) .home s
    ({ s with fab := { s.fab with evicting := s.fab.evicting ++ [(die, line)] } } : State).post (.evictionAck die line)

/-- A line has entered a die's L2, which holds no more than its 64 MiB (R4, R166): of the other lines one of the stream policy is evicted
first, one of the keep policy last, and else the one whose tokens have stood longest (R165) (log 81, DESIGN CHOICE). -/
def l2Room (h : Holder) (line : Nat) (s : State) : State :=
  match h with
  | .l2 die =>
    let ls := s.fab.tokens.filter (fun t => decide (t.count h > 0))
    if ls.length ≤ Config.l2Lines then s
    else
      let others := ls.filter (fun t => t.line != line)
      let first (p : Nat → Bool) : Option TokenLine := others.find? (fun t => p (t.hold h).policy)
      match (first (· == 1)).or ((first (· != 2)).or others.head?) with
      | some t => evictLine die t.line s
      | none => s
  | _ => s

/-- The policy and the context of the access for which a holder asks for a line. -/
def State.askedFor (s : State) (h : Holder) (line : Nat) : Option (Nat × Nat) :=
  (s.fab.reqs.find? (fun r => r.holder == h && r.line == line)).map (fun r => (r.policy, r.ctx))

/-! ## Messages (R340) -/

/-- TOKEN_MESSAGE_RECEIVE (R340, R343, R345): a message of an older epoch is discarded and counted; else its tokens are kept, or sent on to
the requester whose persistent entry is active; an evictor sends them on to the home. A message waits while a link of its route wakes
(R350). -/
def execTokenMessageReceive (msg : Nat) (s : State) : Host.Outcome State Fault Refusal :=
  match s.fab.msgs.find? (fun m => m.id == msg) with
  | none => .next s
  | some m =>
    if m.links.any s.linkShut then .next ((wakeLinks m.links s).post (.tokenMessageReceive msg))
    else
      let s := m.links.foldl (fun s l => s.flitPassed l) (s.dropMsgs (fun x => x.id == msg))
      let t := s.tokens m.line
      if m.epoch ≠ t.epoch then .next { s with fab := { s.fab with discards := s.fab.discards + 1 } }
      else if s.evicts m.dest m.line then .next (sendAll m.line m.dest .home (s.setTokens (t.give m.dest m.count m.owner m.data)))
      else
        let s := l2Room m.dest m.line (s.setTokens ((t.give m.dest m.count m.owner m.data).mark m.dest (s.askedFor m.dest m.line)))
        let s := if m.dest = .home then maskTidy m.line s else s
        match (s.activeReq m.line).bind s.tokenReq? with
        | some r =>
          if m.dest = r.holder then .next (checkReq r.id s)
          else if s.fab.ptable.any (fun e => e.1 == m.dest && e.2.1 == m.line) then .next (sendAll m.line m.dest r.holder s)
          else .next s
        | none =>
          .next ((s.fab.reqs.filter (fun r => r.holder == m.dest && r.line == m.line)).foldl (fun s r => checkReq r.id s) s)

/-! ## Evictions acknowledged (R345) and recalls (R346) -/

/-- L2_EVICTION (R345). -/
def execL2Eviction (die line : Nat) (s : State) : Host.Outcome State Fault Refusal := .next (evictLine die line s)

/-- EVICTION_ACK (R345): the home has counted the tokens. -/
def execEvictionAck (die line : Nat) (s : State) : Host.Outcome State Fault Refusal :=
  if !(s.fab.evicting.contains (die, line)) then .next s
  else if (s.msgsOf line).any (fun m => m.dest == .home) then .next (s.post (.evictionAck die line))
  else .next { s with fab := { s.fab with evicting := s.fab.evicting.filter (· != (die, line)) } }

/-- A recall on the home's own behalf (R346), for an access or a move where `acc` names one: true once the home holds every token and no
persistent request of another stands before it; else the recall enters the line's queue as a persistent request. A pool line's home is the
bridge that holds it (R361). -/
def recallLine (line acc : Nat) (s : State) : State × Bool :=
  if poolLine line then (s, true)
  else
    let mine := s.fab.reqs.find? (fun r => r.holder == .home && r.line == line)
    let first : Bool := match s.activeReq line with | none => true | some a => mine.any (fun r => r.id == a)
    if (s.tokens line).home = 32 ∧ first = true then
      (if mine.isSome then (useLines .home [line] true s).postOnce (.persistentCompletion line) else s, true)
    else if mine.isSome then (s, false)
    else
      let x := newRequest .home line true true ⟨acc, 0, 0⟩ s
      (x.2.post (.persistentRequest x.1), false)

/-- Recalls of several lines; true once the home holds every token of all. -/
def recallLines (lines : List Nat) (acc : Nat) (s : State) : State × Bool :=
  lines.foldl (fun (x : State × Bool) l => let y := recallLine l acc x.1; (y.1, x.2 && y.2)) (s, true)

/-- BRIDGE_RECALL (R357): the home recalls a line from the bridge, which takes both halves from the host and yields. -/
def execBridgeRecall (line : Nat) (s : State) : Host.Outcome State Fault Refusal :=
  let (s, ok) := snoopInv (line * 128) 128 s
  .next (if ok then sendAll line .hostBridge .home s else s.postOnce (.bridgeRecall line))

/-! ## Lost tokens (R353) -/

/-- The number of a die's memory among the units of the lifetime records (R389; log 66, DEDUCED). -/
def memoryUnit (die : Nat) : Nat := 24608 + die

/-- A line is poisoned with a cause, and the event counted at its die (R327, R389). Lost coherence takes the place of an earlier cause (R353);
an earlier poison else stays. -/
def poisonLine (line : Nat) (c : Cause) (s : State) : State :=
  if c ≠ .coherenceLost ∧ s.poison.any (fun p => p.1 == line) = true then s
  else State.count 1 (memoryUnit (dieOfLoc (line * 128))) 0 { s with poison := s.poison.filter (fun p => p.1 != line) ++ [(line, c)] }

/-- TOKEN_RECREATION (R353): a new epoch; the old tokens that still exist are gathered, on live links too, and new ones make
up 32. Without the owner token the line is poisoned with COHERENCE_LOST. The host gives up its halves first, since it may hold one only
while the bridge holds every token (R355); the requester whose entry stands at the home takes the new tokens (R343). -/
def execTokenRecreation (line : Nat) (s : State) : Host.Outcome State Fault Refusal :=
  let (s, ok) := snoopInv (line * 128) 128 s
  if !ok then .next (s.post (.tokenRecreation line))
  else
    let t := s.tokens line
    let live := (s.msgsOf line).filter (fun m => m.epoch == t.epoch && !(m.sent && m.links.any (fun l => (s.link l).mode == .retired)))
    let own := t.homeOwner || t.holds.any (·.owner) || live.any (·.owner)
    let s := s.dropMsgs (fun m => live.any (fun x => x.id == m.id))
    let s := s.setTokens { line := line, epoch := (t.epoch + 1) % 4, home := 32, homeOwner := true, holds := [] }
    let s := s.log 0x05 (dieOfLoc (line * 128)) 0 (if own then 0 else causeCode .coherenceLost) (line * 128) (if own then 0 else 1)
    let s := if own then s else poisonLine line .coherenceLost s
    .next (match (s.activeReq line).bind s.tokenReq? with
      | some r =>
        if r.holder = .home then checkReq r.id s
        else if s.fab.ptable.any (fun e => e.1 == .home && e.2.1 == line) then sendAll line .home r.holder s
        else s
      | none => s)

/-! ## Links (R350, R351) -/

/-- LINK_WAKE (R350): a message for a sleeping link starts its wake. -/
def execLinkWake (link : Nat) (s : State) : Host.Outcome State Fault Refusal :=
  if (s.link link).mode = .sleeping then .next (startTraining link .waking s) else .next s

/-- LINK_WAKE_COMPLETE (R350): a link that has trained, within 100 µs, is Active, and the messages held at it go; its latency is counted
(R389). -/
def execLinkWakeComplete (link : Nat) (s : State) : Host.Outcome State Fault Refusal :=
  let l := s.link link
  if s.linkTraining link && decide (s.clock < l.since + retireCycles) then
    let s := launch (s.setLink { l with mode := .active, fails := 0, since := s.clock })
    .next (if l.mode = .retraining ∨ l.fails = 1 then s
      else s.count 3 link (if s.clock ≤ l.since + wakeCycles then wakeBin (s.clock - l.since) else 4))
  else .next s

/-- LINK_WAKE_LATE (R350): a wake that has taken more than 3 µs is counted, once (a waking link's `fails` is then 1), and goes on; a link
that has trained for 100 µs is retired. -/
def execLinkWakeLate (link : Nat) (s : State) : Host.Outcome State Fault Refusal :=
  let l := s.link link
  if !(s.linkTraining link) then .next s
  else
    let late := l.mode == .waking && l.fails != 1 && decide (s.clock > l.since + wakeCycles)
    let s := if late then (s.setLink { l with fails := 1 }).count 3 link 4 else s
    .next (s.post (if s.clock ≥ l.since + retireCycles then .linkRetire link else .linkWakeLate link))

/-- LINK_SLEEP (R350): firmware puts an idle link to sleep. -/
def execLinkSleep (link : Nat) (s : State) : Host.Outcome State Fault Refusal :=
  let l := s.link link
  if l.mode = .active && !(s.fab.replay.any (fun x => x.1 == link)) then .next (s.setLink { l with mode := .sleeping, since := s.clock })
  else .next s

/-- FLIT_CRC_FAILURE (R350): the flit is sent again and counted; the 16th failure retrains the link. -/
def execFlitCrcFailure (link : Nat) (s : State) : Host.Outcome State Fault Refusal :=
  let l := s.link link
  let s := s.count 2 link 0
  if l.mode ≠ .active then .next s
  else if l.fails + 1 ≥ 16 then .next (startTraining link .retraining s)
  else .next (s.setLink { l with fails := l.fails + 1 })

end Sys2Proof.Machine
end

