-- ==== Sys2Proof/Machine/Access.lean ====
section
/-! DEFINITION. A thread's access to memory: its issue (R199), what it reads and computes, binding, performing, atomics and
failure (R173–R176, R184–R187, R200–R212), and the events through which it goes. -/

namespace Sys2Proof.Machine

/-! ## Records -/

def State.acc? (s : State) (id : Nat) : Option Access := s.accs.find? (fun a => a.id == id)
def State.modAcc (id : Nat) (f : Access → Access) (s : State) : State :=
  { s with accs := s.accs.map (fun a => if a.id = id then f a else a) }
def State.dropAcc (id : Nat) (s : State) : State := { s with accs := s.accs.filter (fun a => a.id != id) }

/-- The right that an access needs at its home (R298). -/
def AccOp.want (op : AccOp) : Rights := match op.cls with | .load => rightsR | .lines => rightsR | .store => rightsW | .atomic => rightsW
/-- What its page request asks (R305). -/
def AccOp.asks (op : AccOp) : Ask := match op.cls with | .atomic => Ask.atomic | _ => .of op.want

def Access.die (a : Access) : Nat := a.t.core / 256
def Access.isRead (a : Access) : Bool := match a.op with | .ldr _ => true | _ => false

/-- The scratchpads of another module, as one point. -/
def pointOfModule (dev : Nat) : Nat := dev * 4096 + 33

/-- The module of a point. -/
def State.pointDev (s : State) (point : Nat) : Nat := if point ≥ 2 ^ 20 ∨ point = 32 then s.device else point / 4096

/-- Counts a message on the path from a core to a point (R182). -/
def bumpPath (core point : Nat) (s : State) : State :=
  { s with paths := setAssoc (core, point) ((assoc (core, point) s.paths).getD 0 + 1) s.paths }

/-! ## Issue (R199, R200) -/

/-- The scope of an access: a Landing access is widened (R162). -/
def accScope (p : DWord) (peer : Bool) (sc : Nat) : Nat :=
  match decodePtr p with
  | some (.landing _ _ _) => Nat.max sc (if peer then 4 else 1)
  | _ => sc

/-- Enters an access of the thread, which passed its checks, and the operation on its produce key (R173). A scratchpad
access is accepted at issue; another is on its way to its home. -/
def enterAccess (c : Ctx) (op : AccOp) (p : DWord) (tgt : Target) (n : Nat) (data data2 : List Byte) (rz : Bool) (pd : Nat) :
    Nat × State :=
  let ctx := c.s.ctxOf c.th
  let (id, s) := c.s.fresh
  let peer := match tgt with | .scratch _ _ b => b | .remote _ => true | _ => false
  let point := match tgt with
    | .scratch core _ _ => pointOfCore core
    | .remote dev => pointOfModule dev
    | .glob g => match s.homeOf ctx g with | some h => pointOfHome h | none => 0
    | .priv _ => match s.privHome ctx with | some h => pointOfHome h | none => 0
  let a : Access :=
    { id := id, t := c.r, pc := c.th.pc, op := op, ctx := ctx, ptr := p,
      gaddr := match tgt with | .glob g => g | _ => p,
      loc := match tgt with | .scratch _ l _ => l | _ => 0,
      priv := c.th.priv, pages := [], channel := none,
      mode := match tgt with | .scratch _ _ _ => .scratch | .remote dev => .remote dev | _ => .direct,
      n := n, grp := s.issue.firstId, tries := 0, begun := false, ver := 0, len := 0, units := [], data := data, data2 := data2, scope := accScope p peer (Forms.scope c.f),
      pk := c.f.pk.toNat, waits := s.waitsNow c.warp c.f.ck.toNat, policy := Forms.policy c.f, rz := rz,
      d := c.f.d.toNat, pd := pd,
      phase := match tgt with | .scratch _ _ _ => .accepted | .remote _ => .accepted | _ => .sent, held := false }
  (id, bumpPath c.r.core point ((({ s with accs := s.accs ++ [a] } : State)).addOp c.th id c.f.pk.toNat point))

/-- R177: a producer beyond 4,095 stays at issue; one that has joined its key already does not. -/
def keyFull (c : Ctx) : Bool := c.f.pk != 0 && c.th.entered.isNone && decide ((c.warp.key c.f.pk.toNat).producers.length ≥ 4095)

/-- The registers that an access writes at its destination field. -/
def Access.regs (a : Access) : List Nat :=
  let words := match a.op with
    | .ldd _ => 8
    | .ld _ => (a.n + 3) / 4
    | .ldr _ => (a.n + 3) / 4
    | .atom true _ _ _ => (a.n + 3) / 4
    | .chseq => 2
    | _ => 0
  ((List.range words).map (a.d + ·)).filter (· < 255)
def Access.preds (a : Access) : List Nat :=
  match a.op with
  | .ldt _ _ => [a.pd]
  | _ => if a.rz then [a.pd] else []

/-- The result that the thread awaits from an access, not yet known. -/
def pendingResult (a : Access) (s : State) : State :=
  if a.regs.isEmpty && a.preds.isEmpty then s
  else s.modThread a.t (fun th => { th with tracked := th.tracked ++
    [⟨a.id, 0, false, false, a.regs.map (fun r => (r, 0)), a.preds.map (fun k => (k, false))⟩] })

/-- The result of an access is known: the thread's tracked entry receives it, to be written from the next cycle on. -/
def knownResult (a : Access) (regs : List (Nat × Word)) (preds : List (Nat × Bool)) (s : State) : State :=
  match s.thread? a.t with
  | none => s
  | some th =>
    if th.tracked.any (fun x => x.id == a.id) then
      (s.modThread a.t (fun th => { th with tracked := th.tracked.map (fun (x : Tracked) =>
        if x.id = a.id then ⟨a.id, s.clock + 1, true, false, regs, preds⟩ else x) })).post (.trackedResultWrite a.t a.id)
    else s

/-! ## What a load yields (R198, R206, R208) -/

/-- Registers of n bytes read, extended (R198). -/
def loadWords (n : Nat) (sx : Bool) (bs : List Byte) : List Word :=
  if n = 1 then [if sx then (BitVec.ofNat 8 (leValue bs)).signExtend 32 else BitVec.ofNat 32 (leValue bs)]
  else if n = 2 then [if sx then (BitVec.ofNat 16 (leValue bs)).signExtend 32 else BitVec.ofNat 32 (leValue bs)]
  else (List.range (n / 4)).map (fun i => BitVec.ofNat 32 (leValue ((bs.drop (4 * i)).take 4)))

/-- The n bytes that a store takes from its registers (R198). -/
def storeBytes (n : Nat) (ws : List Word) : List Byte := (ws.flatMap (fun w => bytesOf 4 w.toNat)).take n

/-- LDD of eight elements: their FP32 words, and whether a poisoning cause was met (R68, R206). `line` is the whole line,
`off` the offset within it. -/
def lddWords (fp8 : Option Fmt) (line : List Byte) (off : Nat) : List Word × Bool :=
  match fp8 with
  | some F => ((List.range 8).map (fun i =>
      BitVec.ofNat 32 (Fmt.f32.round .rne false (F.decode (line.getD (off + i) 0).toNat)).code), false)
  | none =>
    let es := (List.range 8).map (fun i => q4Element line (2 * off + i))
    (es.map (fun e => BitVec.ofNat 32 (q4Word e.1)), es.any (·.2))

/-- STD: the line with block j replaced, the version counted and the check recomputed (R66, R69, R207). -/
def stdLine (line : List Byte) (off : Nat) (block : List Byte) : List Byte :=
  let j := off / 4
  let l := patch off (block.take 4) line
  let l := patch (96 + j) ((block.drop 4).take 1) l
  let l := patch 120 (bytesOf 2 (leValue ((l.drop 120).take 2) + 1)) l
  patch 126 (bytesOf 2 (q4Check l).toNat) l

/-! ## Atomics (R210–R212) -/

/-- f32 and f16x2 addition of an atomic: one rounding, subnormals kept (R212). -/
def atomFAdd (F : Fmt) (a b : Nat) : Nat := (sumRound F .rne false true [F.decode a, F.decode b]).code

/-- The operation of an atomic on values of a type (R212). -/
def atomValue (op ty : Nat) (old v : DWord) : DWord :=
  match op with
  | 0 =>
    if ty = 8 then BitVec.ofNat 64 (atomFAdd Fmt.f32 (old.toNat % 2 ^ 32) (v.toNat % 2 ^ 32))
    else if ty = 0xA then
      BitVec.ofNat 64 (atomFAdd Fmt.f16 (old.toNat % 2 ^ 16) (v.toNat % 2 ^ 16)
        + 2 ^ 16 * atomFAdd Fmt.f16 (old.toNat / 2 ^ 16 % 2 ^ 16) (v.toNat / 2 ^ 16 % 2 ^ 16))
    else lanes2 ty false (· + ·) old v
  | 1 =>
    if ty = 8 then BitVec.ofNat 64 (minMaxNum Fmt.f32 false (Fmt.f32.decode (old.toNat % 2 ^ 32)) (Fmt.f32.decode (v.toNat % 2 ^ 32))).code
    else lanes2 ty false (fun x y => if x < y then x else y) old v
  | 2 =>
    if ty = 8 then BitVec.ofNat 64 (minMaxNum Fmt.f32 true (Fmt.f32.decode (old.toNat % 2 ^ 32)) (Fmt.f32.decode (v.toNat % 2 ^ 32))).code
    else lanes2 ty false (fun x y => if x > y then x else y) old v
  | 3 => old &&& v
  | 4 => old ||| v
  | 5 => old ^^^ v
  | _ => v

/-- The columns of R211. -/
inductive AtomPoint where
  | scratchUnit | memoryUnit | bridge
  deriving DecidableEq, Repr

/-- Whether a point supports an operation and type (R211). -/
def atomSupported (p : AtomPoint) (cas : Bool) (op ty : Nat) : Bool :=
  if cas || ty ≤ 3 then true
  else match p with
  | .scratchUnit => (4 ≤ ty && ty ≤ 7) || (ty == 8 && op ≤ 2) || (ty == 0xA && op == 0)
  | .memoryUnit => ty == 8 && op == 0
  | .bridge => false

/-- The column of a target reached through pointer p (R187, R211): of a buffer handle, that of the home of the buffer's base. -/
def State.atomPoint (s : State) (ctx : Nat) (p : DWord) (t : Target) : AtomPoint :=
  match t with
  | .scratch _ _ _ => .scratchUnit
  | .remote _ => .scratchUnit
  | .priv _ => .memoryUnit
  | .glob g =>
    let base : DWord := match decodePtr p with
      | some (.handle i _ _) => BitVec.ofNat 64 (s.buffer ctx i).base
      | _ => g
    match s.homeOf ctx base with
    | some .host => .bridge
    | some (.pool _ _) => .bridge
    | _ => .memoryUnit

/-! ## Tiles (R170, R208, R209) -/

/-- The location of byte `i` of a tile: its pages may lie apart. -/
def Access.tileLoc (a : Access) (i : Nat) : Nat :=
  let g := a.gaddr.toNat + i
  match assoc (g / 65536) a.pages with | some b => b + g % 65536 | none => a.loc + i

/-- The lines of a tile. -/
def Access.tileLines (a : Access) (len : Nat) : List Nat :=
  ((List.range (len / 4 + 2)).map (fun k => lineNum (a.tileLoc (Nat.min (128 * k) (64 + 32 * len - 1))))).eraseDups

/-! ## When an access may go on (R173, R184, R186, R216) -/

def ptrTag (p : DWord) : BitVec 4 := p.extractLsb' 60 4
def overlap (p n q m : Nat) : Bool := decide (p < q + m) && decide (q < p + n)

/-- Whether the access has a place: an .rz load of an absent page has none (R203). -/
def Access.placed (a : Access) : Bool := match a.mode with | .scratch => true | .remote _ => true | _ => !a.pages.isEmpty

/-- The bytes at its address that an access reaches, as runs of a location and a length: an STD and an LDD of a Q4 block read or write
parts of all of their line (R206, R207), a tile has its header and its rows. An access without a place reaches none. -/
def Access.spans (a : Access) : List (Nat × Nat) :=
  if !a.placed then []
  else
    let tile : List (Nat × Nat) := (a.loc, 64) :: (List.range ((a.n - 64) / 32)).map (fun k => (a.tileLoc (64 + 32 * k), 32))
    match a.op with
    | .std => [(lineNum a.loc * 128, 128)]
    | .ldd false => [(lineNum a.loc * 128, 128)]
    | .ldt _ _ => tile
    | .stt _ _ _ => tile
    | _ => [(a.loc, a.n)]
/-- The own scratchpad that a tile's rows go to or come from (R208, R209). -/
def Access.inner (a : Access) : List (Nat × Nat) :=
  match a.op with
  | .ldt sp _ => [(sp, a.n - 64)]
  | .stt _ sp _ => [(sp, a.n - 64)]
  | _ => []

def meet (xs ys : List (Nat × Nat)) : Bool := xs.any (fun x => ys.any (fun y => overlap x.1 x.2 y.1 y.2))

/-- Two accesses reach a common byte of one space (R184): through pointers of one tag, or in the scratchpad of a tile's operand b. -/
def Access.clash (a b : Access) : Bool :=
  (ptrTag b.ptr == ptrTag a.ptr && meet b.spans a.spans) || (ptrTag a.ptr == 8 && meet b.inner a.spans) ||
    (ptrTag b.ptr == 8 && meet b.spans a.inner) || meet b.inner a.inner

/-- An LDT's rows hold back no load of the scratchpad they go to, which its key alone orders after it (R208). -/
def Access.keyedOnly (a b : Access) : Bool :=
  (match b.op with | .ldt _ _ => true | _ => false) && a.op.cls == .load && a.mode == .scratch

/-- An earlier access of the same thread to overlapping bytes of one space that is not done; a queued store does not hold back a load of
core scope, which sees it (R184, R185). -/
def State.heldByOwn (s : State) (a : Access) : Bool :=
  !a.isRead && s.accs.any (fun b => decide (b.t = a.t) && decide (b.id < a.id) && !b.isRead && b.op.cls != .lines &&
    b.grp != a.grp && b.phase != .visible && a.clash b && !(a.keyedOnly b) &&
    !(a.op.cls == .load && a.scope == 0 && b.phase == .coreDone))

/-- A store of which some part lies in memory already and some does not: an STT under way, a tile row of 32 bytes between its halves (R186,
R209). -/
def Access.halfDone (b : Access) : Bool :=
  b.begun && (match b.op with
    | .stt _ _ _ => b.phase == .accepted
    | _ => b.op.cls == .store && b.n == 32 && (b.phase == .accepted || b.phase == .coreDone))
/-- An LDT follows an STT .aon by the tile's version, not by its performance (R170). -/
def Access.byVersion (a b : Access) : Bool :=
  (match a.op with | .ldt _ _ => true | _ => false) && (match b.op with | .stt true _ _ => true | _ => false)

/-- A load or an atomic returns a store only once that has performed at its scope (R175, R191): queued stores of the access's core to its
bytes, which an atomic follows, and a load wider than core scope; at fabric scope and wider a store of any core that still gathers markers;
and a store of which only a part is in memory. -/
def State.heldByQueue (s : State) (a : Access) : Bool :=
  !a.isRead && (a.op.cls == .atomic || a.op.cls == .load) && s.accs.any (fun b => b.id != a.id &&
    ((b.t.core == a.t.core && b.phase == .coreDone && (a.op.cls == .atomic || a.scope != 0)) ||
     (decide (a.scope ≥ 4) && b.phase == .visible) ||
     (b.halfDone && !(a.byVersion b) && !(a.op.cls == .load && a.scope == 0 && b.t.core == a.t.core && b.phase == .coreDone))) &&
    meet b.spans a.spans)

/-- The same for bytes that an engine of the core reads (R175, R191). -/
def State.readHeld (s : State) (core scope loc n : Nat) : Bool :=
  s.accs.any (fun b => ((b.t.core == core && b.phase == .coreDone && scope != 0) || (decide (scope ≥ 4) && b.phase == .visible) ||
      (b.halfDone && !(scope == 0 && b.t.core == core && b.phase == .coreDone))) && meet b.spans [(loc, n)])

/-- An earlier access of a thread, through a pointer of the same space, to some of the bytes that an instruction of it is about to reach at a
location is not done (R17, R184); a read sees the stores in the queue of its core. -/
def State.ownBefore (s : State) (t : TRef) (p : DWord) (loc n : Nat) (write : Bool) : Bool :=
  s.accs.any (fun b => decide (b.t = t) && !b.isRead && b.op.cls != .lines && b.phase != .visible && (write || b.phase != .coreDone) &&
    ((ptrTag b.ptr == ptrTag p && meet b.spans [(loc, n)]) || (ptrTag p == 8 && meet b.inner [(loc, n)])))

/-- A store that stands before the access in its core's queue, to overlapping bytes: the queue drains in order (R175). The queued stores of
a core stand in `accs` in the order in which they entered; an STT, which is never queued, follows them all. -/
def State.heldByDrain (s : State) (a : Access) : Bool :=
  let ahead := if a.phase == .coreDone then s.accs.takeWhile (fun b => b.id != a.id) else s.accs.filter (fun b => b.id != a.id)
  ahead.any (fun b => b.grp != a.grp && b.t.core == a.t.core && b.phase == .coreDone && meet b.spans a.spans)

/-- An STT .aon, of another number than `id`, holds the header line of a location against writes (R170). -/
def State.tileHolds (s : State) (id loc : Nat) : Bool :=
  s.accs.any (fun b => b.id != id && (match b.op with | .stt true _ _ => true | _ => false) && b.begun &&
    b.phase == .accepted && lineNum b.loc == lineNum loc)
/-- Another STT .aon holds a header line that the access would write (R170). -/
def State.heldByTile (s : State) (a : Access) : Bool :=
  a.op.cls != .load && (match a.op with
    | .stt _ _ _ => (a.tileLines a.len).any (fun l => s.tileHolds a.id (l * 128))
    | _ => s.tileHolds a.id a.loc)

/-- A scratchpad range in flight overlaps the access (R163). -/
def State.heldByRange (s : State) (a : Access) : Bool :=
  a.mode == .scratch && s.rangeHeld ((a.loc / 2 ^ 64) / 8) a.loc a.n

/-- The access may bind or perform, as far as keys, its own thread and the scoreboard go. -/
def State.accDue (s : State) (a : Access) : Bool :=
  s.allPerformed a.waits a.scope && !(s.heldByOwn a) && !(s.heldByRange a) && !(s.heldByQueue a)

/-- The simultaneous stores or atomics of the access's issue group on its line, in order of slot and lane (R216); a load,
and an operation of several lines, stands alone. -/
def State.groupSet (s : State) (a : Access) : List Access :=
  match a.op with
  | .stt _ _ _ => [a]
  | _ =>
    match a.op.cls with
    | .store => s.accs.filter (fun b => b.grp == a.grp && b.op.cls == .store && lineNum b.loc == lineNum a.loc)
    | .atomic => s.accs.filter (fun b => b.grp == a.grp && b.op.cls == .atomic && lineNum b.loc == lineNum a.loc)
    | _ => [a]

/-- Another access of the issue group has not been accepted yet, so the set is not complete (R216). -/
def State.groupOpen (s : State) (a : Access) : Bool :=
  s.accs.any (fun b => b.grp == a.grp && decide (b.pc = a.pc) && (b.phase == .sent || b.phase == .translating || b.phase == .resolved .ok)
    && globPage b.gaddr == globPage a.gaddr && b.op.cls == a.op.cls && b.mode != .scratch && a.op.cls != .load)

/-! ## Reading memory -/

/-- Memory with a store applied: its bytes, or the update of its line (R205, R207). -/
def Access.storeTo (m : List Host.Cell) (a : Access) : List Host.Cell :=
  match a.op with
  | .std =>
    let base := lineNum a.loc * 128
    Memory.writeN base (stdLine (Memory.readN m base 128) (a.loc % 128) a.data) m
  | _ => Memory.writeN a.loc a.data m

/-- The stores in a core's queue that reach n bytes at a location, in order. -/
def State.queued (s : State) (core loc n : Nat) : List Access :=
  s.accs.filter (fun b => b.t.core == core && b.phase == .coreDone && meet b.spans [(loc, n)])

/-- The bytes at a location as the access's core sees them: with the stores of its own queue (R174, R175). -/
def State.seen (s : State) (core loc n : Nat) : List Byte :=
  Memory.readN ((s.queued core loc n).foldl Access.storeTo s.mem) loc n

/-- L1 after a load has read at a location from L2 or beyond (R164, R165): of a load wider than core scope the line replaces a copy; it
enters as a new one unless the policy says no L1. A load of core scope refreshes no copy: one that it was not served from leaves L1, since
no later load of its thread may read older bytes from it (R185; log 91, DEDUCED). -/
def fillL1 (a : Access) (loc : Nat) (s : State) : State :=
  match a.mode with
  | .scratch => s
  | .remote _ => s
  | _ =>
    let line := lineNum loc
    let has := (s.core a.t.core).l1.any (isLine a.ctx line)
    if has && a.scope == 0 then s.modCore a.t.core (Core.l1Drop (isLine a.ctx line))
    else if has || a.policy != 3 then
      s.modCore a.t.core (Core.l1Fill a.ctx line (s.seen a.t.core (line * 128) 128) s.clock a.policy)
    else s

/-- What n bytes at a location held before some of the stores since a cycle, the `k` last ones (R168). -/
def State.pastRead (s : State) (since loc n k : Nat) : List Byte :=
  let es := (s.past.filter (fun e => decide (since ≤ e.1) && overlap e.2.1 e.2.2.length loc n)).reverse
  (es.take (k % (es.length + 1))).foldl (fun bs e =>
    (List.range n).map (fun i => if e.2.1 ≤ loc + i then (e.2.2[loc + i - e.2.1]?).getD (bs.getD i 0) else bs.getD i 0)) (s.readBytes loc n)

/-- The cycle in which the task of a thread started (R168). -/
def State.taskStart (s : State) (t : TRef) : Option Nat :=
  ((s.thread? t).bind s.gangOf).bind (fun g => (s.tasks.find? (fun x => x.num == g.task)).map (·.started))

/-- The source of a page that a decoding access takes its format from (R169). -/
def State.fmtOf (s : State) (ctx : Nat) (g : DWord) : Nat :=
  match attrOf (s.attrEntry ctx (globPage g)) with | some a => a.fmt | none => 0

/-! ## Failure after acceptance (R201) -/

/-- An accepted access fails: its registers are marked faulted, its key is faulted, and a store or RED without a key is
reported in the log. Its destination predicate keeps its value (log 94, DESIGN CHOICE). -/
def failAccess (id : Nat) (c : Cause) (s : State) : State :=
  match s.acc? id with
  | none => s
  | some a =>
    let s := s.modThread a.t (fun th =>
      if th.tracked.any (fun x => x.id == id) then
        { th with tracked := th.tracked.filter (fun x => x.id != id),
                  marks := a.regs.map (fun r => (r, c)) ++ th.marks.filter (fun m => !(a.regs.contains m.1)) }
      else th)
    let s := if a.pk = 0 && (a.op.cls == .store || (match a.op with | .atom false _ _ _ => true | _ => false)) then
      s.log 0x06 a.die a.ctx (causeCode c) a.gaddr.toNat (a.t.core) else s
    settle ((s.failOp id c 0).dropAcc id)

/-- ACCESS_FAILURE (R201). -/
def execAccessFailure (id : Nat) (cause : Cause) (s : State) : Host.Outcome State Fault Refusal :=
  .next (match s.acc? id with
    | some a => if a.phase = .accepted ∨ a.phase = .coreDone then failAccess id cause s else s
    | none => s)

/-- The loss that an access meets at its home: a lost pool segment (R363), a lost module (R368). -/
def State.lossOf (s : State) (a : Access) : Option Cause :=
  match a.mode with
  | .pool seg => match s.tabs.segs.find? (fun g => g.seg == seg) with
    | some g => if g.lost then some .poolLost else none
    | none => some .poolLost
  | .remote dev => if s.ext.modules.any (fun m => m.dev == dev && m.lost) then some .coherenceLost else none
  | .direct | .cached =>
    let dev := devOfLoc a.loc
    if dev != s.device && s.ext.modules.any (fun m => m.dev == dev && m.lost) then some .coherenceLost else none
  | _ => none

/-! ## Lines held elsewhere -/

/-- Whether the agent that serves an access of die `die` at a location holds its line: the die's L2 its tokens (R339, R341), the
host bridge the host line (R358), the pool bridge the pool line (R361). What is missing is asked for. -/
def lineHeld (mode : AccMode) (die loc : Nat) (who : Asker) (write : Bool) (s : State) : State × Bool :=
  match mode with
  -- a page being moved serves reads from the source at its home (R349)
  | .cached => if !write && s.heldByMove loc then (s, true) else demandLines (.l2 die) [lineNum loc] write who s
  | .host =>
    let l := loc / 64
    match s.ext.hostCache.find? (fun x => x.line == l) with
    | some x => if x.own || !write then (s, true) else (s.postOnce (.hostLineFetch l true), false)
    | none => ((askBridge l who.ctx s).postOnce (.hostLineFetch l write), false)
  | .pool _ =>
    let l := lineNum loc
    match s.ext.poolCache.find? (fun x => x.line == l) with
    | some x => if x.own || !write then (s, true) else (s.postOnce (.poolLineFetch l), false)
    | none => ((askBridge l who.ctx s).postOnce (.poolLineFetch l), false)
  -- a half that the host may have changed is read once its data has come (R357)
  | .direct => if !write && s.hostHolds (lineNum loc) then snoopData (lineNum loc) s else (s, true)
  | _ => (s, true)

/-- For whom an access asks. -/
def Access.asker (a : Access) : Asker := ⟨a.id, a.policy, a.ctx⟩
def lineReady (a : Access) (write : Bool) (s : State) : State × Bool := lineHeld a.mode a.die a.loc a.asker write s

/-- An access or an agent of a die reaches n bytes of a line: one that the host holds is served at the bridge (R357), another by the
die (R341). -/
def agentLine (mode : AccMode) (die loc n : Nat) (who : Asker) (write : Bool) (s : State) : State × Bool :=
  if (mode = .cached ∨ mode = .direct) ∧ s.hostHolds (lineNum loc) = true then
    (if write then snoopInv loc n s else snoopData (lineNum loc) s)
  else
    let x := lineHeld mode die loc who write s
    if mode = .host ∧ loc / 64 ≠ (loc + n - 1) / 64 then
      let y := lineHeld mode die (loc + n - 1) who write x.1
      (y.1, x.2 && y.2)
    else x

/-- The line that an agent has reached is still held as `agentLine` left it (R339, R355, R358, R361). -/
def State.lineHere (s : State) (mode : AccMode) (die loc n : Nat) (write : Bool) : Bool :=
  let line := lineNum loc
  let host (l : Nat) : Bool := s.ext.hostCache.any (fun x => x.line == l && (x.own || !write))
  if (mode = .cached ∨ mode = .direct) ∧ s.hostHolds line = true then
    (if write then (halvesAt loc n).all (fun h => s.hostHalf line h == .invalid) else !(s.hostOwns (line * 128) 128))
  else match mode with
  | .cached => (s.tokens line).may (.l2 die) write || (!write && s.heldByMove loc)
  | .host => host (loc / 64) && host ((loc + n - 1) / 64)
  | .pool _ => s.ext.poolCache.any (fun x => x.line == line && (x.own || !write))
  | _ => true

/-- A write of die `die` has changed a line: the copy of the holder that made it, the die's L2 or the host bridge, is dirty (R339, R357, R358,
R361). -/
def dirtyAt (mode : AccMode) (die loc : Nat) (s : State) : State :=
  match mode with
  | .cached =>
    let t := s.tokens (lineNum loc)
    let h : Holder := if t.count .hostBridge > 0 then .hostBridge else .l2 die
    if t.count h > 0 then s.setTokens (t.soil h) else s
  | .host => { s with ext := { s.ext with hostCache := s.ext.hostCache.map (fun x =>
      if x.line = loc / 64 then { x with dirty := true } else x) } }
  | .pool _ => { s with ext := { s.ext with poolCache := s.ext.poolCache.map (fun x =>
      if x.line = lineNum loc then { x with dirty := true } else x) } }
  | _ => s

def markDirty (a : Access) (s : State) : State := dirtyAt a.mode a.die a.loc s

/-! ## Binding and performing -/

/-- Whether a point lies on another module: what performs there gathers markers of its Afrik path for fabric scope and wider (R176). -/
def Access.away (a : Access) (device : Nat) : Bool :=
  match a.mode with
  | .remote _ => true
  | .direct => devOfLoc a.loc != device
  | .cached => devOfLoc a.loc != device
  | _ => false

/-- A read or an atomic is done where it executes (R174, R176): it has performed, but for the scopes whose markers are still to be
gathered on an Afrik path. -/
def performed (a : Access) (s : State) : State :=
  if a.away s.device then ((s.performAt a.id 3).dropAcc a.id).post (.storePerform a.id 6) else (s.performAt a.id 6).dropAcc a.id

/-- A load binds the bytes `bs` (R174, R202): its registers receive them, it performs at every scope. -/
def bindLoad (a : Access) (bs : List Byte) (s : State) : State :=
  let out (ws : List Word) (s : State) : State :=
    settle ((knownResult a (((List.range ws.length).map (fun i => (a.d + i, ws.getD i 0))).filter (fun x => x.1 < 255))
      (if a.rz then [(a.pd, false)] else []) s |> performed a))
  match a.op with
  | .ld sx => out (loadWords a.n sx bs) s
  | .ldr sx => out (loadWords a.n sx bs) s
  | .chseq => out (loadWords a.n false bs) s
  | .ldd fp8 =>
    let F := if fp8 then some (if s.fmtOf a.ctx a.gaddr = 3 then Fmt.e5m2 else Fmt.e4m3) else none
    let line := s.seen a.t.core (lineNum a.loc * 128) 128
    let r := lddWords F line (a.loc % 128)
    setFmterr a.t.core r.2 (out r.1 s)
  | _ => s

/-- One 16-byte half of a tile-row access (R186). -/
def Access.half (h : Nat) (a : Access) : Access :=
  match a.op with
  | .std => a
  | _ => { a with loc := a.loc + 16 * h, n := 16, data := (a.data.drop (16 * h)).take 16 }

/-- Chooses the half of a tile row that goes first; the other follows (R186). -/
def firstHalf (ids : List Nat) (s : State) : Nat × State :=
  let (n, s) := s.choice
  let h := Config.unitOrder n % 2
  (h, { s with accs := s.accs.map (fun a => if ids.contains a.id then { a with begun := true, units := [1 - h] } else a) })

/-- A load binds bytes that it finds at its place; a tile row's halves are bound one after the other, each whole (R186). -/
def bindBytes (a : Access) (bs : List Byte) (s : State) : State :=
  if a.n ≠ 32 then bindLoad a bs s
  else if !a.begun then
    let (h, s) := firstHalf [a.id] s
    (s.modAcc a.id (fun a => { a with data := (bs.drop (16 * h)).take 16 })).post (.loadBind a.id)
  else
    let h := a.units.headD 0
    let part := (bs.drop (16 * h)).take 16
    bindLoad a (if h = 0 then part ++ a.data else a.data ++ part) s

/-- A store is applied where it performs (R176): to its bytes, or its line. A scratchpad of another module lies outside the model's
memory (log 17, DESIGN CHOICE). -/
def applyStore (a : Access) (s : State) : State :=
  match a.mode with
  | .remote _ => s
  | _ => markDirty a { s with mem := a.storeTo s.mem, past := s.pastAfter (lineNum a.loc * 128) 128 }

/-- The runs of bytes that a store writes within its line: of an STD the elements, the scale, the version and the check (R66, R207). -/
def Access.writes (a : Access) : List (Nat × Nat) :=
  let base := lineNum a.loc * 128
  match a.op with
  | .std => [(a.loc, 4), (base + 96 + a.loc % 128 / 4, 1), (base + 120, 2), (base + 126, 2)]
  | _ => [(a.loc, a.n)]

/-- The L1 copy of the bytes of a store becomes what the core now sees of them (R164). -/
def l1Update (a : Access) (s : State) : State :=
  match a.mode with
  | .scratch => s
  | .remote _ => s
  | _ => a.writes.foldl (fun s w => s.modCore a.t.core (Core.l1Store w.1 (s.seen a.t.core w.1 w.2))) s

/-- A store is visible in the module (R176): it has performed at device scope, and its markers follow. -/
def madeVisible (a : Access) (s : State) : State :=
  ((s.performAt a.id 3).modAcc a.id (fun a => { a with phase := .visible })).post (.storePerform a.id 6)

/-- An atomic executes at its point: it binds its value and its store is visible in one step (R174, R212). -/
def applyAtom (a : Access) (s : State) : State :=
  match a.op with
  | .atom ret cas op ty =>
    let (n, s) := s.choice
    let there : List Byte := match a.mode with
      | .remote _ => (List.range a.n).map (fun i => Config.openByte (64 * n + i))
      | _ => s.readBytes a.loc a.n
    let old : DWord := BitVec.ofNat 64 (leValue there)
    let v : DWord := BitVec.ofNat 64 (leValue a.data)
    let new := if cas then (if old = v then BitVec.ofNat 64 (leValue a.data2) else old) else atomValue op ty old v
    let s := match a.mode with
      | .remote _ => s
      | _ => s.writeBytes a.loc (bytesOf a.n new.toNat)
    let s := match a.mode with
      | .scratch => s
      | .remote _ => s
      | _ => s.modCore a.t.core (Core.l1Drop (fun l => l.addr == lineNum a.loc))
    let s := markDirty a s
    let s := if ret then knownResult a (((List.range ((a.n + 3) / 4)).map (fun i =>
      (a.d + i, BitVec.ofNat 32 (old.toNat / 2 ^ (32 * i))))).filter (fun x => x.1 < 255)) [] s else s
    performed a s
  | _ => s

/-- Something of the access's gang performed (R328). -/
def progressAcc (a : Access) (s : State) : State :=
  match s.ops.find? (fun o => o.id == a.id) with | some o => s.progress o.gang | none => s

/-- An atomic that is due executes with the simultaneous ones of its group (R216); a poisoned line fails it (R327). -/
def runAtoms (as : List Access) (s : State) : State :=
  settle (as.foldl (fun s a =>
    match s.lossOf a, s.poisonOf a.loc a.n with
    | some c, _ => failAccess a.id c s
    | none, some c => failAccess a.id c s
    | none, none =>
      if a.mode = .scratch ∧ s.badScratch ((a.loc / 2 ^ 64) / 8) a.loc a.n = true then failAccess a.id .poison s
      else applyAtom a (progressAcc a s)) s)

/-- The event at which an accepted atomic executes (R187); a private one as the page's mode and its scope say. -/
def atomEvent (device : Nat) (a : Access) : Instr :=
  match a.mode with
  | .scratch => .loadBind a.id
  | .host => .bridgeAtomic a.id
  | .pool _ => .bridgeAtomic a.id
  | .remote _ => .loadBind a.id
  | .cached => if a.scope ≤ 2 && devOfLoc a.loc == device then .loadBind a.id else .hearthAtomic a.id
  | .direct => .hearthAtomic a.id

/-- Whether an atomic, with the simultaneous ones, may execute. -/
def State.atomsDue (s : State) (a : Access) : Bool :=
  !(s.groupOpen a) && (s.groupSet a).all (fun b => b.phase == .accepted && s.accDue b) && !(s.heldByMove a.loc) && !(s.heldByTile a)

/-! ## Tiles (R208, R209) -/

/-- tile.len and tile.ver of a header, as a core sees it (R170). -/
def tileLen (s : State) (core loc : Nat) : Nat := leValue (s.seen core (loc + 4) 2)
def tileVer (s : State) (core loc : Nat) : Nat := leValue (s.seen core loc 4)

/-- What steps 1–4 of R299 say about the last page of a tile's rows, where it is not one that the access has placed, and what a pool segment
says about the last byte of the rows in any case (R360). -/
def tileLast (s : State) (a : Access) (len : Nat) : Option (Nat × Resolved) :=
  let last := a.gaddr + BitVec.ofNat 64 (64 + 32 * len - 1)
  let v := s.resolve a.ctx last 1 a.op.want anyFmt
  if !(a.pages.any (fun p => p.1 == globPage last)) then some (globPage last, v)
  else match s.homeOf a.ctx last, v with
  | some (.pool _ _), .space => some (globPage last, v)
  | some (.pool _ _), .poolLost => some (globPage last, v)
  | _, _ => none

/-- The next of the units still to be moved, in no stated order (R186, R209). -/
def nextUnit (a : Access) (s : State) : Option (Nat × State) :=
  let (n, s) := s.choice
  (a.units[Config.unitOrder n % a.units.length]?).map (fun u => (u, s))

/-- The handle check of a tile's rows (R159, R208): the cause that a handle raises for n bytes from its offset on. -/
def State.tileHandle (s : State) (a : Access) (n : Nat) : Option Cause :=
  match decodePtr a.ptr with
  | some (.handle i gen off) =>
    match s.checkHandle a.ctx i gen off n (if a.op.cls = .load then .read else .write) with
    | .error c => some c
    | .ok _ => none
  | _ => none

/-- A tile's access reaches n bytes at a location, byte `k` of the tile: the agent that serves the line holds it, and the byte's channel is
known (R158); else it comes back. -/
def tileReach (a : Access) (k n : Nat) (write : Bool) (again go : State → State) (s : State) : State :=
  let loc := a.tileLoc k
  match (if write then none else s.poisonOf loc n) with
  | some c => failAccess a.id c s
  | none =>
    let (s, ok) := agentLine a.mode a.die loc n a.asker write s
    if ok then go (s.modAcc a.id (fun x => { x with channel := s.channelAt a.ctx a.ptr a.gaddr k loc })) else again s

/-- One step of an LDT (R208): an attempt reads the header, copies the rows one 16-byte half at a time, and reads the version again. From the
first attempt's header on, a tile.len that is 0, above 2,048, beyond the allocation or the buffer, and rows on a page that is not resident,
end it with the predicate false (log 80, DESIGN CHOICE). -/
def ldtStep (a : Access) (sp lim : Nat) (s : State) : State :=
  let done (ok : Bool) (s : State) : State := settle (performed a (knownResult a [] [(a.pd, ok)] s))
  let retry (s : State) : State := s.post (.loadBind a.id)
  let again (f : Access → Access) (s : State) : State := retry (s.modAcc a.id f)
  if !a.begun then tileReach a 0 8 false retry (fun s =>
    let head := s.seen a.t.core a.loc 8
    let len := leValue ((head.drop 4).take 2)
    let start (ps : List (Nat × Nat)) (s : State) : State :=
      again (fun a => { a with begun := true, ver := leValue (head.take 4), len := len, n := 64 + 32 * len, units := List.range (2 * len),
                               pages := a.pages ++ ps }) (fillL1 a a.loc s)
    if len = 0 ∨ len > 2048 ∨ sp + 32 * len > lim ∨ (s.tileHandle a (64 + 32 * len)).isSome = true then done false s
    else match tileLast s a len with
    | none => start [] s
    | some (page, .ok p) => start [(page, p.base)] (countMigration a.ctx page p s)
    | some _ => done false s) s
  else match nextUnit a s with
  | some (u, s) => tileReach a (64 + 16 * u) 16 false retry (fun s =>
      let loc := a.tileLoc (64 + 16 * u)
      let row := s.seen a.t.core loc 16
      again (fun a => { a with units := a.units.erase u }) (fillL1 a loc (s.writeBytes (sp + 16 * u) row))) s
  | none => tileReach a 0 8 false retry (fun s =>
      let same := leValue (s.seen a.t.core a.loc 4) == a.ver && a.ver % 2 == 0
      let s := fillL1 a a.loc s
      if same then done true s
      else if a.tries + 1 ≥ 8 then done false s
      else again (fun a => { a with tries := a.tries + 1, begun := false }) s) s

/-! ## The events -/

/-- A load of core scope may be served from a line that L1 holds (R164). -/
def fromL1 (a : Access) (n : Nat) (s : State) : Option (List Byte) :=
  match (s.core a.t.core).l1.find? (isLine a.ctx (lineNum a.loc)) with
  | none => none
  | some l =>
    let ok := match a.op with
      | .ld _ => a.scope == 0 && Config.l1Serve n
      | _ => false
    if ok && a.policy != 3 then some ((l.bytes.drop (a.loc % 128)).take a.n) else none

/-- A load may bind: a cached one reads with at least one token of its die's L2; an LDR returns what its bytes held at some moment since its
task started (R168); one of another module's scratchpad yields open bytes (log 17, DESIGN CHOICE). -/
def bindDue (a : Access) (s : State) : State :=
  match s.lossOf a with
  | some c => failAccess a.id c s
  | none =>
    let core := (a.loc / 2 ^ 64) / 8
    match s.poisonOf a.loc a.n with
    | some c => failAccess a.id c s
    | none =>
      match a.mode with
      | .scratch => if s.badScratch core a.loc a.n then failAccess a.id .poison s else bindBytes a (s.readBytes a.loc a.n) s
      | .remote _ =>
        let (n, s) := s.choice
        bindLoad a ((List.range a.n).map (fun i => Config.openByte (64 * n + i))) s
      | _ =>
        let (n, s) := s.choice
        match fromL1 a n s with
        | some bs => bindBytes a bs s
        | none =>
          let (s, ok) := lineReady a false s
          if !ok then s.post (.loadBind a.id)
          else if a.isRead then bindBytes a (s.pastRead ((s.taskStart a.t).getD s.clock) a.loc a.n (Config.ldrBack n)) s
          else bindBytes a (s.seen a.t.core a.loc a.n) (fillL1 a a.loc s)

/-- An .rz load of an absent page binds zeros, with the flag true, at every scope (R202, R203). -/
def bindZeros (a : Access) (s : State) : State :=
  settle (((knownResult a (a.regs.map (fun r => (r, 0))) [(a.pd, true)] s).performAt a.id 6).dropAcc a.id)

/-- What steps 1–4 of R299 say about the byte at a global address, or in a thread's private space, of an access's range. -/
def State.resolveByte (s : State) (a : Access) (g : Nat) : Resolved :=
  match decodePtr a.ptr with
  | some (.priv _) => s.resolvePriv a.ctx a.priv (g % 2 ^ 40) rightsR
  | _ => s.resolve a.ctx (BitVec.ofNat 64 g) 1 rightsR anyFmt

/-- The lines of the pages resident in the n bytes from an access's address on, with their places; lines of other pages are skipped
(R213, R214), and so are those of a page whose home has no translation of it (log 40, DEDUCED). -/
def rangeLines (s : State) (a : Access) (n : Nat) : List (Nat × Placed) :=
  if n = 0 then []
  else
    let first := a.gaddr.toNat / 128
    let last := (a.gaddr.toNat + n - 1) / 128
    (List.range (last - first + 1)).filterMap (fun k =>
      match s.resolveByte a (128 * (first + k)) with
      | .ok p => some (lineNum (p.base + 128 * (first + k) % 65536), p)
      | _ => none)

/-- The pages of a range after its first, whose accesses their homes count as well (R157). -/
def countRange (a : Access) (len : Nat) (s : State) : State :=
  let first := globPage a.gaddr
  (List.range ((a.gaddr.toNat + len - 1) / 65536 - first)).foldl (fun s k =>
    match s.resolveByte a ((first + 1 + k) * 65536) with
    | .ok p => countMigration a.ctx (first + 1 + k) p s
    | _ => s) s

/-- Lines of a range by what holds them in place of L2 or in it: host memory, pool, cached-mode lines (R358, R361). -/
def Placed.isHost (p : Placed) : Bool := p.base / 2 ^ 64 % 8 == 2
def Placed.isPool (p : Placed) : Bool := p.base / 2 ^ 64 % 8 == 3
def Placed.isCached (p : Placed) : Bool := !p.isHost && !p.isPool && p.attr.mode != 0

/-- PREF (R213): true when every line that is not skipped is held; missing lines are asked for (log 40, DEDUCED). -/
def prefetch (a : Access) (len : Nat) (s : State) : State × Bool :=
  let ls := rangeLines s a len
  let last : Option Nat := ls.getLast?.bind (fun x => s.channelAt a.ctx a.ptr a.gaddr (len - 1) (x.1 * 128))
  let s := if a.begun then s else countRange a len (s.modAcc a.id (fun a => { a with begun := true, channel := last }))
  let (s, ok) := demandLines (.l2 a.die) ((ls.filter (fun x => x.2.isCached && !(s.hostHolds x.1))).map (·.1)).eraseDups false a.asker s
  let hs := (ls.filter (·.2.isHost)).flatMap (fun x => [2 * x.1, 2 * x.1 + 1])
  let hs := hs.filter (fun l => !(s.ext.hostCache.any (fun x => x.line == l)))
  let ps := ((ls.filter (·.2.isPool)).map (·.1)).filter (fun l => !(s.ext.poolCache.any (fun x => x.line == l)))
  let s := hs.foldl (fun s l => (askBridge l a.ctx s).postOnce (.hostLineFetch l false)) s
  let s := ps.foldl (fun s l => (askBridge l a.ctx s).postOnce (.poolLineFetch l)) s
  (s, ok && hs.isEmpty && ps.isEmpty)

/-- CCTL (R214): drops L1 copies, writes dirty data back, or evicts lines from the die's L2, or from the host-line cache or the
pool bridge's buffer in its place (R358, R361). -/
def cacheControl (a : Access) (op len : Nat) (s : State) : State :=
  let ls := rangeLines s a len
  let lines := ls.map (·.1)
  let cached := (ls.filter (·.2.isCached)).map (·.1)
  match op with
  | 0 => s.modCore a.t.core (Core.l1Drop (fun l => lines.contains l.addr))
  | 1 => s.modCore a.t.core (Core.l1Drop (fun _ => true))
  | 2 =>
    let s := cached.foldl (fun s l =>
      let t := s.tokens l
      if t.count (.l2 a.die) = 0 then s else s.setTokens (t.setHold { t.hold (.l2 a.die) with dirty := false })) s
    writeBackPool (fun l => lines.contains l) (writeBackHost (fun l => lines.contains (l / 2)) s)
  | _ =>
    let s := cached.foldl (fun s l => evictLine a.die l s) s
    let hosts := (ls.filter (·.2.isHost)).map (·.1)
    let pools := (ls.filter (·.2.isPool)).map (·.1)
    releasePool (fun l => pools.contains l) (writeBackPool (fun l => pools.contains l) (releaseHost (fun l => hosts.contains (l / 2)) s))

/-- LOAD_BIND (R174, R202): an accepted load binds its value; an atomic of a scratchpad unit or an L2 slice executes (R187);
an LDT makes its next attempt; a PREF has its lines (log 10, DESIGN CHOICE) (log 11, DESIGN CHOICE). -/
def execLoadBind (id : Nat) (s : State) : Host.Outcome State Fault Refusal :=
  match s.acc? id with
  | none => .next s
  | some a =>
    if a.phase ≠ .accepted then .next s
    else match a.op with
    | .atom _ _ _ _ =>
      if !(s.atomsDue a) then .next (s.post (.loadBind id))
      else
        let (s, ok) := lineReady a true s
        .next (if ok then runAtoms (s.groupSet a) s else s.post (.loadBind id))
    | .ldt sp lim =>
      if !(s.accDue a) || s.rangeHeld a.t.core sp (a.n - 64) then .next (s.post (.loadBind id))
      else match s.lossOf a with
      | some c => .next (failAccess id c s)
      | none => .next (ldtStep a sp lim s)
    | .pref len =>
      if !(s.accDue a) then .next (s.post (.loadBind id)) else
      let (s, ok) := prefetch a len s
      .next (if ok then settle ((s.performAt id 6).dropAcc id) else s.post (.loadBind id))
    | .cctl op len =>
      if !(s.accDue a) then .next (s.post (.loadBind id))
      else .next (settle (((cacheControl a op len s).performAt id 6).dropAcc id))
    | _ =>
      if !(s.accDue a) then .next (s.post (.loadBind id))
      else if a.placed then .next (bindDue a s)
      else .next (bindZeros a s)

/-- The stores of a set are applied: of tile rows one half of each, and the other in a later step (R186). `done` gives what follows when
all of them are, `again` what brings the later step about. -/
def applySet (as : List Access) (again : State → State) (done : Access → State → State) (s : State) : State :=
  match as with
  | [] => s
  | a :: _ =>
    if a.n ≠ 32 then as.foldl (fun s b => done b (applyStore b s)) s
    else if a.begun then as.foldl (fun s b => done b (applyStore (b.half (b.units.headD 0)) s)) s
    else
      let (h, s) := firstHalf (as.map (·.id)) s
      again (as.foldl (fun s b => applyStore (b.half h) s) s)

/-- A store enters its core's store queue, behind those that stand in it. -/
def enterQueue (id : Nat) (s : State) : State :=
  { s with accs := s.accs.filter (fun a => a.id != id) ++
      (s.accs.filter (fun a => a.id == id)).map (fun (a : Access) => { a with phase := .coreDone }) }

/-- Stores of a set enter the store queue, and so perform at core scope; scratchpad stores are done (R176). -/
def queueStores (as : List Access) (s : State) : State :=
  settle (match as with
  | [] => s
  | a :: _ => match a.mode with
    | .scratch => applySet as (State.post (.storePerform a.id 0)) (fun b s => ((progressAcc b s).performAt b.id 6).dropAcc b.id) s
    | .remote _ => as.foldl (fun s b => madeVisible b (progressAcc b s)) s
    | _ => as.foldl (fun s b =>
        let s := (enterQueue b.id s).performAt b.id 0
        (l1Update b s).post (if b.mode = .direct then .maskedWrite b.id else .storePerform b.id 3)) s)

/-- Stores of a set are applied by event `e`, and so perform at cluster scope and the wider ones of the module (R176). -/
def drainStores (e : Instr) (as : List Access) (s : State) : State :=
  let lost := as.filter (fun a => (s.lossOf a).isSome)
  let s := lost.foldl (fun s a => match s.lossOf a with | some c => failAccess a.id c s | none => s) s
  settle (applySet (as.filter (fun a => !(lost.any (fun b => b.id == a.id)))) (State.post e)
    (fun a s => l1Update a (madeVisible a s)) s)

/-- Whether the stores of a set may be applied to memory. -/
def State.drainDue (s : State) (a : Access) : Bool :=
  (s.groupSet a).all (fun b => b.phase == .coreDone && !(s.heldByDrain b)) && !(s.heldByMove a.loc) && !(s.heldByTile a)

/-- Bytes that an STT writes at a location of its tile; an L1 copy becomes what the core now sees of them, its queue included (R164, R185). -/
def tileWrite (a : Access) (loc : Nat) (bs : List Byte) (s : State) : State :=
  let s := s.writeBytes loc bs
  dirtyAt a.mode a.die loc (s.modCore a.t.core (Core.l1Store loc (s.seen a.t.core loc bs.length)))

/-- One step of an STT (R170, R209): with .aon it holds the header line and writes an odd version first and the even one last; between, the
rows go out one 16-byte unit at a time (R186). -/
def sttStep (a : Access) (aon : Bool) (sp : Nat) (s : State) : State :=
  let retry (s : State) : State := s.post (.storePerform a.id 0)
  let bump (s : State) : State := tileWrite a a.loc (bytesOf 4 (leValue (s.readBytes a.loc 4) + 1)) s
  if aon && !a.begun then tileReach a 0 4 true retry (fun s => retry ((bump s).modAcc a.id (fun a => { a with begun := true }))) s
  else match nextUnit a s with
  | some (u, s) => tileReach a (64 + 16 * u) 16 true retry (fun s =>
      retry ((tileWrite a (a.tileLoc (64 + 16 * u)) (s.readBytes (sp + 16 * u) 16) s).modAcc a.id (fun a =>
        { a with begun := true, units := a.units.erase u }))) s
  | none =>
    if aon then tileReach a 0 4 true retry (fun s => settle (madeVisible a (progressAcc a (bump s)))) s
    else settle (madeVisible a (progressAcc a s))

/-- Whether a step of an STT must wait: for its keys and its thread's earlier accesses, for stores of its core in the queue, for a page
move, for the holder of its header, or for a copy that writes its source (R163, R170, R349). -/
def State.sttHeld (s : State) (a : Access) (sp : Nat) : Bool :=
  !(s.accDue a) || s.heldByDrain a || s.heldByTile a || s.rangeHeld a.t.core sp (a.n - 64) ||
    (a.tileLines a.len).any (fun l => s.heldByMove (l * 128))

/-- Every message that the warp of an operation sent earlier to the same points of another module has been applied there: its flush markers
are gathered (R176, R182). An access that is not due has not been sent. -/
def State.gathered (s : State) (id : Nat) : Bool :=
  match s.ops.find? (fun o => o.id == id) with
  | some o => o.points.all (fun p => s.pointDev p == s.device || !(s.accs.any (fun b => decide (b.id < id) && b.t.core == o.core &&
      b.t.slot == o.slot && b.phase != .visible && s.accDue b && s.ops.any (fun x => x.id == b.id && x.points.contains p))))
  | none => true

/-- STORE_PERFORM (R176): the store enters the store queue (scope 0), becomes visible in the module (scope 3), or has
gathered the markers of the wider scopes (scope 6). An STT .aon that fails once its odd version is written leaves that version (R170, R201;
log 96, DESIGN CHOICE). -/
def execStorePerform (id scope : Nat) (s : State) : Host.Outcome State Fault Refusal :=
  if scope ≥ 6 then
    if !(s.gathered id) then .next (s.post (.storePerform id scope))
    else
      let s := match s.ops.find? (fun o => o.id == id) with | some o => s.progress o.gang | none => s
      let done : Bool := match s.acc? id with | some a => a.phase == .visible | none => false
      .next (settle (if done = true then (s.performAt id 6).dropAcc id else s.performAt id 6))
  else match s.acc? id with
  | none => .next s
  | some a =>
    if scope = 0 then
      if a.phase ≠ .accepted then .next s
      else match a.op with
      | .stt aon sp _ =>
        if s.sttHeld a sp then .next (s.post (.storePerform id 0))
        else match (s.lossOf a).or (if s.badScratch a.t.core sp (a.n - 64) then some .poison else none) with
        | some c => .next (failAccess id c s)
        | none => .next (sttStep a aon sp s)
      | _ =>
        if s.groupOpen a || !((s.groupSet a).all (fun b => b.phase == .accepted && s.accDue b)) then .next (s.post (.storePerform id 0))
        else .next (queueStores (s.groupSet a) s)
    else
      if a.phase ≠ .coreDone then .next s
      else if !(s.drainDue a) then .next (s.post (.storePerform id scope))
      else
        let (s, ok) := lineReady a true s
        .next (if ok || (s.lossOf a).isSome then drainStores (.storePerform id scope) (s.groupSet a) s else s.post (.storePerform id scope))

/-- The halves that a write or an atomic touches are taken from the host (R357): true once it has given them up. -/
def snoopWrites (a : Access) (s : State) : State × Bool :=
  a.writes.foldl (fun (x : State × Bool) w => let y := snoopInv w.1 w.2 x.1; (y.1, x.2 && y.2)) (s, true)

/-- The die of the home of a location, and the module: a message of an access goes there (R155, R347). It is held at a link that sleeps or
trains (R350, R364). -/
def homeHeld (die loc key : Nat) (s : State) : Option State :=
  let k := loc / 2 ^ 64 % 8
  if k = 4 then none
  else if k ≠ 2 ∧ k ≠ 3 ∧ devOfLoc loc ≠ s.device then pathHeld (devOfLoc loc) key s
  else linkHeld die (dieOfLoc loc) key s

/-- MASKED_WRITE (R347): the write is applied whole at the home's slice of a direct-mode line; of a half that the host holds, once the host
has given it up (R357). -/
def execMaskedWrite (id : Nat) (s : State) : Host.Outcome State Fault Refusal :=
  match s.acc? id with
  | none => .next s
  | some a =>
    if a.phase ≠ .coreDone then .next s
    else if !(s.drainDue a) then .next (s.post (.maskedWrite id))
    else match homeHeld a.die a.loc id s with
    | some s => .next (s.post (.maskedWrite id))
    | none =>
      let (s, ok) := snoopWrites a s
      .next (if ok then drainStores (.maskedWrite id) (s.groupSet a) s else s.post (.maskedWrite id))

/-- HEARTH_ATOMIC (R346): with the line recalled, the Hearth or the cellar unit applies the atomic to the frame. -/
def execHearthAtomic (id : Nat) (s : State) : Host.Outcome State Fault Refusal :=
  match s.acc? id with
  | none => .next s
  | some a =>
    if a.phase ≠ .accepted then .next s
    else if !(s.atomsDue a) then .next (s.post (.hearthAtomic id))
    else
      let (s, ok) := if a.mode = .cached then recallLine (lineNum a.loc) a.id s else snoopWrites a s
      .next (if ok then runAtoms (s.groupSet a) s else s.post (.hearthAtomic id))

/-- BRIDGE_ATOMIC (R357, R358, R361): the bridge applies the atomic to a line it owns; of a KZ9 line it first takes the half
that the atomic touches from the host. -/
def execBridgeAtomic (id : Nat) (s : State) : Host.Outcome State Fault Refusal :=
  match s.acc? id with
  | none => .next s
  | some a =>
    if a.phase ≠ .accepted then .next s
    else if !(s.atomsDue a) then .next (s.post (.bridgeAtomic id))
    else match a.mode with
    | .cached =>
      let (s, ok) := snoopWrites a s
      .next (if ok then runAtoms (s.groupSet a) s else s.post (.bridgeAtomic id))
    | _ =>
      let (s, ok) := lineReady a true s
      .next (if ok || (s.lossOf a).isSome then runAtoms (s.groupSet a) s else s.post (.bridgeAtomic id))

/-- BRIDGE_READ_REQUEST (R357): the halves that the host holds in Any become Shared, and the load binds from the data; the
slice keeps no copy. -/
def execBridgeReadRequest (id : Nat) (s : State) : Host.Outcome State Fault Refusal :=
  match s.acc? id with
  | none => .next s
  | some a =>
    if a.phase ≠ .accepted ∨ a.op.cls ≠ .load then .next s
    else if !(s.accDue a) then .next (s.post (.bridgeReadRequest id))
    else
      let (s, ok) := snoopData (lineNum a.loc) s
      if !ok then .next (s.post (.bridgeReadRequest id))
      else match s.poisonOf a.loc a.n with
      | some c => .next (failAccess id c s)
      | none => .next (bindBytes a (s.seen a.t.core a.loc a.n) (fillL1 a a.loc s))

/-- BRIDGE_WRITE_REDIRECT (R357): the slice sends the access as a masked write to the bridge. -/
def execBridgeWriteRedirect (id : Nat) (s : State) : Host.Outcome State Fault Refusal :=
  match s.acc? id with
  | none => .next s
  | some a => if a.phase = .coreDone then .next (s.post (.bridgeMaskedWrite id)) else .next s

/-- BRIDGE_MASKED_WRITE (R357): the bridge takes from the host the halves that the write touches and merges its bytes; the
write performs at every scope. -/
def execBridgeMaskedWrite (id : Nat) (s : State) : Host.Outcome State Fault Refusal :=
  match s.acc? id with
  | none => .next s
  | some a =>
    if a.phase ≠ .coreDone then .next s
    else if !(s.drainDue a) then .next (s.post (.bridgeMaskedWrite id))
    else
      let (s, ok) := snoopWrites a s
      .next (if ok then drainStores (.bridgeMaskedWrite id) (s.groupSet a) s else s.post (.bridgeMaskedWrite id))

end Sys2Proof.Machine
end

