-- ==== Sys2Proof/Machine/Keys.lean ====
section
/-! DEFINITION. The key class 0x9 (R218–R223, R391), and the arrivals that KSEND sends (R181–R183). -/

namespace Sys2Proof.Machine

/-! ## Once per issue (R391) -/

def warpCode (r : TRef) : Nat := r.core * 128 + r.slot
/-- What the issue has already answered for the thread's warp. -/
def Ctx.keyAnswer (c : Ctx) : Option Nat := assoc (warpCode c.r) c.s.issue.keyDone
def noteKey (r : TRef) (v : Nat) (s : State) : State :=
  { s with issue := { s.issue with keyDone := s.issue.keyDone ++ [(warpCode r, v)] } }

def Ctx.modWarp (c : Ctx) (f : Warp → Warp) : State := c.s.modWarp c.r.core c.r.slot f

/-! ## Joining, copying, waiting, testing, clearing (R178, R219, R220) -/

/-- Key ka receives the producers and the fault of the sources; its arrival state stays (R178). -/
def joinKeys (c : Ctx) (ka : Nat) (src : List Nat) : Res :=
  match c.keyAnswer with
  | some _ => .ok c.s
  | none =>
    let w := c.warp
    let ps := (src.flatMap w.producersOf).eraseDups
    let ft := src.findSome? w.faultOf
    .ok (noteKey c.r 0 (c.modWarp (Warp.modKey ka (fun (k : KeyState) => { k with producers := ps, fault := ft }))))

/-- KJOIN (R219). -/
def execKjoin (f : Fields) (s : State) : Host.Outcome State Fault Refusal :=
  issueOp 0x240 f s (fun c => joinKeys c f.pk.toNat [f.ck.toNat, Forms.immBits f 3 0])

/-- KCOPY (R219). -/
def execKcopy (f : Fields) (s : State) : Host.Outcome State Fault Refusal :=
  issueOp 0x241 f s (fun c => joinKeys c f.pk.toNat [f.ck.toNat])

/-- KWAIT (R220). -/
def execKwait (f : Fields) (s : State) : Host.Outcome State Fault Refusal :=
  issueOp 0x242 f s (fun c =>
    match c.warp.faultOf f.ck.toNat with
    | some x => .trap (TrapInfo.ofKey x)
    | none =>
      let ws := c.warp.waitsOf f.ck.toNat
      if c.s.allPerformed ws (Forms.scope f) then .ok c.s
      else .wait (c.s.modThread c.r (fun t => { t with status := .kwait f.ck.toNat (Forms.scope f) ws })))

/-- KTEST (R220): the predicate is ready four cycles after issue (R218). -/
def execKtest (f : Fields) (s : State) : Host.Outcome State Fault Refusal :=
  issueOp 0x243 f s (fun c =>
    match c.warp.faultOf f.ck.toNat with
    | some x => .trap (TrapInfo.ofKey x)
    | none =>
      let now := c.s.keySatisfied c.warp f.ck.toNat (Forms.scope f)
      let v := match c.keyAnswer with | some n => n == 1 | none => now
      let s := match c.keyAnswer with | some _ => c.s | none => noteKey c.r (if now then 1 else 0) c.s
      let (id, s) := s.fresh
      .ok (s.track c.r { id := id, due := c.s.clock + 4, known := true, timed := true, regs := [], preds := [(f.d.toNat % 8, v)] }))

/-- FENCE (R180, R220): it performs by itself, the thread is not held, and nothing waits for its performance (log 43, DEDUCED). -/
def execFence (f : Fields) (s : State) : Host.Outcome State Fault Refusal :=
  issueOp 0x244 f s (fun c =>
    match c.warp.faultOf 15 with
    | some x => .trap (TrapInfo.ofKey x)
    | none => .ok c.s)

/-- KCLR (R178, R222). -/
def execKclr (f : Fields) (s : State) : Host.Outcome State Fault Refusal :=
  issueOp 0x247 f s (fun c =>
    let n := f.pk.toNat
    if n = 0 then .ok c.s
    else match c.keyAnswer with
    | some _ => .ok c.s
    | none =>
      let k := c.warp.key n
      if k.producers.isEmpty && k.arrival == .none then
        .ok (noteKey c.r 0 (settle (c.modWarp (Warp.modKey n (fun _ => KeyState.clear)))))
      else .trap (TrapInfo.of .keyMisuse))

/-! ## Arrivals (R181, R182) -/

def State.send? (s : State) (id : Nat) : Option Send := s.sends.find? (fun x => x.id == id)
def State.dropSend (id : Nat) (s : State) : State := { s with sends := s.sends.filter (fun x => x.id != id) }

/-- The warp that a KSEND names: gang, block rank, warp index. -/
def State.warpNamed (s : State) (gang block warp : Nat) : Option Warp :=
  match s.blockOfRank gang block with
  | some b => s.warps.find? (fun w => w.block == b.uid && w.widx == warp)
  | none => none

/-- The die to which an arrival goes. -/
def State.dieOfSend (s : State) (id : Nat) : Nat := (((s.send? id).bind (fun x => s.gang? x.gang)).map (·.die)).getD 0

/-- The arrivals in a die's queue: as many as Serril lets it hold, at least one (log 42, DEDUCED); the rest wait where their markers were
gathered (R181). -/
def State.arrivalQueue (s : State) (die : Nat) : List Nat :=
  (s.arrivals.filter (fun id => s.dieOfSend id == die)).take (Config.arrivalQueue die + 1)

/-- An arrival is in its die's queue. -/
def State.hasRoomFor (s : State) (id : Nat) : Bool := (s.arrivalQueue (s.dieOfSend id)).contains id

/-- An arrival queued for a slot of a warp: the oldest. -/
def State.queuedFor (s : State) (x : Send) : Option Nat :=
  (s.arrivalQueue (s.dieOfSend x.id)).find? (fun id => match s.send? id with
    | some y => y.gang == x.gang && y.block == x.block && y.warp == x.warp && y.slot == x.slot
    | none => false)

/-- A slot whose armed arrival has every notice is satisfied: the arrival leaves, and the oldest one queued for the slot is
held (R181). -/
def satisfySlot (w : Warp) (slot : Nat) (s : State) : State :=
  match (w.key slot).arrival with
  | .armed m (some id) =>
    match s.send? id with
    | none => s
    | some x =>
      if !x.points.isEmpty then s
      else
        let next := s.queuedFor x
        let st : ArrivalState := match next with | some n => .held n | none => .none
        let s := s.modWarp w.core w.slot (Warp.modKey slot (fun (k : KeyState) => { k with arrival := st }))
        let s := match next with | some n => { s with arrivals := s.arrivals.filter (· != n) } | none => s
        settle ((s.performAt m 6).dropSend id)
  | _ => s

/-- KRECV (R222): the slot is armed, a held arrival being taken. -/
def execKrecv (f : Fields) (s : State) : Host.Outcome State Fault Refusal :=
  issueOp 0x246 f s (fun c =>
    let n := f.pk.toNat
    if n = 0 then .trap (TrapInfo.of .keyMisuse)
    else match c.keyAnswer with
    | some _ => .ok c.s
    | none =>
      let k := c.warp.key n
      let busy := match k.arrival with | .armed _ _ => true | _ => false
      if !k.producers.isEmpty || k.fault.isSome || busy then .trap (TrapInfo.of .keyMisuse)
      else
        let (m, s) := c.s.fresh
        let g := match s.blockOf c.th with | some b => b.gang | none => 0
        let o : Op := { id := m, core := c.r.core, slot := c.r.slot, gang := g, perf := 0, points := [] }
        let held : Option Nat := match k.arrival with | .held id => some id | _ => none
        let s := noteKey c.r 0 ({ s with ops := s.ops ++ [o] }.modWarp c.r.core c.r.slot
          (Warp.modKey n (fun (k : KeyState) => { k with arrival := .armed m held })))
        .ok (satisfySlot (s.warpOf c.th) n s))

/-- The accesses of a core to a point that satisfy `p`. -/
def State.countTo (s : State) (p : Access → Bool) (core point : Nat) : Nat :=
  (s.accs.filter (fun b => b.t.core == core && p b && s.ops.any (fun o => o.id == b.id && o.points.contains point))).length

/-- The messages that a core has sent to a point: one whose access waits for its consume key has not left (R182). -/
def State.sentTo (s : State) (core point : Nat) : Nat :=
  (assoc (core, point) s.paths).getD 0 - s.countTo (fun b => !(s.allPerformed b.waits b.scope)) core point
/-- The messages of a core that a point has applied: of those, all but the accesses that have not come to an effect there. -/
def State.appliedAt (s : State) (core point : Nat) : Nat :=
  (assoc (core, point) s.paths).getD 0 - s.countTo (fun b => b.phase != .visible) core point

/-- KSEND (R181, R182, R221): the destination is checked, markers go to the points that the covered operations used, and the
arrival goes on its way. -/
def execKsend (f : Fields) (s : State) : Host.Outcome State Fault Refusal :=
  issueOp 0x245 f s (fun c =>
    let k := f.ck.toNat
    match c.warp.faultOf k with
    | some x => .trap (TrapInfo.ofKey x)
    | none =>
      let v := ((c.va false).extractLsb' 0 32).toNat
      let hh := v / 2 ^ 16 % 16
      let blk := v / 2 ^ 10 % 64
      let wrp := v / 2 ^ 4 % 64
      let slot := v % 16
      if v / 2 ^ 20 ≠ 0 ∨ slot = 0 ∨ slot = 15 then .trap (TrapInfo.of .keyMisuse)
      else match c.s.gangOf c.th, c.s.hhOf c.th, c.s.blockOf c.th with
      | some g, some h, some b =>
        if hh ≥ h.ngang ∨ blk ≥ g.nblock ∨ wrp ≥ (b.ntid + 31) / 32 then .trap (TrapInfo.of .keyMisuse)
        else if hh ≠ g.rank ∧ (h.copyOf c.r.core g.rank ≠ .attached ∨ h.copyOf c.r.core hh ≠ .attached) then
          .trap (TrapInfo.of .hhDeparted)
        else
          let dst := if hh = g.rank then some g.uid else ((c.s.gangsOfHh h.uid).find? (fun x => x.rank == hh)).map (·.uid)
          let ids := (c.warp.producersOf k).filter (· < c.s.issue.firstId)
          let ops := c.s.ops.filter (fun o => ids.contains o.id)
          let pts := (ops.flatMap (·.points)).eraseDups
          let counts := pts.map (fun p => (p, c.s.sentTo c.r.core p))
          let (id, s) := c.s.fresh
          -- a gang of another module has number 0 here, and the arrival leaves for it (log 17, DESIGN CHOICE)
          let x : Send := { id := id, core := c.r.core, fromGang := g.uid, gang := dst.getD 0, block := blk, warp := wrp, slot := slot,
                            scope := Forms.scope f, ops := ids, points := counts, delivered := false, grp := s.issue.firstId }
          let s : State := { s with sends := s.sends ++ [x] }
          .ok ((s.postAll (pts.map (.ksendMarker id))).post (.arrivalDelivery id))
      | _, _, _ => .trap (TrapInfo.of .keyMisuse))

/-- KSEND_MARKER (R182): the point has applied the messages counted and acknowledged every covered operation at the scope;
it sends a notice. -/
def execKsendMarker (id point : Nat) (s : State) : Host.Outcome State Fault Refusal :=
  match s.send? id with
  | none => .next s
  | some x =>
    let mine := s.ops.filter (fun o => x.ops.contains o.id && o.points.contains point)
    let count := (assoc point x.points).getD 0
    if s.appliedAt x.core point ≥ count ∧ mine.all (fun o => s.performed o.id x.scope) = true then .next (s.post (.ksendNotice id point))
    else .next (s.post (.ksendMarker id point))

/-- KSEND_NOTICE (R182): the notice counts at the arrival; the last one satisfies an armed slot. It waits while its link wakes (R350). -/
def execKsendNotice (id point : Nat) (s : State) : Host.Outcome State Fault Refusal :=
  match s.send? id with
  | none => .next s
  | some x =>
    match linkHeld (dieOfPoint point) (s.dieOfSend id) id s with
    | some s => .next (s.post (.ksendNotice id point))
    | none =>
    let s : State := { s with sends := s.sends.map (fun (y : Send) => if y.id = id then { y with points := y.points.filter (fun p => p.1 != point) } else y) }
    .next (match s.warpNamed x.gang x.block x.warp with
      | some w => satisfySlot w x.slot s
      | none => s)

/-- The block that an arrival is for is bound and not yet running: its warps come with its dispatch. -/
def State.undelivered (s : State) (x : Send) : Bool :=
  match s.blockOfRank x.gang x.block with | some b => b.state == 1 | none => false

/-- The gang of an arrival is saved, or stops for it before the arrival's block has started: the arrival stays queued (R183). -/
def State.gangAway (s : State) (x : Send) : Bool :=
  match s.gang? x.gang with
  | some g => g.phase == .saved || g.phase == .resuming || (g.phase == .stopping && s.undelivered x)
  | none => false

/-- The slot that an arrival is for holds none (R181). -/
def State.slotFree (s : State) (x : Send) : Bool :=
  match s.warpNamed x.gang x.block x.warp with
  | some w => (match (w.key x.slot).arrival with
    | .none => true
    | .armed _ none => true
    | _ => false)
  | none => false

/-- An arrival goes behind those that have come; one that finds its die's queue full waits until room frees (R181). -/
def queueArrival (id : Nat) (s : State) : State :=
  let s : State := { s with arrivals := s.arrivals ++ [id] }
  if s.hasRoomFor id then s else s.post (.arrivalDelivery id)

/-- An arrival enters its slot: armed, held, or queued behind another (R181) (log 42, DEDUCED). -/
def deliver (x : Send) (s : State) : State :=
  match s.warpNamed x.gang x.block x.warp with
  | none => s.dropSend x.id
  | some w =>
    let s : State := { s with sends := s.sends.map (fun (y : Send) => if y.id = x.id then { y with delivered := true } else y) }
    match (w.key x.slot).arrival with
    | .armed m none =>
      let s := s.modWarp w.core w.slot (Warp.modKey x.slot (fun (k : KeyState) => { k with arrival := .armed m (some x.id) }))
      satisfySlot (s.warp w.core w.slot) x.slot s
    | .none => s.modWarp w.core w.slot (Warp.modKey x.slot (fun (k : KeyState) => { k with arrival := .held x.id }))
    | _ => queueArrival x.id s

/-- ARRIVAL_DELIVERY (R181): an arrival reaches its slot; one of an earlier lane of the same issue goes first (R391). It waits while its
link wakes (R350). One that waited for room enters the queue once there is some, and its slot if that has no arrival any more. -/
def execArrivalDelivery (id : Nat) (s : State) : Host.Outcome State Fault Refusal :=
  match s.send? id with
  | none => .next s
  | some x =>
    if x.delivered then
      .next (if !(s.arrivals.contains id) then s
        else if !(s.hasRoomFor id) then s.post (.arrivalDelivery id)
        else if s.gangAway x then s
        else if s.undelivered x then s.post (.arrivalDelivery id)
        else if s.slotFree x || (s.warpNamed x.gang x.block x.warp).isNone then deliver x { s with arrivals := s.arrivals.filter (· != id) }
        else s)
    else if s.sends.any (fun y => y.grp == x.grp && decide (y.id < x.id) && !y.delivered && y.gang == x.gang && y.block == x.block
        && y.warp == x.warp && y.slot == x.slot) then .next (s.post (.arrivalDelivery id))
    else if s.undelivered x && !(s.gangAway x) then .next (s.post (.arrivalDelivery id))
    else match linkHeld (x.core / 256) (s.dieOfSend id) id s with
    | some s => .next (s.post (.arrivalDelivery id))
    | none =>
    if s.gangAway x then
      .next { s with arrivals := s.arrivals ++ [id],
                     sends := s.sends.map (fun (y : Send) => if y.id = id then { y with delivered := true } else y) }
    else .next (deliver x s)

end Sys2Proof.Machine
end

