-- ==== Sys2Proof/Machine/Home.lean ====
section
/-! DEFINITION. The home of an access: its page (R298–R300), acceptance (R200), and what an unaccepted access does (R301). -/

namespace Sys2Proof.Machine

/-- The format check of LDD and STD (R206, R207), made at the home. -/
def AccOp.fmtOk (op : AccOp) (g : DWord) (a : Attr) : Bool :=
  match op with
  | .ldd fp8 => if fp8 then a.fmt == 2 || a.fmt == 3 else a.fmt == 1 && decide (g.toNat % 128 < 96)
  | .std => a.fmt == 1 && decide (g.toNat % 128 < 96)
  | _ => true

/-- Steps 1–4 of R299 for an access. -/
def State.resolveAcc (s : State) (a : Access) : Resolved :=
  match decodePtr a.ptr with
  | some (.priv off) => s.resolvePriv a.ctx a.priv off a.op.want
  | _ => s.resolve a.ctx a.gaddr a.n a.op.want (a.op.fmtOk a.gaddr)

/-- Who serves an access to a placed page (R157): the host bridge or a pool bridge where the frame lies behind it (R155, R358, R361), another
module's host or pool at that module, and else the page's home as its mode says. -/
def Placed.accMode (p : Placed) : AccMode :=
  match p.base / 2 ^ 64 % 8, p.home with
  | 2, _ => .host
  | 3, .pool _ seg => .pool seg
  | 3, _ => .pool p.attr.pseg
  | 5, _ => .direct
  | 6, _ => .direct
  | _, _ => if p.attr.mode = 0 then .direct else .cached

/-- The access reaches its place: location, pages, channel (R158, R299) and mode. -/
def placeAccess (a : Access) (p : Placed) (s : State) : State :=
  let loc := p.base + a.gaddr.toNat % 65536
  s.modAcc a.id (fun a => { a with loc := loc, pages := [(globPage a.gaddr, p.base)],
                                   channel := s.channelAt a.ctx a.ptr a.gaddr 0 loc, mode := p.accMode })

/-- An access travels to its home (R155): the state in which it is held at a link of its way (R350, R364); none where it goes on. -/
def State.portOfSeg (s : State) (seg : Nat) : Nat := ((s.tabs.segs.find? (fun g => g.seg == seg)).map (·.port)).getD 0
def wayHeld (die : Nat) (h : Home) (key : Nat) (s : State) : Option State :=
  match h with
  | .hall dev d => if dev = s.device then linkHeld die d key s else pathHeld dev key s
  | .cellar dev d => if dev = s.device then linkHeld die (12 + d) key s else pathHeld dev key s
  | .host => linkHeld die 12 key s
  | .pool dev seg => if dev = s.device then linkHeld die (12 + s.portOfSeg seg) key s else pathHeld dev key s

def verdict (a : Access) (v : Verdict) (s : State) : State :=
  (s.modAcc a.id (fun a => { a with phase := .resolved v })).post (.accessAccept a.id)

/-- HOME_RESOLVE (R299): the home resolves the page of an access that has reached it, over links that carry it (R350). An access for a range
that is being invalidated is held (R307); PREF and CCTL skip pages that are not resident and are accepted in any case (R213, R214). -/
def execHomeResolve (id : Nat) (s : State) : Host.Outcome State Fault Refusal :=
  match s.acc? id with
  | none => .next s
  | some a =>
    if a.phase ≠ .sent ∧ a.phase ≠ .translating then .next s
    else
      let page := a.page
      match (if a.phase = .sent then s.pageHome a.ctx page else none).bind (fun h => wayHeld a.die h id s) with
      | some s => .next (s.post (.homeResolve id))
      | none =>
      if s.invalidating a.ctx page then .next (s.post (.homeResolve id))
      else
        let lines := match a.op with | .pref _ => true | .cctl _ _ => true | _ => false
        let v := s.resolveAcc a
        -- a page that the last answer left unmapped is asked for again by an access that arrives now (R299, step 2)
        let none_ := match (s.pageHome a.ctx page).bind (fun h => s.translation h a.ctx page) with
          | some t => !t.rights.read && !t.rights.write && !t.rights.exec
          | none => false
        let v : Resolved := if none_ && v == .absent && decide (a.phase = .sent) then .noTranslation else v
        match v with
        | .ok p => .next (verdict a .ok (placeAccess a p s))
        | .noTranslation =>
          if lines then .next (verdict a .ok s)
          else .next (requestTranslation a.ctx page (s.modAcc id (fun a => { a with phase := .translating })))
        | .absent => .next (verdict a (if lines then .ok else .absent) s)
        | .denied => .next (verdict a (if lines then .ok else .denied) s)
        | .space => .next (verdict a (if lines then .ok else .space) s)
        | .poolLost => .next (verdict a (if lines then .ok else .poolLost) s)

/-- An access that has not been accepted is undone: the instruction has done nothing (R25, R200). -/
def undoAccess (a : Access) (s : State) : State := settle ((s.dropProducer a.id).dropAcc a.id)

/-- The event at which an accepted access goes on. -/
def acceptedEvent (device : Nat) (a : Access) : Instr :=
  match a.op.cls with
  | .load => .loadBind a.id
  | .store => .storePerform a.id 0
  | .atomic => atomEvent device a
  | .lines => .loadBind a.id

/-- The access is accepted (R200): the thread goes on, its result is tracked, and its home counts it (R157, R348). -/
def acceptAccess (a : Access) (s : State) : State :=
  let s := match s.resolveAcc a with | .ok p => if a.placed then countMigration a.ctx a.page p s else s | _ => s
  let s := pendingResult a s
  let s := s.modAcc a.id (fun a => { a with phase := .accepted })
  (s.modThread a.t (Thread.finish (s.clock + 1))).post (acceptedEvent s.device a)

/-- The first attempt of an LDT, or the start of an STT (R208, R209): tile.len, the scratchpad range and the pages of the rows
are checked before anything is written, once the consume key and the thread's own earlier accesses allow the read; until then the thread
awaits acceptance (log 39, DEDUCED). Rows in a range that is being invalidated are held (R307). -/
def acceptTile (a : Access) (ldt aon : Bool) (sp lim : Nat) (s : State) : State :=
  if !(s.accDue a) then s.post (.accessAccept a.id)
  else
    let len := tileLen s a.t.core a.loc
    if len > 2048 ∨ (len = 0 ∧ (ldt || aon) = true) then raiseTrap a.t (TrapInfo.of .illegalOperand) (undoAccess a s)
    else if sp + 32 * len > lim then raiseTrap a.t (TrapInfo.of .spaceFault) (undoAccess a s)
    else
      let ok (s : State) : State :=
        let units := if ldt then [] else List.range (2 * len)
        let s := s.modAcc a.id (fun a => { a with n := 64 + 32 * len, len := len, units := units })
        acceptAccess { a with n := 64 + 32 * len } s
      match s.tileHandle a (64 + 32 * len), tileLast s a len with
      | some c, _ => raiseTrap a.t (TrapInfo.of c) (undoAccess a s)
      | none, none => ok s
      | none, some (page, v) =>
        if s.invalidating a.ctx page then s.post (.accessAccept a.id) else
        match v with
        | .ok p => ok (countMigration a.ctx page p (s.modAcc a.id (fun a => { a with pages := a.pages ++ [(page, p.base)] })))
        | .noTranslation => (requestTranslation a.ctx page s).post (.accessAccept a.id)
        | .absent => pageWait a.t a.ctx page a.op.asks (undoAccess a (forgetAnswer a.ctx page s))
        | .denied => raiseTrap a.t (TrapInfo.of .pageDenied) (undoAccess a s)
        | .space => raiseTrap a.t (TrapInfo.of .spaceFault) (undoAccess a s)
        | .poolLost => failAccess a.id .poolLost (acceptAccess a s)

/-- A PGREQ at its home (R215): a resident page ends it, once its consume key allows (R173), an absent one enters the fault path, a denied
one faults its key. One that finds the filter full, and no entry of its page there, tries again (R303). -/
def pgreqVerdict (a : Access) (v : Verdict) (s : State) : State :=
  if !(s.allPerformed a.waits a.scope) then s.post (.accessAccept a.id) else
  match v with
  | .ok => settle ((s.performAt a.id 6).dropAcc a.id)
  | .poolLost => settle ((s.failOp a.id .poolLost 0).dropAcc a.id)
  | .absent =>
    let mine := s.tx.filters.filter (fun e => e.unit == a.t.core)
    let full := decide (mine.length ≥ 64) && !(mine.any (fun e => e.ctx == a.ctx && e.page == a.page))
    let s := enterFilter a.t.core a.ctx a.page (.of rightsR) s
    if full then s.post (.accessAccept a.id) else s
  | _ => settle ((s.failOp a.id .pageDenied 0).dropAcc a.id)

/-- The thread no longer awaits the acceptance of an access: it has ended. -/
def State.noOneAwaits (s : State) (a : Access) : Bool :=
  match s.thread? a.t with | some th => th.status != .accept a.id | none => true

/-- ACCESS_ACCEPT (R200): the home's answer accepts the access, an .rz load of an absent page and a write that a page move holds too (R203,
R349), holds the thread for the page, or is the trap of a denied page; a thread that has ended takes its access with it. -/
def execAccessAccept (id : Nat) (s : State) : Host.Outcome State Fault Refusal :=
  match s.acc? id with
  | none => .next s
  | some a =>
    match a.phase with
    | .resolved v =>
      if a.op = .pgreq then .next (pgreqVerdict a v s)
      else if s.noOneAwaits a then .next (undoAccess a s)
      else match v with
      | .ok => match a.op with
        | .ldt sp lim => .next (acceptTile a true false sp lim s)
        | .stt aon sp lim => .next (acceptTile a false aon sp lim s)
        | _ => .next (acceptAccess a s)
      | .absent =>
        if a.rz then .next (acceptAccess a s)
        else .next (pageWait a.t a.ctx a.page a.op.asks (undoAccess a s))
      | .denied => .next (raiseTrap a.t (TrapInfo.of .pageDenied) (undoAccess a s))
      | .space => .next (raiseTrap a.t (TrapInfo.of .spaceFault) (undoAccess a s))
      | .poolLost => .next (failAccess id .poolLost (acceptAccess a s))
    | _ => .next s

end Sys2Proof.Machine
end

