-- ==== Sys2Proof/Machine/Memory.lean ====
section
/-! DEFINITION. The memory class 0x8 (R197–R217): the checks at issue and the access that each instruction makes. -/

namespace Sys2Proof.Machine

/-- The address of a memory operand (R46, R199). -/
def Ctx.addr (c : Ctx) : DWord := c.pair 0 c.f.a.toNat + Forms.memOff c.f

/-- What the thread does once its access has been entered: a scratchpad access is accepted at issue, another holds the thread
until its home answers (R200). -/
def afterEntry (c : Ctx) (tgt : Target) (x : Nat × State) : Res :=
  match tgt, x.2.acc? x.1 with
  | .scratch _ _ _, some a => .ok ((pendingResult a x.2).post (acceptedEvent x.2.device a))
  | .remote _, some a => .ok ((pendingResult a x.2).post (acceptedEvent x.2.device a))
  | _, _ => .wait ((x.2.modThread c.r (fun t => { t with status := .accept x.1 })).post (.homeResolve x.1))

/-- The checks of R199, steps 1–6, and the limit of R177; then `go` with the target. -/
def memChecks (c : Ctx) (ok : Spaces) (need : Need) (n al : Nat) (typeOk : AtomPoint → Bool) (go : Target → Res) : Res :=
  match c.warp.faultOf c.f.ck.toNat with
  | some x => .trap (TrapInfo.ofKey x)
  | none =>
    match c.s.checkAccess c.th ok need c.addr n al with
    | .error e => .trap (TrapInfo.of e)
    | .ok t =>
      if !(typeOk (c.s.atomPoint (c.s.ctxOf c.th) c.addr t)) then .trap (TrapInfo.of .atomType)
      else if keyFull c then .hold c.s
      else go t

def anyPoint (_ : AtomPoint) : Bool := true

/-- An access of n bytes, aligned to n, entered once its checks pass. -/
def plainAccess (c : Ctx) (ok : Spaces) (need : Need) (n : Nat) (op : AccOp) (data data2 : List Byte) (typeOk : AtomPoint → Bool) :
    Res :=
  memChecks c ok need n n typeOk (fun t => afterEntry c t (enterAccess c op c.addr t n data data2 (Forms.rz c.f) c.f.c.toNat))

/-- The bytes of an access by its size code (R47). -/
def sizeBytes (f : Fields) : Nat := 2 ^ Forms.mlow f

/-- The data group at operand b (R198). -/
def Ctx.dataB (c : Ctx) (n : Nat) : List Byte := storeBytes n (c.group 1 c.f.b.toNat ((n + 3) / 4))

/-- LD (R202, R203). -/
def execLd (f : Fields) (s : State) : Host.Outcome State Fault Refusal :=
  issueOp 0x200 f s (fun c => plainAccess c Spaces.all .read (sizeBytes f) (.ld (Forms.m3 f)) [] [] anyPoint)

/-- ST (R205). -/
def execSt (f : Fields) (s : State) : Host.Outcome State Fault Refusal :=
  issueOp 0x201 f s (fun c => plainAccess c Spaces.all .write (sizeBytes f) .st (c.dataB (sizeBytes f)) [] anyPoint)

/-- LDR (R168, R204). -/
def execLdr (f : Fields) (s : State) : Host.Outcome State Fault Refusal :=
  issueOp 0x202 f s (fun c => plainAccess c Spaces.mem .read (sizeBytes f) (.ldr (Forms.m3 f)) [] [] anyPoint)

/-- LDD (R206): four bytes of a Q4 block, or eight FP8 elements. -/
def execLdd (f : Fields) (s : State) : Host.Outcome State Fault Refusal :=
  issueOp 0x203 f s (fun c => plainAccess c Spaces.mem .read (sizeBytes f) (.ldd (Forms.mlow f == 3)) [] [] anyPoint)

/-- STD (R207): the block's element bytes and its scale. -/
def execStd (f : Fields) (s : State) : Host.Outcome State Fault Refusal :=
  issueOp 0x204 f s (fun c => plainAccess c Spaces.mem .write 4 .std (storeBytes 5 (c.group 1 f.b.toNat 2)) [] anyPoint)

/-- LDT and STT (R208, R209): the tile's header, and own scratchpad at the pair b, 32-byte aligned; the rest is checked at the
first attempt (log 39, DEDUCED). The space of either operand is checked before any alignment (R199). -/
def tileAccess (c : Ctx) (need : Need) (mk : Nat → Nat → AccOp) : Res :=
  let inner := decodePtr (c.pair 1 c.f.b.toNat)
  let ok := match inner with | some (.own _) => Spaces.mem | _ => Spaces.none
  memChecks c ok need 64 64 anyPoint (fun t =>
    match inner with
    | some (.own off) =>
      if off % 32 != 0 then .trap (TrapInfo.of .misaligned)
      else match c.s.blockOf c.th with
      | none => .trap (TrapInfo.of .spaceFault)
      | some b =>
        let base := scratchBase b.core + b.spBase
        afterEntry c t (enterAccess c (mk (base + off) (base + b.spSize)) c.addr t 64 [] [] false c.f.c.toNat)
    | _ => .trap (TrapInfo.of .spaceFault))

/-- LDT (R208). -/
def execLdt (f : Fields) (s : State) : Host.Outcome State Fault Refusal :=
  issueOp 0x205 f s (fun c => tileAccess c .read .ldt)

/-- STT (R209). -/
def execStt (f : Fields) (s : State) : Host.Outcome State Fault Refusal :=
  issueOp 0x206 f s (fun c => tileAccess c .write (.stt (Forms.m3 f)))

/-- ATOM and RED with their control in field c (R210–R212). -/
def atomAccess (c : Ctx) (ret : Bool) : Res :=
  let op := c.f.c.toNat / 16
  let ty := c.f.c.toNat % 16
  let n := sizeBytes c.f
  plainAccess c Spaces.all .atomic n (.atom ret false op ty) (c.dataB n) [] (fun p => atomSupported p false op ty)

/-- ATOM (R212). -/
def execAtom (f : Fields) (s : State) : Host.Outcome State Fault Refusal := issueOp 0x207 f s (fun c => atomAccess c true)

/-- ATOM.cas (R210, R212): b is compared, c replaces. -/
def execAtomCas (f : Fields) (s : State) : Host.Outcome State Fault Refusal :=
  issueOp 0x207 f s (fun c =>
    let n := sizeBytes f
    plainAccess c Spaces.all .atomic n (.atom true true 0 1) (c.dataB n) (storeBytes n (c.group 2 f.c.toNat ((n + 3) / 4)))
      anyPoint)

/-- RED (R212). -/
def execRed (f : Fields) (s : State) : Host.Outcome State Fault Refusal := issueOp 0x208 f s (fun c => atomAccess c false)

/-- The length of a range of lines (R213, R214): at most 2^24 bytes, and within a buffer's length. -/
def rangeLen (c : Ctx) : Nat :=
  let n := Nat.min (c.reg 1 c.f.b.toNat).toNat (2 ^ 24)
  match decodePtr c.addr with
  | some (.handle i _ off) => Nat.min n ((c.s.buffer (c.s.ctxOf c.th) i).len - off)
  | some (.priv off) => Nat.min n ((c.s.ctxConfig (c.s.ctxOf c.th)).privSize - off)
  | _ => n

/-- An instruction over a range of lines: its first byte alone is checked (log 41, DEDUCED). -/
def rangeAccess (c : Ctx) (ok : Spaces) (op : AccOp) : Res :=
  memChecks c ok .read 1 1 anyPoint (fun t => afterEntry c t (enterAccess c op c.addr t 1 [] [] false 7))

/-- PREF (R213). -/
def execPref (f : Fields) (s : State) : Host.Outcome State Fault Refusal :=
  issueOp 0x209 f s (fun c => rangeAccess c Spaces.mem (.pref (rangeLen c)))

/-- CCTL.inv1 (R214). -/
def execCctlInv1 (f : Fields) (s : State) : Host.Outcome State Fault Refusal :=
  issueOp 0x20A f s (fun c => rangeAccess c Spaces.cctl (.cctl 0 (rangeLen c)))

/-- CCTL.inv1all (R214): no address is checked. -/
def execCctlInv1all (f : Fields) (s : State) : Host.Outcome State Fault Refusal :=
  issueOp 0x20A f s (fun c =>
    match c.warp.faultOf f.ck.toNat with
    | some x => .trap (TrapInfo.ofKey x)
    | none =>
      if keyFull c then .hold c.s
      else
        let (id, s) := enterAccess c (.cctl 1 0) 0 (.glob 0) 0 [] [] false 7
        .ok ((s.modAcc id (fun a => { a with phase := .accepted })).post (.loadBind id)))

/-- CCTL.wb2 (R214). -/
def execCctlWb2 (f : Fields) (s : State) : Host.Outcome State Fault Refusal :=
  issueOp 0x20A f s (fun c => rangeAccess c Spaces.cctl (.cctl 2 (rangeLen c)))

/-- CCTL.evict2 (R214). -/
def execCctlEvict2 (f : Fields) (s : State) : Host.Outcome State Fault Refusal :=
  issueOp 0x20A f s (fun c => rangeAccess c Spaces.cctl (.cctl 3 (rangeLen c)))

/-- PGREQ (R215): the request goes to the home; the thread is not held. -/
def execPgreq (f : Fields) (s : State) : Host.Outcome State Fault Refusal :=
  issueOp 0x20B f s (fun c =>
    memChecks c Spaces.mem .read 1 1 anyPoint (fun t =>
      let (id, s) := enterAccess c .pgreq c.addr t 1 [] [] false 7
      .ok (s.post (.homeResolve id))))

end Sys2Proof.Machine
end

