-- ==== Sys2Proof/Machine/Engine.lean ====
section
/-! DEFINITION. What the copy and the matrix engine share: records and their reading, the checks and the room of an
acceptance (R228), the lines that an operation reaches (R233), its writes, its stop and its performance (R163, R189, R201,
R327). -/

namespace Sys2Proof.Machine

/-! ## Records -/

/-- Bits h to l of a record's value. -/
def recBits (r h l : Nat) : Nat := r / 2 ^ l % 2 ^ (h - l + 1)
/-- A pointer field of a record. -/
def recPtr (r l : Nat) : DWord := BitVec.ofNat 64 (r / 2 ^ l)
/-- A signed integer of n bits. -/
def recInt (n v : Nat) : Int := (BitVec.ofNat n v).toInt

/-- The thread that stands for an agent of a block on a core, where an access is checked. -/
def agent (core block : Nat) : Thread := Thread.fresh ⟨core, 0, 0⟩ 0 block 0 0 0 0

/-- Spaces of operands and destinations: any but private (R240, R248). -/
def Spaces.engine : Spaces := ⟨true, true, true, true, false, true⟩
def Spaces.tensor : Spaces := ⟨true, false, false, false, false, true⟩
def Spaces.copyDst : Spaces := ⟨true, true, false, false, false, true⟩
def Spaces.object : Spaces := ⟨false, true, true, false, false, false⟩
def Spaces.ownOnly : Spaces := ⟨false, true, false, false, false, false⟩

/-- The check of a pointer of a record for n bytes at acceptance (R228): the space, the alignment, and for a scratchpad the
allocation. Global memory and handles are checked at each line. -/
def checkPtr (s : State) (th : Thread) (ok : Spaces) (need : Need) (p : DWord) (al n : Nat) : Option Cause :=
  match decodePtr p with
  | none => some .spaceFault
  | some q =>
    if !(ok.has q) then some .spaceFault
    else if p.toNat % al != 0 then some .misaligned
    else match q with
    | .glob _ _ => none
    | .handle _ _ _ => none
    | _ => match s.checkAccess th ok need p n 1 with | .ok _ => none | .error c => some c

/-- The location of a scratchpad pointer, with its core. -/
def scratchLoc (s : State) (th : Thread) (p : DWord) (n : Nat) : Option (Nat × Nat) :=
  match s.checkAccess th Spaces.engine .read p n 1 with
  | .ok (.scratch core loc _) => some (core, loc)
  | _ => none

/-- The first of some checks that fails. -/
def firstCause (l : List (Option Cause)) : Option Cause := l.findSome? id
/-- A check that fails with a cause. -/
def failIf (b : Bool) (c : Cause) : Option Cause := if b then some c else none

/-! ## Lines of global memory, for agents -/

/-- A location in the memory, or behind the bridges, of a module that is lost (R368). -/
def State.lostAt (s : State) (loc : Nat) : Bool :=
  let k := loc / 2 ^ 64 % 8
  (decide (k ≤ 1) || k == 5 || k == 6) && devOfLoc loc != s.device && s.ext.modules.any (fun m => m.dev == devOfLoc loc && m.lost)

/-- What an agent finds that reaches for a global address. -/
inductive Grasp where
  | ok (s : State) (loc : Nat) (mode : AccMode)
  | again (s : State)
  | absent (s : State)
  | stop (c : Cause)

/-- An agent of a die reaches for n bytes of one line of global memory (R299, R233), for the asker given. -/
def grasp (s : State) (die : Nat) (who : Asker) (g : DWord) (n : Nat) (write : Bool) : Grasp :=
  let ctx := who.ctx
  let page := globPage g
  if s.invalidating ctx page then .again s
  else match s.resolve ctx g n (if write then rightsW else rightsR) anyFmt with
  | .ok p =>
    let loc := p.base + g.toNat % 65536
    if s.lostAt loc then .stop .coherenceLost
    else if !write && (s.poisonOf loc n).isSome then .stop ((s.poisonOf loc n).getD .poison)
    else if write && (s.heldByMove loc || s.tileHolds 0 loc) then .again s
    else
      let (s, ok) := agentLine p.accMode die loc n who write s
      if ok then .ok (countMigration ctx page p s) loc p.accMode else .again s
  | .noTranslation => .again (requestTranslation ctx page s)
  | .absent => .absent (forgetAnswer ctx page s)
  | .denied => .stop .pageDenied
  | .space => .stop .spaceFault
  | .poolLost => .stop .poolLost

/-- What an agent's access finds that repeats itself until it is served. -/
inductive AgentRes where
  | ok (s : State) (loc : Nat) (mode : AccMode)
  | again (s : State)
  | stop (s : State) (c : Cause)

/-- The same for an agent that is neither a thread nor an engine operation (a chain's walk, a graph walker, a completion), and
whose page faults go through the filter of `unit`: an absent page is asked for and waited for; a denied one stops it. -/
def graspAgent (s : State) (unit die ctx : Nat) (g : DWord) (n : Nat) (write : Bool) : AgentRes :=
  match grasp s die ⟨0, 0, ctx⟩ g n write with
  | .ok s loc mode => .ok s loc mode
  | .again s => .again s
  | .stop c => .stop s c
  | .absent s =>
    let key := (unit, ctx, globPage g)
    if s.tx.denials.contains key then
      .stop { s with tx := { s.tx with denials := s.tx.denials.filter (· != key) } } .pageDenied
    else if s.tx.agents.contains key then .again s
    else if (s.tx.filters.filter (fun e => e.unit == unit)).length ≥ 64 &&
        !(s.tx.filters.any (fun e => e.unit == unit && e.ctx == ctx && e.page == globPage g)) then .again s
    else
      let s : State := { s with tx := { s.tx with agents := s.tx.agents ++ [key] } }
      .again (enterFilter unit ctx (globPage g) (.of (if write then rightsW else rightsR)) s)

/-- The number under which the agents of a die raise page faults. -/
def dieUnit (die : Nat) : Nat := 2 ^ 16 + die

/-- A thread's instruction reaches for n bytes of one line of global memory, through pointer p, before it is accepted (R228, R286): it is
held, also by the thread's own earlier accesses (R17), waits for the page, or traps. -/
def threadGrasp (c : Ctx) (p g : DWord) (n : Nat) (write : Bool) (go : State → Nat → AccMode → Res) : Res :=
  match grasp c.s (c.r.core / 256) ⟨0, Forms.policy c.f, c.s.ctxOf c.th⟩ g n write with
  | .ok s loc mode => if s.ownBefore c.r p loc n write then .hold s else go s loc mode
  | .again s => .hold s
  | .absent s => .hold (pageWait c.r (c.s.ctxOf c.th) (globPage g) (.of (if write then rightsW else rightsR)) s)
  | .stop e => .trap (TrapInfo.of e)

/-- An instruction reads its record of n bytes, aligned to n, in the spaces given (R228): its value. -/
def readRecord (c : Ctx) (ok : Spaces) (p : DWord) (n : Nat) (go : State → Nat → Res) : Res :=
  match c.s.checkAccess c.th ok .read p n n with
  | .error e => .trap (TrapInfo.of e)
  | .ok (.scratch core loc _) =>
    if c.s.ownBefore c.r p loc n false then .hold c.s
    else if c.s.badScratch core loc n then .trap (TrapInfo.of .poison) else go c.s (leValue (c.s.readBytes loc n))
  | .ok (.glob g) => threadGrasp c p g n false (fun s loc _ => go s (leValue (s.seen c.r.core loc n)))
  | .ok (.priv _) => .trap (TrapInfo.of .spaceFault)
  | .ok (.remote _) => .trap (TrapInfo.of .spaceFault)

/-! ## Waiting for the consume key at issue (R173, R269) -/

/-- The operation of an instruction: the one that joined its produce key when it began to wait for its consume key, else a new one. -/
def Ctx.operation (c : Ctx) (s : State) : Nat × State :=
  match c.th.entered with
  | some id => (id, s.modThread c.r (fun t => { t with cleared := none }))
  | none =>
    let (id, s) := s.fresh
    (id, s.addOp c.th id c.f.pk.toNat (pointOfCore c.r.core))

/-- The operation of an instruction that has waited for its consume key and is done, and has not gone on under that number, performs. -/
def closeOp (r : TRef) (id : Nat) (s : State) : State :=
  match (s.thread? r).bind Thread.entered with
  | some _ => settle (s.performAt id 6)
  | none => s

/-- An instruction whose consume key is satisfied, at its first issue or after its wait. -/
def Ctx.close (c : Ctx) (go : Res) : Res :=
  match c.th.entered, go with
  | some id, .ok s => .ok (closeOp c.r id s)
  | some id, .wait s => .wait (closeOp c.r id s)
  | _, go => go

/-- The instruction holds its thread until its consume key is satisfied at a scope; its operation joins its produce key at once (R173). A
faulted key traps (R179). -/
def waitKey (c : Ctx) (scope : Nat) (go : Res) : Res :=
  match c.warp.faultOf c.f.ck.toNat with
  | some x => .trap (TrapInfo.ofKey x)
  | none =>
    let ws := c.s.waitsNow c.warp c.f.ck.toNat
    if c.th.entered.isSome ∨ c.s.allPerformed ws scope = true then c.close go
    else if keyFull c then .hold c.s
    else
      let (id, s) := c.operation c.s
      .wait (s.modThread c.r (fun t => { t with status := .keyed scope ws id }))

/-! ## Operations of the engines -/

def State.eng? (s : State) (id : Nat) : Option EngOp := s.engs.find? (fun e => e.id == id)
/-- The block of a chain runs: its gang is not stopped for a pre-emption (R252, R330). -/
def State.blockRuns (s : State) (u : Nat) : Bool :=
  match (s.block? u).bind (fun b => s.gang? b.gang) with | some g => g.phase == .running | none => false
/-- A gang of the household detaches. -/
def State.detaching (s : State) (hh : Nat) : Bool := match s.hh? hh with | some h => h.att.contains .detaching | none => false
/-- The operation, while its gang is not stopped for a pre-emption (R330): an event that an engine of a stopped gang would take
does nothing, but while a detach that the drain completes is under way (R376). -/
def State.engAct? (s : State) (id : Nat) : Option EngOp :=
  match s.eng? id with
  | some e => match s.gang? e.gang with
    | some g =>
      if (g.phase = .stopping ∧ s.detaching g.hh = false) ∨ g.phase = .saved ∨ g.phase = .resuming then none else some e
    | none => some e
  | none => none
def State.setEng (e : EngOp) (s : State) : State := { s with engs := s.engs.map (fun x => if x.id = e.id then e else x) }
def State.dropEng (id : Nat) (s : State) : State := { s with engs := s.engs.filter (fun x => x.id != id) }

def EngOp.agent (e : EngOp) : Thread := Sys2Proof.Machine.agent e.core e.block
def EngOp.die (e : EngOp) : Nat := e.core / 256
def EngOp.stopped (e : EngOp) : Bool := match e.phase with | .stopped _ => true | _ => false
def EngOp.recN (e : EngOp) : Nat := e.record.toNat

/-- Whether the operation is the copy engine's (R269). -/
def EngKind.isCopy : EngKind → Bool
  | .cpy _ => true | .cpyb _ => true | .cpyf => true | .coll => true
  | _ => false

/-- The partner's core of a block (R243). -/
def State.partner (s : State) (block : Nat) : Option Block :=
  (s.block? block).bind (fun b => s.blockOfRank b.gang (b.rank ^^^ 1))

/-- Whether an operation's record asks for a core pair (R240, R248, R277). -/
def EngOp.pair (e : EngOp) : Bool :=
  match e.kind with
  | .mma => e.recN.testBit 353
  | .mdrn => e.recN.testBit 256
  | .mzero p => p
  | _ => false

/-- The partner's core and first row, as at acceptance once the partner block has ended (R243, R261) (log 61, DEDUCED). -/
def State.mateOf (s : State) (e : EngOp) : Option (Nat × Nat) :=
  match s.partner e.block with
  | some b => some (b.core, b.acc0)
  | none => e.mate

/-- The cores whose engine executes an operation (R243). -/
def State.engCores (s : State) (e : EngOp) : List Nat :=
  match e.pair, s.mateOf e with
  | true, some m => [e.core, m.1]
  | _, _ => [e.core]

/-- An operation ready to be accepted: with its scratchpad ranges (core, lowest and highest byte) and the bytes that it
charges (R163, R239). -/
structure EngPlan where
  op : EngOp
  ranges : List (Nat × Nat × Nat)
  charge : Nat
  deriving DecidableEq, Repr

/-- Whether the engines and the scoreboards have room (R228, R163). -/
def State.engRoom (s : State) (p : EngPlan) : Bool :=
  let copy := p.op.kind.isCopy
  let load (c : Nat) : Nat :=
    (s.engs.filter (fun x => !x.stopped && x.kind.isCopy == copy && (s.engCores x).contains c)).length
  (s.engCores p.op).all (fun c => decide (load c < (if copy then 32 else 8))) &&
  (p.ranges.map (·.1)).eraseDups.all (fun c =>
    decide ((s.core c).ranges.length + (p.ranges.filter (fun r => r.1 == c)).length ≤ 16))

/-- The event at which an operation goes on. -/
def engineGo (s : State) (e : EngOp) : Instr :=
  match e.phase with
  | .hopping _ => .cpyfHopForward e.id
  | .written => match e.kind with
    | .mma => if e.consumed then .enginePerform e.id else .operandsConsumed e.id
    | k => if k.isCopy then .copyRetire e.id else .enginePerform e.id
  | _ => match e.kind with
    | .cpy _ => .copyWrite e.id (2 ^ 20)
    | .cpyf => .copyWrite e.id (2 ^ 20)
    | .cpyb dz => if dz then .copyBlockDecode e.id else .copyWrite e.id (2 ^ 20)
    | .mma => .mmaSliceWrite e.id
    | .mdrn => .mdrnDrain e.id
    | .coll => match s.sch.colls.find? (fun i => i.parts.any (fun p => p.2 == e.id)) with
      | some i => .collCompute i.id
      | none => .collCompute 0
    | _ => .enginePerform e.id

/-- The operation is accepted: its ranges enter the scoreboards and its bytes are charged (R163, R228, R239). -/
def enterEng (p : EngPlan) (id : Nat) (s : State) : State :=
  let e := { p.op with id := id, mate := (s.partner p.op.block).map (fun b => (b.core, b.acc0)) }
  let s := p.ranges.foldl (fun s r => s.modCore r.1 (fun k => { k with ranges := k.ranges ++ [⟨id, r.2.1, r.2.2⟩] })) s
  let s := match e.obj with
    | some loc => if p.charge = 0 then s else (objectUpdate loc (.charge p.charge) s).getD s
    | none => s
  let s : State := { s with engs := s.engs ++ [e] }
  s.post (engineGo s e)

/-- An operation of a thread, not yet accepted. -/
def engOf (c : Ctx) (kind : EngKind) (record : Nat) (ptr : DWord) : EngOp :=
  let g := match c.s.blockOf c.th with | some b => b.gang | none => 0
  { id := 0, kind := kind, t := c.r, core := c.r.core, block := c.th.block, gang := g, ctx := c.s.ctxOf c.th, mate := none,
    record := BitVec.ofNat 512 record, recPtr := ptr, src := 0, dst := 0, orig := [], len := 0, obj := none,
    scope := Forms.scope c.f, pk := c.f.pk.toNat, waits := c.s.waitsNow c.warp c.f.ck.toNat, policy := Forms.policy c.f,
    progress := 0, lines := [], channel := none, consumed := false, changed := [], cover := [], got := [], put := [], chain := none, phase := .accepted }

/-- A thread hands an operation to an engine: the checks' outcome, then room, then acceptance, counted on the produce key
(R173, R177, R228). -/
def handOver (c : Ctx) (s : State) (plan : Except Cause EngPlan) : Res :=
  match plan with
  | .error e => .trap (TrapInfo.of e)
  | .ok p =>
    if keyFull c || !(s.engRoom p) then .hold s
    else
      let (id, s) := s.fresh
      .ok (enterEng p id (s.addOp c.th id c.f.pk.toNat (pointOfCore c.r.core)))

/-- The consume key of an engine operation is faulted: the instruction traps (R179). -/
def keyChecked (c : Ctx) (go : Res) : Res :=
  match c.warp.faultOf c.f.ck.toNat with
  | some x => .trap (TrapInfo.ofKey x)
  | none => go

/-! ## Stops and performance -/

/-- Ranges of an operation leave the scoreboards (R163). -/
def dropRanges (id : Nat) (s : State) : State :=
  { s with cores := s.cores.map (fun (k : Core) => { k with ranges := k.ranges.filter (fun r => r.op != id) }) }

/-- An operation stops for good with a fault (R233): its ranges leave, its produce key is faulted. -/
def stopEng (e : EngOp) (c : Cause) (s : State) : State :=
  let s := dropRanges e.id (s.setEng { e with phase := .stopped c })
  let s := settle (s.failOp e.id c e.recPtr)
  match e.chain with | some k => s.post (.chainEntryRun k) | none => s

/-- The cause with which an engine stops that is refused at pointer p (R160, R179, R233): a handle that has changed under it is stale,
whichever check refuses it; poison and losses keep their cause; another refusal is an ENGINE_FAULT. -/
def EngOp.cause (e : EngOp) (p : DWord) (c : Cause) : Cause :=
  let changed := match decodePtr p with | some (.handle i _ _) => e.changed.contains i | _ => false
  match c with
  | .bufferStale => c
  | .poison => c
  | .poolLost => c
  | .coherenceLost => c
  | .bufferBounds => if changed then .bufferStale else .engineFault
  | .bufferRights => if changed then .bufferStale else .engineFault
  | _ => .engineFault

/-- An operation has used a point (R182). -/
def addPoint (id core point : Nat) (s : State) : State :=
  bumpPath core point { s with ops := s.ops.map (fun (o : Op) =>
    if o.id = id ∧ o.points.contains point = false then { o with points := o.points ++ [point] } else o) }

/-- An operation performs and leaves the engine (R189): at every scope, but for those whose markers are still to be gathered on the Afrik
paths that it used (R176). -/
def performEng (e : EngOp) (s : State) : State :=
  let s := s.progress e.gang
  let far := s.ops.any (fun o => o.id == e.id && o.points.any (fun p => s.pointDev p != s.device))
  let s := if far then (s.performAt e.id 3).post (.storePerform e.id 6) else s.performAt e.id 6
  let s := settle (s.dropEng e.id)
  match e.chain with | some k => s.post (.chainEntryRun k) | none => s

/-! ## The lines of an operation (R233) -/

/-- The number of a line in a space, with the halves of it that an access touches (R357) and the kind of access. -/
def lineKey (p : DWord) (n : Nat) (write : Bool) : Nat :=
  8 * (p.toNat / 128) + 2 * (((halvesAt p.toNat n).map (2 ^ ·)).sum) + write.toNat
/-- A line that an operation has accepted, with the halves that an access touches. -/
def EngOp.hasLine (e : EngOp) (key : Nat) : Bool :=
  e.lines.any (fun k => k / 8 == key / 8 && k % 2 == key % 2 && (k / 2 % 4) &&& (key / 2 % 4) == key / 2 % 4)

/-- The bytes from p on, cut where a line ends. -/
def pieces (p : DWord) (n : Nat) : List (DWord × Nat) :=
  if n = 0 then []
  else
    let off := p.toNat % 128
    (List.range ((off + n + 127) / 128)).map (fun k =>
      if k = 0 then (p, Nat.min n (128 - off))
      else (p + BitVec.ofNat 64 (128 * k - off), Nat.min 128 (n - (128 * k - off))))

/-- What an operation finds at bytes that it accesses. -/
inductive Reach where
  | ok (loc : Nat) (mode : AccMode)
  | need (key : Nat)
  | stop (c : Cause)
  deriving DecidableEq, Repr

/-- Where an operation that has been accepted reaches n bytes (R228): the attach states of a Landing pointer were checked then (R370). -/
def State.engTarget (s : State) (e : EngOp) (p : DWord) (n : Nat) (write : Bool) : Except Cause Target :=
  match decodePtr p with
  | some (.landing hh rank off) => s.landingPlace e.agent hh rank off n
  | _ => s.checkAccess e.agent Spaces.engine (if write then .write else .read) p n 1

/-- Checks an access of an operation within one line (R228): scratchpad directly; a line of global memory once it has been
accepted at its home. Scratchpad of another module has no location here (log 17, DESIGN CHOICE). -/
def State.engReach (s : State) (e : EngOp) (p : DWord) (n : Nat) (write : Bool) : Reach :=
  let need : Reach := .need (lineKey p n write)
  match s.engTarget e p n write with
  | .error c => .stop (e.cause p c)
  | .ok (.scratch core loc _) => if !write && s.badScratch core loc n then .stop .poison else .ok loc .scratch
  | .ok (.remote dev) => .ok 0 (.remote dev)
  | .ok (.priv _) => .stop .engineFault
  | .ok (.glob g) =>
    if !(e.hasLine (lineKey p n write)) then need
    else match s.resolve e.ctx g n (if write then rightsW else rightsR) anyFmt with
    | .ok q =>
      let loc := q.base + g.toNat % 65536
      match (if s.lostAt loc then some Cause.coherenceLost else if write then none else s.poisonOf loc n) with
      | some c => .stop c
      -- a line that is held against writes, or that its holder has given up, is accepted again (R170, R339, R349)
      | none =>
        if (write && (s.heldByMove loc || s.tileHolds 0 loc)) || (!write && s.readHeld e.core e.scope loc n) ||
            !(s.lineHere q.accMode e.die loc n write) then need
        else .ok loc q.accMode
    | _ => need

/-- The first of some accesses, cut into lines, that cannot be made now. -/
def State.firstBar (s : State) (e : EngOp) (l : List (DWord × Nat)) (write : Bool) : Option Reach :=
  (l.flatMap (fun x => pieces x.1 x.2)).findSome? (fun x =>
    match s.engReach e x.1 x.2 write with | .ok _ _ => none | r => some r)

/-- The bytes that an operation reads, once its lines are accepted; an agent of the core sees the core's store queue. -/
def State.engRead (s : State) (e : EngOp) (p : DWord) (n : Nat) : List Byte :=
  (pieces p n).flatMap (fun x =>
    match s.engReach e x.1 x.2 false with
    | .ok _ (.remote _) => (List.range x.2).map (fun i => Config.openByte (2 ^ 40 * s.clock + (x.1.toNat + i) % 2 ^ 40))
    | .ok loc _ => s.seen e.core loc x.2
    | _ => List.replicate x.2 0)

/-- Queued stores of the core to bytes that an operation would write go first. -/
def State.engQueued (s : State) (e : EngOp) (p : DWord) (n : Nat) : Bool :=
  (pieces p n).any (fun x => match s.engReach e x.1 x.2 true with
    | .ok loc _ => s.accs.any (fun b => b.t.core == e.core && b.phase == .coreDone && meet b.spans [(loc, x.2)])
    | _ => false)

/-- Bytes i to i + n − 1 of a line as a mask. -/
def byteMask (i n : Nat) : Nat := (2 ^ n - 1) * 2 ^ i

/-- A single copy or drain that has written all 128 bytes of a poisoned line clears it (R327). -/
def coverLine (loc n : Nat) (x : State × EngOp) : State × EngOp :=
  let line := lineNum loc
  if x.2.kind == .coll || (x.1.poisonOf (line * 128) 128).isNone then x
  else
    let m := (assoc line x.2.cover).getD 0 ||| byteMask (loc % 128) n
    if m = 2 ^ 128 - 1 then (x.1.cleanLine line, x.2)
    else (x.1, { x.2 with cover := setAssoc line m x.2.cover })

/-- Writes bytes of one line, where the operation reaches it. -/
def engPutLine (p : DWord) (bs : List Byte) (x : State × EngOp) : State × EngOp :=
  match x.1.engReach x.2 p bs.length true with
  | .ok loc mode =>
    let s := x.1.writeBytes loc bs
    match mode with
    | .remote dev => (addPoint x.2.id x.2.core (pointOfModule dev) x.1, x.2)
    | .scratch => (s, x.2)
    | _ => coverLine loc bs.length (dirtyAt mode x.2.die (loc + bs.length - 1) (dirtyAt mode x.2.die loc s), x.2)
  | _ => x

/-- Writes bytes from p on. -/
def engPut (p : DWord) (bs : List Byte) (x : State × EngOp) : State × EngOp :=
  (pieces p bs.length).foldl (fun x q =>
    engPutLine q.1 ((bs.drop ((q.1 - p).toNat)).take q.2) x) x

/-- How far a set of writes has come: what the first piece that is not written needs, and whether one waits for the core's store queue. -/
structure PutEnd where
  bar : Option Reach
  wait : Bool
  deriving DecidableEq, Repr

/-- Piece number `i` of what an operation writes, unless it lies in memory already or the operation has met a stop. -/
def putPiece (y : (State × EngOp) × PutEnd) (i : Nat) (p : DWord) (bs : List Byte) : (State × EngOp) × PutEnd :=
  match y.2.bar with
  | some (.stop _) => y
  | _ =>
    if y.1.2.put.contains i then y
    else match y.1.1.engReach y.1.2 p bs.length true with
    | .ok _ _ =>
      if y.1.1.engQueued y.1.2 p bs.length then (y.1, { y.2 with wait := true })
      else
        let z := engPutLine p bs y.1
        ((z.1, { z.2 with put := i :: z.2.put }), y.2)
    | r => (y.1, { y.2 with bar := y.2.bar.or (some r) })

/-- The pieces of some runs of bytes, each within a line. -/
def putPieces (l : List (DWord × List Byte)) : List (DWord × List Byte) :=
  l.flatMap (fun x => (pieces x.1 x.2.length).map (fun q => (q.1, (x.2.drop ((q.1 - x.1).toNat)).take q.2)))

/-- Writes runs of bytes line by line, each as soon as the operation holds its line (R233, R339). -/
def putAll (l : List (DWord × List Byte)) (x : State × EngOp) : (State × EngOp) × PutEnd :=
  (putPieces l).zipIdx.foldl (fun y q => putPiece y q.2 q.1.1 q.1.2) (x, ⟨none, false⟩)

/-- The global address that a line of an operation stands for. -/
def State.lineGlob (s : State) (e : EngOp) (p : DWord) : DWord :=
  match decodePtr p with
  | some (.handle i _ off) => BitVec.ofNat 64 ((s.buffer e.ctx i).base + off)
  | _ => p

/-- What a copy keeps of its accepted lines: the last ones; a matrix operation keeps all. -/
def EngOp.keep (e : EngOp) (key : Nat) : List Nat := key :: (if e.kind.isCopy && e.kind != .coll then e.lines.take 70 else e.lines)

/-- For whom an operation asks. -/
def EngOp.asker (e : EngOp) : Asker := ⟨e.id, e.policy, e.ctx⟩

/-- The point that a line of an operation reaches. -/
def State.pointOfGlob (s : State) (ctx : Nat) (g : DWord) : Nat := ((s.homeOf ctx g).map pointOfHome).getD 0

/-- COPY_LINE_ACCEPT (R233): a line that an engine's operation touches, or a half of it, is accepted at its home, or the operation waits for its
page, or it stops. -/
def execCopyLineAccept (id line : Nat) (s : State) : Host.Outcome State Fault Refusal :=
  match s.engAct? id with
  | none => .next s
  | some e =>
    if e.phase ≠ .accepted then .next s
    else
      let p : DWord := BitVec.ofNat 64 (line / 8 * 128 + if line / 2 % 4 = 2 then 64 else 0)
      let write := line % 2 == 1
      let g := s.lineGlob e p
      match grasp s e.die e.asker g (if line / 2 % 4 = 3 then 128 else 64) write with
      | .ok s loc _ =>
        let e := { e with lines := e.keep line, channel := s.channelAt e.ctx p g 0 loc }
        let s := addPoint id e.core (s.pointOfGlob e.ctx g) (s.setEng e)
        .next (s.post (engineGo s e))
      | .again s => .next (s.post (.copyLineAccept id line))
      | .absent s =>
        let full := decide ((s.tx.filters.filter (fun x => x.unit == e.core)).length ≥ 64)
        let merged := s.tx.filters.any (fun x => x.unit == e.core && x.ctx == e.ctx && x.page == globPage g)
        if full && !merged then .next (s.post (.copyLineAccept id line))
        else .next (enterFilter e.core e.ctx (globPage g) (.of (if write then rightsW else rightsR))
          (s.setEng { e with phase := .pageWait e.ctx (globPage g) }))
      | .stop c => .next (stopEng e (e.cause p c) s)

/-- The operation asks for a line, or stops; for what `firstBar` answers. -/
def engBar (e : EngOp) (r : Reach) (s : State) : State :=
  match r with
  | .need k => (s.setEng e).post (.copyLineAccept e.id k)
  | .stop c => stopEng e c s
  | .ok _ _ => s

end Sys2Proof.Machine
end

