-- ==== Sys2Proof/Machine/Copy.lean ====
section
/-! DEFINITION. The copy engine: layout records (R229–R232), copies and their progress (R233, R234), bulk copies and
decompression (R235, R236, R275), systolic forwarding (R237), accumulator-free instructions of the copy class (R274, R275). -/

namespace Sys2Proof.Machine

/-! ## Layout records (R229) -/

structure Layout where
  fill : Nat
  band : Nat
  step : Nat
  hops : Nat
  hopwarp : Nat
  hopkey : Nat
  fmt : Nat
  rank : Nat
  /-- Box size, extent and stride in bytes of the six dimensions; one that the rank leaves out has box 1 and extent 1. -/
  box : List Nat
  ext : List Nat
  stride : List Nat
  base : DWord
  /-- No reserved bit is set, and no field of a dimension left out. -/
  clean : Bool
  deriving DecidableEq, Repr

def layoutOf (r : Nat) : Layout :=
  let rank := recBits r 437 435
  let box (d : Nat) : Nat := recBits r (368 + 8 * d + 7) (368 + 8 * d)
  let ext (d : Nat) : Nat := recBits r (224 + 24 * d + 23) (224 + 24 * d)
  let str (d : Nat) : Nat := if d = 0 then 0 else recBits r (32 * d + 63) (32 * d + 32)
  let ds := List.range 6
  { fill := recBits r 511 480, band := recBits r 479 464, step := recBits r 463 458, hops := recBits r 457 452,
    hopwarp := recBits r 451 446, hopkey := recBits r 445 442, fmt := recBits r 441 438, rank := rank,
    box := ds.map (fun d => if d < rank then box d + 1 else 1), ext := ds.map (fun d => if d < rank then ext d else 1),
    stride := ds.map (fun d => 16 * str d), base := recPtr r 0,
    clean := recBits r 434 416 == 0 && ds.all (fun d => decide (d < rank) || (box d == 0 && ext d == 0 && str d == 0)) }

/-- The element size in the tensor, and in scratchpad (R230). -/
def Layout.es (l : Layout) : Nat := if l.fmt ≤ 3 then 2 ^ l.fmt else 1
def Layout.esS (l : Layout) : Nat := if l.fmt = 4 then 4 else l.es
def Layout.q4 (l : Layout) : Bool := l.fmt == 4
/-- Elements of the box, and its scratchpad bytes. -/
def Layout.count (l : Layout) : Nat := l.box.foldl (· * ·) 1
def Layout.bytes (l : Layout) : Nat := l.esS * l.count

/-- The coordinates of element e of the box, dimension 0 fastest (R230). -/
def boxCoords (e : Nat) : List Nat → List Int → List Int
  | b :: bs, o :: os => (o + (e % b : Nat)) :: boxCoords (e / b) bs os
  | _, _ => []
def Layout.coords (l : Layout) (orig : List Int) (e : Nat) : List Int := boxCoords e l.box orig

/-- R231. -/
def Layout.inside (l : Layout) (cs : List Int) : Bool := (cs.zip l.ext).all (fun x => decide (0 ≤ x.1) && decide (x.1 < x.2))

/-- The tensor address of an element in bounds (R230). -/
def Layout.addr (l : Layout) (cs : List Int) : DWord :=
  l.base + BitVec.ofInt 64 (cs.getD 0 0 * l.es + ((cs.zip l.stride).drop 1).foldl (fun (acc : Int) x => acc + x.1 * (x.2 : Int)) 0)

/-- The Q4 line of an element in bounds, and its position in it (R65, R232). -/
def Layout.q4Place (l : Layout) (cs : List Int) : DWord × Nat :=
  let q := (cs.getD 1 0 * l.ext.getD 0 0 + cs.getD 0 0).toNat
  (l.base + BitVec.ofInt 64 ((128 * (q / 192) : Nat) + ((cs.zip l.stride).drop 2).foldl (fun (acc : Int) x => acc + x.1 * (x.2 : Int)) 0), q % 192)

/-- The fill of an element out of bounds (R231). -/
def Layout.fillBytes (l : Layout) : List Byte :=
  if l.fmt = 3 then bytesOf 8 (l.fill * 2 ^ 32) else bytesOf l.esS l.fill

/-- The checks of a layout record at acceptance (R229, R230, R232) (log 35, DEDUCED). -/
def Layout.check (l : Layout) (forward store : Bool) (orig : List Int) : Option Cause :=
  firstCause [
    failIf (!l.clean || l.fmt > 4 || l.rank = 0 || l.rank = 7) .illegalOperand,
    failIf (!forward && (l.step != 0 || l.hops != 0 || l.hopwarp != 0 || l.hopkey != 0)) .illegalOperand,
    failIf (forward && (l.step = 0 || l.hopkey = 0 || l.hopkey = 15)) .illegalOperand,
    failIf (!l.q4 && !forward && l.band != 0) .illegalOperand,
    failIf (l.q4 && (l.rank < 2 || l.ext.getD 0 0 = 0 || l.ext.getD 0 0 % 96 != 0 || l.stride.getD 1 0 != 0
      || (l.stride.drop 2).any (fun x => x % 128 != 0) || l.base.toNat % 128 != 0
      || (orig.getD 0 0) % 8 != 0 || l.box.getD 0 0 % 8 != 0)) .illegalOperand,
    failIf (l.q4 && store && (match Fmt.bf16.decode l.band with | .fin _ m _ => m == 0 | _ => true)) .illegalOperand ]

/-- The object of a copy (R274): its location. -/
def objectPtr (s : State) (th : Thread) (obj : Option DWord) : Except Cause (Option Nat) :=
  match obj with
  | none => .ok none
  | some p =>
    match checkPtr s th Spaces.object .write p 16 16 with
    | some c => .error c
    | none => .ok ((scratchLoc s th p 16).map (·.2))

/-- A hop of CPYF (R237): its block. -/
def hopBlock (s : State) (block : Nat) (l : Layout) (h : Nat) : Option Block :=
  match s.block? block with
  | none => none
  | some b => match s.gang? b.gang with
    | some g => if h = 0 then some b else s.blockOfRank b.gang ((b.rank + h * l.step) % Nat.max 1 g.nblock)
    | none => none

/-- The hops' checks (R237) and ranges. -/
def hopCheck (s : State) (block off n : Nat) (l : Layout) (h : Nat) : Except Cause (Nat × Nat × Nat) :=
  match hopBlock s block l h with
  | none => .error .spaceFault
  | some b =>
    if l.hopwarp ≥ (b.ntid + 31) / 32 then .error .keyMisuse
    else if off + n > b.spSize then .error .spaceFault
    else .ok (b.core, b.spBase + off, b.spBase + off + n - 1)

/-- The plan of a CPY or CPYF of an agent (R228–R232, R237, R274): e holds the record. -/
def planCopy (s : State) (th : Thread) (e : EngOp) (sp : DWord) (orig : List Int) (obj : Option DWord) : Except Cause EngPlan :=
  let l := layoutOf e.recN
  let store := e.kind == .cpy true
  let forward := e.kind == .cpyf
  let n := l.bytes
  match firstCause [failIf (store && obj.isSome) .illegalOperand, l.check forward store orig,
      checkPtr s th Spaces.tensor .read l.base (if l.q4 then 1 else l.es) l.es,
      checkPtr s th Spaces.ownOnly .read sp l.esS n], objectPtr s th obj with
  | some c, _ => .error c
  | none, .error c => .error c
  | none, .ok ob =>
    let off := sp.toNat % 2 ^ 19
    let lo := (match s.block? e.block with | some b => b.spBase | none => 0) + off
    let own : List (Nat × Nat × Nat) := if store then [] else [(e.core, lo, lo + n - 1)]
    let hops := if forward then (List.range l.hops).map (fun h => hopCheck s e.block off n l (h + 1)) else []
    match hops.findSome? (fun x => match x with | .error c => some c | .ok _ => none) with
    | some c => .error c
    | none =>
      let far := hops.filterMap (fun x => match x with | .ok r => some r | .error _ => none)
      .ok { op := { e with src := l.base, dst := sp, orig := orig, len := l.count, obj := ob }, ranges := own ++ far, charge := n }

/-- Bytes of one space that overlap (R275). -/
def sameSpaceOverlap (p : DWord) (n : Nat) (q : DWord) (m : Nat) : Bool := ptrTag p == ptrTag q && overlap p.toNat n q.toNat m

/-- Four bytes of an operation's source as they stand at its acceptance; none where their page is not resident. -/
def State.peek (s : State) (e : EngOp) (p : DWord) : Option Nat :=
  match s.checkAccess e.agent Spaces.engine .read p 4 1 with
  | .ok (.scratch _ loc _) => some (s.readLe loc 4)
  | .ok (.glob g) => match s.resolve e.ctx g 4 rightsR anyFmt with
    | .ok q => some (leValue (s.seen e.core (q.base + g.toNat % 65536) 4))
    | _ => none
  | _ => none

/-- The bytes of a compressed stream of n blocks (R235), as its headers stand at acceptance: up to a header that is a stream error, or
that cannot be read, with the byte after it (log 83, DEDUCED). -/
def State.streamBytes (s : State) (e : EngOp) (p : DWord) : Nat → Nat → Nat
  | 0, pos => pos
  | n + 1, pos =>
    match s.peek e (p + BitVec.ofNat 64 pos) with
    | none => pos + 5
    | some v =>
      let len := v % 2 ^ 13
      if v / 2 ^ 30 = 3 ∨ v / 2 ^ 13 % 2 ^ 17 ≠ 0 ∨ len = 0 ∨ len > 4096 then pos + 5
      else if n = 0 then pos + 4 + len
      else s.streamBytes e p n (pos + 4 + (len + 3) / 4 * 4)

/-- The plan of a CPYB of an agent (R275). With .dz the length of the source is that of its stream (R235); its allocation is checked as it
is read. -/
def planBytes (s : State) (th : Thread) (e : EngOp) (src dst : DWord) (len : Nat) (obj : Option DWord) : Except Cause EngPlan :=
  let dz := e.kind == .cpyb true
  let own := match decodePtr dst with | some (.own _) => true | _ => false
  let srcOk := if dz then checkPtr s th Spaces.engine .read src 4 0 else checkPtr s th Spaces.engine .read src 16 len
  match firstCause [srcOk, checkPtr s th Spaces.copyDst .write dst 16 len, failIf (obj.isSome && !own) .illegalOperand,
      failIf (decide (0 < len) && sameSpaceOverlap src (if dz then s.streamBytes e src ((len + 4095) / 4096) 0 else len) dst len) .illegalOperand], objectPtr s th obj with
  | some c, _ => .error c
  | none, .error c => .error c
  | none, .ok ob =>
    let lo := (match s.block? e.block with | some b => b.spBase | none => 0) + dst.toNat % 2 ^ 19
    .ok { op := { e with src := src, dst := dst, len := len, obj := ob },
          ranges := if own && decide (0 < len) then [(e.core, lo, lo + len - 1)] else [], charge := len }

/-! ## The instructions (R274, R275) -/

/-- The object operand of a copy. -/
def copyObject (c : Ctx) : Option DWord := if Forms.m4 c.f then some (c.pair 3 c.f.d.toNat) else none
/-- The origin of a copy. -/
def copyOrigin (c : Ctx) : List Int := (c.group 2 c.f.c.toNat 6).map (fun w => w.toInt)

def copyBody (kind : EngKind) (c : Ctx) : Res :=
  keyChecked c (readRecord c Spaces.recordSet c.addr 64 (fun s r =>
    handOver c s (planCopy s c.th (engOf c kind r c.addr) (c.pair 1 c.f.b.toNat) (copyOrigin c) (copyObject c))))

/-- CPY (R274). -/
def execCpy (f : Fields) (s : State) : Host.Outcome State Fault Refusal :=
  issueOp 0x280 f s (copyBody (.cpy (Forms.m3 f)))

/-- CPYF (R237, R274). -/
def execCpyf (f : Fields) (s : State) : Host.Outcome State Fault Refusal := issueOp 0x282 f s (copyBody .cpyf)

/-- CPYB (R275). -/
def execCpyb (f : Fields) (s : State) : Host.Outcome State Fault Refusal :=
  issueOp 0x281 f s (fun c => keyChecked c
    (handOver c c.s (planBytes c.s c.th (engOf c (.cpyb (Forms.m3 f)) 0 0) c.addr (c.pair 1 f.b.toNat)
      (c.reg 2 f.c.toNat).toNat (copyObject c))))

/-! ## One unit of a copy -/

/-- What the next unit of a copy comes to: written, with the progress it makes; or what keeps it. -/
inductive UnitRes where
  | ok (x : State × EngOp) (adv : Nat)
  | bar (r : Reach)
  /-- The same, with the source already read. -/
  | hold (e : EngOp) (r : Reach)
  | again

/-- The block of eight FP32 words quantised into its line (R69, R71, R232), whose reserved field becomes zero (R66). -/
def q4Store (l : Layout) (line : DWord) (pos : Nat) (ws : List Byte) (x : State × EngOp) : State × EngOp :=
  let j := pos / 8
  let old := match x.1.engReach x.2 line 128 true with | .ok loc _ => x.1.readBytes loc 128 | _ => []
  let vs := (List.range 8).map (fun i => Fmt.f32.decode (leValue ((ws.drop (4 * i)).take 4)))
  let q := quantBlock (Fmt.bf16.decode l.band) vs
  let elems : List Byte := (List.range 4).map (fun i => BitVec.ofNat 8 (q.1.elems.getD (2 * i) 0 + 16 * q.1.elems.getD (2 * i + 1) 0))
  let scale : List Byte := [BitVec.ofNat 8 q.1.scale]
  let ver := bytesOf 2 (leValue ((old.drop 120).take 2) + 1)
  let band := bytesOf 2 l.band
  let new := patch 124 (bytesOf 2 0) (patch 122 band (patch 120 ver (patch (96 + j) scale (patch (4 * j) elems old))))
  let x := engPut (line + BitVec.ofNat 64 (4 * j)) elems x
  let x := engPut (line + BitVec.ofNat 64 (96 + j)) scale x
  let x := engPut (line + 120) (ver ++ band ++ bytesOf 2 0) x
  let x := engPut (line + 126) (bytesOf 2 (q4Check new).toNat) x
  (setFmterr x.2.core q.2.1 x.1, x.2)

/-- The page of a Q4 line agrees with a record of Q4 format (R169): a formatted page is a Q4 page of the record's row length; of a raw one the
record governs, as R241 has it (log 82, DEDUCED). -/
def Layout.q4Agrees (l : Layout) (s : State) (ctx : Nat) (g : DWord) : Bool :=
  match attrOf (s.attrEntry ctx (globPage g)) with
  | some a => a.fmt == 0 || (a.fmt == 1 && l.ext.getD 0 0 == 96 * a.geom)
  | none => true

/-- A unit of CPY and CPYF: one element, or one block of a Q4 store (R230–R233) (log 34, DEDUCED). -/
def boxUnit (s : State) (e : EngOp) : UnitRes :=
  let l := layoutOf e.recN
  let cs := l.coords e.orig e.progress
  let sp := e.dst + BitVec.ofNat 64 (l.esS * e.progress)
  let put (bs : List Byte) (s : State) : UnitRes :=
    match s.engReach e sp l.esS true with
    | .ok _ _ => .ok (engPut sp bs (s, e)) 1
    | r => .bar r
  if e.kind = .cpy true then
    let w := if l.q4 then 8 else 1
    if !(l.inside cs) then .ok (s, e) w
    else
      match s.engReach e sp (w * l.esS) false with
      | .ok _ _ =>
        let bs := s.engRead e sp (w * l.esS)
        if l.q4 then
          let p := l.q4Place cs
          match s.engReach e p.1 128 true with
          | .ok _ _ =>
            if !(l.q4Agrees s e.ctx (s.lineGlob e p.1)) then .bar (.stop .engineFault)
            else if s.engQueued e p.1 128 then .again else .ok (q4Store l p.1 p.2 bs (s, e)) w
          | r => .bar r
        else
          let p := l.addr cs
          match s.engReach e p l.es true with
          | .ok _ _ => if s.engQueued e p l.es then .again else .ok (engPut p bs (s, e)) 1
          | r => .bar r
      | r => .bar r
  else if !(l.inside cs) then put l.fillBytes s
  else if l.q4 then
    let p := l.q4Place cs
    match s.engReach e p.1 128 false with
    | .ok _ _ =>
      if !(l.q4Agrees s e.ctx (s.lineGlob e p.1)) then .bar (.stop .engineFault)
      else
        let v := q4Element (s.engRead e p.1 128) p.2
        put (bytesOf 4 (q4Word v.1)) (setFmterr e.core v.2 s)
    | r => .bar r
  else
    let p := l.addr cs
    match s.engReach e p l.es false with
    | .ok _ _ => put (s.engRead e p l.es) s
    | r => .bar r

/-- A unit of CPYB: the bytes up to the next end of a line on either side (R275), read once and written when the copy holds the line that they
go to. -/
def byteUnit (s : State) (e : EngOp) : UnitRes :=
  let p := e.src + BitVec.ofNat 64 e.progress
  let q := e.dst + BitVec.ofNat 64 e.progress
  let n := Nat.min (e.len - e.progress) (Nat.min (128 - p.toNat % 128) (128 - q.toNat % 128))
  match (if e.got.isEmpty then s.engReach e p n false else .ok 0 .direct) with
  | .ok _ _ =>
    let bs := if e.got.isEmpty then s.engRead e p n else e.got
    match s.engReach e q n true with
    | .ok _ _ => if s.engQueued e q n then .again else .ok (engPut q bs (s, { e with got := [] })) n
    | r => .hold { e with got := bs } r
  | r => .bar r

/-- How a run of units ends. -/
inductive RunEnd where
  | done
  | bar (r : Reach)
  | again
  deriving DecidableEq, Repr

/-- The aligned 16 bytes that element i of a copy goes to; a number of its own for a unit that is written whole anyway. -/
def destUnit (e : EngOp) (i : Nat) : Nat :=
  let l := layoutOf e.recN
  let own := 2 ^ 64 + i
  match e.kind with
  | .cpyb _ => own
  | .cpy true =>
    let cs := l.coords e.orig i
    if l.q4 || !(l.inside cs) then own else (l.addr cs).toNat / 16
  | _ => (e.dst.toNat + l.esS * i) / 16

/-- Runs the units that go to one aligned 16 bytes. -/
def unitRun (u : Nat) : Nat → State × EngOp → (State × EngOp) × RunEnd
  | 0, x => (x, .done)
  | fuel + 1, x =>
    if x.2.progress ≥ x.2.len ∨ destUnit x.2 x.2.progress ≠ u then (x, .done)
    else match (match x.2.kind with | .cpyb _ => byteUnit x.1 x.2 | _ => boxUnit x.1 x.2) with
    | .ok y adv => unitRun u fuel (y.1, { y.2 with progress := x.2.progress + adv })
    | .bar r => (x, .bar r)
    | .hold e r => ((x.1, e), .bar r)
    | .again => (x, .again)

/-- Runs up to `fuel` aligned 16-byte units, each written whole (R186): one that is kept waiting in the middle begins anew; one that is stopped
leaves what it wrote (R233) (log 20, DESIGN CHOICE). -/
def copyRun : Nat → State × EngOp → (State × EngOp) × RunEnd
  | 0, x => (x, .again)
  | fuel + 1, x =>
    if x.2.progress ≥ x.2.len then (x, .done)
    else
      let r := unitRun (destUnit x.2 x.2.progress) 16 x
      match r.2 with
      | .done => copyRun fuel r.1
      | .bar (.stop c) => (r.1, .bar (.stop c))
      | .bar b => (if r.1.2.progress = x.2.progress then r.1 else x, .bar b)
      | .again => (x, .again)

/-- Scratchpad bytes that a copy has delivered between two points of its progress (R239). -/
def deliveredBytes (e : EngOp) (a b : Nat) : Nat :=
  match e.kind with | .cpyb _ => b - a | _ => (layoutOf e.recN).esS * (b - a)

def deliverTo (e : EngOp) (n : Nat) (s : State) : State :=
  match e.obj with
  | some loc => if n = 0 then s else (objectUpdate loc (.take n) s).getD s
  | none => s

/-- Everything of its own is written: CPYF goes on to its first hop (R237). -/
def copyDone (e : EngOp) (s : State) : State :=
  let e := { e with phase := if e.kind = .cpyf ∧ (layoutOf e.recN).hops > 0 then .hopping 1 else .written }
  let s := s.setEng e
  s.post (engineGo s e)

/-- COPY_WRITE (R233, R239, R274, R275): with its consume key satisfied, the copy writes its next units, up to `count`, in
iteration order, and delivers them to its object. -/
def execCopyWrite (id count : Nat) (s : State) : Host.Outcome State Fault Refusal :=
  match s.engAct? id with
  | none => .next s
  | some e =>
    if e.phase ≠ .accepted then .next s
    else if !(s.allPerformed e.waits e.scope) then .next (s.post (.copyWrite id count))
    else
      let r := copyRun count (s, e)
      let e' := r.1.2
      let s := deliverTo e' (deliveredBytes e' e.progress e'.progress) (r.1.1.setEng e')
      match r.2 with
      | .done => .next (copyDone e' s)
      | .bar x => .next (engBar e' x s)
      | .again => .next (s.post (.copyWrite id count))

/-! ## Decompression (R235, R236) -/

/-- Zero-run tokens, all of a list. -/
def zeroRun : Nat → List Byte → Option (List Byte)
  | _, [] => some []
  | 0, _ :: _ => none
  | fuel + 1, t :: l =>
    if t.toNat < 0x80 then
      if l.length < t.toNat + 1 then none
      else (zeroRun fuel (l.drop (t.toNat + 1))).map (l.take (t.toNat + 1) ++ ·)
    else (zeroRun fuel l).map (List.replicate (t.toNat - 0x7F) 0 ++ ·)

/-- Undoes the delta of one plane. -/
def undoDelta : Byte → List Byte → List Byte
  | _, [] => []
  | p, b :: bs => (p + b) :: undoDelta (p + b) bs

/-- An output block of n bytes from its data; none is a stream error. -/
def decodeBlock (method n : Nat) (data : List Byte) : Option (List Byte) :=
  match method with
  | 0 => if data.length = n then some data else none
  | 1 => match zeroRun data.length data with
    | some o => if o.length = n then some o else none
    | none => none
  | _ =>
    match zeroRun data.length data with
    | some o =>
      if o.length = n ∧ n % 4 = 0 then
        let planes := (List.range 4).map (fun p => undoDelta 0 ((o.drop (p * (n / 4))).take (n / 4)))
        some ((List.range n).map (fun i => (planes.getD (i % 4) []).getD (i / 4) 0))
      else none
    | none => none

/-- COPY_BLOCK_DECODE (R235, R236): one header, and the block that it heads once the progress is reached; a stream error
stops the copy at the start of its block. -/
def execCopyBlockDecode (id : Nat) (s : State) : Host.Outcome State Fault Refusal :=
  match s.engAct? id with
  | none => .next s
  | some e =>
    if e.phase ≠ .accepted then .next s
    else if !(s.allPerformed e.waits e.scope) then .next (s.post (.copyBlockDecode id))
    else if e.progress ≥ e.len then .next (copyDone e s)
    else
      let pos := (e.orig.getD 0 0).toNat
      let blk := (e.orig.getD 1 0).toNat
      let h := e.src + BitVec.ofNat 64 pos
      match s.engReach e h 4 false with
      | .ok _ _ =>
        let v := leValue (s.engRead e h 4)
        let len := v % 2 ^ 13
        let on : List Int := [((pos + 4 + (len + 3) / 4 * 4 : Nat) : Int), ((blk + 1 : Nat) : Int)]
        if v / 2 ^ 30 = 3 ∨ v / 2 ^ 13 % 2 ^ 17 ≠ 0 ∨ len = 0 ∨ len > 4096 then .next (stopEng e .engineFault s)
        else if blk < e.progress / 4096 then .next ((s.setEng { e with orig := on }).post (.copyBlockDecode id))
        else
          let n := Nat.min 4096 (e.len - e.progress)
          let q := e.dst + BitVec.ofNat 64 e.progress
          match s.firstBar e [(h + 4, len)] false, s.firstBar e [(q, n)] true with
          | some r, _ => .next (engBar e r s)
          | none, some r => .next (engBar e r s)
          | none, none =>
            if s.engQueued e q n then .next (s.post (.copyBlockDecode id))
            else match decodeBlock (v / 2 ^ 30) n (s.engRead e (h + 4) len) with
            | none => .next (stopEng e .engineFault s)
            | some bs =>
              let x := engPut q bs (s, e)
              let e := { x.2 with progress := e.progress + n, orig := on }
              .next ((deliverTo e n (x.1.setEng e)).post (.copyBlockDecode id))
      | r => .next (engBar e r s)

/-! ## Forwarding (R237) -/

/-- CPYF_HOP_FORWARD (R237): the next hop receives the bytes of the hop before it, and its key slot an arrival with an empty
manifest. -/
def execCpyfHopForward (id : Nat) (s : State) : Host.Outcome State Fault Refusal :=
  match s.engAct? id with
  | none => .next s
  | some e =>
    match e.phase with
    | .hopping h =>
      let l := layoutOf e.recN
      let off := e.dst.toNat % 2 ^ 19
      match hopBlock s e.block l (h - 1), hopBlock s e.block l h with
      | some a, some b =>
        let src := scratchBase a.core + a.spBase + off
        if s.badScratch a.core src l.bytes then .next (stopEng e .poison s)
        else
          let s := s.writeBytes (scratchBase b.core + b.spBase + off) (s.readBytes src l.bytes)
          let (sid, s) := s.fresh
          let x : Send := { id := sid, core := e.core, fromGang := e.gang, gang := e.gang, block := b.rank, warp := l.hopwarp,
                            slot := l.hopkey, scope := 0, ops := [], points := [], delivered := false, grp := 0 }
          let s := deliver x { s with sends := s.sends ++ [x] }
          let e := { e with phase := if h + 1 ≤ l.hops then .hopping (h + 1) else .written }
          let s := s.setEng e
          .next (s.post (engineGo s e))
      | _, _ =>
        let s := s.setEng { e with phase := .written }
        .next (s.post (.copyRetire id))
    | _ => .next s

/-- COPY_RETIRE (R163): the last write is done, and the copy's ranges leave the scoreboards. -/
def execCopyRetire (id : Nat) (s : State) : Host.Outcome State Fault Refusal :=
  match s.engAct? id with
  | none => .next s
  | some e => if e.phase = .written then .next ((dropRanges id s).post (.enginePerform id)) else .next s

end Sys2Proof.Machine
end

