-- ==== Sys2Proof/Machine/Matrix.lean ====
section
/-! DEFINITION. The matrix engine: the accumulator store (R242, R243), MMA with its sums, outliers and slices (R73, R74,
R240–R246, R284), MDRN (R248, R249, R285), and the accumulator moves (R276, R277). -/

namespace Sys2Proof.Machine

/-! ## The accumulator store (R242) -/

def State.accRead (s : State) (core row col : Nat) : Word := (assoc (row * 256 + col) (s.core core).acc).getD 0

def State.accWrite (core row col : Nat) (v : Word) (s : State) : State :=
  s.modCore core (fun k => { k with
    acc := if v == 0 then eraseAssoc (row * 256 + col) k.acc else setAssoc (row * 256 + col) v k.acc })

/-- A poisoned accumulator word (R327): the 64-bit unit that holds it. -/
def State.badAcc (s : State) (core row col : Nat) : Bool :=
  (s.core core).badWords.contains (2 ^ 20 + (row * 256 + col) / 2)

/-- The accumulator region of an operation: first row and rows, first column and columns. -/
structure Region where
  row0 : Nat
  rows : Nat
  col0 : Nat
  cols : Nat
  deriving DecidableEq, Repr

/-- The region of the accumulator control word (R273). -/
def controlRegion (w : Nat) : Region :=
  { row0 := w % 256, rows := w / 2 ^ 16 % 256 + 1, col0 := w / 2 ^ 8 % 256, cols := w / 2 ^ 24 % 256 + 1 }

def EngOp.region (e : EngOp) : Region :=
  let r := e.recN
  match e.kind with
  | .mma => { row0 := recBits r 327 320, rows := recBits r 271 256, col0 := recBits r 335 328, cols := recBits r 287 272 }
  | .mdrn => { row0 := recBits r 231 224, rows := recBits r 207 192, col0 := recBits r 239 232, cols := recBits r 223 208 }
  | _ => controlRegion (r % 2 ^ 32)

/-- Where row i of a region lies: from row 128 on, in the partner's accumulator (R243, R277). -/
def State.accPlace (s : State) (e : EngOp) (i : Nat) : Option (Nat × Nat) :=
  let row0 := e.region.row0
  if i < 128 then (s.block? e.block).map (fun b => (b.core, b.acc0 + row0 + i))
  else (s.mateOf e).map (fun m => (m.1, m.2 + row0 + i - 128))

/-- The check of a region (R242, R243, R276, R277): the grants and the columns. -/
def regionCheck (s : State) (block : Nat) (r : Region) (pair : Bool) : Option Cause :=
  let own := if pair then Nat.min r.rows 128 else r.rows
  let fits : Bool := match s.block? block with | some b => decide (r.row0 + own ≤ b.accRows) | none => false
  let far : Bool := !pair || (match s.partner block with
    | some p => decide (r.rows ≤ 128) || decide (r.row0 + (r.rows - 128) ≤ p.accRows)
    | none => false)
  failIf (r.rows = 0 || r.cols = 0 || r.rows > (if pair then 256 else 128) || r.col0 + r.cols > 256 || !fits || !far) .illegalOperand

/-- The rows of each core that an operation reaches. -/
def State.accSpans (s : State) (e : EngOp) : List (Nat × Nat × Nat) :=
  let r := e.region
  let span (i n : Nat) : List (Nat × Nat × Nat) := match n, s.accPlace e i with
    | 0, _ => []
    | n, some (c, row) => [(c, row, row + n)]
    | _, none => []
  span 0 (Nat.min r.rows 128) ++ span 128 (r.rows - 128)

/-- An earlier operation of a core on overlapping rows has not taken effect (R189, R242). -/
def State.accHeld (s : State) (e : EngOp) : Bool :=
  s.engs.any (fun x => decide (x.id < e.id) && !x.stopped && !x.kind.isCopy && x.phase != .written &&
    (s.accSpans x).any (fun a => (s.accSpans e).any (fun b => a.1 == b.1 && decide (a.2.1 < b.2.2) && decide (b.2.1 < a.2.2))))

/-- The columns of a region. -/
def Region.colList (r : Region) : List Nat := (List.range r.cols).map (r.col0 + ·)

/-- The words of row i of an operation's region; none where one is poisoned. -/
def State.accRow (s : State) (e : EngOp) (i : Nat) : Option (List Word) :=
  match s.accPlace e i with
  | none => none
  | some (c, row) =>
    if e.region.colList.any (s.badAcc c row) then none else some (e.region.colList.map (s.accRead c row))

/-- Writes row i of an operation's region. -/
def accPut (e : EngOp) (i : Nat) (ws : List Word) (s : State) : State :=
  match s.accPlace e i with
  | none => s
  | some (c, row) => (e.region.colList.zip ws).foldl (fun s x => s.accWrite c row x.1 x.2) s

/-! ## Operands of MMA (R240, R241) -/

/-- An operand: format code, pointer to row 0, stride (the row length for Q4). -/
structure Operand where
  code : Nat
  ptr : DWord
  stride : Nat
  deriving DecidableEq, Repr

def opA (r : Nat) : Operand := ⟨recBits r 343 336, recPtr r 0, recBits r 223 192⟩
def opB (r : Nat) : Operand := ⟨recBits r 351 344, recPtr r 64, recBits r 255 224⟩
def mmaK (r : Nat) : Nat := recBits r 303 288

def codeSize (code : Nat) : Nat := if code = 2 ∨ code = 3 then 2 else 1
/-- K values per step (R73). -/
def stepK (code : Nat) : Nat := if code = 6 then 96 else 48 / codeSize code

/-- The bytes of row i of an operand, as a pointer and a length: whole lines for Q4. -/
def Operand.row (o : Operand) (k i : Nat) : DWord × Nat :=
  if o.code = 6 then
    let first := i * o.stride / 192
    (o.ptr + BitVec.ofNat 64 (128 * first), 128 * ((i * o.stride + k - 1) / 192 - first + 1))
  else (o.ptr + BitVec.ofNat 64 (i * o.stride), k * codeSize o.code)

/-- The extent of n rows of an operand. -/
def Operand.extent (o : Operand) (k n : Nat) : Nat :=
  if o.code = 6 then 128 * (((n - 1) * o.stride + k - 1) / 192 + 1) else (n - 1) * o.stride + k * codeSize o.code

/-- The check of an operand (R241). -/
def Operand.check (o : Operand) (s : State) (th : Thread) (k n : Nat) : Option Cause :=
  if o.code = 6 then
    firstCause [failIf (o.stride = 0 || o.stride % 96 != 0 || k % 96 != 0 || k > o.stride) .illegalOperand,
      checkPtr s th Spaces.engine .read o.ptr 128 (o.extent k n)]
  else firstCause [failIf (o.stride % 16 != 0) .illegalOperand, checkPtr s th Spaces.engine .read o.ptr 16 (o.extent k n)]

/-- The elements of row i: exact values, and whether a poisoning cause was met (R68). -/
def Operand.vals (o : Operand) (s : State) (e : EngOp) (k i : Nat) : List (Val × Bool) :=
  let r := o.row k i
  let bs := s.engRead e r.1 r.2
  match o.code with
  | 6 =>
    let q0 := i * o.stride - i * o.stride / 192 * 192
    (List.range k).map (fun j => q4Element ((bs.drop ((q0 + j) / 192 * 128)).take 128) ((q0 + j) % 192))
  | code =>
    let es := codeSize code
    let F := match code with | 0 => Fmt.e4m3 | 1 => Fmt.e5m2 | 2 => Fmt.bf16 | _ => Fmt.f16
    (List.range k).map (fun j => (F.decode (leValue ((bs.drop (es * j)).take es)), false))

/-- The elements of an integer row. -/
def Operand.ints (o : Operand) (s : State) (e : EngOp) (k i : Nat) : List Int :=
  let r := o.row k i
  (s.engRead e r.1 r.2).map (fun b => if o.code = 4 then b.toInt else (b.toNat : Int))

/-- Whether a formatted page agrees with an operand's code, and a Q4 page with its row length (R169, R241). -/
def Operand.agrees (o : Operand) (s : State) (e : EngOp) (k i : Nat) : Bool :=
  let r := o.row k i
  (pieces r.1 r.2).all (fun x =>
    match decodePtr x.1 with
    | some (.glob _ _) | some (.handle _ _ _) =>
      (match attrOf (s.attrEntry e.ctx (globPage (s.lineGlob e x.1))) with
        | none => true
        | some a => match a.fmt with
          | 0 => true
          | 1 => o.code == 6 && o.stride == 96 * a.geom
          | 2 => o.code == 0
          | _ => o.code == 1)
    | _ => true)

/-! ## Sums (R73, R74) -/

/-- The steps of one output: the accumulator, or nothing in overwrite mode, and the products still to sum. -/
def dotSteps (k : Nat) : Nat → Option Nat → List Val → List Val → Nat
  | 0, acc, _, _ => acc.getD 0
  | fuel + 1, acc, as, bs =>
    if as.isEmpty then acc.getD 0
    else
      let ps := (as.take k).zipWith Val.mul (bs.take k)
      let t0 : List Val := match acc with | some a => [Fmt.f32.decode a] | none => []
      dotSteps k fuel (some (sumRound32 (t0 ++ ps))) (as.drop k) (bs.drop k)

/-- INT8 (R74): the exact dot product plus the accumulator, modulo 2^32. -/
def dotInt (acc : Int) (as bs : List Int) : Word := BitVec.ofInt 32 (((as.zip bs).foldl (fun x p => x + p.1 * p.2) 0) + acc)

/-- An outlier entry (R244). -/
def outRow (x : Nat) : Nat := x % 256
def outK (x : Nat) : Nat := x / 2 ^ 8 % 2 ^ 12
def outVal (x : Nat) : Val := Fmt.bf16.decode (x / 2 ^ 20 % 2 ^ 16)

/-- The outliers of row i applied to an output of column j, in list order (R244). -/
def applyOutliers (i k : Nat) (ol : List Nat) (b : List Val) (acc : Nat) : Nat :=
  (ol.filter (fun x => outRow x == i && decide (outK x < k))).foldl (fun acc x =>
    sumRound32 [Fmt.f32.decode acc, (outVal x).mul (b.getD (outK x) .nan)]) acc

/-! ## MMA (R240–R246, R284) -/

/-- The plan of an MMA of an agent: e holds the parameter block. -/
def planMma (s : State) (th : Thread) (e : EngOp) : Except Cause EngPlan :=
  let r := e.recN
  let a := opA r
  let b := opB r
  let m := recBits r 271 256
  let n := recBits r 287 272
  let k := mmaK r
  let oln := recBits r 319 304
  let pair := r.testBit 353
  let mates : Bool := match a.code with
    | 0 | 1 => decide (b.code ≤ 1) | 2 => b.code == 2 | 3 => b.code == 3 | 4 | 5 => b.code == 4 || b.code == 5
    | 6 => b.code == 6 | _ => false
  let ev := recPtr r 384
  let evOk := ev == 0 || (checkPtr s th Spaces.object .write ev 16 16).isNone
  match firstCause [
    failIf (recBits r 511 448 != 0 || recBits r 383 354 != 0 || !mates || k = 0 || k > 4096 || n = 0 || n > 256 || m = 0
      || m > (if pair then 256 else 128) || ((a.code = 4 || a.code = 5) && oln != 0)) .illegalOperand,
    regionCheck s e.block e.region pair,
    a.check s th k m, b.check s th k n,
    checkPtr s th Spaces.engine .read (recPtr r 128) 8 (8 * oln),
    failIf (!evOk) .spaceFault ] with
  | some c => .error c
  | none => .ok { op := { e with obj := if ev == 0 then none else (scratchLoc s th ev 16).map (·.2) }, ranges := [], charge := 0 }

/-- MMA (R284). -/
def execMma (f : Fields) (s : State) : Host.Outcome State Fault Refusal :=
  issueOp 0x2C0 f s (fun c => keyChecked c (readRecord c Spaces.recordSet c.addr 64 (fun s r =>
    handOver c s (planMma s c.th (engOf c .mma r c.addr)))))

/-- The outlier entries of an MMA. -/
def outliers (s : State) (e : EngOp) : List Nat :=
  let n := recBits e.recN 319 304
  let bs := s.engRead e (recPtr e.recN 128) (8 * n)
  (List.range n).map (fun i => leValue ((bs.drop (8 * i)).take 8))

/-- The words of output row i. -/
def mmaRow (s : State) (e : EngOp) (ol : List Nat) (bv : List (List Val)) (bi : List (List Int)) (old : List Word) (i : Nat) :
    List Word × Bool :=
  let r := e.recN
  let a := opA r
  let k := mmaK r
  let accum := r.testBit 352
  if a.code = 4 ∨ a.code = 5 then
    let as := a.ints s e k i
    ((bi.zip old).map (fun x => dotInt (if accum then x.2.toInt else 0) as x.1), false)
  else
    let as := a.vals s e k i
    let vs := as.map (·.1)
    ((bv.zip old).map (fun x => BitVec.ofNat 32 (applyOutliers i k ol x.1
      (dotSteps (stepK a.code) (k + 1) (if accum then some x.2.toNat else none) vs x.1))), as.any (·.2))

/-- MMA_SLICE_WRITE (R245): the next slice of 16 rows, every step and outlier done, is written into the accumulator; the
outlier list is checked before the first slice of a run (R244). Of a pair both engines execute, and each core records what its own finds
(R70, R243). -/
def execMmaSliceWrite (id : Nat) (s : State) : Host.Outcome State Fault Refusal :=
  match s.engAct? id with
  | none => .next s
  | some e =>
    if e.phase ≠ .accepted then .next s
    else if !(s.allPerformed e.waits e.scope) || s.accHeld e then .next (s.post (.mmaSliceWrite id))
    else
      let r := e.recN
      let a := opA r
      let b := opB r
      let k := mmaK r
      let n := recBits r 287 272
      let rows := (List.range (Nat.min 16 (e.region.rows - e.progress))).map (e.progress + ·)
      let cols := List.range n
      let reads := [(recPtr r 128, 8 * recBits r 319 304)] ++ rows.map (a.row k) ++ cols.map (b.row k)
      match s.firstBar e reads false with
      | some x => .next (engBar e x s)
      | none =>
        let ol := outliers s e
        if e.orig.isEmpty && ol.any (fun x => decide (x / 2 ^ 36 % 2 ^ 28 ≠ 0)) then .next (stopEng e .engineFault s)
        else if !(rows.all (a.agrees s e k)) || !(cols.all (b.agrees s e k)) then .next (stopEng e .engineFault s)
        else if rows.any (fun i => (s.accRow e i).isNone && r.testBit 352) then .next (stopEng e .poison s)
        else
          let int := a.code = 4 ∨ a.code = 5
          let bv := if int then [] else cols.map (b.vals s e k)
          let bi := if int then cols.map (b.ints s e k) else []
          let bad := bv.any (fun l => l.any (·.2))
          let bvals := bv.map (fun l => l.map (·.1))
          let out := rows.map (fun i => (i, mmaRow s e ol bvals bi ((s.accRow e i).getD (cols.map (fun _ => 0))) i))
          let t := out.foldl (fun t x => accPut e x.1 x.2.1 t) s
          let far := match e.pair, s.mateOf e with | true, some m => [m.1] | _, _ => []
          let t := setFmterr e.core (bad || out.any (fun x => x.2.2 && decide (x.1 < 128))) t
          let t := far.foldl (fun t c => setFmterr c (bad || out.any (fun x => x.2.2 && decide (x.1 ≥ 128))) t) t
          let done := e.progress + rows.length
          let e := { e with progress := done, orig := [1], phase := if done ≥ e.region.rows then .written else .accepted }
          let t := t.setEng e
          .next (t.post (engineGo t e))

/-- OPERANDS_CONSUMED (R239, R246): every read of the MMA has bound, and the event arrives at its object; one that the unit
refuses is dropped and faults the produce key. -/
def execOperandsConsumed (id : Nat) (s : State) : Host.Outcome State Fault Refusal :=
  match s.engAct? id with
  | none => .next s
  | some e =>
    if e.phase ≠ .written ∨ e.consumed = true then .next s
    else
      let go (s : State) : State := (s.setEng { e with consumed := true }).post (.enginePerform id)
      match e.obj with
      | none => .next (go s)
      | some loc => match objectUpdate loc .arrive s with
        | some s => .next (go s)
        | none => .next (stopEng e .engineFault s)

/-! ## MDRN (R248, R249, R285) -/

/-- The element size of a drain format. -/
def drainSize (fmt : Nat) : Nat := match fmt with | 0 => 4 | 1 => 2 | 2 => 2 | 3 => 1 | 4 => 1 | 6 => 4 | _ => 1

/-- One word converted into a drain format other than Q4 (R249) (log 62, DEDUCED). -/
def drainWord (fmt : Nat) (sat : Bool) (w : Word) : List Byte :=
  let v := Fmt.f32.decode w.toNat
  let wide (F : Fmt) : List Byte := bytesOf 2 (convFloat F .rne false sat v).code
  match fmt with
  | 1 => wide Fmt.bf16
  | 2 => wide Fmt.f16
  | 3 => bytesOf 1 (convNarrow Fmt.e4m3 sat v).1.code
  | 4 => bytesOf 1 (convNarrow Fmt.e5m2 sat v).1.code
  | _ => bytesOf 4 w.toNat

/-- A Q4 tensor of rows of L values as lines (R65, R71, R72, R249), and whether ctl.fmterr is set. -/
def q4Lines (l : Nat) (rows : List (List Val)) : List (List Byte) × Bool :=
  let all := rows.flatten
  let total := rows.length * l
  let zero : Val := .fin false 0 0
  let lines := (List.range ((total + 191) / 192)).map (fun n =>
    let band := 192 * n / l / 64
    let g := bandScale ((all.drop (band * 64 * l)).take (64 * l) ++ (if (band + 1) * 64 * l > total then [zero] else []))
    let vs := (List.range 192).map (fun i => all.getD (192 * n + i) zero)
    let qs := (List.range 24).map (fun j => quantBlock (Fmt.bf16.decode g) ((vs.drop (8 * j)).take 8))
    let codes := qs.flatMap (fun q => q.1.elems)
    let body : List Byte := (List.range 96).map (fun i => BitVec.ofNat 8 (codes.getD (2 * i) 0 + 16 * codes.getD (2 * i + 1) 0))
    let line := body ++ qs.map (fun q => (BitVec.ofNat 8 q.1.scale : Byte)) ++ bytesOf 2 0 ++ bytesOf 2 g ++ bytesOf 4 0
    (patch 126 (bytesOf 2 (q4Check line).toNat) line, qs.any (fun q => q.2.1)))
  (lines.map (·.1), lines.any (·.2))

/-- The formats, strides and destinations of a drain record. -/
structure Drain where
  fmt : Nat
  ptr : DWord
  stride : Nat
  deriving DecidableEq, Repr

def drainD (r : Nat) : Drain := ⟨recBits r 247 240, recPtr r 0, recBits r 159 128⟩
def drainT (r : Nat) : Drain := ⟨recBits r 255 248, recPtr r 64, recBits r 191 160⟩
/-- The copies that a drain makes: the direct one, and the transposed one unless its format is 0xFF. -/
def drainT? (r : Nat) : Option Drain := if (drainT r).fmt = 0xFF then none else some (drainT r)

/-- The check of one destination, of `rows` rows of l elements. -/
def Drain.check (d : Drain) (s : State) (th : Thread) (rows l : Nat) : Option Cause :=
  if d.fmt = 5 then
    firstCause [failIf (l % 96 != 0) .illegalOperand,
      checkPtr s th Spaces.engine .write d.ptr 128 (128 * ((rows * l + 191) / 192))]
  else
    let es := drainSize d.fmt
    firstCause [failIf (d.fmt > 6 || d.stride % es != 0) .illegalOperand,
      checkPtr s th Spaces.engine .write d.ptr es ((rows - 1) * d.stride + l * es)]

/-- The plan of an MDRN of an agent: e holds the drain record. -/
def planMdrn (s : State) (th : Thread) (e : EngOp) : Except Cause EngPlan :=
  let r := e.recN
  let g := e.region
  let t := drainT r
  match firstCause [
    failIf (recBits r 511 259 != 0 || (t.fmt = 0xFF && (t.ptr != 0 || t.stride != 0))) .illegalOperand,
    regionCheck s e.block g (r.testBit 256),
    (drainD r).check s th g.rows g.cols,
    if t.fmt = 0xFF then none else t.check s th g.cols g.rows ] with
  | some c => .error c
  | none => .ok { op := e, ranges := [], charge := 0 }

/-- MDRN (R285). -/
def execMdrn (f : Fields) (s : State) : Host.Outcome State Fault Refusal :=
  issueOp 0x2C1 f s (fun c => keyChecked c (readRecord c Spaces.recordSet c.addr 64 (fun s r =>
    handOver c s (planMdrn s c.th (engOf c .mdrn r c.addr)))))

/-- What a destination receives of rows i0 on: pieces of consecutive bytes. `grid` holds the rows of the copy's own shape. -/
def Drain.writes (d : Drain) (sat : Bool) (i0 : Nat) (transposed : Bool) (grid : List (List Word)) :
    List (DWord × List Byte) × Bool :=
  if d.fmt = 5 then
    let q := q4Lines (grid.headD []).length (grid.map (fun r => r.map (fun w => Fmt.f32.decode w.toNat)))
    ((List.range q.1.length).map (fun n => (d.ptr + BitVec.ofNat 64 (128 * n), q.1.getD n [])), q.2)
  else
    let es := drainSize d.fmt
    ((List.range grid.length).map (fun i =>
      (d.ptr + BitVec.ofNat 64 (if transposed then i * d.stride + i0 * es else (i0 + i) * d.stride),
        ((grid.getD i []).flatMap (drainWord d.fmt sat)))), false)

/-- Rows as columns. -/
def transposeRows (n : Nat) (g : List (List Word)) : List (List Word) := (List.range n).map (fun j => g.map (fun r => r.getD j 0))

/-- MDRN_DRAIN (R248, R249): in its turn the drain reads its region, converts it and writes both copies; formats other than Q4
go slice by slice, a Q4 tensor as a whole. A poisoned block sets ctl.fmterr of both cores of a pair (R70, R243; log 88, DESIGN CHOICE). -/
def execMdrnDrain (id : Nat) (s : State) : Host.Outcome State Fault Refusal :=
  match s.engAct? id with
  | none => .next s
  | some e =>
    if e.phase ≠ .accepted then .next s
    else if !(s.allPerformed e.waits e.scope) || s.accHeld e then .next (s.post (.mdrnDrain id))
    else
      let r := e.recN
      let g := e.region
      let sat := r.testBit 257
      let whole := (drainD r).fmt = 5 ∨ (drainT? r).any (fun t => t.fmt == 5) = true
      let n := if whole then g.rows - e.progress else Nat.min 16 (g.rows - e.progress)
      let rows := (List.range n).map (e.progress + ·)
      let words := rows.map (s.accRow e)
      if words.any Option.isNone then .next (stopEng e .poison s)
      else
        let grid := words.map (fun w => w.getD [])
        let d := (drainD r).writes sat e.progress false grid
        let t := match drainT? r with
          | some t => t.writes sat e.progress true (transposeRows g.cols grid)
          | none => ([], false)
        let all := d.1 ++ t.1
        let y := putAll all (s, e)
        match y.2.bar with
        | some x => .next (engBar y.1.2 x y.1.1)
        | none =>
          if y.2.wait then .next ((y.1.1.setEng y.1.2).post (.mdrnDrain id))
          else
            let x := y.1
            let s := (s.engCores e).foldl (fun s c => setFmterr c (d.2 || t.2) s) x.1
            let s := if r.testBit 258 then rows.foldl (fun s i => accPut e i (g.colList.map (fun _ => 0)) s) s else s
            let e := { x.2 with progress := e.progress + n, put := [] }
            let e := { e with phase := if e.progress ≥ g.rows then .written else .accepted }
            let s := s.setEng e
            .next (s.post (engineGo s e))

/-! ## Accumulator moves (R276, R277) -/

/-- ACCLD and ACCST hand their move to the matrix engine: the record holds the control word, `len` the row stride. -/
def accMove (kind : EngKind) (store : Bool) (c : Ctx) : Res :=
  keyChecked c (
    let w := (c.reg 1 c.f.b.toNat).toNat
    let st := (c.reg 2 c.f.c.toNat).toNat
    let g := controlRegion w
    let n := (g.rows - 1) * st + 4 * g.cols
    let lo := (match c.s.blockOf c.th with | some b => b.spBase | none => 0) + c.addr.toNat % 2 ^ 19
    handOver c c.s (match firstCause [failIf (st % 4 != 0) .illegalOperand, regionCheck c.s c.th.block g false,
        checkPtr c.s c.th Spaces.ownOnly (if store then .write else .read) c.addr 4 n] with
      | some e => .error e
      | none => .ok { op := { engOf c kind w 0 with src := c.addr, len := st },
                      ranges := if store then [(c.r.core, lo, lo + n - 1)] else [], charge := 0 }))

/-- ACCLD (R276). -/
def execAccld (f : Fields) (s : State) : Host.Outcome State Fault Refusal := issueOp 0x283 f s (accMove .accld false)
/-- ACCST (R276). -/
def execAccst (f : Fields) (s : State) : Host.Outcome State Fault Refusal := issueOp 0x284 f s (accMove .accst true)

/-- MZERO (R277): it waits on its consume key at system scope. -/
def execMzero (f : Fields) (s : State) : Host.Outcome State Fault Refusal :=
  issueOp 0x2C2 f s (fun c => keyChecked c (
    let w := (c.vb false).toNat % 2 ^ 32
    let pair := Forms.m3 f
    handOver c c.s (match regionCheck c.s c.th.block (controlRegion w) pair with
      | some e => .error e
      | none => .ok { op := { engOf c (.mzero pair) w 0 with scope := 6, policy := 0 }, ranges := [], charge := 0 })))

/-- The scratchpad location of row i of an accumulator move. -/
def moveLoc (s : State) (e : EngOp) (i : Nat) : Nat :=
  match scratchLoc s e.agent (e.src + BitVec.ofNat 64 (i * e.len)) 4 with | some (_, l) => l | none => 0

/-- The effect of an accumulator move whose turn it is; none where it reads a poisoned word. -/
def accEffect (e : EngOp) (s : State) : Option State :=
  let g := e.region
  let rows := List.range g.rows
  match e.kind with
  | .accld =>
    if rows.any (fun i => s.badScratch e.core (moveLoc s e i) (4 * g.cols)) then none
    else some (rows.foldl (fun t i =>
      accPut e i ((List.range g.cols).map (fun j => BitVec.ofNat 32 (s.readLe (moveLoc s e i + 4 * j) 4))) t) s)
  | .accst =>
    if rows.any (fun i => (s.accRow e i).isNone) then none
    else some (rows.foldl (fun t i =>
      t.writeBytes (moveLoc s e i) (((s.accRow e i).getD []).flatMap (fun w => bytesOf 4 w.toNat))) s)
  | _ => some (rows.foldl (fun t i => accPut e i (g.colList.map (fun _ => 0)) t) s)

/-- ENGINE_PERFORM (R189): an engine operation performs, and is counted on its produce key. The accumulator moves take effect
here, in their turn (R276, R277). -/
def execEnginePerform (id : Nat) (s : State) : Host.Outcome State Fault Refusal :=
  match s.engAct? id with
  | none => .next s
  | some e =>
    let move := e.kind == .accld || e.kind == .accst || (match e.kind with | .mzero _ => true | _ => false)
    if move then
      if e.phase ≠ .accepted then .next s
      else if !(s.allPerformed e.waits e.scope) || s.accHeld e then .next (s.post (.enginePerform id))
      else match accEffect e s with
      | some s => .next (performEng e (dropRanges id s))
      | none => .next (stopEng e .poison s)
    else if e.phase ≠ .written ∨ (e.kind = .mma ∧ e.consumed = false) then .next s
    else .next (performEng e s)

end Sys2Proof.Machine
end

