-- ==== Sys2Proof/Machine/Chain.lean ====
section
/-! DEFINITION. Barrier-object instructions (R278, R279), command chains (R250–R252, R292, R293) and collectives (R280–R283,
R190). -/

namespace Sys2Proof.Machine

/-! ## Barrier objects (R278, R279) -/

/-- An update of the object at the instruction's address, made once its consume key is satisfied (R278); an own or cluster
scratchpad, 16-byte aligned (R238). -/
def objectBody (scope : Nat) (up : Nat → ObUpdate) (bad : Nat → Bool) (c : Ctx) : Res :=
  let v := (c.reg 1 c.f.b.toNat).toNat
  if bad v then .trap (TrapInfo.of .illegalOperand)
  else match checkPtr c.s c.th Spaces.object .write c.addr 16 16, scratchLoc c.s c.th c.addr 16 with
  | some e, _ => .trap (TrapInfo.of e)
  | none, none => .trap (TrapInfo.of .spaceFault)
  | none, some (core, loc) =>
    if c.s.ownBefore c.r c.addr loc 16 true then .hold c.s
    else waitKey c scope (
      if c.s.badScratch core loc 16 then .trap (TrapInfo.of .poison)
      else match objectUpdate loc (up v) c.s with
      | some s => .ok s
      | none => .trap (TrapInfo.of .illegalOperand))

/-- OBINIT (R278). -/
def execObinit (f : Fields) (s : State) : Host.Outcome State Fault Refusal :=
  issueOp 0x285 f s (objectBody 0 .init (fun v => v = 0 || decide (v > 65535)))
/-- OBARR (R278). -/
def execObarr (f : Fields) (s : State) : Host.Outcome State Fault Refusal :=
  issueOp 0x286 f s (objectBody 0 (fun _ => .arrive) (fun _ => false))
/-- OBARR.hold (R278). -/
def execObarrHold (f : Fields) (s : State) : Host.Outcome State Fault Refusal :=
  issueOp 0x286 f s (objectBody 0 .holdArrive (fun _ => false))
/-- OBEXP (R278). -/
def execObexp (f : Fields) (s : State) : Host.Outcome State Fault Refusal :=
  issueOp 0x287 f s (objectBody (Forms.scope f) .charge (fun _ => false))
/-- OBEXP.rls (R278). -/
def execObexpRls (f : Fields) (s : State) : Host.Outcome State Fault Refusal :=
  issueOp 0x287 f s (objectBody (Forms.scope f) .release (fun _ => false))

/-- OBWAIT (R279): the thread waits while the phase equals vb[0]. -/
def execObwait (f : Fields) (s : State) : Host.Outcome State Fault Refusal :=
  issueOp 0x288 f s (fun c =>
    let par := (c.reg 1 f.b.toNat).getLsbD 0
    match checkPtr c.s c.th Spaces.object .read c.addr 16 16, scratchLoc c.s c.th c.addr 16 with
    | some e, _ => .trap (TrapInfo.of e)
    | none, none => .trap (TrapInfo.of .spaceFault)
    | none, some (core, loc) =>
      if c.s.ownBefore c.r c.addr loc 16 false then .hold c.s
      else waitKey c 0 (
        if c.s.badScratch core loc 16 then .trap (TrapInfo.of .poison)
        else if obPhase (c.s.readLe loc 16) != par then .ok c.s
        else if keyFull c then .hold c.s
        else
          let (id, s) := c.operation c.s
          .wait (s.modThread c.r (fun t => { t with status := .obwait loc par id }))))

/-! ## Chain headers (R250) -/

def chnScope (h : Nat) : Nat := recBits h 207 200
def chnMatrix (h : Nat) : Bool := h.testBit 199
def chnLog (h : Nat) : Nat := recBits h 196 192
def chnHead (h : Nat) : Nat := recBits h 191 160
def chnTail (h : Nat) : Nat := recBits h 159 128
def chnDone (h : Nat) : DWord := recPtr h 64
def chnBase (h : Nat) : DWord := recPtr h 0
/-- The ring slot of entry s. -/
def chnSlot (h s : Nat) : DWord := chnBase h + BitVec.ofNat 64 (64 * (s % 2 ^ chnLog h))

def State.chain? (s : State) (id : Nat) : Option Chain := s.sch.chains.find? (fun k => k.id == id)
def State.setChain (k : Chain) (s : State) : State :=
  { s with sch := { s.sch with chains := upsert (fun x => x.id == k.id) k s.sch.chains } }

/-- The engine starts the walk of a chain, named by its header and block, or restarts it: after a stop that an entry caused it passes over that entry (R252). -/
def startWalk (core block : Nat) (t : TRef) (hdr : Nat) (s : State) : State :=
  match s.sch.chains.find? (fun k => k.hdr == hdr && k.block == block) with
  | some k =>
    if k.walking then s
    else
      let h := s.readLe hdr 64
      let n := if k.count % 2 ^ 32 = chnHead h then k.count else chnHead h
      let (s, n) := match k.stopped with
        | some (_, false) => (s.writeBytes (hdr + 20) (bytesOf 4 (n + 1)), n + 1)
        | _ => (s, n)
      (s.setChain { k with walking := true, stopped := none, busy := none, count := n }).post (.chainEntryRun k.id)
  | none =>
    let (id, s) := s.fresh
    let k : Chain := { id := id, core := core, block := block, t := t, hdr := hdr, count := chnHead (s.readLe hdr 64), busy := none,
                       walking := true, stopped := none }
    (s.setChain k).post (.chainEntryRun id)

/-- Bytes of an agent of a core written at a location. -/
def agentPut (core loc : Nat) (mode : AccMode) (bs : List Byte) (s : State) : State :=
  match mode with
  | .remote _ => s
  | _ => dirtyAt mode (core / 256) loc (s.writeBytes loc bs)

/-- A queued store of the core to n bytes at a location has not drained. -/
def State.queuedAt (s : State) (core loc n : Nat) : Bool :=
  s.accs.any (fun b => b.t.core == core && b.phase == .coreDone && meet b.spans [(loc, n)])

/-- CHAPP (R292): the entry is written and the tail advanced in one step; a full ring holds the thread. -/
def execChapp (f : Fields) (s : State) : Host.Outcome State Fault Refusal :=
  issueOp 0x305 f s (fun c =>
    match c.s.checkAccess c.th Spaces.ownOnly .write c.addr 64 64 with
    | .ok (.scratch core loc _) =>
      let h := c.s.readLe loc 64
      if c.s.ownBefore c.r c.addr loc 64 true then .hold c.s
      else if c.s.badScratch core loc 64 then .trap (TrapInfo.of .poison)
      else if chnLog h = 0 ∨ chnLog h > 16 then .trap (TrapInfo.of .illegalOperand)
      else waitKey c (Forms.scope f) (
        if (chnTail h + 2 ^ 32 - chnHead h) % 2 ^ 32 = 2 ^ chnLog h then .hold c.s
        else
          let bs := storeBytes 64 (c.group 1 f.b.toNat 16)
          let done (s : State) : Res :=
            .ok (startWalk core c.th.block c.r loc (s.writeBytes (loc + 16) (bytesOf 4 (chnTail h + 1))))
          let slot := chnSlot h (chnTail h)
          match c.s.checkAccess c.th Spaces.recordSet .write slot 64 64 with
          | .error e => .trap (TrapInfo.of e)
          | .ok (.scratch _ l _) => if c.s.ownBefore c.r slot l 64 true then .hold c.s else done (c.s.writeBytes l bs)
          | .ok (.priv _) => .trap (TrapInfo.of .spaceFault)
          | .ok (.remote _) => .trap (TrapInfo.of .spaceFault)
          | .ok (.glob g) => threadGrasp c slot g 64 true (fun s l mode =>
              if s.queuedAt core l 64 then .hold s else done ((agentPut core l mode bs s).modCore core (Core.l1Store l bs))))
    | .ok _ => .trap (TrapInfo.of .spaceFault)
    | .error e => .trap (TrapInfo.of e))

/-- CHSEQ (R293): a load of the completion word that the header names (log 36, DEDUCED). -/
def execChseq (f : Fields) (s : State) : Host.Outcome State Fault Refusal :=
  issueOp 0x306 f s (fun c => keyChecked c (
    match c.s.checkAccess c.th Spaces.ownOnly .read c.addr 64 64 with
    | .ok (.scratch core loc _) =>
      let p := chnDone (c.s.readLe loc 64)
      if c.s.ownBefore c.r c.addr loc 64 false then .hold c.s
      else if c.s.badScratch core loc 64 then .trap (TrapInfo.of .poison)
      else match c.s.checkAccess c.th Spaces.engine .read p 8 8 with
      | .error e => .trap (TrapInfo.of e)
      | .ok t => if keyFull c then .hold c.s else afterEntry c t (enterAccess c .chseq p t 8 [] [] false 7)
    | .ok _ => .trap (TrapInfo.of .spaceFault)
    | .error e => .trap (TrapInfo.of e)))

/-! ## The walk (R251, R252) -/

/-- The engine of a core reaches n bytes of one line for a block, in the spaces given, aligned to `al`; an absent page is asked
for and waited for (R233). -/
def agentReach (s : State) (core block : Nat) (ok : Spaces) (p : DWord) (n al : Nat) (write : Bool) : AgentRes :=
  let th := agent core block
  let ctx := s.ctxOf th
  match s.checkAccess th ok (if write then .write else .read) p n al with
  | .error c => .stop s c
  | .ok (.priv _) => .stop s .spaceFault
  | .ok (.remote dev) => .ok s 0 (.remote dev)
  | .ok (.scratch k loc _) => if !write && s.badScratch k loc n then .stop s .poison else .ok s loc .scratch
  | .ok (.glob g) =>
    match graspAgent s core (core / 256) ctx g n write with
    | .ok s loc mode => if write && s.queuedAt core loc n then .again s else .ok s loc mode
    | x => x

/-- The engine stores a chain's completion word, together with `head`'s update; a word that cannot be reached is reported in
the log. -/
def storeDone (k : Chain) (v : Nat) (head : Option Nat) (go : State → State) (s : State) : State :=
  let h := s.readLe k.hdr 64
  let put (s : State) : State := match head with | some n => s.writeBytes (k.hdr + 20) (bytesOf 4 n) | none => s
  match agentReach s k.core k.block Spaces.engine (chnDone h) 8 8 true with
  | .ok s loc mode => go (put (agentPut k.core loc mode (bytesOf 8 v) s))
  | .again s => s.post (.chainEntryRun k.id)
  | .stop s c => go (put (s.log 0x06 (k.core / 256) (s.ctxOf (agent k.core k.block)) (causeCode c) (chnDone h).toNat k.core))

/-- The chain stops at its entry (R252). -/
def stopChain (k : Chain) (header : Bool) (s : State) : State :=
  storeDone k (k.count + 2 ^ 63) none
    (fun s => s.setChain { k with walking := false, busy := none, stopped := some (k.count, header) }) s

/-- An operation of a chain, not yet accepted. -/
def engOfChain (s : State) (k : Chain) (kind : EngKind) (record : Nat) (ptr : DWord) (scope : Nat) : EngOp :=
  let g := match s.block? k.block with | some b => b.gang | none => 0
  { id := 0, kind := kind, t := k.t, core := k.core, block := k.block, gang := g, ctx := s.ctxOf (agent k.core k.block), mate := none,
    record := BitVec.ofNat 512 record, recPtr := ptr, src := 0, dst := 0, orig := [], len := 0, obj := none, scope := scope,
    pk := 0, waits := [], policy := 0, progress := 0, lines := [], channel := none, consumed := false, changed := [], cover := [], got := [], put := [], chain := some k.id,
    phase := .accepted }

/-- The chain's engine accepts an entry, or finds that it would have trapped. -/
def runEntry (k : Chain) (plan : Except Cause EngPlan) (s : State) : State :=
  match plan with
  | .error _ => stopChain k false s
  | .ok p =>
    if !(s.engRoom p) then s.post (.chainEntryRun k.id)
    else
      let (id, s) := s.fresh
      (enterEng p id s).setChain { k with busy := some id }

/-- The engine starts the next entry of a chain (R251, R252) (log 37, DEDUCED). -/
def nextEntry (k : Chain) (s : State) : State :=
  let h := s.readLe k.hdr 64
  if s.badScratch k.core k.hdr 64 = true ∨ recBits h 511 208 ≠ 0 ∨ chnScope h > 6 ∨ recBits h 198 197 ≠ 0 ∨ chnLog h = 0 ∨ chnLog h > 16 then stopChain k true s
  else if chnHead h = chnTail h then s.setChain { k with walking := false }
  else match agentReach s k.core k.block Spaces.recordSet (chnSlot h (chnHead h)) 64 64 false with
  | .again s => s.post (.chainEntryRun k.id)
  | .stop s _ => stopChain k true s
  | .ok s loc _ =>
    let x := leValue (s.seen k.core loc 64)
    let kind := x % 256
    let th := agent k.core k.block
    let orig := (List.range 6).map (fun d => recInt 32 (recBits x (256 + 32 * d + 31) (256 + 32 * d)))
    let withRecord (go : State → Nat → State) : State :=
      match agentReach s k.core k.block Spaces.recordSet (recPtr x 64) 64 64 false with
      | .again s => s.post (.chainEntryRun k.id)
      | .stop s _ => stopChain k false s
      | .ok s l _ => go s (leValue (s.seen k.core l 64))
    if recBits x 511 448 ≠ 0 ∨ recBits x 63 10 ≠ 0 ∨ kind = 0 ∨ kind > 4 ∨ (decide (kind ≥ 3) ≠ chnMatrix h) then stopChain k false s
    else match kind with
    | 1 => withRecord (fun s r => runEntry k
        (planCopy s th (engOfChain s k (.cpy (x.testBit 8)) r (recPtr x 64) (chnScope h)) (recPtr x 128) orig none) s)
    | 2 => runEntry k (planBytes s th (engOfChain s k (.cpyb (x.testBit 9)) 0 0 (chnScope h)) (recPtr x 64) (recPtr x 128)
        (recBits x 255 192) none) s
    | 3 => withRecord (fun s r => runEntry k (planMma s th (engOfChain s k .mma r (recPtr x 64) (chnScope h))) s)
    | _ => withRecord (fun s r => runEntry k (planMdrn s th (engOfChain s k .mdrn r (recPtr x 64) (chnScope h))) s)

/-- CHAIN_ENTRY_RUN (R252): the engine runs the chain's next entry, or writes the completion word of the one that has
performed. A chain whose gang is saved stands still. -/
def execChainEntryRun (id : Nat) (s : State) : Host.Outcome State Fault Refusal :=
  match s.chain? id with
  | none => .next s
  | some k =>
    if !k.walking || !(s.blockRuns k.block) then .next s
    else match k.busy with
    | none => .next (nextEntry k s)
    | some op => match s.eng? op with
      | none => .next (storeDone k (k.count + 1) (some (k.count + 1))
          (fun s => (s.setChain { k with busy := none, count := k.count + 1 }).post (.chainEntryRun id)) s)
      | some e => if e.stopped then .next (stopChain k false s) else .next s

/-! ## Collectives (R280–R283, R190) -/

def clCount (r : Nat) : Nat := recBits r 383 352
def clMask (r : Nat) : Nat := recBits r 351 336
def clOp (r : Nat) : Nat := recBits r 335 332
def clRed (r : Nat) : Nat := recBits r 331 328
def clType (r : Nat) : Nat := recBits r 327 324
def clRoot (r : Nat) : Nat := recBits r 323 320
def clTag (r : Nat) : Nat := recBits r 319 304
/-- What participants must agree on (R281). -/
def clShape (r : Nat) : Nat := r / 2 ^ 320 % 2 ^ 64

/-- The ranks of the participants, rising (R280). -/
def clRanks (r : Nat) : List Nat := (List.range 16).filter (fun g => (clMask r).testBit g)

/-- Bytes of the source and of the destination (R280). -/
def clSrcBytes (r : Nat) : Nat := 4 * clCount r * (if clOp r = 2 then (clRanks r).length else 1)
def clDstBytes (r : Nat) : Nat := 4 * clCount r * (if clOp r = 1 then (clRanks r).length else 1)

/-- The plan of a COLL (R280): e holds the record. -/
def planColl (s : State) (th : Thread) (e : EngOp) : Except Cause EngPlan :=
  let r := e.recN
  let src := recPtr r 448
  let dst := recPtr r 384
  let rank := match s.gangOf th with | some g => g.rank | none => 16
  let n := match s.hhOf th with | some h => h.ngang | none => 0
  let t := clType r
  let over_ := ptrTag src == ptrTag dst && decide (src.toNat < dst.toNat + clDstBytes r) && decide (dst.toNat < src.toNat + clSrcBytes r)
  match firstCause [
    failIf (clCount r = 0 || clCount r > 2 ^ 28 || clOp r > 3 || clRed r > 2 || ((clOp r = 1 || clOp r = 3) && clRed r != 0)
      || !(t == 0 || t == 1 || t == 8 || t == 0xB) || (clOp r != 3 && clRoot r != 0) || recBits r 303 0 != 0
      || decide (clMask r / 2 ^ n ≠ 0) || !((clMask r).testBit rank) || (clOp r = 3 && !((clMask r).testBit (clRoot r)))
      || (over_ && !(src == dst && clSrcBytes r == clDstBytes r))) .illegalOperand,
    checkPtr s th Spaces.tensor .read src 4 0, checkPtr s th Spaces.tensor .write dst 4 0 ] with
  | some c => .error c
  | none => .ok { op := { e with src := src, dst := dst, scope := 4 }, ranges := [], charge := 0 }

/-- The number of the next COLL that a gang issues with a tag (R281). -/
def collTurn (s : State) (hh gang tag : Nat) : Nat :=
  (s.sch.colls.filter (fun i => i.hh == hh && i.tag == tag && i.parts.any (fun p => p.1 == gang))).length

/-- Operation `id` of a gang joins its instance (R281). -/
def joinColl (hh gang tag id : Nat) (s : State) : State :=
  let n := collTurn s hh gang tag
  let is (i : CollInst) : Bool := i.hh == hh && i.tag == tag && i.n == n
  match s.sch.colls.find? is with
  | some i => ({ s with sch := { s.sch with colls := upsert is { i with parts := i.parts ++ [(gang, id)] } s.sch.colls } } : State).post
      (.collCompute i.id)
  | none =>
    let (k, s) := s.fresh
    ({ s with sch := { s.sch with colls := s.sch.colls ++ [⟨k, hh, tag, n, [(gang, id)]⟩] } } : State).post (.collCompute k)

/-- COLL (R281): the operation is accepted and joins its instance. -/
def execColl (f : Fields) (s : State) : Host.Outcome State Fault Refusal :=
  issueOp 0x289 f s (fun c => keyChecked c (readRecord c Spaces.recordSet c.addr 64 (fun s r =>
    match planColl s c.th (engOf c .coll r c.addr), s.gangOf c.th with
    | .error e, _ => .trap (TrapInfo.of e)
    | .ok _, none => .trap (TrapInfo.of .illegalOperand)
    | .ok p, some g =>
      if keyFull c || !(s.engRoom p) then .hold s
      else
        let (id, s) := s.fresh
        let s := s.addOp c.th id f.pk.toNat (pointOfCore c.r.core)
        let s : State := { s with engs := s.engs ++ [{ p.op with id := id }] }
        .ok (joinColl g.hh g.uid (clTag r) id s))))

/-- The participants of an instance that have joined, in rank order. -/
def collParts (s : State) (i : CollInst) : List EngOp :=
  let es := i.parts.filterMap (fun p => s.eng? p.2)
  let rank (e : EngOp) : Nat := match s.gang? e.gang with | some g => g.rank | none => 0
  (List.range 16).filterMap (fun r => es.find? (fun e => rank e == r))

/-- A gang of the instance's household runs on another module. -/
def State.collAway (s : State) (i : CollInst) (g : Nat) : Bool :=
  match s.hh? i.hh with
  | some h => h.modules.getD g s.device != s.device
  | none => false

/-- The participants of this module, in rank order. -/
def State.collHere (s : State) (i : CollInst) (r : Nat) : List Nat := (clRanks r).filter (fun g => !(s.collAway i g))

/-- Faults every participant of an instance that has joined. -/
def failColl (i : CollInst) (c : Cause) (s : State) : State :=
  i.parts.foldl (fun s p => match s.eng? p.2 with
    | some e => if e.stopped then s else stopEng e c s
    | none => s) s

/-- The reduction of one element over the participants (R282). -/
def collReduce (t red : Nat) (xs : List Word) : Word :=
  let float (F : Fmt) (vs : List Nat) : Nat :=
    match red with
    | 0 => (sumRound F .rne false true (vs.map F.decode)).code
    | r => vs.foldl (fun acc v => (minMaxNum F (r == 2) (F.decode acc) (F.decode v)).code) F.nan
  let int (v : Word) : Int := if t = 0 then v.toInt else v.toNat
  match t with
  | 8 => BitVec.ofNat 32 (float Fmt.f32 (xs.map (·.toNat)))
  | 0xB => BitVec.ofNat 32 (float Fmt.bf16 (xs.map (fun v => v.toNat % 2 ^ 16)) + 2 ^ 16 * float Fmt.bf16 (xs.map (fun v => v.toNat / 2 ^ 16)))
  | _ =>
    match red with
    | 0 => xs.foldl (· + ·) 0
    | 1 => xs.foldl (fun acc v => if int v < int acc then v else acc) (xs.headD 0)
    | _ => xs.foldl (fun acc v => if int v > int acc then v else acc) (xs.headD 0)

/-- Elements of 4 bytes of a list of bytes. -/
def wordsOf (bs : List Byte) : List Word :=
  (List.range (bs.length / 4)).map (fun i => BitVec.ofNat 32 (leValue ((bs.drop (4 * i)).take 4)))

/-- What participant number p writes (R282), from the sources in rank order. -/
def collOutput (r p : Nat) (srcs : List (List Word)) : List Word :=
  let n := clCount r
  let red (k : Nat) : Word := collReduce (clType r) (clRed r) (srcs.map (fun s => s.getD k 0))
  match clOp r with
  | 0 => (List.range n).map red
  | 1 => srcs.flatten
  | 2 => (List.range n).map (fun k => red (p * n + k))
  | _ => srcs.getD ((clRanks r).idxOf (clRoot r)) []

/-- The sources of an instance in rank order: what the participants here have read, and the free elements of those on other modules (R367;
log 17, DESIGN CHOICE). -/
def State.collSources (s : State) (i : CollInst) (r : Nat) (es : List EngOp) : List (List Word) :=
  (clRanks r).map (fun g =>
    if s.collAway i g then (if clOp r = 3 ∧ g ≠ clRoot r then [] else (List.range (clSrcBytes r / 4)).map (Config.awaySource i.id g))
    else wordsOf ((es[(s.collHere i r).idxOf g]?).elim [] (·.got)))

/-- What each participant of this module writes (R282). -/
def State.collWrites (s : State) (i : CollInst) (r : Nat) (es : List EngOp) : List (List Byte) :=
  (s.collHere i r).map (fun g =>
    (collOutput r ((clRanks r).idxOf g) (s.collSources i r es)).flatMap (fun w => bytesOf 4 w.toNat))

/-- What a participant reads (R282): of a broadcast the root alone reads. -/
def State.collSource (s : State) (r : Nat) (e : EngOp) : List (DWord × Nat) :=
  let rank := match s.gang? e.gang with | some g => g.rank | none => 0
  if clOp r = 3 && rank != clRoot r then [] else [(e.src, clSrcBytes r)]

/-- Each participant reads its source once it holds the lines (R282); the first that cannot yet, with what it needs. -/
def collRead (r : Nat) (es : List EngOp) (s : State) : State × Option (EngOp × Reach) :=
  es.foldl (fun (x : State × Option (EngOp × Reach)) e =>
    if !e.got.isEmpty || (x.1.collSource r e).isEmpty then x
    else match x.1.firstBar e (x.1.collSource r e) false with
    | none => (x.1.setEng { e with got := (x.1.collSource r e).flatMap (fun q => x.1.engRead e q.1 q.2) }, x.2)
    | some b => (x.1, x.2.or (some (e, b)))) (s, none)

/-- Each participant writes the lines of its destination that it holds (R282); the first that has some left, with what it needs, and whether
one waits for a store queue. -/
def collWrite (l : List (EngOp × List Byte)) (s : State) : State × Option (EngOp × Reach) × Bool :=
  l.foldl (fun (x : State × Option (EngOp × Reach) × Bool) q =>
    let y := putAll [(q.1.dst, q.2)] (x.1, q.1)
    (y.1.1.setEng y.1.2, x.2.1.or (y.2.bar.map (fun b => (y.1.2, b))), x.2.2 || y.2.wait)) (s, none, false)

/-- A participant of the instance has departed, whether it had joined or not (R283). -/
def collOrphan (s : State) (i : CollInst) (r : Nat) : Bool :=
  match s.hh? i.hh with
  | none => false
  | some h => (clRanks r).any (fun g => (h.stateOf g).gone)

/-- COLL_COMPUTE (R281–R283, R190, R367): with every participant of this module joined, in agreement, and its consume key satisfied at fabric
scope (those on other modules are taken to have joined alike: log 17, DESIGN CHOICE), every source is read, then every destination written,
line by line as their engines hold them, and each operation performs. -/
def execCollCompute (id : Nat) (s : State) : Host.Outcome State Fault Refusal :=
  match s.sch.colls.find? (fun i => i.id == id) with
  | none => .next s
  | some i =>
    match i.parts.findSome? (fun p => s.eng? p.2) with
    | none => .next s
    | some e0 =>
      let r := e0.recN
      let es := collParts s i
      let stops := es.findSome? (fun e => match e.phase with | .stopped c => some c | _ => none)
      match stops with
      | some c => .next (failColl i c s)
      | none =>
        if es.any (fun e => clShape e.recN != clShape r) then .next (failColl i .engineFault s)
        else if collOrphan s i r then .next (failColl i .hhDeparted s)
        else if es.length < (s.collHere i r).length then .next s
        else if es.any (fun e => e.phase != .accepted || (s.engAct? e.id).isNone) then .next s
        else if !(es.all (fun e => s.allPerformed e.waits 4)) then .next (s.post (.collCompute id))
        else match collRead r es s with
        | (s, some (_, .stop c)) => .next (failColl i c s)
        | (s, some (e, x)) => .next (engBar e x s)
        | (s, none) =>
          let es := collParts s i
          match collWrite (es.zip (s.collWrites i r es)) s with
          | (s, some (_, .stop c), _) => .next (failColl i c s)
          | (s, some (e, x), _) => .next (engBar e x s)
          | (s, none, true) => .next (s.post (.collCompute id))
          | (s, none, false) => .next ((collParts s i).foldl (fun s e => performEng e s) s)

end Sys2Proof.Machine
end

