-- ==== Sys2Proof/Machine/Issue.lean ====
section
/-! DEFINITION. The fetch of lines (R14, R37), the next instruction of a thread, its repetitions (R49–R52), issue groups
(R125–R127, R130) with their paired slots (R38), the end of a group, the end of a cycle, and tracked results (R19). -/

namespace Sys2Proof.Machine

/-! ## Repetitions (R49–R51) -/

/-- A signed field of n bits. -/
def signedBits (n v : Nat) : Int := if v % 2 ^ n < 2 ^ (n - 1) then (v % 2 ^ n : Nat) else ((v % 2 ^ n : Nat) : Int) - 2 ^ n

/-- rep.count + 1 (R49). -/
def repCount (f : Fields) : Nat := f.imm.toNat % 64 + 1
/-- The increments of d, a, b and c, and of the offset in bytes (R49). -/
def repIncs (f : Fields) : List Int :=
  [signedBits 4 (Forms.immBits f 9 6), signedBits 4 (Forms.immBits f 13 10), signedBits 4 (Forms.immBits f 17 14),
   signedBits 4 (Forms.immBits f 21 18)]
def repOff (f : Fields) : Int := 4 * signedBits 10 (Forms.immBits f 31 22)

/-- The cause that a follower raises at REP's issue (R50): a transfer, REP, EXIT, TRAP or a class-0xE instruction. -/
def followerFate (op : Nat) : Option Cause :=
  if Forms.isTransfer op || op == 0x187 || op == 0x185 || op == 0x18D || op / 64 == 14 then some .illegalOpcode else none

/-- Whether an increment of a REP is illegal for its follower (R50); a follower of no assigned opcode has no field that names a
register, and no offset. -/
def badIncrement (rp : Fields) (op : Nat) (f : Fields) : Bool :=
  (repOff rp != 0 && !(Forms.assigned op && Forms.hasOff op))
    || ((repIncs rp).zip ((Forms.fieldsOf op f).map (·.1))).any (fun x => x.1 != 0 && !(Forms.namesReg x.2))

/-- A field incremented for repetition j; none where it leaves 0–254 (R51). -/
def stepField (x : BitVec 8) (inc : Int) (j : Nat) : Option (BitVec 8) :=
  if inc = 0 then some x
  else
    let v := (x.toNat : Int) + j * inc
    if 0 ≤ v ∧ v ≤ 254 then some (BitVec.ofNat 8 v.toNat) else none

/-- The offset of repetition j, in imm32[23:0]; none where it leaves −2^23 to 2^23 − 1 (R51). -/
def stepOff (imm : Word) (inc : Int) (j : Nat) : Option Word :=
  if inc = 0 then some imm
  else
    let v := (imm.extractLsb' 0 24).toInt + j * inc
    if -(2 ^ 23) ≤ v ∧ v < 2 ^ 23 then some (imm.extractLsb' 24 8 ++ BitVec.ofInt 24 v) else none

/-- Repetition j of a follower under a REP (R51). -/
def repetition (rp f : Fields) (j : Nat) : Option Fields :=
  match repIncs rp with
  | [di, ai, bi, ci] =>
    match stepField f.d di j, stepField f.a ai j, stepField f.b bi j, stepField f.c ci j, stepOff f.imm (repOff rp) j with
    | some d, some a, some b, some c, some imm => some { f with d := d, a := a, b := b, c := c, imm := imm }
    | _, _, _, _, _ => none
  | _ => none

/-! ## The next instruction of a thread -/

/-- The word at a program counter, where the core holds its line. -/
def State.wordAt (s : State) (th : Thread) (pc : DWord) : Option InsnWord :=
  (s.cachedLine th.ref.core (s.ctxOf th) (pcLine pc)).map (fun l => l.slot (pcSlot pc))

/-- The opcode and fields that a thread issues next, its repetition included, where the lines are held. -/
def State.nextWord (s : State) (th : Thread) : Option (Nat × Fields) :=
  match s.wordAt th th.pc with
  | none => none
  | some w =>
    let f := fieldsOfWord w
    match th.rep with
    | none => some (opcodeOfWord w, f)
    | some r =>
      match s.wordAt th r.pc with
      | some rw => (repetition (fieldsOfWord rw) f r.j).map (fun g => (opcodeOfWord w, g))
      | none => none

/-- A field of repetition j that leaves 0–254 names no register. -/
def stepOrNone (x : BitVec 8) (inc : Int) (j : Nat) : BitVec 8 := (stepField x inc j).getD 255

/-- A follower whose fields are those of repetition j, as far as they stay in their range. -/
def repetitionOrNone (rp f : Fields) (j : Nat) : Fields :=
  match repIncs rp with
  | [di, ai, bi, ci] => { f with d := stepOrNone f.d di j, a := stepOrNone f.a ai j, b := stepOrNone f.b bi j, c := stepOrNone f.c ci j }
  | _ => f

/-- The opcode and fields whose registers the thread's next issue touches (R20), where the lines that it needs are held; a word of no
assigned opcode is no instruction that reads or writes any (R54). -/
def State.earlyWord (s : State) (th : Thread) : Option (Nat × Fields) :=
  let one (w : InsnWord) (f : Fields) : Option (Nat × Fields) := if Forms.assigned (opcodeOfWord w) then some (opcodeOfWord w, f) else none
  match s.wordAt th th.pc, th.rep with
  | some w, none => one w (fieldsOfWord w)
  | some w, some r => (s.wordAt th r.pc).bind (fun rw => one w (repetitionOrNone (fieldsOfWord rw) (fieldsOfWord w) r.j))
  | none, _ => none

/-- Whether the thread's next instruction waits for a tracked result (R19, R125). -/
def State.heldBack (s : State) (th : Thread) : Bool :=
  match s.nextWord th with
  | some (op, f) => Forms.assigned op && (match gate op f none false s th with | .hold => true | _ => false)
  | none => false

/-! ## Fetch (R14, R37) -/

/-- A member of the group has not issued: it is not ready, or it is stopped before its issue (R20, R125). -/
def notIssued (r : TRef) (s : State) : State := { s with issue := { s.issue with held := s.issue.held ++ [r] } }

/-- The thread waits for a line to be fetched, and does not issue. -/
def needLine (r : TRef) (line : DWord) (s : State) : State :=
  (notIssued r (s.modThread r (fun t => { t with status := .fetch line }))).post (.lineFetch r)

/-- Where a fetch line lies: its page, with the right to execute (R299). -/
def State.lineAt (s : State) (ctx : Nat) (line : DWord) : Resolved := s.resolve ctx line 64 rightsX anyFmt

/-- A line has entered a core's instruction cache: every thread that waited for it there is ready in the same cycle (R125) (log 60, DEDUCED). -/
def lineArrived (core ctx : Nat) (line : DWord) (s : State) : State :=
  { s with threads := s.threads.map (fun t =>
      if t.ref.core = core ∧ t.status = .fetch line ∧ s.ctxOf t = ctx then Thread.replay (s.clock + 1) t else t) }

/-- The fetch of the line that thread `r` waits for, an access that its home counts (R348); `retry` is the refetch after a parity error. A poisoned line traps
POISON (log 31, DEDUCED). -/
def fetchLine (retry : Bool) (r : TRef) (s : State) : State :=
  match s.thread? r with
  | none => s
  | some th =>
    match th.status with
    | .fetch line =>
      let ctx := s.ctxOf th
      let again : Instr := if retry then .fetchParityRetry r else .lineFetch r
      if s.invalidating ctx (globPage line) then s.post again
      else match s.lineAt ctx line with
      | .ok p =>
        let loc := p.base + line.toNat % 65536
        let s := countMigration ctx (globPage line) p s
        if (s.poisonOf loc 64).isSome then raiseTrap r (TrapInfo.of .poison) s
        else
          let bytes := s.readBytes loc 64
          if (lineOf bytes).parityOk then
            let s := s.modCore r.core (fun k => { k with
              icache := evictOver Config.icacheLines (k.icache.filter (fun l => !(isLine ctx line.toNat l))) ++
                [⟨ctx, line.toNat, bytes, s.clock, 0⟩],
              refetch := k.refetch.filter (· != line) })
            lineArrived r.core ctx line s
          else if retry then
            let s := s.modCore r.core (fun k => { k with refetch := k.refetch.filter (· != line) })
            (stopChecked r.core s).post (.coreSelfTest r.core true)
          else
            (s.modCore r.core (fun k => { k with refetch := k.refetch ++ [line] })).post (.fetchParityRetry r)
      | .noTranslation => (requestTranslation ctx (globPage line) s).post again
      | .absent => pageWait r ctx (globPage line) (.of rightsX) (forgetAnswer ctx (globPage line) s)
      | .denied => raiseTrap r (TrapInfo.of .pageDenied) s
      | .space => raiseTrap r (TrapInfo.of .spaceFault) s
      | .poolLost => raiseTrap r (TrapInfo.of .poolLost) s
    | _ => s

/-- LINE_FETCH (R14): the line that the thread needs is fetched and enters the instruction cache, its parity checked; a
page that is not resident holds the thread. -/
def execLineFetch (t : TRef) (s : State) : Host.Outcome State Fault Refusal := .next (fetchLine false t s)

/-- FETCH_PARITY_RETRY (R37): the line is fetched once more; a second failure is a machine check, whose core passes its
self-test (R326). -/
def execFetchParityRetry (t : TRef) (s : State) : Host.Outcome State Fault Refusal := .next (fetchLine true t s)

/-! ## Issue groups (R125–R127, R130) -/

/-- Insertion sort. -/
def insertBy {α : Type} (lt : α → α → Bool) (x : α) : List α → List α
  | [] => [x]
  | y :: ys => if lt x y then x :: y :: ys else y :: insertBy lt x ys
def sortBy {α : Type} (lt : α → α → Bool) (l : List α) : List α := l.foldl (fun acc x => insertBy lt x acc) []

/-- Whether picker q owns a slot (R124); picker 4 stands for the trap warp. -/
def ownsSlot (q slot : Nat) : Bool := if q = 4 then slot == 64 else decide (slot < 64) && slot % 4 == q

/-- The core may issue (R313): a stopped core issues its trap warp alone, and the cycle of the stop is finished. -/
def Core.issues (k : Core) (clock q : Nat) : Bool :=
  match k.stopped with
  | none => q != 4 && !k.mcheck
  | some c => if q = 4 then decide (c < clock) && !k.halted && !k.mcheck else decide (c = clock) && !k.halted && !k.mcheck

/-- The gang of a thread runs (R330, R332); the trap warp has none. -/
def State.gangRuns (s : State) (th : Thread) : Bool :=
  match s.gangOf th with | some g => g.phase == .running | none => th.ref.slot == 64

/-- The ready threads of a picker (R125). -/
def State.candidates (s : State) (core q : Nat) : List Thread :=
  s.threads.filter (fun t => t.ref.core == core && ownsSlot q t.ref.slot && t.status == .ready &&
    decide (t.readyAt ≤ s.clock) && s.gangRuns t && !(s.heldBack t) && !(s.writeHeld t.ref))

/-- Slot order from the rotation pointer. -/
def slotOrder (rot slot : Nat) : Nat := (slot + 64 - rot % 64) % 64

/-- Oldest first, then slot order, then lane. -/
def olderThread (rot : Nat) (x y : Thread) : Bool :=
  decide (x.age < y.age) || (x.age == y.age && (decide (slotOrder rot x.ref.slot < slotOrder rot y.ref.slot) ||
    (x.ref.slot == y.ref.slot && decide (x.ref.lane < y.ref.lane))))

/-- The same place in the program: program counter and repeat state (R52), and task. -/
def State.samePlace (s : State) (x y : Thread) : Bool :=
  x.pc == y.pc && x.rep == y.rep && (match s.taskOf x, s.taskOf y with
    | some a, some b => a.num == b.num
    | none, none => true
    | _, _ => false)

/-- The one thread that a warp in serial mode contributes: the lowest lane at or after the pointer (R130). -/
def serialPick (ptr : Nat) (ts : List Thread) : List Thread :=
  (sortBy (fun x y => decide ((x.ref.lane + 32 - ptr % 32) % 32 < (y.ref.lane + 32 - ptr % 32) % 32)) ts).take 1

/-- One round of R125 over the candidates: the group and the thread it is formed for. -/
def State.formOnce (s : State) (core q : Nat) (cs : List Thread) : Option (Thread × List Thread) :=
  let rot := (s.core core).rot.getD q 0
  let lt := olderThread rot
  match sortBy lt cs with
  | [] => none
  | t :: rest =>
    let here := (t :: rest).filter (s.samePlace t)
    let slots := (here.map (·.ref.slot)).eraseDups
    some (t, slots.foldl (fun g v =>
      let mine := here.filter (fun x => x.ref.slot == v)
      let w := s.warp core v
      let u := if w.serial then serialPick w.serialPtr mine else mine
      if u.any (fun x => g.any (fun y => y.ref.lane == x.ref.lane)) then g else g ++ u) [])

/-- Whether a thread's next instruction asks to be passed over: the yield bit, or YIELD (R127) (log 38, DEDUCED). The thread is passed
over once, before that instruction issues, whatever its guard (log 71, DESIGN CHOICE). -/
def State.wantsYield (s : State) (th : Thread) : Bool :=
  !th.yielded && (match s.nextWord th with | some (op, f) => f.yield || op == 0x18A | none => false)

/-- The threads given are passed over, once, for the hint of their next instruction: no group of this cycle takes them, and they keep
their age (R127). -/
def passOver (out : List TRef) (s : State) : State :=
  { s with threads := s.threads.map (fun (x : Thread) =>
      if out.contains x.ref then { x with yielded := true, readyAt := Nat.max x.readyAt (s.clock + 1) } else x) }

/-- Forms the group, passing over once the threads whose instruction carries the hint (R127). -/
def State.formGroup (core q : Nat) : Nat → List Thread → State → State × Option (Thread × List Thread)
  | 0, _, s => (s, none)
  | fuel + 1, cs, s =>
    match s.formOnce core q cs with
    | none => (s, none)
    | some (t, g) =>
      let out := (g.filter s.wantsYield).map (·.ref)
      if out.isEmpty then (s, some (t, g))
      else State.formGroup core q fuel (cs.filter (fun x => !(out.contains x.ref))) (passOver out s)

/-- Issuing order within a group: by slot, then by lane (R96, R313). -/
def issueOrder (g : List Thread) : List TRef :=
  (sortBy (fun (x y : TRef) => decide (x.slot * 32 + x.lane < y.slot * 32 + y.lane)) (g.map (·.ref)))

/-- The issue of a group begins: its threads execute one after the other, with one effect (R126). `lead` is the slot of the thread
that it was formed for. -/
def beginIssue (q : Nat) (lead : Option Nat) (pc : DWord) (single : Bool) (members : List TRef) (s : State) : State :=
  { s with issue := { lead := lead, held := [], todo := members, cur := ⟨0, 0, 0⟩, group := members, picker := q, pc := pc,
                      keyDone := [], firstId := s.nextId, follower := none, retired := [], paired := single } }

/-- The pointer moves past the thread that a warp in serial mode contributed (R130). -/
def bumpSerial (g : List TRef) (s : State) : State :=
  { s with warps := s.warps.map (fun (w : Warp) =>
      match g.find? (fun r => Warp.at r.core r.slot w) with
      | some r => if w.serial then { w with serialPtr := (r.lane + 1) % 32 } else w
      | none => w) }

/-- ISSUE_GROUP (R125): the picker forms its group of this cycle and issues it. -/
def execIssueGroup (core picker : Nat) (s : State) : Host.Outcome State Fault Refusal :=
  if !(s.issue.todo.isEmpty) || !((s.core core).issues s.clock picker) then .next s
  else
    let cs := s.candidates core picker
    match State.formGroup core picker (cs.length + 1) cs s with
    | (s, none) => .next s
    | (s, some (t, g)) => .next (beginIssue picker (some t.ref.slot) t.pc t.rep.isNone (issueOrder g) s)

/-! ## The end of a group and of a cycle -/

/-- The threads that issue the paired slot in this cycle (R38, R125). -/
def State.pairMembers (s : State) : List TRef :=
  match s.issue.group with
  | [] => []
  | r :: _ =>
    let i := s.issue
    match (i.retired.findSome? s.thread?) with
    | none => []
    | some th =>
      match s.cachedLine r.core (s.ctxOf th) (pcLine i.pc) with
      | none => []
      | some l =>
        let w := l.slot (pcSlot i.pc)
        let op := opcodeOfWord w
        if i.paired && l.pair (pcSlot i.pc) && (fieldsOfWord w).stall == 0 && !(Forms.isTransfer op) && op != 0x187 then
          i.retired.filter (fun r => match s.thread? r with
            | some t => t.status == .ready && t.pc == i.pc + 1 && !(s.heldBack t) && !(s.writeHeld r)
            | none => false)
        else []

/-- A group has issued (R125, R130): the picker's rotation pointer moves past the slot it was formed for, and the serial pointers past
the threads that issued. A group of which nobody has issued is none, and its picker forms another in the same cycle. -/
def groupIssued (s : State) : State :=
  match s.issue.lead, s.issue.group with
  | some slot, r :: rest =>
    let gone := (r :: rest).filter (fun x => !(s.issue.held.contains x))
    if gone.isEmpty then { s with cursor := r.core * 5 + s.issue.picker }
    else bumpSerial gone (s.modCore r.core (fun k => { k with rot := k.rot.set s.issue.picker ((slot + 1) % 64) }))
  | _, _ => s

/-- The end of a group's issue, and the paired slot, whose own next slot may pair in turn (R38; log 72, DESIGN CHOICE); threads whose
paired instruction carries the yield hint are passed over (R127). -/
def endGroup (s : State) : State :=
  let all := s.pairMembers
  let out := all.filter (fun r => (s.thread? r).any s.wantsYield)
  let next := all.filter (fun r => !(out.contains r))
  let s := passOver out (groupIssued s)
  if next.isEmpty then { s with issue := Issue.idle } else beginIssue s.issue.picker none (s.issue.pc + 1) true next s

/-- Serial mode follows the depth of the table at the end of a cycle, when the entries released in it have left (R128, R130; log 89,
DESIGN CHOICE). -/
def Warp.settleSerial (w : Warp) : Warp :=
  let deep := decide (w.rejoin.length > 8)
  { w with serial := deep, serialPtr := if deep && !w.serial then 0 else w.serialPtr }

/-- Whether a producer of one of the gang's keys awaits a page (R328). -/
def State.producerAwaitsPage (s : State) (g : Nat) : Bool :=
  s.ops.any (fun o => o.gang == g &&
    (s.accs.any (fun a => a.id == o.id && a.phase == .resolved .absent) ||
     s.engs.any (fun e => e.id == o.id && (match e.phase with | .pageWait _ _ => true | _ => false))))

/-- The die to which an arrival goes. -/
def Send.die (x : Send) (s : State) : Nat := ((s.gang? x.gang).map (·.die)).getD (x.core / 256)

/-- A message of the gang, an arrival or a notice that a thread or key of it awaits, or a token answer that an access of it awaits, is held
at a link that trains (R328, R352). -/
def State.heldAtLink (s : State) (g : Nat) : Bool :=
  s.messages.any (fun m => match m.t with
    | some r => s.linkTrains (r.core / 256) m.die m.id && (match s.thread? r with | some t => s.inGang g t | none => false)
    | none => false) ||
  s.sends.any (fun x => (x.fromGang == g || x.gang == g) &&
    ((!x.delivered && s.linkTrains (x.core / 256) (x.die s) x.id) || x.points.any (fun p => s.linkTrains (dieOfPoint p.1) (x.die s) x.id))) ||
  s.accs.any (fun a => s.homeTrains a && s.ops.any (fun o => o.id == a.id && o.gang == g)) ||
  s.fab.reqs.any (fun r => s.linkTrains (dieOfHolder r.line r.holder) (dieOfLoc (r.line * 128)) r.line &&
    s.ops.any (fun o => o.id == r.acc && o.gang == g)) ||
  s.fab.msgs.any (fun m =>
    m.links.any s.linkTraining &&
    s.fab.reqs.any (fun r => r.line == m.line && r.holder == m.dest && s.ops.any (fun o => o.id == r.acc && o.gang == g)))

/-- Whether a gang's watchdog counts this cycle (R328). -/
def State.watchdogCounts (s : State) (g : Gang) : Bool :=
  let ts := s.threads.filter (s.inGang g.uid)
  !g.dispatcher && g.wdInterval != 0 && g.phase == .running && !ts.isEmpty &&
    (s.coresOfGang g.uid).all (fun c => (s.core c).stopped.isNone) &&
    ts.all (fun t => match t.status with | .page _ _ => false | _ => true) && !(s.producerAwaitsPage g.uid) && !(s.heldAtLink g.uid)

/-- The number of cycles after which a gang's watchdog fires. -/
def Gang.wdLimit (g : Gang) : Nat := g.wdInterval * 65536

/-- A thread that only its own gang's threads could release can still issue (R377). -/
def Status.canIssue (x : Status) : Bool :=
  match x with
  | .rejoin => false
  | .barrier _ _ => false
  | .barrierKeys _ _ _ => false
  | .collective => false
  | .kwait _ _ _ => false
  | .obwait _ _ _ => false
  | .hhatt => false
  | .hhdet => false
  | _ => true

/-- The wait of a thread is on an armed slot without an arrival, present or on its way, or on an object to which no copy still
delivers (R377). -/
def State.waitsForPeers (s : State) (th : Thread) : Bool :=
  match th.status with
  | .kwait k _ ws =>
    let w := s.warpOf th
    (coveredKeys k).any (fun n => match (w.key n).arrival with
      | .armed m none => ws.contains m && !(s.sends.any (fun x => (!x.delivered || s.arrivals.contains x.id) && x.slot == n && x.warp == w.widx &&
          (match s.gangOf th, s.blockOf th with | some g, some b => x.gang == g.uid && x.block == b.rank | _, _ => false)))
      | _ => false)
  | .obwait loc _ _ => !(s.engs.any (fun e => e.obj == some loc && (match e.phase with | .stopped _ => false | _ => true)))
  | _ => false

/-- A thread whose wait only departed peers could have ended (R377). -/
def State.abandoned (s : State) (th : Thread) : Bool :=
  s.waitsForPeers th && (match s.gangOf th, s.hhOf th with
    | some g, some h =>
      decide (2 ≤ h.ngang) && (List.range h.ngang).all (fun r => r == g.rank || (h.stateOf r).gone) &&
        s.threads.all (fun t => !(s.inGang g.uid t) || !t.status.canIssue)
    | _, _ => false)

/-- Threads whose waits are abandoned trap (R377). -/
def trapAbandoned (s : State) : State :=
  (s.threads.filter s.abandoned).foldl (fun s t => match t.status with
    | .obwait _ _ id => raiseTrap t.ref (TrapInfo.of .hhDeparted) (s.dropProducer id)
    | _ => raiseTrap t.ref (TrapInfo.of .hhDeparted) s) s

/-- An hour of the 1.4 GHz that R328 gives (R389). -/
def hourCycles : Nat := 5040000000000

/-- The tracked result `x` of a thread is written (R19); a thread that waited for it becomes ready (R125). -/
def State.writeTracked (s : State) (x : Tracked) (th : Thread) : Thread :=
  let th' := { th.putTracked x with tracked := th.tracked.filter (fun y => y.id != x.id) }
  if s.heldBack th && !(s.heldBack th') then { th' with age := Nat.max th'.age s.clock } else th'

/-- Results of a stated latency are written in the cycle in which it ends (R19, R136, R218). -/
def writeTimed (s : State) : State :=
  { s with threads := s.threads.map (fun t =>
      (t.tracked.filter (fun x => x.known && x.timed && decide (x.due ≤ s.clock))).foldl (fun t x => s.writeTracked x t) t) }

/-- Threads whose SLEEP has run its count are ready in the cycle in which it ends (R118). -/
def wakeSleepers (s : State) : State :=
  { s with threads := s.threads.map (fun (t : Thread) => match t.status with
      | .sleep u => if s.clock < u then t else t.finish u
      | _ => t) }

/-- Sends an SPDM response, once the host ports are ready (R382). -/
def respond (code : Nat) (payload : List Byte) (s : State) : State :=
  if s.boot.stage < 5 then s else { s with boot := { s.boot with spdmOut := s.boot.spdmOut ++ [(code, payload)] } }

/-- SPDM messages are numbered as DSP0274 numbers them, which R385 names (log 12, PRESUMED). -/
def spdmError : Nat := 0x7F
/-- The highest number of signatures (R386). -/
def signLimit : Nat := 1048576

/-- The oldest signed response goes on (R386): its index is taken and burned, and in a later cycle the key signs with it. A spent counter
answers ERROR, and does not change (log 67, DEDUCED). -/
def signNext (s : State) : State :=
  match s.boot.signing with
  | [] => s
  | x :: xs =>
    match x.index with
    | none =>
      if s.boot.otp ≥ signLimit then
        (respond spdmError [0xFF, 0x01] { s with boot := { s.boot with signing := xs } }).log 0x0B 12 0 0 0 0
      else { s with boot := { s.boot with otp := s.boot.otp + 1, signing := { x with index := some s.boot.otp } :: xs } }
    | some j =>
      respond x.code (x.payload ++ Config.xmssSign j (bytesOf 1 x.request ++ x.nonce ++ x.payload))
        { s with boot := { s.boot with signing := xs } }

/-- 60 s (R389). -/
def commitCycles : Nat := 84000000000

/-- What no running task's LDR can still return is forgotten (R168). -/
def forgetPast (s : State) : State :=
  { s with past := s.past.filter (fun e => s.tasks.any (fun t => !t.complete && decide (t.started ≤ e.1))) }

/-- What the management cores do by the clock: hours and commits of the lifetime records (R389), signatures (R386). -/
def manage (s : State) : State :=
  let s := if s.clock % hourCycles = 0 then s.count 10 0 0 else s
  let s := if s.clock % commitCycles = 0 ∧ s.boot.stage = 5 then s.postOnce .lifetimeCommit else s
  forgetPast (signNext s)

/-- The end of a cycle: releases and completions of the warps, the watchdogs count, results of a stated latency are written, and
waiting threads are examined. -/
def tick (s : State) : State :=
  let s := settleWarps s
  let s : State := { s with fab := { s.fab with reqs := s.fab.reqs.map (fun r =>
    if s.linkWaiting r then { r with started := r.started + 1, issued := r.issued + 1 } else r) } }
  let gs := s.gangs.map (fun (g : Gang) => if s.watchdogCounts g then { g with wdCount := g.wdCount + 1 } else g)
  let fire := (gs.filter (fun g => s.watchdogCounts g && decide (g.wdCount ≥ g.wdLimit))).map (·.uid)
  let s := wakeSleepers { s with clock := s.clock + 1, cursor := 0, warps := s.warps.map Warp.settleSerial, gangs := gs }
  trapAbandoned (settle (writeTimed (fire.foldl (fun s g => s.postOnce (.watchdog g)) (manage s))))

/-! ## Tracked results and sleep -/

/-- The operation of an MBRECV performs once its record is in the registers (R265, R290); an access performs by its own events, and its
messages go elsewhere or it is still recorded. -/
def State.received (r : TRef) (id : Nat) (s : State) : State :=
  if s.accs.any (fun a => a.id == id) || !(s.ops.any (fun o => o.id == id && o.points.contains (pointOfCore r.core))) then s
  else settle (s.performAt id 6)

/-- TRACKED_RESULT_WRITE (R19): the unit writes the result; a thread that waited for it becomes ready (R125). Of a thread that has ended
the operation still performs (R116). -/
def execTrackedResultWrite (t : TRef) (id : Nat) (s : State) : Host.Outcome State Fault Refusal :=
  match s.thread? t with
  | none => .next (s.received t id)
  | some th =>
    match th.tracked.find? (fun x => x.id == id) with
    | none => .next (s.received t id)
    | some x =>
      if !x.known || s.clock < x.due then .next (s.post (.trackedResultWrite t id))
      else .next ((s.setThread (s.writeTracked x th)).received t id)

/-- SLEEP_EXPIRE (R118): the count has elapsed and the thread is ready, as of the cycle in which it did; the end of the cycle before has
made it so already. -/
def execSleepExpire (t : TRef) (s : State) : Host.Outcome State Fault Refusal :=
  match s.thread? t with
  | none => .next s
  | some th =>
    match th.status with
    | .sleep u => if s.clock < u then .next (s.post (.sleepExpire t)) else .next (s.modThread t (Thread.finish u))
    | _ => .next s

/-! ## One member of a group -/

/-- An unassigned opcode, whatever its guard and its other fields (R54), in a warp whose state is not poisoned (R327). -/
def illegalWord (r : TRef) (s : State) : State :=
  match s.thread? r with
  | none => s
  | some th => raiseTrap r (TrapInfo.of (if (s.warpOf th).poisoned then .poison else .illegalOpcode)) s

/-- What a member of the group executes. -/
inductive Fetched where
  | run (i : Instr)
  /-- Nothing: the state says why (a line to fetch, a trap). -/
  | stop (s : State)
  deriving DecidableEq, Repr

/-- The check that precedes every other (R20, R55): with ctl.check set, a word issued early raises STALL_SHORT; a repetition whose
fields leave their range counts with the fields that do not. A warp whose own state is poisoned traps POISON before it (R327). -/
def State.firstCheck (s : State) (th : Thread) : Option Cause :=
  if (s.warpOf th).poisoned then some .poison
  else if (s.core th.ref.core).check.getLsbD 0 && (match s.earlyWord th with | some (op, f) => tooEarly op f s.clock th | none => false)
  then some .stallShort else none

/-- The instruction that thread `r` executes now (R14, R51, R55): the line is held and checked, a repetition pending runs
as REP_REPETITION; an instruction whose page was denied traps (R306). -/
def fetchInstr (r : TRef) (s : State) : Fetched :=
  match s.thread? r with
  | none => .stop s
  | some th =>
    let ctx := s.ctxOf th
    match s.firstCheck th with
    | some c => .stop (notIssued r (raiseTrap r (TrapInfo.of c) s))
    | none =>
    if th.denied = some th.pc then .stop (raiseTrap r (TrapInfo.of .pageDenied) s)
    else match s.cachedLine r.core ctx (pcLine th.pc) with
    | none => .stop (needLine r (pcLine th.pc) s)
    | some l =>
      let bad := th.line != some (pcLine th.pc) && !l.reservedOk
      match th.rep with
      | some rp =>
        match s.wordAt th rp.pc with
        | some w => if bad then .stop (raiseTrap r (TrapInfo.of .illegalLine) s) else .run (.repRepetition (fieldsOfWord w))
        | none => .stop (needLine r (pcLine rp.pc) s)
      | none =>
        if bad then .stop (raiseTrap r (TrapInfo.of .illegalLine) s)
        else match decodeWord (l.slot (pcSlot th.pc)) with
        | .ok i => .run i
        | .error _ => .stop (illegalWord r s)

end Sys2Proof.Machine
end

