-- ==== Sys2Proof/Machine/Control.lean ====
section
/-! DEFINITION. The control class 0x6 (R112–R120), REP and its repetitions (R49–R52), and the rejoin points (R119, R128–R131). -/

namespace Sys2Proof.Machine

/-! ## Transfers (R48) -/

/-- The target of BRA, CALL and RJSET (R48). -/
def encodedTarget (c : Ctx) : DWord :=
  pcLine c.th.pc + 64 * c.f.imm.signExtend 64 + BitVec.ofNat 64 (Forms.mlow c.f)

/-- The checks of a taken transfer to `t` in their order (R13, R48), then `go`: the target's line is fetched first. -/
def checkedTarget (c : Ctx) (slot : Nat) (t : DWord) (go : Unit → Res) : Res :=
  if slot ≥ 5 then .trap (TrapInfo.of .illegalTarget)
  else if t.extractLsb' 57 7 != 0 || (c.s.homeOf (c.s.ctxOf c.th) t).isNone then .trap (TrapInfo.of .spaceFault)
  else match c.s.cachedLine c.r.core (c.s.ctxOf c.th) (pcLine t) with
  | none => .hold (needLine c.r (pcLine t) c.s)
  | some l => if l.tmask slot then go () else .trap (TrapInfo.of .illegalTarget)

/-- BRA (R48, R113). -/
def execBra (f : Fields) (s : State) : Host.Outcome State Fault Refusal :=
  issueOp 0x180 f s (fun c =>
    let t := encodedTarget c
    checkedTarget c (Forms.mlow f) t (fun _ => .jump c.s t))

/-- BRX (R113). -/
def execBrx (f : Fields) (s : State) : Host.Outcome State Fault Refusal :=
  issueOp 0x181 f s (fun c =>
    let t := c.pair 0 f.a.toNat
    checkedTarget c (pcSlot t) t (fun _ => .jump c.s t))

/-! ## The call stack (R21, R22) -/

/-- The base of the call spill area and the spill pointer's limit (R22). -/
def spillBase : DWord := 0xB000000000000000
def spillLimit : DWord := 0xB000000000001000

/-- An access to private memory that a call, a return or RETT makes in program order (R22): the location, or what the
thread does instead. -/
inductive PrivWay where
  | ok (s : State) (loc : Nat) (mode : AccMode)
  | stop (r : Res)

/-- A private access of the thread is still in flight. -/
def State.privPending (s : State) (r : TRef) : Bool :=
  s.accs.any (fun a => decide (a.t = r) && a.ptr.extractLsb' 60 4 == 0xB)

/-- Reaches 16 bytes at the spill pointer p of a thread, as any access to its page reaches its line, or says what keeps it from them (R22,
R200, R301, R307, R341, R349). -/
def privWay (s : State) (th : Thread) (r : TRef) (p : DWord) (want : Rights) : PrivWay :=
  let ctx := s.ctxOf th
  let off := p.toNat % 2 ^ 40
  let page := privPage th.priv off
  if s.privPending th.ref || s.invalidating ctx page then .stop (.hold s)
  else match s.resolvePriv ctx th.priv off want with
  | .ok q =>
    let loc := q.base + off % 65536
    match (if want.read then s.poisonOf loc 16 else none) with
    | some c => .stop (.trap (TrapInfo.of c))
    | none =>
      if want.write && s.heldByMove loc then .stop (.hold s)
      else
        let (s, ok) := agentLine q.accMode (r.core / 256) loc 16 ⟨0, 0, ctx⟩ want.write s
        if ok then .ok (countMigration ctx page q s) loc q.accMode else .stop (.hold s)
  | .noTranslation => .stop (.hold (requestTranslation ctx page s))
  | .absent => .stop (.hold (pageWait r ctx page (.of want) (forgetAnswer ctx page s)))
  | .denied => .stop (.trap (TrapInfo.of .pageDenied))
  | .space => .stop (.trap (TrapInfo.of .spaceFault))
  | .poolLost => .stop (.trap (TrapInfo.of .poolLost))

/-- Pushes a return address onto the call stack of thread `th` (R21, R114), for the waiting thread r: two entries are
spilled when four are on chip. -/
def pushCall (s : State) (th : Thread) (r : TRef) (ret : DWord) (go : State → Res) : Res :=
  match th.calls with
  | [a, b, c, d] =>
    if th.callsp = spillLimit then .trap (TrapInfo.of .callSpill)
    else match privWay s th r th.callsp rightsW with
    | .stop x => x
    | .ok s loc mode =>
      let bytes := bytesOf 8 a.toNat ++ bytesOf 8 b.toNat
      let s := dirtyAt mode (r.core / 256) loc ((s.writeBytes loc bytes).modCore th.ref.core (Core.l1Store loc bytes))
      go (s.modThread th.ref (fun t => { t with calls := [c, d, ret], callsp := t.callsp + 16 }))
  | l => go (s.modThread th.ref (fun t => { t with calls := l ++ [ret] }))

/-- The pair that a refill reads (R21). -/
def spilledPair (s : State) (loc : Nat) : List DWord :=
  [BitVec.ofNat 64 (s.readLe loc 8), BitVec.ofNat 64 (s.readLe (loc + 8) 8)]

/-- Pops the newest entry, the stack then being `rest`; refills when it is empty and pairs are spilled (R21, R115). -/
def popCall (c : Ctx) (rest : List DWord) (go : State → Res) : Res :=
  if rest.isEmpty && c.th.callsp != spillBase then
    match privWay c.s c.th c.r (c.th.callsp - 16) rightsR with
    | .stop x => x
    | .ok s loc _ => go (s.modThread c.r (fun t => { t with calls := spilledPair s loc, callsp := t.callsp - 16 }))
  else go (c.s.modThread c.r (fun t => { t with calls := rest }))

/-- CALL (R114). -/
def execCall (f : Fields) (s : State) : Host.Outcome State Fault Refusal :=
  issueOp 0x182 f s (fun c =>
    let t := encodedTarget c
    checkedTarget c (Forms.mlow f) t (fun _ => pushCall c.s c.th c.r (nextPc c.th.pc) (fun s => .jump s t)))

/-- CALLX (R114). -/
def execCallx (f : Fields) (s : State) : Host.Outcome State Fault Refusal :=
  issueOp 0x183 f s (fun c =>
    let t := c.pair 0 f.a.toNat
    checkedTarget c (pcSlot t) t (fun _ => pushCall c.s c.th c.r (nextPc c.th.pc) (fun s => .jump s t)))

/-- RET (R115). -/
def execRet (f : Fields) (s : State) : Host.Outcome State Fault Refusal :=
  issueOp 0x184 f s (fun c =>
    match c.th.calls.getLast? with
    | none => .trap (TrapInfo.of .illegalTarget)
    | some t => checkedTarget c (pcSlot t) t (fun _ => popCall c c.th.calls.dropLast (fun s => .jump s t)))

/-! ## EXIT, NOP, YIELD, SLEEP, BKPT, TRAP -/

/-- The end of a handler that leaves the core stopped and notifies the management core (R323). -/
def haltCore (c : Nat) (s : State) : State :=
  let s := { s with threads := s.threads.filter (fun t => !(t.ref.core == c && t.ref.slot == 64)),
                    warps := s.warps.filter (fun w => !(Warp.at c 64 w)) }
  s.modCore c (fun k => { k with halted := true })

/-- EXIT (R116); in the trap warp it acts as HALT (R314). -/
def execExit (f : Fields) (s : State) : Host.Outcome State Fault Refusal :=
  issueOp 0x185 f s (fun c => .ok (if c.r.slot = 64 then haltCore c.r.core c.s else exitThread c.r c.s))

/-- NOP (R117). -/
def execNop (f : Fields) (s : State) : Host.Outcome State Fault Refusal := issueOp 0x186 f s (fun c => .ok c.s)

/-- YIELD (R117): the picker has passed the thread over (R127); nothing else changes. -/
def execYield (f : Fields) (s : State) : Host.Outcome State Fault Refusal := issueOp 0x18A f s (fun c => .ok c.s)

/-- SLEEP (R118). -/
def execSleep (f : Fields) (s : State) : Host.Outcome State Fault Refusal :=
  issueOp 0x18B f s (fun c =>
    let n := if Forms.m4 f then f.imm.toNat else (c.reg 0 f.a.toNat).toNat
    if n = 0 then .ok c.s
    else .wait ((c.s.modThread c.r (fun t => { t with status := .sleep (c.s.clock + n) })).post (.sleepExpire c.r)))

/-- BKPT (R120). -/
def execBkpt (f : Fields) (s : State) : Host.Outcome State Fault Refusal :=
  issueOp 0x18C f s (fun _ => .trap (TrapInfo.of .breakpoint))

/-- TRAP (R120). -/
def execTrap (f : Fields) (s : State) : Host.Outcome State Fault Refusal :=
  issueOp 0x18D f s (fun _ => .trap (TrapInfo.of .trapInsn))

/-! ## REP (R49–R52) -/

/-- REP (R51): the thread holds repeat state from here on; the follower's line is held, for the checks of R50. -/
def execRep (f : Fields) (s : State) : Host.Outcome State Fault Refusal :=
  match s.thread? s.issue.cur with
  | none => .next s
  | some th =>
    if !(s.warpOf th).poisoned && (s.core th.ref.core).check.getLsbD 0 && tooEarly 0x187 f s.clock th then .next (raiseTrap th.ref (TrapInfo.of .stallShort) s)
    else match s.wordAt th (nextPc th.pc) with
    | none => .next (needLine th.ref (pcLine (nextPc th.pc)) s)
    | some w =>
      let op := opcodeOfWord w
      .next (issueWith 0x187 f (followerFate op) (badIncrement f op (fieldsOfWord w)) s (fun c =>
        .jump (c.s.modThread c.r (fun t => { t with rep := some ⟨t.pc, repCount f, 0⟩ })) (nextPc c.th.pc)))

/-- The repetition that the thread issues next becomes the word of the issue record, and the thread issues it next. -/
def startRepetition (i : Instr) (th : Thread) (s : State) : State :=
  { s with issue := { s.issue with follower := some i, todo := th.ref :: s.issue.todo, paired := false } }

/-- REP_REPETITION (R51), for a thread inside a REP with fields f at its follower: the word of repetition j is formed and
issues as one instruction; a field or offset out of range traps. -/
def execRepRepetition (f : Fields) (s : State) : Host.Outcome State Fault Refusal :=
  match s.thread? s.issue.cur with
  | none => .next s
  | some th =>
    match th.rep, s.wordAt th th.pc with
    | some r, some w =>
      match repetition f (fieldsOfWord w) r.j with
      | none => .next (raiseTrap th.ref (TrapInfo.of .illegalOperand) s)
      | some g =>
        match instrOf (opcodeOfWord w) g with
        | some i => .next (startRepetition i th s)
        | none => .next (raiseTrap th.ref (TrapInfo.of .illegalOpcode) s)
    | some _, none => .next (needLine th.ref (pcLine th.pc) s)
    | none, _ => .next s

/-! ## Rejoin points (R119, R128–R131) -/

/-- RJSET (R119, R130). -/
def execRjset (f : Fields) (s : State) : Host.Outcome State Fault Refusal :=
  issueOp 0x188 f s (fun c =>
    if Forms.mlow f ≥ 5 then .trap (TrapInfo.of .illegalTarget)
    else
      let p := encodedTarget c
      let mask : Word := (c.va false).extractLsb' 0 32
      let w := c.warp
      if w.rejoin.any (fun e => e.point == p) then
        .ok (c.s.modWarp c.r.core c.r.slot (fun w => { w with
          rejoin := w.rejoin.map (fun (e : RejoinEntry) => if e.point = p then { e with mask := e.mask ||| mask } else e) }))
      else if w.rejoin.length ≥ 32 then .trap (TrapInfo.of .rejoinCycle)
      else .ok (c.s.modWarp c.r.core c.r.slot (fun w => { w with rejoin := w.rejoin ++ [⟨p, mask, 0⟩] })))

/-- RJWAIT (R119, R128, R131): the thread arrives at the entry of its program counter and waits for the release, made at
the end of the cycle. -/
def execRjwait (f : Fields) (s : State) : Host.Outcome State Fault Refusal :=
  issueOp 0x189 f s (fun c =>
    match c.warp.rejoin.find? (fun e => e.point == c.th.pc) with
    | none => .ok c.s
    | some e =>
      let e' : RejoinEntry := { e with arrived := e.arrived ||| BitVec.ofNat 32 (2 ^ c.r.lane) }
      let mates := c.s.threadsOfWarp c.r.core c.r.slot
      if !(rejoinMet (laneMask mates) e') && mates.all (fun t => t.ref.lane == c.r.lane || t.status == .rejoin) then
        .trap (TrapInfo.of .rejoinCycle)
      else
        let s := c.s.modWarp c.r.core c.r.slot (fun w => { w with
          rejoin := w.rejoin.map (fun (x : RejoinEntry) => if x.point = c.th.pc then e' else x) })
        .wait (s.modThread c.r (fun t => { t with status := .rejoin })))

end Sys2Proof.Machine
end

