-- ==== Sys2Proof/Machine/Float.lean ====
section
/-! DEFINITION. The float class 0x3 (R97–R103). -/

namespace Sys2Proof.Machine

/-- The rounding mode and ftz of a word (R45). -/
def modeOf (f : Fields) : RMode := RMode.ofBits (f.m.extractLsb' 0 2)
def ftzOf (f : Fields) : Bool := f.m.getLsbD 2

/-- The source modifier bits of operand number `pos` (0 a, 1 b, 2 c): absolute value and negation; none beside an
immediate (R45). -/
def smodAbs (f : Fields) (pos : Nat) : Bool := !(Forms.m4 f) && f.imm.getLsbD (2 * pos + 1)
def smodNeg (f : Fields) (pos : Nat) : Bool := !(Forms.m4 f) && f.imm.getLsbD (2 * pos)

/-- The format of a lane of a float type, its width, and the lanes of a value (R42, R59). -/
def fmtOf (ty : Nat) : Fmt :=
  match ty with
  | 9 => Fmt.f64 | 0xA => Fmt.f16 | 0xB => Fmt.bf16 | 0xC => Fmt.e4m3 | 0xD => Fmt.e5m2 | 0xE => Fmt.e2m1 | _ => Fmt.f32
def elemCount (ty : Nat) : Nat := match ty with | 0xA => 2 | 0xB => 2 | 0xC => 4 | 0xD => 4 | 0xE => 8 | _ => 1
def elems (ty : Nat) (v : DWord) : List Nat :=
  (List.range (elemCount ty)).map (fun i => v.toNat / 2 ^ ((fmtOf ty).width * i) % 2 ^ (fmtOf ty).width)

/-- The values of the elements of an operand, after ftz and its source modifiers (R45, R61). -/
def sources (f : Fields) (ty pos : Nat) (v : DWord) : List Val :=
  (elems ty v).map (fun x => (fmtOf ty).source (ftzOf f) (smodAbs f pos) (smodNeg f pos) x)

/-- Done with float lanes, unless FP_TRAP is raised (R98, R325). -/
def Ctx.floatLanes (c : Ctx) (l : List LaneRes) : Res :=
  let ty := Forms.ts c.f
  c.fpResult (excAll l) (c.value c.w (BitVec.ofNat 64 (joinLanes (fmtOf ty).width (l.map (·.code)))))

/-- The operands of a two-operand float instruction, element by element. -/
def Ctx.sources2 (c : Ctx) : List (Val × Val) :=
  let ty := Forms.ts c.f
  (sources c.f ty 0 (c.va c.w)).zip (sources c.f ty 1 (c.vb c.w))

/-- A sum of the terms that a lane's operands give, rounded once (R98). -/
def floatSum (op : Nat) (f : Fields) (s : State) (terms : Val → Val → List Val) : Host.Outcome State Fault Refusal :=
  issueOp op f s (fun c =>
    c.floatLanes (c.sources2.map (fun x =>
      sumRound (fmtOf (Forms.ts f)) (modeOf f) (ftzOf f) (x.1.isNan || x.2.isNan) (terms x.1 x.2))))

/-- FADD (R98). -/
def execFadd (f : Fields) (s : State) : Host.Outcome State Fault Refusal := floatSum 0x0C0 f s (fun a b => [a, b])
/-- FSUB (R98). -/
def execFsub (f : Fields) (s : State) : Host.Outcome State Fault Refusal := floatSum 0x0C1 f s (fun a b => [a, b.negate])
/-- FMUL (R98). -/
def execFmul (f : Fields) (s : State) : Host.Outcome State Fault Refusal := floatSum 0x0C2 f s (fun a b => [a.mul b])

/-- FFMA (R98). -/
def execFfma (f : Fields) (s : State) : Host.Outcome State Fault Refusal :=
  issueOp 0x0C3 f s (fun c =>
    let ty := Forms.ts f
    let cs := sources f ty 2 (c.vc c.w)
    c.floatLanes ((c.sources2.zip cs).map (fun x =>
      sumRound (fmtOf ty) (modeOf f) (ftzOf f) (x.1.1.isNan || x.1.2.isNan || x.2.isNan) [x.1.1.mul x.1.2, x.2])))

/-- FMIN and FMAX (R99). -/
def floatMinMax (op : Nat) (isMax : Bool) (f : Fields) (s : State) : Host.Outcome State Fault Refusal :=
  issueOp op f s (fun c => c.floatLanes (c.sources2.map (fun x => minMaxNum (fmtOf (Forms.ts f)) isMax x.1 x.2)))

/-- FMIN (R99). -/
def execFmin (f : Fields) (s : State) : Host.Outcome State Fault Refusal := floatMinMax 0x0C4 false f s
/-- FMAX (R99). -/
def execFmax (f : Fields) (s : State) : Host.Outcome State Fault Refusal := floatMinMax 0x0C5 true f s

/-- FCMP (R100): the condition is field c. -/
def execFcmp (f : Fields) (s : State) : Host.Outcome State Fault Refusal :=
  issueOp 0x0C6 f s (fun c => c.predicate (c.sources2.all (fun x => fcmpHolds (f.c.toNat % 8) x.1 x.2)))

/-- FRND (R101). -/
def execFrnd (f : Fields) (s : State) : Host.Outcome State Fault Refusal :=
  issueOp 0x0C7 f s (fun c =>
    let ty := Forms.ts f
    c.floatLanes ((sources f ty 0 (c.va c.w)).map (frnd (fmtOf ty) (modeOf f) (ftzOf f))))

/-- FCLS (R102): the class of a, selected by the mask b (log 21, DEDUCED). -/
def execFcls (f : Fields) (s : State) : Host.Outcome State Fault Refusal :=
  issueOp 0x0C8 f s (fun c =>
    let k := fclass (fmtOf (Forms.ts f)) (ftzOf f) (smodAbs f 0) (smodNeg f 0) (c.va c.w).toNat
    c.predicate ((c.vb false).getLsbD k))

/-- FDOT2 (R103). -/
def execFdot2 (f : Fields) (s : State) : Host.Outcome State Fault Refusal :=
  issueOp 0x0C9 f s (fun c =>
    let xs := c.sources2
    let z := Fmt.f32.source (ftzOf f) (smodAbs f 2) (smodNeg f 2) (c.vc false).toNat
    let r := sumRound Fmt.f32 (modeOf f) (ftzOf f) (xs.any (fun x => x.1.isNan || x.2.isNan) || z.isNan)
      (xs.map (fun x => x.1.mul x.2) ++ [z])
    c.fpResult r.exc (c.value false (BitVec.ofNat 64 r.code)))

end Sys2Proof.Machine
end

