-- ==== Sys2Proof/Machine/Convert.lean ====
section
/-! DEFINITION. The conversion class 0x5 (R106–R111). -/

namespace Sys2Proof.Machine

/-- cvt.sat (R106). -/
def cvtSat (f : Fields) : Bool := f.c.getLsbD 0

/-- An integer conversion (R107). -/
def convertInt (td ts : Nat) (sat : Bool) (v : DWord) : DWord :=
  BitVec.ofNat 64 (laneResult sat td (scalarInt ts v))

/-- Whether .sat clamps a float conversion of CVT: only where f64 becomes f32 (R107). A conversion of a type to itself rounds the value,
which changes nothing but a NaN's code and, under ftz, a subnormal (log 73, DESIGN CHOICE). -/
def cvtClamps (f : Fields) : Bool := cvtSat f && Forms.ts f == 9 && Forms.td f == 8

/-- CVT (R107). -/
def execCvt (f : Fields) (s : State) : Host.Outcome State Fault Refusal :=
  issueOp 0x140 f s (fun c =>
    let td := Forms.td f
    let ts := Forms.ts f
    if Forms.tyS ts then c.value (Forms.wide td) (convertInt td ts (cvtSat f) (c.va c.w))
    else
      let v := (fmtOf ts).source (ftzOf f) (smodAbs f 0) (smodNeg f 0) (c.va c.w).toNat
      let r := convFloat (fmtOf td) (modeOf f) (ftzOf f) (cvtClamps f) v
      c.fpResult r.exc (c.value (Forms.wide td) (BitVec.ofNat 64 r.code)))

/-- CVTI (R108). -/
def execCvti (f : Fields) (s : State) : Host.Outcome State Fault Refusal :=
  issueOp 0x141 f s (fun c =>
    let td := Forms.td f
    let v := (fmtOf (Forms.ts f)).source (ftzOf f) (smodAbs f 0) (smodNeg f 0) (c.va c.w).toNat
    let r := toInteger (modeOf f) (minInt td) (maxInt td) v
    c.fpResult r.2 (c.value (Forms.wide td) (BitVec.ofNat 64 (wrapInt (width td) r.1))))

/-- CVTF (R108). -/
def execCvtf (f : Fields) (s : State) : Host.Outcome State Fault Refusal :=
  issueOp 0x142 f s (fun c =>
    let td := Forms.td f
    let r := ofInteger (fmtOf td) (modeOf f) (ftzOf f) (scalarInt (Forms.ts f) (c.va c.w))
    c.fpResult r.exc (c.value (Forms.wide td) (BitVec.ofNat 64 r.code)))

/-- One element of PACK (R109), and whether a NaN met E2M1 (R63). -/
def packElem (f : Fields) (v : Val) : LaneRes × Bool :=
  let F := fmtOf (Forms.td f)
  if Forms.td f = 0xA ∨ Forms.td f = 0xB then (convFloat F (modeOf f) (ftzOf f) (cvtSat f) v, false)
  else convNarrow F (cvtSat f) v

/-- The elements of operand `pos` of PACK: those of one register, or of a pair. Under ftz a subnormal source is a zero, also where the
destination's own format ignores ftz (R61, R63; log 74, DESIGN CHOICE). -/
def packSources (f : Fields) (pos : Nat) (pair : Bool) (v : DWord) : List Val :=
  let ts := Forms.ts f
  let one (w : DWord) := sources f ts pos w
  if pair then one (ofWord (v.extractLsb' 0 32)) ++ one (ofWord (v.extractLsb' 32 32)) else one v

/-- PACK (R109). -/
def execPack (f : Fields) (s : State) : Host.Outcome State Fault Refusal :=
  issueOp 0x143 f s (fun c =>
    let pair := (Forms.packPairs (Forms.td f) (Forms.ts f)).getD false
    let vb := if Forms.m4 f then ofWord f.imm else c.regv 1 pair f.b.toNat
    let rs := (packSources f 0 pair (c.va pair) ++ packSources f 1 pair vb).map (packElem f)
    let code := joinLanes (fmtOf (Forms.td f)).width (rs.map (fun x => x.1.code))
    c.fpResult (excAll (rs.map (·.1)))
      (.ok (setFmterr c.r.core (rs.any (·.2)) (c.write (valueRegs false f.d.toNat (BitVec.ofNat 64 code)) []))))

/-- The registers that hold elements of a format, packed four bytes to a register. -/
def packWords (F : Fmt) : Nat → List Nat → List Word
  | 0, _ => []
  | n + 1, l => BitVec.ofNat 32 (joinLanes F.width (l.take (32 / F.width))) :: packWords F n (l.drop (32 / F.width))

/-- UNPK (R110): an exact widening. -/
def execUnpk (f : Fields) (s : State) : Host.Outcome State Fault Refusal :=
  issueOp 0x144 f s (fun c =>
    let F := fmtOf (Forms.td f)
    let rs := (sources f (Forms.ts f) 0 (c.va false)).map (F.round .rne (ftzOf f))
    let n := (Forms.unpkRegs (Forms.td f) (Forms.ts f)).getD 2
    c.fpResult (excAll rs) (.ok (c.write (wordRegs f.d.toNat (packWords F n (rs.map (·.code)))) [])))

/-- QBLK (R71, R111) (log 22, DEDUCED). -/
def execQblk (f : Fields) (s : State) : Host.Outcome State Fault Refusal :=
  issueOp 0x145 f s (fun c =>
    let vs := (c.group 0 f.a.toNat 8).map (fun w => Fmt.f32.source (ftzOf f) (smodAbs f 0) (smodNeg f 0) w.toNat)
    let g := Fmt.bf16.source (ftzOf f) false false ((c.vb false).toNat % 2 ^ 16)
    let q := quantBlock g vs
    c.fpResult q.2.2 (.ok (setFmterr c.r.core q.2.1
      (c.write [(f.d.toNat, BitVec.ofNat 32 (joinLanes 4 q.1.elems)), (f.d.toNat + 1, BitVec.ofNat 32 q.1.scale)] []))))

end Sys2Proof.Machine
end

