-- ==== Sys2Proof/Machine/Place.lean ====
section
/-! DEFINITION. The resources of cores (R124), the placement of a gang (R257, R259), its bind, and the dispatch of its blocks
(R12, R260). -/

namespace Sys2Proof.Machine

/-! ## What a block takes (R124, R254, R287) -/

structure Shape where
  ntid : Nat
  nblock : Nat
  regs : Nat
  scratch : Nat
  acc : Nat
  deriving DecidableEq, Repr

def cardBits (c : BitVec 512) (h l : Nat) : Nat := recBits c.toNat h l

/-- The shape that a job card gives (R254). -/
def Shape.ofCard (c : BitVec 512) : Shape :=
  { ntid := cardBits c 111 101 + 1, nblock := cardBits c 100 95 + 1, regs := 8 * (cardBits c 90 86 + 1),
    scratch := cardBits c 85 66, acc := cardBits c 65 58 }
/-- The shape that a spawn record gives (R287). -/
def Shape.ofSpawn (r : Nat) : Shape :=
  { ntid := recBits r 63 53 + 1, nblock := recBits r 52 47 + 1, regs := 8 * (recBits r 46 42 + 1),
    scratch := recBits r 41 22, acc := recBits r 21 14 }

def Shape.warps (h : Shape) : Nat := (h.ntid + 31) / 32
/-- Its warps w with w mod 4 = q. -/
def Shape.slots (h : Shape) (q : Nat) : Nat := (h.warps + 3 - q) / 4
def Shape.words (h : Shape) : Nat := 32 * h.regs * h.warps

/-- The block fits an empty core. -/
def Shape.fitsEmpty (h : Shape) : Bool :=
  decide (h.scratch ≤ Config.scratchBytes) && decide (h.acc ≤ Config.accRows) && decide (h.words ≤ Config.registerWords)

def Block.shape (b : Block) : Shape := ⟨b.ntid, 1, b.regs, b.spSize, b.accRows⟩

/-! ## What a core has free -/

def State.coreBlocks (s : State) (c : Nat) : List Block := s.blocks.filter (fun b => b.core == c && b.state != 0)

/-- Warp slots of residue q that are taken: by live warps, and by blocks that have not started. -/
def State.slotsTaken (s : State) (c q : Nat) : Nat :=
  (s.warps.filter (fun w => w.core == c && decide (w.slot < 64) && w.slot % 4 == q)).length
    + (((s.coreBlocks c).filter (fun b => b.state == 1)).map (fun b => b.shape.slots q)).sum

/-- The lowest start, a multiple of `step`, of n units that no used run (start, length) meets, below `lim`. -/
def lowestGap (used : List (Nat × Nat)) (n step lim : Nat) : Option Nat :=
  let starts := 0 :: used.map (fun u => (u.1 + u.2 + step - 1) / step * step)
  let ok := starts.filter (fun x => decide (x + n ≤ lim) && used.all (fun u => u.2 == 0 || n == 0 || !(overlap u.1 u.2 x n)))
  ok.foldl (fun best x => match best with | some b => some (Nat.min b x) | none => some x) none

/-- The first accumulator row of a run for a new block (R124, R242). -/
def State.accGap (s : State) (c n : Nat) : Option Nat :=
  lowestGap ((s.coreBlocks c).map (fun b => (b.acc0, b.accRows))) n 1 Config.accRows
/-- br.sp0 of a new block: the lowest start of a free run that holds its scratchpad, else the lowest free byte, since an allocation need
not be one run (R124; log 7, DESIGN CHOICE). -/
def State.spStart (s : State) (c n : Nat) : Nat :=
  let used := (s.coreBlocks c).map (fun b => (b.sp0, b.spSize))
  ((lowestGap used n 1 Config.scratchBytes).or (lowestGap used 1 1 Config.scratchBytes)).getD 0

/-- The bind record that a new block takes among its core's (R259), and the number that a new gang takes on a die: the lowest free
(log 84, DESIGN CHOICE). -/
def State.freeIndex (s : State) (c : Nat) : Nat :=
  ((List.range Config.coreBlocks).find? (fun j => !((s.coreBlocks c).any (fun b => b.index == j)))).getD 0
def State.freeGid (s : State) (die : Nat) : Nat :=
  ((List.range (2 ^ 16)).find? (fun j => !(s.gangs.any (fun g => g.die == die && g.gid == j)))).getD 0

/-- A core takes dispatches: it is in service and awaits no self-test (R326). -/
def State.coreServes (s : State) (c : Nat) : Bool := (s.core c).inService && !(s.core c).mcheck

/-- A block of the shape fits the core now (R124). -/
def State.coreFits (s : State) (c : Nat) (h : Shape) : Bool :=
  let bs := s.coreBlocks c
  s.coreServes c && decide (bs.length < Config.coreBlocks)
    && (List.range 4).all (fun q => decide (s.slotsTaken c q + h.slots q ≤ 16))
    && decide ((bs.map (fun b => b.shape.words)).sum + h.words ≤ Config.registerWords)
    && decide ((bs.map (·.spSize)).sum + h.scratch ≤ Config.scratchBytes)
    && (s.accGap c h.acc).isSome

/-! ## Placement (R257, R267) -/

/-- The cores for a gang in one cluster, the lowest that fit and are not taken (log 19, DESIGN CHOICE). -/
def State.placeInCluster (s : State) (h : Shape) (taken : List Nat) (cluster : Nat) : Option (List Nat) :=
  let cs := ((List.range 64).map (fun i => cluster * 64 + i)).filter (fun c => !(taken.contains c) && s.coreFits c h)
  if cs.length ≥ h.nblock then some (cs.take h.nblock) else none

/-- The cores for a gang on a die: the lowest cluster where it fits. -/
def State.placeGang (s : State) (h : Shape) (die : Nat) (taken : List Nat) : Option (List Nat) :=
  (List.range 4).findSome? (fun k => s.placeInCluster h taken (die * 4 + k))

/-- The cores for n gangs of one item on a die, each on cores distinct from the others'. -/
def State.placeGangs (s : State) (h : Shape) (die : Nat) : Nat → List Nat → Option (List (List Nat))
  | 0, _ => some []
  | n + 1, taken =>
    match s.placeGang h die taken with
    | none => none
    | some cs => (State.placeGangs s h die n (cs ++ taken)).map (fun l => cs :: l)

/-! ## Binding (R259) -/

/-- What the bind records of a gang say. -/
structure Birth where
  task : Nat
  ctx : Nat
  hh : Nat
  rank : Nat
  shape : Shape
  entry : DWord
  argp : DWord
  prio : Nat
  posted : Nat
  disp : Bool
  spawned : Option DWord
  hold : Bool
  deriving DecidableEq, Repr

/-- Binds one block to a core: its scratchpad and accumulator rows are granted. -/
def bindBlock (x : Birth) (gang rank core : Nat) (s : State) : State :=
  let (id, s) := s.fresh
  let b : Block :=
    { uid := id, gang := gang, index := s.freeIndex core, rank := rank, core := core, sp0 := s.spStart core x.shape.scratch, spSize := x.shape.scratch,
      acc0 := (s.accGap core x.shape.acc).getD 0, accRows := x.shape.acc, ntid := x.shape.ntid, regs := x.shape.regs,
      entry := x.entry, argp := x.argp, state := 1, hold := x.hold }
  let s : State := { s with blocks := s.blocks ++ [b] }
  if x.hold then s else s.post (.blockDispatch id)

/-- Binds a gang to cores in one step (R259); the new gang's number. -/
def bindGang (x : Birth) (cores : List Nat) (s : State) : State × Nat :=
  let (id, s) := s.fresh
  let c0 := cores.headD 0
  let g : Gang :=
    { uid := id, gid := s.freeGid (c0 / 256), die := c0 / 256, cluster := c0 / 64 % 4, rank := x.rank, hh := x.hh, task := x.task, ctx := x.ctx,
      nblock := x.shape.nblock, prio := x.prio, posted := x.posted, dispatcher := x.disp, spawned := x.spawned,
      failed := false, wdInterval := if x.disp then 0 else (s.ctxConfig x.ctx).wdInterval, wdCount := 0, phase := .bound,
      hasAtt := false, wanted := false }
  let s : State := { s with gangs := s.gangs ++ [g] }
  let ranked := (List.range cores.length).zip cores
  (ranked.foldl (fun s p => bindBlock x id p.1 p.2 s) s, id)

/-- A household of a task begins, with the module of each of its gangs (R257, R369). -/
def newHousehold (task rank : Nat) (modules : List Nat) (seq : Option (Nat × Nat)) (s : State) : State × Nat :=
  let (id, s) := s.fresh
  let ngang := modules.length
  ({ s with hhs := s.hhs ++ [{ uid := id, task := task, rank := rank, ngang := ngang, seq := seq, modules := modules,
                               att := List.replicate ngang .unattached, copies := [] }] }, id)

/-! ## Dispatch (R260) -/

/-- Serril recomputes ctl.check on a core (R316). -/
def recheck (core : Nat) (s : State) : State :=
  let on := (s.coreBlocks core).any (fun b => b.state != 1 && (match s.gang? b.gang with
    | some g => (s.ctxConfig g.ctx).checkAll || (match s.task? g.task with | some t => t.card.getLsbD 47 | none => false)
    | none => false))
  s.modCore core (fun k => { k with check := if on then 1 else 0 })

/-- The lowest free slot of a core for warp w (R124). -/
def State.freeSlot (s : State) (core w : Nat) : Nat :=
  (((List.range 16).map (fun i => 4 * i + w % 4)).find? (fun v => (s.warp? core v).isNone)).getD (w % 4)

/-- Places warp w of a block, its registers zero, its threads ready in the next cycle (R12, R123). -/
def startWarp (b : Block) (w : Nat) (s : State) : State :=
  let slot := s.freeSlot b.core w
  let lanes := (List.range 32).filter (fun l => decide (w * 32 + l < b.ntid))
  let s : State := { s with warps := s.warps ++ [Warp.fresh b.core slot w b.uid] }
  lanes.foldl (fun s l =>
    let (p, s) := s.fresh
    { s with threads := s.threads ++ [Thread.fresh ⟨b.core, slot, l⟩ (w * 32 + l) b.uid b.regs p b.entry (s.clock + 1)] }) s

/-- The scratchpad and the accumulator rows of a block become zero (R12, R260). -/
def zeroBlock (b : Block) (s : State) : State :=
  let lo := scratchBase b.core + b.spBase
  let s : State := { s with mem := s.mem.filter (fun c => !(decide (lo ≤ c.1) && decide (c.1 < lo + b.spSize))) }
  let accIn (k : Nat) : Bool := decide (b.acc0 ≤ k / 256) && decide (k / 256 < b.acc0 + b.accRows)
  s.modCore b.core (fun k => { k with
    acc := k.acc.filter (fun x => !(accIn x.1)),
    badWords := k.badWords.filter (fun w =>
      if w ≥ 2 ^ 20 then !(accIn (2 * (w - 2 ^ 20))) else !(decide (b.spBase ≤ 8 * w) && decide (8 * w < b.spBase + b.spSize))) })

/-- BLOCK_DISPATCH (R260): a bound block that is not held starts: its warps are placed, its state is zeroed, its threads are
ready at the entry; lines of its task are fetched anew (R15). -/
def execBlockDispatch (block : Nat) (s : State) : Host.Outcome State Fault Refusal :=
  match s.block? block with
  | none => .next s
  | some b =>
    match s.gang? b.gang with
    | none => .next s
    | some g =>
      if b.state ≠ 1 ∨ b.hold ∨ (g.phase ≠ .bound ∧ g.phase ≠ .running) then .next s
      else
        let s := zeroBlock b s
        let s := s.modCore b.core (fun k => { k with
          icache := k.icache.filter (fun l => l.ctx != g.ctx), fpen := (s.ctxConfig g.ctx).fpen })
        let s : State := { s with blocks := s.blocks.map (fun (x : Block) => if x.uid = block then { x with state := 2 } else x) }
        let s := s.modGang g.uid (fun x => { x with phase := .running })
        .next (recheck b.core ((List.range b.shape.warps).foldl (fun s w => startWarp b w s) s))

end Sys2Proof.Machine
end

