-- ==== Sys2Proof/Machine/Preempt.lean ====
section
/-! DEFINITION. Pre-emption: the stop, the drain and the save of a gang (R330), and its restoration (R331, R332). -/

namespace Sys2Proof.Machine

/-! ## The stop (R329, R330) -/

/-- A household may be pre-empted now: every gang of it runs, none is the dispatcher's, and none of its cores is stopped
(R329). -/
def State.canPreempt (s : State) (hh : Nat) : Bool :=
  let gs := s.gangsOfHh hh
  !gs.isEmpty && gs.all (fun g => g.phase == .running && !g.dispatcher &&
    (s.coresOfGang g.uid).all (fun c => (s.core c).stopped.isNone))

/-- A household that Serril chooses for pre-emption (R329): a core of it may be stopped for a trap, which defers it, but none has halted. -/
def State.mayPreempt (s : State) (hh : Nat) : Bool :=
  let gs := s.gangsOfHh hh
  !gs.isEmpty && gs.all (fun g => g.phase == .running && !g.dispatcher && (s.coresOfGang g.uid).all (fun c => !(s.core c).halted))

/-- Every gang of the household stops at an instruction boundary; the drains begin (R330, step 1; R332). -/
def beginPreempt (hh : Nat) (s : State) : State :=
  if !(s.canPreempt hh) then s
  else
    let gs := (s.gangsOfHh hh).map (·.uid)
    let s : State := { s with gangs := s.gangs.map (fun (g : Gang) => if gs.contains g.uid then { g with phase := .stopping, wanted := false } else g) }
    s.postAll (gs.map .preemptDrainEnd)

/-- The pre-emption of a gang with its household begins, or is deferred while a core of it is stopped for a trap (R329). -/
def askPreempt (g : Gang) (s : State) : State :=
  if s.canPreempt g.hh then beginPreempt g.hh s
  else (s.modGang g.uid (fun x => { x with wanted := true })).post (.preemptDrainEnd g.uid)

/-! ## The drain (R330, step 2) -/

/-- The gang of an operation that is outstanding. -/
def State.opGang (s : State) (id : Nat) : Option Nat := (s.ops.find? (fun o => o.id == id)).map (·.gang)

/-- Accesses of a gang that have been accepted; a PGREQ is a producer that awaits a page. -/
def State.gangAccs (s : State) (g : Nat) : List Access :=
  s.accs.filter (fun a => a.op != .pgreq && s.opGang a.id == some g)

/-- The scratchpad side of a tile (R208, R209). -/
def Access.tileRange (a : Access) : Option Nat :=
  match a.op with | .ldt sp _ => some sp | .stt _ sp _ => some sp | _ => none

/-- An accepted access that an engine operation stopped by the pre-emption keeps from performing: by a key, or by the range of a copy (R163;
log 95, DESIGN CHOICE). -/
def State.stuckOnEngine (s : State) (a : Access) : Bool :=
  a.waits.any (fun i => (s.eng? i).isSome && !(s.performed i a.scope)) || s.heldByRange a ||
    (match a.tileRange with | some sp => s.rangeHeld a.t.core sp (a.n - 64) | none => false)

/-- Access b keeps access a from performing: by a key, or as an earlier access to the same bytes. -/
def State.keptBy (s : State) (a b : Access) : Bool :=
  (a.waits.contains b.id && !(s.performed b.id a.scope)) ||
  (decide (b.id < a.id) && a.t.core == b.t.core && (meet b.spans a.spans || a.clash b)) ||
  (b.grp == a.grp && lineNum b.loc == lineNum a.loc)

/-- One round: the accesses that are stuck, or kept by a stuck one. -/
def State.stuckRound (s : State) (all : List Access) (stuck : List Nat) : List Nat :=
  (all.filter (fun a => stuck.contains a.id || all.any (fun b => b.id != a.id && stuck.contains b.id && s.keptBy a b))).map (·.id)

/-- The accepted accesses of a gang that cannot perform during the drain. -/
def State.stuckAccs (s : State) (g : Nat) : List Nat :=
  let all := s.gangAccs g
  all.foldl (fun st _ => s.stuckRound all st) ((all.filter s.stuckOnEngine).map (·.id))

/-- An operation of the gang that is saved, or issued again, and not drained. -/
def State.keptInSave (s : State) (stuck : List Nat) (id : Nat) : Bool :=
  stuck.contains id || (s.eng? id).isSome || s.accs.any (fun a => a.id == id && a.op == .pgreq)
    || s.threads.any (fun t => t.ownOp == some id)
    || s.warps.any (fun w => w.keys.any (fun (k : KeyState) => match k.arrival with | .armed m _ => m == id | _ => false))

/-- The drain of a gang is over: every operation not saved has performed, nothing that it sent awaits an answer, every
arrival for it has been delivered, and no detach is under way (R376). -/
def State.drained (s : State) (g : Nat) : Bool :=
  let stuck := s.stuckAccs g
  (s.ops.filter (fun o => o.gang == g)).all (fun o => s.keptInSave stuck o.id)
    && s.sends.all (fun x => x.gang != g || x.delivered)
    && s.messages.all (fun m => match m.t with
      | some r => (match s.thread? r with | some th => !(s.inGang g th) | none => true)
      | none => true)
    -- of a gang that a machine check has ended nothing runs on that core (R326)
    && (s.coresOfGang g).all (fun c => (s.core c).stopped.isNone || (s.core c).mcheck)
    && (match s.gang? g with | some x => !(s.detaching x.hh) | none => true)

/-- Accesses that have not been accepted are undone, and their threads issue again (R200, R330). -/
def undoSent (g : Nat) (s : State) : State :=
  (s.gangAccs g).foldl (fun s a =>
    if a.phase = .accepted ∨ a.phase = .coreDone ∨ a.phase = .visible then s
    else (undoAccess a s).modThread a.t (Thread.replay (s.clock + 1))) s

/-! ## The save (R330, step 3) -/

/-- A thread's wait as it is saved: what it awaited is issued again, but for a rejoin, a sleep and a barrier that has
released it (R140, R150, R331) (log 49, DEDUCED). -/
def Thread.saveForm (th : Thread) : Thread :=
  let th := { th with pend := [], readyAt := 0, age := 0, yielded := false, line := none, cleared := none }
  match th.status with
  | .rejoin => th
  | .sleep _ => th.finish 0
  | .released => th.finish 0
  | _ => { th with status := .ready, edited := false }

def Warp.saveForm (w : Warp) : Warp := { w with upend := [], colls := [] }

/-- The words of a block's grant among poisoned words, and back. -/
def badOf (b : Block) (l : List Nat) : List Nat :=
  l.filterMap (fun w =>
    if w ≥ 2 ^ 20 then
      (if b.acc0 * 128 ≤ w - 2 ^ 20 ∧ w - 2 ^ 20 < (b.acc0 + b.accRows) * 128 then some (w - b.acc0 * 128) else none)
    else if b.spBase ≤ 8 * w ∧ 8 * w < b.spBase + b.spSize then some (w - b.spBase / 8) else none)
def badFor (b : Block) (l : List Nat) : List Nat := l.map (fun w => if w ≥ 2 ^ 20 then w + b.acc0 * 128 else w + b.spBase / 8)

/-- The scratchpad cells of a block, from the base of its allocation on. -/
def State.cellsOf (s : State) (b : Block) : List Host.Cell :=
  let lo := scratchBase b.core + b.spBase
  (s.mem.filter (fun c => decide (lo ≤ c.1) && decide (c.1 < lo + b.spSize))).map (fun c => (c.1 - lo, c.2))
/-- Its accumulator words, from its first row on. -/
def State.accWordsOf (s : State) (b : Block) : List (Nat × Word) :=
  ((s.core b.core).acc.filter (fun x => decide (b.acc0 ≤ x.1 / 256) && decide (x.1 / 256 < b.acc0 + b.accRows))).map
    (fun x => (x.1 - b.acc0 * 256, x.2))
/-- The scoreboard ranges in a block's allocation, from its base on. -/
def State.rangesOf (s : State) (b : Block) : List Range :=
  ((s.core b.core).ranges.filter (fun r => decide (b.spBase ≤ r.lo) && decide (r.lo < b.spBase + b.spSize))).map
    (fun r => { r with lo := r.lo - b.spBase, hi := r.hi - b.spBase })

/-- The record that is saved of a gang. -/
def State.savedOf (s : State) (g : Gang) : Saved :=
  let bs := s.blocks.filter (fun b => b.gang == g.uid)
  let ws := s.warps.filter (fun w => bs.any (fun b => b.uid == w.block && decide (w.slot < 64)))
  let stuck := s.stuckAccs g.uid
  { gang := g.uid, die := g.die, threads := (s.threads.filter (s.inGang g.uid)).map Thread.saveForm,
    warps := ws.map Warp.saveForm, blocks := bs,
    scratch := bs.map (fun b => (b.uid, s.cellsOf b)), acc := bs.map (fun b => (b.uid, s.accWordsOf b)),
    bad := bs.map (fun b => (b.uid, badOf b (s.core b.core).badWords)),
    accs := s.accs.filter (fun a => stuck.contains a.id),
    engs := s.engs.filter (fun e => e.gang == g.uid),
    ranges := bs.flatMap (fun b => (s.rangesOf b).map (fun r => (b.uid, r))) }

/-- Instructions of the gang that wait at an object or for their consume key end as operations: they are issued again on resume (R331). -/
def dropObwaits (g : Nat) (s : State) : State := (s.threads.filter (s.inGang g)).foldl (fun s t => t.dropOwn s) s

/-- Collective instances that are not done are cancelled (R283). -/
def cancelColls (g : Nat) (s : State) : State :=
  { s with sch := { s.sch with colls := s.sch.colls.filter (fun i =>
      !(i.parts.any (fun p => p.1 == g) && i.parts.any (fun p => (s.eng? p.2).isSome))) } }

/-- The block's grant is released on its core; the L1 lines of its context are dropped (R330). -/
def releaseCore (b : Block) (ctx : Nat) (s : State) : State :=
  let inAcc (k : Nat) : Bool := decide (b.acc0 ≤ k / 256) && decide (k / 256 < b.acc0 + b.accRows)
  let bad := badFor b (badOf b (s.core b.core).badWords)
  s.modCore b.core (fun k => { k with
    l1 := k.l1.filter (fun l => l.ctx != ctx), acc := k.acc.filter (fun x => !(inAcc x.1)),
    badWords := k.badWords.filter (fun w => !(bad.contains w)),
    ranges := k.ranges.filter (fun r => !(decide (b.spBase ≤ r.lo) && decide (r.lo < b.spBase + b.spSize))) })

/-- The item under which a saved household waits to resume (R331): on the die on which it was pre-empted; one whose gangs span dies on the die
that holds its card, to be admitted again across dies (R258). -/
def resumeItem (gs : List Gang) (s : State) : State :=
  match gs with
  | [] => s
  | g :: _ =>
    let (id, s) := s.fresh
    let across := gs.any (fun y => y.die != g.die)
    let die := match across, s.task? g.task with | true, some t => t.die | _, _ => g.die
    let h := s.hh? g.hh
    let old := h.bind (·.seq)
    -- a household that came to lie across dies when it resumed draws its number now (R258)
    let n := s.sch.seqCounter + 1
    let s : State := if across && old.isNone then { s with sch := { s.sch with seqCounter := n } } else s
    let x : Item :=
      { id := id, die := die, queue := 64, card := 0, place := [], ctx := g.ctx, prio := g.prio, posted := g.posted,
        aged := false, next := match h with | some h => h.rank | none => 0, task := g.task,
        seq := if across && old.isNone then some (n, s.device) else old, parent := none, resume := gs.map (·.uid),
        chosen := if across then gs.map (fun g => (s.device, g.die)) else [], reserved := [],
        graph := none }
    let s : State := { s with sch := { s.sch with items := s.sch.items ++ [x] } }
    (s.post (.ageing die id)).post (.admissionDecision die)

/-- The gang's state is saved and its resources become free; the last gang of a household makes the item that waits to
resume. -/
def saveGang (g : Gang) (s : State) : State :=
  let s := dropObwaits g.uid s
  let x := s.savedOf g
  let s := cancelColls g.uid s
  let keep (u : Nat) : Bool := !(x.blocks.any (fun b => b.uid == u))
  let s := x.blocks.foldl (fun s b => releaseCore b g.ctx s) s
  let s : State := { s with
    threads := s.threads.filter (fun t => keep t.block), warps := s.warps.filter (fun w => keep w.block || decide (w.slot ≥ 64)),
    blocks := s.blocks.filter (fun b => keep b.uid),
    accs := s.accs.filter (fun a => !(x.accs.any (fun b => b.id == a.id))),
    engs := s.engs.filter (fun e => e.gang != g.uid),
    sch := { s.sch with saved := s.sch.saved ++ [x] } }
  let s := s.modGang g.uid (fun y => { y with phase := .saved })
  let s := x.blocks.foldl (fun s b => recheck b.core s) s
  let gs := s.gangsOfHh g.hh
  let s := wakeAdmission g.die s
  if gs.all (fun y => y.phase == .saved) then resumeItem gs s else s

/-- Every gang of the household has stopped and is drained, or is saved already (R330, R332). -/
def State.householdDrained (s : State) (hh : Nat) : Bool :=
  (s.gangsOfHh hh).all (fun y => y.phase == .saved || (y.phase == .stopping && s.drained y.uid))

/-- PREEMPT_DRAIN_END (R330): a deferred pre-emption begins once no core is stopped (R329); then, once every gang of the household
has stopped and is drained, the gang's state is saved. -/
def execPreemptDrainEnd (gang : Nat) (s : State) : Host.Outcome State Fault Refusal :=
  match s.gang? gang with
  | none => .next s
  | some g =>
    if g.phase = .running ∧ g.wanted then
      if s.canPreempt g.hh then .next (beginPreempt g.hh s)
      else if (s.coresOfHh g.hh).any (fun c => (s.core c).halted) then .next (s.modGang gang (fun x => { x with wanted := false }))
      else .next (s.post (.preemptDrainEnd gang))
    else if g.phase ≠ .stopping then .next s
    else
      let s := undoSent gang s
      if s.householdDrained g.hh then .next (saveGang g s)
      else
        let es := if s.detaching g.hh then s.engs.filter (fun e => e.gang == gang && !e.stopped) else []
        .next ((es.foldl (fun s e => s.postOnce (engineGo s e)) s).post (.preemptDrainEnd gang))

/-! ## Binding again (R331) -/

/-- The new place of a location in the scratchpad grants of some blocks. -/
def relocate (m : List (Block × Block)) (loc : Nat) : Nat :=
  match m.find? (fun p => decide (scratchBase p.1.core + p.1.spBase ≤ loc) && decide (loc < scratchBase p.1.core + p.1.spBase + p.1.spSize)) with
  | some (a, b) => scratchBase b.core + b.spBase + (loc - (scratchBase a.core + a.spBase))
  | none => loc

def relocateAcc (m : List (Block × Block)) (a : Access) : Access :=
  let op := match a.op with
    | .ldt sp lim => .ldt (relocate m sp) (relocate m (lim - 1) + 1)
    | .stt aon sp lim => .stt aon (relocate m sp) (relocate m (lim - 1) + 1)
    | o => o
  { a with op := op, loc := if a.mode = .scratch then relocate m a.loc else a.loc }

/-- The block's record at its new core. -/
def rebindBlock (b : Block) (core : Nat) (s : State) : State :=
  { s with blocks := s.blocks ++ [{ b with core := core, index := s.freeIndex core, sp0 := s.spStart core b.spSize,
                                            acc0 := (s.accGap core b.accRows).getD 0, state := 1, hold := true }] }

/-- A saved gang takes cores again, which run nothing yet. -/
def rebindGang (u : Nat) (cores : List Nat) (s : State) : State :=
  match s.sch.saved.find? (fun x => x.gang == u) with
  | none => s
  | some x =>
    let c0 := cores.headD 0
    let bs := sortBy (fun (a b : Block) => decide (a.rank < b.rank)) x.blocks
    let s := (bs.zip cores).foldl (fun s p => rebindBlock p.1 p.2 s) s
    s.modGang u (fun g => { g with die := c0 / 256, gid := s.freeGid (c0 / 256), cluster := c0 / 64 % 4 })

/-- Saved gangs that hold cores again are bound: what their saved state says of scratchpad places is made to name the new ones. -/
def finishRebind (gs : List Nat) (s : State) : State :=
  let s : State := { s with
    blocks := s.blocks.map (fun (b : Block) => if gs.contains b.gang then { b with hold := false } else b),
    gangs := s.gangs.map (fun (g : Gang) => if gs.contains g.uid then { g with phase := .resuming } else g) }
  let mine := s.sch.saved.filter (fun x => gs.contains x.gang)
  let m := mine.flatMap (fun x => x.blocks.filterMap (fun b => (s.block? b.uid).map (fun c => (b, c))))
  let fix (x : Saved) : Saved :=
    if gs.contains x.gang then
      { x with accs := x.accs.map (relocateAcc m), engs := x.engs.map (fun (e : EngOp) => { e with obj := e.obj.map (relocate m) }) }
    else x
  let s : State := { s with sch := { s.sch with
    saved := s.sch.saved.map fix,
    chains := s.sch.chains.map (fun (k : Chain) => if m.any (fun p => p.1.uid == k.block) then { k with hdr := relocate m k.hdr } else k) } }
  s.postAll (gs.map .resumeRestore)

/-- The gangs of an item are bound again, each to its cores. -/
def bindResumed (gs : List (Nat × List Nat)) (s : State) : State :=
  finishRebind (gs.map (·.1)) (gs.foldl (fun s g => rebindGang g.1 g.2 s) s)

/-! ## The restoration (R331) -/

/-- Old and new places of the warps of a gang. -/
abbrev RefMap := List ((Nat × Nat) × (Nat × Nat))
def RefMap.apply (m : RefMap) (r : TRef) : TRef :=
  match assoc (r.core, r.slot) m with | some p => ⟨p.1, p.2, r.lane⟩ | none => r

/-- A warp takes the lowest free slot of its residue on its block's core (R124). -/
def restoreWarp (x : State × RefMap) (w : Warp) : State × RefMap :=
  match x.1.block? w.block with
  | none => x
  | some b =>
    let slot := x.1.freeSlot b.core w.widx
    ({ x.1 with warps := x.1.warps ++ [{ w with
        core := b.core, slot := slot,
        keys := w.keys.map (fun (k : KeyState) => { k with producers := k.producers.filter (fun i => x.1.ops.any (fun o => o.id == i)) }) }] },
     x.2 ++ [((w.core, w.slot), (b.core, slot))])

/-- A block's scratchpad, accumulator rows and poison at its new place. What its core's caches hold of the context may be older than what
the gang has seen, and is dropped (R15, R185). -/
def restoreBlock (x : Saved) (b : Block) (s : State) : State :=
  let ctx := match s.gang? b.gang with | some g => g.ctx | none => 0
  let s := (zeroBlock b s).modCore b.core (fun k => { k with
    l1 := k.l1.filter (fun l => l.ctx != ctx), icache := k.icache.filter (fun l => l.ctx != ctx) })
  let lo := scratchBase b.core + b.spBase
  let s : State := { s with mem := ((assoc b.uid x.scratch).getD []).foldl (fun m c => Memory.write (lo + c.1) c.2 m) s.mem }
  let old := x.blocks.find? (fun y => y.uid == b.uid)
  let s : State := { s with blocks := s.blocks.map (fun (y : Block) =>
    if y.uid = b.uid then { y with state := match old with | some o => o.state | none => 2 } else y) }
  let s := s.modCore b.core (fun k => { k with
    acc := k.acc ++ ((assoc b.uid x.acc).getD []).map (fun q => (q.1 + b.acc0 * 256, q.2)),
    badWords := k.badWords ++ badFor b ((assoc b.uid x.bad).getD []),
    ranges := k.ranges ++ (x.ranges.filter (fun r => r.1 == b.uid)).map (fun r => { r.2 with lo := r.2.lo + b.spBase, hi := r.2.hi + b.spBase }) })
  recheck b.core s

/-- An engine operation starts again from its progress (R234, R245); a decompression reads its stream's headers from the start (R236). -/
def restartEng (s : State) (m : RefMap) (e : EngOp) : EngOp :=
  { e with
    core := match s.block? e.block with | some b => b.core | none => e.core,
    t := m.apply e.t, lines := [],
    orig := match e.kind with | .mma => [] | .cpyb _ => [] | _ => e.orig,
    phase := match e.phase with | .pageWait _ _ => .accepted | p => p }

/-- The event at which a restored operation goes on; a COLL issues anew into its instance (R283). -/
def resumeEng (hh : Nat) (s : State) (e : EngOp) : State :=
  if e.stopped then s
  else if e.kind = .coll then joinColl hh e.gang (clTag e.recN) e.id s
  else s.post (engineGo s e)

/-- The arrivals queued for a gang, in order (R183). -/
def takeArrivals (g : Nat) (s : State) : State :=
  let ids := s.arrivals.filter (fun i => match s.send? i with | some x => x.gang == g | none => false)
  ids.foldl (fun s i => match s.send? i with
    | some x => deliver x { s with arrivals := s.arrivals.filter (· != i) }
    | none => s) s

/-- Armed slots whose arrivals have every notice are satisfied. -/
def satisfyArmed (g : Nat) (s : State) : State :=
  let ws := s.warps.filter (fun w => match s.block? w.block with | some b => b.gang == g | none => false)
  ws.foldl (fun s w => (List.range 14).foldl (fun s k => satisfySlot (s.warp w.core w.slot) (k + 1) s) s) s

/-- The state of a gang is restored. -/
def restoreGang (g : Gang) (x : Saved) (s : State) : State :=
  let bs := s.blocks.filter (fun b => b.gang == g.uid)
  let s := bs.foldl (fun s b => restoreBlock x b s) s
  let s := bs.foldl (fun s b => s.modCore b.core (fun k => { k with fpen := (s.ctxConfig g.ctx).fpen })) s
  let (s, m) := x.warps.foldl restoreWarp (s, [])
  let ts := x.threads.map (fun (t : Thread) => { t with ref := RefMap.apply m t.ref, readyAt := s.clock + 1, age := s.clock + 1 })
  let es := x.engs.map (restartEng s m)
  let as := x.accs.map (fun (a : Access) => { a with t := RefMap.apply m a.t })
  let h := s.hh? g.hh
  let s : State := { s with
    threads := s.threads ++ ts, engs := s.engs ++ es, accs := s.accs ++ as,
    ops := s.ops.map (fun (o : Op) =>
      if o.gang ≠ g.uid then o
      else match assoc (o.core, o.slot) m, x.blocks.find? (fun b => b.core == o.core) with
      | some p, _ => { o with core := p.1, slot := p.2 }
      -- its warp has ended: the operation goes with its block (R261)
      | none, some b => { o with core := match s.block? b.uid with | some b => b.core | none => o.core }
      | none, none => o),
    sch := { s.sch with
      saved := s.sch.saved.filter (fun y => y.gang != g.uid),
      chains := s.sch.chains.map (fun (k : Chain) => match bs.find? (fun b => b.uid == k.block) with
        | some b => { k with core := b.core, t := RefMap.apply m k.t }
        | none => k) } }
  let s := s.modGang g.uid (fun y => { y with phase := .running })
  let s := match h with
    | some h => s.modHh h.uid (fun y => bs.foldl (fun y b => { y with copies := setAssoc b.core y.att y.copies }) y)
    | none => s
  let s := es.foldl (fun s e => resumeEng g.hh s e) s
  let s := as.foldl (fun s a => s.post (if a.phase = .coreDone then (if a.mode = .direct then .maskedWrite a.id else .storePerform a.id 3)
    else acceptedEvent s.device a)) s
  let s := ts.foldl (fun s t => t.tracked.foldl (fun s y => s.post (.trackedResultWrite t.ref y.id)) s) s
  let s := (s.sch.chains.filter (fun k => k.walking && bs.any (fun b => b.uid == k.block))).foldl (fun s k => s.post (.chainEntryRun k.id)) s
  let s := (s.blocks.filter (fun b => b.gang == g.uid && b.state == 1)).foldl (fun s b => s.post (.blockDispatch b.uid)) s
  let s := (bs.filter (fun b => !(ts.any (fun t => t.block == b.uid)))).foldl (fun s b => s.post (.blockEnd b.uid)) s
  settle (satisfyArmed g.uid (takeArrivals g.uid s))

/-- Every gang of a household that has been bound again is restored, in one step: the Landing is valid at the first instruction of
the first gang (R332). -/
def restoreHousehold (hh : Nat) (s : State) : State :=
  ((s.gangsOfHh hh).filter (fun g => g.phase == .resuming)).foldl (fun s g =>
    match s.sch.saved.find? (fun x => x.gang == g.uid) with
    | some x => restoreGang g x s
    | none => s) s

/-- RESUME_RESTORE (R331, R332): the gang is bound again, with every gang of its household, and their state is restored. -/
def execResumeRestore (gang : Nat) (s : State) : Host.Outcome State Fault Refusal :=
  match s.gang? gang with
  | some g => if g.phase = .resuming then .next (restoreHousehold g.hh s) else .next s
  | none => .next s

end Sys2Proof.Machine
end

