-- ==== Sys2Proof/Machine/Queue.lean ====
section
/-! DEFINITION. Job cards and hardware queues (R254–R256, R286), admission (R257, R258), the hold of an item and its pre-emption
(R329). -/

namespace Sys2Proof.Machine

/-! ## Times (1.4 GHz) -/

def msCycles : Nat := 1400000
def holdCycles : Nat := 140000

/-! ## Reading for queues, walkers and Serril -/

/-- What a read of several lines finds. -/
inductive GotBytes where
  | ok (s : State) (bs : List Byte)
  | again (s : State)
  | absent (s : State) (page : Nat)
  | stop (c : Cause)

/-- Reads global bytes line by line, as the accesses of a thread, after its own earlier ones (R17, R286), else of a die. -/
def graspBytes (own : Option TRef) (die ctx : Nat) : List (DWord × Nat) → State → GotBytes
  | [], s => .ok s []
  | (p, n) :: l, s =>
    match grasp s die ⟨0, 0, ctx⟩ p n false with
    | .ok s loc _ =>
      if own.any (fun t => s.ownBefore t p loc n false) then .again s
      else
        let bs := match own with | some t => s.seen t.core loc n | none => s.readBytes loc n
        match graspBytes own die ctx l s with
        | .ok s r => .ok s (bs ++ r)
        | x => x
    | .again s => .again s
    | .absent s => .absent s (globPage p)
    | .stop c => .stop c

/-! ## Cards (R254) -/

def jcTrap (c : BitVec 512) : DWord := recPtr c.toNat 448
def jcPlace (c : BitVec 512) : DWord := recPtr c.toNat 384
def jcDone (c : BitVec 512) : DWord := recPtr c.toNat 320
def jcArgp (c : BitVec 512) : DWord := recPtr c.toNat 256
def jcEntry (c : BitVec 512) : DWord := recPtr c.toNat 192
def jcFailval (c : BitVec 512) : Nat := cardBits c 191 160
def jcDoneval (c : BitVec 512) : Nat := cardBits c 159 128
def jcNhh (c : BitVec 512) : Nat := cardBits c 127 112 + 1
def jcNgang (c : BitVec 512) : Nat := cardBits c 94 91 + 1
def jcPrio (c : BitVec 512) : Nat := cardBits c 57 55
def jcQueue (c : BitVec 512) : Nat := cardBits c 54 49
def jcDisp (c : BitVec 512) : Bool := c.getLsbD 48

/-- A global pointer aligned to `al`. -/
def globalAt (p : DWord) (al : Nat) : Bool := p.extractLsb' 57 7 == 0 && p.toNat % al == 0
/-- A global program counter with slot 0–4. -/
def globalPc (p : DWord) : Bool := p.extractLsb' 57 7 == 0 && decide (pcSlot p < 5)

/-- The module and die that a placement entry names. -/
def plDev (e : BitVec 16) : Nat := e.toNat / 2 ^ 10
def plDie (e : BitVec 16) : Nat := e.toNat % 16

/-- The module and the die (15 for any) of each gang rank, for a card in a queue of die `die`. -/
def placesOf (device die : Nat) (card : BitVec 512) (place : List (BitVec 16)) : List (Nat × Nat) :=
  if jcPlace card == 0 then List.replicate (jcNgang card) (device, die)
  else place.map (fun e => (if plDev e = 63 then device else plDev e, plDie e))

/-- Cores in service in a cluster of the module. -/
def State.serviceIn (s : State) (cluster : Nat) : Nat :=
  ((List.range 64).filter (fun i => (s.core (cluster * 64 + i)).inService)).length

/-- A die's clusters take n gangs of the shape at once when they run nothing else. -/
def State.dieHolds (s : State) (die : Nat) (h : Shape) (n : Nat) : Bool :=
  decide (n ≤ ((List.range 4).map (fun k => s.serviceIn (die * 4 + k) / h.nblock)).sum)

/-- Whether a card is rejected with status 1 (R255). -/
def State.cardRejected (s : State) (die : Nat) (card : BitVec 512) (place : List (BitVec 16)) : Bool :=
  let h := Shape.ofCard card
  let ps := placesOf s.device die card place
  let mine := (ps.filter (fun p => p.1 == s.device)).map (·.2)
  cardBits card 46 0 != 0 || !(globalPc (jcEntry card)) || (jcTrap card != 0 && !(globalPc (jcTrap card)))
    || (jcDone card != 0 && !(globalAt (jcDone card) 4)) || (jcPlace card != 0 && !(globalAt (jcPlace card) 2))
    || !h.fitsEmpty
    || (jcPlace card != 0 && place.any (fun e => (decide (60 ≤ plDev e) && plDev e != 63) || e.toNat / 16 % 64 != 0 ||
        (decide (12 ≤ plDie e) && plDie e != 15)))
    || mine.any (fun d => if d = 15 then !((List.range 12).any (fun k => s.dieHolds k h 1)) else !(s.dieHolds d h 1))
    || (List.range 12).any (fun d => !(s.dieHolds d h ((mine.filter (· == d)).length)))
    -- of another module every core counts as in service (log 17, DESIGN CHOICE)
    || ps.any (fun p => p.1 != s.device && p.2 != 15 && decide (4 * (64 / h.nblock) < (ps.filter (· == p)).length))
    || (jcDisp card && (h.nblock != 1 || jcNgang card != 1 || jcNhh card != 1 || decide (h.ntid > 32)
        || (List.range 4).all (fun k => s.serviceIn (die * 4 + k) == 0)))

/-- A context number is bound (R308). -/
def State.ctxBound (s : State) (ctx : Nat) : Bool := ((assoc ctx s.tabs.binds).getD 0).getLsbD 63

/-- A module of the Afrik domain that this module reaches. -/
def State.reaches (s : State) (dev : Nat) : Bool := dev == s.device || s.ext.modules.any (fun m => m.dev == dev && m.reachable && !m.lost)

/-- Whether a card cannot be taken in the present state (status 3, R255). -/
def State.cardRefused (s : State) (die ctx : Nat) (card : BitVec 512) (place : List (BitVec 16)) : Bool :=
  (jcDisp card && s.gangs.any (fun g => g.dispatcher && g.die == die)) || !(s.ctxBound ctx)
    || (placesOf s.device die card place).any (fun p => !(s.reaches p.1))

/-- The cards in a queue, first the head. -/
def State.queueOf (s : State) (die q : Nat) : List Item :=
  s.sch.items.filter (fun x => x.die == die && x.queue == q && x.parent.isNone && x.resume.isEmpty)

/-- The status of a card at its queue, decided in the order 1, 3, 2 (R255). -/
def State.cardStatus (s : State) (die ctx : Nat) (card : BitVec 512) (place : List (BitVec 16)) : Nat :=
  if s.cardRejected die card place then 1
  else if s.cardRefused die ctx card place then 3
  else if (s.queueOf die (jcQueue card)).length ≥ (assoc (die, jcQueue card) s.sch.queueSize).getD Config.queueDefault then 2
  else 0

/-! ## POST (R256, R286) -/

/-- The destination word of POST and MBSEND: its module and die, or the cause (R273). -/
def destOf (s : State) (core : Nat) (v : Word) : Except Cause (Nat × Nat) :=
  let dev := v.toNat / 2 ^ 10 % 64
  let die := v.toNat % 16
  if v.toNat / 2 ^ 16 ≠ 0 ∨ v.toNat / 16 % 64 ≠ 0 ∨ (60 ≤ dev ∧ dev ≠ 63) ∨ (12 ≤ die ∧ die ≠ 15) then .error .illegalOperand
  else
    let dev := if dev = 63 then s.device else dev
    if dev ≠ s.device ∧ !(s.ext.modules.any (fun m => m.dev == dev)) then .error .spaceFault
    else .ok (dev, if die = 15 then core / 256 else die)

/-- A thread sends a message and awaits the answer, counted on its produce key. -/
def sendMessage (c : Ctx) (dst : Nat × Nat) (ptr : Option DWord) (card : BitVec 512) (ev : Nat → Instr) : Res :=
  if keyFull c then .hold c.s
  else
    let (id, s) := c.operation c.s
    let m : Message :=
      { id := id, t := some c.r, d := c.f.d.toNat, pk := c.f.pk.toNat, waits := [], scope := Forms.scope c.f, dev := dst.1,
        die := dst.2, ctx := s.ctxOf c.th, ptr := ptr, argp := 0, card := card, graph := none, grp := s.issue.firstId }
    let s : State := { s with messages := s.messages ++ [m] }
    .wait ((s.modThread c.r (fun t => { t with status := .accept id })).post (ev id))

/-- POST (R286): the card goes to its queue once the consume key is satisfied; the thread is held until the queue answers. -/
def execPost (f : Fields) (s : State) : Host.Outcome State Fault Refusal :=
  issueOp 0x300 f s (fun c => keyChecked c (
    match destOf c.s c.r.core (c.reg 1 f.b.toNat) with
    | .error e => .trap (TrapInfo.of e)
    | .ok dst => match c.s.checkAccess c.th Spaces.globOnly .read c.addr 64 64 with
      | .error e => .trap (TrapInfo.of e)
      | .ok _ => waitKey c (Forms.scope f) (sendMessage c dst (some c.addr) 0 .postArrival)))

def State.message? (s : State) (id : Nat) : Option Message := s.messages.find? (fun m => m.id == id)
def State.dropMessage (id : Nat) (s : State) : State := { s with messages := s.messages.filter (fun m => m.id != id) }

/-- A thread that still awaits the answer of message m. -/
def State.awaiter (s : State) (m : Message) : Option Thread :=
  m.t.bind (fun r => (s.thread? r).bind (fun t => if t.status = .accept m.id then some t else none))

/-- The message is answered: the operation performs, the status goes to d (R256, R286). -/
def answer (m : Message) (v : Word) (s : State) : State :=
  let s := s.dropMessage m.id
  let s := match s.awaiter m with
    | some t =>
      let (id, s) := (s.progressOf t).fresh
      (s.modThread t.ref (Thread.finish (s.clock + 1))).track t.ref
        { id := id, due := s.clock + 1, known := true, timed := false, regs := wordRegs m.d [v], preds := [] }
    | none => s
  settle (s.performAt m.id 6)

/-- The message is undone: its instruction has done nothing (R200). -/
def undoMessage (m : Message) (s : State) : State := settle ((s.dropMessage m.id).dropProducer m.id)

/-- The thread of an undone message traps. -/
def refuseMessage (m : Message) (c : Cause) (s : State) : State :=
  match s.awaiter m with
  | some t => raiseTrap t.ref (TrapInfo.of c) (undoMessage m s)
  | none => undoMessage m s

/-- A card that passed its checks is entered in its queue (R255–R257). -/
def enterCard (m : Message) (card : BitVec 512) (place : List (BitVec 16)) (s : State) : State :=
  let (id, s) := s.fresh
  let num := s.sch.taskCount + 1
  let t : Task :=
    { num := num, ctx := m.ctx, card := card, die := m.die, failed := false, complete := false, nhhLeft := jcNhh card,
      graph := m.graph, started := s.clock }
  let x : Item :=
    { id := id, die := m.die, queue := jcQueue card, card := card, place := place, ctx := m.ctx, prio := jcPrio card,
      posted := s.clock, aged := false, next := 0, task := num, seq := none, parent := none, resume := [], chosen := [],
      reserved := [], graph := m.graph }
  let s : State := { s with tasks := s.tasks ++ [t], sch := { s.sch with taskCount := num, items := s.sch.items ++ [x] } }
  wakeAdmission m.die (s.post (.ageing m.die id))

/-! ## Graph faults (R263) -/

def State.graph? (s : State) (id : Nat) : Option Graph := s.sch.graphs.find? (fun g => g.id == id)
def State.setGraph (g : Graph) (s : State) : State :=
  { s with sch := { s.sch with graphs := upsert (fun x => x.id == g.id) g s.sch.graphs } }

/-- The graph completes once nothing is left of it. -/
def checkGraph (id : Nat) (s : State) : State :=
  match s.graph? id with
  | some g => if g.acts.isEmpty && g.posting.isEmpty && g.tasks.isEmpty then s.post (.graphCompletion id) else s
  | none => s

/-- A graph fault: it posts nothing further, and waits for its incomplete tasks (R263). -/
def faultGraph (id : Nat) (s : State) : State :=
  match s.graph? id with
  | some g => checkGraph id (s.setGraph { g with faulted := true, acts := [] })
  | none => s

/-- The answer to a card that a graph posted: queued, to be tried again, or a graph fault (R263). -/
def graphAnswer (m : Message) (id node v : Nat) (s : State) : State :=
  match s.graph? id with
  | none => s.dropMessage m.id
  | some g =>
    let mine := g.posting.find? (fun x => x.1 == node)
    let rest := { g with posting := g.posting.eraseP (fun x => x.1 == node) }
    match v with
    | 0 => (s.dropMessage m.id).setGraph { rest with tasks := g.tasks ++ mine.toList }
    | 2 => if g.faulted then checkGraph id ((s.dropMessage m.id).setGraph rest) else s.post (.graphPostRetry id node)
    | _ => faultGraph id ((s.dropMessage m.id).setGraph rest)

/-- The queue's decision about a card that it has read. -/
def decideCard (m : Message) (card : BitVec 512) (place : List (BitVec 16)) (s : State) : State :=
  let v := s.cardStatus m.die m.ctx card place
  let s := if v = 0 then enterCard m card place s else s
  match m.graph with
  | some (g, node) => graphAnswer m g node v s
  | none => answer m (BitVec.ofNat 32 v) s

/-- A read of the queue cannot be made for the message: its thread waits for the page, or traps; a card of the host's or of a
graph waits for the page, and is rejected where that is denied. -/
def unreadable (m : Message) (card : BitVec 512) (r : GotBytes) (s : State) : State :=
  match r with
  | .ok s _ => s
  | .again s => s.post (.postArrival m.id)
  | .absent s page => match s.awaiter m with
    | some t => pageWait t.ref m.ctx page (.of rightsR) (undoMessage m s)
    | none =>
      let key := (dieUnit m.die, m.ctx, page)
      if m.t.isSome then undoMessage m s
      else if s.tx.denials.contains key then
        decideCard m (card ||| 1) [] { s with tx := { s.tx with denials := s.tx.denials.filter (· != key) } }
      else if s.tx.agents.contains key then s.post (.postArrival m.id)
      else
        let s : State := { s with tx := { s.tx with agents := s.tx.agents ++ [key] } }
        (enterFilter (dieUnit m.die) m.ctx page (.of rightsR) s).post (.postArrival m.id)
  | .stop c => if m.t.isSome then refuseMessage m c s else decideCard m (card ||| 1) [] s

/-- A message of a thread to another die of the module is held while its link wakes (R350). -/
def Message.heldOnWay (m : Message) (s : State) : Option State :=
  match m.t with
  | some r => if m.dev = s.device then linkHeld (r.core / 256) m.die m.id s else none
  | none => none

/-- POST_ARRIVAL (R255, R286): the queue reads the card and its placement table, checks the copy, and answers. An earlier card
of the same issue group goes first. The status that another module's queue gives is free (log 17, DESIGN CHOICE). -/
def execPostArrival (id : Nat) (s : State) : Host.Outcome State Fault Refusal :=
  match s.message? id with
  | none => .next s
  | some m =>
    if s.messages.any (fun x => x.grp == m.grp && decide (x.id < id) && x.dev == m.dev && x.die == m.die) then
      .next (s.post (.postArrival id))
    else match m.heldOnWay s with
    | some s => .next (s.post (.postArrival id))
    | none =>
      let die := match m.t with | some r => r.core / 256 | none => m.die
      let decided (card : BitVec 512) (place : List (BitVec 16)) (s : State) : State :=
        if m.dev = s.device then decideCard m card place s
        else
          let (n, s) := s.choice
          answer m (BitVec.ofNat 32 ((Config.openWord n).toNat % 4)) s
      let withCard (s : State) (card : BitVec 512) : State :=
        if jcPlace card == 0 || !(globalAt (jcPlace card) 2) then decided card [] s
        else match graspBytes m.t die m.ctx (pieces (jcPlace card) (2 * jcNgang card)) s with
          | .ok s bs => decided card ((List.range (jcNgang card)).map (fun i => BitVec.ofNat 16 (leValue ((bs.drop (2 * i)).take 2)))) s
          | r => unreadable m card r s
      match m.ptr with
      | none => .next (withCard s m.card)
      | some p => match graspBytes m.t die m.ctx (pieces p 64) s with
        | .ok s bs =>
          let v := leValue bs
          let v := if m.argp == 0 then v else v - v / 2 ^ 256 % 2 ^ 64 * 2 ^ 256 + m.argp.toNat * 2 ^ 256
          .next (withCard s (BitVec.ofNat 512 v))
        | r => .next (unreadable m 0 r s)

/-- HOST_DOORBELL (R256): a card of the host driver passes the same checks and is admitted under the same policy. -/
def execHostDoorbell (die queue ctx : Nat) (card : BitVec 512) (s : State) : Host.Outcome State Fault Refusal :=
  let (id, s) := s.fresh
  let card : BitVec 512 := BitVec.ofNat 512 (card.toNat - cardBits card 54 49 * 2 ^ 49 + queue % 64 * 2 ^ 49)
  let m : Message :=
    { id := id, t := none, d := 255, pk := 0, waits := [], scope := 6, dev := s.device, die := die, ctx := ctx, ptr := none, argp := 0, card := card,
      graph := none, grp := id }
  .next (({ s with messages := s.messages ++ [m] } : State).post (.postArrival id))

/-! ## Items (R257) -/

def State.item? (s : State) (id : Nat) : Option Item := s.sch.items.find? (fun x => x.id == id)
def State.dropItem (id : Nat) (s : State) : State :=
  { s with sch := { s.sch with items := s.sch.items.filter (fun x => x.id != id), heldItem := s.sch.heldItem.filter (fun h => h.2.1 != id) } }

/-- The priority that ageing raises by one level after 1 ms (R257). -/
def State.effPrio (s : State) (prio posted : Nat) : Nat := if s.clock ≥ posted + msCycles then Nat.min 7 (prio + 1) else prio
def State.eff (s : State) (x : Item) : Nat := s.effPrio x.prio x.posted

/-- Every gang of the card's households names the die of its queue (R258). -/
def State.localItem (s : State) (x : Item) : Bool :=
  (placesOf s.device x.die x.card x.place).all (fun p => p == (s.device, x.die))

/-- The heads of the die's queues. -/
def State.heads (s : State) (die : Nat) : List Item := (List.range 64).filterMap (fun q => (s.queueOf die q).head?)

/-- H (R257): the heads that the die admits alone, the reservation requests not yet reserved, and what waits to resume; a household
across dies waits through its requests (R258, R331). -/
def State.itemsH (s : State) (die : Nat) : List Item :=
  (s.heads die).filter (fun x => s.localItem x && !(jcDisp x.card)) ++
    s.sch.items.filter (fun x => x.die == die && ((x.parent.isSome && x.reserved.isEmpty) ||
      (x.parent.isNone && x.chosen.isEmpty && !x.resume.isEmpty)))

/-- Oldest first among items waiting to resume: the posting, the household sequence number, the household rank. -/
def olderItem (x y : Item) : Bool :=
  let key (z : Item) : Nat × Nat × Nat × Nat :=
    match z.seq with | some q => (z.posted, q.1, q.2, z.next) | none => (z.posted, 0, 0, z.next)
  let a := key x
  let b := key y
  decide (a.1 < b.1) || (a.1 == b.1 && (decide (a.2.1 < b.2.1) || (a.2.1 == b.2.1 &&
    (decide (a.2.2.1 < b.2.2.1) || (a.2.2.1 == b.2.2.1 && (decide (a.2.2.2 < b.2.2.2) ||
      (a.2.2.2 == b.2.2.2 && decide (x.resume.headD 0 < y.resume.headD 0))))))))

/-- The item that the policy chooses (R257). -/
def State.chooseItem (s : State) (die : Nat) : Option Item :=
  let H := s.itemsH die
  let top := H.foldl (fun m x => Nat.max m (s.eff x)) 0
  let best := H.filter (fun x => s.eff x == top)
  match s.sch.heldItem.findSome? (fun h => if h.1 = die then best.find? (fun x => x.id == h.2.1) else none) with
  | some w => some w
  | none =>
    match sortBy olderItem (best.filter (fun x => !x.resume.isEmpty)) with
    | w :: _ => some w
    | [] =>
      let last := (assoc die s.sch.lastQueue).getD 63
      let turn (x : Item) : Nat := (x.queue + 63 - last) % 64
      (sortBy (fun x y => decide (turn x < turn y)) best).head?

/-! ## Binding an item -/

/-- The bind record of the gangs of an item. -/
def Item.birth (x : Item) (hh rank : Nat) (hold : Bool) : Birth :=
  { task := x.task, ctx := x.ctx, hh := hh, rank := rank, shape := Shape.ofCard x.card, entry := jcEntry x.card,
    argp := jcArgp x.card, prio := x.prio, posted := x.posted, disp := jcDisp x.card, spawned := none, hold := hold }

/-- The household in admission has been admitted: the card goes on to the next, or leaves its queue (R257). -/
def advanceItem (x : Item) (s : State) : State :=
  let s : State := { s with sch := { s.sch with
    lastQueue := setAssoc x.die x.queue s.sch.lastQueue, heldItem := s.sch.heldItem.filter (fun h => h.2.1 != x.id) } }
  if x.next + 1 ≥ jcNhh x.card then s.dropItem x.id else s.setItem { x with next := x.next + 1, seq := none, chosen := [] }

/-- Binds a household of a card to cores, gang by gang. -/
def bindHousehold (x : Item) (cores : List (List Nat)) (s : State) : State :=
  let (s, hh) := newHousehold x.task x.next (List.replicate (jcNgang x.card) s.device) none s
  let ranked := (List.range cores.length).zip cores
  advanceItem x (ranked.foldl (fun s p => (bindGang (x.birth hh p.1 false) p.2 s).1) s)

/-- The gang ranks of a request's household that its die places. -/
def State.ranksOn (s : State) (x : Item) : List Nat :=
  (List.range x.chosen.length).filter (fun r => x.chosen[r]? == some (s.device, x.die))

/-- The order of household sequence numbers (R258). -/
def seqLt (a b : Option (Nat × Nat)) : Bool :=
  match a, b with
  | some x, some y => decide (x.1 < y.1) || (x.1 == y.1 && decide (x.2 < y.2))
  | _, _ => false

/-- The dies on which a resumed gang may be placed: its own, then the others from the lowest on (R331) (log 48, DESIGN CHOICE). -/
def resumeDies (die : Nat) : List Nat := die :: (List.range 12).filter (· != die)

/-- The shape of a saved gang. -/
def State.savedShape (s : State) (u : Nat) : Option Shape :=
  match s.gang? u, s.sch.saved.find? (fun x => x.gang == u) with
  | some g, some x => some (match x.blocks with | b :: _ => { b.shape with nblock := g.nblock } | [] => ⟨1, g.nblock, 8, 0, 0⟩)
  | _, _ => none

/-- The cores for saved gangs, each on the first of its dies where it fits. -/
def State.placeResumed (s : State) (dies : Nat → List Nat) : List Nat → List Nat → Option (List (Nat × List Nat))
  | [], _ => some []
  | u :: us, taken =>
    match s.savedShape u with
    | some h =>
      match (dies (((s.gang? u).map (·.die)).getD 0)).findSome? (fun d => s.placeGang h d taken) with
      | some cs => (State.placeResumed s dies us (cs ++ taken)).map (fun l => (u, cs) :: l)
      | none => none
    | none => none

/-- Whether what a request asks for fits on its die now. -/
def State.requestFits (s : State) (x : Item) : Bool :=
  if x.resume.isEmpty then (s.placeGangs (Shape.ofCard x.card) x.die (s.ranksOn x).length []).isSome
  else (s.placeResumed (fun _ => [x.die]) x.resume []).isSome

/-- The requests of a die that have no reservation yet, the lowest number first (R258). -/
def State.waitingRequests (s : State) (die : Nat) : List Item :=
  sortBy (fun a b => seqLt a.seq b.seq) (s.sch.items.filter (fun y => y.die == die && y.parent.isSome && y.reserved.isEmpty))

/-- Reservations of higher numbers on its die give way to a request as soon as it needs what they hold, the highest first, whatever the
priorities (R258, step 4). -/
def yieldTo (x : Item) (s : State) : State :=
  let later := sortBy (fun a b => seqLt b.seq a.seq)
    (s.sch.items.filter (fun y => y.die == x.die && y.parent.isSome && !y.reserved.isEmpty && seqLt x.seq y.seq))
  later.foldl (fun s y => if s.requestFits x then s else withdraw y s) s
/-- The same for every request of the die. -/
def yieldAll (die : Nat) (s : State) : State := (s.waitingRequests die).foldl (fun s x => yieldTo x s) s

/-- The gangs of a request take their resources, held: those of a card are new, those to resume are bound again. -/
def takeReserved (x : Item) (s : State) : Option (State × List Nat) :=
  if x.resume.isEmpty then
    let ranks := s.ranksOn x
    match s.placeGangs (Shape.ofCard x.card) x.die ranks.length [], s.hhs.find? (fun k => k.task == x.task && k.rank == x.next) with
    | some cs, some hh => some ((ranks.zip cs).foldl (fun (q : State × List Nat) p =>
        let b := bindGang (x.birth hh.uid p.1 true) p.2 q.1
        (b.1, q.2 ++ [b.2])) (s, []))
    | _, _ => none
  else (s.placeResumed (fun _ => [x.die]) x.resume []).map (fun gs => (gs.foldl (fun s g => rebindGang g.1 g.2 s) s, x.resume))

/-- The request that the die serves when its decision chooses request x: a waiting one of a lower number which would no longer fit once x had
its reservation, else x itself (R258, step 4) (log 47, DEDUCED). -/
def State.servedRequest (s : State) (x : Item) : Item :=
  match takeReserved x s with
  | none => x
  | some (t, _) => ((s.waitingRequests x.die).find? (fun y => seqLt y.seq x.seq && !(t.requestFits y))).getD x

/-- A die reserves for a request (R258, step 3). -/
def reserve (x : Item) (s : State) : Option State :=
  let x := s.servedRequest x
  match takeReserved x s with
  | none => none
  | some (s, gs) =>
    let s := s.setItem { x with reserved := gs }
    let s : State := { s with sch := { s.sch with
      lastQueue := if x.queue < 64 then setAssoc x.die x.queue s.sch.lastQueue else s.sch.lastQueue,
      heldItem := s.sch.heldItem.filter (fun k => k.2.1 != x.id) } }
    some (match x.parent with | some p => s.post (.holdClear p) | none => s)

/-- Binds the chosen item if it fits now (R257). -/
def bindItem (x : Item) (s : State) : Option State :=
  if x.parent.isSome then reserve x s
  else if !x.resume.isEmpty then (s.placeResumed resumeDies x.resume []).map (fun gs => bindResumed gs (s.dropItem x.id))
  else (s.placeGangs (Shape.ofCard x.card) x.die (jcNgang x.card) []).map (fun cs => bindHousehold x cs s)

/-- The item is held (R257). -/
def holdItem (x : Item) (s : State) : State :=
  let s : State :=
    if s.sch.heldItem.any (fun h => h.2.1 == x.id) then s
    else { s with sch := { s.sch with heldItem := s.sch.heldItem ++ [(x.die, x.id, s.clock)] } }
  if s.eff x ≥ 6 then s.postOnce (.preemptHoldTimeout x.die) else s

/-! ## The dispatcher's card (R266) -/

/-- The youngest gang on a core that may be pre-empted. -/
def State.youngestOn (s : State) (core : Nat) : Option Gang :=
  let gs := s.gangs.filter (fun g => (s.coresOfGang g.uid).contains core && s.mayPreempt g.hh)
  (sortBy (fun (a b : Gang) => decide (a.posted > b.posted) || (a.posted == b.posted && decide (a.uid > b.uid))) gs).head?

/-- A dispatcher's card goes ahead of every other item: the first core in service with room takes it, else gangs of the first
core in service are pre-empted (R266, R329) (log 46, DEDUCED). -/
def admitDispatcher (x : Item) (s : State) : State :=
  let h := Shape.ofCard x.card
  let cs := ((List.range 256).map (fun i => x.die * 256 + i)).filter s.coreServes
  match cs.find? (fun c => s.coreFits c h), cs with
  | some c, _ => (bindHousehold x [[c]] s).postOnce (.admissionDecision x.die)
  | none, [] => s
  | none, c :: _ =>
    if s.gangs.any (fun g => g.phase == .stopping && (s.coresOfGang g.uid).contains c) then s
    else if s.gangs.any (fun g => g.wanted && (s.coresOfGang g.uid).contains c) then s.post (.admissionDecision x.die)
    else match s.youngestOn c with
      | some g => if s.canPreempt g.hh then askPreempt g s else (askPreempt g s).post (.admissionDecision x.die)
      | none => s.post (.admissionDecision x.die)

/-- The dispatcher's card that waits on a die; a second one waits until the first one's warp has ended (R266) (log 46, DEDUCED). -/
def State.dispatcherCard (s : State) (die : Nat) : Option Item :=
  if s.gangs.any (fun g => g.dispatcher && g.die == die) then none
  else s.sch.items.find? (fun x => x.die == die && x.parent.isNone && x.resume.isEmpty && jcDisp x.card)

/-- An item's i-th gang may go to any die (R257, R331). -/
def State.mayGo (s : State) (x : Item) (i : Nat) : Bool :=
  if x.resume.isEmpty then (placesOf s.device x.die x.card x.place)[i]? == some (s.device, 15) else true

/-- The die that an item's i-th gang is bound for at this decision (R257, R331): the one that it is bound for where it may go to no other or
where that has reserved for it; else the first on which it fits beside the gangs of its household that are bound for it (`done` those before
it). -/
def State.dieNow (s : State) (x : Item) (done : List (Nat × Nat)) (i : Nat) : Nat × Nat :=
  let cur := x.chosen.getD i (s.device, x.die)
  let kept (d : Nat) : Bool := s.sch.items.any (fun y => y.parent == some x.id && y.die == d && !y.reserved.isEmpty)
  if cur.1 != s.device || !(s.mayGo x i) || kept cur.2 then cur
  else
    let later := ((List.range x.chosen.length).filter (fun j => decide (j > i) && !(s.mayGo x j))).map (fun j => x.chosen.getD j (s.device, x.die))
    let n (d : Nat) : Nat := if kept d then 0 else ((done ++ later).filter (fun p => p == (s.device, d))).length
    let shape := if x.resume.isEmpty then some (Shape.ofCard x.card) else s.savedShape (x.resume.getD i 0)
    let dies := if x.resume.isEmpty then List.range 12 else resumeDies cur.2
    match shape.bind (fun h => dies.find? (fun d => (s.placeGangs h d (n d + 1) []).isSome)) with
    | some d => (s.device, d)
    | none => cur

/-- The dies of a household across dies are chosen anew (R257, R258, R331): a request whose gangs change is withdrawn, and made again. -/
def rechoose (x : Item) (s : State) : State :=
  let n := x.chosen.length
  let new := (List.range n).foldl (fun done i => done ++ [s.dieNow x done i]) []
  let on (l : List (Nat × Nat)) (d : Nat) : List Nat := (List.range n).filter (fun i => l[i]? == some (s.device, d))
  let ys := s.sch.items.filter (fun y => y.parent == some x.id)
  let s := ys.foldl (fun s y =>
    if on x.chosen y.die = on new y.die then s.setItem { y with chosen := new }
    else ((withdraw y s).dropItem y.id)) s
  let s := s.setItem { x with chosen := new }
  let ds := ((new.filter (fun p => p.1 == s.device)).map (·.2)).eraseDups
  (ds.filter (fun d => !(s.sch.items.any (fun y => y.parent == some x.id && y.die == d)))).foldl
    (fun s d => s.postOnce (.reservationRequest x.id d)) s

/-- ADMISSION_DECISION (R257, R266): one decision of the die's Serril; a bind is followed by another decision. -/
def execAdmissionDecision (die : Nat) (s : State) : Host.Outcome State Fault Refusal :=
  let s := (s.sch.items.filter (fun x => !x.chosen.isEmpty && x.parent.isNone)).foldl (fun s x => rechoose x s) s
  let s := yieldAll die s
  let s := ((s.heads die).filter (fun x => !(s.localItem x) && x.seq.isNone && !(jcDisp x.card))).foldl
    (fun s x => s.postOnce (.householdSequenceNumber x.id)) s
  match s.dispatcherCard die with
  | some x => .next (admitDispatcher x s)
  | none =>
    match s.chooseItem die with
    | none => .next s
    | some w =>
      match bindItem w s with
      | some s => .next (s.postOnce (.admissionDecision die))
      | none => .next (holdItem w s)

/-- AGEING (R257): an item has waited 1 ms, and its effective priority, and that of its requests on other dies, has risen. -/
def execAgeing (die item : Nat) (s : State) : Host.Outcome State Fault Refusal :=
  match s.item? item with
  | none => .next s
  | some x =>
    if x.aged then .next s
    else if s.clock < x.posted + msCycles then .next (s.post (.ageing die item))
    else
      let ds := (s.sch.items.filter (fun y => y.parent == some item)).map (·.die)
      .next (ds.foldl (fun s d => s.postOnce (.admissionDecision d)) (wakeAdmission die (s.setItem { x with aged := true })))

/-! ## Households across dies (R258) -/

/-- The die chosen for a gang with pl.die = 15, beside the other gangs of its household that are bound for a die (`others`): the
lowest on which they fit together now, else the lowest that could hold them (R255, R257; log 19, DESIGN CHOICE) (log 63, DESIGN CHOICE). -/
def State.chooseDie (s : State) (h : Shape) (own : Nat) (others : List (Nat × Nat)) : Nat :=
  let n (d : Nat) : Nat := (others.filter (fun p => p == (s.device, d))).length + 1
  match (List.range 12).find? (fun d => (s.placeGangs h d (n d) []).isSome) with
  | some d => d
  | none => ((List.range 12).find? (fun d => s.dieHolds d h (n d))).getD own

/-- The dies of a household's gangs, those of pl.die = 15 chosen in rank order. -/
def State.chooseDies (s : State) (h : Shape) (own : Nat) (done : List (Nat × Nat)) : List (Nat × Nat) → List (Nat × Nat)
  | [] => done
  | p :: ps =>
    let q := if p.1 = s.device ∧ p.2 = 15 then (p.1, s.chooseDie h own (done ++ ps)) else p
    State.chooseDies s h own (done ++ [q]) ps

/-- HOUSEHOLD_SEQUENCE_NUMBER (R258, steps 1 and 2): the root manager's next number, and the requests that carry it. -/
def execHouseholdSequenceNumber (item : Nat) (s : State) : Host.Outcome State Fault Refusal :=
  match s.item? item with
  | none => .next s
  | some x =>
    if x.seq.isSome || x.parent.isSome || !x.resume.isEmpty then .next s
    else
      let n := s.sch.seqCounter + 1
      let h := Shape.ofCard x.card
      let chosen := s.chooseDies h x.die [] (placesOf s.device x.die x.card x.place)
      let s : State := { s with sch := { s.sch with seqCounter := n } }
      let (s, _) := newHousehold x.task x.next (chosen.map (·.1)) (some (n, s.device)) s
      let s := s.setItem { x with seq := some (n, s.device), chosen := chosen }
      let ds := ((chosen.filter (fun p => p.1 == s.device)).map (·.2)).eraseDups
      .next (if ds.isEmpty then s.post (.holdClear item) else s.postAll (ds.map (fun d => .reservationRequest item d)))

/-- The request of a household of module m for die d, with the counter of its number: the root manager raises its own above it, and the
request is an item of the die (R258, steps 1 and 2). The card, the context and the gangs that are to go to the die are free (log 17, DESIGN
CHOICE). -/
def awayRequest (m d counter : Nat) (s : State) : State :=
  let (n, s) := s.choice
  let (p, s) := s.fresh
  let (id, s) := s.fresh
  let card := Config.awayCard n
  let chosen := (List.range (jcNgang card)).map (fun g => if Config.awayPlace n g then (s.device, d) else (m, 15))
  let task := 2 ^ 40 + p
  let s : State := { s with sch := { s.sch with seqCounter := Nat.max s.sch.seqCounter counter } }
  let (s, _) := newHousehold task 0 (chosen.map (·.1)) (some (counter, m)) s
  let y : Item :=
    { id := id, die := d, queue := jcQueue card, card := card, place := [], ctx := Config.awayCtx n % 4096, prio := jcPrio card,
      posted := s.clock, aged := false, next := 0, task := task, seq := some (counter, m), parent := some p, resume := [], chosen := chosen,
      reserved := [], graph := none }
  ({ s with sch := { s.sch with items := s.sch.items ++ [y] } } : State).postOnce (.admissionDecision d)

/-- RESERVATION_REQUEST (R258, step 2): the request is an item of the named die at the card's priority. Die 16 (m + 1) + d stands for a request
of module m for die d, which carries its counter in place of an item (log 47, DEDUCED). -/
def execReservationRequest (item die : Nat) (s : State) : Host.Outcome State Fault Refusal :=
  if die ≥ 12 then .next (if die ≥ 16 ∧ die % 16 < 12 then awayRequest (die / 16 - 1) (die % 16) item s else s) else
  match s.item? item with
  | none => .next s
  | some x =>
    if x.seq.isNone || s.sch.items.any (fun y => y.parent == some item && y.die == die) then .next s
    else
      let (id, s) := s.fresh
      let here := (List.range x.resume.length).filter (fun i => x.chosen[i]? == some (s.device, die))
      let y : Item := { x with id := id, die := die, parent := some item, reserved := [], resume := here.map (fun i => x.resume.getD i 0) }
      .next (({ s with sch := { s.sch with items := s.sch.items ++ [y] } } : State).postOnce (.admissionDecision die))

/-- A household none of whose gangs is of this module is taken as ended once it is admitted (log 17, DESIGN CHOICE). -/
def abstractHousehold (x : Item) (s : State) : State :=
  { s with
    hhs := s.hhs.filter (fun h => !(h.task == x.task && h.rank == x.next)),
    tasks := s.tasks.map (fun (t : Task) => if t.num = x.task then { t with nhhLeft := t.nhhLeft - 1 } else t) }

/-- Gangs that were reserved start (R258, step 5). -/
def clearHold (gs : List Nat) (s : State) : State :=
  let bs := (s.blocks.filter (fun b => gs.contains b.gang)).map (·.uid)
  let s : State := { s with blocks := s.blocks.map (fun (b : Block) => if gs.contains b.gang then { b with hold := false } else b) }
  s.postAll (bs.map .blockDispatch)

/-- HOLD_CLEAR (R258, step 5): with a reservation on every named die, br.hold is cleared everywhere and dispatch may start; a household that
resumes is bound again (R331). When the dies of other modules hold theirs is free (log 17, DESIGN CHOICE). -/
def execHoldClear (item : Nat) (s : State) : Host.Outcome State Fault Refusal :=
  let rs := s.sch.items.filter (fun y => y.parent == some item)
  match s.item? item with
  -- the household of another module: its holding die clears the hold here once its dies have reserved
  | none =>
    let (n, s) := s.choice
    if rs.isEmpty || rs.any (fun y => y.reserved.isEmpty) then .next s
    else if (Config.openWord n).getLsbD 0 then .next (s.post (.holdClear item))
    else .next (clearHold (rs.flatMap (·.reserved)) (rs.foldl (fun s y => s.dropItem y.id) s))
  | some x =>
    let ds := ((x.chosen.filter (fun p => p.1 == s.device)).map (·.2)).eraseDups
    if x.seq.isNone || !(ds.all (fun d => rs.any (fun y => y.die == d && !y.reserved.isEmpty))) then .next s
    else
      let (n, s) := s.choice
      if x.chosen.any (fun p => p.1 != s.device) && (Config.openWord n).getLsbD 0 then .next (s.post (.holdClear item)) else
      let gs := rs.flatMap (·.reserved)
      if !x.resume.isEmpty then .next (finishRebind gs (rs.foldl (fun s y => s.dropItem y.id) (s.dropItem item))) else
      let s := clearHold gs (rs.foldl (fun s y => s.dropItem y.id) s)
      let s := if ds.isEmpty then abstractHousehold x s else s
      .next ((advanceItem x s).postOnce (.admissionDecision x.die))

/-! ## The hold of a high-priority item (R329) -/

/-- The gang to pre-empt for a held item of effective priority `e` on a die: one at least 2 below, of the lowest priority, the
youngest. -/
def State.victimFor (s : State) (die e : Nat) : Option Gang :=
  let gs := s.gangs.filter (fun g => g.die == die && s.mayPreempt g.hh && decide (s.effPrio g.prio g.posted + 2 ≤ e))
  let lt (a b : Gang) : Bool :=
    let x := s.effPrio a.prio a.posted
    let y := s.effPrio b.prio b.posted
    decide (x < y) || (x == y && (decide (a.posted > b.posted) || (a.posted == b.posted && decide (a.uid > b.uid))))
  (sortBy lt gs).head?

/-- PREEMPT_HOLD_TIMEOUT (R329): an item of effective priority 6 or 7 has been held for 100 µs, and gangs are pre-empted, one
after another, until it fits; one whose core is stopped for a trap is waited for, unless its handler halts. -/
def execPreemptHoldTimeout (die : Nat) (s : State) : Host.Outcome State Fault Refusal :=
  match s.sch.heldItem.findSome? (fun h => if h.1 = die then (s.item? h.2.1).bind (fun x => if s.eff x ≥ 6 then some (h.2.2, x) else none) else none) with
  | none => .next s
  | some (since, x) =>
    if s.clock < since + holdCycles || s.gangs.any (fun g => g.die == die && (g.phase == .stopping || g.wanted)) then
      .next (s.post (.preemptHoldTimeout die))
    else if (bindItem x s).isSome then .next (s.postOnce (.admissionDecision die))
    else match s.victimFor die (s.eff x) with
      | some g => .next ((askPreempt g s).post (.preemptHoldTimeout die))
      | none => .next (s.post (.preemptHoldTimeout die))

/-- PREEMPT_REQUEST (R329): Serril pre-empts the gangs of a context, with their households, at the driver's request; it defers while a core
of one is stopped for a trap, and never pre-empts the dispatcher's. -/
def execPreemptRequest (ctx : Nat) (s : State) : Host.Outcome State Fault Refusal :=
  let ready (h : Household) : Bool := (s.gangsOfHh h.uid).all (fun x => x.ctx == ctx && x.phase == .running && !x.dispatcher)
  .next ((s.hhs.filter ready).foldl (fun s h => match (s.gangsOfHh h.uid).head? with | some g => askPreempt g s | none => s) s)

end Sys2Proof.Machine
end

