-- ==== Sys2Proof/Machine/Porch.lean ====
section
/-! DEFINITION. The Porch (R264, R265, R289–R291) and SPAWN (R267, R287, R288). -/

namespace Sys2Proof.Machine

/-- The Porch of a die (R264); its ring has 128 records where Serril has set nothing else (log 32, DESIGN CHOICE). -/
def State.porch (s : State) (die : Nat) : Porch :=
  (s.sch.porches.find? (fun p => p.die == die)).getD { die := die, porch := [], ring := [], q := 7 }
def State.setPorch (p : Porch) (s : State) : State :=
  { s with sch := { s.sch with porches := upsert (fun x => x.die == p.die) p s.sch.porches } }

/-- The thread belongs to the dispatcher warp of its die (R266). -/
def Ctx.dispatches (c : Ctx) : Bool := match c.s.gangOf c.th with | some g => g.dispatcher | none => false

/-! ## SPAWN (R287, R288) -/

/-- A spawn record that status 1 rejects. -/
def spawnBad (r : Nat) : Bool :=
  let h := Shape.ofSpawn r
  recBits r 10 0 != 0 || !h.fitsEmpty || !(globalPc (recPtr r 192)) || (recPtr r 64 != 0 && !(globalAt (recPtr r 64) 4))

/-- The cores that a SPAWN claims (R287): of the lowest cluster where the gang fits, or of the cluster named. -/
def spawnCores (s : State) (die r : Nat) : Option (List Nat) :=
  let h := Shape.ofSpawn r
  if r.testBit 13 then s.placeGang h die [] else s.placeInCluster h [] (die * 4 + recBits r 12 11)

/-- SPAWN (R288): the child gang is claimed and bound in one step, or nothing is. -/
def execSpawn (f : Fields) (s : State) : Host.Outcome State Fault Refusal :=
  issueOp 0x301 f s (fun c =>
    match c.s.gangOf c.th with
    | none => .trap (TrapInfo.of .illegalOperand)
    | some g =>
      if !g.dispatcher then .trap (TrapInfo.of .illegalOperand)
      else keyChecked c (waitKey c (Forms.scope f) (
        let r := leValue (storeBytes 32 (c.group 1 f.b.toNat 8))
        let result (v : Word) (s : State) : Res := .ok (c.tracked (s.progress g.uid) (s.clock + 8) (wordRegs f.d.toNat [v]) [])
        if spawnBad r then result 1 c.s
        else match spawnCores c.s g.die r with
        | none => result 2 c.s
        | some cores =>
          let (s, hh) := newHousehold g.task 0 [c.s.device] none c.s
          let x : Birth :=
            { task := g.task, ctx := g.ctx, hh := hh, rank := 0, shape := Shape.ofSpawn r, entry := recPtr r 192, argp := recPtr r 128,
              prio := g.prio, posted := s.clock, disp := false, spawned := some (recPtr r 64), hold := false }
          result 0 (bindGang x cores s).1)))

/-! ## MBSEND, MBRECV, MBSTAT -/

/-- MBSEND (R289): the record leaves once the consume key is satisfied; the thread is held until the Porch accepts or refuses (log 23, DEDUCED). -/
def execMbsend (f : Fields) (s : State) : Host.Outcome State Fault Refusal :=
  issueOp 0x302 f s (fun c => keyChecked c (
    match destOf c.s c.r.core ((c.va false).extractLsb' 0 32) with
    | .error e => .trap (TrapInfo.of e)
    | .ok dst => waitKey c (Forms.scope f)
        (sendMessage c dst none (BitVec.ofNat 512 (leValue (storeBytes 32 (c.group 1 f.b.toNat 8)))) .porchAccept)))

/-- The oldest record of a die's Porch goes to a thread's registers, counted on operation `id` when it is there (R265, R290). -/
def takeRecord (die : Nat) (r : TRef) (d id : Nat) (s : State) : State :=
  let p := s.porch die
  match p.porch with
  | [] => s
  | x :: rest =>
    let s := s.setPorch { p with porch := rest }
    let s := if p.ring.isEmpty then s else s.postOnce (.porchRefill die)
    let ws := (List.range 8).map (fun i => x.extractLsb' (32 * i) 32)
    s.track r { id := id, due := s.clock + 4, known := true, timed := false, regs := wordRegs d ws, preds := [] }

/-- Of the threads of the die that wait at MBRECV, the one that has waited longest, the lowest lane first, receives a record that has come
(R290; log 85, DESIGN CHOICE). -/
def wakeReceivers (die : Nat) (s : State) : State :=
  let ws := s.threads.filterMap (fun t => match t.status with
    | .mbrecv id d => if t.ref.core / 256 = die then some (t, id, d) else none
    | _ => none)
  match sortBy (fun (x y : Thread × Nat × Nat) => decide (x.2.1 < y.2.1)) ws with
  | [] => s
  | (t, id, d) :: _ =>
    let s := takeRecord die t.ref d id s
    (s.modThread t.ref (Thread.finish (s.clock + 1))).progressOf t

/-- An MBSEND is accepted (R265): it performs and its thread goes on. -/
def sendAccepted (m : Message) (s : State) : State :=
  let s := s.dropMessage m.id
  let s := match s.awaiter m with
    | some t => (s.progressOf t).modThread t.ref (Thread.finish (s.clock + 1))
    | none => s
  settle (s.performAt m.id 6)

/-- PORCH_ACCEPT (R264): the arriving record goes to the Porch's tail, or to the ring's, or is refused. A record of an earlier lane
of the same issue goes first (R289), and so does a refill. The answer of another module's Porch is free (log 17, DESIGN CHOICE). -/
def execPorchAccept (id : Nat) (s : State) : Host.Outcome State Fault Refusal :=
  match s.message? id with
  | none => .next s
  | some m =>
    if s.messages.any (fun x => x.grp == m.grp && decide (x.id < id) && x.dev == m.dev && x.die == m.die) then
      .next (s.post (.porchAccept id))
    else match m.heldOnWay s with
    | some s => .next (s.post (.porchAccept id))
    | none =>
    if m.dev ≠ s.device then
      let (n, s) := s.choice
      .next (if (Config.openWord n).getLsbD 0 then sendAccepted m s else refuseMessage m .queueOverflow s)
    else
      let p := s.porch m.die
      let x : BitVec 256 := m.card.extractLsb' 0 256
      if p.ring.isEmpty && decide (p.porch.length < 32) then
        .next (wakeReceivers m.die (sendAccepted m (s.setPorch { p with porch := p.porch ++ [x] })))
      else if p.porch.length < 32 then .next ((s.postOnce (.porchRefill m.die)).post (.porchAccept id))
      else if p.ring.length < 2 ^ p.q then .next (sendAccepted m (s.setPorch { p with ring := p.ring ++ [x] }))
      else .next (refuseMessage m .queueOverflow s)

/-- PORCH_REFILL (R264): the head of the ring moves to the tail of the Porch. -/
def execPorchRefill (die : Nat) (s : State) : Host.Outcome State Fault Refusal :=
  let p := s.porch die
  match p.ring with
  | x :: r =>
    if p.porch.length ≥ 32 then .next s
    else
      let s := wakeReceivers die (s.setPorch { p with porch := p.porch ++ [x], ring := r })
      .next (if r.isEmpty then s else s.postOnce (.porchRefill die))
  | [] => .next s

/-- MBRECV (R290): the oldest record goes to the registers; an empty Porch makes the thread wait. Its operation is counted on its produce
key from its issue on (R173, R265). -/
def execMbrecv (f : Fields) (s : State) : Host.Outcome State Fault Refusal :=
  issueOp 0x303 f s (fun c =>
    if !c.dispatches then .trap (TrapInfo.of .illegalOperand)
    else keyChecked c (waitKey c 0 (
      if keyFull c then .hold c.s
      else
        let die := c.r.core / 256
        let (id, s) := c.operation c.s
        if (s.porch die).porch.isEmpty then .wait (s.modThread c.r (fun t => { t with status := .mbrecv id f.d.toNat }))
        else .ok (takeRecord die c.r f.d.toNat id s))))

/-- MBSTAT (R291). -/
def execMbstat (f : Fields) (s : State) : Host.Outcome State Fault Refusal :=
  issueOp 0x304 f s (fun c =>
    let p := c.s.porch (c.r.core / 256)
    c.trackedValue false (BitVec.ofNat 64 (p.q * 2 ^ 27 + p.ring.length * 2 ^ 7 + p.porch.length)))

end Sys2Proof.Machine
end

