-- ==== Sys2Proof/Machine/Ends.lean ====
section
/-! DEFINITION. The ends of blocks, gangs, households and tasks, and their completion words (R261, R288, R371), and the graph
walker (R262, R263, R294). -/

namespace Sys2Proof.Machine

/-! ## Completion words -/

/-- Serril, or a walker, of a die writes a word at system scope: done, to be tried again, or unreachable, which the log
reports (R261) (log 56, DEDUCED). -/
def writeDone (s : State) (die ctx : Nat) (p : DWord) (v : Nat) : State × Bool :=
  if p == 0 then (s, true)
  else match graspAgent s (dieUnit die) die ctx p 4 true with
    | .ok s loc mode => (dirtyAt mode die loc (s.writeBytes loc (bytesOf 4 v)), true)
    | .again s => (s, false)
    | .stop s c => (s.log 0x06 die ctx (causeCode c) p.toNat die, true)

/-! ## What keeps a block from ending -/

/-- An operation or a chain of the block is in flight (R261). -/
def State.blockBusy (s : State) (b : Block) : Bool :=
  s.ops.any (fun o => o.gang == b.gang && o.core == b.core) || s.engs.any (fun e => e.block == b.uid && !e.stopped)
    || s.sch.chains.any (fun k => k.block == b.uid && k.walking)

/-- The block is held until every gang of its household, of two or more, is detached (R116, R371). -/
def State.endHeld (s : State) (g : Gang) : Bool :=
  g.hasAtt && (match s.hh? g.hh with | some h => decide (h.ngang ≥ 2) && !(h.att.all (fun a => a == .detached)) | none => false)

/-! ## The records that end -/

/-- A block's records leave its core. -/
def removeBlock (b : Block) (s : State) : State :=
  recheck b.core { s with
    blocks := s.blocks.filter (fun x => x.uid != b.uid),
    engs := s.engs.filter (fun e => e.block != b.uid),
    sch := { s.sch with chains := s.sch.chains.filter (fun k => k.block != b.uid) } }

/-- The last block of a gang gives up its resources: its entries are in state 0 (R261); it stays until the gang's completion words are
written. -/
def freeBlock (b : Block) (s : State) : State :=
  let none_ : Block := { b with state := 0, spSize := 0, accRows := 0, regs := 0, ntid := 0 }
  recheck b.core { s with
    blocks := s.blocks.map (fun x => if x.uid = b.uid then none_ else x),
    engs := s.engs.filter (fun e => e.block != b.uid),
    sch := { s.sch with chains := s.sch.chains.filter (fun k => k.block != b.uid) } }

/-- A gang's records leave; its household's with its last gang, and the task counts the household (R261, R371). -/
def removeGang (g : Gang) (s : State) : State :=
  let s : State := { s with
    gangs := s.gangs.filter (fun x => x.uid != g.uid),
    sends := s.sends.filter (fun x => x.gang != g.uid),
    arrivals := s.arrivals.filter (fun i => match s.send? i with | some x => x.gang != g.uid | none => false),
    tasks := s.tasks.map (fun (t : Task) => if t.num = g.task then { t with failed := t.failed || g.failed } else t) }
  if s.gangs.any (fun x => x.hh == g.hh) then s
  else
    { s with
      hhs := s.hhs.filter (fun h => h.uid != g.hh),
      tasks := s.tasks.map (fun (t : Task) => if t.num = g.task ∧ g.spawned = none then { t with nhhLeft := t.nhhLeft - 1 } else t) }

/-- Whether the end of gang g completes its task: no other gang of it lives, and no household is still to come (R261). -/
def State.completes (s : State) (g : Gang) (t : Task) : Bool :=
  let last := !(s.gangs.any (fun x => x.task == g.task && x.uid != g.uid))
  last && decide (t.nhhLeft ≤ (if g.spawned = none then 1 else 0))

/-- The task is complete: the walker that posted its card learns of it (R263). -/
def finishTask (num : Nat) (s : State) : State :=
  match s.task? num with
  | none => s
  | some t =>
    match t.graph with
    | none => { s with tasks := s.tasks.filter (fun x => x.num != num) }
    | some (g, _) =>
      ({ s with tasks := s.tasks.map (fun (x : Task) => if x.num = num then { x with complete := true } else x) } : State).post
        (.graphTaskComplete g num)

/-- The gang ends with its last block: its completion words are written, then its records leave; it is tried again while a
word cannot be written. -/
def endLast (b : Block) (g : Gang) (s : State) : State :=
  let (s, ok) := match g.spawned with
    | some p => writeDone s g.die g.ctx p (if g.failed then 0xFFFFFFFF else 1)
    | none => (s, true)
  if !ok then s.post (.blockEnd b.uid)
  else
    let s := s.modGang g.uid (fun x => { x with spawned := x.spawned.map (fun _ => 0) })
    match s.task? g.task with
    | none => removeGang g (removeBlock b s)
    | some t =>
      if s.completes g t then
        let (s, ok) := writeDone s t.die t.ctx (jcDone t.card) (if t.failed || g.failed then jcFailval t.card else jcDoneval t.card)
        if ok then finishTask g.task (removeGang g (removeBlock b s)) else s.post (.blockEnd b.uid)
      else removeGang g (removeBlock b s)

/-- BLOCK_END (R261, R371): a block whose threads have exited, whose operations have performed and which no household peer holds
ends, and its resources are free. -/
def execBlockEnd (block : Nat) (s : State) : Host.Outcome State Fault Refusal :=
  match s.block? block with
  | none => .next s
  | some b =>
    match s.gang? b.gang with
    | none => .next s
    | some g =>
      if b.state = 0 then .next (endLast b g s)
      else if b.state = 1 ∨ !(s.threadsOfBlock block).isEmpty ∨ (g.phase ≠ .running ∧ g.phase ≠ .bound) ∨ s.endHeld g then .next s
      else if s.blockBusy b then .next (s.post (.blockEnd block))
      else
        let s : State := { s with blocks := s.blocks.map (fun (x : Block) => if x.uid = block then { x with state := 3 } else x) }
        let last := !(s.blocks.any (fun x => x.gang == g.uid && x.uid != block))
        .next (if last then endLast b g (wakeAdmission g.die (freeBlock b s)) else wakeAdmission g.die (removeBlock b s))

/-! ## Nodes (R262) -/

def gnKind (n : Nat) : Nat := recBits n 255 252
def gnNext (n : Nat) : Nat := recBits n 239 224
def gnAlt (n : Nat) : Nat := recBits n 223 208
def gnCount (n : Nat) : Nat := recBits n 207 192
def gnPtr (n : Nat) : DWord := recPtr n 128
def gnArgp (n : Nat) : DWord := recPtr n 64
def gnDie (n : Nat) : Nat := recBits n 35 32

/-- The event of an activation at a node of a kind. -/
def nodeEvent (kind graph node : Nat) : Instr :=
  match kind with
  | 1 => .graphNodeTask graph node
  | 2 => .graphNodeCondition graph node
  | 3 => .graphNodeWhile graph node
  | 4 => .graphNodeJoin graph node
  | _ => .graphNodeEnd graph node

/-- Activations at once: those at nodes, and those whose task is posted (R263). -/
def Graph.active (g : Graph) : Nat := g.acts.length + g.posting.length + g.tasks.length

/-- Sends an activation to a node: 0xFFFF ends it, another index beyond the array is a graph fault, and so is a 257th
activation (R263, R294). -/
def sendAct (id node : Nat) (s : State) : State :=
  match s.graph? id with
  | none => s
  | some g =>
    if g.faulted || node == 0xFFFF then s
    else if node ≥ g.nodes ∨ g.active ≥ 256 then faultGraph id s
    else (s.setGraph { g with acts := g.acts ++ [node] }).post (.graphNodeEnd id node)

/-- An activation leaves its node. -/
def leaveNode (id node : Nat) (s : State) : State :=
  match s.graph? id with | some g => s.setGraph { g with acts := g.acts.erase node } | none => s

/-- The activation moves on, and the graph may be complete. -/
def moveAct (id node next : Nat) (s : State) : State := checkGraph id (sendAct id next (leaveNode id node s))

/-- The walker visits a node for an activation: it reads the node (R294), takes the event of the node's kind, and acts; `e` is
the event that repeats the visit (log 55, DEDUCED). -/
def visitNode (id node kind : Nat) (s : State) (act : State → Graph → Nat → State) : Host.Outcome State Fault Refusal :=
  let e := nodeEvent kind id node
  match s.graph? id with
  | none => .next s
  | some g =>
    if g.faulted || !(g.acts.contains node) then .next s
    else match graspAgent s (dieUnit g.die) g.die g.ctx (g.base + BitVec.ofNat 64 (32 * node)) 32 false with
      | .again s => .next (s.post e)
      | .stop s _ => .next (faultGraph id s)
      | .ok s loc _ =>
        let n := s.readLe loc 32
        if gnKind n > 4 ∨ recBits n 251 240 ≠ 0 ∨ recBits n 63 36 ≠ 0 ∨ recBits n 31 0 ≠ 0 then .next (faultGraph id s)
        else if gnKind n ≠ kind then .next (s.post (nodeEvent (gnKind n) id node))
        else .next (act s g n)

/-- GRAPH_NODE_END (R263). -/
def execGraphNodeEnd (graph node : Nat) (s : State) : Host.Outcome State Fault Refusal :=
  visitNode graph node 0 s (fun s _ _ => checkGraph graph (leaveNode graph node s))

/-- GRAPH_NODE_TASK (R263): the card is posted to its queue on the node's die. -/
def execGraphNodeTask (graph node : Nat) (s : State) : Host.Outcome State Fault Refusal :=
  visitNode graph node 1 s (fun s g n =>
    let die := if gnDie n = 15 then g.die else gnDie n
    if 12 ≤ die ∨ !(globalAt (gnPtr n) 64) then faultGraph graph s
    else
      let (id, s) := s.fresh
      let m : Message :=
        { id := id, t := none, d := 255, pk := 0, waits := [], scope := 6, dev := s.device, die := die, ctx := g.ctx, ptr := some (gnPtr n),
          argp := gnArgp n, card := 0, graph := some (graph, node), grp := id }
      let s := s.setGraph { g with acts := g.acts.erase node, posting := g.posting ++ [(node, gnNext n, gnAlt n)] }
      ({ s with messages := s.messages ++ [m] } : State).post (.postArrival id))

/-- GRAPH_POST_RETRY (R263): the cards of a node that met a full queue are posted again; a faulted graph posts nothing further. -/
def execGraphPostRetry (graph node : Nat) (s : State) : Host.Outcome State Fault Refusal :=
  let ms := s.messages.filter (fun m => m.graph == some (graph, node))
  match s.graph? graph with
  | none => .next s
  | some g =>
    if !g.faulted then .next (ms.foldl (fun s m => s.postOnce (.postArrival m.id)) s)
    else
      let back := ms.filter (fun m => !(s.agenda.contains (.postArrival m.id)))
      let s := back.foldl (fun s m => s.dropMessage m.id) s
      .next (checkGraph graph (s.setGraph { g with posting := back.foldl (fun l _ => l.eraseP (fun x => x.1 == node)) g.posting }))

/-- The condition word of a node, read at system scope. -/
def readCondition (e : Instr) (graph : Nat) (g : Graph) (p : DWord) (s : State) (go : State → Nat → State) : State :=
  if !(globalAt p 4) then faultGraph graph s
  else match graspAgent s (dieUnit g.die) g.die g.ctx p 4 false with
    | .again s => s.post e
    | .stop s _ => faultGraph graph s
    | .ok s loc _ => go s (s.readLe loc 4)

/-- GRAPH_NODE_CONDITION (R263). -/
def execGraphNodeCondition (graph node : Nat) (s : State) : Host.Outcome State Fault Refusal :=
  visitNode graph node 2 s (fun s g n => readCondition (.graphNodeCondition graph node) graph g (gnPtr n) s (fun s v =>
    moveAct graph node (if v = 0 then gnAlt n else gnNext n) s))

/-- GRAPH_NODE_WHILE (R263): as a condition, with the iterations counted. -/
def execGraphNodeWhile (graph node : Nat) (s : State) : Host.Outcome State Fault Refusal :=
  visitNode graph node 3 s (fun s g n => readCondition (.graphNodeWhile graph node) graph g (gnPtr n) s (fun s v =>
    if v = 0 then moveAct graph node (gnAlt n) (s.setGraph { g with loops := eraseAssoc node g.loops })
    else
      let k := (assoc node g.loops).getD 0 + 1
      if gnCount n ≠ 0 ∧ k > gnCount n then faultGraph graph s
      else moveAct graph node (gnNext n) (s.setGraph { g with loops := setAssoc node k g.loops })))

/-- GRAPH_NODE_JOIN (R263): one arrival; the last one sends the activation on and the count restarts. -/
def execGraphNodeJoin (graph node : Nat) (s : State) : Host.Outcome State Fault Refusal :=
  visitNode graph node 4 s (fun s g n =>
    let k := (assoc node g.joins).getD 0 + 1
    if gnCount n = 0 then faultGraph graph s
    else if k ≥ gnCount n then moveAct graph node (gnNext n) (s.setGraph { g with joins := eraseAssoc node g.joins })
    else checkGraph graph (leaveNode graph node (s.setGraph { g with joins := setAssoc node k g.joins })))

/-- GRAPH_TASK_COMPLETE (R263): the task's successors are activated; a failed task faults the graph. -/
def execGraphTaskComplete (graph task : Nat) (s : State) : Host.Outcome State Fault Refusal :=
  match s.graph? graph, s.task? task with
  | some g, some t =>
    if !t.complete then .next s
    else
      let node := match t.graph with | some (_, n) => n | none => 0
      let mine := g.tasks.find? (fun x => x.1 == node)
      let s := s.setGraph { g with tasks := g.tasks.eraseP (fun x => x.1 == node) }
      let s : State := { s with tasks := s.tasks.filter (fun x => x.num != task) }
      if t.failed then .next (faultGraph graph s)
      else match mine with
      | some (_, next, alt) =>
        let s := sendAct graph next s
        .next (checkGraph graph (sendAct graph alt s))
      | none => .next (checkGraph graph s)
  | none, some _ => .next { s with tasks := s.tasks.filter (fun x => x.num != task || !x.complete) }
  | _, none => .next s

/-- GRAPH_COMPLETION (R294): nothing of the graph remains, and the walker writes its completion value. -/
def execGraphCompletion (graph : Nat) (s : State) : Host.Outcome State Fault Refusal :=
  match s.graph? graph with
  | none => .next s
  | some g =>
    if !(g.acts.isEmpty && g.posting.isEmpty && g.tasks.isEmpty) then .next s
    else
      let (s, ok) := writeDone s g.die g.ctx g.done (if g.faulted then g.failval.toNat else g.doneval.toNat)
      if ok then .next { s with sch := { s.sch with graphs := s.sch.graphs.filter (fun x => x.id != graph) } }
      else .next (s.post (.graphCompletion graph))

/-! ## GLAUNCH (R294) -/

/-- GLAUNCH (R294): the walker accepts the graph, rejects its record, or holds 16 graphs already. -/
def execGlaunch (f : Fields) (s : State) : Host.Outcome State Fault Refusal :=
  issueOp 0x307 f s (fun c => keyChecked c (waitKey c (Forms.scope f) (readRecord c Spaces.globOnly c.addr 32 (fun s r =>
    let result (v : Word) (s : State) : Res := .ok (c.tracked s (c.s.clock + 1) (wordRegs f.d.toNat [v]) [])
    let die := if recBits r 47 44 = 15 then c.r.core / 256 else recBits r 47 44
    let base := recPtr r 192
    let done := recPtr r 128
    if die ≥ 12 ∨ recBits r 43 0 ≠ 0 ∨ recBits r 63 48 = 0 ∨ !(globalAt base 32) ∨ (done ≠ 0 ∧ !(globalAt done 4)) then result 1 s
    else if (s.sch.graphs.filter (fun g => g.die == die)).length ≥ 16 then result 2 s
    else
      let (id, s) := s.fresh
      let g : Graph :=
        { id := id, die := die, ctx := s.ctxOf c.th, base := base, done := done, doneval := BitVec.ofNat 32 (recBits r 127 96),
          failval := BitVec.ofNat 32 (recBits r 95 64), nodes := recBits r 63 48, acts := [], joins := [], loops := [],
          posting := [], tasks := [], faulted := false }
      result 0 (sendAct id 0 (s.setGraph g))))))

end Sys2Proof.Machine
end

