-- ==== Sys2Proof/Machine/Group.lean ====
section
/-! DEFINITION. The group class 0x7: warp collectives (R137–R146) and barriers (R147–R150). -/

namespace Sys2Proof.Machine

/-- The mask of a warp collective (R137). -/
def collMask (c : Ctx) : Word := if Forms.m3 c.f then c.reg 2 c.f.c.toNat else 0xFFFFFFFF

/-- Arrival at a warp collective (R137): the first thread fixes the instance's mask; another mask, or one without the
thread's own lane, traps. The thread waits; the instance completes at the end of the cycle. -/
def arriveColl (c : Ctx) (instr : Nat) (v : DWord) (n : Nat) (x : Bool) : Res :=
  let mask := collMask c
  let p : Participant := { lane := c.r.lane, d := c.f.d.toNat, v := v, n := n, x := x }
  let j := c.th.rep.map (·.j)
  let is (k : Collective) : Bool := k.pc == c.th.pc && k.j == j
  if !(hasLane mask c.r.lane) then .trap (TrapInfo.of .illegalOperand)
  else
    let wait (s : State) : Res := .wait (s.modThread c.r (fun t => { t with status := .collective }))
    match c.warp.colls.find? is with
    | some k =>
      if k.mask ≠ mask then .trap (TrapInfo.of .illegalOperand)
      else wait (c.s.modWarp c.r.core c.r.slot (fun w => { w with
        colls := w.colls.map (fun (k : Collective) => if is k then { k with arrived := k.arrived ++ [p] } else k) }))
    | none =>
      let k : Collective :=
        { pc := c.th.pc, j := j, mask := mask, instr := instr, m := c.f.m, ty := Forms.ts c.f, arrived := [p] }
      wait (c.s.modWarp c.r.core c.r.slot (fun w => { w with colls := w.colls ++ [k] }))

/-- SHFL (R141). -/
def execShfl (f : Fields) (s : State) : Host.Outcome State Fault Refusal :=
  issueOp 0x1C0 f s (fun c =>
    let n := if Forms.m4 f then f.imm.toNat % 32 else (c.reg 1 f.b.toNat).toNat % 32
    arriveColl c 0 (c.regv 0 c.w f.a.toNat) n false)

/-- VOTE (R142). -/
def execVote (f : Fields) (s : State) : Host.Outcome State Fault Refusal :=
  issueOp 0x1C1 f s (fun c => arriveColl c 1 0 0 (c.pred 0 f.a.toNat != f.m.getLsbD 2))

/-- WRED (R143). -/
def execWred (f : Fields) (s : State) : Host.Outcome State Fault Refusal :=
  issueOp 0x1C2 f s (fun c => arriveColl c 2 (c.regv 0 c.w f.a.toNat) 0 false)

/-- MATCH (R144). -/
def execMatchLanes (f : Fields) (s : State) : Host.Outcome State Fault Refusal :=
  issueOp 0x1C3 f s (fun c => arriveColl c 3 (c.regv 0 c.w f.a.toNat) 0 false)

/-- ELECT (R145). -/
def execElect (f : Fields) (s : State) : Host.Outcome State Fault Refusal :=
  issueOp 0x1C4 f s (fun c => arriveColl c 4 0 0 false)

/-- WSYNC (R146). -/
def execWsync (f : Fields) (s : State) : Host.Outcome State Fault Refusal :=
  issueOp 0x1C8 f s (fun c => arriveColl c 5 0 0 false)

/-- Arrival at a barrier (R147): `.rel` first performs KeyWait(k15) at the level's scope. A thread of the trap warp is in
no block and waits for nobody (log 9, DESIGN CHOICE). -/
def barrierBody (level : Nat) (c : Ctx) : Res :=
  let id := Forms.immBits c.f 3 0
  if c.r.slot = 64 then .ok c.s
  else if c.f.m.getLsbD 0 then
    match c.warp.faultOf 15 with
    | some x => .trap (TrapInfo.ofKey x)
    | none =>
      if c.s.keySatisfied c.warp 15 (relScope level) then .wait (arriveBarrier c.th level id c.s)
      else .wait (c.s.modThread c.r (fun t => { t with status := .barrierKeys level id (c.warp.waitsOf 15) }))
  else .wait (arriveBarrier c.th level id c.s)

/-- BARB (R147). -/
def execBarb (f : Fields) (s : State) : Host.Outcome State Fault Refusal := issueOp 0x1C5 f s (barrierBody 0)

/-- BARG (R147). -/
def execBarg (f : Fields) (s : State) : Host.Outcome State Fault Refusal := issueOp 0x1C6 f s (barrierBody 1)

/-- Whether a BARH of the thread raises HH_DEPARTED (R149): with peers, unless the whole household is attached; alone, once
detaching. -/
def hhDeparted (c : Ctx) : Bool :=
  match c.s.gangOf c.th, c.s.hhOf c.th with
  | some g, some h =>
    if h.ngang ≥ 2 then
      (List.range h.ngang).any (fun i => h.copyOf c.r.core i != .attached)
    else (h.copyOf c.r.core g.rank).gone
  | _, _ => false

/-- BARH (R147, R149). A departed peer traps before the key of a BARH.rel is looked at (log 90, DESIGN CHOICE). -/
def execBarh (f : Fields) (s : State) : Host.Outcome State Fault Refusal :=
  issueOp 0x1C7 f s (fun c => if hhDeparted c then .trap (TrapInfo.of .hhDeparted) else barrierBody 2 c)

/-- BARRIER_RELEASE (R148): a thread released from a gang or household barrier, or from HHATT or HHDET, becomes ready. -/
def execBarrierRelease (t : TRef) (s : State) : Host.Outcome State Fault Refusal :=
  match s.thread? t with
  | none => .next s
  | some th =>
    if th.status = .released then .next ((s.modThread t (Thread.finish (s.clock + 1))).progressOf th) else .next s

end Sys2Proof.Machine
end

