-- ==== Sys2Proof/Machine/Landing.lean ====
section
/-! DEFINITION. The attachment of gangs to their household (R369–R376). -/

namespace Sys2Proof.Machine

/-- Every gang of the household is attached in a core's copy of the table. -/
def Household.allAttached (h : Household) (core : Nat) : Bool :=
  (List.range h.ngang).all (fun r => h.copyOf core r == .attached)

/-- Threads of a household that wait at HHATT on a core whose copy shows every gang attached are released (R373, R148). -/
def releaseAttached (hh core : Nat) (s : State) : State :=
  match s.hh? hh with
  | none => s
  | some h =>
    if !(h.allAttached core) then s
    else
      let ts := s.threads.filter (fun t => t.ref.core == core && t.status == .hhatt && s.inHh hh t)
      ts.foldl (fun s t => ((s.modThread t.ref (fun x => { x with status := .released })).progressOf t).post (.barrierRelease t.ref)) s

/-- The gang is attached: its own cores' copies say so, and a notice goes to every other core of the household (R373). -/
def attachGang (g : Gang) (s : State) : State :=
  let own := s.coresOfGang g.uid
  let s := s.modHh g.hh (fun h => own.foldl (fun h c => h.setCopy c g.rank .attached) { h with att := h.att.set g.rank .attached })
  let s := s.modGang g.uid (fun x => { x with hasAtt := true })
  let far := (s.coresOfHh g.hh).filter (fun c => !(own.contains c))
  own.foldl (fun s c => releaseAttached g.hh c s) (s.postAll (far.map (fun c => .attachNotice g.uid c)))

/-- HHATT (R373). The trap warp belongs to no gang, and does nothing (log 9, DESIGN CHOICE). -/
def execHhatt (f : Fields) (s : State) : Host.Outcome State Fault Refusal :=
  issueOp 0x340 f s (fun c =>
    match c.s.gangOf c.th, c.s.hhOf c.th with
    | some g, some h =>
      let own := h.copyOf c.r.core g.rank
      if own.gone then .trap (TrapInfo.of .hhDeparted)
      else
        let s := if own == .unattached then attachGang g c.s else c.s
        match s.hh? g.hh with
        | some h => if h.allAttached c.r.core then .ok s else .wait (s.modThread c.r (fun t => { t with status := .hhatt }))
        | none => .ok s
    | _, _ => .ok c.s)

/-- HHDET (R374). -/
def execHhdet (f : Fields) (s : State) : Host.Outcome State Fault Refusal :=
  issueOp 0x341 f s (fun c =>
    match c.s.gangOf c.th, c.s.hhOf c.th with
    | some g, some h =>
      let held (s : State) : Res := .wait (s.modThread c.r (fun t => { t with status := .hhdet }))
      match h.copyOf c.r.core g.rank with
      | .unattached => .ok c.s
      | .attached => held (startDetach g.uid c.s)
      | .detaching => held c.s
      | .detached => .ok c.s
    | _, _ => .ok c.s)

/-- The bits of the gangs whose state in a copy satisfies a test. -/
def gangBits (l : List Attach) (p : Attach → Bool) : Nat :=
  ((List.range l.length).map (fun r => if p (l.getD r .unattached) then 2 ^ r else 0)).sum

/-- HHSTAT (R375). -/
def execHhstat (f : Fields) (s : State) : Host.Outcome State Fault Refusal :=
  issueOp 0x342 f s (fun c =>
    let l := match c.s.hhOf c.th with | some h => h.copy c.r.core | none => []
    c.trackedValue false (BitVec.ofNat 64 (2 ^ 16 * gangBits l Attach.gone + gangBits l (· == .attached))))

/-- A gang that runs on another module has no record here: 2^32 × (its household's number + 1) + its rank names it in the notices that
come from it (log 17, DESIGN CHOICE). Its household and rank. -/
def State.awayGang (s : State) (gang : Nat) : Option (Nat × Nat) :=
  if gang < 2 ^ 32 then none
  else match s.hh? (gang / 2 ^ 32 - 1) with
  | some h => if h.modules.getD (gang % 2 ^ 32) s.device = s.device then none else some (h.uid, gang % 2 ^ 32)
  | none => none

/-- What a notice from another module says of its gang reaches a core's copy, and the household's state. -/
def awayNotice (hh rank core : Nat) (a : Attach) (s : State) : State :=
  s.modHh hh (fun h => Household.setCopy core rank a { h with att := h.att.set rank a })

/-- ATTACH_NOTICE (R373): a core's copy shows the gang attached. -/
def execAttachNotice (gang core : Nat) (s : State) : Host.Outcome State Fault Refusal :=
  match s.gang? gang with
  | none => match s.awayGang gang with
    | some (hh, rank) =>
      let fresh : Bool := match s.hh? hh with | some h => h.copyOf core rank == .unattached | none => false
      .next (if fresh then releaseAttached hh core (awayNotice hh rank core .attached s) else s)
    | none => .next s
  | some g =>
    let s := s.modHh g.hh (fun h => if h.copyOf core g.rank = .unattached then h.setCopy core g.rank .attached else h)
    .next (releaseAttached g.hh core s)

/-- Threads of a household that wait on a core at a household barrier or at HHATT trap HH_DEPARTED (R370). -/
def departedTraps (hh core : Nat) (s : State) : State :=
  let waits (t : Thread) : Bool := match t.status with
    | .barrier 2 _ => true
    | .barrierKeys 2 _ _ => true
    | .hhatt => true
    | _ => false
  let ts := s.threads.filter (fun t => t.ref.core == core && waits t && s.inHh hh t)
  ts.foldl (fun s t => raiseTrap t.ref (TrapInfo.of .hhDeparted) s) s

/-- DETACH_NOTICE (R370, step 2): a core's copy marks the gang detaching; threads of the household that wait there at a
household barrier or at HHATT trap HH_DEPARTED. -/
def execDetachNotice (gang core : Nat) (s : State) : Host.Outcome State Fault Refusal :=
  match s.gang? gang with
  | none => match s.awayGang gang with
    | some (hh, rank) =>
      let gone : Bool := match s.hh? hh with | some h => (h.copyOf core rank).gone | none => true
      .next (if gone then s else departedTraps hh core (awayNotice hh rank core .detaching s))
    | none => .next s
  | some g =>
    let s := s.modHh g.hh (fun h => if (h.copyOf core g.rank).gone then h else h.setCopy core g.rank .detaching)
    .next (departedTraps g.hh core s)

/-- The gang and rank that a Landing access of a thread goes between, if it crosses a household (R162). -/
def State.landingBetween (s : State) (hh : Nat) (a : Access) : Option (Nat × Nat) :=
  match decodePtr a.ptr, s.opGang a.id with
  | some (.landing r _ _), some g => match s.gang? g with
    | some x => if x.hh = hh ∧ x.rank ≠ r then some (x.rank, r) else none
    | none => none
  | _, _ => none

/-- The pointers through which an engine operation accesses memory. -/
def EngOp.pointers (e : EngOp) : List DWord :=
  let r := e.recN
  match e.kind with
  | .mma => [(Sys2Proof.Machine.opA r).ptr, (Sys2Proof.Machine.opB r).ptr, Sys2Proof.Machine.recPtr r 128]
  | .mdrn => (drainD r).ptr :: ((drainT? r).map (·.ptr)).toList
  | _ => [e.src, e.dst]

/-- An engine operation of gang rank x reaches the scratchpads of gang g's peers, or a peer's operation those of gang g (R162). -/
def State.engCrosses (s : State) (g : Gang) (e : EngOp) : Bool :=
  !e.stopped && (match s.gang? e.gang with
    | some x => x.hh == g.hh && e.pointers.any (fun p => match decodePtr p with
      | some (.landing r _ _) => r != x.rank && (x.rank == g.rank || r == g.rank)
      | _ => false)
    | none => false)

/-- Nothing that crosses between a gang and its peers is in flight (R370, step 3). -/
def State.detachDue (s : State) (g : Gang) : Bool :=
  let marked := match s.hh? g.hh with
    | some h => (s.coresOfHh g.hh).all (fun c => (h.copyOf c g.rank).gone)
    | none => true
  let crosses (x : Send) : Bool := x.fromGang != x.gang && (x.fromGang == g.uid || x.gang == g.uid)
  marked && s.accs.all (fun a => match s.landingBetween g.hh a with
      | some (x, y) => x != g.rank && y != g.rank
      | none => true)
    && !(s.engs.any (s.engCrosses g))
    && s.sends.all (fun x => !(crosses x) || (x.delivered && x.points.isEmpty))

/-- DETACH_COMPLETE (R370, steps 3 and 4): what is in flight between the gang and its peers has finished; the gang is detached
everywhere, its HHDETs are released, and held blocks may end (R371). -/
def execDetachComplete (gang : Nat) (s : State) : Host.Outcome State Fault Refusal :=
  match s.gang? gang with
  | none => match s.awayGang gang with
    | some (hh, rank) =>
      let s := (s.coresOfHh hh).foldl (fun s c => awayNotice hh rank c .detached s)
        (s.modHh hh (fun h => { h with att := h.att.set rank .detached }))
      .next ((postHeldEnds hh s).postAll ((s.sch.colls.filter (fun i => i.hh == hh)).map (fun i => .collCompute i.id)))
    | none => .next s
  | some g =>
    match s.hh? g.hh with
    | none => .next s
    | some h =>
      if h.stateOf g.rank ≠ .detaching then .next s
      else if !(s.detachDue g) then .next (s.post (.detachComplete gang))
      else
        let cs := s.coresOfHh g.hh
        let s := s.modHh g.hh (fun h => cs.foldl (fun h c => h.setCopy c g.rank .detached) { h with att := h.att.set g.rank .detached })
        let ts := s.threads.filter (fun t => t.status == .hhdet && s.inGang gang t)
        let s := ts.foldl (fun s t =>
          ((s.modThread t.ref (fun x => { x with status := .released })).progressOf t).post (.barrierRelease t.ref)) s
        let s := postHeldEnds g.hh s
        .next (s.postAll ((s.sch.colls.filter (fun i => i.hh == g.hh)).map (fun i => .collCompute i.id)))

end Sys2Proof.Machine
end

