-- ==== Sys2Proof/Machine/Move.lean ====
section
/-! DEFINITION. The move class 0x2 (R92–R96, R134). -/

namespace Sys2Proof.Machine

/-- MOV (R93). -/
def execMov (f : Fields) (s : State) : Host.Outcome State Fault Refusal :=
  issueOp 0x080 f s (fun c => c.value c.w (c.va c.w))

/-- MOVI (R93): the immediate, extended by the type. -/
def execMovi (f : Fields) (s : State) : Host.Outcome State Fault Refusal :=
  issueOp 0x081 f s (fun c => c.value c.w (immValue f c.w))

/-- SEL (R93). -/
def execSel (f : Fields) (s : State) : Host.Outcome State Fault Refusal :=
  issueOp 0x082 f s (fun c => c.value c.w (if c.pred 2 f.c.toNat then c.va c.w else c.vb c.w))

/-- The job card of a thread's task gives the household figures (R134). -/
def nhhOf (card : BitVec 512) : Nat := (card.extractLsb' 112 16).toNat + 1
def ngangOf (card : BitVec 512) : Nat := (card.extractLsb' 91 4).toNat + 1

/-- The registers of the hierarchy of a thread in a block (R134). -/
def hierarchyReg (s : State) (th : Thread) (b : Block) (g : Gang) (i : Nat) : Nat :=
  let hh := s.hh? g.hh
  match i with
  | 0 => th.tid
  | 1 => th.tid % 32
  | 2 => th.tid / 32
  | 3 => b.rank
  | 4 => g.rank
  | 5 => match hh with | some h => h.rank | none => 0
  | 6 => th.ref.core % 64
  | 7 => th.ref.core / 64 % 4
  | 8 => th.ref.core / 256
  | 9 => s.device
  | 10 => b.ntid
  | 11 => g.nblock
  | 12 => match hh with | some h => h.ngang | none => 1
  | 13 => match g.spawned, s.task? g.task with
    | none, some t => nhhOf t.card
    | _, _ => 1
  | _ => g.task

/-- Those of a thread of the trap warp, which has no block: its lane and where it runs are what they are; the others are open
(log 9, DESIGN CHOICE). -/
def trapWarpReg (s : State) (th : Thread) (n i : Nat) : Word :=
  match i with
  | 1 => BitVec.ofNat 32 th.ref.lane
  | 6 => BitVec.ofNat 32 (th.ref.core % 64)
  | 7 => BitVec.ofNat 32 (th.ref.core / 64 % 4)
  | 8 => BitVec.ofNat 32 (th.ref.core / 256)
  | 9 => BitVec.ofNat 32 s.device
  | _ => Config.openWord (32 * n + i)

/-- A special register (R94, R134). The trap warp, which has no job card, reads an open value of sr.argp and sr.argphi
(log 9, DESIGN CHOICE). -/
def Ctx.special (c : Ctx) (i : Nat) : Word :=
  let s := c.s
  let th := c.th
  let w := c.warp
  let argp : DWord := match s.blockOf th with
    | some b => b.argp
    | none => Config.openWord (32 * c.n + 24) ++ Config.openWord (32 * c.n + 23)
  match i with
  | 15 => BitVec.ofNat 32 s.clock
  | 16 => BitVec.ofNat 32 (s.clock / 2 ^ 32)
  | 17 => BitVec.ofNat 32 w.rejoin.length
  | 18 => th.callsp.extractLsb' 0 32
  | 19 => th.callsp.extractLsb' 32 32
  | 20 => if w.serial then 1 else 0
  | 21 => s.issue.group.foldl (fun acc r =>
      if r.core = th.ref.core ∧ r.slot = th.ref.slot then acc ||| BitVec.ofNat 32 (2 ^ r.lane) else acc) 0
  | 22 => laneMask (s.threadsOfWarp th.ref.core th.ref.slot)
  | 23 => argp.extractLsb' 0 32
  | 24 => argp.extractLsb' 32 32
  | 25 => th.pc.extractLsb' 0 32
  | _ =>
    match s.blockOf th, s.gangOf th with
    | some b, some g => BitVec.ofNat 32 (hierarchyReg s th b g i)
    | _, _ => trapWarpReg s th c.n i

/-- MOVS (R94): a tracked read; a 64-bit type reads a pair, or the whole program counter, in one instant. -/
def execMovs (f : Fields) (s : State) : Host.Outcome State Fault Refusal :=
  issueOp 0x083 f s (fun c =>
    let i := f.a.toNat
    let v : DWord :=
      if c.w then (if i = 25 then c.th.pc else c.special (i + 1) ++ c.special i) else ofWord (c.special i)
    c.trackedValue c.w v)

/-- A bit of a truth table of three predicates (R95). -/
def tableBit (tbl : Nat) (a b c : Bool) : Bool := tbl.testBit (4 * a.toNat + 2 * b.toNat + c.toNat)

/-- PLOG (R95). -/
def execPlog (f : Fields) (s : State) : Host.Outcome State Fault Refusal :=
  issueOp 0x084 f s (fun c =>
    c.predicate (tableBit (f.imm.toNat % 256) (c.pred 0 f.a.toNat) (c.pred 1 f.b.toNat) (c.pred 2 f.c.toNat)))

/-- All eight predicates as a value (R95). -/
def predWord (read : Nat → Bool) : Nat := (List.range 8).foldl (fun acc k => acc + (read k).toNat * 2 ^ k) 0

/-- P2W (R95). -/
def execP2w (f : Fields) (s : State) : Host.Outcome State Fault Refusal :=
  issueOp 0x085 f s (fun c => c.value false (BitVec.ofNat 64 (predWord (c.pred 0))))

/-- W2P (R95): the predicates of the mask take the bits of the value. -/
def execW2p (f : Fields) (s : State) : Host.Outcome State Fault Refusal :=
  issueOp 0x086 f s (fun c =>
    let v := c.va false
    let mask := c.vb false
    .ok (c.write [] (((List.range 7).filter (fun k => mask.getLsbD k)).map (fun k => (k, v.getLsbD k)))))

/-- RDU (R96). -/
def execRdu (f : Fields) (s : State) : Host.Outcome State Fault Refusal :=
  issueOp 0x087 f s (fun c => c.value c.w (c.univ 0 c.w f.a.toNat))

/-- Writes uniform register k of a warp, ready at `due`; a write of the same issue keeps the value before the issue as
the old one (R96). -/
def Warp.writeU (due k : Nat) (v : Word) (w : Warp) : Warp :=
  if k ≥ 63 then w
  else
    let old := match w.upend.find? (fun p => p.reg == k && p.due == due) with
      | some p => p.old
      | none => w.u.getD k 0
    { w with u := w.u.set k v, upend := addPending k due old w.upend }

/-- WRU (R96): ready 4 cycles after its issue for every thread of the warp; it clears faulted marks of the register (log 28, DEDUCED). -/
def execWru (f : Fields) (s : State) : Host.Outcome State Fault Refusal :=
  issueOp 0x088 f s (fun c =>
    let due := c.s.clock + 4
    let ws := valueRegs c.w f.d.toNat (c.va c.w)
    let s := c.s.modWarp c.r.core c.r.slot (fun w => ws.foldl (fun w q => w.writeU due q.1 q.2) w)
    let s := s.modThread c.r (fun th =>
      ws.foldl (fun th q => { th with pend := addPending (512 + q.1) due 0 th.pend }) th)
    .ok { s with threads := s.threads.map (fun t =>
      if t.ref.core = c.r.core ∧ t.ref.slot = c.r.slot
      then { t with marks := ws.foldl (fun m q => dropMark (512 + q.1) m) t.marks } else t) })

end Sys2Proof.Machine
end

