-- ==== Sys2Proof/Machine/System.lean ====
section
/-! DEFINITION. The trap warp (R314), the control registers (R315, R316, R318), the system class 0xE (R317–R323), the watchdog's
trap (R328), self-tests (R326) and soft errors (R327). -/

namespace Sys2Proof.Machine

/-! ## The trap warp -/

/-- TRAP_WARP_START (R313, R314): after the cycle of the stop, the trap warp starts one thread, in lane 0, at the trap table's entry
of the cause, with a private space of its own (R23); fixed-latency results of the core have been written, and the recorded thread's
page denial has been reported. -/
def execTrapWarpStart (core : Nat) (s : State) : Host.Outcome State Fault Refusal :=
  let k := s.core core
  match k.stopped with
  | none => .next s
  | some c =>
    if k.halted || k.mcheck || (s.warp? core 64).isSome then .next s
    else if s.clock ≤ c then .next (s.post (.trapWarpStart core))
    else
      let rec_ : TRef := ⟨core, k.recWarp.toNat % 64, k.recWarp.toNat / 64 % 32⟩
      let pc := k.ttab + 64 * (k.recCause.zeroExtend 64 &&& 0xFF)
      let (priv, s) := s.fresh
      let s : State := { s with
        threads := s.threads.map (fun (t : Thread) =>
          if t.ref.core = core then { t with pend := [], denied := if t.ref = rec_ then none else t.denied } else t) ++
          [Thread.fresh ⟨core, 64, 0⟩ 0 0 64 priv pc (s.clock + 1)],
        warps := s.warps.map (fun (w : Warp) => if w.core = core then { w with upend := [] } else w) ++ [Warp.fresh core 64 0 0] }
      .next s

/-! ## Control registers (R315) -/

/-- The gang of the warp that a thread's number names. -/
def State.warpGang (s : State) (core : Nat) (sel : Word) : Option Gang :=
  (s.warp? core (sel.toNat % 64)).bind (fun w => (s.block? w.block).bind (fun b => s.gang? b.gang))
/-- The gang of ctl.trapwarp's warp, as a CTLR sees it. -/
def State.trapGang (s : State) (core : Nat) : Option Gang := s.warpGang core (s.core core).trapwarp
/-- The gang of the recorded thread, which a CTLW of ctl.trapwarp does not change (R318). -/
def State.recGang (s : State) (core : Nat) : Option Gang := s.warpGang core (s.core core).recWarp

/-- The progress of the engine operation that ctl.engrec names, where it is of the kind asked for. -/
def State.engProgress (s : State) (k : Core) (copy : Bool) : Nat :=
  match s.eng? k.engop with
    | some e => match e.kind with
      | .cpy _ => if copy then e.progress else 0
      | .cpyb _ => if copy then e.progress else 0
      | .cpyf => if copy then e.progress else 0
      | .mma => if copy then 0 else e.progress
      | .mdrn => if copy then 0 else e.progress
      | _ => 0
    | none => 0

/-- Warp slots that hold a warp. -/
def State.snapMask (s : State) (core : Nat) : DWord :=
  s.warps.foldl (fun m w => if w.core = core ∧ w.slot < 64 then m ||| BitVec.ofNat 64 (2 ^ w.slot) else m) 0

/-- The control register that starts at number n, as 64 bits (log 50, DEDUCED). -/
def State.ctl (s : State) (core n : Nat) : DWord :=
  let k := s.core core
  match n with
  | 0 => ofWord k.trapcause
  | 1 => ofWord k.trapwarp
  | 2 => k.trappc
  | 4 => ofWord k.check
  | 5 => ofWord k.fpen
  | 6 => ofWord k.fpcause
  | 7 => ofWord k.fmterr
  | 8 => match s.trapGang core with | some g => BitVec.ofNat 64 g.wdInterval | none => 0
  | 9 => match s.trapGang core with | some g => BitVec.ofNat 64 g.ctx | none => 0
  | 10 => BitVec.ofNat 64 (s.engProgress k false)
  | 11 => BitVec.ofNat 64 (s.engProgress k true)
  | 13 => k.engrec
  | 15 => s.snapMask core
  | 17 => k.ttab
  | _ => 0

/-- The value that CTLR.i32 reads of number n: a register, or a half of one of 64 bits. -/
def State.ctlWord (s : State) (core n : Nat) : Word :=
  if n ∈ [3, 12, 14, 16, 18] then (s.ctl core (n - 1)).extractLsb' 32 32 else (s.ctl core n).extractLsb' 0 32

/-- CTLR (R318). -/
def execCtlr (f : Fields) (s : State) : Host.Outcome State Fault Refusal :=
  issueOp 0x380 f s (fun c =>
    let n := f.a.toNat
    c.trackedValue c.w (if c.w then c.s.ctl c.r.core n else ofWord (c.s.ctlWord c.r.core n)))

/-- Writes register n; none where a zero field is not zero (R315) (log 52, DEDUCED). -/
def ctlWrite (core n : Nat) (v : DWord) (s : State) : Option State :=
  let w := v.extractLsb' 0 32
  let below (b : Nat) (t : State) : Option State := if v.toNat < 2 ^ b then some t else none
  match n with
  | 0 => below 8 (s.modCore core (fun k => { k with trapcause := w }))
  | 1 => below 11 (s.modCore core (fun k => { k with trapwarp := w }))
  | 4 => below 1 (s.modCore core (fun k => { k with check := w }))
  | 5 => below 5 (s.modCore core (fun k => { k with fpen := w }))
  | 6 => below 5 (s.modCore core (fun k => { k with fpcause := w }))
  | 7 => below 1 (if v = 0 then s.modCore core (fun k => { k with fmterr := 0 }) else s)
  | 8 => below 16 (match s.recGang core with
    | some g => s.modGang g.uid (fun x => { x with wdInterval := v.toNat })
    | none => s)
  | 17 => if globalAt v 64 then some (s.modCore core (fun k => { k with ttab := v })) else none
  | _ => none

/-- CTLW (R318): the value of a, or imm32. -/
def execCtlw (f : Fields) (s : State) : Host.Outcome State Fault Refusal :=
  issueOp 0x381 f s (fun c =>
    let v := if Forms.m4 f then ofWord f.imm else c.regv 0 c.w f.a.toNat
    match ctlWrite c.r.core f.d.toNat v c.s with
    | some s => .ok s
    | none => .trap (TrapInfo.of .illegalOperand))

/-! ## RESUME, HALT, KILLW, SYSC -/

/-- RESUME (R320). -/
def execResume (f : Fields) (s : State) : Host.Outcome State Fault Refusal :=
  issueOp 0x382 f s (fun c => .ok (resumeCore c.r.core c.s))

/-- HALT (R323). -/
def execHalt (f : Fields) (s : State) : Host.Outcome State Fault Refusal :=
  issueOp 0x387 f s (fun c => .ok (haltCore c.r.core c.s))

/-- A handler ends every thread of a warp: a gang that this leaves without a thread, started or still to start, has been ended and
counts as failed (R321, R324, R261) (log 54, DEDUCED). -/
def killWarp (ts : List Thread) (s : State) : State :=
  let s := match ts.head?.bind s.gangOf with
    | some g =>
      if s.undispatched 1 g.uid || s.threads.any (fun t => s.inGang g.uid t && !(ts.contains t)) then s
      else s.modGang g.uid (fun x => { x with failed := true })
    | none => s
  ts.foldl (fun s t => exitThread t.ref s) s

/-- KILLW (R321): the selected thread, or every thread of the warp, ends as by EXIT. -/
def execKillw (f : Fields) (s : State) : Host.Outcome State Fault Refusal :=
  issueOp 0x383 f s (fun c =>
    let v := (c.reg 0 f.a.toNat).toNat
    let slot := v % 64
    let ts := c.s.threadsOfWarp c.r.core slot
    if v / 2 ^ 12 ≠ 0 then .trap (TrapInfo.of .illegalOperand)
    else if v / 2 ^ 11 % 2 = 1 then
      (if ts.isEmpty then .trap (TrapInfo.of .illegalOperand) else .ok (killWarp ts c.s))
    else match ts.find? (fun t => t.ref.lane == v / 64 % 32) with
      | some t => .ok (exitThread t.ref c.s)
      | none => .trap (TrapInfo.of .illegalOperand))

/-- SYSC (R323): Serril's answer is free for a service that it knows (log 14, DESIGN CHOICE), and 0xFFFF_FFFF for another. A handler has
the recorded thread's gang ended by one of them (R324). -/
def execSysc (f : Fields) (s : State) : Host.Outcome State Fault Refusal :=
  issueOp 0x388 f s (fun c =>
    let svc : BitVec 16 := f.imm.extractLsb' 0 16
    let v : Word := if Config.syscKnown svc then Config.syscAnswer c.n svc (c.pair 0 f.a.toNat) else 0xFFFFFFFF
    let s := match c.s.recGang c.r.core with
      | some g => if Config.syscKnown svc && Config.syscEnds svc then endGang g.uid c.s else c.s
      | none => c.s
    .ok (s.modThread c.r (fun t => t.putW f.d.toNat v)))

/-- MANAGEMENT_CORE_RESUME (R323): the management core resumes a halted core, or ends its gangs; the core then goes on (log 54, DEDUCED). -/
def execManagementCoreResume (core : Nat) (resume : Bool) (s : State) : Host.Outcome State Fault Refusal :=
  if !(s.core core).halted then .next s
  else if resume then .next (resumeCore core s)
  else
    let gs := ((s.coreBlocks core).map (·.gang)).eraseDups
    .next (resumeCore core (gs.foldl (fun s g => endGang g s) s))

/-! ## SNAPR and SNAPW (R319) -/

/-- The live thread that a selector names. -/
def Ctx.selected (c : Ctx) : Option Thread :=
  let v := (c.reg 0 c.f.a.toNat).toNat
  if v / 2 ^ 11 ≠ 0 then none else c.s.thread? ⟨c.r.core, v % 64, v / 64 % 32⟩

/-- Item 0x102 (R319; log 33, DEDUCED for the waits that its table does not name). -/
def State.statusItem (s : State) (th : Thread) : Nat :=
  let k := s.core th.ref.core
  match th.status with
  | .ready =>
    if k.recWarp.toNat = 64 * th.ref.lane + th.ref.slot ∧ k.trappc = th.pc then 10
    else if s.clock < th.readyAt then 1 else 0
  | .rejoin => 2
  | .barrier _ id => 3 + 16 * id
  | .barrierKeys _ id _ => 5 + 16 * id
  | .collective => 4
  | .kwait _ _ _ => 5
  | .keyed _ _ _ => 5
  | .page _ _ => 6
  | .mbrecv _ _ => 7
  | .sleep _ => 8
  | .obwait _ _ _ => 9
  | .hhatt => 3
  | .hhdet => 3
  | _ => 1

/-- A key's item (R319). -/
def State.keyItem (s : State) (k : KeyState) : Nat :=
  let cause := match k.fault with | some x => causeCode x.1 | none => 0
  let arr := match k.arrival with | .none => 0 | .armed _ _ => 1 | .held _ => 2
  let n := (k.producers.filter (fun i => s.ops.any (fun o => o.id == i))).length
  cause * 2 ^ 24 + arr * 2 ^ 22 + Nat.min n 4095

/-- The cause of the lowest-numbered faulted register. -/
def Thread.lowestMark (th : Thread) : Nat :=
  match th.marks.foldl (fun (b : Option (Nat × Cause)) m => match b with
    | some x => if m.1 < x.1 then some m else some x
    | none => some m) none with
  | some m => causeCode m.2
  | none => 0

/-- A register as SNAPR sees it: a faulted one reads zero. -/
def Thread.snapW (th : Thread) (r : Nat) : Word := if (assoc r th.marks).isSome then 0 else th.w.getD r 0

/-- The value of an item of a type; none is ILLEGAL_OPERAND (log 51, DEDUCED). -/
def State.readItem (s : State) (th : Thread) (item : Nat) (wide : Bool) : Option DWord :=
  let w := s.warpOf th
  if item ≤ 0xFE then
    (if wide then (if item % 2 = 0 ∧ item + 1 < th.alloc then some (th.snapW (item + 1) ++ th.snapW item) else none)
     else if item < th.alloc then some (ofWord (th.snapW item)) else none)
  else if 0x200 ≤ item ∧ item ≤ 0x23E then
    let u (k : Nat) : Word := if k ≥ 63 ∨ (assoc (512 + k) th.marks).isSome then 0 else w.u.getD k 0
    (if wide then (if item % 2 = 0 then some (u (item - 0x1FF) ++ u (item - 0x200)) else none) else some (ofWord (u (item - 0x200))))
  else if wide then
    (if item = 0x101 then some th.pc
     else if 0x104 ≤ item ∧ item ≤ 0x107 then some (th.calls.getD (item - 0x104) 0)
     else none)
  else if 0x240 ≤ item ∧ item ≤ 0x24F then
    some (BitVec.ofNat 64 (if item = 0x24F then 0 else s.keyItem (w.key (item - 0x240))))
  else match item with
    | 0x100 => some (BitVec.ofNat 64 (predWord (fun k => if k ≥ 7 then true else th.p.getD k false)))
    | 0x102 => some (BitVec.ofNat 64 (s.statusItem th))
    | 0x103 => some (BitVec.ofNat 64 th.calls.length)
    | 0x108 => some (match th.rep with | some r => BitVec.ofNat 64 (2 ^ 31 + r.j) | none => 0)
    | 0x109 => some (BitVec.ofNat 64 th.lowestMark)
    | 0x250 => some (BitVec.ofNat 64 w.rejoin.length)
    | 0x251 => some (if w.serial then 1 else 0)
    | _ => none

/-- A register item with a tracked result still pending. -/
def Thread.itemPending (th : Thread) (item : Nat) (wide : Bool) : Bool :=
  decide (item ≤ 0xFE) && (th.trackedOn item || (wide && th.trackedOn (item + 1)))

/-- SNAPR (R319). -/
def execSnapr (f : Fields) (s : State) : Host.Outcome State Fault Refusal :=
  issueOp 0x384 f s (fun c =>
    let item := f.imm.toNat % 2 ^ 16
    match c.selected with
    | none => .trap (TrapInfo.of .illegalOperand)
    | some th =>
      match c.s.readItem th item c.w with
      | none => .trap (TrapInfo.of .illegalOperand)
      | some v => if th.itemPending item c.w then .hold c.s else c.trackedValue c.w v)

/-- A write of uniform registers of a warp clears their faulted marks (R201). -/
def writeUni (core slot : Nat) (ks : List Nat) (f : List Word → List Word) (s : State) : State :=
  let s := s.modWarp core slot (fun w => { w with u := f w.u })
  { s with threads := s.threads.map (fun (t : Thread) =>
      if t.ref.core = core ∧ t.ref.slot = slot then { t with marks := t.marks.filter (fun m => !(ks.contains m.1)) } else t) }

/-- A handler sends a thread to `pc` (R319, R322): no repeat state is left, and a wait that it is in ends there. -/
def Thread.sendTo (pc : DWord) (t : Thread) : Thread :=
  { t with pc := pc, rep := none, line := none, cleared := none, edited := t.status != .ready }

/-- The state after an item is written; none is ILLEGAL_OPERAND (R319). -/
def State.writeItem (s : State) (th : Thread) (item : Nat) (wide : Bool) (v : DWord) : Option State :=
  let lo : Word := v.extractLsb' 0 32
  let hi : Word := v.extractLsb' 32 32
  let put (f : Thread → Thread) : Option State := some (s.modThread th.ref f)
  if item ≤ 0xFE then
    (if wide then (if item % 2 = 0 ∧ item + 1 < th.alloc then put (fun t => (t.putW item lo).putW (item + 1) hi) else none)
     else if item < th.alloc then put (fun t => t.putW item lo) else none)
  else if 0x200 ≤ item ∧ item ≤ 0x23E then
    let k := item - 0x200
    let go (f : List Word → List Word) : Option State :=
      some (writeUni th.ref.core th.ref.slot [512 + k, 512 + k + wide.toNat] f s)
    (if wide then (if item % 2 = 0 then go (fun u => (u.set k lo).set (k + 1) hi) else none) else go (fun u => u.set k lo))
  else if wide then
    (if item = 0x101 then (if pcSlot v ≥ 5 then none else put (Thread.sendTo v))
     else if 0x104 ≤ item ∧ item ≤ 0x107 ∧ item - 0x104 < th.calls.length then
       put (fun t => { t with calls := t.calls.set (item - 0x104) v })
     else none)
  else match item with
    | 0x100 => put (fun t => (List.range 7).foldl (fun t k => t.putP k (lo.getLsbD k)) t)
    | 0x108 => if v = 0 then put (fun t => { t with rep := none }) else none
    | _ => none

/-- SNAPW (R319). -/
def execSnapw (f : Fields) (s : State) : Host.Outcome State Fault Refusal :=
  issueOp 0x385 f s (fun c =>
    match c.selected with
    | none => .trap (TrapInfo.of .illegalOperand)
    | some th =>
      match c.s.writeItem th (f.imm.toNat % 2 ^ 16) c.w (c.regv 1 c.w f.b.toNat) with
      | none => .trap (TrapInfo.of .illegalOperand)
      | some s => .ok s)

/-! ## RETT (R322) -/

/-- RETT (R322): the recorded trap goes to the task's user trap entry and the core resumes, or d receives 1. -/
def execRett (f : Fields) (s : State) : Host.Outcome State Fault Refusal :=
  issueOp 0x386 f s (fun c =>
    match c.selected with
    | none => .trap (TrapInfo.of .illegalOperand)
    | some th =>
      let entry := match c.s.taskOf th with | some t => jcTrap t.card | none => 0
      if entry == 0 || (th.calls.length == 4 && th.callsp == spillLimit) then c.trackedValue false 1
      else
        let k := c.s.core c.r.core
        pushCall c.s th c.r k.trappc (fun s =>
          let s := s.modThread th.ref (Thread.sendTo entry)
          let s := writeUni th.ref.core th.ref.slot [512 + 62]
            (fun u => u.set 62 ((k.recCause &&& 0xFF) + BitVec.ofNat 32 (256 * th.ref.lane))) s
          .ok (resumeCore c.r.core s)))

/-! ## The watchdog (R328) -/

/-- The thread that WATCHDOG records: on the core of the lowest-ranked block with a live thread, the gang's thread of the lowest
slot, then lane. -/
def State.watchdogThread (s : State) (g : Nat) : Option Thread :=
  let bs := sortBy (fun (a b : Block) => decide (a.rank < b.rank)) (s.blocks.filter (fun b => b.gang == g))
  match bs.find? (fun b => !(s.threadsOfBlock b.uid).isEmpty) with
  | none => none
  | some b =>
    (sortBy (fun (x y : Thread) => decide (x.ref.slot * 32 + x.ref.lane < y.ref.slot * 32 + y.ref.lane))
      (s.threads.filter (fun t => t.ref.core == b.core && s.inGang g t))).head?

/-- WATCHDOG (R328): the trap is raised on the core of the lowest-ranked block that still has a live thread; it waits while a core
of the gang is stopped, and the counter starts again (log 53, DEDUCED). -/
def execWatchdog (gang : Nat) (s : State) : Host.Outcome State Fault Refusal :=
  match s.gang? gang, s.watchdogThread gang with
  | some g, some th =>
    if g.wdInterval = 0 || g.wdCount < g.wdLimit || g.phase == .saved || g.phase == .ended then .next s
    else if g.phase ≠ .running ∨ (s.coresOfGang gang).any (fun c => (s.core c).stopped.isSome) then .next (s.post (.watchdog gang))
    else
      let s := s.modGang gang (fun x => { x with wdCount := 0 })
      let s := s.modCore th.ref.core (fun k => { recordTrap th (TrapInfo.of .watchdog) k with stopped := some s.clock })
      .next (s.post (.trapWarpStart th.ref.core))
  | _, _ => .next s

/-! ## Machine checks and soft errors (R326, R327) -/

/-- CORE_SELF_TEST (R326): once the gangs of a core that met a machine check have ended, the core is reset and tested; it returns to
service or stays out of it, and the log holds the result. -/
def execCoreSelfTest (core : Nat) (pass : Bool) (s : State) : Host.Outcome State Fault Refusal :=
  let k := s.core core
  if !k.mcheck then .next s
  else if !(s.coreBlocks core).isEmpty then .next (s.post (.coreSelfTest core pass))
  else
    let s : State := { s with warps := s.warps.filter (fun w => !(Warp.at core 64 w)) }
    let s := s.setCore { Core.fresh core with ttab := k.ttab, fmterr := k.fmterr, inService := pass }
    let s := s.log 0x01 (core / 256) 0 0 k.trappc.toNat (core * 2 + pass.toNat)
    .next (wakeAdmission (core / 256) (if pass then s else s.count 9 0 0))

/-- CORRECTABLE_ERROR (R327): corrected in place and counted. -/
def execCorrectableError (unit : Nat) (s : State) : Host.Outcome State Fault Refusal := .next (s.count 0 unit 0)

/-- A register of a thread, or of the trap warp, holds an error. -/
def faultRegister (r : TRef) (reg : Nat) (s : State) : State :=
  if r.slot = 64 then (if (s.thread? r).isSome then machineCheck r.core s else s)
  else s.modThread r (fun t => { t with marks := (reg, .poison) :: dropMark reg t.marks })

/-- The SRAM or register-file unit of a site (R389): eight of a core, an L2, a Larder and the memory of a die (log 66, DEDUCED). -/
def siteUnit : ErrorSite → Nat
  | .l1Line core _ => core * 8
  | .icacheLine core _ => core * 8 + 1
  | .register t _ => t.core * 8 + 2
  | .uniform core _ _ => core * 8 + 2
  | .keyFile core _ => core * 8 + 3
  | .rejoinTable core _ => core * 8 + 4
  | .scratchpad core _ => core * 8 + 5
  | .accumulator core _ _ => core * 8 + 6
  | .trapWarp core => core * 8 + 7
  | .cleanL2 die _ => 24576 + die
  | .larder line => 24592 + dieOfLoc (line * 128) % 16
  | .dirtyLine line => memoryUnit (dieOfLoc (line * 128))

/-- UNCORRECTABLE_ERROR (R327): counted at its unit (R389) and handled by where it lies. -/
def execUncorrectableError (site : ErrorSite) (s : State) : Host.Outcome State Fault Refusal :=
  let s := s.count 1 (siteUnit site) 0
  match site with
  | .l1Line core line => .next (s.modCore core (Core.l1Drop (fun l => l.addr == line)))
  | .icacheLine core line => .next (s.modCore core (fun k => { k with icache := k.icache.filter (fun l => l.addr != line.toNat) }))
  | .cleanL2 die line =>
    .next (if ((s.tokens line).hold (.l2 die)).dirty then poisonLine line .poison s else evictLine die line s)
  | .larder _ => .next s
  | .dirtyLine line => .next (poisonLine line .poison s)
  | .register t reg => .next (faultRegister t reg s)
  | .uniform core slot reg =>
    .next ((s.threadsOfWarp core slot).foldl (fun s t => faultRegister t.ref (512 + reg) s) s)
  | .keyFile core slot =>
    .next (if slot = 64 then faultRegister ⟨core, 64, 0⟩ 0 s else s.modWarp core slot (fun w => { w with poisoned := true }))
  | .rejoinTable core slot =>
    .next (if slot = 64 then faultRegister ⟨core, 64, 0⟩ 0 s else s.modWarp core slot (fun w => { w with poisoned := true }))
  | .scratchpad core word => .next (s.modCore core (fun k => { k with badWords := word :: k.badWords.filter (· != word) }))
  | .accumulator core row col =>
    let n := 2 ^ 20 + (row * 256 + col) / 2
    .next (s.modCore core (fun k => { k with badWords := n :: k.badWords.filter (· != n) }))
  | .trapWarp core => .next (faultRegister ⟨core, 64, 0⟩ 0 s)

/-- POISON_SCRUB (R327): the line's poison is cleared. -/
def execPoisonScrub (line : Nat) (s : State) : Host.Outcome State Fault Refusal := .next (s.cleanLine line)

end Sys2Proof.Machine
end

