-- ==== Sys2Proof/Machine/Residency.lean ====
section
/-! DEFINITION. The path of a page fault (R303–R306), residency and denial (R302, R306), ATS and invalidation (R299, R307), context
numbers (R308, R309) and the tables that Serril writes (R154, R156, R158, R300, R360). -/

namespace Sys2Proof.Machine

/-! ## Contexts and PASIDs -/

def bindPasid (e : DWord) : Nat := e.toNat / 2 ^ 32 % 2 ^ 20
/-- The requests of context 0, Serril's, carry no PASID: this number stands for none (R308, R314; log 57, DEDUCED). -/
def noPasid : Nat := 1048576
/-- The PASID of a bound context (R308). -/
def State.pasidOf (s : State) (ctx : Nat) : Option Nat :=
  if ctx = 0 then some noPasid
  else match assoc ctx s.tabs.binds with | some e => if e.getLsbD 63 then some (bindPasid e) else none | none => none
/-- The context that a PASID is bound to. -/
def State.ctxOfPasid (s : State) (pasid : Nat) : Option Nat :=
  if pasid = noPasid then some 0
  else (s.tabs.binds.find? (fun b => b.2.getLsbD 63 && bindPasid b.2 == pasid)).map (·.1)

/-! ## Residency and denial (R302, R306) -/

/-- The entries of a page leave the filters and stages, and threads that found a full filter try again (R303). -/
def clearEntries (ctx page : Nat) (s : State) : State :=
  let s : State := { s with tx := { s.tx with
    filters := s.tx.filters.filter (fun e => !(e.on ctx page)), stages := s.tx.stages.filter (fun e => !(e.on ctx page)) } }
  { s with threads := s.threads.map (fun (t : Thread) => match t.status with
      | .page c p => if s.tx.filters.any (fun e => e.unit == t.ref.core && e.on c p) then t else t.replay (s.clock + 1)
      | _ => t) }

/-- PGREQs that await a page. -/
def State.requestsOn (s : State) (ctx page : Nat) : List Access :=
  s.accs.filter (fun a => a.op == .pgreq && a.ctx == ctx && a.phase == .resolved .absent && a.page == page)

/-- Engine operations that await a page. -/
def State.enginesOn (s : State) (ctx page : Nat) : List EngOp := s.engs.filter (fun e => e.phase == .pageWait ctx page)

/-- A PGREQ whose page has come performs at every scope (R302), where its consume key allows (R173); one that its home resolves otherwise
now reaches the home again. -/
def releaseRequest (s : State) (a : Access) : State :=
  match s.resolveAcc a, s.allPerformed a.waits a.scope with
  | .ok _, true => (s.performAt a.id 6).dropAcc a.id
  | _, _ => (s.modAcc a.id (fun a => { a with phase := .sent })).post (.homeResolve a.id)

/-- Threads that wait for a page go on as `f` says, which resets their gangs' watchdogs (R302, R306, R328). -/
def wakePage (ctx page : Nat) (f : Thread → Thread) (s : State) : State :=
  let s : State := s.threads.foldl (fun s t => if t.status = .page ctx page then s.progressOf t else s) s
  { s with threads := s.threads.map (fun (t : Thread) => if t.status = .page ctx page then f t else t) }

/-- Every waiter on a page is released (R302): threads replay, engine lines are accepted, PGREQs perform. -/
def releasePage (ctx page : Nat) (s : State) : State :=
  let s : State := wakePage ctx page (fun t => t.replay (s.clock + 1)) s
  let s : State := { s with tx := { s.tx with agents := s.tx.agents.filter (fun a => !(a.2.1 == ctx && a.2.2 == page)) } }
  let s := (s.enginesOn ctx page).foldl (fun s e =>
    let e := { e with phase := .accepted }
    let s := s.setEng e
    s.post (engineGo s e)) s
  settle (clearEntries ctx page ((s.requestsOn ctx page).foldl releaseRequest s))

/-- A page is denied (R306): its threads replay and raise PAGE_DENIED, PGREQs and engine operations end with a fault. -/
def denyPage (ctx page : Nat) (s : State) : State :=
  let mine := s.tx.agents.filter (fun a => a.2.1 == ctx && a.2.2 == page)
  let s : State := wakePage ctx page (fun t => { t.replay (s.clock + 1) with denied := some t.pc }) s
  let s : State := { s with tx := { s.tx with
    agents := s.tx.agents.filter (fun a => !(mine.contains a)), denials := s.tx.denials ++ mine,
    groups := s.tx.groups.filter (fun g => !(g.ctx == ctx && g.page == page)) } }
  let s := (s.enginesOn ctx page).foldl (fun s e => stopEng e .engineFault s) s
  let s := (s.requestsOn ctx page).foldl (fun s a => (s.failOp a.id .pageDenied 0).dropAcc a.id) s
  settle (clearEntries ctx page s)

/-- PAGE_RESIDENT_RELEASE (R302). -/
def execPageResidentRelease (ctx page : Nat) (s : State) : Host.Outcome State Fault Refusal := .next (releasePage ctx page s)

/-! ## Filters, stages and groups (R303–R305) -/

/-- FAULT_FILTER_FORWARD (R303): a new or widened entry goes on to the cluster's stage, while that has room. -/
def execFaultFilterForward (core ctx page : Nat) (s : State) : Host.Outcome State Fault Refusal :=
  match s.tx.filters.find? (fun e => e.unit == core && e.on ctx page) with
  | none => .next s
  | some e =>
    let k := stageOf core
    let is (x : FaultEntry) : Bool := x.unit == k && x.on ctx page
    let n := s.stageWaiters k ctx page
    match s.tx.stages.find? is with
    | some x =>
      let s' : State := { s with tx := { s.tx with stages := upsert is { x with ask := x.ask.join e.ask, waiters := n } s.tx.stages } }
      .next (if e.ask.within x.ask then s' else s'.post (.clusterStageForward k ctx page))
    | none =>
      if (s.tx.stages.filter (fun x => x.unit == k)).length ≥ 512 then .next (s.post (.faultFilterForward core ctx page))
      else .next (({ s with tx := { s.tx with stages := s.tx.stages ++ [{ e with unit := k, waiters := n }] } } : State).post
        (.clusterStageForward k ctx page))

/-- The group is outstanding. -/
def Group.sent (g : Group) : Bool := g.index.isSome
def sameGroup (pasid page : Nat) (g : Group) : Bool := g.pasid == pasid && g.page == page
def State.setGroup (g : Group) (s : State) : State :=
  { s with tx := { s.tx with groups := upsert (sameGroup g.pasid g.page) g s.tx.groups } }

/-- CLUSTER_STAGE_FORWARD (R304): the request joins the page's group, or starts one. While PRI is stopped a new fault is denied
(R306), and so is a page of a context without a PASID (log 57, DEDUCED). -/
def execClusterStageForward (cluster ctx page : Nat) (s : State) : Host.Outcome State Fault Refusal :=
  match s.tx.stages.find? (fun x => x.unit == cluster && x.on ctx page) with
  | none => .next s
  | some x =>
    match s.pasidOf ctx with
    | none => .next (denyPage ctx page s)
    | some pasid =>
      let n := s.pageWaiters ctx page
      if !s.tx.priOn then .next (denyPage ctx page s)
      else match s.tx.groups.find? (sameGroup pasid page) with
      | some g =>
        if !g.sent && g.count == 0 then .next (s.setGroup { g with ask := g.ask.join x.ask, waiters := n })
        else .next (s.setGroup { g with more := if x.ask.within g.ask then g.more else g.more.join x.ask, waiters := n })
      | none =>
        let g : Group := { pasid := pasid, ctx := ctx, page := page, ask := x.ask, more := .none, waiters := n, count := 0, index := none }
        .next ((s.setGroup g).post (.pageRequestGroup pasid page))

/-- Groups that may be outstanding at once (R305). -/
def State.groupLimit (s : State) : Nat := Nat.min 512 (s.tx.priAlloc / 16)

/-- A PRG index that no outstanding group has: the lowest (log 84, DESIGN CHOICE). -/
def State.freePrg (s : State) : Nat :=
  ((List.range 512).find? (fun i => !(s.tx.groups.any (fun g => g.index == some i)))).getD 0

/-- PAGE_REQUEST_GROUP (R305): the unit sends the group's 16 page requests, while PRI is on (R306) and fewer than the limit are outstanding. -/
def execPageRequestGroup (pasid page : Nat) (s : State) : Host.Outcome State Fault Refusal :=
  match s.tx.groups.find? (sameGroup pasid page) with
  | none => .next s
  | some g =>
    if g.sent then .next s
    else if !s.tx.priOn || decide ((s.tx.groups.filter (·.sent)).length ≥ s.groupLimit) then .next (s.post (.pageRequestGroup pasid page))
    else .next (s.setGroup { g with index := some s.freePrg, count := g.count + 1 })

/-! ## Responses (R306) -/

/-- The home of a page asks for a translation afresh: answers to older requests for the page no longer count (R306, R307). -/
def askAfresh (ctx page : Nat) (s : State) : State :=
  match s.pageHome ctx page with
  | some h => { s with tx := { s.tx with atsOut := s.tx.atsOut ++ [(h, ctx, page)] } }
  | none => s

/-- PRG_RESPONSE_SUCCESS (R306): the home asks for a fresh translation, once no invalidation of the page is outstanding (R310). -/
def execPrgResponseSuccess (pasid page : Nat) (s : State) : Host.Outcome State Fault Refusal :=
  match s.tx.groups.find? (fun g => sameGroup pasid page g && g.sent) with
  | none => .next s
  | some g =>
    if s.ctxOfPasid pasid ≠ some g.ctx then .next s
    else
      let s := s.setGroup { g with index := none }
      .next (if s.invalidating g.ctx page then s else askAfresh g.ctx page s)

/-- PRG_RESPONSE_INVALID_REQUEST (R306): the page is denied. -/
def execPrgResponseInvalidRequest (pasid page : Nat) (s : State) : Host.Outcome State Fault Refusal :=
  match s.tx.groups.find? (fun g => sameGroup pasid page g && g.sent) with
  | none => .next s
  | some g => .next (denyPage g.ctx page s)

/-- PRG_RESPONSE_FAILURE (R306): every outstanding group is denied, and no further group is sent until the driver re-enables
PRI. -/
def execPrgResponseFailure (pasid page : Nat) (s : State) : Host.Outcome State Fault Refusal :=
  match s.tx.groups.find? (fun g => sameGroup pasid page g && g.sent) with
  | none => .next s
  | some g =>
    let gs := s.tx.groups.filter (·.sent)
    let s := gs.foldl (fun s x => denyPage x.ctx x.page s) s
    let s : State := { s with tx := { s.tx with priOn := false } }
    .next (s.log 0x09 0 g.ctx 0 (page * 65536) 0)

/-- PRI_REENABLE (R306): the driver enables PRI again, with the allocation of page requests that the host sets (R305; log 86, DESIGN CHOICE). -/
def execPriReenable (s : State) : Host.Outcome State Fault Refusal :=
  let (n, s) := s.choice
  .next { s with tx := { s.tx with priOn := true, priAlloc := Nat.min (Config.priAllocation n) Config.priCapacity } }

/-! ## ATS (R299, R307) -/

/-- The rights that every part grants (R299). -/
def AtsReply.rights (r : AtsReply) : Rights :=
  match r.parts with
  | [] => noRights
  | x :: xs => xs.foldl (fun a b => ⟨a.read && b.read, a.write && b.write, a.exec && b.exec⟩) x

/-- A home's cache takes a translation, and the entries of its walk; the oldest of a full cache leaves (R299; logs 75 and 81, DESIGN CHOICE). -/
def fillTranslation (x : TransEntry) (s : State) : State :=
  let keep := s.tx.tcache.filter (fun t => !(t.home == x.home && t.ctx == x.ctx && t.page == x.page))
  let w := (x.home, x.ctx, x.page / 512)
  let walks := s.tx.walks.filter (· != w)
  let room {α : Type} (n : Nat) (mine : α → Bool) (l : List α) : List α :=
    if (l.filter mine).length < n then l else l.eraseP mine
  { s with tx := { s.tx with
    tcache := room Config.transEntries (fun t => t.home == x.home) keep ++ [x],
    walks := room Config.walkEntries (fun v => v.1 == x.home) walks ++ [w] } }

/-- Some right is among both. -/
def rightsMeet (a b : Rights) : Bool := (a.read && b.read) || (a.write && b.write) || (a.exec && b.exec)

/-- What follows for a page's group when the page is resident for some waiter: one that is outstanding awaits its response; another ends,
but for the wider rights that were joined to it, which a further group asks (R304). -/
def Group.served (got : Rights) (g : Group) : Option Group :=
  if g.sent then some g
  else if g.more = .none ∨ rightsCover got g.more.rights then none
  else some { g with ask := g.more, more := .none, count := 0 }

/-- A translation has come for a page: its waiters are released where it grants some of them their right (R302); else a group that was
answered asks again, at most 16 times (R306). -/
def settleGroup (ctx page : Nat) (got : Rights) (s : State) : State :=
  let waits := s.tx.filters.filter (FaultEntry.on ctx page)
  let mine (g : Group) : Bool := g.ctx == ctx && g.page == page
  if waits.any (fun e => rightsMeet got e.ask.rights) then
    let s : State := { s with tx := { s.tx with groups := s.tx.groups.filterMap (fun g => if mine g then g.served got else some g) } }
    (s.post (.pageResidentRelease ctx page)).postAll ((s.tx.groups.filter (fun g => mine g && !g.sent)).map (fun g => .pageRequestGroup g.pasid page))
  else match s.tx.groups.find? (fun g => mine g && !g.sent && g.count != 0) with
  | none => s
  | some g =>
    -- an earlier answer has released every waiter
    if waits.isEmpty then { s with tx := { s.tx with groups := s.tx.groups.filter (fun g => !(mine g)) } }
    else if g.count ≥ 16 then denyPage ctx page s
    else (s.setGroup { g with ask := g.ask.join g.more, more := .none }).post (.pageRequestGroup g.pasid page)

/-- ATS_TRANSLATION_COMPLETION (R299): the home takes the translation, and the accesses that it held resolve. An answer for a number no
longer bound is discarded (R309), and so is one that a later request of the page or an invalidation overtakes (R306, R307, R310). -/
def execAtsTranslationCompletion (ctx page : Nat) (reply : AtsReply) (s : State) : Host.Outcome State Fault Refusal :=
  match s.tx.atsOut.find? (fun o => o.2.1 == ctx && o.2.2 == page) with
  | none => .next s
  | some o =>
    let s : State := { s with tx := { s.tx with atsOut := s.tx.atsOut.erase o } }
    let held := s.accs.filter (fun a => a.phase == .translating && a.ctx == ctx && a.page == page)
    if (s.pasidOf ctx).isNone || s.tx.atsOut.any (fun o => o.2.1 == ctx && o.2.2 == page) then .next s
    else
      let t := s.postAll (held.map (fun a => .homeResolve a.id))
      if s.invalidating ctx page then .next t
      else
        let got := AtsReply.rights reply
        .next (settleGroup ctx page got (fillTranslation { home := o.1, ctx := ctx, page := page, tpage := reply.tpage, rights := got } t))

/-- Pages of a context in a range. -/
def inRange (lo hi page : Nat) : Bool := decide (lo ≤ page) && decide (page ≤ hi)

/-- ATS_INVALIDATE_REQUEST (R307): the range is invalidating; accesses that reach a home for it are held. -/
def execAtsInvalidateRequest (pasid lo hi : Nat) (s : State) : Host.Outcome State Fault Refusal :=
  if s.tx.invs.length ≥ 32 then .next s
  else .next (({ s with tx := { s.tx with invs := s.tx.invs ++ [(pasid, lo, hi)] } } : State).post (.invalidateCompletion pasid lo hi))

/-- The lines of a frame that a holder other than the home may hold. -/
def State.tokenLinesIn (s : State) (base : Nat) : List Nat :=
  (s.fab.tokens.filter (fun t => decide (base / 128 ≤ t.line) && decide (t.line < base / 128 + 512))).map (·.line)

/-- The frames under which some translations of a context serve accesses. -/
def State.framesOf (s : State) (ctx : Nat) (pages : Nat → Bool) : List Nat :=
  (s.tx.tcache.filter (fun t => t.ctx == ctx && pages t.page)).filterMap (fun t =>
    match attrOf (s.attrEntry ctx t.page) with
    | none => none
    | some a => match s.resolveAt t.home ctx t.page a noRights with | .ok p => some p.base | _ => none)

/-- The lines of which some token holder took its copy for a context (R308). -/
def State.linesOfCtx (s : State) (ctx : Nat) : List Nat :=
  (s.fab.tokens.filter (fun t => t.holds.any (fun h => h.ctx == ctx && decide (h.count > 0)))).map (·.line)

/-- The lines of a context's pages that a holder other than the home may hold: those of the pages' frames, and those that were taken for
the context and lie in no frame of another page whose translation its home still holds. -/
def State.linesIn (s : State) (ctx : Nat) (pages : Nat → Bool) : List Nat :=
  let others := (s.framesOf ctx (fun p => !(pages p))).map (· / 65536)
  ((s.framesOf ctx pages).flatMap s.tokenLinesIn ++ (s.linesOfCtx ctx).filter (fun l => !(others.contains (l / 512)))).eraseDups

/-- Everything of a context in a range of pages is dropped: the lines recalled to their homes, the translations and the walks, every L1 line
of the context (R307, R309); true unless a recall has to wait. -/
def dropPages (ctx : Nat) (pages : Nat → Bool) (s : State) : State × Bool :=
  let (s, ok) := recallLines (s.linesIn ctx pages) 0 s
  if !ok then (s, false)
  else
    ({ s with
      tx := { s.tx with
        tcache := s.tx.tcache.filter (fun t => !(t.ctx == ctx && pages t.page)),
        walks := s.tx.walks.filter (fun w => !(w.2.1 == ctx && (List.range 512).any (fun i => pages (w.2.2 * 512 + i)))) },
      cores := s.cores.map (Core.l1Drop (fun l => l.ctx == ctx)) }, true)

/-- An access of a context in a range of pages. -/
def Access.within (ctx lo hi : Nat) (a : Access) : Bool :=
  a.ctx == ctx && a.mode != .scratch && (inRange lo hi a.page || a.pages.any (fun p => inRange lo hi p.1))

/-- An access accepted under an entry of the range has not performed at system scope, those of saved gangs included (R330). -/
def State.accIn (s : State) (ctx lo hi : Nat) : Bool :=
  (s.accs ++ s.sch.saved.flatMap (·.accs)).any (fun a => (a.phase == .accepted || a.phase == .coreDone || a.phase == .visible) && a.within ctx lo hi)

/-- Accesses that their homes have resolved under a dropped entry and not accepted resolve again from step 1 of R299 (R307); a PGREQ that
waits in the fault path stays there (R303). -/
def resolveAgain (ctx lo hi : Nat) (s : State) : State :=
  let again := s.accs.filter (fun a => a.within ctx lo hi && !(a.op == .pgreq && a.phase == .resolved .absent) &&
    (match a.phase with | .resolved _ => true | _ => false))
  let s := again.foldl (fun s a => s.modAcc a.id (fun a => { a with phase := .sent, pages := [] })) s
  s.postAll (again.map (fun a => .homeResolve a.id))

/-- The pages of a range that await a translation or the answer to a group: the fresh request follows the invalidation (R310). -/
def State.askedIn (s : State) (ctx lo hi : Nat) : List Nat :=
  ((s.tx.atsOut.filter (fun o => o.2.1 == ctx && inRange lo hi o.2.2)).map (·.2.2) ++
    (s.tx.groups.filter (fun g => g.ctx == ctx && inRange lo hi g.page && !g.sent && g.count != 0)).map (·.page)).eraseDups

/-- INVALIDATE_COMPLETION (R307): every access accepted under a dropped entry has performed, no move of an affected page goes on,
every line has been recalled; an engine's later lines take the new translation. -/
def execInvalidateCompletion (pasid lo hi : Nat) (s : State) : Host.Outcome State Fault Refusal :=
  if !(s.tx.invs.contains (pasid, lo, hi)) then .next s
  else
    let done (s : State) : State := { s with tx := { s.tx with invs := s.tx.invs.erase (pasid, lo, hi), invDone := s.tx.invDone + 1 } }
    match s.ctxOfPasid pasid with
    | none => .next (done s)
    | some ctx =>
      if s.accIn ctx lo hi || s.fab.moves.any (fun m => m.ctx == ctx && inRange lo hi m.page && m.phase != .request) then
        .next (s.post (.invalidateCompletion pasid lo hi))
      else match dropPages ctx (inRange lo hi) s with
        | (s, false) => .next (s.post (.invalidateCompletion pasid lo hi))
        | (s, true) =>
          let fresh (e : EngOp) : EngOp :=
            { e with lines := e.lines.filter (fun k => !(e.ctx == ctx && inRange lo hi (globPage (s.lineGlob e (BitVec.ofNat 64 (k / 8 * 128)))))) }
          let s := resolveAgain ctx lo hi (done { s with engs := s.engs.map fresh })
          .next ((s.askedIn ctx lo hi).foldl (fun s p => askAfresh ctx p s) s)

/-! ## Context numbers (R308, R309) -/

/-- The settings of a context as Serril keeps them: a private size of whole 4 KiB, of at least one and no more than a pointer reaches (R23). -/
def keptSettings (x : Nat × Bool × Word × Nat) : CtxConfig :=
  { privSize := Nat.max 1 (Nat.min (x.1 / 4096) (2 ^ 28)) * 4096, checkAll := x.2.1, fpen := x.2.2.1, wdInterval := x.2.2.2 }

/-- CONTEXT_BIND (R308, R382): once the module is ready, a PASID is bound to at most one number; a number whose sweep runs
is bound once it has ended. The context's settings, which the driver chooses, come with the binding (log 86, DESIGN CHOICE). -/
def execContextBind (ctx pasid : Nat) (s : State) : Host.Outcome State Fault Refusal :=
  let e := (assoc ctx s.tabs.binds).getD 0
  if s.boot.stage < 5 ∨ ctx = 0 ∨ ctx ≥ 4096 ∨ pasid ≥ 2 ^ 20 then .next s
  else if e.getLsbD 62 then .next (s.post (.contextBind ctx pasid))
  else if (s.ctxOfPasid pasid).isSome ∨ e.getLsbD 63 then .next s
  else
    let (n, s) := s.choice
    .next { s with tabs := { s.tabs with
      binds := setAssoc ctx (BitVec.ofNat 64 (2 ^ 63 + pasid * 2 ^ 32)) s.tabs.binds,
      ctxs := setAssoc ctx (keptSettings (Config.ctxSettings n ctx)) s.tabs.ctxs } }

/-- CONTEXT_UNBIND (R309): the sweep starts; Serril refuses while a gang of the context is resident or saved, or a group or an
invalidation of its PASID is outstanding. -/
def execContextUnbind (ctx : Nat) (s : State) : Host.Outcome State Fault Refusal :=
  match s.pasidOf ctx with
  | none => .next s
  | some pasid =>
    if ctx = 0 || s.gangs.any (fun g => g.ctx == ctx) || s.tx.groups.any (fun g => g.pasid == pasid) || s.tx.invs.any (fun i => i.1 == pasid) then
      .next s
    else
      let e := (assoc ctx s.tabs.binds).getD 0
      .next (({ s with tabs := { s.tabs with binds := setAssoc ctx (e ||| BitVec.ofNat 64 (2 ^ 62)) s.tabs.binds } } : State).post
        (.retireSweepEnd ctx))

/-- The lines that the bridges hold for a context go back (R308, R309). -/
def dropBridge (ctx : Nat) (s : State) : State :=
  let host (l : Nat) : Bool := s.ext.hostCache.any (fun x => x.line == l && x.ctx == ctx)
  let pool (l : Nat) : Bool := s.ext.poolCache.any (fun x => x.line == l && x.ctx == ctx)
  let s := releasePool pool (writeBackPool pool (releaseHost host s))
  { s with ext := { s.ext with asked := s.ext.asked.filter (fun x => x.2 != ctx) } }

/-- RETIRE_SWEEP_END (R309): everything tagged with the number has been dropped or recalled, and the number is free. -/
def execRetireSweepEnd (ctx : Nat) (s : State) : Host.Outcome State Fault Refusal :=
  if !(((assoc ctx s.tabs.binds).getD 0).getLsbD 62) then .next s
  else match dropPages ctx (fun _ => true) (dropBridge ctx s) with
    | (s, false) => .next (s.post (.retireSweepEnd ctx))
    | (s, true) => .next { s with
        tabs := { s.tabs with binds := eraseAssoc ctx s.tabs.binds },
        tx := { s.tx with atsOut := s.tx.atsOut.filter (fun o => o.2.1 != ctx) },
        cores := s.cores.map (fun (k : Core) => { k with icache := k.icache.filter (fun l => l.ctx != ctx) }) }

/-! ## Tables that Serril writes -/

/-- An entry that is 0 is not listed. -/
def setEntry {κ β : Type} [DecidableEq κ] [DecidableEq β] (zero : β) (k : κ) (v : β) (l : List (κ × β)) : List (κ × β) :=
  if v = zero then eraseAssoc k l else setAssoc k v l

/-- HOME_WINDOW_WRITE (R154): accesses of the window that await a translation go to its new home, which asks for its own (R155). -/
def execHomeWindowWrite (ctx win : Nat) (entry : DWord) (s : State) : Host.Outcome State Fault Refusal :=
  let inWin (page : Nat) : Bool := if page ≥ 2 ^ 48 then win == privWindow else page / 2 ^ 30 % 2 ^ 11 == win
  let held := s.accs.filter (fun a => a.phase == .translating && a.ctx == ctx && inWin a.page)
  .next (({ s with tabs := { s.tabs with windows := setEntry 0 (ctx, win) entry s.tabs.windows } } : State).postAll
    (held.map (fun a => .homeResolve a.id)))

/-- ATTRIBUTE_ENTRY_WRITE (R156): the page's migration counter starts again. -/
def execAttributeEntryWrite (ctx page : Nat) (entry : DWord) (s : State) : Host.Outcome State Fault Refusal :=
  .next { s with
    tabs := { s.tabs with attrs := setEntry 0 (ctx, page) entry s.tabs.attrs },
    fab := { s.fab with counters := eraseAssoc (ctx, page) s.fab.counters } }

/-- A buffer entry that Serril takes (R158). -/
def bufLegal (e : BitVec 128) : Bool :=
  decide (recBits e.toNat 103 100 ≤ 8) && decide (recBits e.toNat 99 92 ≤ 191) && recBits e.toNat 91 81 == 0

/-- An access under a buffer entry has not performed; those of a gang that is pre-empted wait with it (R330). -/
def State.handleInFlight (s : State) (ctx idx : Nat) : Bool :=
  (s.accs ++ s.sch.saved.flatMap (·.accs)).any (fun a =>
    a.ctx == ctx && (match decodePtr a.ptr with | some (.handle i _ _) => i == idx | _ => false))

/-- An engine's operation sees that the entry of a buffer has changed since its acceptance (R160). -/
def EngOp.sees (ctx idx : Nat) (e : EngOp) : EngOp := if e.ctx = ctx then { e with changed := idx :: e.changed } else e

/-- BUFFER_ENTRY_CHANGE (R158, R159): a legal entry takes effect once the accesses that passed their check under the old one have
performed. A table's length is one more than the highest index ever written (log 87, DESIGN CHOICE). -/
def execBufferEntryChange (ctx idx : Nat) (entry : BitVec 128) (s : State) : Host.Outcome State Fault Refusal :=
  if !(bufLegal entry) || decide (idx ≥ 2 ^ 20) then .next s
  else if s.handleInFlight ctx idx then .next (s.post (.bufferEntryChange ctx idx entry))
  else
    let len := (assoc ctx s.tabs.bufLen).getD 0
    .next { s with
      tabs := { s.tabs with
        bufs := setEntry 0 (ctx, idx) entry s.tabs.bufs, bufLen := setAssoc ctx (Nat.max len (idx + 1)) s.tabs.bufLen },
      engs := s.engs.map (EngOp.sees ctx idx),
      sch := { s.sch with saved := s.sch.saved.map (fun v => { v with engs := v.engs.map (EngOp.sees ctx idx) }) } }

/-- The free frames, all of which exist, that Serril gives migration engines (R348). -/
def givenFrames (device n : Nat) : List FreeFrame :=
  ((Config.givenFrames n).map (fun x => (⟨x.1, x.2.1, x.2.2.1, x.2.2.2⟩ : FreeFrame))).filter (fun f => decide (f.engine < Config.cellarDies) &&
    (if f.hbm then (hallFrame device f.die f.frame).isSome else f.die == f.engine && (cellarFrame device f.die f.frame).isSome))

/-- FRAME_MAP_WRITE (R300): Serril writes an entry, and with it may give migration engines free frames that exist (R348; log 58,
DESIGN CHOICE). -/
def execFrameMapWrite (home : Home) (tpage : Nat) (entry : DWord) (s : State) : Host.Outcome State Fault Refusal :=
  let (n, s) := s.choice
  .next { s with
    tabs := { s.tabs with frames := setEntry 0 (home, tpage) entry s.tabs.frames },
    fab := { s.fab with freeFrames := (s.fab.freeFrames ++ (givenFrames s.device n)).eraseDups } }

/-- POOL_SEGMENT_BIND (R360). -/
def execPoolSegmentBind (seg port base len : Nat) (s : State) : Host.Outcome State Fault Refusal :=
  if seg ≥ 1024 ∨ port ≥ 6 then .next s
  else
    let g : Segment := { seg := seg, port := port, base := base, len := len, lost := s.ext.portsLost.contains port, poisoned := false, cleared := [] }
    .next { s with tabs := { s.tabs with segs := upsert (fun x => x.seg == seg) g s.tabs.segs } }

end Sys2Proof.Machine
end

