-- ==== Sys2Proof/Machine/Migration.lean ====
section
/-! DEFINITION. Page moves (R348, R349), retired links and lost dies (R350, R351, R353), the modules of the Afrik domain (R365,
R368). -/

namespace Sys2Proof.Machine

/-! ## Moves -/

def State.move? (s : State) (id : Nat) : Option Move := s.fab.moves.find? (fun m => m.id == id)
def State.setMove (m : Move) (s : State) : State :=
  { s with fab := { s.fab with moves := upsert (fun x => x.id == m.id) m s.fab.moves } }
def State.dropMove (id : Nat) (s : State) : State :=
  { s with fab := { s.fab with moves := s.fab.moves.filter (fun m => m.id != id) } }

def Move.active (m : Move) : Bool := m.phase != .request
/-- The frame-map entry of the page that a move moves. -/
def Move.entry (s : State) (m : Move) : DWord := (assoc (m.home, m.tpage) s.tabs.frames).getD 0
def setFrame (m : Move) (e : DWord) (s : State) : State :=
  { s with tabs := { s.tabs with frames := setAssoc (m.home, m.tpage) e s.tabs.frames } }

/-- MIGRATION_DRIVER_REQUEST (R348): the driver asks for a named page to be moved up, to HBM4E, or down. -/
def execMigrationDriverRequest (ctx page : Nat) (up : Bool) (s : State) : Host.Outcome State Fault Refusal :=
  match s.pageHome ctx page with
  | none => .next s
  | some h =>
    if !(movesHere s.device h) then .next s
    else
    let (id, s) := s.fresh
    let m : Move :=
      { id := id, home := h, ctx := ctx, page := page, tpage := 0, up := up, engine := 0, srcLoc := 0, dst := 0, phase := .request,
        heldAt := none }
    .next ((s.setMove m).post (.migrationClaim id))

/-- Moves that a cellar die's engine has in flight (R348). -/
def State.engineMoves (s : State) (engine : Nat) : Nat := (s.fab.moves.filter (fun x => x.active && x.engine == engine)).length

/-- The free frames that a move from a location may claim: of HBM4E of the page's own home, in the pool of the engine of the cellar die that
the page leaves; of LPDDR-6, in any engine's pool (R348; log 58, DESIGN CHOICE). -/
def State.framesFor (s : State) (m : Move) (src : Nat) : List FreeFrame :=
  match m.home with
  | .hall _ die => s.fab.freeFrames.filter (fun f =>
      f.hbm == m.up && (!m.up || (f.die == die && f.engine == src / 2 ^ 64 / 8 % 16)))
  | _ => []

/-- Where a claimed frame lies, and the frame-map entry that names it (R300). -/
def framePlace (device : Nat) (f : FreeFrame) : Nat × Nat :=
  if f.hbm then (hallBase device f.die + f.frame * 65536, 2 ^ 63 + f.frame)
  else (cellarBase device f.die + f.frame * 65536, 2 ^ 63 + 2 ^ 60 + f.die * 2 ^ 49 + f.frame)

/-- The frame of an engine's pool that a location is. -/
def frameAt (engine loc : Nat) : FreeFrame :=
  { engine := engine, hbm := loc / 2 ^ 64 % 8 == 0, die := loc / 2 ^ 64 / 8 % 16, frame := loc % 2 ^ 64 / 65536 }

/-- The place of a page from which a move in a direction may start. -/
def moveSource (s : State) (m : Move) : Option Nat :=
  match attrOf (s.attrEntry m.ctx m.page) with
  | none => none
  | some a => match s.frameBase m.home a (m.entry s) with
    | some b => if b / 2 ^ 64 % 8 = (if m.up then 1 else 0) then some b else none
    | none => none

/-- The translated page of a page that is to move, at its home: none where the home has no translation of it. -/
def State.pageAt (s : State) (m : Move) : Option Nat := (s.translation m.home m.ctx m.page).map (·.tpage)

/-- MIGRATION_CLAIM (R349): a home without a translation of the page asks for one; the move takes a destination frame of an engine that has fewer than 16 moves in flight, sets fm.move, and goes
on to the recall; without a free frame it is dropped, and the log says so (R348). -/
def execMigrationClaim (move : Nat) (s : State) : Host.Outcome State Fault Refusal :=
  match s.move? move with
  | none => .next s
  | some m =>
    if m.active then .next s
    else if (s.pasidOf m.ctx).isNone then .next (s.dropMove move)
    else match s.pageAt m with
    | none => .next ((requestTranslation m.ctx m.page s).post (.migrationClaim move))
    | some tpage =>
    let m := { m with tpage := tpage }
    match moveSource s m with
    | none => .next (s.dropMove move)
    | some src =>
      let pool := s.framesFor m src
      if fmMove (m.entry s) then .next (s.dropMove move)
      else if pool.isEmpty then .next ((s.dropMove move).log 0x08 (dieOfLoc src) m.ctx 0 (m.page * 65536) 0)
      else match pool.find? (fun f => decide (s.engineMoves f.engine < 16)) with
      | none => .next (s.post (.migrationClaim move))
      | some f =>
        let s : State := { s with fab := { s.fab with freeFrames := s.fab.freeFrames.erase f } }
        let s := setFrame m (m.entry s ||| BitVec.ofNat 64 (2 ^ 59)) s
        let s := s.setMove { m with engine := f.engine, dst := (framePlace s.device f).1, phase := .recall, srcLoc := src }
        .next (s.postAll [.migrationCopy move, .migrationAbandon move])

/-- A location lies in the frame that starts at `base`. -/
def inFrame (base loc : Nat) : Bool := decide (base ≤ loc) && decide (loc < base + 65536)

/-- The bytes of the source frame, copied over the destination's. -/
def copyFrame (src dst : Nat) (m : List Host.Cell) : List Host.Cell :=
  let moved := (m.filter (fun c => inFrame src c.1)).map (fun c => (c.1 - src + dst, c.2))
  let kept := m.filter (fun c => !(inFrame dst c.1))
  moved.foldl (fun m c => Memory.write c.1 c.2 m) kept

/-- The move is abandoned (R349): fm.move is clear, the source stays, the destination returns to the pool. -/
def abandonMove (m : Move) (s : State) : State :=
  let s := setFrame m (m.entry s &&& ~~~ (BitVec.ofNat 64 (2 ^ 59))) s
  let s : State := { s with fab := { s.fab with freeFrames := s.fab.freeFrames ++ [frameAt m.engine m.dst] } }
  (s.dropMove m.id).log 0x08 (12 + m.engine) m.ctx 0 (m.page * 65536) 1

/-- MIGRATION_COPY (R349): with every token of its lines at the home the page is copied; a line whose data cannot be read
abandons the move. -/
def execMigrationCopy (move : Nat) (s : State) : Host.Outcome State Fault Refusal :=
  match s.move? move with
  | none => .next s
  | some m =>
    if m.phase ≠ .recall then .next s
    else match recallLines (s.tokenLinesIn m.srcLoc) move s with
    | (s, false) => .next (s.post (.migrationCopy move))
    | (s, true) =>
      if (s.poisonOf m.srcLoc 65536).isSome then .next (abandonMove m s)
      else
        let s : State := { s with
          mem := copyFrame m.srcLoc m.dst s.mem,
          past := s.past.filter (fun e => !(inFrame m.dst e.2.1)),
          poison := s.poison.filter (fun p => !(decide (m.dst / 128 ≤ p.1) && decide (p.1 < m.dst / 128 + 512))) }
        .next ((s.setMove { m with phase := .copied }).post (.migrationSwitch move))

/-- What an access says of a page that has moved, and what the machine remembers of its bytes (R168). -/
def movedLoc (src dst loc : Nat) : Nat := if inFrame src loc then loc - src + dst else loc
def Access.moved (src dst : Nat) (a : Access) : Access :=
  { a with loc := if a.mode = .scratch then a.loc else movedLoc src dst a.loc, pages := a.pages.map (fun p => (p.1, movedLoc src dst p.2)) }

/-- MIGRATION_SWITCH (R349): in one step the frame map names the destination, fm.move is clear and the source frame is free; held
writes and atomics apply to the destination. -/
def execMigrationSwitch (move : Nat) (s : State) : Host.Outcome State Fault Refusal :=
  match s.move? move with
  | none => .next s
  | some m =>
    if m.phase ≠ .copied then .next s
    else match recallLines (s.tokenLinesIn m.srcLoc) move s with
    | (s, false) => .next (s.post (.migrationSwitch move))
    | (s, true) =>
      let e := (framePlace s.device (frameAt m.engine m.dst)).2
      let s := setFrame m (BitVec.ofNat 64 e) s
      let gone (l : CacheLine) : Bool := decide (m.srcLoc / 128 ≤ l.addr) && decide (l.addr < m.srcLoc / 128 + 512)
      .next (State.dropMove move { s with
        accs := s.accs.map (Access.moved m.srcLoc m.dst),
        past := s.past.map (fun e => (e.1, movedLoc m.srcLoc m.dst e.2.1, e.2.2)),
        sch := { s.sch with saved := s.sch.saved.map (fun x => { x with accs := x.accs.map (Access.moved m.srcLoc m.dst) }) },
        cores := s.cores.map (Core.l1Drop gone),
        fab := { s.fab with freeFrames := s.fab.freeFrames ++ [frameAt m.engine m.srcLoc] } })

/-- A write or an atomic is held by a move. -/
def State.holdsWrite (s : State) (m : Move) : Bool :=
  s.accs.any (fun a => a.op.want.write && a.mode != .scratch && inFrame m.srcLoc a.loc)

/-- 40 µs. -/
def moveCycles : Nat := 56000

/-- MIGRATION_ABANDON (R349): a move that has not switched 40 µs after it first held a write is abandoned; until then it is watched. -/
def execMigrationAbandon (move : Nat) (s : State) : Host.Outcome State Fault Refusal :=
  match s.move? move with
  | none => .next s
  | some m =>
    if !m.active then .next s
    else
      let m := if m.heldAt.isNone && s.holdsWrite m then { m with heldAt := some s.clock } else m
      match m.heldAt with
      | some t => if s.clock ≥ t + moveCycles then .next (abandonMove m s) else .next ((s.setMove m).post (.migrationAbandon move))
      | none => .next (s.post (.migrationAbandon move))

/-! ## Retired links and lost dies (R350, R351) -/

/-- Tasks that are not complete fail with their failure value; one whose completion word cannot be written yet stays (R351). -/
def failTask (s : State) (t : Task) : State :=
  if t.complete then s
  else
    let (s, ok) := writeDone s t.die t.ctx (jcDone t.card) (jcFailval t.card)
    { s with tasks := s.tasks.map (fun (x : Task) => if x.num = t.num then { x with failed := true, complete := ok } else x) }
def failTasks (s : State) : State := s.tasks.foldl failTask s

/-- Every task fails; the module stops and accepts no work until it is reset (R351) (log 59, DEDUCED). -/
def stopModule (s : State) : State :=
  let s := failTasks s
  { s with
    cores := s.cores.map (fun (k : Core) => { k with stopped := some (k.stopped.getD s.clock), halted := true }),
    boot := { s.boot with dead := true, viral := true } }

/-- A link of a message that is retired gives way to another: of the same die (R350), or of another path (R366). -/
def otherLink (s : State) (m : TokenMsg) (l : Nat) : List Nat :=
  if (s.link l).mode ≠ .retired then [l]
  else if l < 72 then [s.dieLink (l / 4) m.line]
  else match m.dest with
    | .peer d => match s.pathTo d m.line with | some p => [portLink p.1] | none => []
    | _ => []

/-- The link is retired: a message that has not left its sender takes another, and over Afrik so does one that the receiver has not
acknowledged (R366). -/
def reroute (link : Nat) (s : State) : State :=
  let go (m : TokenMsg) : TokenMsg :=
    if m.links.contains link && (!m.sent || decide (link ≥ 72)) then { m with links := m.links.flatMap (otherLink s m) } else m
  let s : State := { s with fab := { s.fab with msgs := s.fab.msgs.map go } }
  s.fab.msgs.foldl (fun s m => wakeLinks m.links s) (launch s)

/-- A path whose local port's link is retired is gone; a module that no path reaches is lost to this one after 100 µs (R368). -/
def cutPaths (port : Nat) (s : State) : State :=
  let left (m : Module) : List (Nat × Nat) := m.paths.filter (fun p => p.1 != port)
  let cut := s.ext.modules.filter (fun m => m.reachable && !m.paths.isEmpty && (left m).isEmpty)
  let s : State := { s with ext := { s.ext with modules := s.ext.modules.map (fun (m : Module) =>
    { m with paths := left m, cut := if m.reachable && !m.paths.isEmpty && (left m).isEmpty then some s.clock else m.cut }) } }
  s.postAll (cut.map (fun m => .moduleLost m.dev))

/-- LINK_RETIRE (R350): a link whose training fails, or that stays Waking or Retraining for 100 µs, is retired; the lines of a package
link's replay buffer are recreated (R353), and a die whose last link goes is lost (R351); what an Afrik port has not delivered goes by another
path (R366). -/
def execLinkRetire (link : Nat) (s : State) : Host.Outcome State Fault Refusal :=
  let l := s.link link
  if l.mode ≠ .waking ∧ l.mode ≠ .retraining then .next s
  else
    let die := if link < 72 then link / 4 else (link - 72) / 3
    let s := (s.setLink { l with mode := .retired, since := s.clock }).count 7 0 0
    let s := s.log 0x04 die 0 0 0 link
    let lines := ((s.fab.replay.filter (fun x => x.link == link)).map (·.line)).eraseDups
    let s : State := { s with fab := { s.fab with replay := s.fab.replay.filter (fun x => x.link != link) } }
    if link ≥ 72 then .next (reroute link (cutPaths (link - 72) s))
    else
      let s := reroute link (s.postAll (lines.map .tokenRecreation))
      if (List.range 4).all (fun i => (s.link (4 * die + i)).mode == .retired) then .next ((stopModule s).log 0x02 die 0 0 0 die)
      else .next s

/-! ## Modules of the Afrik domain -/

def State.modModule (dev : Nat) (f : Module → Module) (s : State) : State :=
  let x := (s.ext.modules.find? (fun m => m.dev == dev)).getD
    { dev := dev, reachable := false, lost := false, demand := 0, granted := 0, paths := [], cut := none }
  { s with ext := { s.ext with modules := upsert (fun m => m.dev == dev) (f x) s.ext.modules } }

/-- The Afrik ports of a module. -/
def afrikPorts : Nat := 36
/-- The up to eight paths that Serril chooses for a destination module (R364; log 3, DESIGN CHOICE). -/
def chosenPaths (n dev : Nat) : List (Nat × Nat) :=
  ((Config.afrikPaths n dev).filter (fun p => decide (p.1 < afrikPorts) && decide (p.2 < afrikPorts))).take 8

/-- MODULE_REACHABLE (R255): the domain starts with the module among it, and Serril chooses its paths (R364). -/
def execModuleReachable (dev : Nat) (s : State) : Host.Outcome State Fault Refusal :=
  if dev ≥ 60 ∨ dev = s.device then .next s
  else
    let (n, s) := s.choice
    .next (({ s with agenda := s.agenda.filter (· != .moduleLost dev) } : State).modModule dev (fun m =>
      { m with reachable := true, lost := false, paths := chosenPaths n dev, cut := none }))

/-- The gang ranks of a household that lie on a module. -/
def Household.ranksOn (h : Household) (device dev : Nat) : List Nat :=
  (List.range h.ngang).filter (fun r => h.modules.getD r device == dev)

/-- Gangs of a household on a lost module have departed: threads that wait for them trap HH_DEPARTED (R368, R369). -/
def departAway (dev : Nat) (s : State) (h : Household) : State :=
  let rs := h.ranksOn s.device dev
  if rs.isEmpty then s
  else
    let cs := s.coresOfHh h.uid
    let s := s.modHh h.uid (fun h => rs.foldl (fun h r => cs.foldl (fun h c => h.setCopy c r .detached) { h with att := h.att.set r .detached }) h)
    let s := postHeldEnds h.uid (cs.foldl (fun s c => departedTraps h.uid c s) s)
    s.postAll ((s.sch.colls.filter (fun i => i.hh == h.uid)).map (fun i => .collCompute i.id))

/-- MODULE_LOST (R368): no path has reached the module for 100 µs: its homes fail, tokens that it held are recreated, its gangs count as
departed. -/
def execModuleLost (dev : Nat) (s : State) : Host.Outcome State Fault Refusal :=
  if !(s.ext.modules.any (fun m => m.dev == dev)) then .next s
  else if s.ext.modules.any (fun m => m.dev == dev && m.cut.any (fun t => decide (s.clock < t + retireCycles))) then
    .next (s.post (.moduleLost dev))
  else
    let s := s.modModule dev (fun m => { m with reachable := false, lost := true, paths := [], cut := none })
    let lines := (s.fab.tokens.filter (fun t => t.holds.any (fun h => h.holder == .peer dev && decide (h.count > 0)))).map (·.line)
    let s := s.postAll (lines.map .tokenRecreation)
    .next (s.hhs.foldl (departAway dev) s)

/-- AFRIK_DEMAND (R365): a source announces its demand. -/
def execAfrikDemand (dev bytes : Nat) (s : State) : Host.Outcome State Fault Refusal :=
  if !(s.ext.modules.any (fun m => m.dev == dev)) then .next s
  else .next ((s.modModule dev (fun m => { m with demand := m.demand + bytes })).postOnce (.afrikGrant dev))

/-- AFRIK_GRANT (R365): a grant of 4 KiB; sources with demand take turns. -/
def execAfrikGrant (dev : Nat) (s : State) : Host.Outcome State Fault Refusal :=
  match s.ext.modules.find? (fun m => m.dev == dev) with
  | none => .next s
  | some m =>
    if m.demand = 0 then .next s
    else
      let s := s.modModule dev (fun m => { m with demand := m.demand - 4096, granted := m.granted + 4096 })
      .next (if m.demand > 4096 then s.postOnce (.afrikGrant dev) else s)

end Sys2Proof.Machine
end

