-- ==== Sys2Proof/Machine/Host.lean ====
section
/-! DEFINITION. The host's accesses to memory of the module (R354–R357), host memory behind the bridge (R358), and the pooled
tier (R360–R363). -/

namespace Sys2Proof.Machine

/-- A line of the module's own memory. -/
def State.ownLine (s : State) (line : Nat) : Bool :=
  let p := line / 2 ^ 57
  decide (p % 8 ≤ 1) && p / 8 / 16 == s.device

/-- A line of the host's memory. -/
def hostMemLine (line : Nat) : Bool := line / 2 ^ 57 % 8 == 2

/-! ## The host and memory of the module (R355–R357) -/

/-- The bridge asks for what it needs of a line as an L2 slice would, with requests of R341 and R343 (R356): a token with data, or every
token; true once it has that. -/
def bridgeDemand (line : Nat) (write : Bool) (s : State) : State × Bool := demandLines .hostBridge [line] write ⟨0, 0, 0⟩ s

/-- Entries of the host-state table (R355). -/
def hostTableSize : Nat := 4194304

/-- A full table makes the bridge back-invalidate the line that it granted least recently (R355); true once there is room for a line. -/
def tableRoom (line : Nat) (s : State) : State × Bool :=
  if s.hostHolds line || decide (s.ext.hostTable.length < hostTableSize) then (s, true)
  else match s.ext.hostTable.head? with
  | some x => snoopInv (x.line * 128) 128 s
  | none => (s, true)

/-- The host is granted a state of a half, for which the table has room (R355). -/
def grantHalf (line half : Nat) (st : HalfState) (s : State) : State :=
  let s := s.setHalf line half st
  let is (x : HostLine) : Bool := x.line == line
  { s with ext := { s.ext with hostTable := s.ext.hostTable.filter (fun x => !(is x)) ++ s.ext.hostTable.filter is } }

/-- The response that returns a half. -/
def answerHalf (line half : Nat) (s : State) : State :=
  s.answerLine line (s.readBytes (line * 128 + half * 64) 64) (s.poisonOf (line * 128) 128).isSome

/-- HOST_READ_NO_CACHE (R356): the bridge has at least one token with data, and returns the half; the request waits until then. -/
def execHostReadNoCache (line half : Nat) (s : State) : Host.Outcome State Fault Refusal :=
  if !(s.ownLine line) || decide (half ≥ 2) then .next s
  else
    let (s, ok) := bridgeDemand line false s
    .next (if ok then answerHalf line half s else s.post (.hostReadNoCache line half))

/-- The bridge grants the host a state of a half, once the table has room for the line and the bridge every token of it; a page move holds a
grant of Any, with which the host writes (R349). -/
def hostRead (line half : Nat) (st : HalfState) (again : Instr) (s : State) : State :=
  if st = .any ∧ s.heldByMove (line * 128) = true then s.post again
  else
    let (s, room) := tableRoom line s
    if !room then s.post again
    else
      let (s, ok) := bridgeDemand line true s
      if ok then answerHalf line half (grantHalf line half st s) else s.post again

/-- HOST_READ_SHARED (R356). -/
def execHostReadShared (line half : Nat) (s : State) : Host.Outcome State Fault Refusal :=
  if !(s.ownLine line) || decide (half ≥ 2) then .next s else .next (hostRead line half .shared (.hostReadShared line half) s)

/-- HOST_READ_ANY (R356). -/
def execHostReadAny (line half : Nat) (s : State) : Host.Outcome State Fault Refusal :=
  if !(s.ownLine line) || decide (half ≥ 2) then .next s else .next (hostRead line half .any (.hostReadAny line half) s)

/-- What the host keeps of a half that it writes with metastate `st`: no more than a back-invalidation that it answers leaves it (R357). -/
def State.keptHalf (s : State) (line half : Nat) (st : HalfState) : HalfState :=
  if s.ext.snoops.contains (line, half, true) then .invalid
  else if s.ext.snoops.contains (line, half, false) && st == .any then .shared
  else st

/-- Bytes of a half take new values. -/
def writeHalf (line half : Nat) (bytes : List (Nat × Byte)) (s : State) : State :=
  (bytes.filter (fun x => decide (x.1 < 64))).foldl (fun s x => s.writeBytes (line * 128 + half * 64 + x.1) [x.2]) s

/-- A host store to host memory (R359): the bridge first gives up the line, if it has it (R358). -/
def hostStore (line half : Nat) (st : HalfState) (bytes : List (Nat × Byte)) (s : State) : State :=
  let l := 2 * line + half
  if s.ext.hostCache.any (fun x => x.line == l) then (s.postOnce (.hostSnoop l true)).post (.hostWrite line half st bytes)
  else writeHalf line half bytes s

/-- The write of a half that the host does not own has to wait: a page move (R349) or an STT .aon (R170) holds its line. -/
def State.hostWriteHeld (s : State) (line half : Nat) : Bool :=
  s.hostHalf line half != .any && (s.heldByMove (line * 128) || s.tileHolds 0 (line * 128))

/-- HOST_WRITE (R356): the bytes named of the half go into the bridge's copy, which holds every token; the state of the half is what
the request's metastate says. It answers a back-invalidation of the half, also where it names no byte (R357; log 64, DEDUCED). -/
def execHostWrite (line half : Nat) (st : HalfState) (bytes : List (Nat × Byte)) (s : State) :
    Host.Outcome State Fault Refusal :=
  let again : Instr := .hostWrite line half st bytes
  if half ≥ 2 then .next s
  else if hostMemLine line then .next (hostStore line half st bytes s)
  else if !(s.ownLine line) then .next s
  else if s.hostWriteHeld line half then .next (s.post again)
  else
    let (s, room) := if st = .invalid then (s, true) else tableRoom line s
    if !room then .next (s.post again)
    else
      let (s, ok) := bridgeDemand line true s
      if !ok then .next (s.post again)
      else
        let st := s.keptHalf line half st
        let s : State := { s with ext := { s.ext with snoops := s.ext.snoops.filter (fun x => x.1 != line || x.2.1 != half) } }
        let s := writeHalf line half bytes (s.setTokens ((s.tokens line).soil .hostBridge))
        .next (if st = .invalid then s.setHalf line half .invalid else grantHalf line half st s)

/-- BICONFLICT (R357): a back-invalidation of a half has met a host request for its line; the bridge sends the conflict message
of the handshake, which orders the two, and each then takes its own effect (log 12, PRESUMED). -/
def execBiconflict (line half : Nat) (s : State) : Host.Outcome State Fault Refusal :=
  if !(s.ownLine line) || decide (half ≥ 2) then .next s else .next (s.answerLine line [] false)

/-! ## Host memory (R358) -/

/-- Lines of the host-line cache, and of a pool bridge's buffer (R358, R361). -/
def bridgeLines : Nat := 524288

/-- The context for which a line of a bridge was asked (R308), and that line no longer asked for. -/
def State.askedCtx (s : State) (line : Nat) : Nat := ((s.ext.asked.find? (fun x => x.1 == line)).map (·.2)).getD 0
def dropAsked (line : Nat) (s : State) : State :=
  { s with ext := { s.ext with asked := s.ext.asked.filter (fun x => x.1 != line) } }

/-- HOST_LINE_FETCH (R358): RdShared or RdOwn of a 64-byte line; a full cache first gives up its oldest line. -/
def execHostLineFetch (line : Nat) (own : Bool) (s : State) : Host.Outcome State Fault Refusal :=
  if s.ext.hostCache.any (fun x => x.line == line && (x.own || !own)) then .next s
  else
    let x : BridgeLine := match s.ext.hostCache.find? (fun x => x.line == line) with
      | some o => { o with own := own }
      | none => { line := line, own := own, dirty := false, ctx := s.askedCtx line }
    let rest := s.ext.hostCache.filter (fun x => x.line != line)
    let s := match decide (rest.length ≥ bridgeLines), rest.head? with
      | true, some first => releaseHost (· == first.line) s
      | _, _ => s
    .next (dropAsked line { s with ext := { s.ext with hostCache := s.ext.hostCache.filter (fun x => x.line != line) ++ [x] } })

/-- DIRTY_EVICT (R358): a dirty line goes back to the host and leaves the cache. -/
def execDirtyEvict (line : Nat) (s : State) : Host.Outcome State Fault Refusal :=
  .next (if s.ext.hostCache.any (fun x => x.line == line && x.dirty) then releaseHost (· == line) s else s)

/-- HOST_SNOOP (R358): the bridge answers from its host-line cache: an invalidating snoop takes the line, another leaves it shared. -/
def execHostSnoop (line : Nat) (inv : Bool) (s : State) : Host.Outcome State Fault Refusal :=
  match s.ext.hostCache.find? (fun x => x.line == line) with
  | none => .next (s.answerLine line [] false)
  | some x =>
    let bs := if x.dirty then s.readBytes (line * 64) 64 else []
    let s := s.answerLine line bs (s.poisonOf (line * 64) 64).isSome
    let rest := s.ext.hostCache.filter (fun x => x.line != line)
    .next { s with ext := { s.ext with hostCache := if inv then rest else rest ++ [{ x with own := false, dirty := false }] } }

/-! ## The pooled tier (R360–R363) -/

/-- What a pool line holds when a bridge fetches it that had given it up: other accelerators of the pool may have written it meanwhile
(R361; log 3, DESIGN CHOICE). -/
def freshLine (line : Nat) (s : State) : State :=
  let (n, s) := s.choice
  if Config.poolChanged n then s.writeBytes (line * 128) ((List.range 128).map (fun i => Config.openByte (n * 128 + i))) else s

/-- POOL_LINE_FETCH (R361): both halves come with metastate Any, and the bridge creates the line's 32 tokens; a full buffer first
gives up its oldest line. Nothing comes through a lost port. -/
def execPoolLineFetch (line : Nat) (s : State) : Host.Outcome State Fault Refusal :=
  if !(poolLine line) || s.ext.portsLost.contains (portOf line) then .next s
  else if s.ext.poolCache.any (fun x => x.line == line && x.own) then .next s
  else
    let old := s.ext.poolCache.find? (fun x => x.line == line)
    let mine := s.ext.poolCache.filter (fun x => portOf x.line == portOf line)
    let s := match old, decide (mine.length ≥ bridgeLines), mine.head? with
      | none, true, some first => releasePool (· == first.line) (writeBackPool (· == first.line) s)
      | _, _, _ => s
    let s := if old.isNone then freshLine line s else s
    let x : BridgeLine := { line := line, own := true, dirty := false, ctx := match old with | some o => o.ctx | none => s.askedCtx line }
    let t : TokenLine :=
      { line := line, epoch := (s.tokens line).epoch, home := 0, homeOwner := false,
        holds := [{ holder := .poolBridge (portOf line), count := 32, owner := true, data := true, dirty := false, policy := 0, ctx := 0 }] }
    let s : State := { s with ext := { s.ext with poolCache := s.ext.poolCache.filter (fun x => x.line != line) ++ [x] } }
    .next (dropAsked line (s.setTokens t))

/-- A back-invalidation snoop of the pool (R362): dirty data goes back with the answer, and the line is released or stays Shared. -/
def poolSnoop (line : Nat) (inv : Bool) (s : State) : State :=
  match s.ext.poolCache.find? (fun x => x.line == line) with
  | none => s.answerLine line [] false
  | some x =>
    let bs := if x.dirty then s.readBytes (line * 128) 128 else []
    let s := s.answerLine line bs (s.poisonOf (line * 128) 128).isSome
    if inv then releasePool (· == line) s
    else { s with ext := { s.ext with poolCache := s.ext.poolCache.map (fun x =>
      if x.line = line then { x with own := false, dirty := false } else x) } }

/-- POOL_BISNPINV (R362). -/
def execPoolBisnpinv (line : Nat) (s : State) : Host.Outcome State Fault Refusal := .next (poolSnoop line true s)

/-- POOL_BISNPDATA (R362). -/
def execPoolBisnpdata (line : Nat) (s : State) : Host.Outcome State Fault Refusal := .next (poolSnoop line false s)

/-- Entries of a port's loss list (R363). -/
def lossListSize : Nat := 1048576

/-- A dirty line of a lost port enters the port's loss list; when that is full, the line's segment is poisoned. -/
def loseLine (port : Nat) (s : State) (line : Nat) : State :=
  if (s.ext.lossList.filter (fun x => x.1 == port)).length < lossListSize then
    { s with ext := { s.ext with lossList := s.ext.lossList ++ [(port, line)] } }
  else
    { s with tabs := { s.tabs with segs := s.tabs.segs.map (fun g => if g.hasLine line then { g with poisoned := true, cleared := [] } else g) } }

/-- An access goes to a segment of the port; one that has been accepted, and one that its home has resolved and not accepted yet. -/
def State.toPort (s : State) (port : Nat) (a : Access) : Bool :=
  match a.mode with
  | .pool seg => s.tabs.segs.any (fun g => g.seg == seg && g.port == port)
  | _ => false
def State.accOfPort (s : State) (port : Nat) (a : Access) : Bool := (a.phase == .accepted || a.phase == .coreDone) && s.toPort port a
def State.pendingOfPort (s : State) (port : Nat) (a : Access) : Bool := a.phase == .resolved .ok && s.toPort port a

/-- POOL_PORT_LOST (R363): every segment of the port is lost; accesses accepted before fail, clean lines are dropped, dirty ones
are recorded. -/
def execPoolPortLost (port : Nat) (s : State) : Host.Outcome State Fault Refusal :=
  if port ≥ 6 ∨ s.ext.portsLost.contains port = true then .next s
  else
    let dirty := (s.ext.poolCache.filter (fun x => portOf x.line == port && x.dirty)).map (·.line)
    let failing := (s.accs.filter (s.accOfPort port)).map (·.id)
    let lost (a : Access) : Access := if s.pendingOfPort port a then { a with phase := .resolved .poolLost } else a
    let s : State :=
      { s with
        tabs := { s.tabs with segs := s.tabs.segs.map (fun g => if g.port = port then { g with lost := true } else g) },
        ext := { s.ext with portsLost := s.ext.portsLost ++ [port] },
        accs := s.accs.map lost }
    let s := dirty.foldl (loseLine port) s
    let s := releasePool (fun l => portOf l == port) s
    let s := failing.foldl (fun s id => failAccess id .poolLost s) s
    .next (s.log 0x07 (12 + port) 0 0 0 port)

def State.dropLoss (g : Segment) (s : State) : State :=
  { s with ext := { s.ext with lossList := s.ext.lossList.filter (fun x => !(g.hasLine x.2)) } }

/-- POOL_SEGMENT_REATTACH (R363): the segment returns to service; the lines of the loss list stay poisoned. -/
def execPoolSegmentReattach (seg : Nat) (s : State) : Host.Outcome State Fault Refusal :=
  match s.tabs.segs.find? (fun g => g.seg == seg) with
  | none => .next s
  | some g =>
    if !g.lost then .next s
    else
      let lines := (s.ext.lossList.filter (fun x => g.hasLine x.2)).map (·.2)
      let s := (lines.foldl (fun s l => poisonLine l .poison s) s).dropLoss g
      let s : State :=
        { s with
          tabs := { s.tabs with segs := s.tabs.segs.map (fun x => if x.seg = seg then { x with lost := false } else x) },
          ext := { s.ext with portsLost := s.ext.portsLost.filter (· != g.port) } }
      .next (s.log 0x07 (12 + g.port) 0 0 0 g.port)

/-- What a lost line of the pool holds once its segment is unmapped: the bytes that were never written back are gone (log 3, DESIGN CHOICE) (log 65, DEDUCED). -/
def forgetLine (s : State) (line : Nat) : State :=
  let (n, s) := s.choice
  s.writeBytes (line * 128) ((List.range 128).map (fun i => Config.openByte (n * 128 + i)))

/-- POOL_SEGMENT_UNMAP (R363): the segment's home-window entries become invalid, and its loss list is discarded. -/
def execPoolSegmentUnmap (seg : Nat) (s : State) : Host.Outcome State Fault Refusal :=
  match s.tabs.segs.find? (fun g => g.seg == seg) with
  | none => .next s
  | some g =>
    if !g.lost then .next s
    else
      let lines := (s.ext.lossList.filter (fun x => g.hasLine x.2)).map (·.2)
      let s := (lines.foldl forgetLine s).dropLoss g
      let s : State := { s with tabs := { s.tabs with
        windows := s.tabs.windows.filter (fun w => homeOfEntry s.device w.2 != some (.pool s.device seg)),
        segs := s.tabs.segs.filter (fun x => x.seg != seg) } }
      .next (s.log 0x07 (12 + g.port) 0 0 0 g.port)

end Sys2Proof.Machine
end

