-- ==== Sys2Proof/Machine/Shake.lean ====
section
/-! DEFINITION. SHAKE256 with 256 bits of output, which R383–R385 and R389 name: the sponge of FIPS 202 over Keccak-f[1600] (log 92,
PRESUMED). -/

namespace Sys2Proof.Machine

/-- The state's lane at column x and row y is number x + 5 y. -/
abbrev Keccak := List DWord

def Keccak.lane (a : Keccak) (x y : Nat) : DWord := a.getD (x % 5 + 5 * (y % 5)) 0

/-- The 25 lanes, by column and row. -/
def Keccak.make (f : Nat → Nat → DWord) : Keccak := (List.range 25).map (fun i => f (i % 5) (i / 5))

/-- θ: each lane takes the parities of two columns. -/
def Keccak.theta (a : Keccak) : Keccak :=
  let c := (List.range 5).map (fun x => a.lane x 0 ^^^ a.lane x 1 ^^^ a.lane x 2 ^^^ a.lane x 3 ^^^ a.lane x 4)
  Keccak.make (fun x y => a.lane x y ^^^ c.getD ((x + 4) % 5) 0 ^^^ (c.getD ((x + 1) % 5) 0).rotateLeft 1)

/-- The rotation of each lane, in the order of their numbers. -/
def keccakTurns : List Nat :=
  [0, 1, 62, 28, 27, 36, 44, 6, 55, 20, 3, 10, 43, 25, 39, 41, 45, 15, 21, 8, 18, 2, 61, 56, 14]

/-- ρ and π: lane (x, y) turns, and comes from column x + 3 y, row x. -/
def Keccak.move (a : Keccak) : Keccak :=
  Keccak.make (fun x y => (a.lane (x + 3 * y) x).rotateLeft (keccakTurns.getD ((x + 3 * y) % 5 + 5 * x) 0))

/-- χ: each lane takes the two that follow in its row. -/
def Keccak.chi (a : Keccak) : Keccak := Keccak.make (fun x y => a.lane x y ^^^ (~~~ (a.lane (x + 1) y) &&& a.lane (x + 2) y))

/-- The constants of ι. -/
def keccakConstants : List DWord :=
  [0x0000000000000001, 0x0000000000008082, 0x800000000000808A, 0x8000000080008000, 0x000000000000808B, 0x0000000080000001,
   0x8000000080008081, 0x8000000000008009, 0x000000000000008A, 0x0000000000000088, 0x0000000080008009, 0x000000008000000A,
   0x000000008000808B, 0x800000000000008B, 0x8000000000008089, 0x8000000000008003, 0x8000000000008002, 0x8000000000000080,
   0x000000000000800A, 0x800000008000000A, 0x8000000080008081, 0x8000000000008080, 0x0000000080000001, 0x8000000080008008]

def Keccak.round (a : Keccak) (rc : DWord) : Keccak :=
  let b := a.theta.move.chi
  b.set 0 (b.lane 0 0 ^^^ rc)

/-- Keccak-f[1600]. -/
def Keccak.permute (a : Keccak) : Keccak := keccakConstants.foldl Keccak.round a

/-- Bytes of a block that SHAKE256 takes in at once. -/
def shakeRate : Nat := 136

/-- The padding of a message of n bytes: bits 1111, a 1, zeros, and a 1 at the end of the block. -/
def shakePad (n : Nat) : List Byte :=
  let k := shakeRate - n % shakeRate
  if k = 1 then [0x9F] else [0x1F] ++ List.replicate (k - 2) 0 ++ [0x80]

/-- A block enters the state. -/
def Keccak.absorb (a : Keccak) (block : List Byte) : Keccak :=
  Keccak.permute ((List.range 25).map (fun i => a.getD i 0 ^^^ BitVec.ofNat 64 (leValue ((block.drop (8 * i)).take 8))))

def Keccak.absorbAll : Nat → Keccak → List Byte → Keccak
  | 0, a, _ => a
  | n + 1, a, bs => Keccak.absorbAll n (a.absorb (bs.take shakeRate)) (bs.drop shakeRate)

/-- SHAKE256 of a string of bytes; the first byte of the output is the least significant of the value. -/
def shake256 (msg : List Byte) : BitVec 256 :=
  let bs := msg ++ shakePad msg.length
  let a := Keccak.absorbAll (bs.length / shakeRate) (List.replicate 25 0) bs
  a.getD 3 0 ++ a.getD 2 0 ++ a.getD 1 0 ++ a.getD 0 0

end Sys2Proof.Machine
end

