-- ==== Sys2Proof/Machine/Health.lean ====
section
/-! DEFINITION. Reset and boot (R382–R384), attestation (R385, R386), power and cooling (R387, R388), lifetime records (R389). -/

namespace Sys2Proof.Machine

/-! ## Reset (R382) -/

/-- The check of a flash copy of the lifetime records: over its sequence number and its counters (R389; log 66, DEDUCED). -/
def lifeCheck (seq : Nat) (l : List (Nat × Nat)) : BitVec 256 :=
  shake256 (bytesOf 8 seq ++ l.flatMap (fun x => bytesOf 8 x.1 ++ bytesOf 6 x.2))

/-- The newer copy that passes its check, and its sequence number (R389). -/
def newestCopy (fl : List (Nat × List (Nat × Nat) × Option (BitVec 256))) : Nat × List (Nat × Nat) :=
  (fl.filter (fun x => x.2.2 == some (lifeCheck x.1 x.2.1))).foldl (fun best x => if x.1 ≥ best.1 then (x.1, x.2.1) else best) (0, [])

/-- The module without power: what lies in flash, in fuses and in memory outside the module stays (R384, R386, R389, R390). A copy of the
lifetime records whose commit was under way is lost. -/
def unpowered (s : State) : State :=
  { State.reset with
    device := s.device, free := s.free, sched := s.sched, mem := s.mem, poison := s.poison, agenda := [],
    boot := { State.reset.boot with
      fuse := s.boot.fuse, otp := s.boot.otp, images := s.boot.images, log := s.boot.log, logSeq := s.boot.logSeq, logLost := s.boot.logLost,
      life := (newestCopy s.boot.flash).2, flash := s.boot.flash.filter (fun x => x.2.2.isSome) } }

/-- POWER_LOSS (R386, R389): counts that were not committed are lost; an index that was burned stays burned. -/
def execPowerLoss (s : State) : Host.Outcome State Fault Refusal := .next (unpowered s)

/-- POWER_GOOD_RESET (R382): every die but cellar die 0 is held in reset and the boot ROM starts. -/
def execPowerGoodReset (s : State) : Host.Outcome State Fault Refusal := .next ((unpowered s).post .bootStage)

/-! ## Measurements (R383) -/

/-- Measuring an image into a measurement register. -/
def measure (i : Nat) (x : List Byte) (s : State) : State :=
  let d := shake256 x
  let new := shake256 (bytesOf 32 (s.boot.mr.getD i 0).toNat ++ bytesOf 32 d.toNat)
  { s with boot := { s.boot with mr := s.boot.mr.set i new } }

/-- MEASUREMENT_EXTEND (R383): MR8–MR15, at run time. -/
def execMeasurementExtend (reg : Nat) (data : List Byte) (s : State) : Host.Outcome State Fault Refusal :=
  if s.boot.stage < 5 ∨ reg < 8 ∨ reg > 15 then .next s else .next (measure reg data s)

/-! ## Boot (R382, R384) -/

/-- The key that an image carries is the firmware key, by the digest in the fuses, and its signature of the image verifies under it (R384). -/
def State.imageGood (s : State) (img : List Byte) : Bool :=
  shake256 (Config.imageKey img) == s.boot.fuse && Config.xmssVerify (Config.imageKey img) (Config.imageSignature img) (Config.imageBody img)

/-- Measures a firmware image, then checks it; true where it is good (R384). -/
def loadImage (mr : Nat) (img : List Byte) (s : State) : State × Bool := (measure mr img s, s.imageGood img)

/-- What the ROM measures as the module's configuration: its part number, DCK-915, its serial number and its fuses (R383). -/
def moduleConfig : List Byte := [0x44, 0x43, 0x4B, 0x2D, 0x39, 0x31, 0x35] ++ Config.serialNumber ++ Config.fuseSettings

def State.finishStage (n : Nat) (s : State) : State :=
  let s := { s with boot := { s.boot with stage := n } }
  if n < 5 then s.post .bootStage else s
def State.failStage (n : Nat) (s : State) : State := { s with boot := { s.boot with failed := some n } }

/-- A location of the module's own memory, its scratchpads among it. -/
def ownLoc (device loc : Nat) : Bool :=
  let p := loc / 2 ^ 64
  match p % 8 with
  | 0 => p / 8 / 16 == device
  | 1 => p / 8 / 16 == device
  | 4 => true
  | _ => false

/-- Serril tests a core: one that fails is out of service (R326), and the log records it (R382). -/
def bootCore (s : State) (c : Nat) : State :=
  let (n, s) := s.choice
  let good := Config.selfTest n c
  let s := s.setCore { Core.fresh c with ttab := pcLine (Config.bootTrapTable c), inService := good }
  if good then s else (s.log 0x0A (c / 256) 0 0 0 c).count 9 0 0

/-- BOOT_STAGE (R382): the next stage of the boot finishes (log 66, DEDUCED). -/
def execBootStage (s : State) : Host.Outcome State Fault Refusal :=
  if s.boot.failed.isSome then .next s
  else match s.boot.stage with
  | 0 =>
    let s : State := { s with boot := { s.boot with mr := List.replicate 16 0, locked := false } }
    .next ((measure 4 moduleConfig (measure 0 (Config.romIdentity 0) s)).finishStage 1)
  | 1 =>
    let (s, ok) := loadImage 1 (s.boot.images.getD 0 []) s
    if ok then .next (({ s with fab := { s.fab with links := [] } } : State).finishStage 2) else .next (s.failStage 2)
  | 2 =>
    let (s, ok) := loadImage 2 (s.boot.images.getD 1 []) s
    if !ok then .next (s.failStage 3)
    else
      let (s, ok) := loadImage 3 (s.boot.images.getD 2 []) s
      if ok then .next (({ s with boot := { s.boot with locked := true } } : State).finishStage 3) else .next (s.failStage 3)
  | 3 =>
    let s := (List.range Config.cores).foldl bootCore s
    let keep (loc : Nat) : Bool := !(ownLoc s.device loc)
    .next (State.finishStage 4 { s with
      mem := s.mem.filter (fun c => keep c.1), poison := s.poison.filter (fun p => keep (p.1 * 128)),
      sch := { s.sch with porches := [], queueSize := [] } })
  | 4 => .next (s.finishStage 5)
  | _ => .next s

/-! ## Attestation (R385, R386) -/

/-- ERROR (UnsupportedRequest) for a request. -/
def unsupported (request : Nat) (s : State) : State := respond spdmError [0x07, BitVec.ofNat 8 request] s

/-- GET_VERSION (R385): versions 1.2 and 1.3. -/
def execGetVersion (s : State) : Host.Outcome State Fault Refusal := .next (respond 0x04 [0x12, 0x13] s)

/-- GET_CAPABILITIES (R385). -/
def execGetCapabilities (s : State) : Host.Outcome State Fault Refusal := .next (respond 0x61 (Config.spdmCapabilities 0) s)

/-- An extended algorithm of DSP0274: a registry and a number there (log 12, PRESUMED). -/
def extendedField (number : BitVec 16) : List Byte := [Config.registry, 0] ++ bytesOf 2 number.toNat

/-- NEGOTIATE_ALGORITHMS (R385): the requester selects the XMSS signature, the SHAKE256 hash, both or neither: the answer counts the
extended algorithms of each kind that are selected, and names them. -/
def execNegotiateAlgorithms (asym hash : Bool) (s : State) : Host.Outcome State Fault Refusal :=
  if s.boot.stage < 5 then .next s
  else
    let s : State := { s with boot := { s.boot with spdmAlgs := (asym, hash) } }
    .next (respond 0x63 ([if asym then 1 else 0, if hash then 1 else 0] ++ (if asym then extendedField Config.xmssNumber else []) ++
      (if hash then extendedField Config.shakeNumber else [])) s)

/-- GET_DIGESTS (R385), for slot 0. -/
def execGetDigests (slot : Nat) (s : State) : Host.Outcome State Fault Refusal :=
  if slot = 0 then .next (respond 0x01 (bytesOf 32 (shake256 (Config.certChain 0)).toNat) s)
  else .next (unsupported 0x81 s)

/-- GET_CERTIFICATE (R385), for slot 0. -/
def execGetCertificate (slot : Nat) (s : State) : Host.Outcome State Fault Refusal :=
  if slot = 0 then .next (respond 0x02 (Config.certChain 0) s) else .next (unsupported 0x82 s)

/-- A request for a signed response is accepted (R385, R386): it takes its turn behind those accepted before it; a requester that has selected
neither algorithm gets an ERROR. -/
def signed (request code : Nat) (payload nonce : List Byte) (s : State) : State :=
  if s.boot.stage < 5 then s
  else if !s.boot.spdmAlgs.1 && !s.boot.spdmAlgs.2 then unsupported request s
  else { s with boot := { s.boot with signing := s.boot.signing ++ [⟨request, code, payload, nonce, none⟩] } }

/-- CHALLENGE (R386). -/
def execChallenge (slot : Nat) (nonce : List Byte) (s : State) : Host.Outcome State Fault Refusal :=
  if slot = 0 then .next (signed 0x83 0x03 (bytesOf 32 (shake256 (Config.certChain 0)).toNat) nonce s)
  else .next (unsupported 0x83 s)

/-- The measurement blocks that an index names: 1–16 for MR0–MR15, 0xFF for all. -/
def blocksOf (mr : List (BitVec 256)) (index : Nat) : Option (List Byte) :=
  if index = 255 then some (mr.flatMap (fun r => bytesOf 32 r.toNat))
  else if 1 ≤ index ∧ index ≤ 16 then some (bytesOf 32 (mr.getD (index - 1) 0).toNat)
  else none

/-- GET_MEASUREMENTS (R385, R386). -/
def execGetMeasurements (index : Nat) (sign : Bool) (nonce : List Byte) (s : State) : Host.Outcome State Fault Refusal :=
  match blocksOf s.boot.mr index with
  | none => .next (unsupported 0xE0 s)
  | some bs => if sign then .next (signed 0xE0 0x60 bs nonce s) else .next (respond 0x60 bs s)

/-- SPDM_UNSUPPORTED_REQUEST (R385). -/
def execSpdmUnsupportedRequest (code : Nat) (s : State) : Host.Outcome State Fault Refusal := .next (unsupported code s)

/-! ## Power and cooling (R387, R388) -/

/-- A die's temperature: an excursion begins above 105 °C and ends below 100 °C; 115 °C trips the module, with the effects of
R351. Dies 0–11 are hall dies, 12–17 cellar dies. -/
def dieTemp (s : State) (x : Nat × Nat) : State :=
  let (die, t) := x
  let s :=
    if t > 105 ∧ s.boot.hot.contains die = false then
      State.count 5 die 0 { s with boot := { s.boot with hot := s.boot.hot ++ [die] } }
    else if t < 100 then { s with boot := { s.boot with hot := s.boot.hot.filter (· != die) } }
    else s
  if t < 115 ∨ s.boot.dead = true then s
  else
    ((stopModule s).count 6 die 0).log 0x03 die 0 0 0 die

/-- POWER_TELEMETRY (R387, R388): rails near their limits slow the matrix engines, the copy engines and the Afrik grants, in that order; a
hot die is limited for itself. Limiting changes when engine operations perform, never what they compute (log 68, DEDUCED). -/
def execPowerTelemetry (near : Nat) (temps : List (Nat × Nat)) (s : State) : Host.Outcome State Fault Refusal :=
  let s := temps.foldl dieTemp s
  .next { s with boot := { s.boot with limit := Nat.min near 3 } }

/-! ## Lifetime records (R389) -/

/-- LIFETIME_COMMIT (R389): the commit overwrites the older copy, which has no check until the commit ends, in a second event. -/
def execLifetimeCommit (s : State) : Host.Outcome State Fault Refusal :=
  if s.boot.flash.any (fun x => x.2.2.isNone) then
    let done (x : Nat × List (Nat × Nat) × Option (BitVec 256)) : Nat × List (Nat × Nat) × Option (BitVec 256) :=
      (x.1, x.2.1, some (x.2.2.getD (lifeCheck x.1 x.2.1)))
    .next { s with boot := { s.boot with flash := s.boot.flash.map done } }
  else
    let new := newestCopy s.boot.flash
    let keep := (s.boot.flash.filter (fun x => x.2.2 == some (lifeCheck x.1 x.2.1) && x.1 == new.1)).take 1
    .next (({ s with boot := { s.boot with flash := keep ++ [(new.1 + 1, s.boot.life, none)] } } : State).post .lifetimeCommit)

/-- LIFETIME_CLEAR (R389): only a command authorised by the firmware key clears the records. -/
def execLifetimeClear (authorised : Bool) (s : State) : Host.Outcome State Fault Refusal :=
  if authorised then
    .next { s with boot := { s.boot with life := [], flash := s.boot.flash.map (fun x => (x.1, [], some (lifeCheck x.1 []))) } }
  else .next s

end Sys2Proof.Machine
end

