-- ==== Sys2Proof/Machine/Integer.lean ====
section
/-! DEFINITION. The integer class 0x0 (R78–R84). -/

namespace Sys2Proof.Machine

/-- .sat (R78). -/
def satBit (f : Fields) : Bool := f.m.getLsbD 0

/-- A two-operand integer instruction on lanes (R79). -/
def intOp2 (op : Nat) (f : Fields) (s : State) (sat : Bool) (g : Int → Int → Int) : Host.Outcome State Fault Refusal :=
  issueOp op f s (fun c => c.value c.w (lanes2 (Forms.ts f) sat g (c.va c.w) (c.vb c.w)))
/-- A one-operand integer instruction on lanes (R79). -/
def intOp1 (op : Nat) (f : Fields) (s : State) (g : Int → Int) : Host.Outcome State Fault Refusal :=
  issueOp op f s (fun c => c.value c.w (lanes1 (Forms.ts f) (satBit f) g (c.va c.w)))
/-- A three-operand integer instruction on lanes (R79). -/
def intOp3 (op : Nat) (f : Fields) (s : State) (sat : Bool) (g : Int → Int → Int → Int) :
    Host.Outcome State Fault Refusal :=
  issueOp op f s (fun c => c.value c.w (lanes3 (Forms.ts f) sat g (c.va c.w) (c.vb c.w) (c.vc c.w)))

/-- ADD (R79). -/
def execAdd (f : Fields) (s : State) : Host.Outcome State Fault Refusal := intOp2 0x000 f s (satBit f) (· + ·)
/-- SUB (R79). -/
def execSub (f : Fields) (s : State) : Host.Outcome State Fault Refusal := intOp2 0x001 f s (satBit f) (· - ·)

/-- ADDC (R80): the predicate c is the carry, in and out. -/
def execAddc (f : Fields) (s : State) : Host.Outcome State Fault Refusal :=
  issueOp 0x002 f s (fun c =>
    let x := addCarry (c.va false).toNat (c.vb false).toNat (c.pred 2 f.c.toNat)
    .ok (c.write [(f.d.toNat, BitVec.ofNat 32 x.1)] [(f.c.toNat, x.2)]))

/-- SUBB (R80): the predicate c is the borrow, in and out. -/
def execSubb (f : Fields) (s : State) : Host.Outcome State Fault Refusal :=
  issueOp 0x003 f s (fun c =>
    let x := subBorrow (c.va false).toNat (c.vb false).toNat (c.pred 2 f.c.toNat)
    .ok (c.write [(f.d.toNat, BitVec.ofNat 32 x.1)] [(f.c.toNat, x.2)]))

/-- MUL (R79). -/
def execMul (f : Fields) (s : State) : Host.Outcome State Fault Refusal := intOp2 0x004 f s (satBit f) (· * ·)

/-- The high half of the exact product (R81). -/
def mulHigh (ty : Nat) (a b : DWord) : DWord :=
  BitVec.ofNat 64 (wrapInt (2 * width ty) (scalarInt ty a * scalarInt ty b) / 2 ^ width ty)

/-- MULH (R81). -/
def execMulh (f : Fields) (s : State) : Host.Outcome State Fault Refusal :=
  issueOp 0x005 f s (fun c => c.value c.w (mulHigh (Forms.ts f) (c.va c.w) (c.vb c.w)))

/-- MAD (R79). -/
def execMad (f : Fields) (s : State) : Host.Outcome State Fault Refusal :=
  intOp3 0x006 f s (satBit f) (fun a b c => a * b + c)

/-- MADW (R81): 32-bit operands, signed for i32, with a 64-bit pair. -/
def execMadw (f : Fields) (s : State) : Host.Outcome State Fault Refusal :=
  issueOp 0x007 f s (fun c =>
    let ty := Forms.ts f
    c.value true (BitVec.ofInt 64 (scalarInt ty (c.va false) * scalarInt ty (c.vb false) + (c.vc true).toNat)))

/-- ABS (R79). -/
def execAbs (f : Fields) (s : State) : Host.Outcome State Fault Refusal := intOp1 0x008 f s (fun a => (a.natAbs : Int))
/-- NEG (R79). -/
def execNeg (f : Fields) (s : State) : Host.Outcome State Fault Refusal := intOp1 0x009 f s (fun a => -a)
/-- MIN (R79). -/
def execMin (f : Fields) (s : State) : Host.Outcome State Fault Refusal := intOp2 0x00A f s false (fun a b => min a b)
/-- MAX (R79). -/
def execMax (f : Fields) (s : State) : Host.Outcome State Fault Refusal := intOp2 0x00B f s false (fun a b => max a b)
/-- CLAMP (R79). -/
def execClamp (f : Fields) (s : State) : Host.Outcome State Fault Refusal :=
  intOp3 0x00C f s false (fun a b c => min (max a b) c)

/-- LEA (R82). -/
def execLea (f : Fields) (s : State) : Host.Outcome State Fault Refusal :=
  issueOp 0x00D f s (fun c =>
    let b : Word := (c.vb false).extractLsb' 0 32
    let e : DWord := if Forms.ts f = 0 then b.signExtend 64 else b.zeroExtend 64
    c.value true (c.va true + e <<< Forms.mlow f))

/-- The sum of absolute lane differences (R83). -/
def absDiffs (ty : Nat) (a b : DWord) : Nat :=
  (((lanesOf ty a).zip (lanesOf ty b)).map (fun x => (laneInt ty x.1 - laneInt ty x.2).natAbs)).sum

/-- SAD (R83). -/
def execSad (f : Fields) (s : State) : Host.Outcome State Fault Refusal :=
  issueOp 0x00E f s (fun c =>
    c.value false (BitVec.ofNat 64 (((c.vc false).toNat + absDiffs (Forms.ts f) (c.va false) (c.vb false)) % 2 ^ 32)))

/-- CMP (R84). -/
def execCmp (f : Fields) (s : State) : Host.Outcome State Fault Refusal :=
  issueOp 0x00F f s (fun c =>
    c.predicate (cmpHolds (Forms.mlow f) (scalarInt (Forms.ts f) (c.va c.w)) (scalarInt (Forms.ts f) (c.vb c.w))))

end Sys2Proof.Machine
end

