-- ==== Sys2Proof/Machine/Logic.lean ====
section
/-! DEFINITION. The logic class 0x1 (R85–R91). -/

namespace Sys2Proof.Machine

/-- A bitwise instruction of two operands (R86). -/
def bitOp2 (op : Nat) (f : Fields) (s : State) (g : DWord → DWord → DWord) : Host.Outcome State Fault Refusal :=
  issueOp op f s (fun c => c.value c.w (g (c.va c.w) (c.vb c.w)))

/-- AND (R86). -/
def execAnd (f : Fields) (s : State) : Host.Outcome State Fault Refusal := bitOp2 0x040 f s (· &&& ·)
/-- OR (R86). -/
def execOr (f : Fields) (s : State) : Host.Outcome State Fault Refusal := bitOp2 0x041 f s (· ||| ·)
/-- XOR (R86). -/
def execXor (f : Fields) (s : State) : Host.Outcome State Fault Refusal := bitOp2 0x042 f s (· ^^^ ·)
/-- ANDN (R86). -/
def execAndn (f : Fields) (s : State) : Host.Outcome State Fault Refusal := bitOp2 0x043 f s (fun a b => a &&& ~~~ b)
/-- NOT (R86). -/
def execNot (f : Fields) (s : State) : Host.Outcome State Fault Refusal :=
  issueOp 0x044 f s (fun c => c.value c.w (~~~ (c.va c.w)))

/-- The shift count n := vb, under .wrap modulo W (R87). -/
def shiftCount (f : Fields) (b : DWord) : Nat :=
  let n := b.toNat
  if f.m.getLsbD 0 then n % width (Forms.ts f) else n

/-- SHL, SHR and SAR at width W (R87). -/
def shiftLeft (W n : Nat) (a : DWord) : DWord := if n ≥ W then 0 else BitVec.ofNat 64 (a.toNat * 2 ^ n % 2 ^ W)
def shiftRight (W n : Nat) (a : DWord) : DWord := if n ≥ W then 0 else BitVec.ofNat 64 (a.toNat / 2 ^ n)
def shiftArith (W n : Nat) (a : DWord) : DWord :=
  let neg := a.getLsbD (W - 1)
  if n ≥ W then (if neg then BitVec.ofNat 64 (2 ^ W - 1) else 0)
  else BitVec.ofNat 64 (wrapInt W ((if neg then (a.toNat : Int) - 2 ^ W else a.toNat).fdiv (2 ^ n)))

/-- A shift by operand b, a single register or immediate (R85, R87). -/
def shiftOp (op : Nat) (f : Fields) (s : State) (g : Nat → Nat → DWord → DWord) : Host.Outcome State Fault Refusal :=
  issueOp op f s (fun c => c.value c.w (g (width (Forms.ts f)) (shiftCount f (c.vb false)) (c.va c.w)))

/-- SHL (R87). -/
def execShl (f : Fields) (s : State) : Host.Outcome State Fault Refusal := shiftOp 0x045 f s shiftLeft
/-- SHR (R87). -/
def execShr (f : Fields) (s : State) : Host.Outcome State Fault Refusal := shiftOp 0x046 f s shiftRight
/-- SAR (R87). -/
def execSar (f : Fields) (s : State) : Host.Outcome State Fault Refusal := shiftOp 0x047 f s shiftArith

/-- A left rotation at width W (R87). -/
def rotLeft (W n : Nat) (a : DWord) : DWord :=
  let k := n % W
  BitVec.ofNat 64 (a.toNat * 2 ^ k % 2 ^ W + a.toNat / 2 ^ (W - k))

/-- ROT (R87). -/
def execRot (f : Fields) (s : State) : Host.Outcome State Fault Refusal :=
  issueOp 0x048 f s (fun c => c.value c.w (rotLeft (width (Forms.ts f)) (c.vb false).toNat (c.va c.w)))

/-- A funnel shift of b:a by k bits, right under `.r` (R88). -/
def funnel (right : Bool) (a b : DWord) (k : Nat) : DWord :=
  let v := b.toNat * 2 ^ 32 + a.toNat
  BitVec.ofNat 64 (if right then v / 2 ^ (k % 32) % 2 ^ 32 else v * 2 ^ (k % 32) / 2 ^ 32 % 2 ^ 32)

/-- FUNL (R88). -/
def execFunl (f : Fields) (s : State) : Host.Outcome State Fault Refusal :=
  issueOp 0x049 f s (fun c => c.value false (funnel (f.m.getLsbD 0) (c.va false) (c.vb false) (c.vc false).toNat))

/-- The number of bits that a control operand selects at width W (R89). -/
def fieldLen (W : Nat) (ctl : DWord) : Nat :=
  let pos := ctl.toNat % 256
  if pos < W then Nat.min (ctl.toNat / 256 % 256) (W - pos) else 0

/-- BFX's result (R89). -/
def extractField (ty : Nat) (a ctl : DWord) : DWord :=
  let W := width ty
  let n := fieldLen W ctl
  if n = 0 then 0
  else
    let x := a.toNat / 2 ^ (ctl.toNat % 256) % 2 ^ n
    if signedTy ty && x.testBit (n - 1) then BitVec.ofNat 64 (2 ^ W - 2 ^ n + x) else BitVec.ofNat 64 x

/-- BFI's result (R89). -/
def insertField (ty : Nat) (a b ctl : DWord) : DWord :=
  let n := fieldLen (width ty) ctl
  let pos := ctl.toNat % 256
  let mask : DWord := BitVec.ofNat 64 ((2 ^ n - 1) * 2 ^ pos)
  b &&& ~~~ mask ||| a <<< pos &&& mask

/-- BFX (R89). -/
def execBfx (f : Fields) (s : State) : Host.Outcome State Fault Refusal :=
  issueOp 0x04A f s (fun c => c.value c.w (extractField (Forms.ts f) (c.va c.w) (c.vb false)))
/-- BFI (R89). -/
def execBfi (f : Fields) (s : State) : Host.Outcome State Fault Refusal :=
  issueOp 0x04B f s (fun c => c.value c.w (insertField (Forms.ts f) (c.va c.w) (c.vb c.w) (c.vc false)))

/-- The number of set bits of the low W bits. -/
def popCount (W : Nat) (a : DWord) : Nat := ((List.range W).filter (fun i => a.getLsbD i)).length

/-- POPC (R90). -/
def execPopc (f : Fields) (s : State) : Host.Outcome State Fault Refusal :=
  issueOp 0x04C f s (fun c => c.value false (BitVec.ofNat 64 (popCount (width (Forms.ts f)) (c.va c.w))))

/-- Zero bits above the highest set bit (R90). -/
def leadingZeros (W : Nat) (a : DWord) : Nat := if a = 0 then W else W - 1 - Nat.log2 a.toNat

/-- CLZ (R90). -/
def execClz (f : Fields) (s : State) : Host.Outcome State Fault Refusal :=
  issueOp 0x04D f s (fun c => c.value false (BitVec.ofNat 64 (leadingZeros (width (Forms.ts f)) (c.va c.w))))

/-- Bit i moved to bit W − 1 − i (R90). -/
def reverseBits (W : Nat) (a : DWord) : DWord :=
  (List.range W).foldl (fun acc i => if a.getLsbD i then acc ||| BitVec.ofNat 64 (2 ^ (W - 1 - i)) else acc) 0

/-- BREV (R90). -/
def execBrev (f : Fields) (s : State) : Host.Outcome State Fault Refusal :=
  issueOp 0x04E f s (fun c => c.value c.w (reverseBits (width (Forms.ts f)) (c.va c.w)))

/-- One result byte of BYTP (R91). -/
def pickByte (v sel : Nat) : Nat :=
  let b := v / 2 ^ (8 * (sel % 8)) % 256
  if sel ≥ 8 then (if b ≥ 128 then 0xFF else 0) else b

/-- BYTP (R91). -/
def execBytp (f : Fields) (s : State) : Host.Outcome State Fault Refusal :=
  issueOp 0x04F f s (fun c =>
    let v := (c.vb false).toNat * 2 ^ 32 + (c.va false).toNat
    let sel := (c.vc false).toNat
    c.value false (BitVec.ofNat 64 (joinLanes 8 ((List.range 4).map (fun i => pickByte v (sel / 2 ^ (4 * i) % 16))))))

/-- LOG3's result: bit i is bit 4·a_i + 2·b_i + c_i of the table (R86). -/
def log3Value (tbl : Nat) (a b c : DWord) : DWord :=
  (List.range 64).foldl (fun acc i =>
    if tbl.testBit (4 * (a.getLsbD i).toNat + 2 * (b.getLsbD i).toNat + (c.getLsbD i).toNat)
    then acc ||| BitVec.ofNat 64 (2 ^ i) else acc) 0

/-- LOG3 (R86). -/
def execLog3 (f : Fields) (s : State) : Host.Outcome State Fault Refusal :=
  issueOp 0x050 f s (fun c =>
    c.value c.w (log3Value (f.imm.toNat % 256) (c.va c.w) (c.regv 1 c.w f.b.toNat) (c.vc c.w)))

end Sys2Proof.Machine
end

