-- ==== Sys2Proof/Machine/Special.lean ====
section
/-! DEFINITION. The special-function class 0x4 (R104, R105); its results are tracked. -/

namespace Sys2Proof.Machine

/-- Done with a tracked special-function result, unless FP_TRAP is raised. -/
def Ctx.specialResult (c : Ctx) (r : LaneRes) : Res := c.fpResult r.exc (c.trackedValue c.w (BitVec.ofNat 64 r.code))

/-- A special function of one operand, by its index. -/
def specialOp (op : Nat) (f : Fields) (s : State) : Host.Outcome State Fault Refusal :=
  issueOp op f s (fun c =>
    let F := fmtOf (Forms.ts f)
    let x := (c.va c.w).toNat
    let v := F.source (ftzOf f) (smodAbs f 0) (smodNeg f 0) x
    c.specialResult (specialFn (op % 64) F (modeOf f) (ftzOf f) v (Config.specialOpen (op % 64) (BitVec.ofNat 32 x)).toNat))

/-- FRCP (R104). -/
def execFrcp (f : Fields) (s : State) : Host.Outcome State Fault Refusal := specialOp 0x100 f s
/-- FRSQ (R104). -/
def execFrsq (f : Fields) (s : State) : Host.Outcome State Fault Refusal := specialOp 0x101 f s
/-- FSQRT (R104). -/
def execFsqrt (f : Fields) (s : State) : Host.Outcome State Fault Refusal := specialOp 0x102 f s
/-- FEX2 (R104). -/
def execFex2 (f : Fields) (s : State) : Host.Outcome State Fault Refusal := specialOp 0x103 f s
/-- FLG2 (R104). -/
def execFlg2 (f : Fields) (s : State) : Host.Outcome State Fault Refusal := specialOp 0x104 f s
/-- FSIN (R104). -/
def execFsin (f : Fields) (s : State) : Host.Outcome State Fault Refusal := specialOp 0x105 f s
/-- FCOS (R104). -/
def execFcos (f : Fields) (s : State) : Host.Outcome State Fault Refusal := specialOp 0x106 f s

/-- FDIV (R62, R104). -/
def execFdiv (f : Fields) (s : State) : Host.Outcome State Fault Refusal :=
  issueOp 0x107 f s (fun c =>
    let F := fmtOf (Forms.ts f)
    let x := F.source (ftzOf f) (smodAbs f 0) (smodNeg f 0) (c.va c.w).toNat
    let y := F.source (ftzOf f) (smodAbs f 1) (smodNeg f 1) (c.vb c.w).toNat
    c.specialResult (fdiv F (modeOf f) (ftzOf f) x y))

/-- FTANH (R104). -/
def execFtanh (f : Fields) (s : State) : Host.Outcome State Fault Refusal := specialOp 0x108 f s

end Sys2Proof.Machine
end

