-- ==== Sys2Proof/Machine/Dispatch.lean ====
section
/-! DEFINITION. One arm per instruction: the machine's meaning of each. -/

namespace Sys2Proof.Machine

/-- The meaning of an instruction (one arm per row of the opcode table) (log 6, DESIGN CHOICE). -/
def exec (i : Instr) (s : State) : Host.Outcome State Fault Refusal :=
  match i with
  | .add f => Sys2Proof.Machine.execAdd f s
  | .sub f => Sys2Proof.Machine.execSub f s
  | .addc f => Sys2Proof.Machine.execAddc f s
  | .subb f => Sys2Proof.Machine.execSubb f s
  | .mul f => Sys2Proof.Machine.execMul f s
  | .mulh f => Sys2Proof.Machine.execMulh f s
  | .mad f => Sys2Proof.Machine.execMad f s
  | .madw f => Sys2Proof.Machine.execMadw f s
  | .abs f => Sys2Proof.Machine.execAbs f s
  | .neg f => Sys2Proof.Machine.execNeg f s
  | .min f => Sys2Proof.Machine.execMin f s
  | .max f => Sys2Proof.Machine.execMax f s
  | .clamp f => Sys2Proof.Machine.execClamp f s
  | .lea f => Sys2Proof.Machine.execLea f s
  | .sad f => Sys2Proof.Machine.execSad f s
  | .cmp f => Sys2Proof.Machine.execCmp f s
  | .and f => Sys2Proof.Machine.execAnd f s
  | .or f => Sys2Proof.Machine.execOr f s
  | .xor f => Sys2Proof.Machine.execXor f s
  | .andn f => Sys2Proof.Machine.execAndn f s
  | .not f => Sys2Proof.Machine.execNot f s
  | .shl f => Sys2Proof.Machine.execShl f s
  | .shr f => Sys2Proof.Machine.execShr f s
  | .sar f => Sys2Proof.Machine.execSar f s
  | .rot f => Sys2Proof.Machine.execRot f s
  | .funl f => Sys2Proof.Machine.execFunl f s
  | .bfx f => Sys2Proof.Machine.execBfx f s
  | .bfi f => Sys2Proof.Machine.execBfi f s
  | .popc f => Sys2Proof.Machine.execPopc f s
  | .clz f => Sys2Proof.Machine.execClz f s
  | .brev f => Sys2Proof.Machine.execBrev f s
  | .bytp f => Sys2Proof.Machine.execBytp f s
  | .log3 f => Sys2Proof.Machine.execLog3 f s
  | .mov f => Sys2Proof.Machine.execMov f s
  | .movi f => Sys2Proof.Machine.execMovi f s
  | .sel f => Sys2Proof.Machine.execSel f s
  | .movs f => Sys2Proof.Machine.execMovs f s
  | .plog f => Sys2Proof.Machine.execPlog f s
  | .p2w f => Sys2Proof.Machine.execP2w f s
  | .w2p f => Sys2Proof.Machine.execW2p f s
  | .rdu f => Sys2Proof.Machine.execRdu f s
  | .wru f => Sys2Proof.Machine.execWru f s
  | .fadd f => Sys2Proof.Machine.execFadd f s
  | .fsub f => Sys2Proof.Machine.execFsub f s
  | .fmul f => Sys2Proof.Machine.execFmul f s
  | .ffma f => Sys2Proof.Machine.execFfma f s
  | .fmin f => Sys2Proof.Machine.execFmin f s
  | .fmax f => Sys2Proof.Machine.execFmax f s
  | .fcmp f => Sys2Proof.Machine.execFcmp f s
  | .frnd f => Sys2Proof.Machine.execFrnd f s
  | .fcls f => Sys2Proof.Machine.execFcls f s
  | .fdot2 f => Sys2Proof.Machine.execFdot2 f s
  | .frcp f => Sys2Proof.Machine.execFrcp f s
  | .frsq f => Sys2Proof.Machine.execFrsq f s
  | .fsqrt f => Sys2Proof.Machine.execFsqrt f s
  | .fex2 f => Sys2Proof.Machine.execFex2 f s
  | .flg2 f => Sys2Proof.Machine.execFlg2 f s
  | .fsin f => Sys2Proof.Machine.execFsin f s
  | .fcos f => Sys2Proof.Machine.execFcos f s
  | .fdiv f => Sys2Proof.Machine.execFdiv f s
  | .ftanh f => Sys2Proof.Machine.execFtanh f s
  | .cvt f => Sys2Proof.Machine.execCvt f s
  | .cvti f => Sys2Proof.Machine.execCvti f s
  | .cvtf f => Sys2Proof.Machine.execCvtf f s
  | .pack f => Sys2Proof.Machine.execPack f s
  | .unpk f => Sys2Proof.Machine.execUnpk f s
  | .qblk f => Sys2Proof.Machine.execQblk f s
  | .bra f => Sys2Proof.Machine.execBra f s
  | .brx f => Sys2Proof.Machine.execBrx f s
  | .call f => Sys2Proof.Machine.execCall f s
  | .callx f => Sys2Proof.Machine.execCallx f s
  | .ret f => Sys2Proof.Machine.execRet f s
  | .exit f => Sys2Proof.Machine.execExit f s
  | .nop f => Sys2Proof.Machine.execNop f s
  | .rep f => Sys2Proof.Machine.execRep f s
  | .repRepetition f => Sys2Proof.Machine.execRepRepetition f s
  | .rjset f => Sys2Proof.Machine.execRjset f s
  | .rjwait f => Sys2Proof.Machine.execRjwait f s
  | .yield f => Sys2Proof.Machine.execYield f s
  | .sleep f => Sys2Proof.Machine.execSleep f s
  | .bkpt f => Sys2Proof.Machine.execBkpt f s
  | .trap f => Sys2Proof.Machine.execTrap f s
  | .shfl f => Sys2Proof.Machine.execShfl f s
  | .vote f => Sys2Proof.Machine.execVote f s
  | .wred f => Sys2Proof.Machine.execWred f s
  | .matchLanes f => Sys2Proof.Machine.execMatchLanes f s
  | .elect f => Sys2Proof.Machine.execElect f s
  | .wsync f => Sys2Proof.Machine.execWsync f s
  | .barb f => Sys2Proof.Machine.execBarb f s
  | .barg f => Sys2Proof.Machine.execBarg f s
  | .barh f => Sys2Proof.Machine.execBarh f s
  | .ld f => Sys2Proof.Machine.execLd f s
  | .st f => Sys2Proof.Machine.execSt f s
  | .ldr f => Sys2Proof.Machine.execLdr f s
  | .ldd f => Sys2Proof.Machine.execLdd f s
  | .std f => Sys2Proof.Machine.execStd f s
  | .ldt f => Sys2Proof.Machine.execLdt f s
  | .stt f => Sys2Proof.Machine.execStt f s
  | .atom f => Sys2Proof.Machine.execAtom f s
  | .atomCas f => Sys2Proof.Machine.execAtomCas f s
  | .red f => Sys2Proof.Machine.execRed f s
  | .pref f => Sys2Proof.Machine.execPref f s
  | .cctlInv1 f => Sys2Proof.Machine.execCctlInv1 f s
  | .cctlInv1all f => Sys2Proof.Machine.execCctlInv1all f s
  | .cctlWb2 f => Sys2Proof.Machine.execCctlWb2 f s
  | .cctlEvict2 f => Sys2Proof.Machine.execCctlEvict2 f s
  | .pgreq f => Sys2Proof.Machine.execPgreq f s
  | .kjoin f => Sys2Proof.Machine.execKjoin f s
  | .kcopy f => Sys2Proof.Machine.execKcopy f s
  | .kwait f => Sys2Proof.Machine.execKwait f s
  | .ktest f => Sys2Proof.Machine.execKtest f s
  | .fence f => Sys2Proof.Machine.execFence f s
  | .ksend f => Sys2Proof.Machine.execKsend f s
  | .krecv f => Sys2Proof.Machine.execKrecv f s
  | .kclr f => Sys2Proof.Machine.execKclr f s
  | .cpy f => Sys2Proof.Machine.execCpy f s
  | .cpyb f => Sys2Proof.Machine.execCpyb f s
  | .cpyf f => Sys2Proof.Machine.execCpyf f s
  | .accld f => Sys2Proof.Machine.execAccld f s
  | .accst f => Sys2Proof.Machine.execAccst f s
  | .obinit f => Sys2Proof.Machine.execObinit f s
  | .obarr f => Sys2Proof.Machine.execObarr f s
  | .obarrHold f => Sys2Proof.Machine.execObarrHold f s
  | .obexp f => Sys2Proof.Machine.execObexp f s
  | .obexpRls f => Sys2Proof.Machine.execObexpRls f s
  | .obwait f => Sys2Proof.Machine.execObwait f s
  | .coll f => Sys2Proof.Machine.execColl f s
  | .mma f => Sys2Proof.Machine.execMma f s
  | .mdrn f => Sys2Proof.Machine.execMdrn f s
  | .mzero f => Sys2Proof.Machine.execMzero f s
  | .post f => Sys2Proof.Machine.execPost f s
  | .spawn f => Sys2Proof.Machine.execSpawn f s
  | .mbsend f => Sys2Proof.Machine.execMbsend f s
  | .mbrecv f => Sys2Proof.Machine.execMbrecv f s
  | .mbstat f => Sys2Proof.Machine.execMbstat f s
  | .chapp f => Sys2Proof.Machine.execChapp f s
  | .chseq f => Sys2Proof.Machine.execChseq f s
  | .glaunch f => Sys2Proof.Machine.execGlaunch f s
  | .hhatt f => Sys2Proof.Machine.execHhatt f s
  | .hhdet f => Sys2Proof.Machine.execHhdet f s
  | .hhstat f => Sys2Proof.Machine.execHhstat f s
  | .ctlr f => Sys2Proof.Machine.execCtlr f s
  | .ctlw f => Sys2Proof.Machine.execCtlw f s
  | .resume f => Sys2Proof.Machine.execResume f s
  | .killw f => Sys2Proof.Machine.execKillw f s
  | .snapr f => Sys2Proof.Machine.execSnapr f s
  | .snapw f => Sys2Proof.Machine.execSnapw f s
  | .rett f => Sys2Proof.Machine.execRett f s
  | .halt f => Sys2Proof.Machine.execHalt f s
  | .sysc f => Sys2Proof.Machine.execSysc f s
  | .issueGroup core picker => Sys2Proof.Machine.execIssueGroup core picker s
  | .trackedResultWrite t_ id => Sys2Proof.Machine.execTrackedResultWrite t_ id s
  | .lineFetch t_ => Sys2Proof.Machine.execLineFetch t_ s
  | .fetchParityRetry t_ => Sys2Proof.Machine.execFetchParityRetry t_ s
  | .coreSelfTest core pass => Sys2Proof.Machine.execCoreSelfTest core pass s
  | .barrierRelease t_ => Sys2Proof.Machine.execBarrierRelease t_ s
  | .sleepExpire t_ => Sys2Proof.Machine.execSleepExpire t_ s
  | .homeResolve id => Sys2Proof.Machine.execHomeResolve id s
  | .accessAccept id => Sys2Proof.Machine.execAccessAccept id s
  | .loadBind id => Sys2Proof.Machine.execLoadBind id s
  | .storePerform id scope => Sys2Proof.Machine.execStorePerform id scope s
  | .accessFailure id cause => Sys2Proof.Machine.execAccessFailure id cause s
  | .faultFilterForward core ctx page => Sys2Proof.Machine.execFaultFilterForward core ctx page s
  | .clusterStageForward cluster ctx page => Sys2Proof.Machine.execClusterStageForward cluster ctx page s
  | .pageRequestGroup pasid page => Sys2Proof.Machine.execPageRequestGroup pasid page s
  | .pageResidentRelease ctx page => Sys2Proof.Machine.execPageResidentRelease ctx page s
  | .invalidateCompletion pasid lo hi => Sys2Proof.Machine.execInvalidateCompletion pasid lo hi s
  | .retireSweepEnd ctx => Sys2Proof.Machine.execRetireSweepEnd ctx s
  | .ksendMarker id point => Sys2Proof.Machine.execKsendMarker id point s
  | .ksendNotice id point => Sys2Proof.Machine.execKsendNotice id point s
  | .arrivalDelivery id => Sys2Proof.Machine.execArrivalDelivery id s
  | .copyLineAccept id line => Sys2Proof.Machine.execCopyLineAccept id line s
  | .copyWrite id count => Sys2Proof.Machine.execCopyWrite id count s
  | .copyBlockDecode id => Sys2Proof.Machine.execCopyBlockDecode id s
  | .copyRetire id => Sys2Proof.Machine.execCopyRetire id s
  | .cpyfHopForward id => Sys2Proof.Machine.execCpyfHopForward id s
  | .mmaSliceWrite id => Sys2Proof.Machine.execMmaSliceWrite id s
  | .operandsConsumed id => Sys2Proof.Machine.execOperandsConsumed id s
  | .mdrnDrain id => Sys2Proof.Machine.execMdrnDrain id s
  | .enginePerform id => Sys2Proof.Machine.execEnginePerform id s
  | .chainEntryRun id => Sys2Proof.Machine.execChainEntryRun id s
  | .collCompute id => Sys2Proof.Machine.execCollCompute id s
  | .postArrival id => Sys2Proof.Machine.execPostArrival id s
  | .admissionDecision die => Sys2Proof.Machine.execAdmissionDecision die s
  | .ageing die item => Sys2Proof.Machine.execAgeing die item s
  | .householdSequenceNumber item => Sys2Proof.Machine.execHouseholdSequenceNumber item s
  | .reservationRequest item die => Sys2Proof.Machine.execReservationRequest item die s
  | .holdClear item => Sys2Proof.Machine.execHoldClear item s
  | .blockDispatch block => Sys2Proof.Machine.execBlockDispatch block s
  | .blockEnd block => Sys2Proof.Machine.execBlockEnd block s
  | .porchAccept id => Sys2Proof.Machine.execPorchAccept id s
  | .porchRefill die => Sys2Proof.Machine.execPorchRefill die s
  | .graphNodeEnd graph node => Sys2Proof.Machine.execGraphNodeEnd graph node s
  | .graphNodeTask graph node => Sys2Proof.Machine.execGraphNodeTask graph node s
  | .graphNodeCondition graph node => Sys2Proof.Machine.execGraphNodeCondition graph node s
  | .graphNodeWhile graph node => Sys2Proof.Machine.execGraphNodeWhile graph node s
  | .graphNodeJoin graph node => Sys2Proof.Machine.execGraphNodeJoin graph node s
  | .graphPostRetry graph node => Sys2Proof.Machine.execGraphPostRetry graph node s
  | .graphTaskComplete graph task => Sys2Proof.Machine.execGraphTaskComplete graph task s
  | .graphCompletion graph => Sys2Proof.Machine.execGraphCompletion graph s
  | .trapWarpStart core => Sys2Proof.Machine.execTrapWarpStart core s
  | .watchdog gang => Sys2Proof.Machine.execWatchdog gang s
  | .preemptHoldTimeout die => Sys2Proof.Machine.execPreemptHoldTimeout die s
  | .preemptDrainEnd gang => Sys2Proof.Machine.execPreemptDrainEnd gang s
  | .resumeRestore gang => Sys2Proof.Machine.execResumeRestore gang s
  | .transientRequest req => Sys2Proof.Machine.execTransientRequest req s
  | .transientAttemptTimeout req => Sys2Proof.Machine.execTransientAttemptTimeout req s
  | .transientEscalation req => Sys2Proof.Machine.execTransientEscalation req s
  | .transientAnswer req holder => Sys2Proof.Machine.execTransientAnswer req holder s
  | .tokenMessageReceive msg => Sys2Proof.Machine.execTokenMessageReceive msg s
  | .persistentRequest req => Sys2Proof.Machine.execPersistentRequest req s
  | .persistentTableEntry line holder => Sys2Proof.Machine.execPersistentTableEntry line holder s
  | .persistentCompletion line => Sys2Proof.Machine.execPersistentCompletion line s
  | .evictionAck die line => Sys2Proof.Machine.execEvictionAck die line s
  | .hearthAtomic id => Sys2Proof.Machine.execHearthAtomic id s
  | .maskedWrite id => Sys2Proof.Machine.execMaskedWrite id s
  | .migrationClaim move => Sys2Proof.Machine.execMigrationClaim move s
  | .migrationCopy move => Sys2Proof.Machine.execMigrationCopy move s
  | .migrationSwitch move => Sys2Proof.Machine.execMigrationSwitch move s
  | .migrationAbandon move => Sys2Proof.Machine.execMigrationAbandon move s
  | .linkWake link => Sys2Proof.Machine.execLinkWake link s
  | .linkWakeComplete link => Sys2Proof.Machine.execLinkWakeComplete link s
  | .linkWakeLate link => Sys2Proof.Machine.execLinkWakeLate link s
  | .tokenRecreation line => Sys2Proof.Machine.execTokenRecreation line s
  | .afrikGrant dev => Sys2Proof.Machine.execAfrikGrant dev s
  | .bridgeReadRequest id => Sys2Proof.Machine.execBridgeReadRequest id s
  | .bridgeWriteRedirect id => Sys2Proof.Machine.execBridgeWriteRedirect id s
  | .bridgeMaskedWrite id => Sys2Proof.Machine.execBridgeMaskedWrite id s
  | .bridgeAtomic id => Sys2Proof.Machine.execBridgeAtomic id s
  | .bridgeRecall line => Sys2Proof.Machine.execBridgeRecall line s
  | .hostLineFetch line own => Sys2Proof.Machine.execHostLineFetch line own s
  | .dirtyEvict line => Sys2Proof.Machine.execDirtyEvict line s
  | .poolLineFetch line => Sys2Proof.Machine.execPoolLineFetch line s
  | .attachNotice gang core => Sys2Proof.Machine.execAttachNotice gang core s
  | .detachNotice gang core => Sys2Proof.Machine.execDetachNotice gang core s
  | .detachComplete gang => Sys2Proof.Machine.execDetachComplete gang s
  | .bootStage => Sys2Proof.Machine.execBootStage s
  | .atsTranslationCompletion ctx page reply => Sys2Proof.Machine.execAtsTranslationCompletion ctx page reply s
  | .prgResponseSuccess pasid page => Sys2Proof.Machine.execPrgResponseSuccess pasid page s
  | .prgResponseInvalidRequest pasid page => Sys2Proof.Machine.execPrgResponseInvalidRequest pasid page s
  | .prgResponseFailure pasid page => Sys2Proof.Machine.execPrgResponseFailure pasid page s
  | .atsInvalidateRequest pasid lo hi => Sys2Proof.Machine.execAtsInvalidateRequest pasid lo hi s
  | .contextBind ctx pasid => Sys2Proof.Machine.execContextBind ctx pasid s
  | .contextUnbind ctx => Sys2Proof.Machine.execContextUnbind ctx s
  | .bufferEntryChange ctx idx entry => Sys2Proof.Machine.execBufferEntryChange ctx idx entry s
  | .homeWindowWrite ctx win entry => Sys2Proof.Machine.execHomeWindowWrite ctx win entry s
  | .attributeEntryWrite ctx page entry => Sys2Proof.Machine.execAttributeEntryWrite ctx page entry s
  | .hostDoorbell die queue ctx card => Sys2Proof.Machine.execHostDoorbell die queue ctx card s
  | .correctableError unit => Sys2Proof.Machine.execCorrectableError unit s
  | .uncorrectableError site => Sys2Proof.Machine.execUncorrectableError site s
  | .preemptRequest ctx => Sys2Proof.Machine.execPreemptRequest ctx s
  | .l2Eviction die line => Sys2Proof.Machine.execL2Eviction die line s
  | .migrationDriverRequest ctx page up => Sys2Proof.Machine.execMigrationDriverRequest ctx page up s
  | .linkSleep link => Sys2Proof.Machine.execLinkSleep link s
  | .flitCrcFailure link => Sys2Proof.Machine.execFlitCrcFailure link s
  | .linkRetire link => Sys2Proof.Machine.execLinkRetire link s
  | .afrikDemand dev bytes => Sys2Proof.Machine.execAfrikDemand dev bytes s
  | .moduleLost dev => Sys2Proof.Machine.execModuleLost dev s
  | .hostReadNoCache line half => Sys2Proof.Machine.execHostReadNoCache line half s
  | .hostReadShared line half => Sys2Proof.Machine.execHostReadShared line half s
  | .hostReadAny line half => Sys2Proof.Machine.execHostReadAny line half s
  | .hostWrite line half st bytes => Sys2Proof.Machine.execHostWrite line half st bytes s
  | .biconflict line half => Sys2Proof.Machine.execBiconflict line half s
  | .hostSnoop line inv => Sys2Proof.Machine.execHostSnoop line inv s
  | .poolBisnpinv line => Sys2Proof.Machine.execPoolBisnpinv line s
  | .poolBisnpdata line => Sys2Proof.Machine.execPoolBisnpdata line s
  | .poolPortLost port => Sys2Proof.Machine.execPoolPortLost port s
  | .poolSegmentReattach seg => Sys2Proof.Machine.execPoolSegmentReattach seg s
  | .poolSegmentUnmap seg => Sys2Proof.Machine.execPoolSegmentUnmap seg s
  | .powerGoodReset => Sys2Proof.Machine.execPowerGoodReset s
  | .measurementExtend reg data => Sys2Proof.Machine.execMeasurementExtend reg data s
  | .getVersion => Sys2Proof.Machine.execGetVersion s
  | .getCapabilities => Sys2Proof.Machine.execGetCapabilities s
  | .negotiateAlgorithms asym hash => Sys2Proof.Machine.execNegotiateAlgorithms asym hash s
  | .getDigests slot => Sys2Proof.Machine.execGetDigests slot s
  | .getCertificate slot => Sys2Proof.Machine.execGetCertificate slot s
  | .challenge slot nonce => Sys2Proof.Machine.execChallenge slot nonce s
  | .getMeasurements index sign nonce => Sys2Proof.Machine.execGetMeasurements index sign nonce s
  | .spdmUnsupportedRequest code => Sys2Proof.Machine.execSpdmUnsupportedRequest code s
  | .powerTelemetry near temps => Sys2Proof.Machine.execPowerTelemetry near temps s
  | .lifetimeCommit => Sys2Proof.Machine.execLifetimeCommit s
  | .lifetimeClear authorised => Sys2Proof.Machine.execLifetimeClear authorised s
  | .managementCoreResume core resume => Sys2Proof.Machine.execManagementCoreResume core resume s
  | .priReenable => Sys2Proof.Machine.execPriReenable s
  | .poisonScrub line => Sys2Proof.Machine.execPoisonScrub line s
  | .frameMapWrite home tpage entry => Sys2Proof.Machine.execFrameMapWrite home tpage entry s
  | .poolSegmentBind seg port base len => Sys2Proof.Machine.execPoolSegmentBind seg port base len s
  | .powerLoss => Sys2Proof.Machine.execPowerLoss s
  | .moduleReachable dev => Sys2Proof.Machine.execModuleReachable dev s

end Sys2Proof.Machine
end

