-- ==== Sys2Proof/Machine/Trial.lean ====
section
/-! DEFINITION. A member of an issue group executes its instruction; the group that a picker has formed is tried first, since a thread whose
agent, key or scoreboard is full, or whose line is not held, is not ready and belongs to no group (R14, R125, R163, R177, R228, R269). -/

namespace Sys2Proof.Machine

/-- The line of the thread's program counter counts as checked (R14). -/
def markLine (r : TRef) (s : State) : State := s.modThread r (fun t => { t with line := some (pcLine t.pc) })

/-- What a member of a group comes to, its repetition included. -/
def executeMember (r : TRef) (s : State) : Host.Outcome State Fault Refusal :=
  match fetchInstr r s with
  | .stop s => .next s
  | .run i => match exec i (markLine r s) with
    | .next s => match s.issue.follower with
      | some j => exec j { s with issue := { s.issue with follower := none } }
      | none => .next s
    | o => o

/-- The state in which a member turns out not to be ready: what it waits for has been asked for, and it issues in no group of this cycle.
None where it is ready. -/
def unready (r : TRef) (s : State) : Option State :=
  match executeMember r { s with issue := { s.issue with todo := [], cur := r } } with
  | .next t => if t.issue.held.contains r then some t else none
  | _ => none

/-- The state in which every member that is not ready has turned out so, and whether there is one. -/
def asideOf (s : State) (ms : List TRef) : State × Bool :=
  ms.foldl (fun (x : State × Bool) r => match unready r x.1 with
    | some t => ({ t with issue := s.issue }, true)
    | none => x) (s, false)

/-- The group that picker number `k` has formed issues if all of it is ready; else the picker forms another without the members that are
not (R125). -/
def tryGroup (k : Nat) (o : Host.Outcome State Fault Refusal) : Host.Outcome State Fault Refusal :=
  match o with
  | .next s =>
    let x := asideOf s s.issue.todo
    .next (if x.2 then { x.1 with issue := Issue.idle, cursor := k } else s)
  | o => o

/-! ## The stopped module -/

/-- The events of a reset. -/
def Instr.resets : Instr → Bool
  | .powerGoodReset => true
  | .powerLoss => true
  | _ => false

/-- The events in which a module takes work or goes on with it: one that is stopped drops them (R351). -/
def Instr.works : Instr → Bool
  | .issueGroup _ _ => true
  | .postArrival _ => true
  | .hostDoorbell _ _ _ _ => true
  | .admissionDecision _ => true
  | .blockDispatch _ => true
  | .resumeRestore _ => true
  | .trapWarpStart _ => true
  | .contextBind _ _ => true
  | _ => false

/-- A module that is lost or has tripped: a reset is all that it takes, once every task has its failure value; until then what the completion
words wait for goes on (R351, R388; log 59, DEDUCED). -/
def stoppedStep (s : State) : Host.Outcome State Fault Refusal :=
  match s.agenda.find? Instr.resets with
  | some e => exec e { s with agenda := [] }
  | none =>
    if s.tasks.all (·.complete) then .fault .moduleStopped
    else match s.turn, s.agenda with
    | true, e :: es => if Instr.works e then .next { s with agenda := es } else exec e { s with agenda := es, turn := false }
    | _, _ => .next (failTasks { s with clock := s.clock + 1, turn := true })

/-- A module whose boot has stopped takes a reset and nothing else (R384). -/
def failedStep (stage : Nat) (s : State) : Host.Outcome State Fault Refusal :=
  match s.agenda.find? Instr.resets with
  | some e => exec e { s with agenda := [] }
  | none => .fault (.bootStopped stage)

end Sys2Proof.Machine
end

