-- ==== Sys2Proof/Machine/Step.lean ====
section
/-! DEFINITION. One step of the machine (log 2, DESIGN CHOICE): the next member of the issue group in progress, else the next event due,
else the next picker, else the end of the cycle; and the placing of one instruction for the host. -/

namespace Sys2Proof.Machine

/-- After a member of a group has executed: the group ends once nobody is left. -/
def afterMember (o : Host.Outcome State Fault Refusal) : Host.Outcome State Fault Refusal :=
  match o with
  | .next s => .next (if s.issue.todo.isEmpty then endGroup s else s)
  | .fault f => .fault f
  | .refused r => .refused r

/-- The next member of the group executes its instruction: the word of the repetition just formed, else the instruction
at its program counter. -/
def runMember (r : TRef) (rest : List TRef) (s : State) : Host.Outcome State Fault Refusal :=
  let s := { s with issue := { s.issue with todo := rest, cur := r } }
  match s.issue.follower with
  | some i => afterMember (exec i { s with issue := { s.issue with follower := none } })
  | none =>
    match fetchInstr r s with
    | .run i => afterMember (exec i (markLine r s))
    | .stop s => afterMember (.next s)

/-- The place of a thread in the order in which a cycle examines the pickers. -/
def pickerCode (r : TRef) : Nat := r.core * 5 + (if r.slot = 64 then 4 else r.slot % 4)

/-- The next picker, from the cursor on, that has threads. -/
def nextPicker (s : State) : Option Nat :=
  s.threads.foldl (fun best t =>
    let k := pickerCode t.ref
    if k < s.cursor then best else match best with | some b => some (Nat.min b k) | none => some k) none

/-- One step (log 2, DESIGN CHOICE). -/
def step (s : State) : Host.Outcome State Fault Refusal :=
  if s.boot.dead then stoppedStep s
  else match s.boot.failed with
  | some n => failedStep n s
  | none =>
    match s.issue.todo with
    | r :: rest => runMember r rest s
    | [] =>
      match s.turn, s.agenda with
      | true, e :: es => exec e { s with agenda := es, turn := false }
      | _, _ =>
        match nextPicker s with
        | some k => tryGroup k (afterMember (exec (.issueGroup (k / 5) (k % 5)) { s with cursor := k + 1, turn := true }))
        | none => .next (tick { s with turn := true })

/-! ## One instruction placed for the host (log 1, DESIGN CHOICE) -/

/-- NOP (R33). -/
def nopWord : InsnWord := 0x7FFFFFFFB8186

/-- Where the launched program lies: its line, its context, and its frame on hall die 0. -/
def launchPc : DWord := 0x10000000000
def launchCtx : Nat := 1

/-- A module that has booted, with one thread of a task of context 1 on core 0, about to issue slot 0 of a line that the core holds; the line's page is
mapped with every right. -/
def State.withFetchWord (s : State) (nbits w : Nat) : State :=
  let slots : List InsnWord := [BitVec.ofNat 96 (w % 2 ^ nbits), nopWord, nopWord, nopWord, nopWord]
  let bytes := lineBytes ⟨slots, lineWordFor slots 0x1F 0⟩
  let r : TRef := ⟨0, 0, 0⟩
  let th : Thread := Thread.fresh r 0 1 256 1 launchPc 0
  let b : Block :=
    { uid := 1, gang := 1, index := 0, rank := 0, core := 0, sp0 := 0, spSize := 65536, acc0 := 0, accRows := 16, ntid := 1, regs := 256,
      entry := launchPc, argp := 0, state := 2, hold := false }
  let g : Gang :=
    { uid := 1, gid := 0, die := 0, cluster := 0, rank := 0, hh := 1, task := 1, ctx := launchCtx, nblock := 1, prio := 0, posted := 0,
      dispatcher := false, spawned := none, failed := false, wdInterval := Config.watchdogDefault, wdCount := 0,
      phase := .running, hasAtt := false, wanted := false }
  let h : Household :=
    { uid := 1, task := 1, rank := 0, ngang := 1, seq := none, modules := [s.device], att := [.unattached], copies := [] }
  let t : Task :=
    { num := 1, ctx := launchCtx, card := 0, die := 0, failed := false, complete := false, nhhLeft := 1, graph := none, started := s.clock }
  let te : TransEntry := { home := .hall s.device 0, ctx := launchCtx, page := globPage launchPc, tpage := 0, rights := ⟨true, true, true⟩ }
  let s := s.writeBytes (hallBase s.device 0) bytes
  let s := s.modCore 0 (fun k => { k with icache := [⟨launchCtx, launchPc.toNat, bytes, s.clock, 0⟩] })
  { s with
    agenda := s.agenda.filter (· != .bootStage), boot := { s.boot with stage := 5, failed := none, dead := false },
    threads := [th], warps := [Warp.fresh 0 0 0 1], blocks := [b], gangs := [g], hhs := [h], tasks := [t],
    nextId := Nat.max 2 s.nextId,
    tabs := { s.tabs with
      windows := setAssoc (launchCtx, 0) (BitVec.ofNat 64 (2 ^ 63 + s.device * 2 ^ 54)) s.tabs.windows,
      frames := setAssoc (Home.hall s.device 0, 0) (BitVec.ofNat 64 (2 ^ 63)) s.tabs.frames },
    tx := { s.tx with tcache := te :: s.tx.tcache },
    issue := { Issue.idle with todo := [r], group := [r], pc := launchPc, firstId := Nat.max 2 s.nextId, paired := true } }

end Sys2Proof.Machine
end

