-- ==== Sys2Proof/Safety.lean ====
section
/-! DEFINITION. The terms in which the statements speak of the machine: canonical memory, runs that go on, threads that issue a
word, and what an instruction leaves. -/

namespace Sys2Proof.Safety

open Sys2Proof.Machine

/-- Memory has its canonical form. -/
def MemCanonical (s : State) : Prop := Memory.wf s.mem = true

/-- A step goes on. -/
def GoesOn (s : State) : Prop := ∃ s', step s = .next s'

/-- The outcome of an instruction. -/
abbrev Out := Host.Outcome State Fault Refusal

/-- Thread `th` issues the word (op, f), and nothing that R16, R19, R20, R54, R55, R201 or R327 names keeps the word from its own
effect: the thread runs it now; no poisoned key file or rejoin table stops its warp; nothing is read or overwritten early on a
core that checks; a class-0xE word is in the trap warp; its fields, registers and produce key are legal; its guard is known
and true; no register that it reads is faulted; no tracked result that it needs is pending. -/
abbrev Issues (op : Nat) (f : Fields) (s : State) (th : Thread) : Prop :=
  s.thread? s.issue.cur = some th ∧ (s.warpOf th).poisoned = false ∧
  ((s.core th.ref.core).check.getLsbD 0 = false ∨ tooEarly op f s.clock th = false) ∧
  (op / 64 = 14 → th.ref.slot = 64) ∧
  Forms.wordOk op f = true ∧ Forms.wordAllocOk op f th.alloc = true ∧ Forms.keyOk op f = true ∧
  (f.guard = 7 ∨ th.trackedOn (256 + f.guard.toNat) = false) ∧ guardOn f s.clock s.free th = true ∧
  faultedRead op f th = none ∧ awaitsTracked op f th = false

/-- The thread with its operands, as the effect of the word reads them. -/
abbrev atIssue (op : Nat) (f : Fields) (s : State) (th : Thread) : Ctx :=
  { s := { s with free := s.free + 1 }, th := th, n := s.free, f := f, op := op }

/-- What holds of a word's issue, in terms of its operands, where the thread issues it. -/
abbrev WhenIssues (op : Nat) (f : Fields) (s : State) (th : Thread) (P : Ctx → Prop) : Prop :=
  Issues op f s th → P (atIssue op f s th)

/-- The word is done: its effect has left state `t`, and the thread goes on to its next instruction (R14, R18). -/
abbrev Done (o : Out) (c : Ctx) (t : State) : Prop := o = .next (retire c.th.ref c.f t)
/-- The word is done, and the thread goes on at `pc`. -/
abbrev Jumps (o : Out) (c : Ctx) (t : State) (pc : DWord) : Prop := o = .next (transfer c.th.ref c.f pc t)
/-- The word has issued, and the thread waits at it. -/
abbrev Waits (o : Out) (c : Ctx) (t : State) : Prop := o = .next (parked c.th.ref c.f t)
/-- The word traps (R25). -/
abbrev Traps (o : Out) (c : Ctx) (i : TrapInfo) : Prop := o = .next (raiseTrap c.th.ref i c.s)

/-- The word writes a value of one register, or of a pair, to d as a fixed-latency result, and is done (R19). -/
abbrev Writes (o : Out) (c : Ctx) (wide : Bool) (v : DWord) : Prop :=
  Done o c (c.write (valueRegs wide c.f.d.toNat v) [])
/-- The word writes a predicate to d. -/
abbrev WritesPred (o : Out) (c : Ctx) (b : Bool) : Prop := Done o c (c.write [] [(c.f.d.toNat, b)])
/-- The word's value for d is a tracked result (R19). -/
abbrev Tracks (o : Out) (c : Ctx) (wide : Bool) (v : DWord) : Prop :=
  Done o c (c.tracked c.s (c.s.clock + 1) (valueRegs wide c.f.d.toNat v) [])
/-- A float word that signals `e` leaves `t`, unless one of its exceptions is enabled: then it traps FP_TRAP (R325). -/
abbrev FloatDone (o : Out) (c : Ctx) (e : Exc) (t : State) : Prop :=
  (c.fpHit e = 0 → Done o c t) ∧ (c.fpHit e ≠ 0 → Traps o c ⟨.fpTrap, 0, 0, c.fpHit e⟩)
/-- The lanes of a float word (R98). -/
abbrev WritesLanes (o : Out) (c : Ctx) (l : List LaneRes) : Prop :=
  FloatDone o c (excAll l) (c.write (valueRegs c.w c.f.d.toNat
    (BitVec.ofNat 64 (joinLanes (fmtOf (Forms.ts c.f)).width (l.map (·.code))))) [])

/-- A transfer to `t` is legal, and its line is held (R13, R48). -/
abbrev Reachable (c : Ctx) (slot : Nat) (t : DWord) : Prop :=
  slot < 5 ∧ t.extractLsb' 57 7 = 0 ∧ (c.s.homeOf (c.s.ctxOf c.th) t).isSome = true ∧
  (c.s.cachedLine c.r.core (c.s.ctxOf c.th) (pcLine t)).any (fun l => l.tmask slot) = true
/-- Two call-stack entries spilled at `loc`, in a line that `s` makes ready, and the entries that stay on chip (R21). -/
abbrev spillCall (c : Ctx) (s : State) (loc : Nat) (mode : AccMode) (out stay : List DWord) : State :=
  let bytes := out.flatMap (fun x => bytesOf 8 x.toNat)
  (dirtyAt mode (c.th.ref.core / 256) loc ((s.writeBytes loc bytes).modCore c.th.ref.core (Core.l1Store loc bytes))).modThread c.th.ref
    (fun t => { t with calls := stay, callsp := t.callsp + 16 })

/-- The checks of an access pass, with this target (R179, R199, R177). -/
abbrev MayAccess (c : Ctx) (sp : Spaces) (need : Need) (n al : Nat) (typeOk : AtomPoint → Bool) (tgt : Target) : Prop :=
  c.warp.faultOf c.f.ck.toNat = none ∧ c.s.checkAccess c.th sp need c.addr n al = .ok tgt ∧
  typeOk (c.s.atomPoint (c.s.ctxOf c.th) c.addr tgt) = true ∧ keyFull c = false
/-- An access has been entered, with its number and the state after: one of a scratchpad, another module's too, is accepted and the thread goes on with its
result pending; another holds its thread until its home answers (R200). -/
abbrev EntersAs (o : Out) (c : Ctx) (tgt : Target) (x : Nat × State) : Prop :=
  match tgt with
  | .scratch _ _ _ => ∃ a, x.2.acc? x.1 = some a ∧ Done o c ((pendingResult a x.2).post (acceptedEvent x.2.device a))
  | .remote _ => ∃ a, x.2.acc? x.1 = some a ∧ Done o c ((pendingResult a x.2).post (acceptedEvent x.2.device a))
  | _ => Waits o c ((x.2.modThread c.th.ref (fun t => { t with status := .accept x.1 })).post (.homeResolve x.1))

/-- The record of n bytes at `p` can be read now, none of the thread's own earlier accesses before it (R17): the state after, and its value
(R228). -/
abbrev ReadsRecord (c : Ctx) (sp : Spaces) (p : DWord) (n : Nat) (t : State) (v : Nat) : Prop :=
  (∃ core loc b, c.s.checkAccess c.th sp .read p n n = .ok (.scratch core loc b) ∧ c.s.ownBefore c.th.ref p loc n false = false ∧
    c.s.badScratch core loc n = false ∧ t = c.s ∧ v = leValue (c.s.readBytes loc n)) ∨
  (∃ g loc mode, c.s.checkAccess c.th sp .read p n n = .ok (.glob g) ∧
    grasp c.s (c.th.ref.core / 256) ⟨0, Forms.policy c.f, c.s.ctxOf c.th⟩ g n false = .ok t loc mode ∧
    t.ownBefore c.th.ref p loc n false = false ∧ v = leValue (t.seen c.th.ref.core loc n))
/-- The consume key is not faulted, and is satisfied at a scope, at the word's first issue or after its wait (R173, R179). -/
abbrev KeyReady (c : Ctx) (scope : Nat) : Prop :=
  c.warp.faultOf c.f.ck.toNat = none ∧
  (c.th.entered.isSome = true ∨ c.s.allPerformed (c.s.waitsNow c.warp c.f.ck.toNat) scope = true)
/-- Where the word has waited for its consume key, the operation with which it joined its produce key performs, unless the word goes on
under its number (R173). -/
abbrev closed (c : Ctx) (t : State) : State :=
  match c.th.entered with
  | some id => closeOp c.th.ref id t
  | none => t
/-- An operation whose checks pass, and for which there is room, is accepted by its engine (R228). -/
abbrev HandsOver (o : Out) (c : Ctx) (t : State) (plan : Except Cause EngPlan) : Prop :=
  ∀ p, plan = .ok p → keyFull c = false → t.engRoom p = true →
    Done o c (enterEng p t.nextId (({ t with nextId := t.nextId + 1 } : State).addOp c.th t.nextId c.f.pk.toNat (pointOfCore c.th.ref.core)))
/-- The barrier object at the word's address is reached, none of the thread's own earlier accesses before it (R17), its key ready (R238,
R278). -/
abbrev ReachesObject (c : Ctx) (need : Need) (scope core loc : Nat) : Prop :=
  checkPtr c.s c.th Spaces.object need c.addr 16 16 = none ∧ scratchLoc c.s c.th c.addr 16 = some (core, loc) ∧
  c.s.ownBefore c.th.ref c.addr loc 16 (decide (need = .write)) = false ∧ KeyReady c scope ∧ c.s.badScratch core loc 16 = false
/-- The state after a thread has sent a message, for whose answer it waits (R256, R264). -/
abbrev sent (c : Ctx) (dst : Nat × Nat) (ptr : Option DWord) (card : BitVec 512) (ev : Nat → Instr) : State :=
  let (id, s) := c.operation c.s
  let m : Message :=
    { id := id, t := some c.th.ref, d := c.f.d.toNat, pk := c.f.pk.toNat, waits := [], scope := Forms.scope c.f, dev := dst.1,
      die := dst.2, ctx := s.ctxOf c.th, ptr := ptr, argp := 0, card := card, graph := none, grp := s.issue.firstId }
  (({ s with messages := s.messages ++ [m] } : State).modThread c.th.ref (fun t => { t with status := .accept id })).post (ev id)

/-- A register or predicate result takes this many cycles to be ready (R19). -/
abbrev latencyOf (c : Ctx) : Nat := (Forms.latency c.op c.f).getD 1

/-- Every byte of memory reads in `t` as it read in `s`. -/
def SameMemory (s t : State) : Prop := ∀ a, Memory.read t.mem a = Memory.read s.mem a
/-- Every byte outside n bytes from `loc` up reads as it read. -/
def SameOutside (loc n : Nat) (s t : State) : Prop :=
  ∀ a, ¬(loc ≤ a ∧ a < loc + n) → Memory.read t.mem a = Memory.read s.mem a
/-- Every thread but `r` is what it was. -/
def OthersSame (r : TRef) (s t : State) : Prop := ∀ q, q ≠ r → t.thread? q = s.thread? q
/-- Every core but `c` is what it was. -/
def OtherCoresSame (c : Nat) (s t : State) : Prop := ∀ k, k ≠ c → t.core k = s.core k

/-- Of a core, at most the registers of a trap, its stop and ctl.fmterr differ. -/
def TrapOnly (k0 k : Core) : Prop :=
  k = { k0 with trapcause := k.trapcause, trapwarp := k.trapwarp, trappc := k.trappc, fpcause := k.fpcause, engrec := k.engrec,
                engop := k.engop, stopped := k.stopped, fmterr := k.fmterr, recCause := k.recCause, recWarp := k.recWarp }
/-- Of a thread, its call stack, its private space, its allocation and its place are what they were. -/
abbrev ThreadPlaceSame (u th : Thread) : Prop :=
  u.calls = th.calls ∧ u.callsp = th.callsp ∧ u.priv = th.priv ∧ u.alloc = th.alloc ∧ u.block = th.block ∧ u.tid = th.tid
/-- Everything beside the threads, the warps, the cores and the model's own bookkeeping is what it was: memory, blocks, gangs,
households, tasks, operations, accesses, engines, key traffic, tables, and every other unit. -/
abbrev RestSame (s t : State) : Prop :=
  t.clock = s.clock ∧ t.mem = s.mem ∧ t.poison = s.poison ∧ t.blocks = s.blocks ∧ t.gangs = s.gangs ∧ t.hhs = s.hhs ∧ t.tasks = s.tasks ∧
  t.ops = s.ops ∧ t.accs = s.accs ∧ t.engs = s.engs ∧ t.sends = s.sends ∧ t.arrivals = s.arrivals ∧ t.paths = s.paths ∧
  t.messages = s.messages ∧ t.tabs = s.tabs ∧ t.tx = s.tx ∧ t.sch = s.sch ∧ t.fab = s.fab ∧ t.ext = s.ext ∧ t.boot = s.boot

/-- An access stores to byte x: one of its data's bytes; for STD the line that it updates; for an atomic its operand; for LDT the scratchpad
bytes of the units still to be moved; for STT the header's version and those units of the tile (R205–R212). -/
def storesAt (s : State) (a : Access) (x : Nat) : Prop :=
  (a.loc ≤ x ∧ x < a.loc + a.data.length) ∨
  match a.op with
  | .std => lineNum a.loc * 128 ≤ x ∧
    x < lineNum a.loc * 128 + (stdLine (s.readBytes (lineNum a.loc * 128) 128) (a.loc % 128) a.data).length
  | .atom _ _ _ _ => a.loc ≤ x ∧ x < a.loc + a.n
  | .ldt sp _ => ∃ u ∈ a.units, sp + 16 * u ≤ x ∧ x < sp + 16 * u + 16
  | .stt _ _ _ => (a.loc ≤ x ∧ x < a.loc + 4) ∨ ∃ u ∈ a.units, a.tileLoc (64 + 16 * u) ≤ x ∧ x < a.tileLoc (64 + 16 * u) + 16
  | _ => False

/-- The tokens of a line: those of the holders of a list, and those in flight (R338, R340). -/
def tokenTotal (holders : List Holder) (s : State) (line : Nat) : Nat :=
  (holders.map (s.tokens line).count).sum +
    ((s.fab.msgs.filter (fun m => m.line == line && m.epoch == (s.tokens line).epoch)).map (·.count)).sum

/-- The instructions that may write a byte of memory: a call that spills, an engine and a barrier object where they are entered or
complete, a store or an atomic where it is performed, and what places, restores, carries and starts the machine's storage. -/
def storesMemory : Instr → Bool
  | .call .. | .callx .. | .cpy .. | .cpyb .. | .cpyf .. | .accld .. | .accst .. | .mma .. | .mdrn .. | .mzero .. => true
  | .obinit .. | .obarr .. | .obarrHold .. | .obexp .. | .obexpRls .. | .chapp .. | .rett .. => true
  | .loadBind .. | .storePerform .. | .maskedWrite .. | .hearthAtomic .. | .bridgeAtomic .. | .bridgeMaskedWrite .. => true
  | .copyWrite .. | .copyBlockDecode .. | .cpyfHopForward .. | .operandsConsumed .. | .mdrnDrain .. | .enginePerform .. => true
  | .chainEntryRun .. | .collCompute .. | .blockDispatch .. | .blockEnd .. | .graphCompletion .. | .resumeRestore .. => true
  | .migrationCopy .. | .linkRetire .. | .hostWrite .. | .poolSegmentUnmap .. | .poolLineFetch .. => true
  | .bootStage .. | .powerGoodReset .. | .powerTelemetry .. | .powerLoss .. => true
  | _ => false

end Sys2Proof.Safety
end

