-- ==== Sys2Proof/Certificates/Slice0/Obligations.lean ====
section
/-! DEFINITION. The statements about the machine. -/

section

open Sys2Proof Sys2Proof.Machine Sys2Proof.Safety

/-- R79–R84: the result of each integer word. -/
def Obligations.IntegerWords : Prop := ∀ (f : Fields) (s : State) (th : Thread),
  WhenIssues 0x000 f s th (fun c => Writes (exec (.add f) s) c c.w (lanes2 (Forms.ts f) (satBit f) (fun x y => x + y) (c.va c.w) (c.vb c.w))) ∧
  WhenIssues 0x001 f s th (fun c => Writes (exec (.sub f) s) c c.w (lanes2 (Forms.ts f) (satBit f) (fun x y => x - y) (c.va c.w) (c.vb c.w))) ∧
  WhenIssues 0x002 f s th (fun c => Done (exec (.addc f) s) c
    (c.write [(f.d.toNat, BitVec.ofNat 32 ((c.va false).toNat + (c.vb false).toNat + (c.pred 2 f.c.toNat).toNat))]
      [(f.c.toNat, decide ((c.va false).toNat + (c.vb false).toNat + (c.pred 2 f.c.toNat).toNat ≥ 2 ^ 32))])) ∧
  WhenIssues 0x003 f s th (fun c => Done (exec (.subb f) s) c
    (c.write [(f.d.toNat, BitVec.ofInt 32 ((c.va false).toNat - (c.vb false).toNat - ((c.pred 2 f.c.toNat).toNat : Int)))]
      [(f.c.toNat, decide ((c.va false).toNat < (c.vb false).toNat + (c.pred 2 f.c.toNat).toNat))])) ∧
  WhenIssues 0x004 f s th (fun c => Writes (exec (.mul f) s) c c.w (lanes2 (Forms.ts f) (satBit f) (fun x y => x * y) (c.va c.w) (c.vb c.w))) ∧
  WhenIssues 0x005 f s th (fun c => Writes (exec (.mulh f) s) c c.w (mulHigh (Forms.ts f) (c.va c.w) (c.vb c.w))) ∧
  WhenIssues 0x006 f s th (fun c => Writes (exec (.mad f) s) c c.w
    (lanes3 (Forms.ts f) (satBit f) (fun x y z => x * y + z) (c.va c.w) (c.vb c.w) (c.vc c.w))) ∧
  WhenIssues 0x007 f s th (fun c => Writes (exec (.madw f) s) c true
    (BitVec.ofInt 64 (scalarInt (Forms.ts f) (c.va false) * scalarInt (Forms.ts f) (c.vb false)) + c.vc true)) ∧
  WhenIssues 0x008 f s th (fun c => Writes (exec (.abs f) s) c c.w
    (lanes1 (Forms.ts f) (satBit f) (fun x => if x < 0 then -x else x) (c.va c.w))) ∧
  WhenIssues 0x009 f s th (fun c => Writes (exec (.neg f) s) c c.w (lanes1 (Forms.ts f) (satBit f) (fun x => 0 - x) (c.va c.w))) ∧
  WhenIssues 0x00A f s th (fun c => Writes (exec (.min f) s) c c.w
    (lanes2 (Forms.ts f) false (fun x y => if x ≤ y then x else y) (c.va c.w) (c.vb c.w))) ∧
  WhenIssues 0x00B f s th (fun c => Writes (exec (.max f) s) c c.w
    (lanes2 (Forms.ts f) false (fun x y => if x ≤ y then y else x) (c.va c.w) (c.vb c.w))) ∧
  WhenIssues 0x00C f s th (fun c => Writes (exec (.clamp f) s) c c.w
    (lanes3 (Forms.ts f) false (fun x y z => min (max x y) z) (c.va c.w) (c.vb c.w) (c.vc c.w))) ∧
  WhenIssues 0x00D f s th (fun c => Writes (exec (.lea f) s) c true
    (c.va true + (if Forms.ts f = 0 then ((c.vb false).extractLsb' 0 32).signExtend 64 else ((c.vb false).extractLsb' 0 32).zeroExtend 64)
      * BitVec.ofNat 64 (2 ^ Forms.mlow f))) ∧
  WhenIssues 0x00E f s th (fun c => Writes (exec (.sad f) s) c false
    (BitVec.ofNat 64 (((c.vc false).toNat + absDiffs (Forms.ts f) (c.va false) (c.vb false)) % 2 ^ 32))) ∧
  WhenIssues 0x00F f s th (fun c => WritesPred (exec (.cmp f) s) c
    (cmpHolds (Forms.mlow f) (scalarInt (Forms.ts f) (c.va c.w)) (scalarInt (Forms.ts f) (c.vb c.w))))

/-- R86–R91: the result of each logic word. -/
def Obligations.LogicWords : Prop := ∀ (f : Fields) (s : State) (th : Thread),
  WhenIssues 0x040 f s th (fun c => Writes (exec (.and f) s) c c.w (c.va c.w &&& c.vb c.w)) ∧
  WhenIssues 0x041 f s th (fun c => Writes (exec (.or f) s) c c.w (c.va c.w ||| c.vb c.w)) ∧
  WhenIssues 0x042 f s th (fun c => Writes (exec (.xor f) s) c c.w (c.va c.w ^^^ c.vb c.w)) ∧
  WhenIssues 0x043 f s th (fun c => Writes (exec (.andn f) s) c c.w (c.va c.w &&& ~~~ c.vb c.w)) ∧
  WhenIssues 0x044 f s th (fun c => Writes (exec (.not f) s) c c.w (~~~ c.va c.w)) ∧
  WhenIssues 0x045 f s th (fun c => Writes (exec (.shl f) s) c c.w (shiftLeft (width (Forms.ts f)) (shiftCount f (c.vb false)) (c.va c.w))) ∧
  WhenIssues 0x046 f s th (fun c => Writes (exec (.shr f) s) c c.w (shiftRight (width (Forms.ts f)) (shiftCount f (c.vb false)) (c.va c.w))) ∧
  WhenIssues 0x047 f s th (fun c => Writes (exec (.sar f) s) c c.w (shiftArith (width (Forms.ts f)) (shiftCount f (c.vb false)) (c.va c.w))) ∧
  WhenIssues 0x048 f s th (fun c => Writes (exec (.rot f) s) c c.w (rotLeft (width (Forms.ts f)) (c.vb false).toNat (c.va c.w))) ∧
  WhenIssues 0x049 f s th (fun c => Writes (exec (.funl f) s) c false
    (funnel (f.m.getLsbD 0) (c.va false) (c.vb false) (c.vc false).toNat)) ∧
  WhenIssues 0x04A f s th (fun c => Writes (exec (.bfx f) s) c c.w (extractField (Forms.ts f) (c.va c.w) (c.vb false))) ∧
  WhenIssues 0x04B f s th (fun c => Writes (exec (.bfi f) s) c c.w (insertField (Forms.ts f) (c.va c.w) (c.vb c.w) (c.vc false))) ∧
  WhenIssues 0x04C f s th (fun c => Writes (exec (.popc f) s) c false (BitVec.ofNat 64 (popCount (width (Forms.ts f)) (c.va c.w)))) ∧
  WhenIssues 0x04D f s th (fun c => Writes (exec (.clz f) s) c false (BitVec.ofNat 64 (leadingZeros (width (Forms.ts f)) (c.va c.w)))) ∧
  WhenIssues 0x04E f s th (fun c => Writes (exec (.brev f) s) c c.w (reverseBits (width (Forms.ts f)) (c.va c.w))) ∧
  WhenIssues 0x04F f s th (fun c => Writes (exec (.bytp f) s) c false
    (BitVec.ofNat 64 (joinLanes 8 ((List.range 4).map (fun i =>
      pickByte ((c.vb false).toNat * 2 ^ 32 + (c.va false).toNat) ((c.vc false).toNat / 2 ^ (4 * i) % 16)))))) ∧
  WhenIssues 0x050 f s th (fun c => Writes (exec (.log3 f) s) c c.w
    (log3Value (f.imm.toNat % 256) (c.va c.w) (c.regv 1 c.w f.b.toNat) (c.vc c.w)))

/-- R93–R96: the result of each move word. -/
def Obligations.MoveWords : Prop := ∀ (f : Fields) (s : State) (th : Thread),
  WhenIssues 0x080 f s th (fun c => Writes (exec (.mov f) s) c c.w (c.va c.w)) ∧
  WhenIssues 0x081 f s th (fun c => Writes (exec (.movi f) s) c c.w (immValue f c.w)) ∧
  WhenIssues 0x082 f s th (fun c => Writes (exec (.sel f) s) c c.w (if c.pred 2 f.c.toNat then c.va c.w else c.vb c.w)) ∧
  WhenIssues 0x083 f s th (fun c =>
    (c.w = false → Tracks (exec (.movs f) s) c false (ofWord (c.special f.a.toNat))) ∧
    (c.w = true → f.a.toNat ≠ 25 → Tracks (exec (.movs f) s) c true (c.special (f.a.toNat + 1) ++ c.special f.a.toNat)) ∧
    (c.w = true → f.a.toNat = 25 → Tracks (exec (.movs f) s) c true th.pc)) ∧
  WhenIssues 0x084 f s th (fun c => WritesPred (exec (.plog f) s) c
    ((f.imm.toNat % 256).testBit (4 * (c.pred 0 f.a.toNat).toNat + 2 * (c.pred 1 f.b.toNat).toNat + (c.pred 2 f.c.toNat).toNat))) ∧
  WhenIssues 0x085 f s th (fun c => Writes (exec (.p2w f) s) c false (BitVec.ofNat 64 (predWord (c.pred 0)))) ∧
  WhenIssues 0x086 f s th (fun c => Done (exec (.w2p f) s) c
    (c.write [] (((List.range 7).filter (fun k => (c.vb false).getLsbD k)).map (fun k => (k, (c.va false).getLsbD k))))) ∧
  WhenIssues 0x087 f s th (fun c => Writes (exec (.rdu f) s) c c.w (c.univ 0 c.w f.a.toNat)) ∧
  WhenIssues 0x088 f s th (fun c => ∃ t, Done (exec (.wru f) s) c t ∧ t.mem = s.mem ∧
    t.warp? th.ref.core th.ref.slot = (s.warp? th.ref.core th.ref.slot).map (fun w =>
      (valueRegs c.w f.d.toNat (c.va c.w)).foldl (fun w q => w.writeU (s.clock + 4) q.1 q.2) w))

/-- R98–R103: the result of each float word, and the FP_TRAP of R325. The model chooses: FRND signals inexact where it changes the value (log 29,
DEDUCED); FCLS's mask is one 32-bit operand, an immediate one raw, whatever the type (log 21, DEDUCED). -/
def Obligations.FloatWords : Prop := ∀ (f : Fields) (s : State) (th : Thread),
  let F := fmtOf (Forms.ts f); let m := modeOf f; let z := ftzOf f
  WhenIssues 0x0C0 f s th (fun c => WritesLanes (exec (.fadd f) s) c (c.sources2.map (fun x =>
    sumRound F m z (x.1.isNan || x.2.isNan) [x.1, x.2]))) ∧
  WhenIssues 0x0C1 f s th (fun c => WritesLanes (exec (.fsub f) s) c (c.sources2.map (fun x =>
    sumRound F m z (x.1.isNan || x.2.isNan) [x.1, x.2.negate]))) ∧
  WhenIssues 0x0C2 f s th (fun c => WritesLanes (exec (.fmul f) s) c (c.sources2.map (fun x =>
    sumRound F m z (x.1.isNan || x.2.isNan) [x.1.mul x.2]))) ∧
  WhenIssues 0x0C3 f s th (fun c => WritesLanes (exec (.ffma f) s) c
    ((c.sources2.zip (sources f (Forms.ts f) 2 (c.vc c.w))).map (fun x =>
      sumRound F m z (x.1.1.isNan || x.1.2.isNan || x.2.isNan) [x.1.1.mul x.1.2, x.2]))) ∧
  WhenIssues 0x0C4 f s th (fun c => WritesLanes (exec (.fmin f) s) c (c.sources2.map (fun x => minMaxNum F false x.1 x.2))) ∧
  WhenIssues 0x0C5 f s th (fun c => WritesLanes (exec (.fmax f) s) c (c.sources2.map (fun x => minMaxNum F true x.1 x.2))) ∧
  WhenIssues 0x0C6 f s th (fun c => WritesPred (exec (.fcmp f) s) c (c.sources2.all (fun x => fcmpHolds (f.c.toNat % 8) x.1 x.2))) ∧
  WhenIssues 0x0C7 f s th (fun c => WritesLanes (exec (.frnd f) s) c ((sources f (Forms.ts f) 0 (c.va c.w)).map (frnd F m z))) ∧
  WhenIssues 0x0C8 f s th (fun c => WritesPred (exec (.fcls f) s) c
    ((c.vb false).getLsbD (fclass F z (smodAbs f 0) (smodNeg f 0) (c.va c.w).toNat))) ∧
  WhenIssues 0x0C9 f s th (fun c =>
    let y := Fmt.f32.source z (smodAbs f 2) (smodNeg f 2) (c.vc false).toNat
    let r := sumRound Fmt.f32 m z (c.sources2.any (fun x => x.1.isNan || x.2.isNan) || y.isNan)
      (c.sources2.map (fun x => x.1.mul x.2) ++ [y])
    FloatDone (exec (.fdot2 f) s) c r.exc (c.write (valueRegs false f.d.toNat (BitVec.ofNat 64 r.code)) []))

/-- R104, R105: the result of each special function is tracked. Where the model's evaluation does not settle a rounding, the result is
`Config.specialOpen` (log 13, DESIGN CHOICE). -/
def Obligations.SpecialFunctionWords : Prop := ∀ (f : Fields) (s : State) (th : Thread),
  let F := fmtOf (Forms.ts f); let m := modeOf f; let z := ftzOf f
  let Special (o : Out) (c : Ctx) (fn : Nat) : Prop :=
    let r := specialFn fn F m z (F.source z (smodAbs f 0) (smodNeg f 0) (c.va c.w).toNat)
      (Config.specialOpen fn (BitVec.ofNat 32 (c.va c.w).toNat)).toNat
    FloatDone o c r.exc (c.tracked c.s (s.clock + 1) (valueRegs c.w f.d.toNat (BitVec.ofNat 64 r.code)) [])
  WhenIssues 0x100 f s th (fun c => Special (exec (.frcp f) s) c 0) ∧
  WhenIssues 0x101 f s th (fun c => Special (exec (.frsq f) s) c 1) ∧
  WhenIssues 0x102 f s th (fun c => Special (exec (.fsqrt f) s) c 2) ∧
  WhenIssues 0x103 f s th (fun c => Special (exec (.fex2 f) s) c 3) ∧
  WhenIssues 0x104 f s th (fun c => Special (exec (.flg2 f) s) c 4) ∧
  WhenIssues 0x105 f s th (fun c => Special (exec (.fsin f) s) c 5) ∧
  WhenIssues 0x106 f s th (fun c => Special (exec (.fcos f) s) c 6) ∧
  WhenIssues 0x107 f s th (fun c =>
    let r := fdiv F m z (F.source z (smodAbs f 0) (smodNeg f 0) (c.va c.w).toNat) (F.source z (smodAbs f 1) (smodNeg f 1) (c.vb c.w).toNat)
    FloatDone (exec (.fdiv f) s) c r.exc (c.tracked c.s (s.clock + 1) (valueRegs c.w f.d.toNat (BitVec.ofNat 64 r.code)) [])) ∧
  WhenIssues 0x108 f s th (fun c => Special (exec (.ftanh f) s) c 8)

/-- R107–R111: the result of each conversion. The model chooses: CVT between two registers of one float format rounds onto it (log 73, DESIGN
CHOICE); PACK with ftz flushes subnormal sources whatever its destination (log 74, DESIGN CHOICE). -/
def Obligations.ConversionWords : Prop := ∀ (f : Fields) (s : State) (th : Thread),
  let td := Forms.td f; let ts := Forms.ts f; let m := modeOf f; let z := ftzOf f
  let put (c : Ctx) (w : Bool) (n : Nat) : State := c.write (valueRegs w f.d.toNat (BitVec.ofNat 64 n)) []
  WhenIssues 0x140 f s th (fun c =>
    (ts ≤ 3 → Done (exec (.cvt f) s) c (put c (Forms.wide td) (laneResult (cvtSat f) td (scalarInt ts (c.va c.w))))) ∧
    (¬ts ≤ 3 →
      let r := convFloat (fmtOf td) m z (cvtSat f && ts == 9 && td == 8) ((fmtOf ts).source z (smodAbs f 0) (smodNeg f 0) (c.va c.w).toNat)
      FloatDone (exec (.cvt f) s) c r.exc (put c (Forms.wide td) r.code))) ∧
  WhenIssues 0x141 f s th (fun c =>
    let r := toInteger m (minInt td) (maxInt td) ((fmtOf ts).source z (smodAbs f 0) (smodNeg f 0) (c.va c.w).toNat)
    FloatDone (exec (.cvti f) s) c r.2 (put c (Forms.wide td) (wrapInt (width td) r.1))) ∧
  WhenIssues 0x142 f s th (fun c =>
    let r := ofInteger (fmtOf td) m z (scalarInt ts (c.va c.w))
    FloatDone (exec (.cvtf f) s) c r.exc (put c (Forms.wide td) r.code)) ∧
  WhenIssues 0x143 f s th (fun c =>
    let pair := Forms.packPairs td ts == some true
    let rs := (packSources f 0 pair (c.va pair) ++
      packSources f 1 pair (if Forms.m4 f then ofWord f.imm else c.regv 1 pair f.b.toNat)).map (packElem f)
    FloatDone (exec (.pack f) s) c (excAll (rs.map (·.1)))
      (setFmterr th.ref.core (rs.any (·.2)) (put c false (joinLanes (fmtOf td).width (rs.map (fun x => x.1.code)))))) ∧
  WhenIssues 0x144 f s th (fun c =>
    let rs := (sources f ts 0 (c.va false)).map ((fmtOf td).round .rne z)
    FloatDone (exec (.unpk f) s) c (excAll rs)
      (c.write (wordRegs f.d.toNat (packWords (fmtOf td) ((Forms.unpkRegs td ts).getD 2) (rs.map (·.code)))) [])) ∧
  WhenIssues 0x145 f s th (fun c =>
    let q := quantBlock (Fmt.bf16.source z false false ((c.vb false).toNat % 2 ^ 16))
      ((c.group 0 f.a.toNat 8).map (fun w => Fmt.f32.source z (smodAbs f 0) (smodNeg f 0) w.toNat))
    FloatDone (exec (.qblk f) s) c q.2.2 (setFmterr th.ref.core q.2.1
      (c.write [(f.d.toNat, BitVec.ofNat 32 (joinLanes 4 q.1.elems)), (f.d.toNat + 1, BitVec.ofNat 32 q.1.scale)] [])))

/-- R48, R113–R115, R21, R49–R51: a legal transfer goes to its target; CALL pushes the fall-through address, RET pops; four on-chip
entries spill two, an empty stack refills two; REP holds its count, and each repetition forms its word. -/
def Obligations.TransferWords : Prop := ∀ (f : Fields) (s : State) (th : Thread),
  WhenIssues 0x180 f s th (fun c => Reachable c (Forms.mlow f) (encodedTarget c) → Jumps (exec (.bra f) s) c c.s (encodedTarget c)) ∧
  WhenIssues 0x181 f s th (fun c => let t := c.pair 0 f.a.toNat
    Reachable c (pcSlot t) t → Jumps (exec (.brx f) s) c c.s t) ∧
  WhenIssues 0x182 f s th (fun c => Reachable c (Forms.mlow f) (encodedTarget c) →
    (th.calls.length ≠ 4 → Jumps (exec (.call f) s) c
      (c.s.modThread th.ref (fun t => { t with calls := th.calls ++ [nextPc th.pc] })) (encodedTarget c)) ∧
    (∀ w x y z u loc mode, th.calls = [w, x, y, z] → th.callsp ≠ spillLimit → privWay c.s th th.ref th.callsp rightsW = .ok u loc mode →
      Jumps (exec (.call f) s) c (spillCall c u loc mode [w, x] [y, z, nextPc th.pc]) (encodedTarget c))) ∧
  WhenIssues 0x183 f s th (fun c => let t := c.pair 0 f.a.toNat
    Reachable c (pcSlot t) t →
    (th.calls.length ≠ 4 → Jumps (exec (.callx f) s) c
      (c.s.modThread th.ref (fun t => { t with calls := th.calls ++ [nextPc th.pc] })) t) ∧
    (∀ w x y z u loc mode, th.calls = [w, x, y, z] → th.callsp ≠ spillLimit → privWay c.s th th.ref th.callsp rightsW = .ok u loc mode →
      Jumps (exec (.callx f) s) c (spillCall c u loc mode [w, x] [y, z, nextPc th.pc]) t)) ∧
  WhenIssues 0x184 f s th (fun c => ∀ rest t, th.calls = rest ++ [t] → Reachable c (pcSlot t) t →
    (rest ≠ [] ∨ th.callsp = spillBase → Jumps (exec (.ret f) s) c (c.s.modThread th.ref (fun x => { x with calls := rest })) t) ∧
    (∀ u loc mode, rest = [] → th.callsp ≠ spillBase → privWay c.s th th.ref (th.callsp - 16) rightsR = .ok u loc mode →
      Jumps (exec (.ret f) s) c (u.modThread th.ref (fun x => { x with
        calls := [BitVec.ofNat 64 (u.readLe loc 8), BitVec.ofNat 64 (u.readLe (loc + 8) 8)], callsp := x.callsp - 16 })) t)) ∧
  WhenIssues 0x187 f s th (fun c => ∀ w, s.wordAt th (nextPc th.pc) = some w → followerFate (opcodeOfWord w) = none →
    badIncrement f (opcodeOfWord w) (fieldsOfWord w) = false →
    Jumps (exec (.rep f) s) c (c.s.modThread th.ref (fun t => { t with rep := some ⟨t.pc, f.imm.toNat % 64 + 1, 0⟩ })) (nextPc th.pc)) ∧
  (∀ r w g i, s.thread? s.issue.cur = some th → th.rep = some r → s.wordAt th th.pc = some w →
    repetition f (fieldsOfWord w) r.j = some g → instrOf (opcodeOfWord w) g = some i →
    exec (.repRepetition f) s = .next (startRepetition i th s))

/-- R116–R120, R128–R130: EXIT, NOP, YIELD, SLEEP, BKPT, TRAP, RJSET and RJWAIT; RJSET with no entry free, and RJWAIT where every other
live thread of the warp waits and none is released, trap REJOIN_CYCLE; and at the end of a cycle every entry whose live expected lanes have all
arrived releases the threads that have arrived at it, and is gone. -/
def Obligations.ControlWords : Prop := ∀ (f : Fields) (s : State) (th : Thread),
  WhenIssues 0x185 f s th (fun c =>
    (th.ref.slot ≠ 64 → Done (exec (.exit f) s) c (exitThread th.ref c.s)) ∧
    (th.ref.slot = 64 → Done (exec (.exit f) s) c (haltCore th.ref.core c.s))) ∧
  WhenIssues 0x186 f s th (fun c => Done (exec (.nop f) s) c c.s) ∧
  WhenIssues 0x18A f s th (fun c => Done (exec (.yield f) s) c c.s) ∧
  WhenIssues 0x18B f s th (fun c =>
    let n := if Forms.m4 f then f.imm.toNat else (c.reg 0 f.a.toNat).toNat
    (n = 0 → Done (exec (.sleep f) s) c c.s) ∧
    (n ≠ 0 → Waits (exec (.sleep f) s) c
      ((c.s.modThread th.ref (fun t => { t with status := .sleep (s.clock + n) })).post (.sleepExpire th.ref)))) ∧
  WhenIssues 0x18C f s th (fun c => Traps (exec (.bkpt f) s) c ⟨.breakpoint, 0, 0, 0⟩) ∧
  WhenIssues 0x18D f s th (fun c => Traps (exec (.trap f) s) c ⟨.trapInsn, 0, 0, 0⟩) ∧
  WhenIssues 0x188 f s th (fun c => Forms.mlow f < 5 →
    let p := encodedTarget c; let mask : Word := (c.va false).extractLsb' 0 32
    let change (g : Warp → Warp) : State := c.s.modWarp th.ref.core th.ref.slot g
    (c.warp.rejoin.any (fun e => e.point == p) = true → Done (exec (.rjset f) s) c (change (fun w => { w with
      rejoin := w.rejoin.map (fun e => if e.point = p then { e with mask := e.mask ||| mask } else e) }))) ∧
    (c.warp.rejoin.any (fun e => e.point == p) = false → 32 ≤ c.warp.rejoin.length → Traps (exec (.rjset f) s) c ⟨.rejoinCycle, 0, 0, 0⟩) ∧
    (c.warp.rejoin.any (fun e => e.point == p) = false → c.warp.rejoin.length < 32 →
      Done (exec (.rjset f) s) c (change (fun w => { w with rejoin := w.rejoin ++ [⟨p, mask, 0⟩] })))) ∧
  WhenIssues 0x189 f s th (fun c =>
    let mates := s.threadsOfWarp th.ref.core th.ref.slot
    (c.warp.rejoin.find? (fun e => e.point == th.pc) = none → Done (exec (.rjwait f) s) c c.s) ∧
    (∀ e, c.warp.rejoin.find? (fun e => e.point == th.pc) = some e →
      let e' : RejoinEntry := { e with arrived := e.arrived ||| BitVec.ofNat 32 (2 ^ th.ref.lane) }
      let goes := rejoinMet (laneMask mates) e' = true ∨ ∃ t ∈ mates, t.ref.lane ≠ th.ref.lane ∧ t.status ≠ .rejoin
      (goes → Waits (exec (.rjwait f) s) c ((c.s.modWarp th.ref.core th.ref.slot (fun w => { w with
        rejoin := w.rejoin.map (fun x => if x.point = th.pc then e' else x) })).modThread th.ref (fun t => { t with status := .rejoin }))) ∧
      (¬goes → Traps (exec (.rjwait f) s) c ⟨.rejoinCycle, 0, 0, 0⟩))) ∧
  (∀ (core slot : Nat) (r : TRef) (x : Thread) (w : Warp), s.warp? core slot = some w → s.thread? r = some x → r.core = core → r.slot = slot →
    let live (i : Nat) : Prop := ∃ t ∈ s.threadsOfWarp core slot, t.ref.lane = i
    let met (e : RejoinEntry) : Prop := (∀ i < 32, e.mask.getLsbD i = true → live i → e.arrived.getLsbD i = true) ∧
      (e.arrived ≠ 0 ∨ e.mask &&& w.left ≠ 0)
    let frees := x.status = .rejoin ∧ ∃ e ∈ w.rejoin, met e ∧ e.arrived.getLsbD r.lane = true
    let t := settleRejoin core slot s
    (frees → t.thread? r = some { x.finish (s.clock + 1) with age := s.clock + 1 }) ∧
    (¬frees → t.thread? r = some x) ∧
    (∃ rest, t.warp? core slot = some { w with rejoin := rest, left := 0 } ∧ ∀ e, e ∈ rest ↔ e ∈ w.rejoin ∧ ¬met e))

/-- R137–R146: a thread whose mask holds its own lane, and agrees with an open instance of its collective, arrives there with what it reads, and
waits; an instance whose every expected thread has arrived completes at the end of the cycle: each participant is ready with equal ages, one with a
stall count above 1 still stalled (log 69, DESIGN CHOICE), and awaits its result: SHFL's source value, VOTE's predicate or ballot, WRED's
reduction, MATCH's mask, ELECT's lowest lane. -/
def Obligations.CollectiveWords : Prop := ∀ (f : Fields) (s : State) (th : Thread),
  let Arrives (o : Out) (c : Ctx) (instr : Nat) (v : DWord) (n : Nat) (x : Bool) : Prop :=
    let mask : Word := if Forms.m3 f then c.reg 2 f.c.toNat else 0xFFFFFFFF
    let isOpen (k : Collective) : Bool := k.pc == th.pc && k.j == th.rep.map (fun r => r.j)
    let p : Participant := { lane := th.ref.lane, d := f.d.toNat, v := v, n := n, x := x }
    let k0 : Collective :=
      { pc := th.pc, j := th.rep.map (fun r => r.j), mask := mask, instr := instr, m := f.m, ty := Forms.ts f, arrived := [p] }
    let change (g : Warp → Warp) : State :=
      (c.s.modWarp th.ref.core th.ref.slot g).modThread th.ref (fun t => { t with status := .collective })
    mask.getLsbD th.ref.lane = true →
    (∀ k, c.warp.colls.find? isOpen = some k → k.mask = mask → Waits o c (change (fun w => { w with
      colls := w.colls.map (fun k => if isOpen k then { k with arrived := k.arrived ++ [p] } else k) }))) ∧
    (c.warp.colls.find? isOpen = none → Waits o c (change (fun w => { w with colls := w.colls ++ [k0] })))
  WhenIssues 0x1C0 f s th (fun c => Arrives (exec (.shfl f) s) c 0 (c.regv 0 c.w f.a.toNat)
    ((if Forms.m4 f then f.imm.toNat else (c.reg 1 f.b.toNat).toNat) % 32) false) ∧
  WhenIssues 0x1C1 f s th (fun c => Arrives (exec (.vote f) s) c 1 0 0 (c.pred 0 f.a.toNat != f.m.getLsbD 2)) ∧
  WhenIssues 0x1C2 f s th (fun c => Arrives (exec (.wred f) s) c 2 (c.regv 0 c.w f.a.toNat) 0 false) ∧
  WhenIssues 0x1C3 f s th (fun c => Arrives (exec (.matchLanes f) s) c 3 (c.regv 0 c.w f.a.toNat) 0 false) ∧
  WhenIssues 0x1C4 f s th (fun c => Arrives (exec (.elect f) s) c 4 0 0 false) ∧
  WhenIssues 0x1C8 f s th (fun c => Arrives (exec (.wsync f) s) c 5 0 0 false) ∧
  (∀ core slot : Nat,
    let full (k : Collective) : Bool := (List.range 32).all (fun i => !(k.mask.getLsbD i) ||
      (s.threadsOfWarp core slot).all (fun t => t.ref.lane != i) || k.arrived.any (fun q => q.lane == i))
    settleColls core slot s = ((s.warp core slot).colls.filter full).foldl (fun s k => completeColl core slot k s)
      (s.modWarp core slot (fun w => { w with colls := w.colls.filter (fun k => !(full k)) }))) ∧
  (∀ (core slot : Nat) (k : Collective) (p : Participant) (x : Thread), (k.arrived.map (fun q => q.lane)).Nodup → p ∈ k.arrived →
    s.thread? ⟨core, slot, p.lane⟩ = some x →
    ∃ u, (completeColl core slot k s).thread? ⟨core, slot, p.lane⟩ = some u ∧ u.status = .ready ∧ u.age = s.clock + 1 ∧
      u.readyAt = Nat.max x.readyAt (s.clock + 1) ∧ u.w = x.w ∧ u.p = x.p ∧ u.calls = x.calls ∧
      ((collResult k p).1 = [] → (collResult k p).2 = [] → u.tracked = x.tracked) ∧
      (¬((collResult k p).1 = [] ∧ (collResult k p).2 = []) → ∃ id, u.tracked = x.tracked ++
        [⟨id, s.clock + (if k.instr = 2 then (if k.ty = 9 then 12 else 8) else 4), true, true, (collResult k p).1, (collResult k p).2⟩])) ∧
  (∀ (k : Collective) (p : Participant), (k.arrived.map (fun q => q.lane)).Nodup → p ∈ k.arrived →
    let vs := k.arrived.map (fun q => q.v)
    let regs (w : Bool) (v : DWord) : Prop := collResult k p = (valueRegs w p.d v, [])
    let lanes (f : Participant → Prop) : Prop := ∃ v : Word, collResult k p = ([(p.d, v)], []) ∧
      ∀ i < 32, v.getLsbD i = true ↔ ∃ q ∈ k.arrived, q.lane = i ∧ f q
    let gives (b : Prop) : Prop := ∃ v : Bool, collResult k p = ([], [(p.d, v)]) ∧ (v = true ↔ b)
    (k.instr = 0 →
      let j : Int := match k.m.toNat % 8 with | 0 => p.n | 1 => p.lane - p.n | 2 => p.lane + p.n | _ => ((p.lane ^^^ p.n : Nat) : Int)
      (∀ q ∈ k.arrived, 0 ≤ j → j ≤ 31 → (q.lane : Int) = j → regs (Forms.wide k.ty) q.v) ∧
      ((j < 0 ∨ 31 < j ∨ ∀ q ∈ k.arrived, (q.lane : Int) ≠ j) → regs (Forms.wide k.ty) p.v)) ∧
    (k.instr = 1 →
      (k.m.toNat % 4 = 0 → gives (∀ q ∈ k.arrived, q.x = true)) ∧
      (k.m.toNat % 4 = 1 → gives (∃ q ∈ k.arrived, q.x = true)) ∧
      (k.m.toNat % 4 = 2 → gives ((∀ q ∈ k.arrived, q.x = true) ∨ ∀ q ∈ k.arrived, q.x = false)) ∧
      (k.m.toNat % 4 = 3 → lanes (fun q => q.x = true))) ∧
    (k.instr = 2 → ∃ v, regs (Forms.wide k.ty) v ∧
      let w := if Forms.wide k.ty then 64 else 32
      let val (y : DWord) : Int :=
        if k.ty % 2 = 0 then (if w = 64 then y.toInt else (y.extractLsb' 0 32).toInt) else (y.toNat : Int)
      let F := if k.ty = 9 then Fmt.f64 else Fmt.f32
      let op := k.m.toNat % 8
      (k.ty ≠ 8 → k.ty ≠ 9 →
        (op = 0 → v.toNat = (vs.map (fun y => y.toNat)).sum % 2 ^ w) ∧
        (op = 1 → v ∈ vs ∧ ∀ y ∈ vs, val v ≤ val y) ∧
        (op = 2 → v ∈ vs ∧ ∀ y ∈ vs, val y ≤ val v)) ∧
      (k.ty = 8 ∨ k.ty = 9 →
        (op = 0 → v = BitVec.ofNat 64 (sumRound F .rne false true (vs.map (fun y => F.decode y.toNat))).code) ∧
        (op = 1 → v = BitVec.ofNat 64 (vs.foldl (fun acc y => (minMaxNum F false (F.decode acc) (F.decode y.toNat)).code) F.nan)) ∧
        (op = 2 → v = BitVec.ofNat 64 (vs.foldl (fun acc y => (minMaxNum F true (F.decode acc) (F.decode y.toNat)).code) F.nan))) ∧
      (op = 3 → ∀ i, v.getLsbD i = true ↔ ∀ y ∈ vs, y.getLsbD i = true) ∧
      (op = 4 → ∀ i, v.getLsbD i = true ↔ ∃ y ∈ vs, y.getLsbD i = true) ∧
      (5 ≤ op → ∀ i, v.getLsbD i = decide ((vs.filter (fun y => y.getLsbD i)).length % 2 = 1))) ∧
    (k.instr = 3 → lanes (fun q => q.v = p.v)) ∧
    (k.instr = 4 → gives (∀ q ∈ k.arrived, p.lane ≤ q.lane)) ∧
    (k.instr = 5 → collResult k p = ([], [])))

/-- R147–R149: a thread arrives at its block, gang or household barrier, at once or, with `.rel`, once its keys are satisfied. The barrier
completes once every live thread of the block, gang or household waits there under its number, every block of it has started and no peer has departed:
a block's threads are then ready, one with a stall count above 1 still stalled (log 69, DESIGN CHOICE), a gang's and a household's are released,
and a released thread goes on. -/
def Obligations.BarrierWords : Prop := ∀ (f : Fields) (s : State) (th : Thread),
  let Arrives (o : Out) (c : Ctx) (level scope : Nat) : Prop :=
    let id := Forms.immBits f 3 0
    (f.m.getLsbD 0 = false ∨ (c.warp.faultOf 15 = none ∧ c.s.keySatisfied c.warp 15 scope = true) →
      Waits o c (checkBarrier level (c.s.ownerAt level th) id (c.s.modThread th.ref (fun t => { t with status := .barrier level id })))) ∧
    (f.m.getLsbD 0 = true → c.warp.faultOf 15 = none → c.s.keySatisfied c.warp 15 scope = false →
      Waits o c (c.s.modThread th.ref (fun t => { t with status := .barrierKeys level id (c.warp.waitsOf 15) })))
  (th.ref.slot ≠ 64 →
    WhenIssues 0x1C5 f s th (fun c => Arrives (exec (.barb f) s) c 0 0) ∧
    WhenIssues 0x1C6 f s th (fun c => Arrives (exec (.barg f) s) c 1 1) ∧
    WhenIssues 0x1C7 f s th (fun c => hhDeparted c = false → Arrives (exec (.barh f) s) c 2 4)) ∧
  (∀ t, s.thread? t = some th → th.status = .released →
    exec (.barrierRelease t) s = .next ((s.modThread t (Thread.finish (s.clock + 1))).progressOf th)) ∧
  (∀ level own id : Nat,
    let named (x : Thread) : Prop := x ∈ s.threads ∧ s.atLevel level own x = true
    let ready := (∃ x, named x) ∧ (∀ x, named x → x.status = .barrier level id) ∧ s.undispatched level own = false ∧
      (level = 2 → ∀ h, s.hh? own = some h → h.att.any Attach.gone = false)
    let t := checkBarrier level own id s
    (¬ready → t = s) ∧
    (ready → ∀ r x, s.thread? r = some x →
      ((∃ y, named y ∧ y.ref = r) →
        (level = 0 → t.thread? r = some (x.finish (s.clock + 1))) ∧
        (level ≠ 0 → t.thread? r = some { x with status := .released } ∧ Instr.barrierRelease r ∈ t.agenda)) ∧
      ((∀ y, named y → y.ref ≠ r) → t.thread? r = some x)))

/-- R199–R212: an access whose checks pass is entered with its kind, its size, its data and its target. One of a scratchpad is
accepted at issue and its result is awaited; another waits for its home to accept it. -/
def Obligations.MemoryWords : Prop := ∀ (f : Fields) (s : State) (th : Thread) (tgt : Target),
  let n := 2 ^ Forms.mlow f
  let Enters (o : Out) (c : Ctx) (sp : Spaces) (need : Need) (n : Nat) (op : AccOp) (d1 d2 : List Byte) (typeOk : AtomPoint → Bool) : Prop :=
    MayAccess c sp need n n typeOk tgt → EntersAs o c tgt (enterAccess c op c.addr tgt n d1 d2 (Forms.rz f) f.c.toNat)
  let Tile (o : Out) (c : Ctx) (need : Need) (mk : Nat → Nat → AccOp) : Prop :=
    ∀ off b, decodePtr (c.pair 1 f.b.toNat) = some (.own off) → off % 32 = 0 → c.s.blockOf th = some b →
    MayAccess c Spaces.mem need 64 64 anyPoint tgt →
    EntersAs o c tgt (enterAccess c (mk (scratchBase b.core + b.spBase + off) (scratchBase b.core + b.spBase + b.spSize)) c.addr tgt 64 [] [] false
      f.c.toNat)
  WhenIssues 0x200 f s th (fun c => Enters (exec (.ld f) s) c Spaces.all .read n (.ld (Forms.m3 f)) [] [] anyPoint) ∧
  WhenIssues 0x201 f s th (fun c => Enters (exec (.st f) s) c Spaces.all .write n .st (c.dataB n) [] anyPoint) ∧
  WhenIssues 0x202 f s th (fun c => Enters (exec (.ldr f) s) c Spaces.mem .read n (.ldr (Forms.m3 f)) [] [] anyPoint) ∧
  WhenIssues 0x203 f s th (fun c => Enters (exec (.ldd f) s) c Spaces.mem .read n (.ldd (Forms.mlow f == 3)) [] [] anyPoint) ∧
  WhenIssues 0x204 f s th (fun c => Enters (exec (.std f) s) c Spaces.mem .write 4 .std (storeBytes 5 (c.group 1 f.b.toNat 2)) [] anyPoint) ∧
  WhenIssues 0x205 f s th (fun c => Tile (exec (.ldt f) s) c .read .ldt) ∧
  WhenIssues 0x206 f s th (fun c => Tile (exec (.stt f) s) c .write (.stt (Forms.m3 f))) ∧
  WhenIssues 0x207 f s th (fun c => Enters (exec (.atom f) s) c Spaces.all .atomic n (.atom true false (f.c.toNat / 16) (f.c.toNat % 16))
    (c.dataB n) [] (fun p => atomSupported p false (f.c.toNat / 16) (f.c.toNat % 16))) ∧
  WhenIssues 0x207 f s th (fun c => Enters (exec (.atomCas f) s) c Spaces.all .atomic n (.atom true true 0 1) (c.dataB n)
    (storeBytes n (c.group 2 f.c.toNat ((n + 3) / 4))) anyPoint) ∧
  WhenIssues 0x208 f s th (fun c => Enters (exec (.red f) s) c Spaces.all .atomic n (.atom false false (f.c.toNat / 16) (f.c.toNat % 16))
    (c.dataB n) [] (fun p => atomSupported p false (f.c.toNat / 16) (f.c.toNat % 16)))

/-- R213–R215: PREF, CCTL and PGREQ enter an access over their range of lines; CCTL.inv1all needs no address, and PGREQ does not
hold its thread. -/
def Obligations.LineWords : Prop := ∀ (f : Fields) (s : State) (th : Thread) (tgt : Target),
  let Enters (o : Out) (c : Ctx) (sp : Spaces) (op : AccOp) : Prop :=
    MayAccess c sp .read 1 1 anyPoint tgt → EntersAs o c tgt (enterAccess c op c.addr tgt 1 [] [] false 7)
  WhenIssues 0x209 f s th (fun c => Enters (exec (.pref f) s) c Spaces.mem (.pref (rangeLen c))) ∧
  WhenIssues 0x20A f s th (fun c => Enters (exec (.cctlInv1 f) s) c Spaces.cctl (.cctl 0 (rangeLen c))) ∧
  WhenIssues 0x20A f s th (fun c => c.warp.faultOf f.ck.toNat = none → keyFull c = false →
    let e := enterAccess c (.cctl 1 0) 0 (.glob 0) 0 [] [] false 7
    Done (exec (.cctlInv1all f) s) c ((e.2.modAcc e.1 (fun a => { a with phase := .accepted })).post (.loadBind e.1))) ∧
  WhenIssues 0x20A f s th (fun c => Enters (exec (.cctlWb2 f) s) c Spaces.cctl (.cctl 2 (rangeLen c))) ∧
  WhenIssues 0x20A f s th (fun c => Enters (exec (.cctlEvict2 f) s) c Spaces.cctl (.cctl 3 (rangeLen c))) ∧
  WhenIssues 0x20B f s th (fun c => MayAccess c Spaces.mem .read 1 1 anyPoint tgt →
    let e := enterAccess c .pgreq c.addr tgt 1 [] [] false 7
    Done (exec (.pgreq f) s) c (e.2.post (.homeResolve e.1)))

/-- R178, R219–R222, R391: the key words, for the thread that answers for its warp, and for the later ones of its issue. -/
def Obligations.KeyWords : Prop := ∀ (f : Fields) (s : State) (th : Thread),
  let pk := f.pk.toNat; let ck := f.ck.toNat; let sc := Forms.scope f
  let Joins (o : Out) (c : Ctx) (src : List Nat) : Prop :=
    (c.keyAnswer = none → Done o c (noteKey th.ref 0 (c.modWarp (Warp.modKey pk (fun k => { k with
      producers := (src.flatMap c.warp.producersOf).eraseDups, fault := src.findSome? c.warp.faultOf }))))) ∧
    (∀ v, c.keyAnswer = some v → Done o c c.s)
  WhenIssues 0x240 f s th (fun c => Joins (exec (.kjoin f) s) c [ck, f.imm.toNat % 16]) ∧
  WhenIssues 0x241 f s th (fun c => Joins (exec (.kcopy f) s) c [ck]) ∧
  WhenIssues 0x242 f s th (fun c => c.warp.faultOf ck = none →
    (c.s.allPerformed (c.warp.waitsOf ck) sc = true → Done (exec (.kwait f) s) c c.s) ∧
    (c.s.allPerformed (c.warp.waitsOf ck) sc = false → Waits (exec (.kwait f) s) c
      (c.s.modThread th.ref (fun t => { t with status := .kwait ck sc (c.warp.waitsOf ck) })))) ∧
  WhenIssues 0x243 f s th (fun c => c.warp.faultOf ck = none →
    let now := c.s.keySatisfied c.warp ck sc
    let answered (t : State) (v : Bool) : State := ({ t with nextId := t.nextId + 1 } : State).track th.ref
      ⟨t.nextId, s.clock + 4, true, true, [], [(f.d.toNat % 8, v)]⟩
    (c.keyAnswer = none → Done (exec (.ktest f) s) c
      (answered (noteKey th.ref now.toNat c.s) now)) ∧
    (∀ v, c.keyAnswer = some v → Done (exec (.ktest f) s) c (answered c.s (v == 1)))) ∧
  WhenIssues 0x244 f s th (fun c => c.warp.faultOf 15 = none → Done (exec (.fence f) s) c c.s) ∧
  WhenIssues 0x245 f s th (fun c => ∀ g h b dst, c.warp.faultOf ck = none → c.s.gangOf th = some g → c.s.hhOf th = some h →
    c.s.blockOf th = some b →
    let v := ((c.va false).extractLsb' 0 32).toNat
    let hh := v / 2 ^ 16 % 16; let blk := v / 2 ^ 10 % 64; let wrp := v / 2 ^ 4 % 64; let slot := v % 16
    v < 2 ^ 20 → slot ≠ 0 → slot ≠ 15 → hh < h.ngang → blk < g.nblock → wrp < (b.ntid + 31) / 32 →
    (hh = g.rank ∧ dst = g.uid ∨ hh ≠ g.rank ∧ h.copyOf th.ref.core g.rank = .attached ∧ h.copyOf th.ref.core hh = .attached ∧
      (((c.s.gangsOfHh h.uid).find? (fun x => x.rank == hh)).map (·.uid)).getD 0 = dst) →
    let ids := (c.warp.producersOf ck).filter (· < s.issue.firstId)
    let pts := ((s.ops.filter (fun o => ids.contains o.id)).flatMap (·.points)).eraseDups
    let x : Send := { id := s.nextId, core := th.ref.core, fromGang := g.uid, gang := dst, block := blk, warp := wrp, slot := slot,
                      scope := sc, ops := ids, points := pts.map (fun p => (p, c.s.sentTo th.ref.core p)), delivered := false, grp := s.issue.firstId }
    let t : State := { c.s with nextId := s.nextId + 1, sends := s.sends ++ [x] }
    Done (exec (.ksend f) s) c ((t.postAll (pts.map (.ksendMarker s.nextId))).post (.arrivalDelivery s.nextId))) ∧
  WhenIssues 0x246 f s th (fun c => ∀ g, pk ≠ 0 → c.keyAnswer = none → (c.warp.key pk).producers = [] → (c.warp.key pk).fault = none →
    (∀ m x, (c.warp.key pk).arrival ≠ .armed m x) → (c.s.blockOf th).map (·.gang) = some g →
    let held := match (c.warp.key pk).arrival with | .held id => some id | _ => none
    let t : State := { c.s with nextId := s.nextId + 1,
                                ops := s.ops ++ [⟨s.nextId, th.ref.core, th.ref.slot, g, 0, []⟩] }
    let t := noteKey th.ref 0 (t.modWarp th.ref.core th.ref.slot (Warp.modKey pk (fun k => { k with arrival := .armed s.nextId held })))
    Done (exec (.krecv f) s) c (satisfySlot (t.warpOf th) pk t)) ∧
  WhenIssues 0x247 f s th (fun c =>
    (pk = 0 → Done (exec (.kclr f) s) c c.s) ∧
    (pk ≠ 0 → c.keyAnswer = none → (c.warp.key pk).producers = [] → (c.warp.key pk).arrival = .none →
      Done (exec (.kclr f) s) c (noteKey th.ref 0 (settle (c.modWarp (Warp.modKey pk (fun _ => ⟨[], none, .none⟩)))))))

/-- R228, R240, R248, R274–R277, R284, R285, R280: an engine word whose key is not faulted, whose record can be read and passes its
checks, and for which there is room, hands its operation over; COLL joins its instance. -/
def Obligations.EngineWords : Prop := ∀ (f : Fields) (s : State) (th : Thread),
  let ck := f.ck.toNat
  let Moves (o : Out) (c : Ctx) (kind : EngKind) (store : Bool) : Prop :=
    let w := (c.reg 1 f.b.toNat).toNat; let st := (c.reg 2 f.c.toNat).toNat; let g := controlRegion w
    let n := (g.rows - 1) * st + 4 * g.cols
    let lo := (match c.s.blockOf th with | some b => b.spBase | none => 0) + c.addr.toNat % 2 ^ 19
    let op : EngOp := { engOf c kind w 0 with src := c.addr, len := st }
    c.warp.faultOf ck = none → st % 4 = 0 → regionCheck c.s th.block g false = none →
    checkPtr c.s th Spaces.ownOnly (if store then .write else .read) c.addr 4 n = none →
    HandsOver o c c.s (.ok { op := op, ranges := if store then [(th.ref.core, lo, lo + n - 1)] else [], charge := 0 })
  WhenIssues 0x280 f s th (fun c => ∀ t r, c.warp.faultOf ck = none → ReadsRecord c Spaces.recordSet c.addr 64 t r →
    HandsOver (exec (.cpy f) s) c t (planCopy t th (engOf c (.cpy (Forms.m3 f)) r c.addr) (c.pair 1 f.b.toNat) (copyOrigin c) (copyObject c))) ∧
  WhenIssues 0x281 f s th (fun c => c.warp.faultOf ck = none →
    HandsOver (exec (.cpyb f) s) c c.s (planBytes c.s th (engOf c (.cpyb (Forms.m3 f)) 0 0) c.addr (c.pair 1 f.b.toNat)
      (c.reg 2 f.c.toNat).toNat (copyObject c))) ∧
  WhenIssues 0x282 f s th (fun c => ∀ t r, c.warp.faultOf ck = none → ReadsRecord c Spaces.recordSet c.addr 64 t r →
    HandsOver (exec (.cpyf f) s) c t (planCopy t th (engOf c .cpyf r c.addr) (c.pair 1 f.b.toNat) (copyOrigin c) (copyObject c))) ∧
  WhenIssues 0x283 f s th (fun c => Moves (exec (.accld f) s) c .accld false) ∧
  WhenIssues 0x284 f s th (fun c => Moves (exec (.accst f) s) c .accst true) ∧
  WhenIssues 0x2C0 f s th (fun c => ∀ t r, c.warp.faultOf ck = none → ReadsRecord c Spaces.recordSet c.addr 64 t r →
    HandsOver (exec (.mma f) s) c t (planMma t th (engOf c .mma r c.addr))) ∧
  WhenIssues 0x2C1 f s th (fun c => ∀ t r, c.warp.faultOf ck = none → ReadsRecord c Spaces.recordSet c.addr 64 t r →
    HandsOver (exec (.mdrn f) s) c t (planMdrn t th (engOf c .mdrn r c.addr))) ∧
  WhenIssues 0x2C2 f s th (fun c => c.warp.faultOf ck = none →
    let w := (c.vb false).toNat % 2 ^ 32
    regionCheck c.s th.block (controlRegion w) (Forms.m3 f) = none →
    HandsOver (exec (.mzero f) s) c c.s (.ok { op := { engOf c (.mzero (Forms.m3 f)) w 0 with scope := 6, policy := 0 },
                                               ranges := [], charge := 0 })) ∧
  WhenIssues 0x289 f s th (fun c => ∀ t r g p, c.warp.faultOf ck = none → ReadsRecord c Spaces.recordSet c.addr 64 t r →
    planColl t th (engOf c .coll r c.addr) = .ok p → t.gangOf th = some g → keyFull c = false → t.engRoom p = true →
    let u := ({ t with nextId := t.nextId + 1 } : State).addOp th t.nextId f.pk.toNat (pointOfCore th.ref.core)
    Done (exec (.coll f) s) c (joinColl g.hh g.uid (clTag r) t.nextId { u with engs := u.engs ++ [{ p.op with id := t.nextId }] }))

/-- R238, R239, R278, R279: each barrier-object word makes its update once its key is ready; OBWAIT goes on at once when the phase
differs from its parity, and waits otherwise. -/
def Obligations.ObjectWords : Prop := ∀ (f : Fields) (s : State) (th : Thread) (core loc : Nat),
  let n (c : Ctx) : Nat := (c.reg 1 f.b.toNat).toNat
  let Updates (o : Out) (c : Ctx) (scope : Nat) (u : ObUpdate) : Prop :=
    ReachesObject c .write scope core loc → ∀ t, objectUpdate loc u c.s = some t → Done o c (closed c t)
  WhenIssues 0x285 f s th (fun c => n c ≠ 0 → n c ≤ 65535 → Updates (exec (.obinit f) s) c 0 (.init (n c))) ∧
  WhenIssues 0x286 f s th (fun c => Updates (exec (.obarr f) s) c 0 .arrive) ∧
  WhenIssues 0x286 f s th (fun c => Updates (exec (.obarrHold f) s) c 0 (.holdArrive (n c))) ∧
  WhenIssues 0x287 f s th (fun c => Updates (exec (.obexp f) s) c (Forms.scope f) (.charge (n c))) ∧
  WhenIssues 0x287 f s th (fun c => Updates (exec (.obexpRls f) s) c (Forms.scope f) (.release (n c))) ∧
  WhenIssues 0x288 f s th (fun c => ReachesObject c .read 0 core loc →
    let par := (c.reg 1 f.b.toNat).getLsbD 0
    (obPhase (c.s.readLe loc 16) ≠ par → Done (exec (.obwait f) s) c (closed c c.s)) ∧
    (obPhase (c.s.readLe loc 16) = par → keyFull c = false →
      let x := c.operation c.s
      Waits (exec (.obwait f) s) c (closed c (x.2.modThread th.ref (fun t => { t with status := .obwait loc par x.1 })))))

/-- R255, R256, R264, R273, R286–R291: POST and MBSEND send and wait for the answer; SPAWN claims a gang and binds it, or gives its
status; MBRECV takes the oldest record, or waits; MBSTAT counts. -/
def Obligations.QueueWords : Prop := ∀ (f : Fields) (s : State) (th : Thread),
  let Gives (o : Out) (c : Ctx) (due : Nat) (ws : List Word) (t : State) : Prop := Done o c (closed c (c.tracked t due (wordRegs f.d.toNat ws) []))
  WhenIssues 0x300 f s th (fun c => ∀ dst tgt, KeyReady c (Forms.scope f) → destOf c.s th.ref.core (c.reg 1 f.b.toNat) = .ok dst →
    c.s.checkAccess th Spaces.globOnly .read c.addr 64 64 = .ok tgt → keyFull c = false →
    Waits (exec (.post f) s) c (closed c (sent c dst (some c.addr) 0 .postArrival))) ∧
  WhenIssues 0x301 f s th (fun c => ∀ g, c.s.gangOf th = some g → g.dispatcher = true → KeyReady c (Forms.scope f) →
    let r := leValue (storeBytes 32 (c.group 1 f.b.toNat 8))
    (spawnBad r = true → Gives (exec (.spawn f) s) c (s.clock + 8) [1] (c.s.progress g.uid)) ∧
    (spawnBad r = false → spawnCores c.s g.die r = none → Gives (exec (.spawn f) s) c (s.clock + 8) [2] (c.s.progress g.uid)) ∧
    (∀ cores, spawnBad r = false → spawnCores c.s g.die r = some cores →
      let h := newHousehold g.task 0 [c.s.device] none c.s
      let x : Birth := { task := g.task, ctx := g.ctx, hh := h.2, rank := 0, shape := Shape.ofSpawn r, entry := recPtr r 192,
                         argp := recPtr r 128, prio := g.prio, posted := h.1.clock, disp := false, spawned := some (recPtr r 64), hold := false }
      Gives (exec (.spawn f) s) c ((bindGang x cores h.1).1.clock + 8) [0] ((bindGang x cores h.1).1.progress g.uid))) ∧
  WhenIssues 0x302 f s th (fun c => ∀ dst, KeyReady c (Forms.scope f) →
    destOf c.s th.ref.core ((c.va false).extractLsb' 0 32) = .ok dst → keyFull c = false →
    Waits (exec (.mbsend f) s) c (closed c (sent c dst none (BitVec.ofNat 512 (leValue (storeBytes 32 (c.group 1 f.b.toNat 8)))) .porchAccept))) ∧
  WhenIssues 0x303 f s th (fun c => c.dispatches = true → KeyReady c 0 → keyFull c = false →
    let die := th.ref.core / 256
    let u := c.operation c.s
    let p := u.2.porch die
    (p.porch = [] → Waits (exec (.mbrecv f) s) c (closed c (u.2.modThread th.ref (fun t => { t with status := .mbrecv u.1 f.d.toNat })))) ∧
    (∀ x r, p.porch = x :: r →
      let t := u.2.setPorch { p with porch := r }
      let t := if p.ring.isEmpty then t else t.postOnce (.porchRefill die)
      Done (exec (.mbrecv f) s) c (closed c (t.track th.ref
        ⟨u.1, t.clock + 4, true, false, wordRegs f.d.toNat ((List.range 8).map (fun i => x.extractLsb' (32 * i) 32)), []⟩)))) ∧
  WhenIssues 0x304 f s th (fun c =>
    let p := c.s.porch (th.ref.core / 256)
    Tracks (exec (.mbstat f) s) c false (BitVec.ofNat 64 (p.q * 2 ^ 27 + p.ring.length * 2 ^ 7 + p.porch.length)))

/-- R250, R292–R294: CHAPP writes its entry and the tail and starts the walk, once the ring has room; CHSEQ loads the completion
word; GLAUNCH gives status 0, 1 or 2. -/
def Obligations.ChainAndGraphWords : Prop := ∀ (f : Fields) (s : State) (th : Thread),
  WhenIssues 0x305 f s th (fun c => ∀ core loc b,
    c.s.checkAccess th Spaces.ownOnly .write c.addr 64 64 = .ok (.scratch core loc b) → KeyReady c (Forms.scope f) →
    c.s.ownBefore th.ref c.addr loc 64 true = false → c.s.badScratch core loc 64 = false →
    let h := c.s.readLe loc 64
    let slot := chnSlot h (chnTail h)
    let bs := storeBytes 64 (c.group 1 f.b.toNat 16)
    let walks (t : State) : State := startWalk core th.block th.ref loc (t.writeBytes (loc + 16) (bytesOf 4 (chnTail h + 1)))
    1 ≤ chnLog h → chnLog h ≤ 16 → (chnTail h + 2 ^ 32 - chnHead h) % 2 ^ 32 ≠ 2 ^ chnLog h →
    (∀ k l x, c.s.checkAccess th Spaces.recordSet .write slot 64 64 = .ok (.scratch k l x) → c.s.ownBefore th.ref slot l 64 true = false →
      Done (exec (.chapp f) s) c (closed c (walks (c.s.writeBytes l bs)))) ∧
    (∀ g t l mode, c.s.checkAccess th Spaces.recordSet .write slot 64 64 = .ok (.glob g) →
      grasp c.s (th.ref.core / 256) ⟨0, Forms.policy f, c.s.ctxOf th⟩ g 64 true = .ok t l mode → t.ownBefore th.ref slot l 64 true = false →
      t.queuedAt core l 64 = false →
      Done (exec (.chapp f) s) c (closed c (walks ((agentPut core l mode bs t).modCore core (Core.l1Store l bs)))))) ∧
  WhenIssues 0x306 f s th (fun c => ∀ core loc b tgt, c.warp.faultOf f.ck.toNat = none →
    c.s.checkAccess th Spaces.ownOnly .read c.addr 64 64 = .ok (.scratch core loc b) →
    c.s.ownBefore th.ref c.addr loc 64 false = false → c.s.badScratch core loc 64 = false →
    let p := chnDone (c.s.readLe loc 64)
    c.s.checkAccess th Spaces.engine .read p 8 8 = .ok tgt → keyFull c = false →
    EntersAs (exec (.chseq f) s) c tgt (enterAccess c .chseq p tgt 8 [] [] false 7)) ∧
  WhenIssues 0x307 f s th (fun c => ∀ t r, KeyReady c (Forms.scope f) → ReadsRecord c Spaces.globOnly c.addr 32 t r →
    let Gives (v : Word) (t : State) : Prop :=
      Done (exec (.glaunch f) s) c (closed c (c.tracked t (s.clock + 1) (wordRegs f.d.toNat [v]) []))
    let die := if recBits r 47 44 = 15 then th.ref.core / 256 else recBits r 47 44
    let bad := die ≥ 12 ∨ recBits r 43 0 ≠ 0 ∨ recBits r 63 48 = 0 ∨ globalAt (recPtr r 192) 32 = false ∨
      (recPtr r 128 ≠ 0 ∧ globalAt (recPtr r 128) 4 = false)
    (bad → Gives 1 t) ∧
    (¬bad → (t.sch.graphs.filter (fun g => g.die == die)).length ≥ 16 → Gives 2 t) ∧
    (¬bad → (t.sch.graphs.filter (fun g => g.die == die)).length < 16 →
      let g : Graph :=
        { id := t.nextId, die := die, ctx := t.ctxOf th, base := recPtr r 192, done := recPtr r 128,
          doneval := BitVec.ofNat 32 (recBits r 127 96), failval := BitVec.ofNat 32 (recBits r 95 64), nodes := recBits r 63 48,
          acts := [], joins := [], loops := [], posting := [], tasks := [], faulted := false }
      Gives 0 (sendAct t.nextId 0 (({ t with nextId := t.nextId + 1 } : State).setGraph g))))

/-- R369–R375: HHATT attaches an unattached gang and waits until every gang is attached; HHDET begins to detach; HHSTAT reads the
core's copy. -/
def Obligations.HouseholdWords : Prop := ∀ (f : Fields) (s : State) (th : Thread),
  WhenIssues 0x340 f s th (fun c => ∀ g h h', c.s.gangOf th = some g → c.s.hhOf th = some h →
    (h.copyOf th.ref.core g.rank).gone = false →
    let t := if h.copyOf th.ref.core g.rank = .unattached then attachGang g c.s else c.s
    t.hh? g.hh = some h' →
    (h'.allAttached th.ref.core = true → Done (exec (.hhatt f) s) c t) ∧
    (h'.allAttached th.ref.core = false → Waits (exec (.hhatt f) s) c (t.modThread th.ref (fun x => { x with status := .hhatt })))) ∧
  WhenIssues 0x341 f s th (fun c => ∀ g h, c.s.gangOf th = some g → c.s.hhOf th = some h →
    let held (t : State) : State := t.modThread th.ref (fun x => { x with status := .hhdet })
    match h.copyOf th.ref.core g.rank with
    | .unattached => Done (exec (.hhdet f) s) c c.s
    | .attached => Waits (exec (.hhdet f) s) c (held (startDetach g.uid c.s))
    | .detaching => Waits (exec (.hhdet f) s) c (held c.s)
    | .detached => Done (exec (.hhdet f) s) c c.s) ∧
  WhenIssues 0x342 f s th (fun c => ∀ h, c.s.hhOf th = some h →
    Tracks (exec (.hhstat f) s) c false (BitVec.ofNat 64
      (2 ^ 16 * gangBits (h.copy th.ref.core) Attach.gone + gangBits (h.copy th.ref.core) (fun x => x == .attached))))

/-- R315–R323: the system words, in the trap warp. The model chooses: which services SYSC knows, which end the gang, and that Serril answers in
the same step and changes nothing else (log 14, DESIGN CHOICE). -/
def Obligations.SystemWords : Prop := ∀ (f : Fields) (s : State) (th : Thread),
  let core := th.ref.core
  WhenIssues 0x380 f s th (fun c =>
    (c.w = true → Tracks (exec (.ctlr f) s) c true (c.s.ctl core f.a.toNat)) ∧
    (c.w = false → Tracks (exec (.ctlr f) s) c false (ofWord (c.s.ctlWord core f.a.toNat)))) ∧
  WhenIssues 0x381 f s th (fun c => ∀ t,
    ctlWrite core f.d.toNat (if Forms.m4 f then ofWord f.imm else c.regv 0 c.w f.a.toNat) c.s = some t → Done (exec (.ctlw f) s) c t) ∧
  WhenIssues 0x382 f s th (fun c => Done (exec (.resume f) s) c (resumeCore core c.s)) ∧
  WhenIssues 0x383 f s th (fun c =>
    let v := (c.reg 0 f.a.toNat).toNat
    let ts := c.s.threadsOfWarp core (v % 64)
    v < 2 ^ 12 →
    (v / 2 ^ 11 % 2 = 1 → ts ≠ [] → Done (exec (.killw f) s) c (killWarp ts c.s)) ∧
    (∀ t, v / 2 ^ 11 % 2 = 0 → ts.find? (fun t => t.ref.lane == v / 64 % 32) = some t → Done (exec (.killw f) s) c (exitThread t.ref c.s))) ∧
  WhenIssues 0x384 f s th (fun c => ∀ x v, c.selected = some x → c.s.readItem x (f.imm.toNat % 2 ^ 16) c.w = some v →
    x.itemPending (f.imm.toNat % 2 ^ 16) c.w = false → Tracks (exec (.snapr f) s) c c.w v) ∧
  WhenIssues 0x385 f s th (fun c => ∀ x t, c.selected = some x →
    c.s.writeItem x (f.imm.toNat % 2 ^ 16) c.w (c.regv 1 c.w f.b.toNat) = some t → Done (exec (.snapw f) s) c t) ∧
  WhenIssues 0x386 f s th (fun c => ∀ x, c.selected = some x →
    let k := c.s.core core
    let entry := match c.s.taskOf x with | some t => jcTrap t.card | none => 0
    let goes (t : State) : State :=
      let t := t.modThread x.ref (Thread.sendTo entry)
      resumeCore core (writeUni x.ref.core x.ref.slot [512 + 62]
        (fun u => u.set 62 ((k.recCause &&& 0xFF) + BitVec.ofNat 32 (256 * x.ref.lane))) t)
    (entry = 0 ∨ (x.calls.length = 4 ∧ x.callsp = spillLimit) → Tracks (exec (.rett f) s) c false 1) ∧
    (entry ≠ 0 → x.calls.length ≠ 4 → Done (exec (.rett f) s) c
      (goes (c.s.modThread x.ref (fun y => { y with calls := x.calls ++ [k.trappc] })))) ∧
    (∀ w p y z u loc mode, entry ≠ 0 → x.calls = [w, p, y, z] → x.callsp ≠ spillLimit →
      privWay c.s x th.ref x.callsp rightsW = .ok u loc mode →
      Done (exec (.rett f) s) c (goes (spillCall { c with th := x } u loc mode [w, p] [y, z, k.trappc])))) ∧
  WhenIssues 0x387 f s th (fun c => Done (exec (.halt f) s) c (haltCore core c.s)) ∧
  WhenIssues 0x388 f s th (fun c =>
    let svc : BitVec 16 := f.imm.extractLsb' 0 16
    let ended : State := match c.s.recGang core with
      | some g => if Config.syscKnown svc && Config.syscEnds svc then endGang g.uid c.s else c.s
      | none => c.s
    Done (exec (.sysc f) s) c (ended.modThread th.ref (fun t => t.putW f.d.toNat
      (if Config.syscKnown svc then Config.syscAnswer s.free svc (c.pair 0 f.a.toNat) else 0xFFFFFFFF))))

/-- R14, R19, R37, R118, R125, R126: ISSUE_GROUP forms a picker's group and issues it, LINE_FETCH and FETCH_PARITY_RETRY bring a line into the
instruction cache, TRACKED_RESULT_WRITE writes a result, and SLEEP_EXPIRE ends a sleep. The model chooses: which line leaves a full instruction
cache (log 81, DESIGN CHOICE); a fetch binds the current bytes (log 11, DESIGN CHOICE); one line serves every thread of its core and context that
waits for it (log 60, DEDUCED). -/
def Obligations.IssueEvents : Prop := ∀ (s : State) (r : TRef) (th : Thread) (id core q : Nat),
  (∀ t g u, s.issue.todo = [] → (s.core core).issues s.clock q = true →
    State.formGroup core q ((s.candidates core q).length + 1) (s.candidates core q) s = (u, some (t, g)) →
    exec (.issueGroup core q) s = .next (beginIssue q (some t.ref.slot) t.pc t.rep.isNone (issueOrder g) u)) ∧
  (∀ x, s.thread? r = some th → th.tracked.find? (fun x => x.id == id) = some x → x.known = true → x.due ≤ s.clock →
    exec (.trackedResultWrite r id) s = .next ((s.setThread (s.writeTracked x th)).received r id)) ∧
  (∀ line p, s.thread? r = some th → th.status = .fetch line → s.invalidating (s.ctxOf th) (globPage line) = false →
    s.lineAt (s.ctxOf th) line = .ok p →
    let loc := p.base + line.toNat % 65536
    let u := countMigration (s.ctxOf th) (globPage line) p s
    let bytes := u.readBytes loc 64
    u.poisonOf loc 64 = none → (lineOf bytes).parityOk = true →
    let held := lineArrived r.core (s.ctxOf th) line (u.modCore r.core (fun k => { k with
        icache := evictOver Config.icacheLines (k.icache.filter (fun l => !(isLine (s.ctxOf th) line.toNat l))) ++
          [⟨s.ctxOf th, line.toNat, bytes, u.clock, 0⟩],
        refetch := k.refetch.filter (fun x => x != line) }))
    exec (.lineFetch r) s = .next held ∧ exec (.fetchParityRetry r) s = .next held) ∧
  (∀ u, s.thread? r = some th → th.status = .sleep u → u ≤ s.clock →
    exec (.sleepExpire r) s = .next (s.modThread r (Thread.finish u)))

/-- R174–R176, R187, R200, R201, R299: an access is resolved at its home, accepted, bound or performed, or fails. -/
def Obligations.AccessEvents : Prop := ∀ (s : State) (id : Nat) (a : Access), s.acc? id = some a →
  (∀ p, a.phase = .sent → (s.pageHome a.ctx a.page).bind (fun h => wayHeld a.die h id s) = none → s.invalidating a.ctx a.page = false →
    s.resolveAcc a = .ok p →
    exec (.homeResolve id) s = .next (((placeAccess a p s).modAcc a.id
      (fun a => { a with phase := .resolved .ok })).post (.accessAccept a.id))) ∧
  (a.phase = .resolved .ok → a.op ≠ .pgreq → s.noOneAwaits a = false → (∀ sp lim, a.op ≠ .ldt sp lim) →
    (∀ aon sp lim, a.op ≠ .stt aon sp lim) →
    exec (.accessAccept id) s = .next (acceptAccess a s)) ∧
  (∀ sx, a.op = .ld sx → a.phase = .accepted → a.mode = .scratch → s.accDue a = true → s.lossOf a = none → s.poisonOf a.loc a.n = none →
    s.badScratch (a.loc / 2 ^ 64 / 8) a.loc a.n = false →
    exec (.loadBind id) s = .next (bindBytes a (s.readBytes a.loc a.n) s)) ∧
  (∀ sx t, a.op = .ld sx → a.phase = .accepted → a.mode ≠ .scratch → (∀ d, a.mode ≠ .remote d) → a.placed = true →
    s.accDue a = true → s.lossOf a = none → s.poisonOf a.loc a.n = none → fromL1 a s.free { s with free := s.free + 1 } = none →
    lineReady a false { s with free := s.free + 1 } = (t, true) →
    exec (.loadBind id) s = .next (
      if a.isRead = true then bindBytes a (t.pastRead ((t.taskStart a.t).getD t.clock) a.loc a.n (Config.ldrBack s.free)) t
      else bindBytes a (t.seen a.t.core a.loc a.n) (fillL1 a a.loc t))) ∧
  (∀ x c o y t, a.op = .atom x c o y → a.phase = .accepted → s.atomsDue a = true → lineReady a true s = (t, true) →
    exec (.loadBind id) s = .next (runAtoms (t.groupSet a) t)) ∧
  (a.op = .st → a.phase = .accepted → s.groupOpen a = false →
    (s.groupSet a).all (fun b => b.phase == .accepted && s.accDue b) = true →
    exec (.storePerform id 0) s = .next (queueStores (s.groupSet a) s)) ∧
  (∀ t, a.phase = .coreDone → s.drainDue a = true → lineReady a true s = (t, true) →
    exec (.storePerform id 3) s = .next (drainStores (.storePerform id 3) (t.groupSet a) t)) ∧
  (∀ c, a.phase = .accepted ∨ a.phase = .coreDone → exec (.accessFailure id c) s = .next (failAccess id c s))

/-- R346, R347, R357, R358: masked writes and atomics at the home and at the bridge; each waits for what holds it, then acts. A
bridge's write redirect hands the write over. -/
def Obligations.HomeAndBridgeEvents : Prop := ∀ (s : State) (id : Nat) (a : Access), s.acc? id = some a →
  (∀ t, a.phase = .coreDone → s.drainDue a = true → homeHeld a.die a.loc id s = none → snoopWrites a s = (t, true) →
    exec (.maskedWrite id) s = .next (drainStores (.maskedWrite id) (t.groupSet a) t)) ∧
  (∀ t, a.phase = .accepted → s.atomsDue a = true →
    (if a.mode = .cached then recallLine (lineNum a.loc) a.id s else snoopWrites a s) = (t, true) →
    exec (.hearthAtomic id) s = .next (runAtoms (t.groupSet a) t)) ∧
  (∀ t, a.phase = .accepted → a.op.cls = .load → s.accDue a = true → snoopData (lineNum a.loc) s = (t, true) →
    t.poisonOf a.loc a.n = none →
    exec (.bridgeReadRequest id) s = .next (bindBytes a (t.seen a.t.core a.loc a.n) (fillL1 a a.loc t))) ∧
  (a.phase = .coreDone → exec (.bridgeWriteRedirect id) s = .next (s.post (.bridgeMaskedWrite id))) ∧
  (∀ t, a.phase = .coreDone → s.drainDue a = true → snoopWrites a s = (t, true) →
    exec (.bridgeMaskedWrite id) s = .next (drainStores (.bridgeMaskedWrite id) (t.groupSet a) t)) ∧
  (∀ t, a.phase = .accepted → s.atomsDue a = true → a.mode = .cached → snoopWrites a s = (t, true) →
    exec (.bridgeAtomic id) s = .next (runAtoms (t.groupSet a) t)) ∧
  (∀ t, a.phase = .accepted → s.atomsDue a = true → a.mode ≠ .cached → lineReady a true s = (t, true) →
    exec (.bridgeAtomic id) s = .next (runAtoms (t.groupSet a) t))

/-- R181–R183, R391: a marker whose covered operations have performed sends its notice, a notice counts, and an arrival is delivered
in the order of its issue; for a saved gang it stays queued; one that found its die's queue full waits for room (log 42, DEDUCED). -/
def Obligations.ArrivalEvents : Prop := ∀ (s : State) (id point : Nat) (x : Send), s.send? id = some x →
  ((assoc point x.points).getD 0 ≤ s.appliedAt x.core point →
    (s.ops.filter (fun o => x.ops.contains o.id && o.points.contains point)).all (fun o => s.performed o.id x.scope) = true →
    exec (.ksendMarker id point) s = .next (s.post (.ksendNotice id point))) ∧
  (∀ w, linkHeld (dieOfPoint point) (s.dieOfSend id) id s = none → s.warpNamed x.gang x.block x.warp = some w →
    exec (.ksendNotice id point) s = .next (satisfySlot w x.slot { s with sends := s.sends.map (fun (y : Send) =>
      if y.id = id then { y with points := y.points.filter (fun p => p.1 != point) } else y) })) ∧
  (x.delivered = false → s.sends.any (fun y => y.grp == x.grp && decide (y.id < x.id) && !y.delivered && y.gang == x.gang &&
      y.block == x.block && y.warp == x.warp && y.slot == x.slot) = false →
    s.undelivered x = false ∨ s.gangAway x = true → linkHeld (x.core / 256) (s.dieOfSend id) id s = none →
    (s.gangAway x = false → exec (.arrivalDelivery id) s = .next (deliver x s)) ∧
    (s.gangAway x = true → exec (.arrivalDelivery id) s = .next { s with
      arrivals := s.arrivals ++ [id],
      sends := s.sends.map (fun (y : Send) => if y.id = id then { y with delivered := true } else y) })) ∧
  (x.delivered = true → s.arrivals.contains id = true →
    (s.hasRoomFor id = false → exec (.arrivalDelivery id) s = .next (s.post (.arrivalDelivery id))) ∧
    (s.hasRoomFor id = true → s.gangAway x = true → exec (.arrivalDelivery id) s = .next s) ∧
    (s.hasRoomFor id = true → s.gangAway x = false → s.undelivered x = false →
      s.slotFree x = true ∨ s.warpNamed x.gang x.block x.warp = none →
      exec (.arrivalDelivery id) s = .next (deliver x { s with arrivals := s.arrivals.filter (· != id) })))

/-- R302–R306: a fault goes from its core's filter to the cluster's stage, into a group, and to the host; each answer releases,
re-requests or denies its page; the driver re-enables PRI, with an allocation that the host sets (log 86, DESIGN CHOICE). -/
def Obligations.PageFaultEvents : Prop := ∀ (s : State) (unit ctx page pasid : Nat),
  (∀ e, s.tx.filters.find? (fun e => e.unit == unit && e.on ctx page) = some e →
    let k := stageOf unit
    let n := s.stageWaiters k ctx page
    let put (l : List FaultEntry) : State := { s with tx := { s.tx with stages := l } }
    (s.tx.stages.find? (fun x => x.unit == k && x.on ctx page) = none → (s.tx.stages.filter (fun x => x.unit == k)).length < 512 →
      exec (.faultFilterForward unit ctx page) s =
        .next ((put (s.tx.stages ++ [{ e with unit := k, waiters := n }])).post (.clusterStageForward k ctx page))) ∧
    (∀ x, s.tx.stages.find? (fun x => x.unit == k && x.on ctx page) = some x →
      let joined := put (upsert (fun x => x.unit == k && x.on ctx page) { x with ask := x.ask.join e.ask, waiters := n } s.tx.stages)
      exec (.faultFilterForward unit ctx page) s =
        .next (if e.ask.within x.ask = true then joined else joined.post (.clusterStageForward k ctx page)))) ∧
  (∀ x, s.tx.stages.find? (fun x => x.unit == unit && x.on ctx page) = some x → s.pasidOf ctx = some pasid →
    let n := s.pageWaiters ctx page
    (s.tx.priOn = false → exec (.clusterStageForward unit ctx page) s = .next (denyPage ctx page s)) ∧
    (∀ g, s.tx.priOn = true → s.tx.groups.find? (sameGroup pasid page) = some g →
      (g.sent = false → g.count = 0 →
        exec (.clusterStageForward unit ctx page) s = .next (s.setGroup { g with ask := g.ask.join x.ask, waiters := n })) ∧
      (g.sent = true ∨ g.count ≠ 0 → exec (.clusterStageForward unit ctx page) s =
        .next (s.setGroup { g with more := if x.ask.within g.ask = true then g.more else g.more.join x.ask, waiters := n }))) ∧
    (s.tx.groups.find? (sameGroup pasid page) = none → s.tx.priOn = true →
      exec (.clusterStageForward unit ctx page) s = .next ((s.setGroup
        ⟨pasid, ctx, page, x.ask, .none, n, 0, none⟩).post (.pageRequestGroup pasid page)))) ∧
  (∀ g, s.tx.groups.find? (sameGroup pasid page) = some g → g.sent = false → s.tx.priOn = true →
    (s.tx.groups.filter (fun g => g.sent)).length < s.groupLimit →
    exec (.pageRequestGroup pasid page) s = .next (s.setGroup { g with index := some s.freePrg, count := g.count + 1 })) ∧
  exec (.pageResidentRelease ctx page) s = .next (releasePage ctx page s) ∧
  (∀ g, s.tx.groups.find? (fun g => sameGroup pasid page g && g.sent) = some g →
    (s.ctxOfPasid pasid = some g.ctx →
      let t := s.setGroup { g with index := none }
      exec (.prgResponseSuccess pasid page) s = .next (if t.invalidating g.ctx page = true then t else askAfresh g.ctx page t)) ∧
    exec (.prgResponseInvalidRequest pasid page) s = .next (denyPage g.ctx page s) ∧
    exec (.prgResponseFailure pasid page) s = .next
      (let t := (s.tx.groups.filter (fun x => x.sent)).foldl (fun s x => denyPage x.ctx x.page s) s
       ({ t with tx := { t.tx with priOn := false } } : State).log 0x09 0 g.ctx 0 (page * 65536) 0)) ∧
  exec .priReenable s = .next { s with
    free := s.free + 1, tx := { s.tx with priOn := true, priAlloc := Nat.min (Config.priAllocation s.free) Config.priCapacity } }

/-- R299, R307–R309: ATS_TRANSLATION_COMPLETION fills the home's cache and settles the page's group, or is discarded where its number is unbound
or a later request stands, or asked again where an invalidation runs; ATS_INVALIDATE_REQUEST is taken up, and INVALIDATE_COMPLETION completes
once nothing accepted under it is in flight and its lines have been recalled; CONTEXT_BIND, with the settings that the driver chooses (log 86,
DESIGN CHOICE), CONTEXT_UNBIND and RETIRE_SWEEP_END bind, unbind and sweep a context number. That a completion is discarded where a later request
for its page stands is the model's reading (log 57, DEDUCED). -/
def Obligations.TranslationEvents : Prop := ∀ (s t : State) (ctx page pasid lo hi : Nat) (reply : AtsReply),
  (∀ home, s.tx.atsOut.find? (fun o => o.2.1 == ctx && o.2.2 == page) = some (home, ctx, page) →
    let u : State := { s with tx := { s.tx with atsOut := s.tx.atsOut.erase (home, ctx, page) } }
    let held := s.accs.filter (fun a => a.phase == .translating && a.ctx == ctx && a.page == page)
    let v := u.postAll (held.map (fun a => .homeResolve a.id))
    let got := AtsReply.rights reply
    let late := (s.pasidOf ctx).isNone = true ∨ u.tx.atsOut.any (fun o => o.2.1 == ctx && o.2.2 == page) = true
    (late → exec (.atsTranslationCompletion ctx page reply) s = .next u) ∧
    (¬late → s.invalidating ctx page = true → exec (.atsTranslationCompletion ctx page reply) s = .next v) ∧
    (¬late → s.invalidating ctx page = false → exec (.atsTranslationCompletion ctx page reply) s =
      .next (settleGroup ctx page got (fillTranslation ⟨home, ctx, page, reply.tpage, got⟩ v)))) ∧
  (s.tx.invs.length < 32 → exec (.atsInvalidateRequest pasid lo hi) s = .next (({ s with
    tx := { s.tx with invs := s.tx.invs ++ [(pasid, lo, hi)] } } : State).post (.invalidateCompletion pasid lo hi))) ∧
  ((pasid, lo, hi) ∈ s.tx.invs → s.ctxOfPasid pasid = some ctx → s.accIn ctx lo hi = false →
    s.fab.moves.any (fun m => m.ctx == ctx && inRange lo hi m.page && m.phase != .request) = false →
    dropPages ctx (inRange lo hi) s = (t, true) →
    let u := resolveAgain ctx lo hi { t with
      engs := t.engs.map (fun e => { e with
        lines := e.lines.filter (fun k => !(e.ctx == ctx && inRange lo hi (globPage (t.lineGlob e (BitVec.ofNat 64 (k / 8 * 128)))))) }),
      tx := { t.tx with invs := t.tx.invs.erase (pasid, lo, hi), invDone := t.tx.invDone + 1 } }
    exec (.invalidateCompletion pasid lo hi) s = .next ((u.askedIn ctx lo hi).foldl (fun s p => askAfresh ctx p s) u)) ∧
  (s.boot.stage = 5 → 0 < ctx → ctx < 4096 → pasid < 2 ^ 20 → s.ctxOfPasid pasid = none → assoc ctx s.tabs.binds = none →
    exec (.contextBind ctx pasid) s = .next { s with free := s.free + 1, tabs := { s.tabs with
      binds := setAssoc ctx (BitVec.ofNat 64 (2 ^ 63 + pasid * 2 ^ 32)) s.tabs.binds,
      ctxs := setAssoc ctx (keptSettings (Config.ctxSettings s.free ctx)) s.tabs.ctxs } }) ∧
  (0 < ctx → s.pasidOf ctx = some pasid → s.gangs.any (fun g => g.ctx == ctx) = false → s.tx.groups.any (fun g => g.pasid == pasid) = false →
    s.tx.invs.any (fun i => i.1 == pasid) = false →
    exec (.contextUnbind ctx) s = .next (({ s with tabs := { s.tabs with
      binds := setAssoc ctx ((assoc ctx s.tabs.binds).getD 0 ||| BitVec.ofNat 64 (2 ^ 62)) s.tabs.binds } } : State).post (.retireSweepEnd ctx))) ∧
  (((assoc ctx s.tabs.binds).getD 0).getLsbD 62 = true → dropPages ctx (fun _ => true) (dropBridge ctx s) = (t, true) →
    exec (.retireSweepEnd ctx) s = .next { t with
      tabs := { t.tabs with binds := eraseAssoc ctx t.tabs.binds },
      tx := { t.tx with atsOut := t.tx.atsOut.filter (fun o => o.2.1 != ctx) },
      cores := t.cores.map (fun k => { k with icache := k.icache.filter (fun l => l.ctx != ctx) }) })

/-- R154, R156, R158, R300, R327, R360: the tables that Serril writes take their entries; a buffer entry only while no access under the old one
is in flight, and the engines see that it changed; a scrub clears a line's poison. The private window's entry is named by a page of 2^48 or more
(log 8, DESIGN CHOICE). With a frame-map entry Serril may give free frames (log 58, DESIGN CHOICE), and a buffer table is one longer than its
highest index (log 87, DESIGN CHOICE). -/
def Obligations.TableEvents : Prop := ∀ (s : State) (ctx i : Nat) (e : DWord) (b : BitVec 128) (home : Home) (seg port base len : Nat),
  (let inWin (page : Nat) : Bool := if page ≥ 2 ^ 48 then i == privWindow else page / 2 ^ 30 % 2 ^ 11 == i
   let held := s.accs.filter (fun a => a.phase == .translating && a.ctx == ctx && inWin a.page)
   exec (.homeWindowWrite ctx i e) s = .next (({ s with tabs := { s.tabs with
     windows := if e = 0 then eraseAssoc (ctx, i) s.tabs.windows else setAssoc (ctx, i) e s.tabs.windows } } : State).postAll
       (held.map (fun a => .homeResolve a.id)))) ∧
  exec (.attributeEntryWrite ctx i e) s = .next { s with
    tabs := { s.tabs with attrs := if e = 0 then eraseAssoc (ctx, i) s.tabs.attrs else setAssoc (ctx, i) e s.tabs.attrs },
    fab := { s.fab with counters := eraseAssoc (ctx, i) s.fab.counters } } ∧
  (bufLegal b = true → i < 2 ^ 20 → s.handleInFlight ctx i = false →
    exec (.bufferEntryChange ctx i b) s = .next { s with
      tabs := { s.tabs with
        bufs := if b = 0 then eraseAssoc (ctx, i) s.tabs.bufs else setAssoc (ctx, i) b s.tabs.bufs,
        bufLen := setAssoc ctx (Nat.max ((assoc ctx s.tabs.bufLen).getD 0) (i + 1)) s.tabs.bufLen },
      engs := s.engs.map (EngOp.sees ctx i),
      sch := { s.sch with saved := s.sch.saved.map (fun v => { v with engs := v.engs.map (EngOp.sees ctx i) }) } }) ∧
  exec (.frameMapWrite home i e) s = .next { s with
    free := s.free + 1,
    tabs := { s.tabs with frames := if e = 0 then eraseAssoc (home, i) s.tabs.frames else setAssoc (home, i) e s.tabs.frames },
    fab := { s.fab with freeFrames := (s.fab.freeFrames ++ (givenFrames s.device s.free)).eraseDups } } ∧
  (seg < 1024 → port < 6 → exec (.poolSegmentBind seg port base len) s = .next { s with tabs := { s.tabs with
    segs := upsert (fun x => x.seg == seg)
      { seg := seg, port := port, base := base, len := len, lost := s.ext.portsLost.contains port, poisoned := false, cleared := [] } s.tabs.segs } }) ∧
  exec (.poisonScrub i) s = .next { s with
    poison := s.poison.filter (fun p => p.1 != i),
    tabs := { s.tabs with segs := s.tabs.segs.map (fun (g : Segment) =>
      if (g.poisoned && g.hasLine i) = true then { g with cleared := i :: g.cleared } else g) } }

/-- R369–R373: a notice reaches a core's copy of the household table, and releases or traps the threads that wait there; a detachment
completes once nothing crosses between the gang and its peers. -/
def Obligations.HouseholdEvents : Prop := ∀ (s : State) (gang core : Nat) (g : Gang), s.gang? gang = some g →
  (let t := s.modHh g.hh (fun h => if h.copyOf core g.rank = .unattached then h.setCopy core g.rank .attached else h)
   exec (.attachNotice gang core) s = .next (releaseAttached g.hh core t)) ∧
  (let t := s.modHh g.hh (fun h => if (h.copyOf core g.rank).gone then h else h.setCopy core g.rank .detaching)
   let waits (x : Thread) : Bool := match x.status with
     | .barrier 2 _ => true
     | .barrierKeys 2 _ _ => true
     | .hhatt => true
     | _ => false
   exec (.detachNotice gang core) s = .next ((t.threads.filter (fun x => x.ref.core == core && waits x && t.inHh g.hh x)).foldl
     (fun s x => raiseTrap x.ref ⟨.hhDeparted, 0, 0, 0⟩ s) t)) ∧
  (∀ h, s.hh? g.hh = some h → h.stateOf g.rank = .detaching → s.detachDue g = true →
    let cs := s.coresOfHh g.hh
    let t := s.modHh g.hh (fun h => cs.foldl (fun h c => h.setCopy c g.rank .detached) { h with att := h.att.set g.rank .detached })
    let u := (t.threads.filter (fun x => x.status == .hhdet && t.inGang gang x)).foldl (fun s x =>
      ((s.modThread x.ref (fun y => { y with status := .released })).progressOf x).post (.barrierRelease x.ref)) t
    let v := postHeldEnds g.hh u
    exec (.detachComplete gang) s =
      .next (v.postAll ((v.sch.colls.filter (fun i => i.hh == g.hh)).map (fun i => .collCompute i.id))))

/-- R313, R314, R323, R326–R328: the trap warp starts at the trap table's entry of the cause; the watchdog traps; a core that met a machine check
is reset and tested; the management core resumes a halted core or ends its gangs; errors are counted and handled where they lie. The model
chooses: a core that is not resumed goes on once its gangs have ended (log 54, DEDUCED); the self-test's result is free, it logs and counts, and
ctl.ttab and ctl.fmterr outlast it (log 44, DESIGN CHOICE); an error that poisons a line counts as both (log 66, DEDUCED). -/
def Obligations.TrapAndErrorEvents : Prop := ∀ (s : State) (core gang : Nat),
  (∀ c, (s.core core).stopped = some c → (s.core core).halted = false → (s.core core).mcheck = false → s.warp? core 64 = none → c < s.clock →
    ∃ t, exec (.trapWarpStart core) s = .next t ∧
      (s.thread? ⟨core, 64, 0⟩ = none → t.thread? ⟨core, 64, 0⟩ = some (Thread.fresh ⟨core, 64, 0⟩ 0 0 64 s.nextId
        ((s.core core).ttab + 64 * ((s.core core).recCause.zeroExtend 64 &&& 0xFF)) (s.clock + 1))) ∧
      t.warp? core 64 = some (Warp.fresh core 64 0 0) ∧ t.cores = s.cores ∧ t.mem = s.mem ∧ t.clock = s.clock) ∧
  (∀ g th, s.gang? gang = some g → s.watchdogThread gang = some th → g.wdInterval ≠ 0 → g.wdInterval * 65536 ≤ g.wdCount →
    g.phase = .running → (s.coresOfGang gang).any (fun c => (s.core c).stopped.isSome) = false →
    exec (.watchdog gang) s = .next (((s.modGang gang (fun x => { x with wdCount := 0 })).modCore th.ref.core (fun k =>
      { recordTrap th ⟨.watchdog, 0, 0, 0⟩ k with stopped := some s.clock })).post (.trapWarpStart th.ref.core))) ∧
  (∀ pass, (s.core core).mcheck = true → s.coreBlocks core = [] →
    let t : State := { s with warps := s.warps.filter (fun w => !(Warp.at core 64 w)) }
    let u := (t.setCore { Core.fresh core with ttab := (s.core core).ttab, fmterr := (s.core core).fmterr, inService := pass }).log 0x01 (core / 256) 0 0
      (s.core core).trappc.toNat (core * 2 + pass.toNat)
    exec (.coreSelfTest core pass) s = .next (wakeAdmission (core / 256) (if pass then u else u.count 9 0 0))) ∧
  ((s.core core).halted = true →
    exec (.managementCoreResume core true) s = .next (resumeCore core s) ∧
    exec (.managementCoreResume core false) s = .next (resumeCore core
      ((((s.coreBlocks core).map (fun b => b.gang)).eraseDups).foldl (fun s g => endGang g s) s))) ∧
  (∀ unit, exec (.correctableError unit) s = .next (s.count 0 unit 0)) ∧
  (∀ line slot reg k r,
    let t (e : ErrorSite) : State := s.count 1 (siteUnit e) 0
    exec (.uncorrectableError (.l1Line core line)) s =
      .next ((t (.l1Line core line)).modCore core (Core.l1Drop (fun l => l.addr == line))) ∧
    exec (.uncorrectableError (.larder line)) s = .next (t (.larder line)) ∧
    exec (.uncorrectableError (.dirtyLine line)) s = .next (poisonLine line .poison (t (.dirtyLine line))) ∧
    (slot < 64 →
      exec (.uncorrectableError (.keyFile core slot)) s =
        .next ((t (.keyFile core slot)).modWarp core slot (fun w => { w with poisoned := true })) ∧
      exec (.uncorrectableError (.rejoinTable core slot)) s =
        .next ((t (.rejoinTable core slot)).modWarp core slot (fun w => { w with poisoned := true }))) ∧
    (r.slot ≠ 64 → exec (.uncorrectableError (.register r reg)) s =
      .next ((t (.register r reg)).modThread r (fun x => { x with marks := (reg, .poison) :: dropMark reg x.marks }))) ∧
    exec (.uncorrectableError (.scratchpad core k)) s =
      .next ((t (.scratchpad core k)).modCore core (fun c => { c with badWords := k :: c.badWords.filter (fun x => x != k) })) ∧
    ((s.thread? ⟨core, 64, 0⟩).isSome = true → exec (.uncorrectableError (.trapWarp core)) s =
      .next (machineCheck core (t (.trapWarp core)))))

/-- R233–R237, R239, R275: a copy writes its next units once its consume key is satisfied, and one line's worth of bytes in one unit of CPYB; a
compressed copy decodes one block at its header; an accepted line is kept; ranges leave at retirement; a hop receives the bytes of the hop before
it, and an arrival on its key. The model chooses: the order of the writes within an operation (log 20, DESIGN CHOICE). -/
def Obligations.CopyEvents : Prop := ∀ (s : State) (id : Nat) (e : EngOp), s.engAct? id = some e →
  (e.phase = .accepted → s.allPerformed e.waits e.scope = true →
    (∀ n t e', copyRun n (s, e) = ((t, e'), .done) → exec (.copyWrite id n) s =
      .next (copyDone e' (deliverTo e' (deliveredBytes e' e.progress e'.progress) (t.setEng e')))) ∧
    (∀ n t e', copyRun n (s, e) = ((t, e'), .again) → exec (.copyWrite id n) s =
      .next ((deliverTo e' (deliveredBytes e' e.progress e'.progress) (t.setEng e')).post (.copyWrite id n))) ∧
    (let p := e.src + BitVec.ofNat 64 e.progress
     let q := e.dst + BitVec.ofNat 64 e.progress
     let n := Nat.min (e.len - e.progress) (Nat.min (128 - p.toNat % 128) (128 - q.toNat % 128))
     ∀ loc mode loc' mode', e.kind = .cpyb false → e.got = [] → e.progress < e.len → s.engReach e p n false = .ok loc mode →
       s.engReach e q n true = .ok loc' mode' → s.engQueued e q n = false →
       let x := engPut q (s.engRead e p n) (s, e)
       let e' : EngOp := { x.2 with progress := e.progress + n }
       exec (.copyWrite id 1) s =
         .next ((deliverTo e' (deliveredBytes e' e.progress e'.progress) (x.1.setEng e')).post (.copyWrite id 1))) ∧
    (e.len ≤ e.progress → exec (.copyBlockDecode id) s = .next (copyDone e s)) ∧
    (∀ loc mode bs,
      let blk := (e.orig.getD 1 0).toNat
      let h := e.src + BitVec.ofNat 64 (e.orig.getD 0 0).toNat
      let v := leValue (s.engRead e h 4)
      let n := Nat.min 4096 (e.len - e.progress)
      let q := e.dst + BitVec.ofNat 64 e.progress
      e.progress < e.len → s.engReach e h 4 false = .ok loc mode → v / 2 ^ 30 < 3 → v / 2 ^ 13 % 2 ^ 17 = 0 →
      0 < v % 2 ^ 13 → v % 2 ^ 13 ≤ 4096 → e.progress / 4096 ≤ blk → s.firstBar e [(h + 4, v % 2 ^ 13)] false = none →
      s.firstBar e [(q, n)] true = none → s.engQueued e q n = false →
      decodeBlock (v / 2 ^ 30) n (s.engRead e (h + 4) (v % 2 ^ 13)) = some bs →
      let x := engPut q bs (s, e)
      let e' : EngOp := { x.2 with
        progress := e.progress + n,
        orig := [(((e.orig.getD 0 0).toNat + 4 + (v % 2 ^ 13 + 3) / 4 * 4 : Nat) : Int), ((blk + 1 : Nat) : Int)] }
      exec (.copyBlockDecode id) s = .next ((deliverTo e' n (x.1.setEng e')).post (.copyBlockDecode id))) ∧
    (∀ line t loc mode, let p : DWord := BitVec.ofNat 64 (line / 8 * 128 + if line / 2 % 4 = 2 then 64 else 0)
      let g := s.lineGlob e p
      grasp s e.die e.asker g (if line / 2 % 4 = 3 then 128 else 64) (line % 2 == 1) = .ok t loc mode →
      let e' : EngOp := { e with lines := e.keep line, channel := t.channelAt e.ctx p g 0 loc }
      let u := addPoint id e.core (t.pointOfGlob e.ctx g) (t.setEng e')
      exec (.copyLineAccept id line) s = .next (u.post (engineGo u e')))) ∧
  (e.phase = .written → exec (.copyRetire id) s = .next ((dropRanges id s).post (.enginePerform id))) ∧
  (∀ h a b, let l := layoutOf e.recN
    let off := e.dst.toNat % 2 ^ 19
    e.phase = .hopping h → hopBlock s e.block l (h - 1) = some a → hopBlock s e.block l h = some b →
    s.badScratch a.core (scratchBase a.core + a.spBase + off) l.bytes = false →
    let t := s.writeBytes (scratchBase b.core + b.spBase + off) (s.readBytes (scratchBase a.core + a.spBase + off) l.bytes)
    let x : Send := ⟨t.nextId, e.core, e.gang, e.gang, b.rank, l.hopwarp, l.hopkey, 0, [], [], false, 0⟩
    let e' : EngOp := { e with phase := if h + 1 ≤ l.hops then .hopping (h + 1) else .written }
    let u := (deliver x { t with nextId := t.nextId + 1, sends := t.sends ++ [x] }).setEng e'
    exec (.cpyfHopForward id) s = .next (u.post (engineGo u e')))

/-- R241–R249, R189: a slice of a product is computed from its rows and columns and added to its accumulator words; the operands are then
consumed; a drain writes a slice of rows; the move and the zeroing of accumulators, and every operation that has written, perform. The model
chooses: the order of the writes within an operation, piece by piece (log 20, DESIGN CHOICE); of a paired operation each core's ctl.fmterr tells
of any block (log 88, DESIGN CHOICE). -/
def Obligations.TileEvents : Prop := ∀ (s : State) (id : Nat) (e : EngOp), s.engAct? id = some e →
  (let r := e.recN
   let a := opA r
   let b := opB r
   let k := mmaK r
   let n := recBits r 287 272
   let rows := (List.range (Nat.min 16 (e.region.rows - e.progress))).map (e.progress + ·)
   let cols := List.range n
   let int := a.code = 4 ∨ a.code = 5
   let bv := if int then [] else cols.map (b.vals s e k)
   let bi := if int then cols.map (b.ints s e k) else []
   let out := rows.map (fun i =>
     (i, mmaRow s e (outliers s e) (bv.map (fun l => l.map (·.1))) bi ((s.accRow e i).getD (cols.map (fun _ => 0))) i))
   e.phase = .accepted → s.allPerformed e.waits e.scope = true → s.accHeld e = false →
   s.firstBar e ([(recPtr r 128, 8 * recBits r 319 304)] ++ rows.map (a.row k) ++ cols.map (b.row k)) false = none →
   (e.orig.isEmpty = true → (outliers s e).any (fun x => decide (x / 2 ^ 36 % 2 ^ 28 ≠ 0)) = false) →
   rows.all (a.agrees s e k) = true → cols.all (b.agrees s e k) = true →
   rows.any (fun i => (s.accRow e i).isNone && r.testBit 352) = false →
   let bad := bv.any (fun l => l.any (·.2))
   let far := match e.pair, s.mateOf e with | true, some m => [m.1] | _, _ => []
   let t := setFmterr e.core (bad || out.any (fun x => x.2.2 && decide (x.1 < 128))) (out.foldl (fun t x => accPut e x.1 x.2.1 t) s)
   let t := far.foldl (fun t c => setFmterr c (bad || out.any (fun x => x.2.2 && decide (x.1 ≥ 128))) t) t
   let e' : EngOp := { e with
     progress := e.progress + rows.length, orig := [1],
     phase := if e.progress + rows.length ≥ e.region.rows then .written else .accepted }
   exec (.mmaSliceWrite id) s = .next ((t.setEng e').post (engineGo (t.setEng e') e'))) ∧
  (let r := e.recN
   let g := e.region
   let whole := (drainD r).fmt = 5 ∨ (drainT? r).any (fun t => t.fmt == 5) = true
   let n := if whole then g.rows - e.progress else Nat.min 16 (g.rows - e.progress)
   let rows := (List.range n).map (e.progress + ·)
   let grid := (rows.map (s.accRow e)).map (fun w => w.getD [])
   let d := (drainD r).writes (r.testBit 257) e.progress false grid
   let t := match drainT? r with
     | some t => t.writes (r.testBit 257) e.progress true (transposeRows g.cols grid)
     | none => ([], false)
   let all := d.1 ++ t.1
   e.phase = .accepted → s.allPerformed e.waits e.scope = true → s.accHeld e = false →
   (rows.map (s.accRow e)).any Option.isNone = false →
   ∀ x, (putPieces all).zipIdx.foldl (fun y q => putPiece y q.2 q.1.1 q.1.2) ((s, e), ⟨none, false⟩) = (x, ⟨none, false⟩) →
   let u := (s.engCores e).foldl (fun s c => setFmterr c (d.2 || t.2) s) x.1
   let v := if r.testBit 258 then rows.foldl (fun s i => accPut e i (g.colList.map (fun _ => 0)) s) u else u
   let e' : EngOp := { x.2 with
     progress := e.progress + n, put := [], phase := if e.progress + n ≥ g.rows then .written else .accepted }
   exec (.mdrnDrain id) s = .next ((v.setEng e').post (engineGo (v.setEng e') e'))) ∧
  (∀ (y : (State × EngOp) × PutEnd) i p (bs : List Byte) loc mode, (∀ c, y.2.bar ≠ some (.stop c)) → y.1.2.put.contains i = false →
    y.1.1.engReach y.1.2 p bs.length true = .ok loc mode → y.1.1.engQueued y.1.2 p bs.length = false →
    let z := engPutLine p bs y.1
    putPiece y i p bs = ((z.1, { z.2 with put := i :: z.2.put }), y.2)) ∧
  (e.phase = .written → e.consumed = false →
    (e.obj = none → exec (.operandsConsumed id) s = .next ((s.setEng { e with consumed := true }).post (.enginePerform id))) ∧
    (∀ loc t, e.obj = some loc → objectUpdate loc .arrive s = some t →
      exec (.operandsConsumed id) s = .next ((t.setEng { e with consumed := true }).post (.enginePerform id)))) ∧
  (∀ t, (e.kind = .accld ∨ e.kind = .accst ∨ ∃ p, e.kind = .mzero p) → e.phase = .accepted →
    s.allPerformed e.waits e.scope = true → s.accHeld e = false → accEffect e s = some t →
    exec (.enginePerform id) s = .next (performEng e (dropRanges id t))) ∧
  (e.kind ≠ .accld → e.kind ≠ .accst → (∀ p, e.kind ≠ .mzero p) → e.phase = .written → (e.kind = .mma → e.consumed = true) →
    exec (.enginePerform id) s = .next (performEng e s))

/-- R190, R251, R252, R281, R282: the chain's engine starts its next entry, and stores the completion word and head of one that has performed; an
entry that stopped stops the chain. A collective whose participants on this module have joined reads every source and then writes every
destination, in an order that the model chooses (log 20, DESIGN CHOICE); participants on other modules are taken to have joined, with free
sources (log 17, DESIGN CHOICE). -/
def Obligations.ChainEvents : Prop := ∀ (s : State) (id : Nat),
  (∀ k, s.chain? id = some k → k.walking = true → s.blockRuns k.block = true →
    (k.busy = none → exec (.chainEntryRun id) s = .next (nextEntry k s)) ∧
    (k.busy = none → s.badScratch k.core k.hdr 64 = false → chnHead (s.readLe k.hdr 64) = chnTail (s.readLe k.hdr 64) → recBits (s.readLe k.hdr 64) 511 208 = 0 →
      chnScope (s.readLe k.hdr 64) ≤ 6 → recBits (s.readLe k.hdr 64) 198 197 = 0 → 0 < chnLog (s.readLe k.hdr 64) →
      chnLog (s.readLe k.hdr 64) ≤ 16 → exec (.chainEntryRun id) s = .next (s.setChain { k with walking := false })) ∧
    (∀ o core loc b, k.busy = some o → s.eng? o = none → s.checkAccess (agent k.core k.block) Spaces.engine .write
        (chnDone (s.readLe k.hdr 64)) 8 8 = .ok (.scratch core loc b) →
      exec (.chainEntryRun id) s = .next ((((s.writeBytes loc (bytesOf 8 (k.count + 1))).writeBytes (k.hdr + 20)
        (bytesOf 4 (k.count + 1))).setChain { k with busy := none, count := k.count + 1 }).post (.chainEntryRun id))) ∧
    (∀ o e, k.busy = some o → s.eng? o = some e → e.stopped = true → exec (.chainEntryRun id) s = .next (stopChain k false s))) ∧
  (∀ i e0, s.sch.colls.find? (fun i => i.id == id) = some i → i.parts.findSome? (fun p => s.eng? p.2) = some e0 →
    let r := e0.recN
    let es := collParts s i
    es.any (fun e => e.stopped) = false →
    es.any (fun e => clShape e.recN != clShape r) = false → collOrphan s i r = false → es.length = (s.collHere i r).length →
    es.any (fun e => e.phase != .accepted || (s.engAct? e.id).isNone) = false → es.all (fun e => s.allPerformed e.waits 4) = true →
    ∀ u v, collRead r es s = (u, none) →
    let es := collParts u i
    collWrite (es.zip (u.collWrites i r es)) u = (v, none, false) →
    exec (.collCompute id) s = .next ((collParts v i).foldl (fun s e => performEng e s) v))

/-- R255–R258, R266, R329, R331: an arriving card is read, checked and answered in turn; each admission chooses the open dies anew, then binds
the chosen item, or holds it; an item ages after 1 ms; a household across dies takes its number, sends its requests, and starts, or resumes, when
every die has reserved (when those of other modules have is a free choice: log 17, DESIGN CHOICE); a request of another module's household raises
the counter and makes an item of its die (log 17, DESIGN CHOICE, log 47, DEDUCED); a held item of priority 6 or 7 pre-empts after 100 µs. The
model chooses: a dispatcher's card is admitted from anywhere in its die's queues (log 46, DEDUCED); requests keep their queue, and are numbered
when their card heads it (log 47, DEDUCED); a household's gangs resume each on its own die first (log 48, DESIGN CHOICE); a gang that names any
die is placed beside the household's other gangs (log 63, DESIGN CHOICE). -/
def Obligations.AdmissionEvents : Prop := ∀ (s : State) (id die : Nat),
  (∀ m, s.message? id = some m →
    s.messages.any (fun x => x.grp == m.grp && decide (x.id < id) && x.dev == m.dev && x.die == m.die) = false → m.heldOnWay s = none →
    (m.ptr = none → jcPlace m.card = 0 → m.dev = s.device → exec (.postArrival id) s = .next (decideCard m m.card [] s)) ∧
    (∀ t bs p, let n := leValue bs
      let card : BitVec 512 := BitVec.ofNat 512 (if m.argp == 0 then n else n - n / 2 ^ 256 % 2 ^ 64 * 2 ^ 256 + m.argp.toNat * 2 ^ 256)
      m.ptr = some p → graspBytes m.t (match m.t with | some r => r.core / 256 | none => m.die) m.ctx (pieces p 64) s = .ok t bs →
      jcPlace card = 0 → m.dev = t.device → exec (.postArrival id) s = .next (decideCard m card [] t))) ∧
  (∀ queue ctx (card : BitVec 512),
    let c : BitVec 512 := BitVec.ofNat 512 (card.toNat - cardBits card 54 49 * 2 ^ 49 + queue % 64 * 2 ^ 49)
    exec (.hostDoorbell die queue ctx card) s = .next (({ s with
      nextId := s.nextId + 1,
      messages := s.messages ++ [⟨s.nextId, none, 255, 0, [], 6, s.device, die, ctx, none, 0, c, none, s.nextId⟩] } : State).post
        (.postArrival s.nextId))) ∧
  (let r := yieldAll die ((s.sch.items.filter (fun x => !x.chosen.isEmpty && x.parent.isNone)).foldl (fun s x => rechoose x s) s)
   let u := ((r.heads die).filter (fun x => !(r.localItem x) && x.seq.isNone && !(jcDisp x.card))).foldl
     (fun s x => s.postOnce (.householdSequenceNumber x.id)) r
   (∀ x, u.dispatcherCard die = some x → exec (.admissionDecision die) s = .next (admitDispatcher x u)) ∧
   (u.dispatcherCard die = none →
     (u.chooseItem die = none → exec (.admissionDecision die) s = .next u) ∧
     (∀ w t, u.chooseItem die = some w → bindItem w u = some t →
       exec (.admissionDecision die) s = .next (t.postOnce (.admissionDecision die))) ∧
     (∀ w, u.chooseItem die = some w → bindItem w u = none → exec (.admissionDecision die) s = .next (holdItem w u)))) ∧
  (16 ≤ die → die % 16 < 12 →
    exec (.reservationRequest id die) s = .next (awayRequest (die / 16 - 1) (die % 16) id s)) ∧
  (∀ x, s.item? id = some x →
    (x.aged = false → x.posted + 1400000 ≤ s.clock →
      exec (.ageing die id) s = .next (((s.sch.items.filter (fun y => y.parent == some id)).map (·.die)).foldl
        (fun s d => s.postOnce (.admissionDecision d)) (wakeAdmission die (s.setItem { x with aged := true })))) ∧
    (x.seq = none → x.parent = none → x.resume = [] →
      let n := s.sch.seqCounter + 1
      let chosen := s.chooseDies (Shape.ofCard x.card) x.die [] (placesOf s.device x.die x.card x.place)
      let t := ((newHousehold x.task x.next (chosen.map (·.1)) (some (n, s.device))
        { s with sch := { s.sch with seqCounter := n } }).1).setItem { x with seq := some (n, s.device), chosen := chosen }
      let ds := ((chosen.filter (fun p => p.1 == s.device)).map (·.2)).eraseDups
      exec (.householdSequenceNumber id) s =
        .next (if ds.isEmpty then t.post (.holdClear id) else t.postAll (ds.map (fun d => .reservationRequest id d)))) ∧
    (die < 12 → x.seq.isSome = true → s.sch.items.any (fun y => y.parent == some id && y.die == die) = false →
      let here := (List.range x.resume.length).filter (fun i => x.chosen[i]? == some (s.device, die))
      exec (.reservationRequest id die) s = .next (({ s with
        nextId := s.nextId + 1,
        sch := { s.sch with items := s.sch.items ++ [{ x with
          id := s.nextId, die := die, parent := some id, reserved := [], resume := here.map (fun i => x.resume.getD i 0) }] } } :
          State).postOnce (.admissionDecision die))) ∧
    (let ds := ((x.chosen.filter (fun p => p.1 == s.device)).map (·.2)).eraseDups
     let rs := s.sch.items.filter (fun y => y.parent == some id)
     let gs := rs.flatMap (·.reserved)
     let u : State := { s with free := s.free + 1 }
     let v := rs.foldl (fun s y => s.dropItem y.id) u
     let t := ({ v with blocks := v.blocks.map (fun (b : Block) => if gs.contains b.gang then { b with hold := false } else b) } : State).postAll
       (((v.blocks.filter (fun b => gs.contains b.gang)).map (·.uid)).map .blockDispatch)
     x.seq.isSome = true → ds.all (fun d => rs.any (fun y => y.die == d && !y.reserved.isEmpty)) = true →
     (x.chosen.any (fun p => p.1 != s.device) && (Config.openWord s.free).getLsbD 0) = false →
     (x.resume ≠ [] → exec (.holdClear id) s = .next (finishRebind gs (rs.foldl (fun s y => s.dropItem y.id) (u.dropItem id)))) ∧
     (x.resume = [] → exec (.holdClear id) s =
       .next ((advanceItem x (if ds.isEmpty then abstractHousehold x t else t)).postOnce (.admissionDecision x.die))))) ∧
  (∀ since x, s.sch.heldItem.findSome? (fun h => if h.1 = die then
      (s.item? h.2.1).bind (fun x => if s.eff x ≥ 6 then some (h.2.2, x) else none) else none) = some (since, x) →
    since + holdCycles ≤ s.clock → s.gangs.any (fun g => g.die == die && (g.phase == .stopping || g.wanted)) = false →
    (∀ t, bindItem x s = some t → exec (.preemptHoldTimeout die) s = .next (s.postOnce (.admissionDecision die))) ∧
    (bindItem x s = none →
      (∀ g, s.victimFor die (s.eff x) = some g →
        exec (.preemptHoldTimeout die) s = .next ((askPreempt g s).post (.preemptHoldTimeout die))) ∧
      (s.victimFor die (s.eff x) = none → exec (.preemptHoldTimeout die) s = .next (s.post (.preemptHoldTimeout die)))))

/-- R259–R261, R264, R330, R331, R371: a bound block starts, its memory zero and its warps placed; one that has nothing left ends; the
Porch and its ring take records in order; a pre-empted gang that has drained is saved, and one that is bound again is restored. -/
def Obligations.BlockAndPorchEvents : Prop := ∀ (s : State) (id die : Nat),
  (∀ b g, s.block? id = some b → s.gang? b.gang = some g →
    (b.state = 1 → b.hold = false → (g.phase = .bound ∨ g.phase = .running) →
      let t := (zeroBlock b s).modCore b.core (fun k => { k with
        icache := k.icache.filter (fun l => l.ctx != g.ctx), fpen := (s.ctxConfig g.ctx).fpen })
      let u := ({ t with blocks := t.blocks.map (fun (x : Block) => if x.uid = id then { x with state := 2 } else x) } : State).modGang
        g.uid (fun x => { x with phase := .running })
      exec (.blockDispatch id) s = .next (recheck b.core ((List.range b.shape.warps).foldl (fun s w => startWarp b w s) u))) ∧
    (b.state = 0 → exec (.blockEnd id) s = .next (endLast b g s)) ∧
    (b.state ≠ 0 → b.state ≠ 1 → s.threadsOfBlock id = [] → (g.phase = .running ∨ g.phase = .bound) → s.endHeld g = false →
      s.blockBusy b = false →
      let t : State := { s with blocks := s.blocks.map (fun (x : Block) => if x.uid = id then { x with state := 3 } else x) }
      exec (.blockEnd id) s = .next (if t.blocks.any (fun x => x.gang == g.uid && x.uid != id) then wakeAdmission g.die (removeBlock b t)
        else endLast b g (wakeAdmission g.die (freeBlock b t))))) ∧
  (∀ m, s.message? id = some m →
    s.messages.any (fun x => x.grp == m.grp && decide (x.id < id) && x.dev == m.dev && x.die == m.die) = false → m.heldOnWay s = none → m.dev = s.device →
    let p := s.porch m.die
    let x : BitVec 256 := m.card.extractLsb' 0 256
    (p.ring = [] → p.porch.length < 32 → exec (.porchAccept id) s =
      .next (wakeReceivers m.die (sendAccepted m (s.setPorch { p with porch := p.porch ++ [x] })))) ∧
    (p.ring ≠ [] → p.porch.length < 32 → exec (.porchAccept id) s = .next ((s.postOnce (.porchRefill m.die)).post (.porchAccept id))) ∧
    (32 ≤ p.porch.length → p.ring.length < 2 ^ p.q → exec (.porchAccept id) s =
      .next (sendAccepted m (s.setPorch { p with ring := p.ring ++ [x] }))) ∧
    (32 ≤ p.porch.length → 2 ^ p.q ≤ p.ring.length → exec (.porchAccept id) s = .next (refuseMessage m .queueOverflow s))) ∧
  (∀ x r, (s.porch die).ring = x :: r → (s.porch die).porch.length < 32 →
    let t := wakeReceivers die (s.setPorch { s.porch die with porch := (s.porch die).porch ++ [x], ring := r })
    exec (.porchRefill die) s = .next (if r.isEmpty then t else t.postOnce (.porchRefill die))) ∧
  (let ready (h : Household) : Bool := (s.gangsOfHh h.uid).all (fun x => x.ctx == id && x.phase == .running && !x.dispatcher)
   exec (.preemptRequest id) s = .next ((s.hhs.filter ready).foldl (fun s h => match (s.gangsOfHh h.uid).head? with
     | some g => askPreempt g s
     | none => s) s)) ∧
  (∀ g, s.gang? id = some g →
    (g.phase = .running → g.wanted = true → s.canPreempt g.hh = true → exec (.preemptDrainEnd id) s = .next (beginPreempt g.hh s)) ∧
    (g.phase = .stopping →
      let t := undoSent id s
      t.householdDrained g.hh = true →
      exec (.preemptDrainEnd id) s = .next (saveGang g t)) ∧
    (g.phase = .resuming → exec (.resumeRestore id) s = .next (restoreHousehold g.hh s)))

/-- R262, R263, R294: the walker visits nodes by their kind, posts the task nodes' cards, and completes the graph. -/
def Obligations.GraphEvents : Prop := ∀ (s t : State) (id node loc : Nat) (mode : AccMode) (g : Graph), s.graph? id = some g →
  (g.faulted = false → node ∈ g.acts →
    graspAgent s (dieUnit g.die) g.die g.ctx (g.base + BitVec.ofNat 64 (32 * node)) 32 false = .ok t loc mode →
    let n := t.readLe loc 32
    recBits n 251 240 = 0 → recBits n 63 36 = 0 → recBits n 31 0 = 0 →
    (gnKind n = 0 → exec (.graphNodeEnd id node) s = .next (checkGraph id (leaveNode id node t))) ∧
    (0 < gnKind n → gnKind n ≤ 4 → exec (.graphNodeEnd id node) s = .next (t.post (nodeEvent (gnKind n) id node))) ∧
    (let die := if gnDie n = 15 then g.die else gnDie n
     gnKind n = 1 → die < 12 → globalAt (gnPtr n) 64 = true →
     let m : Message := ⟨t.nextId, none, 255, 0, [], 6, t.device, die, g.ctx, some (gnPtr n), gnArgp n, 0, some (id, node), t.nextId⟩
     let u := ({ t with nextId := t.nextId + 1 } : State).setGraph { g with
       acts := g.acts.erase node, posting := g.posting ++ [(node, gnNext n, gnAlt n)] }
     exec (.graphNodeTask id node) s = .next (({ u with messages := u.messages ++ [m] } : State).post (.postArrival t.nextId))) ∧
    (∀ u l md, globalAt (gnPtr n) 4 = true → graspAgent t (dieUnit g.die) g.die g.ctx (gnPtr n) 4 false = .ok u l md →
      (gnKind n = 2 → exec (.graphNodeCondition id node) s =
        .next (moveAct id node (if u.readLe l 4 = 0 then gnAlt n else gnNext n) u)) ∧
      (gnKind n = 3 → u.readLe l 4 = 0 → exec (.graphNodeWhile id node) s =
        .next (moveAct id node (gnAlt n) (u.setGraph { g with loops := eraseAssoc node g.loops }))) ∧
      (let k := (assoc node g.loops).getD 0 + 1
       gnKind n = 3 → u.readLe l 4 ≠ 0 →
       exec (.graphNodeWhile id node) s = .next (if gnCount n ≠ 0 ∧ k > gnCount n then faultGraph id u
         else moveAct id node (gnNext n) (u.setGraph { g with loops := setAssoc node k g.loops })))) ∧
    (let k := (assoc node g.joins).getD 0 + 1
     gnKind n = 4 → gnCount n ≠ 0 →
     exec (.graphNodeJoin id node) s = .next (if gnCount n ≤ k
       then moveAct id node (gnNext n) (t.setGraph { g with joins := eraseAssoc node g.joins })
       else checkGraph id (leaveNode id node (t.setGraph { g with joins := setAssoc node k g.joins }))))) ∧
  (let ms := s.messages.filter (fun m => m.graph == some (id, node))
   let back := ms.filter (fun m => !(s.agenda.contains (.postArrival m.id)))
   (g.faulted = false → exec (.graphPostRetry id node) s = .next (ms.foldl (fun s m => s.postOnce (.postArrival m.id)) s)) ∧
   (g.faulted = true → exec (.graphPostRetry id node) s = .next (checkGraph id ((back.foldl (fun s m => s.dropMessage m.id) s).setGraph
     { g with posting := back.foldl (fun l _ => l.eraseP (fun x => x.1 == node)) g.posting })))) ∧
  (∀ task k nx al, s.task? task = some k → k.complete = true → k.graph = some (id, node) →
    let u : State := { s.setGraph { g with tasks := g.tasks.eraseP (fun x => x.1 == node) } with
      tasks := s.tasks.filter (fun x => x.num != task) }
    (k.failed = true → exec (.graphTaskComplete id task) s = .next (faultGraph id u)) ∧
    (k.failed = false → g.tasks.find? (fun x => x.1 == node) = some (node, nx, al) →
      exec (.graphTaskComplete id task) s = .next (checkGraph id (sendAct id al (sendAct id nx u))))) ∧
  (g.acts = [] → g.posting = [] → g.tasks = [] →
    writeDone s g.die g.ctx g.done (if g.faulted then g.failval.toNat else g.doneval.toNat) = (t, true) →
    exec (.graphCompletion id) s = .next { t with sch := { t.sch with graphs := t.sch.graphs.filter (fun x => x.id != id) } })

/-- R338–R345: a transient request goes to its holders, who answer from what they hold; attempts fail after 400 ns each and escalate; a
persistent request queues at its home, reaches every holder and completes; a message's tokens are kept, or sent on; an eviction ends once
its tokens are home; lost tokens are recreated in a new epoch. -/
def Obligations.TokenEvents : Prop := ∀ (s : State) (id line die : Nat) (h : Holder),
  (∀ r, s.tokenReq? id = some r →
    (s.satisfied r = true → exec (.transientRequest id) s = .next (s.dropReq id)) ∧
    (let peers := (s.fab.remote.filter (fun x => x.1 == r.line / 512)).flatMap (fun x =>
       (List.range 60).filterMap (fun d => if x.2.testBit d then some (Holder.peer d) else none))
     let dests := [Holder.home] ++ (if (s.tokens r.line).count .hostBridge = 0 then [] else [.hostBridge]) ++
       (if r.attempt = 1 then [] else moduleHolders.filter (· != r.holder)) ++ (if r.attempt ≥ 3 then peers else [])
     s.satisfied r = false → exec (.transientRequest id) s = .next
       (((s.modReq id (fun r => { r with issued := s.clock, started := if r.attempt = 1 then s.clock else r.started })).postAll
         ((dests.filter (· != r.holder)).map (.transientAnswer id))).post (.transientAttemptTimeout id))) ∧
    (h ≠ r.holder → reqHeld r.holder h r.line s = none → (h = .hostBridge → s.hostHolds r.line = false) →
      s.fab.ptable.any (fun e => e.1 == h && e.2.1 == r.line && e.2.2 != id) = false →
      (s.activeReq r.line = some id ∨ s.fab.reqs.any (fun x => x.holder == h && x.line == r.line && x.write) = false) →
      (∀ n own data, answerOf (s.tokens r.line) h r.write = some (n, own, data) →
        exec (.transientAnswer id h) s = .next (sendTokens r.line h r.holder n own data s)) ∧
      (answerOf (s.tokens r.line) h r.write = none → exec (.transientAnswer id h) s = .next s)) ∧
    (s.satisfied r = false → r.persistent = false →
      (r.started + escalateCycles ≤ s.clock → exec (.transientAttemptTimeout id) s = .next (s.post (.transientEscalation id))) ∧
      (s.clock < r.started + escalateCycles → r.issued + attemptCycles ≤ s.clock → s.linkWaiting r = false →
        exec (.transientAttemptTimeout id) s = .next (if 4 ≤ r.attempt then s.post (.transientEscalation id)
          else (s.modReq id (fun r => { r with attempt := r.attempt + 1 })).post (.transientRequest id))) ∧
      exec (.transientEscalation id) s = .next
        ((s.modReq id (fun r => { r with persistent := true, started := s.clock })).post (.persistentRequest id))) ∧
    (let q := (assoc r.line s.fab.arb).getD []
     id ∉ q → reqHeld r.holder .home r.line s = none → exec (.persistentRequest id) s = .next
       (if q.isEmpty then activate r.line (s.setQueue r.line (q ++ [id])) else s.setQueue r.line (q ++ [id]))) ∧
    (s.activeReq line = some id → reqHeld .home h line s = none → (h = .hostBridge → s.hostHolds line = false) →
      s.tableFull line h = false →
      let t : State := { s with fab := { s.fab with
        ptable := s.fab.ptable.filter (fun e => !(e.1 == h && e.2.1 == line)) ++ [(h, line, r.id)] } }
      exec (.persistentTableEntry line h) s = .next (if h = r.holder then checkReq r.id t else sendAll line h r.holder t)) ∧
    (s.activeReq line = some id → (r.used = true ∨ s.stillWants r = false) →
      let t := s.count 4 (dieOfHolder line r.holder) (durationBin (s.clock - r.started))
      let u : State := { t with fab := { t.fab with ptable := t.fab.ptable.filter (fun e => e.2.1 != line) } }
      exec (.persistentCompletion line) s =
        .next (activate line ((u.dropReq id).setQueue line (((assoc line u.fab.arb).getD []).drop 1))))) ∧
  (∀ m, s.fab.msgs.find? (fun m => m.id == id) = some m → m.links.any s.linkShut = false →
    let t := m.links.foldl (fun s l => s.flitPassed l) (s.dropMsgs (fun x => x.id == id))
    (m.epoch ≠ (t.tokens m.line).epoch →
      exec (.tokenMessageReceive id) s = .next { t with fab := { t.fab with discards := t.fab.discards + 1 } }) ∧
    (m.epoch = (t.tokens m.line).epoch →
      let given := (t.tokens m.line).give m.dest m.count m.owner m.data
      (t.evicts m.dest m.line = true → exec (.tokenMessageReceive id) s = .next (sendAll m.line m.dest .home (t.setTokens given))) ∧
      (t.evicts m.dest m.line = false →
        let v := l2Room m.dest m.line (t.setTokens (given.mark m.dest (t.askedFor m.dest m.line)))
        let u := if m.dest = .home then maskTidy m.line v else v
        ((u.activeReq m.line).bind u.tokenReq? = none →
          exec (.tokenMessageReceive id) s = .next ((u.fab.reqs.filter (fun r => r.holder == m.dest && r.line == m.line)).foldl
            (fun s r => checkReq r.id s) u)) ∧
        (∀ r, (u.activeReq m.line).bind u.tokenReq? = some r →
          exec (.tokenMessageReceive id) s = .next (if m.dest = r.holder then checkReq r.id u
            else if u.fab.ptable.any (fun e => e.1 == m.dest && e.2.1 == m.line) then sendAll m.line m.dest r.holder u else u))))) ∧
  exec (.l2Eviction die line) s = .next (evictLine die line s) ∧
  ((die, line) ∈ s.fab.evicting → (s.msgsOf line).any (fun m => m.dest == .home) = false →
    exec (.evictionAck die line) s =
      .next { s with fab := { s.fab with evicting := s.fab.evicting.filter (fun x => x != (die, line)) } }) ∧
  (∀ s', snoopInv (line * 128) 128 s = (s', true) →
    let k := s'.tokens line
    let live := (s'.msgsOf line).filter (fun m => m.epoch == k.epoch && !(m.sent && m.links.any (fun l => (s'.link l).mode == .retired)))
    let own := k.homeOwner || k.holds.any (fun x => x.owner) || live.any (fun x => x.owner)
    let t := (s'.dropMsgs (fun m => live.any (fun x => x.id == m.id))).setTokens ⟨line, (k.epoch + 1) % 4, 32, true, []⟩
    let u := t.log 0x05 (dieOfLoc (line * 128)) 0 (if own then 0 else causeCode .coherenceLost) (line * 128) (if own then 0 else 1)
    let v := if own then u else poisonLine line .coherenceLost u
    ((v.activeReq line).bind v.tokenReq? = none → exec (.tokenRecreation line) s = .next v) ∧
    (∀ r, (v.activeReq line).bind v.tokenReq? = some r → exec (.tokenRecreation line) s = .next (
      if r.holder = .home then checkReq r.id v
      else if v.fab.ptable.any (fun e => e.1 == .home && e.2.1 == line) = true then sendAll line .home r.holder v
      else v)))

/-- R348–R353, R365, R368: a move claims a frame, copies its page once the tokens are home, and switches the frame map in one step, or is
abandoned; a link sleeps, wakes and retrains; a link that fails is retired; another module is granted credit, lost, or reached. The model
chooses: an engine's free frames and how a copy writes (log 58, DESIGN CHOICE); the stop of a module that has lost a die (log 59, DEDUCED);
another module's ports (log 17, DESIGN CHOICE). -/
def Obligations.MigrationAndLinkEvents : Prop := ∀ (s t : State) (id ctx page dev bytes : Nat) (up : Bool),
  (∀ home, s.pageHome ctx page = some home → movesHere s.device home = true →
    let m : Move := ⟨s.nextId, home, ctx, page, 0, up, 0, 0, 0, .request, none⟩
    exec (.migrationDriverRequest ctx page up) s =
      .next ((({ s with nextId := s.nextId + 1 } : State).setMove m).post (.migrationClaim s.nextId))) ∧
  (∀ m, s.move? id = some m →
    (∀ src f tpage, m.active = false → (s.pasidOf m.ctx).isNone = false → s.pageAt m = some tpage →
      let m : Move := { m with tpage := tpage }
      moveSource s m = some src → fmMove (m.entry s) = false →
      (s.framesFor m src).find? (fun f => decide (s.engineMoves f.engine < 16)) = some f →
      let u := setFrame m (m.entry s ||| BitVec.ofNat 64 (2 ^ 59)) { s with fab := { s.fab with freeFrames := s.fab.freeFrames.erase f } }
      exec (.migrationClaim id) s = .next ((u.setMove { m with
        engine := f.engine, dst := (framePlace s.device f).1, phase := .recall, srcLoc := src }).postAll [.migrationCopy id, .migrationAbandon id])) ∧
    (m.phase = .recall → recallLines (s.tokenLinesIn m.srcLoc) id s = (t, true) →
      ((t.poisonOf m.srcLoc 65536).isSome = true → exec (.migrationCopy id) s = .next (abandonMove m t)) ∧
      ((t.poisonOf m.srcLoc 65536).isSome = false → exec (.migrationCopy id) s = .next
        ((({ t with
          mem := copyFrame m.srcLoc m.dst t.mem,
          past := t.past.filter (fun e => !(inFrame m.dst e.2.1)),
          poison := t.poison.filter (fun p => !(decide (m.dst / 128 ≤ p.1) && decide (p.1 < m.dst / 128 + 512))) } : State).setMove { m with phase := .copied }).post (.migrationSwitch id)))) ∧
    (m.phase = .copied → recallLines (s.tokenLinesIn m.srcLoc) id s = (t, true) →
      let u := setFrame m (BitVec.ofNat 64 (framePlace t.device (frameAt m.engine m.dst)).2) t
      exec (.migrationSwitch id) s = .next (State.dropMove id { u with
        accs := u.accs.map (Access.moved m.srcLoc m.dst),
        past := u.past.map (fun e => (e.1, movedLoc m.srcLoc m.dst e.2.1, e.2.2)),
        sch := { u.sch with saved := u.sch.saved.map (fun x => { x with accs := x.accs.map (Access.moved m.srcLoc m.dst) }) },
        cores := u.cores.map (Core.l1Drop (fun l => decide (m.srcLoc / 128 ≤ l.addr) && decide (l.addr < m.srcLoc / 128 + 512))),
        fab := { u.fab with freeFrames := u.fab.freeFrames ++ [frameAt m.engine m.srcLoc] } })) ∧
    (∀ since, m.active = true → m.heldAt = some since → since + moveCycles ≤ s.clock →
      exec (.migrationAbandon id) s = .next (abandonMove m s))) ∧
  (let l := s.link id
   (l.mode = .sleeping → exec (.linkWake id) s = .next (startTraining id .waking s)) ∧
   (l.mode = .waking → l.fails ≠ 1 → s.clock ≤ l.since + wakeCycles → exec (.linkWakeComplete id) s =
     .next ((launch (s.setLink { l with mode := .active, fails := 0, since := s.clock })).count 3 id (wakeBin (s.clock - l.since)))) ∧
   (l.mode = .waking → l.fails ≠ 1 → l.since + wakeCycles < s.clock → s.clock < l.since + retireCycles →
     exec (.linkWakeLate id) s = .next (((s.setLink { l with fails := 1 }).count 3 id 4).post (.linkWakeLate id))) ∧
   (l.mode = .retraining ∨ (l.mode = .waking ∧ l.fails = 1) → l.since + retireCycles ≤ s.clock →
     exec (.linkWakeLate id) s = .next (s.post (.linkRetire id))) ∧
   (l.mode = .active → s.fab.replay.any (fun x => x.link == id) = false →
     exec (.linkSleep id) s = .next (s.setLink { l with mode := .sleeping, since := s.clock })) ∧
   (l.mode = .active → exec (.flitCrcFailure id) s = .next (if l.fails + 1 ≥ 16 then startTraining id .retraining (s.count 2 id 0)
     else (s.count 2 id 0).setLink { l with fails := l.fails + 1 })) ∧
   (l.mode = .waking ∨ l.mode = .retraining →
     let die := if id < 72 then id / 4 else (id - 72) / 3
     let t := ((s.setLink { l with mode := .retired, since := s.clock }).count 7 0 0).log 0x04 die 0 0 0 id
     let v : State := { t with fab := { t.fab with replay := t.fab.replay.filter (fun x => x.link != id) } }
     (72 ≤ id → exec (.linkRetire id) s = .next (reroute id (cutPaths (id - 72) v))) ∧
     (id < 72 →
       let u := reroute id (v.postAll ((((t.fab.replay.filter (fun x => x.link == id)).map (fun x => x.line)).eraseDups).map .tokenRecreation))
       exec (.linkRetire id) s = if (List.range 4).all (fun i => (u.link (4 * die + i)).mode == .retired)
         then .next ((stopModule u).log 0x02 die 0 0 0 die) else .next u))) ∧
  (∀ m, s.ext.modules.find? (fun m => m.dev == dev) = some m → m.demand ≠ 0 →
    let u := s.modModule dev (fun m => { m with demand := m.demand - 4096, granted := m.granted + 4096 })
    exec (.afrikGrant dev) s = .next (if m.demand > 4096 then u.postOnce (.afrikGrant dev) else u)) ∧
  (s.ext.modules.any (fun m => m.dev == dev) = true →
    exec (.afrikDemand dev bytes) s =
      .next ((s.modModule dev (fun m => { m with demand := m.demand + bytes })).postOnce (.afrikGrant dev)) ∧
    (let u := s.modModule dev (fun m => { m with reachable := false, lost := true, paths := [], cut := none })
     let lines := (u.fab.tokens.filter (fun t => t.holds.any (fun h => h.holder == .peer dev && decide (h.count > 0)))).map (·.line)
     s.ext.modules.any (fun m => m.dev == dev && m.cut.any (fun t => decide (s.clock < t + retireCycles))) = false →
     exec (.moduleLost dev) s = .next ((u.postAll (lines.map .tokenRecreation)).hhs.foldl (departAway dev)
       (u.postAll (lines.map .tokenRecreation))))) ∧
  (dev < 60 → dev ≠ s.device →
    exec (.moduleReachable dev) s = .next (({ s with
      free := s.free + 1, agenda := s.agenda.filter (fun e => e != .moduleLost dev) } : State).modModule dev (fun m =>
        { m with reachable := true, lost := false, paths := chosenPaths s.free dev, cut := none })))

/-- R355–R358, R361–R363: the host reads and writes memory of the module through the bridge, and caches lines of its own there; a recall at the
bridge sends the line's tokens home once the host holds neither half, and asks again while it does (log 64, DEDUCED); the pool bridges cache
lines and answer snoops; a lost port's dirty lines enter its loss list, and a segment that returns or leaves clears them. The model chooses: a
lost segment's dirty lines are gone when it is unmapped, and its accesses fail at once (log 65, DEDUCED); the handshake of BIConflict (log 12,
PRESUMED); what the bridge does in one step (log 64, DEDUCED). -/
def Obligations.HostAndPoolEvents : Prop := ∀ (s : State) (line half port seg : Nat) (st : HalfState) (bytes : List (Nat × Byte)),
  (s.ownLine line = true → half < 2 →
    (∀ t, bridgeDemand line false s = (t, true) → exec (.hostReadNoCache line half) s = .next (answerHalf line half t)) ∧
    (∀ t, bridgeDemand line false s = (t, false) → exec (.hostReadNoCache line half) s = .next (t.post (.hostReadNoCache line half))) ∧
    (∀ r t, tableRoom line s = (r, true) → bridgeDemand line true r = (t, true) →
      exec (.hostReadShared line half) s = .next (answerHalf line half (grantHalf line half .shared t)) ∧
      (s.heldByMove (line * 128) = false →
        exec (.hostReadAny line half) s = .next (answerHalf line half (grantHalf line half .any t)))) ∧
    (∀ r t, hostMemLine line = false → s.hostWriteHeld line half = false →
      (if st = .invalid then (s, true) else tableRoom line s) = (r, true) → bridgeDemand line true r = (t, true) →
      let kept := t.keptHalf line half st
      let u : State := { t with ext := { t.ext with snoops := t.ext.snoops.filter (fun x => x.1 != line || x.2.1 != half) } }
      let v := writeHalf line half bytes (u.setTokens ((u.tokens line).soil .hostBridge))
      exec (.hostWrite line half st bytes) s =
        .next (if kept = .invalid then v.setHalf line half .invalid else grantHalf line half kept v)) ∧
    exec (.biconflict line half) s = .next (s.answerLine line [] false)) ∧
  (half < 2 → hostMemLine line = true →
    let l := 2 * line + half
    (s.ext.hostCache.any (fun x => x.line == l) = true → exec (.hostWrite line half st bytes) s =
      .next ((s.postOnce (.hostSnoop l true)).post (.hostWrite line half st bytes))) ∧
    (s.ext.hostCache.any (fun x => x.line == l) = false → exec (.hostWrite line half st bytes) s =
      .next ((bytes.filter (fun x => decide (x.1 < 64))).foldl (fun s x => s.writeBytes (line * 128 + half * 64 + x.1) [x.2]) s))) ∧
  (let r := snoopInv (line * 128) 128 s
   (s.hostOwns (line * 128) 128 = false → exec (.bridgeRecall line) s = .next (sendAll line .hostBridge .home r.1)) ∧
   (s.hostOwns (line * 128) 128 = true → exec (.bridgeRecall line) s = .next (r.1.postOnce (.bridgeRecall line)))) ∧
  (∀ x, s.ext.hostCache.find? (fun x => x.line == line) = some x →
    let rest := s.ext.hostCache.filter (fun x => x.line != line)
    (let t := s.answerLine line (if x.dirty then s.readBytes (line * 64) 64 else []) (s.poisonOf (line * 64) 64).isSome
     exec (.hostSnoop line true) s = .next { t with ext := { t.ext with hostCache := rest } } ∧
     exec (.hostSnoop line false) s =
       .next { t with ext := { t.ext with hostCache := rest ++ [{ x with own := false, dirty := false }] } }) ∧
    (x.dirty = true → exec (.dirtyEvict line) s = .next (releaseHost (· == line) s))) ∧
  (∀ own, s.ext.hostCache.find? (fun x => x.line == line) = none → s.ext.hostCache.length < bridgeLines →
    exec (.hostLineFetch line own) s =
      .next (dropAsked line { s with ext := { s.ext with hostCache := s.ext.hostCache ++ [⟨line, own, false, s.askedCtx line⟩] } })) ∧
  (poolLine line = true → s.ext.portsLost.contains (portOf line) = false → s.ext.poolCache.find? (fun x => x.line == line) = none →
    (s.ext.poolCache.filter (fun x => portOf x.line == portOf line)).length < bridgeLines →
    let t := freshLine line s
    exec (.poolLineFetch line) s = .next (dropAsked line (State.setTokens
      ⟨line, (t.tokens line).epoch, 0, false, [⟨.poolBridge (portOf line), 32, true, true, false, 0, 0⟩]⟩
      { t with ext := { t.ext with poolCache := t.ext.poolCache ++ [⟨line, true, false, t.askedCtx line⟩] } }))) ∧
  (∀ x, s.ext.poolCache.find? (fun x => x.line == line) = some x →
    let t := s.answerLine line (if x.dirty then s.readBytes (line * 128) 128 else []) (s.poisonOf (line * 128) 128).isSome
    exec (.poolBisnpinv line) s = .next (releasePool (· == line) t) ∧
    exec (.poolBisnpdata line) s = .next { t with ext := { t.ext with poolCache := t.ext.poolCache.map (fun x =>
      if x.line = line then { x with own := false, dirty := false } else x) } }) ∧
  (port < 6 → s.ext.portsLost.contains port = false →
    let t : State := { s with
      tabs := { s.tabs with segs := s.tabs.segs.map (fun g => if g.port = port then { g with lost := true } else g) },
      ext := { s.ext with portsLost := s.ext.portsLost ++ [port] },
      accs := s.accs.map (fun a => if s.pendingOfPort port a then { a with phase := .resolved .poolLost } else a) }
    let u := releasePool (fun l => portOf l == port)
      (((s.ext.poolCache.filter (fun x => portOf x.line == port && x.dirty)).map (·.line)).foldl (loseLine port) t)
    exec (.poolPortLost port) s = .next ((((s.accs.filter (s.accOfPort port)).map (·.id)).foldl
      (fun s id => failAccess id .poolLost s) u).log 0x07 (12 + port) 0 0 0 port)) ∧
  (∀ g, s.tabs.segs.find? (fun g => g.seg == seg) = some g → g.lost = true →
    let lines := (s.ext.lossList.filter (fun x => g.hasLine x.2)).map (·.2)
    (let t := (lines.foldl (fun s l => poisonLine l .poison s) s).dropLoss g
     exec (.poolSegmentReattach seg) s = .next (State.log 0x07 (12 + g.port) 0 0 0 g.port { t with
       tabs := { t.tabs with segs := t.tabs.segs.map (fun x => if x.seg = seg then { x with lost := false } else x) },
       ext := { t.ext with portsLost := t.ext.portsLost.filter (fun p => p != g.port) } })) ∧
    (let t := (lines.foldl forgetLine s).dropLoss g
     exec (.poolSegmentUnmap seg) s = .next (State.log 0x07 (12 + g.port) 0 0 0 g.port { t with tabs := { t.tabs with
       windows := t.tabs.windows.filter (fun w => homeOfEntry t.device w.2 != some (.pool t.device seg)),
       segs := t.tabs.segs.filter (fun x => x.seg != seg) } })))

/-- R382–R384, R387–R389: the boot goes stage by stage, and a firmware image that does not verify stops it; power that is lost leaves what flash,
fuses and outside memory hold; images are measured; telemetry sets the limit; lifetime records are committed and cleared, in two steps with a
check that the second writes. The model chooses: what each stage does to the state, and the check's layout (log 66, DEDUCED); power, temperature
and records (log 68, DEDUCED); SHAKE256 is that of FIPS 202 (log 92, PRESUMED). -/
def Obligations.BootAndHealthEvents : Prop := ∀ (s : State) (reg near : Nat) (data : List Byte) (temps : List (Nat × Nat)),
  exec .powerLoss s = .next (unpowered s) ∧
  exec .powerGoodReset s = .next ((unpowered s).post .bootStage) ∧
  (s.boot.failed = none →
    (s.boot.stage = 0 → exec .bootStage s = .next ((measure 4 moduleConfig (measure 0 (Config.romIdentity 0)
      { s with boot := { s.boot with mr := List.replicate 16 0, locked := false } })).finishStage 1)) ∧
    (s.boot.stage = 1 → let img := s.boot.images.getD 0 []
      let t := measure 1 img s
      (s.imageGood img = true → exec .bootStage s = .next (({ t with fab := { t.fab with links := [] } } : State).finishStage 2)) ∧
      (s.imageGood img = false → exec .bootStage s = .next (t.failStage 2))) ∧
    (s.boot.stage = 2 → let serril := s.boot.images.getD 1 []
      let bridge := (measure 2 serril s).boot.images.getD 2 []
      let t := measure 3 bridge (measure 2 serril s)
      (s.imageGood serril = true → s.imageGood bridge = true →
        exec .bootStage s = .next (({ t with boot := { t.boot with locked := true } } : State).finishStage 3)) ∧
      (s.imageGood serril = false → exec .bootStage s = .next ((measure 2 serril s).failStage 3)) ∧
      (s.imageGood serril = true → s.imageGood bridge = false → exec .bootStage s = .next (t.failStage 3))) ∧
    (s.boot.stage = 3 → let t := (List.range Config.cores).foldl bootCore s
      exec .bootStage s = .next (State.finishStage 4 { t with
        mem := t.mem.filter (fun c => !(ownLoc t.device c.1)), poison := t.poison.filter (fun p => !(ownLoc t.device (p.1 * 128))),
        sch := { t.sch with porches := [], queueSize := [] } })) ∧
    (s.boot.stage = 4 → exec .bootStage s = .next (s.finishStage 5))) ∧
  (∀ img, s.imageGood img = true ↔
    shake256 (Config.imageKey img) = s.boot.fuse ∧ Config.xmssVerify (Config.imageKey img) (Config.imageSignature img) (Config.imageBody img) = true) ∧
  (∀ (i : Nat) (x : List Byte), measure i x s = { s with boot := { s.boot with
    mr := s.boot.mr.set i (shake256 (bytesOf 32 (s.boot.mr.getD i 0).toNat ++ bytesOf 32 (shake256 x).toNat)) } }) ∧
  (s.boot.stage = 5 → 8 ≤ reg → reg ≤ 15 → exec (.measurementExtend reg data) s = .next (measure reg data s)) ∧
  (let t := temps.foldl dieTemp s
   exec (.powerTelemetry near temps) s = .next { t with boot := { t.boot with limit := Nat.min near 3 } }) ∧
  (s.boot.flash.any (fun x => x.2.2.isNone) = false →
    let new := newestCopy s.boot.flash
    let keep := (s.boot.flash.filter (fun x => x.2.2 == some (lifeCheck x.1 x.2.1) && x.1 == new.1)).take 1
    exec .lifetimeCommit s = .next (({ s with boot := { s.boot with flash := keep ++ [(new.1 + 1, s.boot.life, none)] } } :
      State).post .lifetimeCommit)) ∧
  (s.boot.flash.any (fun x => x.2.2.isNone) = true → exec .lifetimeCommit s = .next { s with boot := { s.boot with
    flash := s.boot.flash.map (fun x => (x.1, x.2.1, some (x.2.2.getD (lifeCheck x.1 x.2.1)))) } }) ∧
  exec (.lifetimeClear true) s =
    .next { s with boot := { s.boot with life := [], flash := s.boot.flash.map (fun x => (x.1, [], some (lifeCheck x.1 []))) } } ∧
  exec (.lifetimeClear false) s = .next s

/-- R385, R386: the module answers the requests of an SPDM requester once its host ports are ready; a signed answer is accepted, then burns one
index, then signs with the index it held, and a spent counter signs nothing (the numbers of messages are log 12's, PRESUMED). Which requests are
refused is the model's choice (log 67, DEDUCED). -/
def Obligations.AttestationEvents : Prop := ∀ (s : State) (slot index code : Nat) (asym hash : Bool) (nonce : List Byte),
  s.boot.stage = 5 →
  let say (code : Nat) (payload : List Byte) (s : State) : State :=
    { s with boot := { s.boot with spdmOut := s.boot.spdmOut ++ [(code, payload)] } }
  let digest := bytesOf 32 (shake256 (Config.certChain 0)).toNat
  let field (number : BitVec 16) : List Byte := [Config.registry, 0] ++ bytesOf 2 number.toNat
  exec .getVersion s = .next (say 0x04 [0x12, 0x13] s) ∧
  exec .getCapabilities s = .next (say 0x61 (Config.spdmCapabilities 0) s) ∧
  exec (.negotiateAlgorithms asym hash) s = .next (say 0x63 ([if asym then 1 else 0, if hash then 1 else 0] ++
      (if asym then field Config.xmssNumber else []) ++ (if hash then field Config.shakeNumber else []))
    { s with boot := { s.boot with spdmAlgs := (asym, hash) } }) ∧
  exec (.getDigests 0) s = .next (say 0x01 digest s) ∧
  exec (.getCertificate 0) s = .next (say 0x02 (Config.certChain 0) s) ∧
  (slot ≠ 0 →
    exec (.getDigests slot) s = .next (say 0x7F [0x07, 0x81] s) ∧
    exec (.getCertificate slot) s = .next (say 0x7F [0x07, 0x82] s) ∧
    exec (.challenge slot nonce) s = .next (say 0x7F [0x07, 0x83] s)) ∧
  exec (.spdmUnsupportedRequest code) s = .next (say 0x7F [0x07, BitVec.ofNat 8 code] s) ∧
  (∀ bs, blocksOf s.boot.mr index = some bs →
    exec (.getMeasurements index false nonce) s = .next (say 0x60 bs s) ∧
    exec (.getMeasurements index true nonce) s = .next (signed 0xE0 0x60 bs nonce s)) ∧
  exec (.challenge 0 nonce) s = .next (signed 0x83 0x03 digest nonce s) ∧
  (∀ request code payload, (s.boot.spdmAlgs.1 || s.boot.spdmAlgs.2) = true →
    signed request code payload nonce s =
      { s with boot := { s.boot with signing := s.boot.signing ++ [⟨request, code, payload, nonce, none⟩] } }) ∧
  (∀ x xs, s.boot.signing = x :: xs →
    (x.index = none → s.boot.otp < 1048576 → signNext s =
      { s with boot := { s.boot with otp := s.boot.otp + 1, signing := { x with index := some s.boot.otp } :: xs } }) ∧
    (x.index = none → 1048576 ≤ s.boot.otp → (signNext s).boot.otp = s.boot.otp ∧ (signNext s).boot.signing = xs ∧
      (signNext s).boot.spdmOut = s.boot.spdmOut ++ [(0x7F, [0xFF, 0x01])]) ∧
    (∀ j, x.index = some j → signNext s = say x.code (x.payload ++ Config.xmssSign j (bytesOf 1 x.request ++ x.nonce ++ x.payload))
      { s with boot := { s.boot with signing := xs } }))

/-- R39, R42, R53, R73, R75: words that the spec writes out, and words written out here from R39, decode to the instructions that they stand for:
LD.i32 w11, [x2] (R46); CMP.n32 p1, w10, w6; the BRA of R48; WRED.add.f32 w9, w9; ATOM.cas of R212; MDRN; SNAPR.i64 x2, w0, 0x101;
HHSTAT w5; FFMA.f32 w33, −w9, w97, w33; the NOP of R33; and XOR.n32 w3, w1, w2. -/
def Obligations.WordsDecode : Prop :=
  decodeTableWord 96 0x1007FFF8105B8200 = some (.ld ⟨0, 2, 0, 0, 255, 255, 2, 11, false, 7, false, 0⟩) ∧
  decodeTableWord 96 0x108FF830500B900F = some (.cmp ⟨0, 2, 1, 1, 255, 6, 10, 1, false, 7, false, 4⟩) ∧
  decodeTableWord 96 0xFFFFFFFF0807FFFFFFF88180 = some (.bra ⟨0xFFFFFFFF, 1, 0, 0, 255, 255, 255, 255, false, 1, false, 0⟩) ∧
  decodeTableWord 96 0x0447FFF8484B81C2 = some (.wred ⟨0, 0, 8, 8, 255, 255, 9, 9, false, 7, false, 0⟩) ∧
  decodeTableWord 96 0x0300000050104FF840138207 = some (.atomCas ⟨0x03000000, 10, 0, 2, 9, 255, 8, 2, false, 7, false, 0⟩) ∧
  decodeTableWord 96 0x060000400027FFF8E7FA02C1 = some (.mdrn ⟨0x06000040, 0, 0, 4, 255, 255, 28, 255, false, 4, false, 0⟩) ∧
  decodeTableWord 96 0x000001010117FFF800138384 = some (.snapr ⟨0x101, 0, 2, 2, 255, 255, 0, 2, false, 7, false, 0⟩) ∧
  decodeTableWord 96 0x0007FFFFF82B8342 = some (.hhstat ⟨0, 0, 0, 0, 255, 255, 255, 5, false, 7, false, 0⟩) ∧
  decodeTableWord 96 0x0000000104410B08490B80C3 = some (.ffma ⟨1, 0, 8, 8, 33, 97, 9, 33, false, 7, false, 0⟩) ∧
  decodeTableWord 96 0x0007FFFFFFFB8186 = some (.nop ⟨0, 0, 0, 0, 255, 255, 255, 255, false, 7, false, 0⟩) ∧
  decodeTableWord 96 0x008FF810081B9042 = some (.xor ⟨0, 0, 1, 1, 255, 2, 1, 3, false, 7, false, 4⟩)

/-- R39, R53: every well-formed instruction that has a word decodes back from it, with every field at every value that the encoding admits,
and the bytes after its twelve are left over. -/
def Obligations.WordRoundTrip : Prop := ∀ (i : Instr) (op : Nat) (f : Fields), Forms.wordOf i = some (op, f) → WellFormed i →
  ∃ w, encode i = some w ∧ decodeWord w = .ok i ∧ ∀ rest : List Byte, decode (bytesOf 12 w.toNat ++ rest) = .ok (i, rest)

/-- R39, R53: a word that decodes is the word of the instruction that it decodes to: no bit of it is dropped, and no other word means the
same instruction. -/
def Obligations.WordsReencode : Prop := ∀ (w : InsnWord) (i : Instr), decodeWord w = .ok i → encode i = some w

/-- R53: 143 opcodes are assigned, and exactly the words of an assigned opcode decode. -/
def Obligations.OpcodesAssigned : Prop :=
  ((List.range 1024).filter Forms.assigned).length = 143 ∧
  ∀ w : InsnWord, (∃ i, decodeWord w = .ok i) ↔ Forms.assigned (opcodeOfWord w) = true

/-- What a step is (log 2, DESIGN CHOICE): a module that a link or its temperature ended (R351, R388; log 59, DEDUCED) or whose boot failed
(R384) takes a reset and nothing else, once its tasks have their failure values; else the next member of the issue group runs the instruction at
its program counter (R14), or the word of its repetition (R51); else the next event due happens; else the next picker with threads forms a group,
which issues if every member is ready (R125); else the cycle ends. No instruction faults and none is refused: in every state each answers a next
state. -/
def Obligations.StepRunsInstruction : Prop := ∀ s : State,
  (∀ i : Instr, ∃ t, exec i s = .next t) ∧
  (s.boot.dead = true →
    (∀ e, s.agenda.find? Instr.resets = some e → step s = exec e { s with agenda := [] }) ∧
    (s.agenda.find? Instr.resets = none →
      (s.tasks.all (fun k => k.complete) = true → step s = .fault .moduleStopped) ∧
      (s.tasks.all (fun k => k.complete) = false →
        (∀ e es, s.turn = true → s.agenda = e :: es →
          step s = if Instr.works e = true then .next { s with agenda := es } else exec e { s with agenda := es, turn := false }) ∧
        (s.turn = false ∨ s.agenda = [] → step s = .next (failTasks { s with clock := s.clock + 1, turn := true }))))) ∧
  (∀ n, s.boot.dead = false → s.boot.failed = some n →
    (∀ e, s.agenda.find? Instr.resets = some e → step s = exec e { s with agenda := [] }) ∧
    (s.agenda.find? Instr.resets = none → step s = .fault (.bootStopped n))) ∧
  (∀ k t, (∀ r ∈ t.issue.todo, unready r t = none) → tryGroup k (.next t) = .next t) ∧
  (s.boot.dead = false → s.boot.failed = none →
    (∀ r rest, s.issue.todo = r :: rest →
      let now : State := { s with issue := { s.issue with todo := rest, cur := r } }
      (∀ i, s.issue.follower = some i →
        step s = afterMember (exec i { s with issue := { s.issue with todo := rest, cur := r, follower := none } })) ∧
      (∀ th l, s.issue.follower = none → s.thread? r = some th → now.firstCheck th = none → th.denied ≠ some th.pc →
        s.cachedLine r.core (s.ctxOf th) (pcLine th.pc) = some l → (th.line = some (pcLine th.pc) ∨ l.reservedOk = true) →
        (∀ i, th.rep = none → decodeWord (l.slot (pcSlot th.pc)) = .ok i → step s = afterMember (exec i (markLine r now))) ∧
        (∀ rp w, th.rep = some rp → s.wordAt th rp.pc = some w →
          step s = afterMember (exec (.repRepetition (fieldsOfWord w)) (markLine r now))))) ∧
    (s.issue.todo = [] →
      (∀ e es, s.turn = true → s.agenda = e :: es → step s = exec e { s with agenda := es, turn := false }) ∧
      (s.turn = false ∨ s.agenda = [] →
        (∀ k, nextPicker s = some k →
          step s = tryGroup k (afterMember (exec (.issueGroup (k / 5) (k % 5)) { s with cursor := k + 1, turn := true }))) ∧
        (nextPicker s = none → step s = .next (tick { s with turn := true })))))

/-- R14, R16, R20, R36, R54, R55, R306: where the thread that issues next holds no word to run, it awaits its line, or traps, first of all where
the key file is poisoned or the word is too early: else PAGE_DENIED where the page it waited for was denied; ILLEGAL_LINE where it first issues
from a line whose reserved bits are not zero; ILLEGAL_OPCODE, whatever the guard and the other fields, where the opcode is not assigned, on a
core that checks and in a repetition too. The order of the checks is the model's reading (log 24, DEDUCED). -/
def Obligations.FetchTraps : Prop := ∀ (s : State) (r : TRef) (rest : List TRef) (th : Thread),
  s.boot.dead = false → s.boot.failed = none → s.issue.todo = r :: rest → s.issue.follower = none → s.thread? r = some th →
  let now : State := { s with issue := { s.issue with todo := rest, cur := r } }
  let stops (c : Cause) : Prop := step s = afterMember (.next (raiseTrap r (TrapInfo.of c) now))
  (∀ c, now.firstCheck th = some c → step s = afterMember (.next (notIssued r (raiseTrap r (TrapInfo.of c) now)))) ∧
  ((s.warpOf th).poisoned = true → now.firstCheck th = some .poison) ∧
  (now.firstCheck th = none → th.denied = some th.pc → stops .pageDenied) ∧
  (now.firstCheck th = none → th.denied ≠ some th.pc → s.cachedLine r.core (s.ctxOf th) (pcLine th.pc) = none →
    step s = afterMember (.next (needLine r (pcLine th.pc) now))) ∧
  (∀ l, now.firstCheck th = none → th.denied ≠ some th.pc → s.cachedLine r.core (s.ctxOf th) (pcLine th.pc) = some l →
    (th.line ≠ some (pcLine th.pc) → l.word.extractLsb' 9 7 ≠ 0 → (∀ rp, th.rep = some rp → s.wordAt th rp.pc ≠ none) → stops .illegalLine) ∧
    (th.line = some (pcLine th.pc) ∨ l.word.extractLsb' 9 7 = 0 → Forms.assigned (opcodeOfWord (l.slot (pcSlot th.pc))) = false →
      (th.rep = none → stops .illegalOpcode) ∧
      (∀ rp w, th.rep = some rp → s.wordAt th rp.pc = some w →
        (repetition (fieldsOfWord w) (fieldsOfWord (l.slot (pcSlot th.pc))) rp.j).isSome = true →
        step s = afterMember (.next (raiseTrap r (TrapInfo.of .illegalOpcode) (markLine r now))))))

/-- R382, R10, R40: the machine right after reset. The boot ROM runs next (stage 1); every thread, warp, block, gang, operation and access is
absent, no line is cached, the 16 measurement registers are zero, and no firmware is locked. The values that the spec does not give are
the model's (log 4, DESIGN CHOICE). -/
def Obligations.ResetState : Prop :=
  State.reset.agenda = [.bootStage] ∧ State.reset.boot.stage = 0 ∧ State.reset.boot.failed = none ∧ State.reset.boot.dead = false ∧
  State.reset.boot.mr = List.replicate 16 0 ∧ State.reset.boot.locked = false ∧ State.reset.clock = 0 ∧
  State.reset.threads = [] ∧ State.reset.warps = [] ∧ State.reset.blocks = [] ∧ State.reset.gangs = [] ∧ State.reset.hhs = [] ∧
  State.reset.tasks = [] ∧ State.reset.ops = [] ∧ State.reset.accs = [] ∧ State.reset.engs = [] ∧ State.reset.messages = [] ∧
  State.reset.issue.todo = [] ∧
  (∀ c, State.reset.core c = Core.fresh c) ∧ (∀ a, Memory.read State.reset.mem a = 0) ∧
  (∃ t, step State.reset = .next t ∧ t.agenda = [.bootStage] ∧ t.turn = true ∧ t.clock = 1 ∧
    step t = exec .bootStage { t with agenda := [], turn := false })

/-- The memory of the machine after reset has its canonical form. -/
def Obligations.ResetMemoryCanonical : Prop := MemCanonical State.reset

/-- Every step keeps the canonical form of memory, from every state that has it. -/
def Obligations.StepKeepsMemoryCanonical : Prop := ∀ s t, MemCanonical s → step s = .next t → MemCanonical t

/-- R16, R19, R20, R54, R55, R201: what is checked of every word before its effect, in order, whatever its guard: a poisoned key file; a register
read or overwritten too early on a core that checks; class 0xE outside the trap warp; the fields and registers; the produce key. Then the guard:
a word whose guard is false has no effect, and only its stall count counts. Then a faulted register that it reads; and a tracked result that it
needs holds it. REP is checked so too, with what follows it: a word that no repetition takes, and an increment of a field that is no register.
The order around R55 is the model's reading (log 24, DEDUCED), and that overwriting a pending result waits for it (log 25, DEDUCED). -/
def Obligations.IssueChecks : Prop := ∀ (i : Instr) (op : Nat) (f : Fields) (s : State) (th : Thread),
  Forms.wordOf i = some (op, f) → op ≠ 0x187 → s.thread? s.issue.cur = some th →
  let stops (c : Cause) : Prop := exec i s = .next (raiseTrap th.ref (TrapInfo.of c) { s with free := s.free + 1 })
  let early := (s.core th.ref.core).check.getLsbD 0 = true ∧ tooEarly op f s.clock th = true
  let fields := Forms.wordOk op f = true ∧ Forms.wordAllocOk op f th.alloc = true
  let guardKnown := f.guard = 7 ∨ th.trackedOn (256 + f.guard.toNat) = false
  ((s.warpOf th).poisoned = true → stops .poison) ∧
  ((s.warpOf th).poisoned = false → early → stops .stallShort) ∧
  ((s.warpOf th).poisoned = false → ¬early →
    (op / 64 = 14 → th.ref.slot ≠ 64 → stops .privileged) ∧
    ((op / 64 = 14 → th.ref.slot = 64) →
      (¬fields → stops .illegalOperand) ∧
      (fields → Forms.keyOk op f = false → stops .keyMisuse) ∧
      (fields → Forms.keyOk op f = true →
        (¬guardKnown → exec i s = .next (notReady th.ref { s with free := s.free + 1 })) ∧
        (guardKnown →
          (guardOn f s.clock s.free th = false → exec i s = .next (retire th.ref f (th.dropOwn { s with free := s.free + 1 }))) ∧
          (guardOn f s.clock s.free th = true →
            (∀ c, faultedRead op f th = some c → stops c) ∧
            (faultedRead op f th = none → awaitsTracked op f th = true → exec i s = .next (notReady th.ref { s with free := s.free + 1 }))))))) ∧
  (∀ g : Fields,
    let stops (c : Cause) : Prop := exec (.rep g) s = .next (raiseTrap th.ref (TrapInfo.of c) { s with free := s.free + 1 })
    let early := (s.core th.ref.core).check.getLsbD 0 = true ∧ tooEarly 0x187 g s.clock th = true
    (s.warpOf th).poisoned = false →
    (early → exec (.rep g) s = .next (raiseTrap th.ref (TrapInfo.of .stallShort) s)) ∧
    (¬early →
      (s.wordAt th (nextPc th.pc) = none → exec (.rep g) s = .next (needLine th.ref (pcLine (nextPc th.pc)) s)) ∧
      (∀ w, s.wordAt th (nextPc th.pc) = some w →
        let fields := Forms.wordOk 0x187 g = true ∧ Forms.wordAllocOk 0x187 g th.alloc = true ∧
          badIncrement g (opcodeOfWord w) (fieldsOfWord w) = false
        (∀ c, followerFate (opcodeOfWord w) = some c → stops c) ∧
        (followerFate (opcodeOfWord w) = none →
          (¬fields → stops .illegalOperand) ∧
          (fields → Forms.keyOk 0x187 g = false → stops .keyMisuse) ∧
          (fields → Forms.keyOk 0x187 g = true → (g.guard = 7 ∨ th.trackedOn (256 + g.guard.toNat) = false) →
            guardOn g s.clock s.free th = false → exec (.rep g) s = .next (retire th.ref g (th.dropOwn { s with free := s.free + 1 })))))))

/-- R9, R10, R17, R19, R20: w255 and s63 read as zero, p7 reads true, and they discard writes; a register reads its last written value once
that is ready, and before that it reads that value or the one before the write; a write leaves every other register as it was. -/
def Obligations.RegisterReadWrite : Prop := ∀ (th : Thread) (w : Warp) (clock n pos due r : Nat) (v : Word) (b : Bool),
  th.w.length = 255 → th.p.length = 7 → w.u.length = 63 →
  (th.readW clock n pos 255 = 0 ∧ th.writeW due 255 v = th) ∧
  (th.readP clock n pos 7 = true ∧ th.writeP due 7 b = th) ∧
  (w.readU clock n pos 63 = 0 ∧ w.writeU due 63 v = w) ∧
  (r < 255 → (due ≤ clock → (th.writeW due r v).readW clock n pos r = v) ∧
    ((th.writeW due r v).readW clock n pos r = v ∨ (th.writeW due r v).readW clock n pos r = th.w.getD r 0)) ∧
  (r < 7 → (due ≤ clock → (th.writeP due r b).readP clock n pos r = b) ∧
    ((th.writeP due r b).readP clock n pos r = b ∨ (th.writeP due r b).readP clock n pos r = th.p.getD r false)) ∧
  (r < 63 → due ≤ clock → (w.writeU due r v).readU clock n pos r = v) ∧
  (∀ q, q ≠ r → (th.writeW due r v).readW clock n pos q = th.readW clock n pos q ∧
    (th.writeP due r b).readP clock n pos q = th.readP clock n pos q ∧
    (w.writeU due r v).readU clock n pos q = w.readU clock n pos q) ∧
  (∀ q, (th.writeW due r v).readP clock n pos q = th.readP clock n pos q ∧
    (th.writeP due r b).readW clock n pos q = th.readW clock n pos q)

/-- R25, R312, R313, R314, R326: taking a trap. A thread of a block stops its core: the cause, the thread and its program counter are recorded,
and the trap warp starts; of several traps of one cycle the lowest picker, slot and lane is recorded; the thread keeps its registers, predicates,
call stack, repetition and program counter; memory, the other threads, warps and cores, and every other unit, are left as they were, but for the
operation with which the thread had joined a key, which is gone (R228). A trap of the trap warp itself is a machine check: the core stays
stopped, and the trap warp's thread is gone. -/
def Obligations.TrapEntry : Prop := ∀ (s : State) (r : TRef) (th : Thread) (i : TrapInfo), s.thread? r = some th →
  let t := raiseTrap r i s
  let k := t.core r.core
  (r.slot ≠ 64 →
    (let recorded := k.trapcause = BitVec.ofNat 32 (causeCode i.cause) ∧ k.trappc = th.pc ∧
        k.trapwarp = BitVec.ofNat 32 (64 * r.lane + r.slot) ∧ k.recCause = k.trapcause ∧ k.recWarp = k.trapwarp ∧ (i.cause = .fpTrap → k.fpcause = i.fp)
     ((s.core r.core).stopped = none → recorded ∧ k.stopped = some s.clock ∧ Instr.trapWarpStart r.core ∈ t.agenda) ∧
     (∀ c, (s.core r.core).stopped = some c →
       let first := c = s.clock ∧ (s.core r.core).halted = false ∧ trapOrder r.slot r.lane <
         trapOrder ((s.core r.core).recWarp.toNat % 64) ((s.core r.core).recWarp.toNat / 64)
       (first → recorded ∧ k.stopped = some c) ∧ (¬first → k = s.core r.core))) ∧
    (∃ u, t.thread? r = some u ∧ u.w = th.w ∧ u.p = th.p ∧ u.pc = th.pc ∧ u.calls = th.calls ∧ u.callsp = th.callsp ∧ u.rep = th.rep ∧
      u.status = .ready) ∧
    OthersSame r s t ∧ OtherCoresSame r.core s t ∧ t.warps = (th.dropOwn s).warps ∧ t.mem = s.mem ∧ t.blocks = s.blocks ∧ t.gangs = s.gangs ∧
    t.hhs = s.hhs ∧ t.tasks = s.tasks ∧ t.ops = (th.dropOwn s).ops ∧ t.accs = s.accs ∧ t.engs = s.engs ∧ t.messages = s.messages ∧
    t.tabs = s.tabs ∧ t.tx = s.tx ∧ t.sch = (th.dropOwn s).sch ∧ t.fab = s.fab ∧ t.ext = s.ext ∧ t.boot = s.boot) ∧
  (r.slot = 64 → k.stopped.isSome = true ∧ k.mcheck = true ∧ t.thread? r = none)

/-- R58, R67: the values of the E2M1 codes, in halves, with codes 8 to 15 their negatives and code 8 −0; and the check of a Q4 line, with its
two examples. -/
def Obligations.NumberFormats : Prop :=
  (∀ k < 8, ∃ (m : Nat) (e : Int), -1 ≤ e ∧ Fmt.e2m1.decode k = .fin false m e ∧ Fmt.e2m1.decode (8 + k) = .fin true m e ∧
    m * 2 ^ (e + 1).toNat = [0, 1, 2, 3, 4, 6, 8, 12].getD k 0) ∧
  (∀ line : List Byte, q4Check line = (List.range 63).foldl (fun chk n =>
    chk ^^^ (BitVec.ofNat 16 ((line.getD (2 * n) 0).toNat + 256 * (line.getD (2 * n + 1) 0).toNat)).rotateLeft (n % 16)) 0) ∧
  q4Check (List.replicate 128 0) = 0 ∧
  q4Check (List.replicate 120 0 ++ [0x01, 0x00, 0x80, 0x3F] ++ List.replicate 4 0) = 0x17F0

/-- R5: a value written to memory reads back, its lowest byte first; no other byte changes; the canonical form stays; and canonical memories whose
bytes read the same are the same data. -/
def Obligations.MemoryReadWrite : Prop := ∀ (s : State) (loc n v : Nat), MemCanonical s →
  let t := s.writeBytes loc (bytesOf n v)
  t.readLe loc n = v % 256 ^ n ∧ (∀ i < n, (Memory.read t.mem (loc + i)).toNat = v / 256 ^ i % 256) ∧ SameOutside loc n s t ∧
  MemCanonical t ∧ (∀ u, MemCanonical u → SameMemory s u → u.mem = s.mem)

/-- An instruction that is not one of those that store leaves every byte of memory as it was. -/
def Obligations.MemoryUntouched : Prop := ∀ (i : Instr) (s t : State), storesMemory i = false → exec i s = .next t → SameMemory s t

/-- R239: every update of a barrier object: what it leaves in the expected count, the arrivals, the phase and the pending bytes, the phase test that follows it
in the same step, what the unit refuses, and the waiters that a new phase releases. No other byte changes. -/
def Obligations.BarrierObjectUpdates : Prop := ∀ (s : State) (loc : Nat), MemCanonical s →
  let old := s.readLe loc 16
  let comesTo (u : ObUpdate) (e cur : Nat) (ph : Bool) (pend : Nat) : Prop := ∃ t, objectUpdate loc u s = some t ∧
    (let v := t.readLe loc 16
     obExp v = e ∧
     (cur = e → pend = 0 → obCur v = 0 ∧ obPhase v = !ph ∧ obPend v = 0) ∧
     (¬(cur = e ∧ pend = 0) → obCur v = cur ∧ obPhase v = ph ∧ obPend v = pend) ∧
     (obPhase v ≠ obPhase old → ∀ r th par id, s.thread? r = some th → th.status = .obwait loc par id → par ≠ obPhase v →
       ∃ x, t.thread? r = some x ∧ x.status = .ready)) ∧
    SameOutside loc 16 s t
  (∀ e < 2 ^ 16, comesTo (.init e) e 0 false 0) ∧
  (∀ n, obPend old + n < 2 ^ 48 → comesTo (.charge n) (obExp old) (obCur old) (obPhase old) (obPend old + n)) ∧
  (∀ n, n ≤ obPend old → comesTo (.release n) (obExp old) (obCur old) (obPhase old) (obPend old - n)) ∧
  (∀ n, obPend old < n → objectUpdate loc (.release n) s = none) ∧
  (obCur old ≠ obExp old → obCur old + 1 < 2 ^ 16 →
    comesTo .arrive (obExp old) (obCur old + 1) (obPhase old) (obPend old) ∧
    (∀ n, obPend old + n < 2 ^ 48 → comesTo (.holdArrive n) (obExp old) (obCur old + 1) (obPhase old) (obPend old + n))) ∧
  (obCur old = obExp old → objectUpdate loc .arrive s = none ∧ ∀ n, objectUpdate loc (.holdArrive n) s = none) ∧
  (∀ n, n ≤ obPend old → comesTo (.take n) (obExp old) (obCur old) (obPhase old) (obPend old - n))

/-- R179: the fault of a key is that of the key, and of k15 that of the lowest-numbered faulted key; and a word that consumes a faulted key traps
with the recorded cause, address and byte count and has no effect. -/
def Obligations.FaultedKeyTraps : Prop :=
  (∀ (w : Warp) (k : Nat), 1 ≤ k → k ≤ 14 → w.faultOf k = (w.key k).fault) ∧
  (∀ (w : Warp) (k : Nat) x, 1 ≤ k → k ≤ 14 → (w.key k).fault = some x → (∀ j, 1 ≤ j → j < k → (w.key j).fault = none) →
    w.faultOf 15 = some x) ∧
  (∀ (w : Warp), (∀ k, 1 ≤ k → k ≤ 14 → (w.key k).fault = none) → w.faultOf 15 = none) ∧
  ∀ (i : Instr) (op : Nat) (f : Fields) (s : State) (th : Thread) (cause : Cause) (addr : DWord) (n : Nat),
    Forms.wordOf i = some (op, f) →
    op ∈ [0x200, 0x201, 0x202, 0x203, 0x204, 0x205, 0x206, 0x207, 0x208, 0x209, 0x20A, 0x20B, 0x242, 0x243, 0x244, 0x245,
      0x280, 0x281, 0x282, 0x283, 0x284, 0x289, 0x2C0, 0x2C1, 0x2C2, 0x300, 0x302, 0x306, 0x307] →
    WhenIssues op f s th (fun c => c.warp.faultOf (if op = 0x244 then 15 else f.ck.toNat) = some (cause, addr, n) →
      Traps (exec i s) c ⟨cause, addr, n, 0⟩)

/-- R10, R17, R19, R25, R96: what a word of classes 0x0 to 0x5 leaves as it was, whether it completes or traps FP_TRAP: every register but its
destinations; every predicate but its destinations; the call stack; every other thread; every warp's uniform registers, but for WRU; every other
core, and of its own core all but ctl.fmterr (PACK and QBLK) and a trap's registers; every byte of memory; and every other unit; but that, where
it traps, the operation with which the thread had joined a key is gone (R228). -/
def Obligations.RegisterWordFrame : Prop := ∀ (i : Instr) (op : Nat) (f : Fields) (s t : State) (th : Thread),
  Forms.wordOf i = some (op, f) → op < 0x180 → Issues op f s th →
  (th.ref.slot ≠ 64 ∨ (s.core th.ref.core).fpen = 0) → exec i s = .next t →
  ∃ s0, (s0 = s ∨ s0 = th.dropOwn s) ∧
  let k0 := s.core th.ref.core
  let k := t.core th.ref.core
  (∃ u, t.thread? th.ref = some u ∧ ThreadPlaceSame u th ∧
    (∀ q clock n pos, q < 256 → q ∉ Forms.writeRegs op f → u.readW clock n pos q = th.readW clock n pos q) ∧
    (∀ p clock n pos, p < 8 → (op ≠ 0x086 → p ∉ Forms.writePreds op f) →
      (op = 0x086 → ((atIssue op f s th).vb false).getLsbD p = false) → u.readP clock n pos p = th.readP clock n pos p)) ∧
  (op ≠ 0x088 → OthersSame th.ref s t ∧ t.warps = s0.warps) ∧
  (op = 0x088 →
    (∀ q v, q ≠ th.ref → s.thread? q = some v → ∃ marks, t.thread? q = some { v with marks := marks }) ∧
    (∀ core slot, ¬(core = th.ref.core ∧ slot = th.ref.slot) → t.warp? core slot = s0.warp? core slot) ∧
    (∀ w, s0.warp? th.ref.core th.ref.slot = some w → ∃ x, t.warp? th.ref.core th.ref.slot = some x ∧
      x = { w with u := x.u, upend := x.upend } ∧
      ∀ q clock n pos, q ∉ Forms.writeUnis op f → x.readU clock n pos q = w.readU clock n pos q)) ∧
  OtherCoresSame th.ref.core s t ∧ TrapOnly k0 k ∧ (op / 64 < 3 → k = k0) ∧
  (op ≠ 0x143 → op ≠ 0x145 → k.fmterr = k0.fmterr) ∧ RestSame s0 t

/-- R205–R212, R176, R346, R347, R357: where memory changes as accesses are performed. One store leaves its data at its address and every other
byte as it was, and one to another module's scratchpad stores nothing here; STD updates its line alone. An event that performs accesses changes
no byte but those that an access performed with it stores to; and a load that is neither an atomic nor LDT, and a store that goes to its queue,
change none. -/
def Obligations.StoreFrame : Prop :=
  (∀ (s : State) (a : Access), MemCanonical s →
    (∀ dev, a.mode = .remote dev → applyStore a s = s) ∧
    (a.op = .st → (∀ dev, a.mode ≠ .remote dev) → (applyStore a s).readBytes a.loc a.data.length = a.data ∧
      SameOutside a.loc a.data.length s (applyStore a s)) ∧
    (a.op = .std → (∀ dev, a.mode ≠ .remote dev) → a.loc % 4 = 0 → let base := lineNum a.loc * 128
      (applyStore a s).readBytes base 128 = stdLine (s.readBytes base 128) (a.loc % 128) a.data ∧ SameOutside base 128 s (applyStore a s))) ∧
  (∀ (s t : State) (id : Nat) (e : Instr), MemCanonical s →
    e ∈ [.loadBind id, .storePerform id 0, .storePerform id 3, .storePerform id 6, .maskedWrite id, .hearthAtomic id, .bridgeAtomic id,
      .bridgeMaskedWrite id] →
    exec e s = .next t →
    ∀ x, (∀ a b, s.acc? id = some a → b ∈ s.groupSet a → ¬ storesAt s b x) → Memory.read t.mem x = Memory.read s.mem x) ∧
  (∀ (s t : State) (id : Nat) (a : Access), s.acc? id = some a →
    ((∀ x c o y, a.op ≠ .atom x c o y) → (∀ sp lim, a.op ≠ .ldt sp lim) → exec (.loadBind id) s = .next t → SameMemory s t) ∧
    ((∀ aon sp lim, a.op ≠ .stt aon sp lim) → (∀ b ∈ s.groupSet a, b.mode ≠ .scratch) →
      exec (.storePerform id 0) s = .next t → SameMemory s t))

/-- R14, R18: what a thread that has done its word, that goes on elsewhere, or that waits at its word, is left as: its registers, predicates,
call stack, key and trap state as they were, its program counter at the next instruction (within a repetition, at the same one), at the target, or where it was;
and it issues again no earlier than the word's stall count, or one cycle, later. Nothing else of the machine changes. -/
def Obligations.MovingOn : Prop := ∀ (s : State) (r : TRef) (f : Fields) (pc : DWord) (th : Thread), s.thread? r = some th →
  let at' := s.clock + max 1 f.stall.toNat
  let leaves (t : State) (rep : Option RepState) (next : DWord) : Prop :=
    t.thread? r = some { th with pc := next, rep := rep, readyAt := at', age := at', yielded := false, cleared := none, edited := false } ∧
    OthersSame r s t ∧ t.warps = s.warps ∧ t.cores = s.cores ∧ RestSame s t
  (th.rep = none → leaves (retire r f s) none (nextPc th.pc)) ∧
  (∀ rp, th.rep = some rp → rp.j + 1 < rp.n → leaves (retire r f s) (some { rp with j := rp.j + 1 }) th.pc) ∧
  (∀ rp, th.rep = some rp → rp.n ≤ rp.j + 1 → leaves (retire r f s) none (nextPc th.pc)) ∧
  leaves (transfer r f pc s) th.rep pc ∧
  leaves (parked r f s) th.rep th.pc ∧
  (∀ pc : DWord, pc.toNat % 64 < 4 → nextPc pc = pc + 1) ∧
  (∀ pc : DWord, pc.toNat % 64 = 4 → nextPc pc = pc + 60)

/-- R338, R340: conservation: an answer to a request, a recall's or an eviction's message, a persistent entry that reaches a holder, and
the receipt of a message leave the number of tokens of every line, held and in flight, what it was. The list names, without repetition, at least the
holder that sends or receives. -/
def Obligations.TokensConserved : Prop := ∀ (holders : List Holder) (s t : State), holders.Nodup →
  let conserved := ∀ line, tokenTotal holders t line = tokenTotal holders s line
  (∀ req h, h ∈ holders → exec (.transientAnswer req h) s = .next t → conserved) ∧
  (∀ die line, Holder.l2 die ∈ holders → exec (.l2Eviction die line) s = .next t → conserved) ∧
  (∀ line, Holder.hostBridge ∈ holders → exec (.bridgeRecall line) s = .next t → conserved) ∧
  (∀ line h, h ∈ holders → exec (.persistentTableEntry line h) s = .next t → conserved) ∧
  (∀ id m, s.fab.msgs.filter (fun x => x.id == id) = [m] → m.dest ∈ holders → exec (.tokenMessageReceive id) s = .next t → conserved)

end
end

