-- ==== Sys2Proof/Laws/Issue.lean ====
section
/-! SUPPORT. What the issue of a word can do (R16, R18, R25, R55): one lemma for a word that nothing keeps from its effect, one
for every issue. -/

namespace Sys2Proof.Laws

open Sys2Proof.Machine Sys2Proof.Safety

theorem thread?_ref {s : State} {r : TRef} {th : Thread} (h : s.thread? r = some th) : th.ref = r := by
  have := List.find?_some h
  simpa using this

/-- No check stops a word that `Issues` admits. -/
theorem gate_go {op : Nat} {f : Fields} {s : State} {th : Thread} (h : Issues op f s th) :
    gate op f none false s th = .go := by
  obtain ⟨-, h1, h2, h3, h4, h5, h6, h7, h8, h9, h10⟩ := h
  have e1 : ((s.core th.ref.core).check.getLsbD 0 && tooEarly op f s.clock th) = false := by
    rcases h2 with h | h
    · rw [h, Bool.false_and]
    · rw [h, Bool.and_false]
  have e2 : (op / 64 == 14 && th.ref.slot != 64) = false := by
    by_cases h : op / 64 = 14
    · simp [h3 h]
    · simp [h]
  have e3 : (f.guard != 7 && th.trackedOn (256 + f.guard.toNat)) = false := by
    rcases h7 with h | h
    · rw [h]; rfl
    · rw [h, Bool.and_false]
  unfold gate
  rw [h1, e1, h4, h5, h6, e3, h8, h9, h10]
  simp only [e2]
  rfl

/-- What an outcome of an effect leaves, for the thread `r` that issued the word from state `s`. -/
def settleRes (r : TRef) (f : Fields) (s : State) : Res → State
  | .ok t => retire r f t
  | .jump t pc => transfer r f pc t
  | .wait t => parked r f t
  | .hold t => notReady r t
  | .trap i => raiseTrap r i s

/-- A word that nothing keeps from its effect has that effect. -/
theorem issueWith_go {op : Nat} {f : Fields} {s : State} {th : Thread} (body : Ctx → Res) (h : Issues op f s th) :
    issueWith op f none false s body =
      settleRes th.ref f { s with free := s.free + 1 } (body (atIssue op f s th)) := by
  have hg := gate_go h
  unfold issueWith
  rw [h.1]
  simp only [hg]
  cases body (atIssue op f s th) <;> rfl

theorem issueOp_go {op : Nat} {f : Fields} {s : State} {th : Thread} (body : Ctx → Res) (h : Issues op f s th) :
    issueOp op f s body = .next (settleRes th.ref f { s with free := s.free + 1 } (body (atIssue op f s th))) := by
  simp only [issueOp, issueWith_go body h]

/-! What the word comes to, from what its effect comes to. -/
theorem done_of {op : Nat} {f : Fields} {s : State} {th : Thread} {body : Ctx → Res} {t : State} (h : Issues op f s th)
    (hb : body (atIssue op f s th) = .ok t) : Done (issueOp op f s body) (atIssue op f s th) t := by
  rw [Done, issueOp_go _ h, hb]; rfl
theorem jumps_of {op : Nat} {f : Fields} {s : State} {th : Thread} {body : Ctx → Res} {t : State} {pc : DWord}
    (h : Issues op f s th) (hb : body (atIssue op f s th) = .jump t pc) : Jumps (issueOp op f s body) (atIssue op f s th) t pc := by
  rw [Jumps, issueOp_go _ h, hb]; rfl
theorem waits_of {op : Nat} {f : Fields} {s : State} {th : Thread} {body : Ctx → Res} {t : State} (h : Issues op f s th)
    (hb : body (atIssue op f s th) = .wait t) : Waits (issueOp op f s body) (atIssue op f s th) t := by
  rw [Waits, issueOp_go _ h, hb]; rfl
theorem traps_of {op : Nat} {f : Fields} {s : State} {th : Thread} {body : Ctx → Res} {i : TrapInfo} (h : Issues op f s th)
    (hb : body (atIssue op f s th) = .trap i) : Traps (issueOp op f s body) (atIssue op f s th) i := by
  rw [Traps, issueOp_go _ h, hb]; rfl

/-- A float word none of whose exceptions is enabled has its result. -/
theorem fpResult_ok {c : Ctx} {e : Exc} {k : Res} (h : c.fpHit e = 0) : c.fpResult e k = k := if_pos h
theorem fpResult_trap {c : Ctx} {e : Exc} {k : Res} (h : c.fpHit e ≠ 0) :
    c.fpResult e k = .trap ⟨.fpTrap, 0, 0, c.fpHit e⟩ := if_neg h

/-- Everything the issue of a word can come to: no thread runs; a check traps; the word waits for a tracked result; the guard is
false and only the stall count counts; or the word has its effect. -/
theorem issueWith_cases (op : Nat) (f : Fields) (pre : Option Cause) (bad : Bool) (s : State) (body : Ctx → Res) :
    (s.thread? s.issue.cur = none ∧ issueWith op f pre bad s body = s) ∨
    ∃ th, s.thread? s.issue.cur = some th ∧
      ((∃ c, gate op f pre bad s th = .trap c ∧
          issueWith op f pre bad s body = raiseTrap th.ref (TrapInfo.of c) { s with free := s.free + 1 }) ∨
       (gate op f pre bad s th = .hold ∧ issueWith op f pre bad s body = notReady th.ref { s with free := s.free + 1 }) ∨
       (gate op f pre bad s th = .skip ∧ issueWith op f pre bad s body = retire th.ref f (th.dropOwn { s with free := s.free + 1 })) ∨
       (gate op f pre bad s th = .go ∧ issueWith op f pre bad s body =
          settleRes th.ref f { s with free := s.free + 1 } (body (atIssue op f s th)))) := by
  unfold issueWith
  cases hth : s.thread? s.issue.cur with
  | none => exact .inl ⟨rfl, rfl⟩
  | some th =>
    refine .inr ⟨th, rfl, ?_⟩
    dsimp only
    cases hg : gate op f pre bad s th with
    | trap c => exact .inl ⟨c, rfl, rfl⟩
    | hold => exact .inr (.inl ⟨rfl, rfl⟩)
    | skip => exact .inr (.inr (.inl ⟨rfl, rfl⟩))
    | go => exact .inr (.inr (.inr ⟨rfl, by cases body (atIssue op f s th) <;> rfl⟩))

end Sys2Proof.Laws
end

