-- ==== Sys2Proof/Laws/Memory.lean ====
section
/-! SUPPORT. The laws of memory: what a byte reads as after a write, and that every operation over the list of cells keeps its
canonical form. -/

namespace Sys2Proof.Laws

open Sys2Proof.Machine Sys2Proof.Safety

/-- Below the cells of a canonical list every byte reads zero. -/
theorem read_below {lo a : Nat} {m : List Host.Cell} (h : Memory.wfFrom lo m = true) (ha : a < lo) : Memory.read m a = 0 := by
  induction m generalizing lo with
  | nil => rfl
  | cons c m ih =>
    obtain ⟨k, v⟩ := c
    simp only [Memory.wfFrom, Bool.and_eq_true, decide_eq_true_eq] at h
    rw [Memory.read, if_neg (by omega)]
    exact ih h.2 (by omega)

theorem wfFrom_mono {lo lo' : Nat} {m : List Host.Cell} (h : Memory.wfFrom lo m = true) (hl : lo' ≤ lo) : Memory.wfFrom lo' m = true := by
  cases m with
  | nil => rfl
  | cons c m =>
    obtain ⟨k, v⟩ := c
    simp only [Memory.wfFrom, Bool.and_eq_true, decide_eq_true_eq] at h ⊢
    exact ⟨⟨by omega, h.1.2⟩, h.2⟩

/-- A write reads back, and leaves every other byte. -/
theorem read_write {lo : Nat} {m : List Host.Cell} (h : Memory.wfFrom lo m = true) (a x : Nat) (b : Byte) :
    Memory.read (Memory.write a b m) x = if x = a then b else Memory.read m x := by
  induction m generalizing lo with
  | nil =>
    rw [Memory.write]
    split
    · next hb => rw [hb, Memory.read, ite_self]
    · next hb =>
      rw [Memory.read, Memory.read]
      by_cases hx : x = a
      · rw [if_pos hx, if_pos hx.symm]
      · rw [if_neg hx, if_neg (Ne.symm hx), Memory.read]
  | cons c m ih =>
    obtain ⟨k, v⟩ := c
    simp only [Memory.wfFrom, Bool.and_eq_true, decide_eq_true_eq] at h
    have hr : ∀ y, y < k + 1 → Memory.read m y = 0 := fun y hy => read_below h.2 hy
    rw [Memory.write]
    split
    · rw [Memory.read, Memory.read, ih h.2]
      by_cases hk : k = x
      · rw [if_pos hk, if_pos hk, if_neg (by omega)]
      · rw [if_neg hk, if_neg hk]
    · split
      · next h2 =>
        subst h2
        split
        · next hb =>
          rw [Memory.read]
          by_cases hx : x = k
          · rw [if_pos hx, hx, hr k (by omega), hb]
          · rw [if_neg hx, if_neg (Ne.symm hx)]
        · rw [Memory.read, Memory.read]
          by_cases hx : x = k
          · rw [if_pos hx, if_pos hx.symm]
          · rw [if_neg hx, if_neg (Ne.symm hx), if_neg (Ne.symm hx)]
      · split
        · next hb =>
          rw [Memory.read]
          by_cases hx : x = a
          · rw [if_pos hx, if_neg (by omega), hr x (by omega), hb]
          · rw [if_neg hx]
        · rw [Memory.read]
          by_cases hx : x = a
          · rw [if_pos hx, if_pos hx.symm]
          · rw [if_neg hx, if_neg (Ne.symm hx)]

theorem write_wfFrom {lo : Nat} {m : List Host.Cell} (h : Memory.wfFrom lo m = true) {a : Nat} (ha : lo ≤ a) (b : Byte) :
    Memory.wfFrom lo (Memory.write a b m) = true := by
  have one : ∀ {x : Byte}, ¬x = 0 → (x != 0) = true := fun hx => by simpa using hx
  induction m generalizing lo with
  | nil =>
    rw [Memory.write]
    split
    · rfl
    · next hb => simp only [Memory.wfFrom, one hb, decide_eq_true ha, Bool.and_self]
  | cons c m ih =>
    obtain ⟨k, v⟩ := c
    simp only [Memory.wfFrom, Bool.and_eq_true, decide_eq_true_eq] at h
    rw [Memory.write]
    split
    · next h1 => simp only [Memory.wfFrom, h.1.2, decide_eq_true h.1.1, ih h.2 h1, Bool.and_self]
    · split
      · split
        · exact wfFrom_mono h.2 (by omega)
        · next h2 hb =>
          subst h2
          simp only [Memory.wfFrom, one hb, decide_eq_true ha, h.2, Bool.and_self]
      · split
        · simp only [Memory.wfFrom, h.1.2, decide_eq_true h.1.1, h.2, Bool.and_self]
        · next h1 h2 hb =>
          simp only [Memory.wfFrom, one hb, decide_eq_true ha, h.1.2, decide_eq_true (show a + 1 ≤ k by omega), h.2, Bool.and_self]

theorem write_wf {m : List Host.Cell} (h : Memory.wf m = true) (a : Nat) (b : Byte) : Memory.wf (Memory.write a b m) = true :=
  write_wfFrom h (Nat.zero_le a) b

theorem writeN_wf {m : List Host.Cell} (h : Memory.wf m = true) (a : Nat) (bs : List Byte) : Memory.wf (Memory.writeN a bs m) = true := by
  induction bs generalizing a m with
  | nil => exact h
  | cons b bs ih => exact ih (write_wf h a b) (a + 1)

/-- Bytes outside those written read as before. -/
theorem read_writeN_outside {m : List Host.Cell} (h : Memory.wf m = true) (a : Nat) (bs : List Byte) {x : Nat}
    (hx : ¬(a ≤ x ∧ x < a + bs.length)) : Memory.read (Memory.writeN a bs m) x = Memory.read m x := by
  induction bs generalizing a m with
  | nil => rfl
  | cons b bs ih =>
    simp only [List.length_cons] at hx
    rw [Memory.writeN, ih (write_wf h a b) _ (by omega), read_write h, if_neg (by omega)]

/-- Bytes written read back. -/
theorem read_writeN_inside {m : List Host.Cell} (h : Memory.wf m = true) (a : Nat) (bs : List Byte) {i : Nat} (hi : i < bs.length) :
    Memory.read (Memory.writeN a bs m) (a + i) = bs.getD i 0 := by
  induction bs generalizing a m i with
  | nil => simp at hi
  | cons b bs ih =>
    rw [Memory.writeN]
    cases i with
    | zero => rw [read_writeN_outside (write_wf h a b) _ _ (by omega), read_write h, if_pos (by omega)]; rfl
    | succ i =>
      simp only [List.length_cons] at hi
      rw [show a + (i + 1) = a + 1 + i by omega, ih (write_wf h a b) _ (by omega)]
      simp

theorem filter_wfFrom {lo : Nat} {m : List Host.Cell} (p : Host.Cell → Bool) (h : Memory.wfFrom lo m = true) :
    Memory.wfFrom lo (m.filter p) = true := by
  induction m generalizing lo with
  | nil => rfl
  | cons c m ih =>
    obtain ⟨k, v⟩ := c
    simp only [Memory.wfFrom, Bool.and_eq_true, decide_eq_true_eq] at h
    rw [List.filter_cons]
    split
    · simp only [Memory.wfFrom, Bool.and_eq_true, decide_eq_true_eq]; exact ⟨h.1, ih h.2⟩
    · exact ih (wfFrom_mono h.2 (by omega))

theorem filter_wf {m : List Host.Cell} (p : Host.Cell → Bool) (h : Memory.wf m = true) : Memory.wf (m.filter p) = true :=
  filter_wfFrom p h

/-- Writing cells one after another keeps the form. -/
theorem foldl_write_wf (g : Host.Cell → Nat) (cs : List Host.Cell) {m : List Host.Cell} (h : Memory.wf m = true) :
    Memory.wf (cs.foldl (fun m c => Memory.write (g c) c.2 m) m) = true := by
  induction cs generalizing m with
  | nil => exact h
  | cons c cs ih => exact ih (write_wf h _ _)

theorem copyFrame_wf (src dst : Nat) {m : List Host.Cell} (h : Memory.wf m = true) : Memory.wf (copyFrame src dst m) = true :=
  foldl_write_wf (fun c => c.1) _ (filter_wf _ h)

/-- Equal bytes are equal memories. -/
theorem wfFrom_ext {lo : Nat} {m m' : List Host.Cell} (h : Memory.wfFrom lo m = true) (h' : Memory.wfFrom lo m' = true)
    (he : ∀ a, Memory.read m a = Memory.read m' a) : m = m' := by
  induction m generalizing lo m' with
  | nil =>
    cases m' with
    | nil => rfl
    | cons c m' =>
      obtain ⟨k, v⟩ := c
      simp only [Memory.wfFrom, Bool.and_eq_true, decide_eq_true_eq, bne_iff_ne] at h'
      have := he k
      simp [Memory.read] at this
      exact absurd this.symm h'.1.2
  | cons c m ih =>
    obtain ⟨k, v⟩ := c
    have hc := h
    simp only [Memory.wfFrom, Bool.and_eq_true, decide_eq_true_eq, bne_iff_ne] at h
    cases m' with
    | nil =>
      have := he k
      simp [Memory.read] at this
      exact absurd this h.1.2
    | cons c' m' =>
      obtain ⟨k', v'⟩ := c'
      have hc' := h'
      simp only [Memory.wfFrom, Bool.and_eq_true, decide_eq_true_eq, bne_iff_ne] at h'
      have hk : k = k' := by
        rcases Nat.lt_trichotomy k k' with hl | hl | hl
        · have := he k
          rw [Memory.read, if_pos rfl, Memory.read, if_neg (by omega), read_below h'.2 (by omega)] at this
          exact absurd this h.1.2
        · exact hl
        · have := he k'
          rw [Memory.read, if_neg (by omega), read_below h.2 (by omega), Memory.read, if_pos rfl] at this
          exact absurd this.symm h'.1.2
      subst hk
      have hv : v = v' := by
        have := he k
        simpa [Memory.read] using this
      subst hv
      have ht : m = m' := ih h.2 h'.2 (fun a => by
        have := he a
        simp only [Memory.read] at this
        by_cases ha : k = a
        · subst ha; rw [read_below h.2 (by omega), read_below h'.2 (by omega)]
        · simpa [ha] using this)
      rw [ht]

theorem memory_ext {s t : State} (hs : MemCanonical s) (ht : MemCanonical t) (h : SameMemory s t) : t.mem = s.mem :=
  wfFrom_ext ht hs (fun a => h a)

end Sys2Proof.Laws
end

