-- ==== Sys2Proof/Laws/State.lean ====
section
/-! SUPPORT. What each update of the state leaves: one lemma per field that it does not change; and what it leaves of the record
that it changes. -/

namespace Sys2Proof.Laws

open Sys2Proof.Machine

@[simp] theorem State.modThread_clock (r : TRef) (f : Thread → Thread) (s : State) : (State.modThread r f s).clock = s.clock := rfl
@[simp] theorem State.modThread_device (r : TRef) (f : Thread → Thread) (s : State) : (State.modThread r f s).device = s.device := rfl
@[simp] theorem State.modThread_free (r : TRef) (f : Thread → Thread) (s : State) : (State.modThread r f s).free = s.free := rfl
@[simp] theorem State.modThread_nextId (r : TRef) (f : Thread → Thread) (s : State) : (State.modThread r f s).nextId = s.nextId := rfl
@[simp] theorem State.modThread_agenda (r : TRef) (f : Thread → Thread) (s : State) : (State.modThread r f s).agenda = s.agenda := rfl
@[simp] theorem State.modThread_sched (r : TRef) (f : Thread → Thread) (s : State) : (State.modThread r f s).sched = s.sched := rfl
@[simp] theorem State.modThread_turn (r : TRef) (f : Thread → Thread) (s : State) : (State.modThread r f s).turn = s.turn := rfl
@[simp] theorem State.modThread_cursor (r : TRef) (f : Thread → Thread) (s : State) : (State.modThread r f s).cursor = s.cursor := rfl
@[simp] theorem State.modThread_issue (r : TRef) (f : Thread → Thread) (s : State) : (State.modThread r f s).issue = s.issue := rfl
@[simp] theorem State.modThread_warps (r : TRef) (f : Thread → Thread) (s : State) : (State.modThread r f s).warps = s.warps := rfl
@[simp] theorem State.modThread_cores (r : TRef) (f : Thread → Thread) (s : State) : (State.modThread r f s).cores = s.cores := rfl
@[simp] theorem State.modThread_blocks (r : TRef) (f : Thread → Thread) (s : State) : (State.modThread r f s).blocks = s.blocks := rfl
@[simp] theorem State.modThread_gangs (r : TRef) (f : Thread → Thread) (s : State) : (State.modThread r f s).gangs = s.gangs := rfl
@[simp] theorem State.modThread_hhs (r : TRef) (f : Thread → Thread) (s : State) : (State.modThread r f s).hhs = s.hhs := rfl
@[simp] theorem State.modThread_tasks (r : TRef) (f : Thread → Thread) (s : State) : (State.modThread r f s).tasks = s.tasks := rfl
@[simp] theorem State.modThread_ops (r : TRef) (f : Thread → Thread) (s : State) : (State.modThread r f s).ops = s.ops := rfl
@[simp] theorem State.modThread_accs (r : TRef) (f : Thread → Thread) (s : State) : (State.modThread r f s).accs = s.accs := rfl
@[simp] theorem State.modThread_engs (r : TRef) (f : Thread → Thread) (s : State) : (State.modThread r f s).engs = s.engs := rfl
@[simp] theorem State.modThread_sends (r : TRef) (f : Thread → Thread) (s : State) : (State.modThread r f s).sends = s.sends := rfl
@[simp] theorem State.modThread_arrivals (r : TRef) (f : Thread → Thread) (s : State) : (State.modThread r f s).arrivals = s.arrivals := rfl
@[simp] theorem State.modThread_paths (r : TRef) (f : Thread → Thread) (s : State) : (State.modThread r f s).paths = s.paths := rfl
@[simp] theorem State.modThread_messages (r : TRef) (f : Thread → Thread) (s : State) : (State.modThread r f s).messages = s.messages := rfl
@[simp] theorem State.modThread_mem (r : TRef) (f : Thread → Thread) (s : State) : (State.modThread r f s).mem = s.mem := rfl
@[simp] theorem State.modThread_poison (r : TRef) (f : Thread → Thread) (s : State) : (State.modThread r f s).poison = s.poison := rfl
@[simp] theorem State.modThread_past (r : TRef) (f : Thread → Thread) (s : State) : (State.modThread r f s).past = s.past := rfl
@[simp] theorem State.modThread_tabs (r : TRef) (f : Thread → Thread) (s : State) : (State.modThread r f s).tabs = s.tabs := rfl
@[simp] theorem State.modThread_tx (r : TRef) (f : Thread → Thread) (s : State) : (State.modThread r f s).tx = s.tx := rfl
@[simp] theorem State.modThread_sch (r : TRef) (f : Thread → Thread) (s : State) : (State.modThread r f s).sch = s.sch := rfl
@[simp] theorem State.modThread_fab (r : TRef) (f : Thread → Thread) (s : State) : (State.modThread r f s).fab = s.fab := rfl
@[simp] theorem State.modThread_ext (r : TRef) (f : Thread → Thread) (s : State) : (State.modThread r f s).ext = s.ext := rfl
@[simp] theorem State.modThread_boot (r : TRef) (f : Thread → Thread) (s : State) : (State.modThread r f s).boot = s.boot := rfl
@[simp] theorem State.modWarp_clock (core slot : Nat) (f : Warp → Warp) (s : State) : (State.modWarp core slot f s).clock = s.clock := rfl
@[simp] theorem State.modWarp_device (core slot : Nat) (f : Warp → Warp) (s : State) : (State.modWarp core slot f s).device = s.device := rfl
@[simp] theorem State.modWarp_free (core slot : Nat) (f : Warp → Warp) (s : State) : (State.modWarp core slot f s).free = s.free := rfl
@[simp] theorem State.modWarp_nextId (core slot : Nat) (f : Warp → Warp) (s : State) : (State.modWarp core slot f s).nextId = s.nextId := rfl
@[simp] theorem State.modWarp_agenda (core slot : Nat) (f : Warp → Warp) (s : State) : (State.modWarp core slot f s).agenda = s.agenda := rfl
@[simp] theorem State.modWarp_sched (core slot : Nat) (f : Warp → Warp) (s : State) : (State.modWarp core slot f s).sched = s.sched := rfl
@[simp] theorem State.modWarp_turn (core slot : Nat) (f : Warp → Warp) (s : State) : (State.modWarp core slot f s).turn = s.turn := rfl
@[simp] theorem State.modWarp_cursor (core slot : Nat) (f : Warp → Warp) (s : State) : (State.modWarp core slot f s).cursor = s.cursor := rfl
@[simp] theorem State.modWarp_issue (core slot : Nat) (f : Warp → Warp) (s : State) : (State.modWarp core slot f s).issue = s.issue := rfl
@[simp] theorem State.modWarp_threads (core slot : Nat) (f : Warp → Warp) (s : State) : (State.modWarp core slot f s).threads = s.threads := rfl
@[simp] theorem State.modWarp_cores (core slot : Nat) (f : Warp → Warp) (s : State) : (State.modWarp core slot f s).cores = s.cores := rfl
@[simp] theorem State.modWarp_blocks (core slot : Nat) (f : Warp → Warp) (s : State) : (State.modWarp core slot f s).blocks = s.blocks := rfl
@[simp] theorem State.modWarp_gangs (core slot : Nat) (f : Warp → Warp) (s : State) : (State.modWarp core slot f s).gangs = s.gangs := rfl
@[simp] theorem State.modWarp_hhs (core slot : Nat) (f : Warp → Warp) (s : State) : (State.modWarp core slot f s).hhs = s.hhs := rfl
@[simp] theorem State.modWarp_tasks (core slot : Nat) (f : Warp → Warp) (s : State) : (State.modWarp core slot f s).tasks = s.tasks := rfl
@[simp] theorem State.modWarp_ops (core slot : Nat) (f : Warp → Warp) (s : State) : (State.modWarp core slot f s).ops = s.ops := rfl
@[simp] theorem State.modWarp_accs (core slot : Nat) (f : Warp → Warp) (s : State) : (State.modWarp core slot f s).accs = s.accs := rfl
@[simp] theorem State.modWarp_engs (core slot : Nat) (f : Warp → Warp) (s : State) : (State.modWarp core slot f s).engs = s.engs := rfl
@[simp] theorem State.modWarp_sends (core slot : Nat) (f : Warp → Warp) (s : State) : (State.modWarp core slot f s).sends = s.sends := rfl
@[simp] theorem State.modWarp_arrivals (core slot : Nat) (f : Warp → Warp) (s : State) : (State.modWarp core slot f s).arrivals = s.arrivals := rfl
@[simp] theorem State.modWarp_paths (core slot : Nat) (f : Warp → Warp) (s : State) : (State.modWarp core slot f s).paths = s.paths := rfl
@[simp] theorem State.modWarp_messages (core slot : Nat) (f : Warp → Warp) (s : State) : (State.modWarp core slot f s).messages = s.messages := rfl
@[simp] theorem State.modWarp_mem (core slot : Nat) (f : Warp → Warp) (s : State) : (State.modWarp core slot f s).mem = s.mem := rfl
@[simp] theorem State.modWarp_poison (core slot : Nat) (f : Warp → Warp) (s : State) : (State.modWarp core slot f s).poison = s.poison := rfl
@[simp] theorem State.modWarp_past (core slot : Nat) (f : Warp → Warp) (s : State) : (State.modWarp core slot f s).past = s.past := rfl
@[simp] theorem State.modWarp_tabs (core slot : Nat) (f : Warp → Warp) (s : State) : (State.modWarp core slot f s).tabs = s.tabs := rfl
@[simp] theorem State.modWarp_tx (core slot : Nat) (f : Warp → Warp) (s : State) : (State.modWarp core slot f s).tx = s.tx := rfl
@[simp] theorem State.modWarp_sch (core slot : Nat) (f : Warp → Warp) (s : State) : (State.modWarp core slot f s).sch = s.sch := rfl
@[simp] theorem State.modWarp_fab (core slot : Nat) (f : Warp → Warp) (s : State) : (State.modWarp core slot f s).fab = s.fab := rfl
@[simp] theorem State.modWarp_ext (core slot : Nat) (f : Warp → Warp) (s : State) : (State.modWarp core slot f s).ext = s.ext := rfl
@[simp] theorem State.modWarp_boot (core slot : Nat) (f : Warp → Warp) (s : State) : (State.modWarp core slot f s).boot = s.boot := rfl
@[simp] theorem State.setCore_clock (c : Core) (s : State) : (State.setCore c s).clock = s.clock := rfl
@[simp] theorem State.setCore_device (c : Core) (s : State) : (State.setCore c s).device = s.device := rfl
@[simp] theorem State.setCore_free (c : Core) (s : State) : (State.setCore c s).free = s.free := rfl
@[simp] theorem State.setCore_nextId (c : Core) (s : State) : (State.setCore c s).nextId = s.nextId := rfl
@[simp] theorem State.setCore_agenda (c : Core) (s : State) : (State.setCore c s).agenda = s.agenda := rfl
@[simp] theorem State.setCore_sched (c : Core) (s : State) : (State.setCore c s).sched = s.sched := rfl
@[simp] theorem State.setCore_turn (c : Core) (s : State) : (State.setCore c s).turn = s.turn := rfl
@[simp] theorem State.setCore_cursor (c : Core) (s : State) : (State.setCore c s).cursor = s.cursor := rfl
@[simp] theorem State.setCore_issue (c : Core) (s : State) : (State.setCore c s).issue = s.issue := rfl
@[simp] theorem State.setCore_threads (c : Core) (s : State) : (State.setCore c s).threads = s.threads := rfl
@[simp] theorem State.setCore_warps (c : Core) (s : State) : (State.setCore c s).warps = s.warps := rfl
@[simp] theorem State.setCore_blocks (c : Core) (s : State) : (State.setCore c s).blocks = s.blocks := rfl
@[simp] theorem State.setCore_gangs (c : Core) (s : State) : (State.setCore c s).gangs = s.gangs := rfl
@[simp] theorem State.setCore_hhs (c : Core) (s : State) : (State.setCore c s).hhs = s.hhs := rfl
@[simp] theorem State.setCore_tasks (c : Core) (s : State) : (State.setCore c s).tasks = s.tasks := rfl
@[simp] theorem State.setCore_ops (c : Core) (s : State) : (State.setCore c s).ops = s.ops := rfl
@[simp] theorem State.setCore_accs (c : Core) (s : State) : (State.setCore c s).accs = s.accs := rfl
@[simp] theorem State.setCore_engs (c : Core) (s : State) : (State.setCore c s).engs = s.engs := rfl
@[simp] theorem State.setCore_sends (c : Core) (s : State) : (State.setCore c s).sends = s.sends := rfl
@[simp] theorem State.setCore_arrivals (c : Core) (s : State) : (State.setCore c s).arrivals = s.arrivals := rfl
@[simp] theorem State.setCore_paths (c : Core) (s : State) : (State.setCore c s).paths = s.paths := rfl
@[simp] theorem State.setCore_messages (c : Core) (s : State) : (State.setCore c s).messages = s.messages := rfl
@[simp] theorem State.setCore_mem (c : Core) (s : State) : (State.setCore c s).mem = s.mem := rfl
@[simp] theorem State.setCore_poison (c : Core) (s : State) : (State.setCore c s).poison = s.poison := rfl
@[simp] theorem State.setCore_past (c : Core) (s : State) : (State.setCore c s).past = s.past := rfl
@[simp] theorem State.setCore_tabs (c : Core) (s : State) : (State.setCore c s).tabs = s.tabs := rfl
@[simp] theorem State.setCore_tx (c : Core) (s : State) : (State.setCore c s).tx = s.tx := rfl
@[simp] theorem State.setCore_sch (c : Core) (s : State) : (State.setCore c s).sch = s.sch := rfl
@[simp] theorem State.setCore_fab (c : Core) (s : State) : (State.setCore c s).fab = s.fab := rfl
@[simp] theorem State.setCore_ext (c : Core) (s : State) : (State.setCore c s).ext = s.ext := rfl
@[simp] theorem State.setCore_boot (c : Core) (s : State) : (State.setCore c s).boot = s.boot := rfl
@[simp] theorem State.modCore_clock (c : Nat) (f : Core → Core) (s : State) : (State.modCore c f s).clock = s.clock := rfl
@[simp] theorem State.modCore_device (c : Nat) (f : Core → Core) (s : State) : (State.modCore c f s).device = s.device := rfl
@[simp] theorem State.modCore_free (c : Nat) (f : Core → Core) (s : State) : (State.modCore c f s).free = s.free := rfl
@[simp] theorem State.modCore_nextId (c : Nat) (f : Core → Core) (s : State) : (State.modCore c f s).nextId = s.nextId := rfl
@[simp] theorem State.modCore_agenda (c : Nat) (f : Core → Core) (s : State) : (State.modCore c f s).agenda = s.agenda := rfl
@[simp] theorem State.modCore_sched (c : Nat) (f : Core → Core) (s : State) : (State.modCore c f s).sched = s.sched := rfl
@[simp] theorem State.modCore_turn (c : Nat) (f : Core → Core) (s : State) : (State.modCore c f s).turn = s.turn := rfl
@[simp] theorem State.modCore_cursor (c : Nat) (f : Core → Core) (s : State) : (State.modCore c f s).cursor = s.cursor := rfl
@[simp] theorem State.modCore_issue (c : Nat) (f : Core → Core) (s : State) : (State.modCore c f s).issue = s.issue := rfl
@[simp] theorem State.modCore_threads (c : Nat) (f : Core → Core) (s : State) : (State.modCore c f s).threads = s.threads := rfl
@[simp] theorem State.modCore_warps (c : Nat) (f : Core → Core) (s : State) : (State.modCore c f s).warps = s.warps := rfl
@[simp] theorem State.modCore_blocks (c : Nat) (f : Core → Core) (s : State) : (State.modCore c f s).blocks = s.blocks := rfl
@[simp] theorem State.modCore_gangs (c : Nat) (f : Core → Core) (s : State) : (State.modCore c f s).gangs = s.gangs := rfl
@[simp] theorem State.modCore_hhs (c : Nat) (f : Core → Core) (s : State) : (State.modCore c f s).hhs = s.hhs := rfl
@[simp] theorem State.modCore_tasks (c : Nat) (f : Core → Core) (s : State) : (State.modCore c f s).tasks = s.tasks := rfl
@[simp] theorem State.modCore_ops (c : Nat) (f : Core → Core) (s : State) : (State.modCore c f s).ops = s.ops := rfl
@[simp] theorem State.modCore_accs (c : Nat) (f : Core → Core) (s : State) : (State.modCore c f s).accs = s.accs := rfl
@[simp] theorem State.modCore_engs (c : Nat) (f : Core → Core) (s : State) : (State.modCore c f s).engs = s.engs := rfl
@[simp] theorem State.modCore_sends (c : Nat) (f : Core → Core) (s : State) : (State.modCore c f s).sends = s.sends := rfl
@[simp] theorem State.modCore_arrivals (c : Nat) (f : Core → Core) (s : State) : (State.modCore c f s).arrivals = s.arrivals := rfl
@[simp] theorem State.modCore_paths (c : Nat) (f : Core → Core) (s : State) : (State.modCore c f s).paths = s.paths := rfl
@[simp] theorem State.modCore_messages (c : Nat) (f : Core → Core) (s : State) : (State.modCore c f s).messages = s.messages := rfl
@[simp] theorem State.modCore_mem (c : Nat) (f : Core → Core) (s : State) : (State.modCore c f s).mem = s.mem := rfl
@[simp] theorem State.modCore_poison (c : Nat) (f : Core → Core) (s : State) : (State.modCore c f s).poison = s.poison := rfl
@[simp] theorem State.modCore_past (c : Nat) (f : Core → Core) (s : State) : (State.modCore c f s).past = s.past := rfl
@[simp] theorem State.modCore_tabs (c : Nat) (f : Core → Core) (s : State) : (State.modCore c f s).tabs = s.tabs := rfl
@[simp] theorem State.modCore_tx (c : Nat) (f : Core → Core) (s : State) : (State.modCore c f s).tx = s.tx := rfl
@[simp] theorem State.modCore_sch (c : Nat) (f : Core → Core) (s : State) : (State.modCore c f s).sch = s.sch := rfl
@[simp] theorem State.modCore_fab (c : Nat) (f : Core → Core) (s : State) : (State.modCore c f s).fab = s.fab := rfl
@[simp] theorem State.modCore_ext (c : Nat) (f : Core → Core) (s : State) : (State.modCore c f s).ext = s.ext := rfl
@[simp] theorem State.modCore_boot (c : Nat) (f : Core → Core) (s : State) : (State.modCore c f s).boot = s.boot := rfl
@[simp] theorem State.modGang_clock (u : Nat) (f : Gang → Gang) (s : State) : (State.modGang u f s).clock = s.clock := rfl
@[simp] theorem State.modGang_device (u : Nat) (f : Gang → Gang) (s : State) : (State.modGang u f s).device = s.device := rfl
@[simp] theorem State.modGang_free (u : Nat) (f : Gang → Gang) (s : State) : (State.modGang u f s).free = s.free := rfl
@[simp] theorem State.modGang_nextId (u : Nat) (f : Gang → Gang) (s : State) : (State.modGang u f s).nextId = s.nextId := rfl
@[simp] theorem State.modGang_agenda (u : Nat) (f : Gang → Gang) (s : State) : (State.modGang u f s).agenda = s.agenda := rfl
@[simp] theorem State.modGang_sched (u : Nat) (f : Gang → Gang) (s : State) : (State.modGang u f s).sched = s.sched := rfl
@[simp] theorem State.modGang_turn (u : Nat) (f : Gang → Gang) (s : State) : (State.modGang u f s).turn = s.turn := rfl
@[simp] theorem State.modGang_cursor (u : Nat) (f : Gang → Gang) (s : State) : (State.modGang u f s).cursor = s.cursor := rfl
@[simp] theorem State.modGang_issue (u : Nat) (f : Gang → Gang) (s : State) : (State.modGang u f s).issue = s.issue := rfl
@[simp] theorem State.modGang_threads (u : Nat) (f : Gang → Gang) (s : State) : (State.modGang u f s).threads = s.threads := rfl
@[simp] theorem State.modGang_warps (u : Nat) (f : Gang → Gang) (s : State) : (State.modGang u f s).warps = s.warps := rfl
@[simp] theorem State.modGang_cores (u : Nat) (f : Gang → Gang) (s : State) : (State.modGang u f s).cores = s.cores := rfl
@[simp] theorem State.modGang_blocks (u : Nat) (f : Gang → Gang) (s : State) : (State.modGang u f s).blocks = s.blocks := rfl
@[simp] theorem State.modGang_hhs (u : Nat) (f : Gang → Gang) (s : State) : (State.modGang u f s).hhs = s.hhs := rfl
@[simp] theorem State.modGang_tasks (u : Nat) (f : Gang → Gang) (s : State) : (State.modGang u f s).tasks = s.tasks := rfl
@[simp] theorem State.modGang_ops (u : Nat) (f : Gang → Gang) (s : State) : (State.modGang u f s).ops = s.ops := rfl
@[simp] theorem State.modGang_accs (u : Nat) (f : Gang → Gang) (s : State) : (State.modGang u f s).accs = s.accs := rfl
@[simp] theorem State.modGang_engs (u : Nat) (f : Gang → Gang) (s : State) : (State.modGang u f s).engs = s.engs := rfl
@[simp] theorem State.modGang_sends (u : Nat) (f : Gang → Gang) (s : State) : (State.modGang u f s).sends = s.sends := rfl
@[simp] theorem State.modGang_arrivals (u : Nat) (f : Gang → Gang) (s : State) : (State.modGang u f s).arrivals = s.arrivals := rfl
@[simp] theorem State.modGang_paths (u : Nat) (f : Gang → Gang) (s : State) : (State.modGang u f s).paths = s.paths := rfl
@[simp] theorem State.modGang_messages (u : Nat) (f : Gang → Gang) (s : State) : (State.modGang u f s).messages = s.messages := rfl
@[simp] theorem State.modGang_mem (u : Nat) (f : Gang → Gang) (s : State) : (State.modGang u f s).mem = s.mem := rfl
@[simp] theorem State.modGang_poison (u : Nat) (f : Gang → Gang) (s : State) : (State.modGang u f s).poison = s.poison := rfl
@[simp] theorem State.modGang_past (u : Nat) (f : Gang → Gang) (s : State) : (State.modGang u f s).past = s.past := rfl
@[simp] theorem State.modGang_tabs (u : Nat) (f : Gang → Gang) (s : State) : (State.modGang u f s).tabs = s.tabs := rfl
@[simp] theorem State.modGang_tx (u : Nat) (f : Gang → Gang) (s : State) : (State.modGang u f s).tx = s.tx := rfl
@[simp] theorem State.modGang_sch (u : Nat) (f : Gang → Gang) (s : State) : (State.modGang u f s).sch = s.sch := rfl
@[simp] theorem State.modGang_fab (u : Nat) (f : Gang → Gang) (s : State) : (State.modGang u f s).fab = s.fab := rfl
@[simp] theorem State.modGang_ext (u : Nat) (f : Gang → Gang) (s : State) : (State.modGang u f s).ext = s.ext := rfl
@[simp] theorem State.modGang_boot (u : Nat) (f : Gang → Gang) (s : State) : (State.modGang u f s).boot = s.boot := rfl
@[simp] theorem State.modHh_clock (u : Nat) (f : Household → Household) (s : State) : (State.modHh u f s).clock = s.clock := rfl
@[simp] theorem State.modHh_device (u : Nat) (f : Household → Household) (s : State) : (State.modHh u f s).device = s.device := rfl
@[simp] theorem State.modHh_free (u : Nat) (f : Household → Household) (s : State) : (State.modHh u f s).free = s.free := rfl
@[simp] theorem State.modHh_nextId (u : Nat) (f : Household → Household) (s : State) : (State.modHh u f s).nextId = s.nextId := rfl
@[simp] theorem State.modHh_agenda (u : Nat) (f : Household → Household) (s : State) : (State.modHh u f s).agenda = s.agenda := rfl
@[simp] theorem State.modHh_sched (u : Nat) (f : Household → Household) (s : State) : (State.modHh u f s).sched = s.sched := rfl
@[simp] theorem State.modHh_turn (u : Nat) (f : Household → Household) (s : State) : (State.modHh u f s).turn = s.turn := rfl
@[simp] theorem State.modHh_cursor (u : Nat) (f : Household → Household) (s : State) : (State.modHh u f s).cursor = s.cursor := rfl
@[simp] theorem State.modHh_issue (u : Nat) (f : Household → Household) (s : State) : (State.modHh u f s).issue = s.issue := rfl
@[simp] theorem State.modHh_threads (u : Nat) (f : Household → Household) (s : State) : (State.modHh u f s).threads = s.threads := rfl
@[simp] theorem State.modHh_warps (u : Nat) (f : Household → Household) (s : State) : (State.modHh u f s).warps = s.warps := rfl
@[simp] theorem State.modHh_cores (u : Nat) (f : Household → Household) (s : State) : (State.modHh u f s).cores = s.cores := rfl
@[simp] theorem State.modHh_blocks (u : Nat) (f : Household → Household) (s : State) : (State.modHh u f s).blocks = s.blocks := rfl
@[simp] theorem State.modHh_gangs (u : Nat) (f : Household → Household) (s : State) : (State.modHh u f s).gangs = s.gangs := rfl
@[simp] theorem State.modHh_tasks (u : Nat) (f : Household → Household) (s : State) : (State.modHh u f s).tasks = s.tasks := rfl
@[simp] theorem State.modHh_ops (u : Nat) (f : Household → Household) (s : State) : (State.modHh u f s).ops = s.ops := rfl
@[simp] theorem State.modHh_accs (u : Nat) (f : Household → Household) (s : State) : (State.modHh u f s).accs = s.accs := rfl
@[simp] theorem State.modHh_engs (u : Nat) (f : Household → Household) (s : State) : (State.modHh u f s).engs = s.engs := rfl
@[simp] theorem State.modHh_sends (u : Nat) (f : Household → Household) (s : State) : (State.modHh u f s).sends = s.sends := rfl
@[simp] theorem State.modHh_arrivals (u : Nat) (f : Household → Household) (s : State) : (State.modHh u f s).arrivals = s.arrivals := rfl
@[simp] theorem State.modHh_paths (u : Nat) (f : Household → Household) (s : State) : (State.modHh u f s).paths = s.paths := rfl
@[simp] theorem State.modHh_messages (u : Nat) (f : Household → Household) (s : State) : (State.modHh u f s).messages = s.messages := rfl
@[simp] theorem State.modHh_mem (u : Nat) (f : Household → Household) (s : State) : (State.modHh u f s).mem = s.mem := rfl
@[simp] theorem State.modHh_poison (u : Nat) (f : Household → Household) (s : State) : (State.modHh u f s).poison = s.poison := rfl
@[simp] theorem State.modHh_past (u : Nat) (f : Household → Household) (s : State) : (State.modHh u f s).past = s.past := rfl
@[simp] theorem State.modHh_tabs (u : Nat) (f : Household → Household) (s : State) : (State.modHh u f s).tabs = s.tabs := rfl
@[simp] theorem State.modHh_tx (u : Nat) (f : Household → Household) (s : State) : (State.modHh u f s).tx = s.tx := rfl
@[simp] theorem State.modHh_sch (u : Nat) (f : Household → Household) (s : State) : (State.modHh u f s).sch = s.sch := rfl
@[simp] theorem State.modHh_fab (u : Nat) (f : Household → Household) (s : State) : (State.modHh u f s).fab = s.fab := rfl
@[simp] theorem State.modHh_ext (u : Nat) (f : Household → Household) (s : State) : (State.modHh u f s).ext = s.ext := rfl
@[simp] theorem State.modHh_boot (u : Nat) (f : Household → Household) (s : State) : (State.modHh u f s).boot = s.boot := rfl
@[simp] theorem State.progress_clock (g : Nat) (s : State) : (State.progress g s).clock = s.clock := rfl
@[simp] theorem State.progress_device (g : Nat) (s : State) : (State.progress g s).device = s.device := rfl
@[simp] theorem State.progress_free (g : Nat) (s : State) : (State.progress g s).free = s.free := rfl
@[simp] theorem State.progress_nextId (g : Nat) (s : State) : (State.progress g s).nextId = s.nextId := rfl
@[simp] theorem State.progress_agenda (g : Nat) (s : State) : (State.progress g s).agenda = s.agenda := rfl
@[simp] theorem State.progress_sched (g : Nat) (s : State) : (State.progress g s).sched = s.sched := rfl
@[simp] theorem State.progress_turn (g : Nat) (s : State) : (State.progress g s).turn = s.turn := rfl
@[simp] theorem State.progress_cursor (g : Nat) (s : State) : (State.progress g s).cursor = s.cursor := rfl
@[simp] theorem State.progress_issue (g : Nat) (s : State) : (State.progress g s).issue = s.issue := rfl
@[simp] theorem State.progress_threads (g : Nat) (s : State) : (State.progress g s).threads = s.threads := rfl
@[simp] theorem State.progress_warps (g : Nat) (s : State) : (State.progress g s).warps = s.warps := rfl
@[simp] theorem State.progress_cores (g : Nat) (s : State) : (State.progress g s).cores = s.cores := rfl
@[simp] theorem State.progress_blocks (g : Nat) (s : State) : (State.progress g s).blocks = s.blocks := rfl
@[simp] theorem State.progress_hhs (g : Nat) (s : State) : (State.progress g s).hhs = s.hhs := rfl
@[simp] theorem State.progress_tasks (g : Nat) (s : State) : (State.progress g s).tasks = s.tasks := rfl
@[simp] theorem State.progress_ops (g : Nat) (s : State) : (State.progress g s).ops = s.ops := rfl
@[simp] theorem State.progress_accs (g : Nat) (s : State) : (State.progress g s).accs = s.accs := rfl
@[simp] theorem State.progress_engs (g : Nat) (s : State) : (State.progress g s).engs = s.engs := rfl
@[simp] theorem State.progress_sends (g : Nat) (s : State) : (State.progress g s).sends = s.sends := rfl
@[simp] theorem State.progress_arrivals (g : Nat) (s : State) : (State.progress g s).arrivals = s.arrivals := rfl
@[simp] theorem State.progress_paths (g : Nat) (s : State) : (State.progress g s).paths = s.paths := rfl
@[simp] theorem State.progress_messages (g : Nat) (s : State) : (State.progress g s).messages = s.messages := rfl
@[simp] theorem State.progress_mem (g : Nat) (s : State) : (State.progress g s).mem = s.mem := rfl
@[simp] theorem State.progress_poison (g : Nat) (s : State) : (State.progress g s).poison = s.poison := rfl
@[simp] theorem State.progress_past (g : Nat) (s : State) : (State.progress g s).past = s.past := rfl
@[simp] theorem State.progress_tabs (g : Nat) (s : State) : (State.progress g s).tabs = s.tabs := rfl
@[simp] theorem State.progress_tx (g : Nat) (s : State) : (State.progress g s).tx = s.tx := rfl
@[simp] theorem State.progress_sch (g : Nat) (s : State) : (State.progress g s).sch = s.sch := rfl
@[simp] theorem State.progress_fab (g : Nat) (s : State) : (State.progress g s).fab = s.fab := rfl
@[simp] theorem State.progress_ext (g : Nat) (s : State) : (State.progress g s).ext = s.ext := rfl
@[simp] theorem State.progress_boot (g : Nat) (s : State) : (State.progress g s).boot = s.boot := rfl
@[simp] theorem State.writeBytes_clock (s : State) (loc : Nat) (bs : List Byte) : (State.writeBytes s loc bs).clock = s.clock := rfl
@[simp] theorem State.writeBytes_device (s : State) (loc : Nat) (bs : List Byte) : (State.writeBytes s loc bs).device = s.device := rfl
@[simp] theorem State.writeBytes_free (s : State) (loc : Nat) (bs : List Byte) : (State.writeBytes s loc bs).free = s.free := rfl
@[simp] theorem State.writeBytes_nextId (s : State) (loc : Nat) (bs : List Byte) : (State.writeBytes s loc bs).nextId = s.nextId := rfl
@[simp] theorem State.writeBytes_agenda (s : State) (loc : Nat) (bs : List Byte) : (State.writeBytes s loc bs).agenda = s.agenda := rfl
@[simp] theorem State.writeBytes_sched (s : State) (loc : Nat) (bs : List Byte) : (State.writeBytes s loc bs).sched = s.sched := rfl
@[simp] theorem State.writeBytes_turn (s : State) (loc : Nat) (bs : List Byte) : (State.writeBytes s loc bs).turn = s.turn := rfl
@[simp] theorem State.writeBytes_cursor (s : State) (loc : Nat) (bs : List Byte) : (State.writeBytes s loc bs).cursor = s.cursor := rfl
@[simp] theorem State.writeBytes_issue (s : State) (loc : Nat) (bs : List Byte) : (State.writeBytes s loc bs).issue = s.issue := rfl
@[simp] theorem State.writeBytes_threads (s : State) (loc : Nat) (bs : List Byte) : (State.writeBytes s loc bs).threads = s.threads := rfl
@[simp] theorem State.writeBytes_warps (s : State) (loc : Nat) (bs : List Byte) : (State.writeBytes s loc bs).warps = s.warps := rfl
@[simp] theorem State.writeBytes_cores (s : State) (loc : Nat) (bs : List Byte) : (State.writeBytes s loc bs).cores = s.cores := rfl
@[simp] theorem State.writeBytes_blocks (s : State) (loc : Nat) (bs : List Byte) : (State.writeBytes s loc bs).blocks = s.blocks := rfl
@[simp] theorem State.writeBytes_gangs (s : State) (loc : Nat) (bs : List Byte) : (State.writeBytes s loc bs).gangs = s.gangs := rfl
@[simp] theorem State.writeBytes_hhs (s : State) (loc : Nat) (bs : List Byte) : (State.writeBytes s loc bs).hhs = s.hhs := rfl
@[simp] theorem State.writeBytes_tasks (s : State) (loc : Nat) (bs : List Byte) : (State.writeBytes s loc bs).tasks = s.tasks := rfl
@[simp] theorem State.writeBytes_ops (s : State) (loc : Nat) (bs : List Byte) : (State.writeBytes s loc bs).ops = s.ops := rfl
@[simp] theorem State.writeBytes_accs (s : State) (loc : Nat) (bs : List Byte) : (State.writeBytes s loc bs).accs = s.accs := rfl
@[simp] theorem State.writeBytes_engs (s : State) (loc : Nat) (bs : List Byte) : (State.writeBytes s loc bs).engs = s.engs := rfl
@[simp] theorem State.writeBytes_sends (s : State) (loc : Nat) (bs : List Byte) : (State.writeBytes s loc bs).sends = s.sends := rfl
@[simp] theorem State.writeBytes_arrivals (s : State) (loc : Nat) (bs : List Byte) : (State.writeBytes s loc bs).arrivals = s.arrivals := rfl
@[simp] theorem State.writeBytes_paths (s : State) (loc : Nat) (bs : List Byte) : (State.writeBytes s loc bs).paths = s.paths := rfl
@[simp] theorem State.writeBytes_messages (s : State) (loc : Nat) (bs : List Byte) : (State.writeBytes s loc bs).messages = s.messages := rfl
@[simp] theorem State.writeBytes_poison (s : State) (loc : Nat) (bs : List Byte) : (State.writeBytes s loc bs).poison = s.poison := rfl
@[simp] theorem State.writeBytes_tabs (s : State) (loc : Nat) (bs : List Byte) : (State.writeBytes s loc bs).tabs = s.tabs := rfl
@[simp] theorem State.writeBytes_tx (s : State) (loc : Nat) (bs : List Byte) : (State.writeBytes s loc bs).tx = s.tx := rfl
@[simp] theorem State.writeBytes_sch (s : State) (loc : Nat) (bs : List Byte) : (State.writeBytes s loc bs).sch = s.sch := rfl
@[simp] theorem State.writeBytes_fab (s : State) (loc : Nat) (bs : List Byte) : (State.writeBytes s loc bs).fab = s.fab := rfl
@[simp] theorem State.writeBytes_ext (s : State) (loc : Nat) (bs : List Byte) : (State.writeBytes s loc bs).ext = s.ext := rfl
@[simp] theorem State.writeBytes_boot (s : State) (loc : Nat) (bs : List Byte) : (State.writeBytes s loc bs).boot = s.boot := rfl
@[simp] theorem State.addOp_clock (th : Thread) (id pk point : Nat) (s : State) : (State.addOp th id pk point s).clock = s.clock := rfl
@[simp] theorem State.addOp_device (th : Thread) (id pk point : Nat) (s : State) : (State.addOp th id pk point s).device = s.device := rfl
@[simp] theorem State.addOp_free (th : Thread) (id pk point : Nat) (s : State) : (State.addOp th id pk point s).free = s.free := rfl
@[simp] theorem State.addOp_nextId (th : Thread) (id pk point : Nat) (s : State) : (State.addOp th id pk point s).nextId = s.nextId := rfl
@[simp] theorem State.addOp_agenda (th : Thread) (id pk point : Nat) (s : State) : (State.addOp th id pk point s).agenda = s.agenda := rfl
@[simp] theorem State.addOp_sched (th : Thread) (id pk point : Nat) (s : State) : (State.addOp th id pk point s).sched = s.sched := rfl
@[simp] theorem State.addOp_turn (th : Thread) (id pk point : Nat) (s : State) : (State.addOp th id pk point s).turn = s.turn := rfl
@[simp] theorem State.addOp_cursor (th : Thread) (id pk point : Nat) (s : State) : (State.addOp th id pk point s).cursor = s.cursor := rfl
@[simp] theorem State.addOp_issue (th : Thread) (id pk point : Nat) (s : State) : (State.addOp th id pk point s).issue = s.issue := rfl
@[simp] theorem State.addOp_threads (th : Thread) (id pk point : Nat) (s : State) : (State.addOp th id pk point s).threads = s.threads := rfl
@[simp] theorem State.addOp_cores (th : Thread) (id pk point : Nat) (s : State) : (State.addOp th id pk point s).cores = s.cores := rfl
@[simp] theorem State.addOp_blocks (th : Thread) (id pk point : Nat) (s : State) : (State.addOp th id pk point s).blocks = s.blocks := rfl
@[simp] theorem State.addOp_gangs (th : Thread) (id pk point : Nat) (s : State) : (State.addOp th id pk point s).gangs = s.gangs := rfl
@[simp] theorem State.addOp_hhs (th : Thread) (id pk point : Nat) (s : State) : (State.addOp th id pk point s).hhs = s.hhs := rfl
@[simp] theorem State.addOp_tasks (th : Thread) (id pk point : Nat) (s : State) : (State.addOp th id pk point s).tasks = s.tasks := rfl
@[simp] theorem State.addOp_accs (th : Thread) (id pk point : Nat) (s : State) : (State.addOp th id pk point s).accs = s.accs := rfl
@[simp] theorem State.addOp_engs (th : Thread) (id pk point : Nat) (s : State) : (State.addOp th id pk point s).engs = s.engs := rfl
@[simp] theorem State.addOp_sends (th : Thread) (id pk point : Nat) (s : State) : (State.addOp th id pk point s).sends = s.sends := rfl
@[simp] theorem State.addOp_arrivals (th : Thread) (id pk point : Nat) (s : State) : (State.addOp th id pk point s).arrivals = s.arrivals := rfl
@[simp] theorem State.addOp_paths (th : Thread) (id pk point : Nat) (s : State) : (State.addOp th id pk point s).paths = s.paths := rfl
@[simp] theorem State.addOp_messages (th : Thread) (id pk point : Nat) (s : State) : (State.addOp th id pk point s).messages = s.messages := rfl
@[simp] theorem State.addOp_mem (th : Thread) (id pk point : Nat) (s : State) : (State.addOp th id pk point s).mem = s.mem := rfl
@[simp] theorem State.addOp_poison (th : Thread) (id pk point : Nat) (s : State) : (State.addOp th id pk point s).poison = s.poison := rfl
@[simp] theorem State.addOp_past (th : Thread) (id pk point : Nat) (s : State) : (State.addOp th id pk point s).past = s.past := rfl
@[simp] theorem State.addOp_tabs (th : Thread) (id pk point : Nat) (s : State) : (State.addOp th id pk point s).tabs = s.tabs := rfl
@[simp] theorem State.addOp_tx (th : Thread) (id pk point : Nat) (s : State) : (State.addOp th id pk point s).tx = s.tx := rfl
@[simp] theorem State.addOp_sch (th : Thread) (id pk point : Nat) (s : State) : (State.addOp th id pk point s).sch = s.sch := rfl
@[simp] theorem State.addOp_fab (th : Thread) (id pk point : Nat) (s : State) : (State.addOp th id pk point s).fab = s.fab := rfl
@[simp] theorem State.addOp_ext (th : Thread) (id pk point : Nat) (s : State) : (State.addOp th id pk point s).ext = s.ext := rfl
@[simp] theorem State.addOp_boot (th : Thread) (id pk point : Nat) (s : State) : (State.addOp th id pk point s).boot = s.boot := rfl
@[simp] theorem State.modAcc_clock (id : Nat) (f : Access → Access) (s : State) : (State.modAcc id f s).clock = s.clock := rfl
@[simp] theorem State.modAcc_device (id : Nat) (f : Access → Access) (s : State) : (State.modAcc id f s).device = s.device := rfl
@[simp] theorem State.modAcc_free (id : Nat) (f : Access → Access) (s : State) : (State.modAcc id f s).free = s.free := rfl
@[simp] theorem State.modAcc_nextId (id : Nat) (f : Access → Access) (s : State) : (State.modAcc id f s).nextId = s.nextId := rfl
@[simp] theorem State.modAcc_agenda (id : Nat) (f : Access → Access) (s : State) : (State.modAcc id f s).agenda = s.agenda := rfl
@[simp] theorem State.modAcc_sched (id : Nat) (f : Access → Access) (s : State) : (State.modAcc id f s).sched = s.sched := rfl
@[simp] theorem State.modAcc_turn (id : Nat) (f : Access → Access) (s : State) : (State.modAcc id f s).turn = s.turn := rfl
@[simp] theorem State.modAcc_cursor (id : Nat) (f : Access → Access) (s : State) : (State.modAcc id f s).cursor = s.cursor := rfl
@[simp] theorem State.modAcc_issue (id : Nat) (f : Access → Access) (s : State) : (State.modAcc id f s).issue = s.issue := rfl
@[simp] theorem State.modAcc_threads (id : Nat) (f : Access → Access) (s : State) : (State.modAcc id f s).threads = s.threads := rfl
@[simp] theorem State.modAcc_warps (id : Nat) (f : Access → Access) (s : State) : (State.modAcc id f s).warps = s.warps := rfl
@[simp] theorem State.modAcc_cores (id : Nat) (f : Access → Access) (s : State) : (State.modAcc id f s).cores = s.cores := rfl
@[simp] theorem State.modAcc_blocks (id : Nat) (f : Access → Access) (s : State) : (State.modAcc id f s).blocks = s.blocks := rfl
@[simp] theorem State.modAcc_gangs (id : Nat) (f : Access → Access) (s : State) : (State.modAcc id f s).gangs = s.gangs := rfl
@[simp] theorem State.modAcc_hhs (id : Nat) (f : Access → Access) (s : State) : (State.modAcc id f s).hhs = s.hhs := rfl
@[simp] theorem State.modAcc_tasks (id : Nat) (f : Access → Access) (s : State) : (State.modAcc id f s).tasks = s.tasks := rfl
@[simp] theorem State.modAcc_ops (id : Nat) (f : Access → Access) (s : State) : (State.modAcc id f s).ops = s.ops := rfl
@[simp] theorem State.modAcc_engs (id : Nat) (f : Access → Access) (s : State) : (State.modAcc id f s).engs = s.engs := rfl
@[simp] theorem State.modAcc_sends (id : Nat) (f : Access → Access) (s : State) : (State.modAcc id f s).sends = s.sends := rfl
@[simp] theorem State.modAcc_arrivals (id : Nat) (f : Access → Access) (s : State) : (State.modAcc id f s).arrivals = s.arrivals := rfl
@[simp] theorem State.modAcc_paths (id : Nat) (f : Access → Access) (s : State) : (State.modAcc id f s).paths = s.paths := rfl
@[simp] theorem State.modAcc_messages (id : Nat) (f : Access → Access) (s : State) : (State.modAcc id f s).messages = s.messages := rfl
@[simp] theorem State.modAcc_mem (id : Nat) (f : Access → Access) (s : State) : (State.modAcc id f s).mem = s.mem := rfl
@[simp] theorem State.modAcc_poison (id : Nat) (f : Access → Access) (s : State) : (State.modAcc id f s).poison = s.poison := rfl
@[simp] theorem State.modAcc_past (id : Nat) (f : Access → Access) (s : State) : (State.modAcc id f s).past = s.past := rfl
@[simp] theorem State.modAcc_tabs (id : Nat) (f : Access → Access) (s : State) : (State.modAcc id f s).tabs = s.tabs := rfl
@[simp] theorem State.modAcc_tx (id : Nat) (f : Access → Access) (s : State) : (State.modAcc id f s).tx = s.tx := rfl
@[simp] theorem State.modAcc_sch (id : Nat) (f : Access → Access) (s : State) : (State.modAcc id f s).sch = s.sch := rfl
@[simp] theorem State.modAcc_fab (id : Nat) (f : Access → Access) (s : State) : (State.modAcc id f s).fab = s.fab := rfl
@[simp] theorem State.modAcc_ext (id : Nat) (f : Access → Access) (s : State) : (State.modAcc id f s).ext = s.ext := rfl
@[simp] theorem State.modAcc_boot (id : Nat) (f : Access → Access) (s : State) : (State.modAcc id f s).boot = s.boot := rfl
@[simp] theorem State.dropAcc_clock (id : Nat) (s : State) : (State.dropAcc id s).clock = s.clock := rfl
@[simp] theorem State.dropAcc_device (id : Nat) (s : State) : (State.dropAcc id s).device = s.device := rfl
@[simp] theorem State.dropAcc_free (id : Nat) (s : State) : (State.dropAcc id s).free = s.free := rfl
@[simp] theorem State.dropAcc_nextId (id : Nat) (s : State) : (State.dropAcc id s).nextId = s.nextId := rfl
@[simp] theorem State.dropAcc_agenda (id : Nat) (s : State) : (State.dropAcc id s).agenda = s.agenda := rfl
@[simp] theorem State.dropAcc_sched (id : Nat) (s : State) : (State.dropAcc id s).sched = s.sched := rfl
@[simp] theorem State.dropAcc_turn (id : Nat) (s : State) : (State.dropAcc id s).turn = s.turn := rfl
@[simp] theorem State.dropAcc_cursor (id : Nat) (s : State) : (State.dropAcc id s).cursor = s.cursor := rfl
@[simp] theorem State.dropAcc_issue (id : Nat) (s : State) : (State.dropAcc id s).issue = s.issue := rfl
@[simp] theorem State.dropAcc_threads (id : Nat) (s : State) : (State.dropAcc id s).threads = s.threads := rfl
@[simp] theorem State.dropAcc_warps (id : Nat) (s : State) : (State.dropAcc id s).warps = s.warps := rfl
@[simp] theorem State.dropAcc_cores (id : Nat) (s : State) : (State.dropAcc id s).cores = s.cores := rfl
@[simp] theorem State.dropAcc_blocks (id : Nat) (s : State) : (State.dropAcc id s).blocks = s.blocks := rfl
@[simp] theorem State.dropAcc_gangs (id : Nat) (s : State) : (State.dropAcc id s).gangs = s.gangs := rfl
@[simp] theorem State.dropAcc_hhs (id : Nat) (s : State) : (State.dropAcc id s).hhs = s.hhs := rfl
@[simp] theorem State.dropAcc_tasks (id : Nat) (s : State) : (State.dropAcc id s).tasks = s.tasks := rfl
@[simp] theorem State.dropAcc_ops (id : Nat) (s : State) : (State.dropAcc id s).ops = s.ops := rfl
@[simp] theorem State.dropAcc_engs (id : Nat) (s : State) : (State.dropAcc id s).engs = s.engs := rfl
@[simp] theorem State.dropAcc_sends (id : Nat) (s : State) : (State.dropAcc id s).sends = s.sends := rfl
@[simp] theorem State.dropAcc_arrivals (id : Nat) (s : State) : (State.dropAcc id s).arrivals = s.arrivals := rfl
@[simp] theorem State.dropAcc_paths (id : Nat) (s : State) : (State.dropAcc id s).paths = s.paths := rfl
@[simp] theorem State.dropAcc_messages (id : Nat) (s : State) : (State.dropAcc id s).messages = s.messages := rfl
@[simp] theorem State.dropAcc_mem (id : Nat) (s : State) : (State.dropAcc id s).mem = s.mem := rfl
@[simp] theorem State.dropAcc_poison (id : Nat) (s : State) : (State.dropAcc id s).poison = s.poison := rfl
@[simp] theorem State.dropAcc_past (id : Nat) (s : State) : (State.dropAcc id s).past = s.past := rfl
@[simp] theorem State.dropAcc_tabs (id : Nat) (s : State) : (State.dropAcc id s).tabs = s.tabs := rfl
@[simp] theorem State.dropAcc_tx (id : Nat) (s : State) : (State.dropAcc id s).tx = s.tx := rfl
@[simp] theorem State.dropAcc_sch (id : Nat) (s : State) : (State.dropAcc id s).sch = s.sch := rfl
@[simp] theorem State.dropAcc_fab (id : Nat) (s : State) : (State.dropAcc id s).fab = s.fab := rfl
@[simp] theorem State.dropAcc_ext (id : Nat) (s : State) : (State.dropAcc id s).ext = s.ext := rfl
@[simp] theorem State.dropAcc_boot (id : Nat) (s : State) : (State.dropAcc id s).boot = s.boot := rfl
@[simp] theorem State.setEng_clock (e : EngOp) (s : State) : (State.setEng e s).clock = s.clock := rfl
@[simp] theorem State.setEng_device (e : EngOp) (s : State) : (State.setEng e s).device = s.device := rfl
@[simp] theorem State.setEng_free (e : EngOp) (s : State) : (State.setEng e s).free = s.free := rfl
@[simp] theorem State.setEng_nextId (e : EngOp) (s : State) : (State.setEng e s).nextId = s.nextId := rfl
@[simp] theorem State.setEng_agenda (e : EngOp) (s : State) : (State.setEng e s).agenda = s.agenda := rfl
@[simp] theorem State.setEng_sched (e : EngOp) (s : State) : (State.setEng e s).sched = s.sched := rfl
@[simp] theorem State.setEng_turn (e : EngOp) (s : State) : (State.setEng e s).turn = s.turn := rfl
@[simp] theorem State.setEng_cursor (e : EngOp) (s : State) : (State.setEng e s).cursor = s.cursor := rfl
@[simp] theorem State.setEng_issue (e : EngOp) (s : State) : (State.setEng e s).issue = s.issue := rfl
@[simp] theorem State.setEng_threads (e : EngOp) (s : State) : (State.setEng e s).threads = s.threads := rfl
@[simp] theorem State.setEng_warps (e : EngOp) (s : State) : (State.setEng e s).warps = s.warps := rfl
@[simp] theorem State.setEng_cores (e : EngOp) (s : State) : (State.setEng e s).cores = s.cores := rfl
@[simp] theorem State.setEng_blocks (e : EngOp) (s : State) : (State.setEng e s).blocks = s.blocks := rfl
@[simp] theorem State.setEng_gangs (e : EngOp) (s : State) : (State.setEng e s).gangs = s.gangs := rfl
@[simp] theorem State.setEng_hhs (e : EngOp) (s : State) : (State.setEng e s).hhs = s.hhs := rfl
@[simp] theorem State.setEng_tasks (e : EngOp) (s : State) : (State.setEng e s).tasks = s.tasks := rfl
@[simp] theorem State.setEng_ops (e : EngOp) (s : State) : (State.setEng e s).ops = s.ops := rfl
@[simp] theorem State.setEng_accs (e : EngOp) (s : State) : (State.setEng e s).accs = s.accs := rfl
@[simp] theorem State.setEng_sends (e : EngOp) (s : State) : (State.setEng e s).sends = s.sends := rfl
@[simp] theorem State.setEng_arrivals (e : EngOp) (s : State) : (State.setEng e s).arrivals = s.arrivals := rfl
@[simp] theorem State.setEng_paths (e : EngOp) (s : State) : (State.setEng e s).paths = s.paths := rfl
@[simp] theorem State.setEng_messages (e : EngOp) (s : State) : (State.setEng e s).messages = s.messages := rfl
@[simp] theorem State.setEng_mem (e : EngOp) (s : State) : (State.setEng e s).mem = s.mem := rfl
@[simp] theorem State.setEng_poison (e : EngOp) (s : State) : (State.setEng e s).poison = s.poison := rfl
@[simp] theorem State.setEng_past (e : EngOp) (s : State) : (State.setEng e s).past = s.past := rfl
@[simp] theorem State.setEng_tabs (e : EngOp) (s : State) : (State.setEng e s).tabs = s.tabs := rfl
@[simp] theorem State.setEng_tx (e : EngOp) (s : State) : (State.setEng e s).tx = s.tx := rfl
@[simp] theorem State.setEng_sch (e : EngOp) (s : State) : (State.setEng e s).sch = s.sch := rfl
@[simp] theorem State.setEng_fab (e : EngOp) (s : State) : (State.setEng e s).fab = s.fab := rfl
@[simp] theorem State.setEng_ext (e : EngOp) (s : State) : (State.setEng e s).ext = s.ext := rfl
@[simp] theorem State.setEng_boot (e : EngOp) (s : State) : (State.setEng e s).boot = s.boot := rfl
@[simp] theorem State.dropEng_clock (id : Nat) (s : State) : (State.dropEng id s).clock = s.clock := rfl
@[simp] theorem State.dropEng_device (id : Nat) (s : State) : (State.dropEng id s).device = s.device := rfl
@[simp] theorem State.dropEng_free (id : Nat) (s : State) : (State.dropEng id s).free = s.free := rfl
@[simp] theorem State.dropEng_nextId (id : Nat) (s : State) : (State.dropEng id s).nextId = s.nextId := rfl
@[simp] theorem State.dropEng_agenda (id : Nat) (s : State) : (State.dropEng id s).agenda = s.agenda := rfl
@[simp] theorem State.dropEng_sched (id : Nat) (s : State) : (State.dropEng id s).sched = s.sched := rfl
@[simp] theorem State.dropEng_turn (id : Nat) (s : State) : (State.dropEng id s).turn = s.turn := rfl
@[simp] theorem State.dropEng_cursor (id : Nat) (s : State) : (State.dropEng id s).cursor = s.cursor := rfl
@[simp] theorem State.dropEng_issue (id : Nat) (s : State) : (State.dropEng id s).issue = s.issue := rfl
@[simp] theorem State.dropEng_threads (id : Nat) (s : State) : (State.dropEng id s).threads = s.threads := rfl
@[simp] theorem State.dropEng_warps (id : Nat) (s : State) : (State.dropEng id s).warps = s.warps := rfl
@[simp] theorem State.dropEng_cores (id : Nat) (s : State) : (State.dropEng id s).cores = s.cores := rfl
@[simp] theorem State.dropEng_blocks (id : Nat) (s : State) : (State.dropEng id s).blocks = s.blocks := rfl
@[simp] theorem State.dropEng_gangs (id : Nat) (s : State) : (State.dropEng id s).gangs = s.gangs := rfl
@[simp] theorem State.dropEng_hhs (id : Nat) (s : State) : (State.dropEng id s).hhs = s.hhs := rfl
@[simp] theorem State.dropEng_tasks (id : Nat) (s : State) : (State.dropEng id s).tasks = s.tasks := rfl
@[simp] theorem State.dropEng_ops (id : Nat) (s : State) : (State.dropEng id s).ops = s.ops := rfl
@[simp] theorem State.dropEng_accs (id : Nat) (s : State) : (State.dropEng id s).accs = s.accs := rfl
@[simp] theorem State.dropEng_sends (id : Nat) (s : State) : (State.dropEng id s).sends = s.sends := rfl
@[simp] theorem State.dropEng_arrivals (id : Nat) (s : State) : (State.dropEng id s).arrivals = s.arrivals := rfl
@[simp] theorem State.dropEng_paths (id : Nat) (s : State) : (State.dropEng id s).paths = s.paths := rfl
@[simp] theorem State.dropEng_messages (id : Nat) (s : State) : (State.dropEng id s).messages = s.messages := rfl
@[simp] theorem State.dropEng_mem (id : Nat) (s : State) : (State.dropEng id s).mem = s.mem := rfl
@[simp] theorem State.dropEng_poison (id : Nat) (s : State) : (State.dropEng id s).poison = s.poison := rfl
@[simp] theorem State.dropEng_past (id : Nat) (s : State) : (State.dropEng id s).past = s.past := rfl
@[simp] theorem State.dropEng_tabs (id : Nat) (s : State) : (State.dropEng id s).tabs = s.tabs := rfl
@[simp] theorem State.dropEng_tx (id : Nat) (s : State) : (State.dropEng id s).tx = s.tx := rfl
@[simp] theorem State.dropEng_sch (id : Nat) (s : State) : (State.dropEng id s).sch = s.sch := rfl
@[simp] theorem State.dropEng_fab (id : Nat) (s : State) : (State.dropEng id s).fab = s.fab := rfl
@[simp] theorem State.dropEng_ext (id : Nat) (s : State) : (State.dropEng id s).ext = s.ext := rfl
@[simp] theorem State.dropEng_boot (id : Nat) (s : State) : (State.dropEng id s).boot = s.boot := rfl
@[simp] theorem State.setTokens_clock (t : TokenLine) (s : State) : (State.setTokens t s).clock = s.clock := rfl
@[simp] theorem State.setTokens_device (t : TokenLine) (s : State) : (State.setTokens t s).device = s.device := rfl
@[simp] theorem State.setTokens_free (t : TokenLine) (s : State) : (State.setTokens t s).free = s.free := rfl
@[simp] theorem State.setTokens_nextId (t : TokenLine) (s : State) : (State.setTokens t s).nextId = s.nextId := rfl
@[simp] theorem State.setTokens_agenda (t : TokenLine) (s : State) : (State.setTokens t s).agenda = s.agenda := rfl
@[simp] theorem State.setTokens_sched (t : TokenLine) (s : State) : (State.setTokens t s).sched = s.sched := rfl
@[simp] theorem State.setTokens_turn (t : TokenLine) (s : State) : (State.setTokens t s).turn = s.turn := rfl
@[simp] theorem State.setTokens_cursor (t : TokenLine) (s : State) : (State.setTokens t s).cursor = s.cursor := rfl
@[simp] theorem State.setTokens_issue (t : TokenLine) (s : State) : (State.setTokens t s).issue = s.issue := rfl
@[simp] theorem State.setTokens_threads (t : TokenLine) (s : State) : (State.setTokens t s).threads = s.threads := rfl
@[simp] theorem State.setTokens_warps (t : TokenLine) (s : State) : (State.setTokens t s).warps = s.warps := rfl
@[simp] theorem State.setTokens_cores (t : TokenLine) (s : State) : (State.setTokens t s).cores = s.cores := rfl
@[simp] theorem State.setTokens_blocks (t : TokenLine) (s : State) : (State.setTokens t s).blocks = s.blocks := rfl
@[simp] theorem State.setTokens_gangs (t : TokenLine) (s : State) : (State.setTokens t s).gangs = s.gangs := rfl
@[simp] theorem State.setTokens_hhs (t : TokenLine) (s : State) : (State.setTokens t s).hhs = s.hhs := rfl
@[simp] theorem State.setTokens_tasks (t : TokenLine) (s : State) : (State.setTokens t s).tasks = s.tasks := rfl
@[simp] theorem State.setTokens_ops (t : TokenLine) (s : State) : (State.setTokens t s).ops = s.ops := rfl
@[simp] theorem State.setTokens_accs (t : TokenLine) (s : State) : (State.setTokens t s).accs = s.accs := rfl
@[simp] theorem State.setTokens_engs (t : TokenLine) (s : State) : (State.setTokens t s).engs = s.engs := rfl
@[simp] theorem State.setTokens_sends (t : TokenLine) (s : State) : (State.setTokens t s).sends = s.sends := rfl
@[simp] theorem State.setTokens_arrivals (t : TokenLine) (s : State) : (State.setTokens t s).arrivals = s.arrivals := rfl
@[simp] theorem State.setTokens_paths (t : TokenLine) (s : State) : (State.setTokens t s).paths = s.paths := rfl
@[simp] theorem State.setTokens_messages (t : TokenLine) (s : State) : (State.setTokens t s).messages = s.messages := rfl
@[simp] theorem State.setTokens_mem (t : TokenLine) (s : State) : (State.setTokens t s).mem = s.mem := rfl
@[simp] theorem State.setTokens_poison (t : TokenLine) (s : State) : (State.setTokens t s).poison = s.poison := rfl
@[simp] theorem State.setTokens_past (t : TokenLine) (s : State) : (State.setTokens t s).past = s.past := rfl
@[simp] theorem State.setTokens_tabs (t : TokenLine) (s : State) : (State.setTokens t s).tabs = s.tabs := rfl
@[simp] theorem State.setTokens_tx (t : TokenLine) (s : State) : (State.setTokens t s).tx = s.tx := rfl
@[simp] theorem State.setTokens_sch (t : TokenLine) (s : State) : (State.setTokens t s).sch = s.sch := rfl
@[simp] theorem State.setTokens_ext (t : TokenLine) (s : State) : (State.setTokens t s).ext = s.ext := rfl
@[simp] theorem State.setTokens_boot (t : TokenLine) (s : State) : (State.setTokens t s).boot = s.boot := rfl
@[simp] theorem State.setLink_clock (l : Link) (s : State) : (State.setLink l s).clock = s.clock := rfl
@[simp] theorem State.setLink_device (l : Link) (s : State) : (State.setLink l s).device = s.device := rfl
@[simp] theorem State.setLink_free (l : Link) (s : State) : (State.setLink l s).free = s.free := rfl
@[simp] theorem State.setLink_nextId (l : Link) (s : State) : (State.setLink l s).nextId = s.nextId := rfl
@[simp] theorem State.setLink_agenda (l : Link) (s : State) : (State.setLink l s).agenda = s.agenda := rfl
@[simp] theorem State.setLink_sched (l : Link) (s : State) : (State.setLink l s).sched = s.sched := rfl
@[simp] theorem State.setLink_turn (l : Link) (s : State) : (State.setLink l s).turn = s.turn := rfl
@[simp] theorem State.setLink_cursor (l : Link) (s : State) : (State.setLink l s).cursor = s.cursor := rfl
@[simp] theorem State.setLink_issue (l : Link) (s : State) : (State.setLink l s).issue = s.issue := rfl
@[simp] theorem State.setLink_threads (l : Link) (s : State) : (State.setLink l s).threads = s.threads := rfl
@[simp] theorem State.setLink_warps (l : Link) (s : State) : (State.setLink l s).warps = s.warps := rfl
@[simp] theorem State.setLink_cores (l : Link) (s : State) : (State.setLink l s).cores = s.cores := rfl
@[simp] theorem State.setLink_blocks (l : Link) (s : State) : (State.setLink l s).blocks = s.blocks := rfl
@[simp] theorem State.setLink_gangs (l : Link) (s : State) : (State.setLink l s).gangs = s.gangs := rfl
@[simp] theorem State.setLink_hhs (l : Link) (s : State) : (State.setLink l s).hhs = s.hhs := rfl
@[simp] theorem State.setLink_tasks (l : Link) (s : State) : (State.setLink l s).tasks = s.tasks := rfl
@[simp] theorem State.setLink_ops (l : Link) (s : State) : (State.setLink l s).ops = s.ops := rfl
@[simp] theorem State.setLink_accs (l : Link) (s : State) : (State.setLink l s).accs = s.accs := rfl
@[simp] theorem State.setLink_engs (l : Link) (s : State) : (State.setLink l s).engs = s.engs := rfl
@[simp] theorem State.setLink_sends (l : Link) (s : State) : (State.setLink l s).sends = s.sends := rfl
@[simp] theorem State.setLink_arrivals (l : Link) (s : State) : (State.setLink l s).arrivals = s.arrivals := rfl
@[simp] theorem State.setLink_paths (l : Link) (s : State) : (State.setLink l s).paths = s.paths := rfl
@[simp] theorem State.setLink_messages (l : Link) (s : State) : (State.setLink l s).messages = s.messages := rfl
@[simp] theorem State.setLink_mem (l : Link) (s : State) : (State.setLink l s).mem = s.mem := rfl
@[simp] theorem State.setLink_poison (l : Link) (s : State) : (State.setLink l s).poison = s.poison := rfl
@[simp] theorem State.setLink_past (l : Link) (s : State) : (State.setLink l s).past = s.past := rfl
@[simp] theorem State.setLink_tabs (l : Link) (s : State) : (State.setLink l s).tabs = s.tabs := rfl
@[simp] theorem State.setLink_tx (l : Link) (s : State) : (State.setLink l s).tx = s.tx := rfl
@[simp] theorem State.setLink_sch (l : Link) (s : State) : (State.setLink l s).sch = s.sch := rfl
@[simp] theorem State.setLink_ext (l : Link) (s : State) : (State.setLink l s).ext = s.ext := rfl
@[simp] theorem State.setLink_boot (l : Link) (s : State) : (State.setLink l s).boot = s.boot := rfl
@[simp] theorem State.setGroup_clock (g : Group) (s : State) : (State.setGroup g s).clock = s.clock := rfl
@[simp] theorem State.setGroup_device (g : Group) (s : State) : (State.setGroup g s).device = s.device := rfl
@[simp] theorem State.setGroup_free (g : Group) (s : State) : (State.setGroup g s).free = s.free := rfl
@[simp] theorem State.setGroup_nextId (g : Group) (s : State) : (State.setGroup g s).nextId = s.nextId := rfl
@[simp] theorem State.setGroup_agenda (g : Group) (s : State) : (State.setGroup g s).agenda = s.agenda := rfl
@[simp] theorem State.setGroup_sched (g : Group) (s : State) : (State.setGroup g s).sched = s.sched := rfl
@[simp] theorem State.setGroup_turn (g : Group) (s : State) : (State.setGroup g s).turn = s.turn := rfl
@[simp] theorem State.setGroup_cursor (g : Group) (s : State) : (State.setGroup g s).cursor = s.cursor := rfl
@[simp] theorem State.setGroup_issue (g : Group) (s : State) : (State.setGroup g s).issue = s.issue := rfl
@[simp] theorem State.setGroup_threads (g : Group) (s : State) : (State.setGroup g s).threads = s.threads := rfl
@[simp] theorem State.setGroup_warps (g : Group) (s : State) : (State.setGroup g s).warps = s.warps := rfl
@[simp] theorem State.setGroup_cores (g : Group) (s : State) : (State.setGroup g s).cores = s.cores := rfl
@[simp] theorem State.setGroup_blocks (g : Group) (s : State) : (State.setGroup g s).blocks = s.blocks := rfl
@[simp] theorem State.setGroup_gangs (g : Group) (s : State) : (State.setGroup g s).gangs = s.gangs := rfl
@[simp] theorem State.setGroup_hhs (g : Group) (s : State) : (State.setGroup g s).hhs = s.hhs := rfl
@[simp] theorem State.setGroup_tasks (g : Group) (s : State) : (State.setGroup g s).tasks = s.tasks := rfl
@[simp] theorem State.setGroup_ops (g : Group) (s : State) : (State.setGroup g s).ops = s.ops := rfl
@[simp] theorem State.setGroup_accs (g : Group) (s : State) : (State.setGroup g s).accs = s.accs := rfl
@[simp] theorem State.setGroup_engs (g : Group) (s : State) : (State.setGroup g s).engs = s.engs := rfl
@[simp] theorem State.setGroup_sends (g : Group) (s : State) : (State.setGroup g s).sends = s.sends := rfl
@[simp] theorem State.setGroup_arrivals (g : Group) (s : State) : (State.setGroup g s).arrivals = s.arrivals := rfl
@[simp] theorem State.setGroup_paths (g : Group) (s : State) : (State.setGroup g s).paths = s.paths := rfl
@[simp] theorem State.setGroup_messages (g : Group) (s : State) : (State.setGroup g s).messages = s.messages := rfl
@[simp] theorem State.setGroup_mem (g : Group) (s : State) : (State.setGroup g s).mem = s.mem := rfl
@[simp] theorem State.setGroup_poison (g : Group) (s : State) : (State.setGroup g s).poison = s.poison := rfl
@[simp] theorem State.setGroup_past (g : Group) (s : State) : (State.setGroup g s).past = s.past := rfl
@[simp] theorem State.setGroup_tabs (g : Group) (s : State) : (State.setGroup g s).tabs = s.tabs := rfl
@[simp] theorem State.setGroup_sch (g : Group) (s : State) : (State.setGroup g s).sch = s.sch := rfl
@[simp] theorem State.setGroup_fab (g : Group) (s : State) : (State.setGroup g s).fab = s.fab := rfl
@[simp] theorem State.setGroup_ext (g : Group) (s : State) : (State.setGroup g s).ext = s.ext := rfl
@[simp] theorem State.setGroup_boot (g : Group) (s : State) : (State.setGroup g s).boot = s.boot := rfl
@[simp] theorem State.dropMessage_clock (id : Nat) (s : State) : (State.dropMessage id s).clock = s.clock := rfl
@[simp] theorem State.dropMessage_device (id : Nat) (s : State) : (State.dropMessage id s).device = s.device := rfl
@[simp] theorem State.dropMessage_free (id : Nat) (s : State) : (State.dropMessage id s).free = s.free := rfl
@[simp] theorem State.dropMessage_nextId (id : Nat) (s : State) : (State.dropMessage id s).nextId = s.nextId := rfl
@[simp] theorem State.dropMessage_agenda (id : Nat) (s : State) : (State.dropMessage id s).agenda = s.agenda := rfl
@[simp] theorem State.dropMessage_sched (id : Nat) (s : State) : (State.dropMessage id s).sched = s.sched := rfl
@[simp] theorem State.dropMessage_turn (id : Nat) (s : State) : (State.dropMessage id s).turn = s.turn := rfl
@[simp] theorem State.dropMessage_cursor (id : Nat) (s : State) : (State.dropMessage id s).cursor = s.cursor := rfl
@[simp] theorem State.dropMessage_issue (id : Nat) (s : State) : (State.dropMessage id s).issue = s.issue := rfl
@[simp] theorem State.dropMessage_threads (id : Nat) (s : State) : (State.dropMessage id s).threads = s.threads := rfl
@[simp] theorem State.dropMessage_warps (id : Nat) (s : State) : (State.dropMessage id s).warps = s.warps := rfl
@[simp] theorem State.dropMessage_cores (id : Nat) (s : State) : (State.dropMessage id s).cores = s.cores := rfl
@[simp] theorem State.dropMessage_blocks (id : Nat) (s : State) : (State.dropMessage id s).blocks = s.blocks := rfl
@[simp] theorem State.dropMessage_gangs (id : Nat) (s : State) : (State.dropMessage id s).gangs = s.gangs := rfl
@[simp] theorem State.dropMessage_hhs (id : Nat) (s : State) : (State.dropMessage id s).hhs = s.hhs := rfl
@[simp] theorem State.dropMessage_tasks (id : Nat) (s : State) : (State.dropMessage id s).tasks = s.tasks := rfl
@[simp] theorem State.dropMessage_ops (id : Nat) (s : State) : (State.dropMessage id s).ops = s.ops := rfl
@[simp] theorem State.dropMessage_accs (id : Nat) (s : State) : (State.dropMessage id s).accs = s.accs := rfl
@[simp] theorem State.dropMessage_engs (id : Nat) (s : State) : (State.dropMessage id s).engs = s.engs := rfl
@[simp] theorem State.dropMessage_sends (id : Nat) (s : State) : (State.dropMessage id s).sends = s.sends := rfl
@[simp] theorem State.dropMessage_arrivals (id : Nat) (s : State) : (State.dropMessage id s).arrivals = s.arrivals := rfl
@[simp] theorem State.dropMessage_paths (id : Nat) (s : State) : (State.dropMessage id s).paths = s.paths := rfl
@[simp] theorem State.dropMessage_mem (id : Nat) (s : State) : (State.dropMessage id s).mem = s.mem := rfl
@[simp] theorem State.dropMessage_poison (id : Nat) (s : State) : (State.dropMessage id s).poison = s.poison := rfl
@[simp] theorem State.dropMessage_past (id : Nat) (s : State) : (State.dropMessage id s).past = s.past := rfl
@[simp] theorem State.dropMessage_tabs (id : Nat) (s : State) : (State.dropMessage id s).tabs = s.tabs := rfl
@[simp] theorem State.dropMessage_tx (id : Nat) (s : State) : (State.dropMessage id s).tx = s.tx := rfl
@[simp] theorem State.dropMessage_sch (id : Nat) (s : State) : (State.dropMessage id s).sch = s.sch := rfl
@[simp] theorem State.dropMessage_fab (id : Nat) (s : State) : (State.dropMessage id s).fab = s.fab := rfl
@[simp] theorem State.dropMessage_ext (id : Nat) (s : State) : (State.dropMessage id s).ext = s.ext := rfl
@[simp] theorem State.dropMessage_boot (id : Nat) (s : State) : (State.dropMessage id s).boot = s.boot := rfl
@[simp] theorem State.setItem_clock (x : Item) (s : State) : (State.setItem x s).clock = s.clock := rfl
@[simp] theorem State.setItem_device (x : Item) (s : State) : (State.setItem x s).device = s.device := rfl
@[simp] theorem State.setItem_free (x : Item) (s : State) : (State.setItem x s).free = s.free := rfl
@[simp] theorem State.setItem_nextId (x : Item) (s : State) : (State.setItem x s).nextId = s.nextId := rfl
@[simp] theorem State.setItem_agenda (x : Item) (s : State) : (State.setItem x s).agenda = s.agenda := rfl
@[simp] theorem State.setItem_sched (x : Item) (s : State) : (State.setItem x s).sched = s.sched := rfl
@[simp] theorem State.setItem_turn (x : Item) (s : State) : (State.setItem x s).turn = s.turn := rfl
@[simp] theorem State.setItem_cursor (x : Item) (s : State) : (State.setItem x s).cursor = s.cursor := rfl
@[simp] theorem State.setItem_issue (x : Item) (s : State) : (State.setItem x s).issue = s.issue := rfl
@[simp] theorem State.setItem_threads (x : Item) (s : State) : (State.setItem x s).threads = s.threads := rfl
@[simp] theorem State.setItem_warps (x : Item) (s : State) : (State.setItem x s).warps = s.warps := rfl
@[simp] theorem State.setItem_cores (x : Item) (s : State) : (State.setItem x s).cores = s.cores := rfl
@[simp] theorem State.setItem_blocks (x : Item) (s : State) : (State.setItem x s).blocks = s.blocks := rfl
@[simp] theorem State.setItem_gangs (x : Item) (s : State) : (State.setItem x s).gangs = s.gangs := rfl
@[simp] theorem State.setItem_hhs (x : Item) (s : State) : (State.setItem x s).hhs = s.hhs := rfl
@[simp] theorem State.setItem_tasks (x : Item) (s : State) : (State.setItem x s).tasks = s.tasks := rfl
@[simp] theorem State.setItem_ops (x : Item) (s : State) : (State.setItem x s).ops = s.ops := rfl
@[simp] theorem State.setItem_accs (x : Item) (s : State) : (State.setItem x s).accs = s.accs := rfl
@[simp] theorem State.setItem_engs (x : Item) (s : State) : (State.setItem x s).engs = s.engs := rfl
@[simp] theorem State.setItem_sends (x : Item) (s : State) : (State.setItem x s).sends = s.sends := rfl
@[simp] theorem State.setItem_arrivals (x : Item) (s : State) : (State.setItem x s).arrivals = s.arrivals := rfl
@[simp] theorem State.setItem_paths (x : Item) (s : State) : (State.setItem x s).paths = s.paths := rfl
@[simp] theorem State.setItem_messages (x : Item) (s : State) : (State.setItem x s).messages = s.messages := rfl
@[simp] theorem State.setItem_mem (x : Item) (s : State) : (State.setItem x s).mem = s.mem := rfl
@[simp] theorem State.setItem_poison (x : Item) (s : State) : (State.setItem x s).poison = s.poison := rfl
@[simp] theorem State.setItem_past (x : Item) (s : State) : (State.setItem x s).past = s.past := rfl
@[simp] theorem State.setItem_tabs (x : Item) (s : State) : (State.setItem x s).tabs = s.tabs := rfl
@[simp] theorem State.setItem_tx (x : Item) (s : State) : (State.setItem x s).tx = s.tx := rfl
@[simp] theorem State.setItem_fab (x : Item) (s : State) : (State.setItem x s).fab = s.fab := rfl
@[simp] theorem State.setItem_ext (x : Item) (s : State) : (State.setItem x s).ext = s.ext := rfl
@[simp] theorem State.setItem_boot (x : Item) (s : State) : (State.setItem x s).boot = s.boot := rfl
@[simp] theorem State.setChain_clock (k : Chain) (s : State) : (State.setChain k s).clock = s.clock := rfl
@[simp] theorem State.setChain_device (k : Chain) (s : State) : (State.setChain k s).device = s.device := rfl
@[simp] theorem State.setChain_free (k : Chain) (s : State) : (State.setChain k s).free = s.free := rfl
@[simp] theorem State.setChain_nextId (k : Chain) (s : State) : (State.setChain k s).nextId = s.nextId := rfl
@[simp] theorem State.setChain_agenda (k : Chain) (s : State) : (State.setChain k s).agenda = s.agenda := rfl
@[simp] theorem State.setChain_sched (k : Chain) (s : State) : (State.setChain k s).sched = s.sched := rfl
@[simp] theorem State.setChain_turn (k : Chain) (s : State) : (State.setChain k s).turn = s.turn := rfl
@[simp] theorem State.setChain_cursor (k : Chain) (s : State) : (State.setChain k s).cursor = s.cursor := rfl
@[simp] theorem State.setChain_issue (k : Chain) (s : State) : (State.setChain k s).issue = s.issue := rfl
@[simp] theorem State.setChain_threads (k : Chain) (s : State) : (State.setChain k s).threads = s.threads := rfl
@[simp] theorem State.setChain_warps (k : Chain) (s : State) : (State.setChain k s).warps = s.warps := rfl
@[simp] theorem State.setChain_cores (k : Chain) (s : State) : (State.setChain k s).cores = s.cores := rfl
@[simp] theorem State.setChain_blocks (k : Chain) (s : State) : (State.setChain k s).blocks = s.blocks := rfl
@[simp] theorem State.setChain_gangs (k : Chain) (s : State) : (State.setChain k s).gangs = s.gangs := rfl
@[simp] theorem State.setChain_hhs (k : Chain) (s : State) : (State.setChain k s).hhs = s.hhs := rfl
@[simp] theorem State.setChain_tasks (k : Chain) (s : State) : (State.setChain k s).tasks = s.tasks := rfl
@[simp] theorem State.setChain_ops (k : Chain) (s : State) : (State.setChain k s).ops = s.ops := rfl
@[simp] theorem State.setChain_accs (k : Chain) (s : State) : (State.setChain k s).accs = s.accs := rfl
@[simp] theorem State.setChain_engs (k : Chain) (s : State) : (State.setChain k s).engs = s.engs := rfl
@[simp] theorem State.setChain_sends (k : Chain) (s : State) : (State.setChain k s).sends = s.sends := rfl
@[simp] theorem State.setChain_arrivals (k : Chain) (s : State) : (State.setChain k s).arrivals = s.arrivals := rfl
@[simp] theorem State.setChain_paths (k : Chain) (s : State) : (State.setChain k s).paths = s.paths := rfl
@[simp] theorem State.setChain_messages (k : Chain) (s : State) : (State.setChain k s).messages = s.messages := rfl
@[simp] theorem State.setChain_mem (k : Chain) (s : State) : (State.setChain k s).mem = s.mem := rfl
@[simp] theorem State.setChain_poison (k : Chain) (s : State) : (State.setChain k s).poison = s.poison := rfl
@[simp] theorem State.setChain_past (k : Chain) (s : State) : (State.setChain k s).past = s.past := rfl
@[simp] theorem State.setChain_tabs (k : Chain) (s : State) : (State.setChain k s).tabs = s.tabs := rfl
@[simp] theorem State.setChain_tx (k : Chain) (s : State) : (State.setChain k s).tx = s.tx := rfl
@[simp] theorem State.setChain_fab (k : Chain) (s : State) : (State.setChain k s).fab = s.fab := rfl
@[simp] theorem State.setChain_ext (k : Chain) (s : State) : (State.setChain k s).ext = s.ext := rfl
@[simp] theorem State.setChain_boot (k : Chain) (s : State) : (State.setChain k s).boot = s.boot := rfl
@[simp] theorem State.setMove_clock (m : Move) (s : State) : (State.setMove m s).clock = s.clock := rfl
@[simp] theorem State.setMove_device (m : Move) (s : State) : (State.setMove m s).device = s.device := rfl
@[simp] theorem State.setMove_free (m : Move) (s : State) : (State.setMove m s).free = s.free := rfl
@[simp] theorem State.setMove_nextId (m : Move) (s : State) : (State.setMove m s).nextId = s.nextId := rfl
@[simp] theorem State.setMove_agenda (m : Move) (s : State) : (State.setMove m s).agenda = s.agenda := rfl
@[simp] theorem State.setMove_sched (m : Move) (s : State) : (State.setMove m s).sched = s.sched := rfl
@[simp] theorem State.setMove_turn (m : Move) (s : State) : (State.setMove m s).turn = s.turn := rfl
@[simp] theorem State.setMove_cursor (m : Move) (s : State) : (State.setMove m s).cursor = s.cursor := rfl
@[simp] theorem State.setMove_issue (m : Move) (s : State) : (State.setMove m s).issue = s.issue := rfl
@[simp] theorem State.setMove_threads (m : Move) (s : State) : (State.setMove m s).threads = s.threads := rfl
@[simp] theorem State.setMove_warps (m : Move) (s : State) : (State.setMove m s).warps = s.warps := rfl
@[simp] theorem State.setMove_cores (m : Move) (s : State) : (State.setMove m s).cores = s.cores := rfl
@[simp] theorem State.setMove_blocks (m : Move) (s : State) : (State.setMove m s).blocks = s.blocks := rfl
@[simp] theorem State.setMove_gangs (m : Move) (s : State) : (State.setMove m s).gangs = s.gangs := rfl
@[simp] theorem State.setMove_hhs (m : Move) (s : State) : (State.setMove m s).hhs = s.hhs := rfl
@[simp] theorem State.setMove_tasks (m : Move) (s : State) : (State.setMove m s).tasks = s.tasks := rfl
@[simp] theorem State.setMove_ops (m : Move) (s : State) : (State.setMove m s).ops = s.ops := rfl
@[simp] theorem State.setMove_accs (m : Move) (s : State) : (State.setMove m s).accs = s.accs := rfl
@[simp] theorem State.setMove_engs (m : Move) (s : State) : (State.setMove m s).engs = s.engs := rfl
@[simp] theorem State.setMove_sends (m : Move) (s : State) : (State.setMove m s).sends = s.sends := rfl
@[simp] theorem State.setMove_arrivals (m : Move) (s : State) : (State.setMove m s).arrivals = s.arrivals := rfl
@[simp] theorem State.setMove_paths (m : Move) (s : State) : (State.setMove m s).paths = s.paths := rfl
@[simp] theorem State.setMove_messages (m : Move) (s : State) : (State.setMove m s).messages = s.messages := rfl
@[simp] theorem State.setMove_mem (m : Move) (s : State) : (State.setMove m s).mem = s.mem := rfl
@[simp] theorem State.setMove_poison (m : Move) (s : State) : (State.setMove m s).poison = s.poison := rfl
@[simp] theorem State.setMove_past (m : Move) (s : State) : (State.setMove m s).past = s.past := rfl
@[simp] theorem State.setMove_tabs (m : Move) (s : State) : (State.setMove m s).tabs = s.tabs := rfl
@[simp] theorem State.setMove_tx (m : Move) (s : State) : (State.setMove m s).tx = s.tx := rfl
@[simp] theorem State.setMove_sch (m : Move) (s : State) : (State.setMove m s).sch = s.sch := rfl
@[simp] theorem State.setMove_ext (m : Move) (s : State) : (State.setMove m s).ext = s.ext := rfl
@[simp] theorem State.setMove_boot (m : Move) (s : State) : (State.setMove m s).boot = s.boot := rfl
@[simp] theorem State.count_clock (kind unit bin : Nat) (s : State) : (State.count kind unit bin s).clock = s.clock := rfl
@[simp] theorem State.count_device (kind unit bin : Nat) (s : State) : (State.count kind unit bin s).device = s.device := rfl
@[simp] theorem State.count_free (kind unit bin : Nat) (s : State) : (State.count kind unit bin s).free = s.free := rfl
@[simp] theorem State.count_nextId (kind unit bin : Nat) (s : State) : (State.count kind unit bin s).nextId = s.nextId := rfl
@[simp] theorem State.count_agenda (kind unit bin : Nat) (s : State) : (State.count kind unit bin s).agenda = s.agenda := rfl
@[simp] theorem State.count_sched (kind unit bin : Nat) (s : State) : (State.count kind unit bin s).sched = s.sched := rfl
@[simp] theorem State.count_turn (kind unit bin : Nat) (s : State) : (State.count kind unit bin s).turn = s.turn := rfl
@[simp] theorem State.count_cursor (kind unit bin : Nat) (s : State) : (State.count kind unit bin s).cursor = s.cursor := rfl
@[simp] theorem State.count_issue (kind unit bin : Nat) (s : State) : (State.count kind unit bin s).issue = s.issue := rfl
@[simp] theorem State.count_threads (kind unit bin : Nat) (s : State) : (State.count kind unit bin s).threads = s.threads := rfl
@[simp] theorem State.count_warps (kind unit bin : Nat) (s : State) : (State.count kind unit bin s).warps = s.warps := rfl
@[simp] theorem State.count_cores (kind unit bin : Nat) (s : State) : (State.count kind unit bin s).cores = s.cores := rfl
@[simp] theorem State.count_blocks (kind unit bin : Nat) (s : State) : (State.count kind unit bin s).blocks = s.blocks := rfl
@[simp] theorem State.count_gangs (kind unit bin : Nat) (s : State) : (State.count kind unit bin s).gangs = s.gangs := rfl
@[simp] theorem State.count_hhs (kind unit bin : Nat) (s : State) : (State.count kind unit bin s).hhs = s.hhs := rfl
@[simp] theorem State.count_tasks (kind unit bin : Nat) (s : State) : (State.count kind unit bin s).tasks = s.tasks := rfl
@[simp] theorem State.count_ops (kind unit bin : Nat) (s : State) : (State.count kind unit bin s).ops = s.ops := rfl
@[simp] theorem State.count_accs (kind unit bin : Nat) (s : State) : (State.count kind unit bin s).accs = s.accs := rfl
@[simp] theorem State.count_engs (kind unit bin : Nat) (s : State) : (State.count kind unit bin s).engs = s.engs := rfl
@[simp] theorem State.count_sends (kind unit bin : Nat) (s : State) : (State.count kind unit bin s).sends = s.sends := rfl
@[simp] theorem State.count_arrivals (kind unit bin : Nat) (s : State) : (State.count kind unit bin s).arrivals = s.arrivals := rfl
@[simp] theorem State.count_paths (kind unit bin : Nat) (s : State) : (State.count kind unit bin s).paths = s.paths := rfl
@[simp] theorem State.count_messages (kind unit bin : Nat) (s : State) : (State.count kind unit bin s).messages = s.messages := rfl
@[simp] theorem State.count_mem (kind unit bin : Nat) (s : State) : (State.count kind unit bin s).mem = s.mem := rfl
@[simp] theorem State.count_poison (kind unit bin : Nat) (s : State) : (State.count kind unit bin s).poison = s.poison := rfl
@[simp] theorem State.count_past (kind unit bin : Nat) (s : State) : (State.count kind unit bin s).past = s.past := rfl
@[simp] theorem State.count_tabs (kind unit bin : Nat) (s : State) : (State.count kind unit bin s).tabs = s.tabs := rfl
@[simp] theorem State.count_tx (kind unit bin : Nat) (s : State) : (State.count kind unit bin s).tx = s.tx := rfl
@[simp] theorem State.count_sch (kind unit bin : Nat) (s : State) : (State.count kind unit bin s).sch = s.sch := rfl
@[simp] theorem State.count_fab (kind unit bin : Nat) (s : State) : (State.count kind unit bin s).fab = s.fab := rfl
@[simp] theorem State.count_ext (kind unit bin : Nat) (s : State) : (State.count kind unit bin s).ext = s.ext := rfl
@[simp] theorem retire_clock (r : TRef) (f : Fields) (s : State) : (retire r f s).clock = s.clock := rfl
@[simp] theorem retire_device (r : TRef) (f : Fields) (s : State) : (retire r f s).device = s.device := rfl
@[simp] theorem retire_free (r : TRef) (f : Fields) (s : State) : (retire r f s).free = s.free := rfl
@[simp] theorem retire_nextId (r : TRef) (f : Fields) (s : State) : (retire r f s).nextId = s.nextId := rfl
@[simp] theorem retire_agenda (r : TRef) (f : Fields) (s : State) : (retire r f s).agenda = s.agenda := rfl
@[simp] theorem retire_sched (r : TRef) (f : Fields) (s : State) : (retire r f s).sched = s.sched := rfl
@[simp] theorem retire_turn (r : TRef) (f : Fields) (s : State) : (retire r f s).turn = s.turn := rfl
@[simp] theorem retire_cursor (r : TRef) (f : Fields) (s : State) : (retire r f s).cursor = s.cursor := rfl
@[simp] theorem retire_warps (r : TRef) (f : Fields) (s : State) : (retire r f s).warps = s.warps := rfl
@[simp] theorem retire_cores (r : TRef) (f : Fields) (s : State) : (retire r f s).cores = s.cores := rfl
@[simp] theorem retire_blocks (r : TRef) (f : Fields) (s : State) : (retire r f s).blocks = s.blocks := rfl
@[simp] theorem retire_gangs (r : TRef) (f : Fields) (s : State) : (retire r f s).gangs = s.gangs := rfl
@[simp] theorem retire_hhs (r : TRef) (f : Fields) (s : State) : (retire r f s).hhs = s.hhs := rfl
@[simp] theorem retire_tasks (r : TRef) (f : Fields) (s : State) : (retire r f s).tasks = s.tasks := rfl
@[simp] theorem retire_ops (r : TRef) (f : Fields) (s : State) : (retire r f s).ops = s.ops := rfl
@[simp] theorem retire_accs (r : TRef) (f : Fields) (s : State) : (retire r f s).accs = s.accs := rfl
@[simp] theorem retire_engs (r : TRef) (f : Fields) (s : State) : (retire r f s).engs = s.engs := rfl
@[simp] theorem retire_sends (r : TRef) (f : Fields) (s : State) : (retire r f s).sends = s.sends := rfl
@[simp] theorem retire_arrivals (r : TRef) (f : Fields) (s : State) : (retire r f s).arrivals = s.arrivals := rfl
@[simp] theorem retire_paths (r : TRef) (f : Fields) (s : State) : (retire r f s).paths = s.paths := rfl
@[simp] theorem retire_messages (r : TRef) (f : Fields) (s : State) : (retire r f s).messages = s.messages := rfl
@[simp] theorem retire_mem (r : TRef) (f : Fields) (s : State) : (retire r f s).mem = s.mem := rfl
@[simp] theorem retire_poison (r : TRef) (f : Fields) (s : State) : (retire r f s).poison = s.poison := rfl
@[simp] theorem retire_past (r : TRef) (f : Fields) (s : State) : (retire r f s).past = s.past := rfl
@[simp] theorem retire_tabs (r : TRef) (f : Fields) (s : State) : (retire r f s).tabs = s.tabs := rfl
@[simp] theorem retire_tx (r : TRef) (f : Fields) (s : State) : (retire r f s).tx = s.tx := rfl
@[simp] theorem retire_sch (r : TRef) (f : Fields) (s : State) : (retire r f s).sch = s.sch := rfl
@[simp] theorem retire_fab (r : TRef) (f : Fields) (s : State) : (retire r f s).fab = s.fab := rfl
@[simp] theorem retire_ext (r : TRef) (f : Fields) (s : State) : (retire r f s).ext = s.ext := rfl
@[simp] theorem retire_boot (r : TRef) (f : Fields) (s : State) : (retire r f s).boot = s.boot := rfl
@[simp] theorem transfer_clock (r : TRef) (f : Fields) (pc : DWord) (s : State) : (transfer r f pc s).clock = s.clock := rfl
@[simp] theorem transfer_device (r : TRef) (f : Fields) (pc : DWord) (s : State) : (transfer r f pc s).device = s.device := rfl
@[simp] theorem transfer_free (r : TRef) (f : Fields) (pc : DWord) (s : State) : (transfer r f pc s).free = s.free := rfl
@[simp] theorem transfer_nextId (r : TRef) (f : Fields) (pc : DWord) (s : State) : (transfer r f pc s).nextId = s.nextId := rfl
@[simp] theorem transfer_agenda (r : TRef) (f : Fields) (pc : DWord) (s : State) : (transfer r f pc s).agenda = s.agenda := rfl
@[simp] theorem transfer_sched (r : TRef) (f : Fields) (pc : DWord) (s : State) : (transfer r f pc s).sched = s.sched := rfl
@[simp] theorem transfer_turn (r : TRef) (f : Fields) (pc : DWord) (s : State) : (transfer r f pc s).turn = s.turn := rfl
@[simp] theorem transfer_cursor (r : TRef) (f : Fields) (pc : DWord) (s : State) : (transfer r f pc s).cursor = s.cursor := rfl
@[simp] theorem transfer_issue (r : TRef) (f : Fields) (pc : DWord) (s : State) : (transfer r f pc s).issue = s.issue := rfl
@[simp] theorem transfer_warps (r : TRef) (f : Fields) (pc : DWord) (s : State) : (transfer r f pc s).warps = s.warps := rfl
@[simp] theorem transfer_cores (r : TRef) (f : Fields) (pc : DWord) (s : State) : (transfer r f pc s).cores = s.cores := rfl
@[simp] theorem transfer_blocks (r : TRef) (f : Fields) (pc : DWord) (s : State) : (transfer r f pc s).blocks = s.blocks := rfl
@[simp] theorem transfer_gangs (r : TRef) (f : Fields) (pc : DWord) (s : State) : (transfer r f pc s).gangs = s.gangs := rfl
@[simp] theorem transfer_hhs (r : TRef) (f : Fields) (pc : DWord) (s : State) : (transfer r f pc s).hhs = s.hhs := rfl
@[simp] theorem transfer_tasks (r : TRef) (f : Fields) (pc : DWord) (s : State) : (transfer r f pc s).tasks = s.tasks := rfl
@[simp] theorem transfer_ops (r : TRef) (f : Fields) (pc : DWord) (s : State) : (transfer r f pc s).ops = s.ops := rfl
@[simp] theorem transfer_accs (r : TRef) (f : Fields) (pc : DWord) (s : State) : (transfer r f pc s).accs = s.accs := rfl
@[simp] theorem transfer_engs (r : TRef) (f : Fields) (pc : DWord) (s : State) : (transfer r f pc s).engs = s.engs := rfl
@[simp] theorem transfer_sends (r : TRef) (f : Fields) (pc : DWord) (s : State) : (transfer r f pc s).sends = s.sends := rfl
@[simp] theorem transfer_arrivals (r : TRef) (f : Fields) (pc : DWord) (s : State) : (transfer r f pc s).arrivals = s.arrivals := rfl
@[simp] theorem transfer_paths (r : TRef) (f : Fields) (pc : DWord) (s : State) : (transfer r f pc s).paths = s.paths := rfl
@[simp] theorem transfer_messages (r : TRef) (f : Fields) (pc : DWord) (s : State) : (transfer r f pc s).messages = s.messages := rfl
@[simp] theorem transfer_mem (r : TRef) (f : Fields) (pc : DWord) (s : State) : (transfer r f pc s).mem = s.mem := rfl
@[simp] theorem transfer_poison (r : TRef) (f : Fields) (pc : DWord) (s : State) : (transfer r f pc s).poison = s.poison := rfl
@[simp] theorem transfer_past (r : TRef) (f : Fields) (pc : DWord) (s : State) : (transfer r f pc s).past = s.past := rfl
@[simp] theorem transfer_tabs (r : TRef) (f : Fields) (pc : DWord) (s : State) : (transfer r f pc s).tabs = s.tabs := rfl
@[simp] theorem transfer_tx (r : TRef) (f : Fields) (pc : DWord) (s : State) : (transfer r f pc s).tx = s.tx := rfl
@[simp] theorem transfer_sch (r : TRef) (f : Fields) (pc : DWord) (s : State) : (transfer r f pc s).sch = s.sch := rfl
@[simp] theorem transfer_fab (r : TRef) (f : Fields) (pc : DWord) (s : State) : (transfer r f pc s).fab = s.fab := rfl
@[simp] theorem transfer_ext (r : TRef) (f : Fields) (pc : DWord) (s : State) : (transfer r f pc s).ext = s.ext := rfl
@[simp] theorem transfer_boot (r : TRef) (f : Fields) (pc : DWord) (s : State) : (transfer r f pc s).boot = s.boot := rfl
@[simp] theorem parked_clock (r : TRef) (f : Fields) (s : State) : (parked r f s).clock = s.clock := rfl
@[simp] theorem parked_device (r : TRef) (f : Fields) (s : State) : (parked r f s).device = s.device := rfl
@[simp] theorem parked_free (r : TRef) (f : Fields) (s : State) : (parked r f s).free = s.free := rfl
@[simp] theorem parked_nextId (r : TRef) (f : Fields) (s : State) : (parked r f s).nextId = s.nextId := rfl
@[simp] theorem parked_agenda (r : TRef) (f : Fields) (s : State) : (parked r f s).agenda = s.agenda := rfl
@[simp] theorem parked_sched (r : TRef) (f : Fields) (s : State) : (parked r f s).sched = s.sched := rfl
@[simp] theorem parked_turn (r : TRef) (f : Fields) (s : State) : (parked r f s).turn = s.turn := rfl
@[simp] theorem parked_cursor (r : TRef) (f : Fields) (s : State) : (parked r f s).cursor = s.cursor := rfl
@[simp] theorem parked_issue (r : TRef) (f : Fields) (s : State) : (parked r f s).issue = s.issue := rfl
@[simp] theorem parked_warps (r : TRef) (f : Fields) (s : State) : (parked r f s).warps = s.warps := rfl
@[simp] theorem parked_cores (r : TRef) (f : Fields) (s : State) : (parked r f s).cores = s.cores := rfl
@[simp] theorem parked_blocks (r : TRef) (f : Fields) (s : State) : (parked r f s).blocks = s.blocks := rfl
@[simp] theorem parked_gangs (r : TRef) (f : Fields) (s : State) : (parked r f s).gangs = s.gangs := rfl
@[simp] theorem parked_hhs (r : TRef) (f : Fields) (s : State) : (parked r f s).hhs = s.hhs := rfl
@[simp] theorem parked_tasks (r : TRef) (f : Fields) (s : State) : (parked r f s).tasks = s.tasks := rfl
@[simp] theorem parked_ops (r : TRef) (f : Fields) (s : State) : (parked r f s).ops = s.ops := rfl
@[simp] theorem parked_accs (r : TRef) (f : Fields) (s : State) : (parked r f s).accs = s.accs := rfl
@[simp] theorem parked_engs (r : TRef) (f : Fields) (s : State) : (parked r f s).engs = s.engs := rfl
@[simp] theorem parked_sends (r : TRef) (f : Fields) (s : State) : (parked r f s).sends = s.sends := rfl
@[simp] theorem parked_arrivals (r : TRef) (f : Fields) (s : State) : (parked r f s).arrivals = s.arrivals := rfl
@[simp] theorem parked_paths (r : TRef) (f : Fields) (s : State) : (parked r f s).paths = s.paths := rfl
@[simp] theorem parked_messages (r : TRef) (f : Fields) (s : State) : (parked r f s).messages = s.messages := rfl
@[simp] theorem parked_mem (r : TRef) (f : Fields) (s : State) : (parked r f s).mem = s.mem := rfl
@[simp] theorem parked_poison (r : TRef) (f : Fields) (s : State) : (parked r f s).poison = s.poison := rfl
@[simp] theorem parked_past (r : TRef) (f : Fields) (s : State) : (parked r f s).past = s.past := rfl
@[simp] theorem parked_tabs (r : TRef) (f : Fields) (s : State) : (parked r f s).tabs = s.tabs := rfl
@[simp] theorem parked_tx (r : TRef) (f : Fields) (s : State) : (parked r f s).tx = s.tx := rfl
@[simp] theorem parked_sch (r : TRef) (f : Fields) (s : State) : (parked r f s).sch = s.sch := rfl
@[simp] theorem parked_fab (r : TRef) (f : Fields) (s : State) : (parked r f s).fab = s.fab := rfl
@[simp] theorem parked_ext (r : TRef) (f : Fields) (s : State) : (parked r f s).ext = s.ext := rfl
@[simp] theorem parked_boot (r : TRef) (f : Fields) (s : State) : (parked r f s).boot = s.boot := rfl

/-! An event entered in the agenda (log 2, DESIGN CHOICE) changes the agenda and its schedule alone. -/
@[simp] theorem State.post_clock (e : Instr) (s : State) : (s.post e).clock = s.clock := by unfold State.post; split <;> rfl
@[simp] theorem State.post_device (e : Instr) (s : State) : (s.post e).device = s.device := by unfold State.post; split <;> rfl
@[simp] theorem State.post_free (e : Instr) (s : State) : (s.post e).free = s.free := by unfold State.post; split <;> rfl
@[simp] theorem State.post_nextId (e : Instr) (s : State) : (s.post e).nextId = s.nextId := by unfold State.post; split <;> rfl
@[simp] theorem State.post_turn (e : Instr) (s : State) : (s.post e).turn = s.turn := by unfold State.post; split <;> rfl
@[simp] theorem State.post_cursor (e : Instr) (s : State) : (s.post e).cursor = s.cursor := by unfold State.post; split <;> rfl
@[simp] theorem State.post_issue (e : Instr) (s : State) : (s.post e).issue = s.issue := by unfold State.post; split <;> rfl
@[simp] theorem State.post_threads (e : Instr) (s : State) : (s.post e).threads = s.threads := by unfold State.post; split <;> rfl
@[simp] theorem State.post_warps (e : Instr) (s : State) : (s.post e).warps = s.warps := by unfold State.post; split <;> rfl
@[simp] theorem State.post_cores (e : Instr) (s : State) : (s.post e).cores = s.cores := by unfold State.post; split <;> rfl
@[simp] theorem State.post_blocks (e : Instr) (s : State) : (s.post e).blocks = s.blocks := by unfold State.post; split <;> rfl
@[simp] theorem State.post_gangs (e : Instr) (s : State) : (s.post e).gangs = s.gangs := by unfold State.post; split <;> rfl
@[simp] theorem State.post_hhs (e : Instr) (s : State) : (s.post e).hhs = s.hhs := by unfold State.post; split <;> rfl
@[simp] theorem State.post_tasks (e : Instr) (s : State) : (s.post e).tasks = s.tasks := by unfold State.post; split <;> rfl
@[simp] theorem State.post_ops (e : Instr) (s : State) : (s.post e).ops = s.ops := by unfold State.post; split <;> rfl
@[simp] theorem State.post_accs (e : Instr) (s : State) : (s.post e).accs = s.accs := by unfold State.post; split <;> rfl
@[simp] theorem State.post_engs (e : Instr) (s : State) : (s.post e).engs = s.engs := by unfold State.post; split <;> rfl
@[simp] theorem State.post_sends (e : Instr) (s : State) : (s.post e).sends = s.sends := by unfold State.post; split <;> rfl
@[simp] theorem State.post_arrivals (e : Instr) (s : State) : (s.post e).arrivals = s.arrivals := by unfold State.post; split <;> rfl
@[simp] theorem State.post_paths (e : Instr) (s : State) : (s.post e).paths = s.paths := by unfold State.post; split <;> rfl
@[simp] theorem State.post_messages (e : Instr) (s : State) : (s.post e).messages = s.messages := by unfold State.post; split <;> rfl
@[simp] theorem State.post_mem (e : Instr) (s : State) : (s.post e).mem = s.mem := by unfold State.post; split <;> rfl
@[simp] theorem State.post_poison (e : Instr) (s : State) : (s.post e).poison = s.poison := by unfold State.post; split <;> rfl
@[simp] theorem State.post_tabs (e : Instr) (s : State) : (s.post e).tabs = s.tabs := by unfold State.post; split <;> rfl
@[simp] theorem State.post_tx (e : Instr) (s : State) : (s.post e).tx = s.tx := by unfold State.post; split <;> rfl
@[simp] theorem State.post_sch (e : Instr) (s : State) : (s.post e).sch = s.sch := by unfold State.post; split <;> rfl
@[simp] theorem State.post_fab (e : Instr) (s : State) : (s.post e).fab = s.fab := by unfold State.post; split <;> rfl
@[simp] theorem State.post_ext (e : Instr) (s : State) : (s.post e).ext = s.ext := by unfold State.post; split <;> rfl
@[simp] theorem State.post_boot (e : Instr) (s : State) : (s.post e).boot = s.boot := by unfold State.post; split <;> rfl

/-! ## The record changed -/

theorem find?_map_sel {α : Type} (p : α → Bool) (f : α → α) (hp : ∀ x, p (f x) = p x) (l : List α) :
    (l.map (fun x => if p x then f x else x)).find? p = (l.find? p).map f := by
  induction l with
  | nil => rfl
  | cons x l ih =>
    rw [List.map_cons, List.find?_cons, List.find?_cons]
    by_cases h : p x = true
    · simp [h, hp]
    · simp [h, ih]

theorem find?_map_other {α : Type} (p q : α → Bool) (f : α → α) (h : ∀ x, q x = true → p x = false ∧ p (f x) = false) (l : List α) :
    (l.map (fun x => if q x then f x else x)).find? p = l.find? p := by
  induction l with
  | nil => rfl
  | cons x l ih =>
    rw [List.map_cons, List.find?_cons, List.find?_cons, ih]
    by_cases hq : q x = true
    · rw [if_pos hq, (h x hq).1, (h x hq).2]
    · rw [if_neg hq]

/-- A thread that is changed, and keeps its place, is found as changed. -/
theorem thread?_modThread {r : TRef} {f : Thread → Thread} (s : State) (hf : ∀ t : Thread, (f t).ref = t.ref) :
    (s.modThread r f).thread? r = (s.thread? r).map f := by
  have := find?_map_sel (fun t : Thread => decide (t.ref = r)) f (fun t => by rw [hf]) s.threads
  simpa [State.thread?, State.modThread] using this

/-- Another thread is what it was. -/
theorem thread?_modThread_ne {r q : TRef} {f : Thread → Thread} (s : State) (hf : ∀ t : Thread, (f t).ref = t.ref) (h : q ≠ r) :
    (s.modThread r f).thread? q = s.thread? q := by
  have := find?_map_other (fun t : Thread => decide (t.ref = q)) (fun t => decide (t.ref = r)) f
    (fun x hx => by
      have : x.ref = r := by simpa using hx
      rw [hf, this]; simp [Ne.symm h]) s.threads
  simpa [State.thread?, State.modThread] using this

theorem warp?_modWarp {c v : Nat} {f : Warp → Warp} (s : State) (hf : ∀ w, Warp.at c v (f w) = Warp.at c v w) :
    (s.modWarp c v f).warp? c v = (s.warp? c v).map f := find?_map_sel _ _ hf _

theorem find?_upsert {α : Type} (p : α → Bool) (x : α) (l : List α) (hx : p x = true) : (upsert p x l).find? p = some x := by
  induction l with
  | nil => simp [upsert, hx]
  | cons y l ih =>
    rw [upsert]
    cases hy : p y
    · simp [hy, ih]
    · simp [hx]

theorem find?_upsert_ne {α : Type} (p q : α → Bool) (x : α) (l : List α) (hx : q x = false) (h : ∀ y, p y = true → q y = false) :
    (upsert p x l).find? q = l.find? q := by
  induction l with
  | nil => simp [upsert, hx]
  | cons y l ih =>
    rw [upsert]
    cases hy : p y
    · simp [List.find?_cons, ih]
    · simp [List.find?_cons, hx, h y hy]

/-- A core that is changed reads as changed, and another as it was. -/
theorem core_modCore (c : Nat) (f : Core → Core) (s : State) : (s.modCore c f).core c = { f (s.core c) with id := c } := by
  unfold State.modCore State.setCore State.core
  dsimp only
  rw [find?_upsert _ _ _ (by simp)]
  rfl

theorem core_modCore_ne {c d : Nat} (h : d ≠ c) (f : Core → Core) (s : State) : (s.modCore c f).core d = s.core d := by
  unfold State.modCore State.setCore State.core
  dsimp only
  rw [find?_upsert_ne _ _ _ _ (by simpa using Ne.symm h)]
  intro y hy
  have : y.id = c := by simpa using hy
  simpa [this] using Ne.symm h

end Sys2Proof.Laws
end

