-- ==== Sys2Proof/Laws/Unchanged.lean ====
section
/-! SUPPORT. Operations that leave memory as it was: one lemma each. -/

namespace Sys2Proof.Laws

open Sys2Proof.Machine

theorem foldl_mem {α : Type} (f : State → α → State) (h : ∀ s x, (f s x).mem = s.mem) (l : List α) (s : State) :
    (l.foldl f s).mem = s.mem := by
  induction l generalizing s with
  | nil => rfl
  | cons x l ih => rw [List.foldl_cons, ih, h]

@[simp] theorem ite_mem (c : Prop) [Decidable c] (a b : State) :
    (if c then a else b).mem = if c then a.mem else b.mem := by split <;> rfl

theorem getD_mem (o : Option State) (s : State) (h : ∀ t, o = some t → t.mem = s.mem) : (o.getD s).mem = s.mem := by
  cases o with
  | none => rfl
  | some t => exact h t rfl

theorem foldl_fst_mem {α β : Type} (f : State × β → α → State × β) (h : ∀ x y, (f x y).1.mem = x.1.mem) (l : List α) (x : State × β) :
    (l.foldl f x).1.mem = x.1.mem := by
  induction l generalizing x with
  | nil => rfl
  | cons y l ih => rw [List.foldl_cons, ih, h]

@[simp] theorem Ctx.write_mem (c : Ctx) (regs : List (Nat × Word)) (preds : List (Nat × Bool)) :
    (c.write regs preds).mem = c.s.mem := rfl
@[simp] theorem Ctx.modWarp_mem (c : Ctx) (f : Warp → Warp) : (c.modWarp f).mem = c.s.mem := rfl
@[simp] theorem State.setThread_mem (th : Thread) (s : State) :
    (State.setThread th s).mem = s.mem := rfl
@[simp] theorem State.postAll_mem (es : List Instr) (s : State) :
    (State.postAll es s).mem = s.mem := by
  unfold State.postAll
  try dsimp only
  repeat' first
    | with_reducible rfl
    | (simp [State.fresh, State.choice]; done)
    | split
    | (refine (foldl_mem _ ?_ _ _).trans ?_)
    | intro _
    | (simp [State.fresh, State.choice])
@[simp] theorem State.fresh_mem (s : State) :
    (State.fresh s).2.mem = s.mem := rfl
@[simp] theorem State.choice_mem (s : State) :
    (State.choice s).2.mem = s.mem := rfl
@[simp] theorem State.logEvent_mem (e : LogEntry) (s : State) :
    (State.logEvent e s).mem = s.mem := by simp [State.logEvent, State.fresh, State.choice]
@[simp] theorem State.log_mem (kind die ctx cause addr info : Nat) (s : State) :
    (State.log kind die ctx cause addr info s).mem = s.mem := by simp [State.log, State.fresh, State.choice]
@[simp] theorem State.postOnce_mem (e : Instr) (s : State) :
    (State.postOnce e s).mem = s.mem := by simp [State.postOnce, State.fresh, State.choice]
@[simp] theorem wakeAdmission_mem (die : Nat) (s : State) :
    (wakeAdmission die s).mem = s.mem := by
  unfold wakeAdmission
  try dsimp only
  repeat' first
    | with_reducible rfl
    | (simp [State.fresh, State.choice]; done)
    | split
    | (refine (foldl_mem _ ?_ _ _).trans ?_)
    | intro _
    | (simp [State.fresh, State.choice])
@[simp] theorem State.progressOf_mem (th : Thread) (s : State) :
    (State.progressOf th s).mem = s.mem := by
  unfold State.progressOf; split <;> simp [State.fresh, State.choice]
@[simp] theorem State.track_mem (r : TRef) (x : Tracked) (s : State) :
    (State.track r x s).mem = s.mem := by simp [State.track, State.fresh, State.choice]
@[simp] theorem State.mapKeys_mem (f : KeyState → KeyState) (s : State) :
    (State.mapKeys f s).mem = s.mem := rfl
@[simp] theorem State.dropProducer_mem (id : Nat) (s : State) :
    (State.dropProducer id s).mem = s.mem := rfl
@[simp] theorem State.performAt_mem (id scope : Nat) (s : State) :
    (State.performAt id scope s).mem = s.mem := by simp [State.performAt, State.fresh, State.choice]
@[simp] theorem State.failOp_mem (id : Nat) (c : Cause) (rcd : DWord) (s : State) :
    (State.failOp id c rcd s).mem = s.mem := rfl
@[simp] theorem Thread.dropOwn_mem (th : Thread) (s : State) :
    (Thread.dropOwn th s).mem = s.mem := by
  unfold Thread.dropOwn; split <;> simp [State.fresh, State.choice]
@[simp] theorem progressWarp_mem (core slot : Nat) (s : State) :
    (progressWarp core slot s).mem = s.mem := by
  unfold progressWarp; split <;> simp [State.fresh, State.choice]
@[simp] theorem settleRejoin_mem (core slot : Nat) (s : State) :
    (settleRejoin core slot s).mem = s.mem := by simp [settleRejoin, State.fresh, State.choice]
@[simp] theorem completeColl_mem (core slot : Nat) (c : Collective) (s : State) :
    (completeColl core slot c s).mem = s.mem := by
  unfold completeColl
  try dsimp only
  repeat' first
    | with_reducible rfl
    | (simp [State.fresh, State.choice]; done)
    | split
    | (refine (foldl_mem _ ?_ _ _).trans ?_)
    | intro _
    | (simp [State.fresh, State.choice])
@[simp] theorem settleColls_mem (core slot : Nat) (s : State) :
    (settleColls core slot s).mem = s.mem := by
  unfold settleColls
  try dsimp only
  repeat' first
    | with_reducible rfl
    | (simp [State.fresh, State.choice]; done)
    | split
    | (refine (foldl_mem _ ?_ _ _).trans ?_)
    | intro _
    | (simp [State.fresh, State.choice])
@[simp] theorem settleWarp_mem (core slot : Nat) (s : State) :
    (settleWarp core slot s).mem = s.mem := by simp [settleWarp, State.fresh, State.choice]
@[simp] theorem settleWarps_mem (s : State) :
    (settleWarps s).mem = s.mem := by
  unfold settleWarps
  try dsimp only
  repeat' first
    | with_reducible rfl
    | (simp [State.fresh, State.choice]; done)
    | split
    | (refine (foldl_mem _ ?_ _ _).trans ?_)
    | intro _
    | (simp [State.fresh, State.choice])
@[simp] theorem startDetach_mem (g : Nat) (s : State) :
    (startDetach g s).mem = s.mem := by
  unfold startDetach; split <;> simp [State.fresh, State.choice]
@[simp] theorem postHeldEnds_mem (h : Nat) (s : State) :
    (postHeldEnds h s).mem = s.mem := by
  unfold postHeldEnds; split <;> simp [State.fresh, State.choice]
@[simp] theorem gangEmptied_mem (g : Nat) (s : State) :
    (gangEmptied g s).mem = s.mem := by
  unfold gangEmptied; dsimp only; repeat' first | (simp [State.fresh, State.choice]; done) | split
@[simp] theorem checkBarrier_mem (level own id : Nat) (s : State) :
    (checkBarrier level own id s).mem = s.mem := by
  unfold checkBarrier
  try dsimp only
  repeat' first
    | with_reducible rfl
    | (simp [State.fresh, State.choice]; done)
    | split
    | (refine (foldl_mem _ ?_ _ _).trans ?_)
    | intro _
    | (simp [State.fresh, State.choice])
@[simp] theorem checkBarriersOf_mem (th : Thread) (s : State) :
    (checkBarriersOf th s).mem = s.mem := by
  unfold checkBarriersOf
  try dsimp only
  repeat' first
    | with_reducible rfl
    | (simp [State.fresh, State.choice]; done)
    | split
    | (refine (foldl_mem _ ?_ _ _).trans ?_)
    | intro _
    | (simp [State.fresh, State.choice])
@[simp] theorem dropWarp_mem (core slot : Nat) (s : State) :
    (dropWarp core slot s).mem = s.mem := by simp [dropWarp, State.fresh, State.choice]
@[simp] theorem exitThread_mem (r : TRef) (s : State) :
    (exitThread r s).mem = s.mem := by
  unfold exitThread; dsimp only; repeat' first | (simp [State.fresh, State.choice]; done) | split
@[simp] theorem endUnstarted_mem (g : Nat) (s : State) :
    (endUnstarted g s).mem = s.mem := by simp [endUnstarted, State.fresh, State.choice]
@[simp] theorem withdraw_mem (y : Item) (s : State) :
    (withdraw y s).mem = s.mem := rfl
@[simp] theorem dropSaved_mem (g : Nat) (s : State) :
    (dropSaved g s).mem = s.mem := by
  unfold dropSaved; split <;> simp [State.fresh, State.choice]
@[simp] theorem endGang_mem (g : Nat) (s : State) :
    (endGang g s).mem = s.mem := by
  unfold endGang
  try dsimp only
  repeat' first
    | with_reducible rfl
    | (simp [State.fresh, State.choice]; done)
    | split
    | (refine (foldl_mem _ ?_ _ _).trans ?_)
    | intro _
    | (simp [State.fresh, State.choice])
@[simp] theorem stopChecked_mem (c : Nat) (s : State) :
    (stopChecked c s).mem = s.mem := by
  unfold stopChecked
  try dsimp only
  repeat' first
    | with_reducible rfl
    | (simp [State.fresh, State.choice]; done)
    | split
    | (refine (foldl_mem _ ?_ _ _).trans ?_)
    | intro _
    | (simp [State.fresh, State.choice])
@[simp] theorem machineCheck_mem (c : Nat) (s : State) :
    (machineCheck c s).mem = s.mem := by simp [machineCheck, State.fresh, State.choice]
@[simp] theorem raiseTrap_mem (r : TRef) (i : TrapInfo) (s : State) :
    (raiseTrap r i s).mem = s.mem := by
  unfold raiseTrap; dsimp only; repeat' first | (simp [State.fresh, State.choice]; done) | split
@[simp] theorem resumeCore_mem (c : Nat) (s : State) :
    (resumeCore c s).mem = s.mem := rfl
@[simp] theorem releaseObWaiters_mem (loc : Nat) (ph : Bool) (s : State) :
    (releaseObWaiters loc ph s).mem = s.mem := by
  unfold releaseObWaiters
  try dsimp only
  repeat' first
    | with_reducible rfl
    | (simp [State.fresh, State.choice]; done)
    | split
    | (refine (foldl_mem _ ?_ _ _).trans ?_)
    | intro _
    | (simp [State.fresh, State.choice])
@[simp] theorem arriveBarrier_mem (th : Thread) (level id : Nat) (s : State) :
    (arriveBarrier th level id s).mem = s.mem := by simp [arriveBarrier, State.fresh, State.choice]
@[simp] theorem settleThread_mem (r : TRef) (s : State) :
    (settleThread r s).mem = s.mem := by
  unfold settleThread; dsimp only; repeat' first | (simp [State.fresh, State.choice]; done) | split
@[simp] theorem settle_mem (s : State) :
    (settle s).mem = s.mem := by
  unfold settle
  try dsimp only
  repeat' first
    | with_reducible rfl
    | (simp [State.fresh, State.choice]; done)
    | split
    | (refine (foldl_mem _ ?_ _ _).trans ?_)
    | intro _
    | (simp [State.fresh, State.choice])
@[simp] theorem notReady_mem (r : TRef) (s : State) :
    (notReady r s).mem = s.mem := rfl
@[simp] theorem Ctx.tracked_mem (c : Ctx) (s : State) (due : Nat) (regs : List (Nat × Word)) (preds : List (Nat × Bool)) :
    (Ctx.tracked c s due regs preds).mem = s.mem := by simp [Ctx.tracked, State.fresh, State.choice]
@[simp] theorem setFmterr_mem (core : Nat) (on : Bool) (s : State) :
    (setFmterr core on s).mem = s.mem := by simp [setFmterr, State.fresh, State.choice]
@[simp] theorem recount_mem (ctx page : Nat) (s : State) :
    (recount ctx page s).mem = s.mem := rfl
@[simp] theorem enterFilter_mem (core ctx page : Nat) (want : Ask) (s : State) :
    (enterFilter core ctx page want s).mem = s.mem := by
  unfold enterFilter; dsimp only; repeat' first | (simp [State.fresh, State.choice]; done) | split
@[simp] theorem pageWait_mem (r : TRef) (ctx page : Nat) (want : Ask) (s : State) :
    (pageWait r ctx page want s).mem = s.mem := by simp [pageWait, State.fresh, State.choice]
@[simp] theorem requestTranslation_mem (ctx page : Nat) (s : State) :
    (requestTranslation ctx page s).mem = s.mem := by
  unfold requestTranslation; split <;> simp [State.fresh, State.choice]
@[simp] theorem forgetAnswer_mem (ctx page : Nat) (s : State) :
    (forgetAnswer ctx page s).mem = s.mem := rfl
@[simp] theorem countMigration_mem (ctx page : Nat) (p : Placed) (s : State) :
    (countMigration ctx page p s).mem = s.mem := by simp [countMigration, State.fresh, State.choice]
@[simp] theorem State.cleanLine_mem (line : Nat) (s : State) :
    (State.cleanLine line s).mem = s.mem := rfl
@[simp] theorem State.answerLine_mem (line : Nat) (bs : List Byte) (bad : Bool) (s : State) :
    (State.answerLine line bs bad s).mem = s.mem := rfl
@[simp] theorem writeBackHost_mem (p : Nat → Bool) (s : State) :
    (writeBackHost p s).mem = s.mem := by
  unfold writeBackHost
  try dsimp only
  repeat' first
    | with_reducible rfl
    | (simp [State.fresh, State.choice]; done)
    | split
    | (refine (foldl_mem _ ?_ _ _).trans ?_)
    | intro _
    | (simp [State.fresh, State.choice])
@[simp] theorem writeBackPool_mem (p : Nat → Bool) (s : State) :
    (writeBackPool p s).mem = s.mem := by
  unfold writeBackPool
  try dsimp only
  repeat' first
    | with_reducible rfl
    | (simp [State.fresh, State.choice]; done)
    | split
    | (refine (foldl_mem _ ?_ _ _).trans ?_)
    | intro _
    | (simp [State.fresh, State.choice])
@[simp] theorem releaseHost_mem (p : Nat → Bool) (s : State) :
    (releaseHost p s).mem = s.mem := by simp [releaseHost, State.fresh, State.choice]
@[simp] theorem askBridge_mem (line ctx : Nat) (s : State) :
    (askBridge line ctx s).mem = s.mem := by simp [askBridge, State.fresh, State.choice]
@[simp] theorem releasePool_mem (p : Nat → Bool) (s : State) :
    (releasePool p s).mem = s.mem := rfl
@[simp] theorem State.dropMsgs_mem (p : TokenMsg → Bool) (s : State) :
    (State.dropMsgs p s).mem = s.mem := rfl
@[simp] theorem wakeLinks_mem (ls : List Nat) (s : State) :
    (wakeLinks ls s).mem = s.mem := by
  unfold wakeLinks
  try dsimp only
  repeat' first
    | with_reducible rfl
    | (simp [State.fresh, State.choice]; done)
    | split
    | (refine (foldl_mem _ ?_ _ _).trans ?_)
    | intro _
    | (simp [State.fresh, State.choice])
theorem linkHeld_mem {src dst key : Nat} {s t : State} (h : linkHeld src dst key s = some t) : t.mem = s.mem := by
  unfold linkHeld at h
  dsimp only at h
  repeat' split at h
  all_goals first | cases h | skip
  all_goals first | rfl | simp
theorem pathHeld_mem {dev key : Nat} {s t : State} (h : pathHeld dev key s = some t) : t.mem = s.mem := by
  unfold pathHeld at h
  repeat' split at h
  all_goals first | cases h | skip
  all_goals first | rfl | simp
@[simp] theorem State.flitPassed_mem (i : Nat) (s : State) :
    (State.flitPassed i s).mem = s.mem := by simp [State.flitPassed, State.fresh, State.choice]
@[simp] theorem startTraining_mem (i : Nat) (m : LinkMode) (s : State) :
    (startTraining i m s).mem = s.mem := by simp [startTraining, State.fresh, State.choice]
@[simp] theorem launch_mem (s : State) :
    (launch s).mem = s.mem := rfl
@[simp] theorem maskAdd_mem (line : Nat) (h : Holder) (s : State) :
    (maskAdd line h s).mem = s.mem := by
  unfold maskAdd; split <;> simp [State.fresh, State.choice]
@[simp] theorem maskTidy_mem (line : Nat) (s : State) :
    (maskTidy line s).mem = s.mem := by
  unfold maskTidy; dsimp only; repeat' first | (simp [State.fresh, State.choice]; done) | split
@[simp] theorem sendTokens_mem (line : Nat) (src dst : Holder) (n : Nat) (owner data : Bool) (s : State) :
    (sendTokens line src dst n owner data s).mem = s.mem := by simp [sendTokens, State.fresh, State.choice]
@[simp] theorem sendAll_mem (line : Nat) (src dst : Holder) (s : State) :
    (sendAll line src dst s).mem = s.mem := by simp [sendAll, State.fresh, State.choice]
@[simp] theorem State.modReq_mem (id : Nat) (f : TokenReq → TokenReq) (s : State) :
    (State.modReq id f s).mem = s.mem := rfl
@[simp] theorem State.dropReq_mem (id : Nat) (s : State) :
    (State.dropReq id s).mem = s.mem := rfl
@[simp] theorem newRequest_mem (h : Holder) (line : Nat) (write persistent : Bool) (who : Asker) (s : State) :
    (newRequest h line write persistent who s).2.mem = s.mem := rfl
@[simp] theorem requestLine_mem (h : Holder) (line : Nat) (write : Bool) (who : Asker) (s : State) :
    (requestLine h line write who s).mem = s.mem := by simp [requestLine, State.fresh, State.choice]
@[simp] theorem useLines_mem (h : Holder) (lines : List Nat) (write : Bool) (s : State) :
    (useLines h lines write s).mem = s.mem := rfl
@[simp] theorem demandLines_mem (h : Holder) (lines : List Nat) (write : Bool) (who : Asker) (s : State) :
    (demandLines h lines write who s).1.mem = s.mem := by
  unfold demandLines
  try dsimp only
  repeat' first
    | with_reducible rfl
    | (simp [State.fresh, State.choice]; done)
    | split
    | (refine (foldl_mem _ ?_ _ _).trans ?_)
    | intro _
    | (simp [State.fresh, State.choice])
@[simp] theorem State.setHalf_mem (line half : Nat) (st : HalfState) (s : State) :
    (State.setHalf line half st s).mem = s.mem := rfl
@[simp] theorem askHost_mem (line half : Nat) (inv : Bool) (s : State) :
    (askHost line half inv s).mem = s.mem := by simp [askHost, State.fresh, State.choice]
@[simp] theorem snoopData_mem (line : Nat) (s : State) :
    (snoopData line s).1.mem = s.mem := by
  unfold snoopData
  try dsimp only
  repeat' first
    | with_reducible rfl
    | (simp [State.fresh, State.choice]; done)
    | split
    | (refine (foldl_mem _ ?_ _ _).trans ?_)
    | intro _
    | (simp [State.fresh, State.choice])
@[simp] theorem snoopInv_mem (loc n : Nat) (s : State) :
    (snoopInv loc n s).1.mem = s.mem := by
  unfold snoopInv
  try dsimp only
  repeat' first
    | with_reducible rfl
    | (simp [State.fresh, State.choice]; done)
    | split
    | (refine (foldl_mem _ ?_ _ _).trans ?_)
    | intro _
    | (simp [State.fresh, State.choice])
@[simp] theorem bridgeTakes_mem (r : TokenReq) (s : State) :
    (bridgeTakes r s).mem = s.mem := by
  unfold bridgeTakes
  try dsimp only
  repeat' first
    | with_reducible rfl
    | (simp [State.fresh, State.choice]; done)
    | split
    | (refine (foldl_mem _ ?_ _ _).trans ?_)
    | intro _
    | (simp [State.fresh, State.choice])
theorem reqHeld_mem {src dst : Holder} {line : Nat} {s t : State} (h : reqHeld src dst line s = some t) : t.mem = s.mem := by
  unfold reqHeld at h
  dsimp only at h
  repeat' split at h
  all_goals first | cases h | skip
  all_goals first | rfl | simp
@[simp] theorem activate_mem (line : Nat) (s : State) :
    (activate line s).mem = s.mem := by
  unfold activate; split <;> simp [State.fresh, State.choice]
@[simp] theorem State.setQueue_mem (line : Nat) (q : List Nat) (s : State) :
    (State.setQueue line q s).mem = s.mem := rfl
@[simp] theorem checkReq_mem (req : Nat) (s : State) :
    (checkReq req s).mem = s.mem := by
  unfold checkReq; split <;> simp [State.fresh, State.choice]
@[simp] theorem evictLine_mem (die line : Nat) (s : State) :
    (evictLine die line s).mem = s.mem := by simp [evictLine, State.fresh, State.choice]
@[simp] theorem l2Room_mem (h : Holder) (line : Nat) (s : State) :
    (l2Room h line s).mem = s.mem := by
  unfold l2Room; dsimp only; repeat' first | (simp [State.fresh, State.choice]; done) | split
@[simp] theorem recallLine_mem (line acc : Nat) (s : State) :
    (recallLine line acc s).1.mem = s.mem := by
  unfold recallLine; dsimp only; repeat' first | (simp [State.fresh, State.choice]; done) | split
@[simp] theorem recallLines_mem (lines : List Nat) (acc : Nat) (s : State) : (recallLines lines acc s).1.mem = s.mem := by
  unfold recallLines
  rw [foldl_fst_mem _ (fun x y => by simp)]
@[simp] theorem poisonLine_mem (line : Nat) (c : Cause) (s : State) :
    (poisonLine line c s).mem = s.mem := by simp [poisonLine, State.fresh, State.choice]
@[simp] theorem bumpPath_mem (core point : Nat) (s : State) :
    (bumpPath core point s).mem = s.mem := rfl
@[simp] theorem enterAccess_mem (c : Ctx) (op : AccOp) (p : DWord) (tgt : Target) (n : Nat) (data data2 : List Byte) (rz : Bool) (pd : Nat) :
    (enterAccess c op p tgt n data data2 rz pd).2.mem = c.s.mem := by
  unfold enterAccess
  simp [State.fresh]
@[simp] theorem pendingResult_mem (a : Access) (s : State) :
    (pendingResult a s).mem = s.mem := by simp [pendingResult, State.fresh, State.choice]
@[simp] theorem knownResult_mem (a : Access) (regs : List (Nat × Word)) (preds : List (Nat × Bool)) (s : State) :
    (knownResult a regs preds s).mem = s.mem := by
  unfold knownResult; split <;> simp [State.fresh, State.choice]
@[simp] theorem fillL1_mem (a : Access) (loc : Nat) (s : State) :
    (fillL1 a loc s).mem = s.mem := by
  unfold fillL1; split <;> simp [State.fresh, State.choice]
@[simp] theorem failAccess_mem (id : Nat) (c : Cause) (s : State) :
    (failAccess id c s).mem = s.mem := by
  unfold failAccess; split <;> simp [State.fresh, State.choice]
@[simp] theorem lineHeld_mem (mode : AccMode) (die loc : Nat) (who : Asker) (write : Bool) (s : State) :
    (lineHeld mode die loc who write s).1.mem = s.mem := by
  unfold lineHeld; dsimp only; repeat' first | (simp [State.fresh, State.choice]; done) | split
@[simp] theorem lineReady_mem (a : Access) (write : Bool) (s : State) :
    (lineReady a write s).1.mem = s.mem := by simp [lineReady, State.fresh, State.choice]
@[simp] theorem agentLine_mem (mode : AccMode) (die loc n : Nat) (who : Asker) (write : Bool) (s : State) :
    (agentLine mode die loc n who write s).1.mem = s.mem := by
  unfold agentLine; dsimp only; repeat' first | (simp [State.fresh, State.choice]; done) | split
@[simp] theorem dirtyAt_mem (mode : AccMode) (die loc : Nat) (s : State) :
    (dirtyAt mode die loc s).mem = s.mem := by
  unfold dirtyAt; split <;> simp [State.fresh, State.choice]
@[simp] theorem markDirty_mem (a : Access) (s : State) :
    (markDirty a s).mem = s.mem := by simp [markDirty, State.fresh, State.choice]
@[simp] theorem performed_mem (a : Access) (s : State) :
    (performed a s).mem = s.mem := by simp [performed, State.fresh, State.choice]
@[simp] theorem bindLoad_mem (a : Access) (bs : List Byte) (s : State) :
    (bindLoad a bs s).mem = s.mem := by
  unfold bindLoad; dsimp only; repeat' first | (simp [State.fresh, State.choice]; done) | split
@[simp] theorem firstHalf_mem (ids : List Nat) (s : State) :
    (firstHalf ids s).2.mem = s.mem := rfl
@[simp] theorem bindBytes_mem (a : Access) (bs : List Byte) (s : State) :
    (bindBytes a bs s).mem = s.mem := by simp [bindBytes, State.fresh, State.choice]
@[simp] theorem l1Update_mem (a : Access) (s : State) :
    (l1Update a s).mem = s.mem := by
  unfold l1Update
  try dsimp only
  repeat' first
    | with_reducible rfl
    | (simp [State.fresh, State.choice]; done)
    | split
    | (refine (foldl_mem _ ?_ _ _).trans ?_)
    | intro _
    | (simp [State.fresh, State.choice])
@[simp] theorem madeVisible_mem (a : Access) (s : State) :
    (madeVisible a s).mem = s.mem := by simp [madeVisible, State.fresh, State.choice]
@[simp] theorem progressAcc_mem (a : Access) (s : State) :
    (progressAcc a s).mem = s.mem := by
  unfold progressAcc; split <;> simp [State.fresh, State.choice]
theorem nextUnit_mem {a : Access} {s t : State} {u : Nat} (h : nextUnit a s = some (u, t)) : t.mem = s.mem := by
  unfold nextUnit at h
  simp only [Option.map_eq_some_iff, Prod.mk.injEq] at h
  obtain ⟨v, -, -, rfl⟩ := h
  rfl
@[simp] theorem bindDue_mem (a : Access) (s : State) :
    (bindDue a s).mem = s.mem := by
  unfold bindDue; dsimp only; repeat' first | (simp [State.fresh, State.choice]; done) | split
@[simp] theorem bindZeros_mem (a : Access) (s : State) :
    (bindZeros a s).mem = s.mem := by simp [bindZeros, State.fresh, State.choice]
@[simp] theorem countRange_mem (a : Access) (len : Nat) (s : State) :
    (countRange a len s).mem = s.mem := by
  unfold countRange
  try dsimp only
  repeat' first
    | with_reducible rfl
    | (simp [State.fresh, State.choice]; done)
    | split
    | (refine (foldl_mem _ ?_ _ _).trans ?_)
    | intro _
    | (simp [State.fresh, State.choice])
@[simp] theorem prefetch_mem (a : Access) (len : Nat) (s : State) :
    (prefetch a len s).1.mem = s.mem := by
  unfold prefetch
  try dsimp only
  repeat' first
    | with_reducible rfl
    | (simp [State.fresh, State.choice]; done)
    | split
    | (refine (foldl_mem _ ?_ _ _).trans ?_)
    | intro _
    | (simp [State.fresh, State.choice])
@[simp] theorem cacheControl_mem (a : Access) (op len : Nat) (s : State) :
    (cacheControl a op len s).mem = s.mem := by
  unfold cacheControl
  split
  · rfl
  · rfl
  · rw [writeBackPool_mem, writeBackHost_mem]
    refine (foldl_mem _ (fun t l => ?_) _ _).trans rfl
    dsimp only; split <;> simp
  · dsimp only
    rw [releasePool_mem, writeBackPool_mem, releaseHost_mem]
    exact foldl_mem _ (fun t l => by simp) _ _
@[simp] theorem enterQueue_mem (id : Nat) (s : State) :
    (enterQueue id s).mem = s.mem := rfl
@[simp] theorem snoopWrites_mem (a : Access) (s : State) : (snoopWrites a s).1.mem = s.mem := by
  unfold snoopWrites
  rw [foldl_fst_mem _ (fun x y => by simp)]
theorem homeHeld_mem {die loc key : Nat} {s t : State} (h : homeHeld die loc key s = some t) : t.mem = s.mem := by
  unfold homeHeld at h
  try dsimp only at h
  repeat' split at h
  all_goals first | exact linkHeld_mem h | exact pathHeld_mem h | cases h
@[simp] theorem noteKey_mem (r : TRef) (v : Nat) (s : State) :
    (noteKey r v s).mem = s.mem := rfl
@[simp] theorem State.dropSend_mem (id : Nat) (s : State) :
    (State.dropSend id s).mem = s.mem := rfl
@[simp] theorem satisfySlot_mem (w : Warp) (slot : Nat) (s : State) :
    (satisfySlot w slot s).mem = s.mem := by
  unfold satisfySlot; dsimp only; repeat' first | (simp [State.fresh, State.choice]; done) | split
@[simp] theorem queueArrival_mem (id : Nat) (s : State) :
    (queueArrival id s).mem = s.mem := by simp [queueArrival, State.fresh, State.choice]
@[simp] theorem deliver_mem (x : Send) (s : State) :
    (deliver x s).mem = s.mem := by
  unfold deliver; dsimp only; repeat' first | (simp [State.fresh, State.choice]; done) | split
@[simp] theorem placeAccess_mem (a : Access) (p : Placed) (s : State) :
    (placeAccess a p s).mem = s.mem := rfl
theorem wayHeld_mem {die : Nat} {p : Home} {key : Nat} {s t : State} (h : wayHeld die p key s = some t) : t.mem = s.mem := by
  unfold wayHeld at h
  try dsimp only at h
  repeat' split at h
  all_goals first | exact linkHeld_mem h | exact pathHeld_mem h | cases h
@[simp] theorem verdict_mem (a : Access) (v : Verdict) (s : State) :
    (verdict a v s).mem = s.mem := by simp [verdict, State.fresh, State.choice]
@[simp] theorem undoAccess_mem (a : Access) (s : State) :
    (undoAccess a s).mem = s.mem := by simp [undoAccess, State.fresh, State.choice]
@[simp] theorem acceptAccess_mem (a : Access) (s : State) :
    (acceptAccess a s).mem = s.mem := by
  unfold acceptAccess; split <;> simp [State.fresh, State.choice]
@[simp] theorem acceptTile_mem (a : Access) (ldt aon : Bool) (sp lim : Nat) (s : State) :
    (acceptTile a ldt aon sp lim s).mem = s.mem := by
  unfold acceptTile; dsimp only; repeat' first | (simp [State.fresh, State.choice]; done) | split
@[simp] theorem pgreqVerdict_mem (a : Access) (v : Verdict) (s : State) :
    (pgreqVerdict a v s).mem = s.mem := by
  unfold pgreqVerdict; dsimp only; repeat' first | (simp [State.fresh, State.choice]; done) | split
theorem grasp_mem (s : State) (die : Nat) (who : Asker) (g : DWord) (n : Nat) (write : Bool) :
    (∀ t loc mode, grasp s die who g n write = .ok t loc mode → t.mem = s.mem) ∧
    (∀ t, grasp s die who g n write = .again t → t.mem = s.mem) ∧
    (∀ t, grasp s die who g n write = .absent t → t.mem = s.mem) := by
  unfold grasp
  dsimp only
  refine ⟨fun t loc mode h => ?_, fun t h => ?_, fun t h => ?_⟩ <;>
    (repeat' split at h) <;> cases h <;> simp
theorem graspAgent_mem (s : State) (unit die ctx : Nat) (g : DWord) (n : Nat) (write : Bool) :
    (∀ t loc mode, graspAgent s unit die ctx g n write = .ok t loc mode → t.mem = s.mem) ∧
    (∀ t, graspAgent s unit die ctx g n write = .again t → t.mem = s.mem) ∧
    (∀ t c, graspAgent s unit die ctx g n write = .stop t c → t.mem = s.mem) := by
  have hg := grasp_mem s die ⟨0, 0, ctx⟩ g n write
  unfold graspAgent
  refine ⟨fun t loc mode h => ?_, fun t h => ?_, fun t c h => ?_⟩
  · split at h
    · next hh => cases h; exact hg.1 _ _ _ hh
    · cases h
    · cases h
    · dsimp only at h; repeat' split at h
      all_goals cases h
  · split at h
    · cases h
    · next hh => cases h; exact hg.2.1 _ hh
    · cases h
    · next hh =>
      rw [← hg.2.2 _ hh]
      dsimp only at h; repeat' split at h
      all_goals cases h
      all_goals simp
  · split at h
    · cases h
    · cases h
    · cases h; rfl
    · next hh =>
      rw [← hg.2.2 _ hh]
      dsimp only at h; repeat' split at h
      all_goals cases h
      all_goals rfl
@[simp] theorem Ctx.operation_mem (c : Ctx) (s : State) :
    (Ctx.operation c s).2.mem = s.mem := by
  unfold Ctx.operation; split <;> simp [State.fresh, State.choice]
@[simp] theorem closeOp_mem (r : TRef) (id : Nat) (s : State) :
    (closeOp r id s).mem = s.mem := by
  unfold closeOp; split <;> simp [State.fresh, State.choice]
@[simp] theorem dropRanges_mem (id : Nat) (s : State) :
    (dropRanges id s).mem = s.mem := rfl
@[simp] theorem stopEng_mem (e : EngOp) (c : Cause) (s : State) :
    (stopEng e c s).mem = s.mem := by
  unfold stopEng; split <;> simp [State.fresh, State.choice]
@[simp] theorem addPoint_mem (id core point : Nat) (s : State) :
    (addPoint id core point s).mem = s.mem := rfl
@[simp] theorem performEng_mem (e : EngOp) (s : State) :
    (performEng e s).mem = s.mem := by
  unfold performEng; split <;> simp [State.fresh, State.choice]
@[simp] theorem coverLine_mem (loc n : Nat) (x : State × EngOp) : (coverLine loc n x).1.mem = x.1.mem := by
  unfold coverLine
  dsimp only
  repeat' first | (simp; done) | split
@[simp] theorem engBar_mem (e : EngOp) (r : Reach) (s : State) :
    (engBar e r s).mem = s.mem := by
  unfold engBar; split <;> simp [State.fresh, State.choice]
@[simp] theorem copyDone_mem (e : EngOp) (s : State) :
    (copyDone e s).mem = s.mem := by simp [copyDone, State.fresh, State.choice]
@[simp] theorem State.accWrite_mem (core row col : Nat) (v : Word) (s : State) :
    (State.accWrite core row col v s).mem = s.mem := rfl
@[simp] theorem accPut_mem (e : EngOp) (i : Nat) (ws : List Word) (s : State) :
    (accPut e i ws s).mem = s.mem := by
  unfold accPut
  try dsimp only
  repeat' first
    | with_reducible rfl
    | (simp [State.fresh, State.choice]; done)
    | split
    | (refine (foldl_mem _ ?_ _ _).trans ?_)
    | intro _
    | (simp [State.fresh, State.choice])
theorem agentReach_mem (s : State) (core block : Nat) (ok : Spaces) (p : DWord) (n al : Nat) (write : Bool) :
    (∀ t loc mode, agentReach s core block ok p n al write = .ok t loc mode → t.mem = s.mem) ∧
    (∀ t, agentReach s core block ok p n al write = .again t → t.mem = s.mem) ∧
    (∀ t c, agentReach s core block ok p n al write = .stop t c → t.mem = s.mem) := by
  unfold agentReach
  dsimp only
  split
  · exact ⟨fun _ _ _ h => (nomatch h), fun _ h => (nomatch h), fun _ _ h => by cases h; rfl⟩
  · exact ⟨fun _ _ _ h => (nomatch h), fun _ h => (nomatch h), fun _ _ h => by cases h; rfl⟩
  · exact ⟨fun _ _ _ h => by cases h; rfl, fun _ h => (nomatch h), fun _ _ h => (nomatch h)⟩
  · split
    · exact ⟨fun _ _ _ h => (nomatch h), fun _ h => (nomatch h), fun _ _ h => by cases h; rfl⟩
    · exact ⟨fun _ _ _ h => by cases h; rfl, fun _ h => (nomatch h), fun _ _ h => (nomatch h)⟩
  · next g _ =>
    have hg := graspAgent_mem s core (core / 256) (s.ctxOf (agent core block)) g n write
    split
    · next hh =>
      split
      · exact ⟨fun _ _ _ h => (nomatch h), fun _ h => by cases h; exact hg.1 _ _ _ hh, fun _ _ h => (nomatch h)⟩
      · exact ⟨fun _ _ _ h => by cases h; exact hg.1 _ _ _ hh, fun _ h => (nomatch h), fun _ _ h => (nomatch h)⟩
    · exact hg
@[simp] theorem joinColl_mem (hh gang tag id : Nat) (s : State) :
    (joinColl hh gang tag id s).mem = s.mem := by
  unfold joinColl; dsimp only; repeat' first | (simp [State.fresh, State.choice]; done) | split
@[simp] theorem failColl_mem (i : CollInst) (c : Cause) (s : State) :
    (failColl i c s).mem = s.mem := by
  unfold failColl
  try dsimp only
  repeat' first
    | with_reducible rfl
    | (simp [State.fresh, State.choice]; done)
    | split
    | (refine (foldl_mem _ ?_ _ _).trans ?_)
    | intro _
    | (simp [State.fresh, State.choice])
@[simp] theorem notIssued_mem (r : TRef) (s : State) :
    (notIssued r s).mem = s.mem := rfl
@[simp] theorem needLine_mem (r : TRef) (line : DWord) (s : State) :
    (needLine r line s).mem = s.mem := by simp [needLine, State.fresh, State.choice]
@[simp] theorem lineArrived_mem (core ctx : Nat) (line : DWord) (s : State) :
    (lineArrived core ctx line s).mem = s.mem := rfl
@[simp] theorem fetchLine_mem (retry : Bool) (r : TRef) (s : State) :
    (fetchLine retry r s).mem = s.mem := by
  unfold fetchLine; dsimp only; repeat' first | (simp [State.fresh, State.choice]; done) | split
@[simp] theorem passOver_mem (out : List TRef) (s : State) :
    (passOver out s).mem = s.mem := rfl
@[simp] theorem State.formGroup_mem (core q n : Nat) (cs : List Thread) (s : State) : (State.formGroup core q n cs s).1.mem = s.mem := by
  induction n generalizing cs s with
  | zero => rfl
  | succ n ih =>
    rw [State.formGroup]
    split
    · rfl
    · dsimp only
      split
      · rfl
      · rw [ih, passOver_mem]
@[simp] theorem beginIssue_mem (q : Nat) (lead : Option Nat) (pc : DWord) (single : Bool) (members : List TRef) (s : State) :
    (beginIssue q lead pc single members s).mem = s.mem := rfl
@[simp] theorem bumpSerial_mem (g : List TRef) (s : State) :
    (bumpSerial g s).mem = s.mem := rfl
@[simp] theorem groupIssued_mem (s : State) :
    (groupIssued s).mem = s.mem := by
  unfold groupIssued; split <;> simp [State.fresh, State.choice]
@[simp] theorem endGroup_mem (s : State) :
    (endGroup s).mem = s.mem := by simp [endGroup, State.fresh, State.choice]
@[simp] theorem trapAbandoned_mem (s : State) :
    (trapAbandoned s).mem = s.mem := by
  unfold trapAbandoned
  try dsimp only
  repeat' first
    | with_reducible rfl
    | (simp [State.fresh, State.choice]; done)
    | split
    | (refine (foldl_mem _ ?_ _ _).trans ?_)
    | intro _
    | (simp [State.fresh, State.choice])
@[simp] theorem writeTimed_mem (s : State) :
    (writeTimed s).mem = s.mem := rfl
@[simp] theorem wakeSleepers_mem (s : State) :
    (wakeSleepers s).mem = s.mem := rfl
@[simp] theorem respond_mem (code : Nat) (payload : List Byte) (s : State) :
    (respond code payload s).mem = s.mem := by simp [respond, State.fresh, State.choice]
@[simp] theorem signNext_mem (s : State) :
    (signNext s).mem = s.mem := by
  unfold signNext; dsimp only; repeat' first | (simp [State.fresh, State.choice]; done) | split
@[simp] theorem forgetPast_mem (s : State) :
    (forgetPast s).mem = s.mem := rfl
@[simp] theorem manage_mem (s : State) :
    (manage s).mem = s.mem := by simp [manage, State.fresh, State.choice]
@[simp] theorem tick_mem (s : State) :
    (tick s).mem = s.mem := by
  unfold tick
  try dsimp only
  repeat' first
    | with_reducible rfl
    | (simp [State.fresh, State.choice]; done)
    | split
    | (refine (foldl_mem _ ?_ _ _).trans ?_)
    | intro _
    | (simp [State.fresh, State.choice])
@[simp] theorem State.received_mem (r : TRef) (id : Nat) (s : State) :
    (State.received r id s).mem = s.mem := by simp [State.received, State.fresh, State.choice]
@[simp] theorem illegalWord_mem (r : TRef) (s : State) :
    (illegalWord r s).mem = s.mem := by
  unfold illegalWord; split <;> simp [State.fresh, State.choice]
@[simp] theorem haltCore_mem (c : Nat) (s : State) :
    (haltCore c s).mem = s.mem := rfl
@[simp] theorem startRepetition_mem (i : Instr) (th : Thread) (s : State) :
    (startRepetition i th s).mem = s.mem := rfl
@[simp] theorem bindBlock_mem (x : Birth) (gang rank core : Nat) (s : State) :
    (bindBlock x gang rank core s).mem = s.mem := by simp [bindBlock, State.fresh, State.choice]
@[simp] theorem bindGang_mem (x : Birth) (cores : List Nat) (s : State) :
    (bindGang x cores s).1.mem = s.mem := by
  unfold bindGang
  try dsimp only
  repeat' first
    | with_reducible rfl
    | (simp [State.fresh, State.choice]; done)
    | split
    | (refine (foldl_mem _ ?_ _ _).trans ?_)
    | intro _
    | (simp [State.fresh, State.choice])
@[simp] theorem newHousehold_mem (task rank : Nat) (modules : List Nat) (seq : Option (Nat × Nat)) (s : State) :
    (newHousehold task rank modules seq s).1.mem = s.mem := rfl
@[simp] theorem recheck_mem (core : Nat) (s : State) :
    (recheck core s).mem = s.mem := rfl
@[simp] theorem startWarp_mem (b : Block) (w : Nat) (s : State) :
    (startWarp b w s).mem = s.mem := by
  unfold startWarp
  try dsimp only
  repeat' first
    | with_reducible rfl
    | (simp [State.fresh, State.choice]; done)
    | split
    | (refine (foldl_mem _ ?_ _ _).trans ?_)
    | intro _
    | (simp [State.fresh, State.choice])
@[simp] theorem beginPreempt_mem (hh : Nat) (s : State) :
    (beginPreempt hh s).mem = s.mem := by simp [beginPreempt, State.fresh, State.choice]
@[simp] theorem askPreempt_mem (g : Gang) (s : State) :
    (askPreempt g s).mem = s.mem := by simp [askPreempt, State.fresh, State.choice]
@[simp] theorem undoSent_mem (g : Nat) (s : State) :
    (undoSent g s).mem = s.mem := by
  unfold undoSent
  try dsimp only
  repeat' first
    | with_reducible rfl
    | (simp [State.fresh, State.choice]; done)
    | split
    | (refine (foldl_mem _ ?_ _ _).trans ?_)
    | intro _
    | (simp [State.fresh, State.choice])
@[simp] theorem dropObwaits_mem (g : Nat) (s : State) :
    (dropObwaits g s).mem = s.mem := by
  unfold dropObwaits
  try dsimp only
  repeat' first
    | with_reducible rfl
    | (simp [State.fresh, State.choice]; done)
    | split
    | (refine (foldl_mem _ ?_ _ _).trans ?_)
    | intro _
    | (simp [State.fresh, State.choice])
@[simp] theorem cancelColls_mem (g : Nat) (s : State) :
    (cancelColls g s).mem = s.mem := rfl
@[simp] theorem releaseCore_mem (b : Block) (ctx : Nat) (s : State) :
    (releaseCore b ctx s).mem = s.mem := rfl
@[simp] theorem resumeItem_mem (gs : List Gang) (s : State) :
    (resumeItem gs s).mem = s.mem := by
  unfold resumeItem; split <;> simp [State.fresh, State.choice]
@[simp] theorem saveGang_mem (g : Gang) (s : State) :
    (saveGang g s).mem = s.mem := by
  unfold saveGang
  try dsimp only
  repeat' first
    | with_reducible rfl
    | (simp [State.fresh, State.choice]; done)
    | split
    | (refine (foldl_mem _ ?_ _ _).trans ?_)
    | intro _
    | (simp [State.fresh, State.choice])
@[simp] theorem rebindBlock_mem (b : Block) (core : Nat) (s : State) :
    (rebindBlock b core s).mem = s.mem := rfl
@[simp] theorem rebindGang_mem (u : Nat) (cores : List Nat) (s : State) :
    (rebindGang u cores s).mem = s.mem := by
  unfold rebindGang
  try dsimp only
  repeat' first
    | with_reducible rfl
    | (simp [State.fresh, State.choice]; done)
    | split
    | (refine (foldl_mem _ ?_ _ _).trans ?_)
    | intro _
    | (simp [State.fresh, State.choice])
@[simp] theorem finishRebind_mem (gs : List Nat) (s : State) :
    (finishRebind gs s).mem = s.mem := by simp [finishRebind, State.fresh, State.choice]
@[simp] theorem bindResumed_mem (gs : List (Nat × List Nat)) (s : State) :
    (bindResumed gs s).mem = s.mem := by
  unfold bindResumed
  try dsimp only
  repeat' first
    | with_reducible rfl
    | (simp [State.fresh, State.choice]; done)
    | split
    | (refine (foldl_mem _ ?_ _ _).trans ?_)
    | intro _
    | (simp [State.fresh, State.choice])
@[simp] theorem restoreWarp_mem (x : State × RefMap) (w : Warp) : (restoreWarp x w).1.mem = x.1.mem := by
  unfold restoreWarp
  split <;> rfl
@[simp] theorem resumeEng_mem (hh : Nat) (s : State) (e : EngOp) :
    (resumeEng hh s e).mem = s.mem := by simp [resumeEng, State.fresh, State.choice]
@[simp] theorem takeArrivals_mem (g : Nat) (s : State) :
    (takeArrivals g s).mem = s.mem := by
  unfold takeArrivals
  try dsimp only
  repeat' first
    | with_reducible rfl
    | (simp [State.fresh, State.choice]; done)
    | split
    | (refine (foldl_mem _ ?_ _ _).trans ?_)
    | intro _
    | (simp [State.fresh, State.choice])
@[simp] theorem satisfyArmed_mem (g : Nat) (s : State) :
    (satisfyArmed g s).mem = s.mem := by
  unfold satisfyArmed
  try dsimp only
  repeat' first
    | with_reducible rfl
    | (simp [State.fresh, State.choice]; done)
    | split
    | (refine (foldl_mem _ ?_ _ _).trans ?_)
    | intro _
    | (simp [State.fresh, State.choice])
theorem graspBytes_mem (own : Option TRef) (die ctx : Nat) (l : List (DWord × Nat)) (s : State) :
    (∀ t bs, graspBytes own die ctx l s = .ok t bs → t.mem = s.mem) ∧
    (∀ t, graspBytes own die ctx l s = .again t → t.mem = s.mem) ∧
    (∀ t page, graspBytes own die ctx l s = .absent t page → t.mem = s.mem) := by
  induction l generalizing s with
  | nil => exact ⟨fun _ _ h => by cases h; rfl, fun _ h => (nomatch h), fun _ _ h => (nomatch h)⟩
  | cons x l ih =>
    obtain ⟨p, n⟩ := x
    have hg := grasp_mem s die ⟨0, 0, ctx⟩ p n false
    rw [graspBytes]
    split
    · next u loc mode hh =>
      have hu := hg.1 _ _ _ hh
      have hi := ih u
      dsimp only
      split
      · exact ⟨fun _ _ h => (nomatch h), fun _ h => by cases h; exact hu, fun _ _ h => (nomatch h)⟩
      · split
        · next hx => exact ⟨fun _ _ h => by cases h; rw [hi.1 _ _ hx, hu], fun _ h => (nomatch h), fun _ _ h => (nomatch h)⟩
        · exact ⟨fun t bs h => by rw [hi.1 t bs h, hu], fun t h => by rw [hi.2.1 t h, hu], fun t q h => by rw [hi.2.2 t q h, hu]⟩
    · next hh => exact ⟨fun _ _ h => (nomatch h), fun _ h => by cases h; exact hg.2.1 _ hh, fun _ _ h => (nomatch h)⟩
    · next hh => exact ⟨fun _ _ h => (nomatch h), fun _ h => (nomatch h), fun _ _ h => by cases h; exact hg.2.2 _ hh⟩
    · exact ⟨fun _ _ h => (nomatch h), fun _ h => (nomatch h), fun _ _ h => (nomatch h)⟩
@[simp] theorem answer_mem (m : Message) (v : Word) (s : State) :
    (answer m v s).mem = s.mem := by
  unfold answer; dsimp only; repeat' first | (simp [State.fresh, State.choice]; done) | split
@[simp] theorem undoMessage_mem (m : Message) (s : State) :
    (undoMessage m s).mem = s.mem := by simp [undoMessage, State.fresh, State.choice]
@[simp] theorem refuseMessage_mem (m : Message) (c : Cause) (s : State) :
    (refuseMessage m c s).mem = s.mem := by
  unfold refuseMessage; split <;> simp [State.fresh, State.choice]
@[simp] theorem enterCard_mem (m : Message) (card : BitVec 512) (place : List (BitVec 16)) (s : State) :
    (enterCard m card place s).mem = s.mem := by simp [enterCard, State.fresh, State.choice]
@[simp] theorem State.setGraph_mem (g : Graph) (s : State) :
    (State.setGraph g s).mem = s.mem := rfl
@[simp] theorem checkGraph_mem (id : Nat) (s : State) :
    (checkGraph id s).mem = s.mem := by
  unfold checkGraph; split <;> simp [State.fresh, State.choice]
@[simp] theorem faultGraph_mem (id : Nat) (s : State) :
    (faultGraph id s).mem = s.mem := by
  unfold faultGraph; split <;> simp [State.fresh, State.choice]
@[simp] theorem graphAnswer_mem (m : Message) (id node v : Nat) (s : State) :
    (graphAnswer m id node v s).mem = s.mem := by
  unfold graphAnswer; dsimp only; repeat' first | (simp [State.fresh, State.choice]; done) | split
@[simp] theorem decideCard_mem (m : Message) (card : BitVec 512) (place : List (BitVec 16)) (s : State) :
    (decideCard m card place s).mem = s.mem := by
  unfold decideCard; split <;> simp [State.fresh, State.choice]
theorem unreadable_mem (m : Message) (card : BitVec 512) (r : GotBytes) (s : State)
    (h : (∀ t bs, r = .ok t bs → t.mem = s.mem) ∧ (∀ t, r = .again t → t.mem = s.mem) ∧ (∀ t page, r = .absent t page → t.mem = s.mem)) :
    (unreadable m card r s).mem = s.mem := by
  unfold unreadable
  split
  · exact h.1 _ _ rfl
  · rw [State.post_mem]; exact h.2.1 _ rfl
  · rw [← h.2.2 _ _ rfl]
    dsimp only
    repeat' first | (simp; done) | split
  · split <;> simp
theorem Message.heldOnWay_mem {m : Message} {s t : State} (h : m.heldOnWay s = some t) : t.mem = s.mem := by
  unfold Message.heldOnWay at h
  try dsimp only at h
  repeat' split at h
  all_goals first | exact linkHeld_mem h | exact pathHeld_mem h | cases h
@[simp] theorem State.dropItem_mem (id : Nat) (s : State) :
    (State.dropItem id s).mem = s.mem := rfl
@[simp] theorem advanceItem_mem (x : Item) (s : State) :
    (advanceItem x s).mem = s.mem := by simp [advanceItem, State.fresh, State.choice]
@[simp] theorem bindHousehold_mem (x : Item) (cores : List (List Nat)) (s : State) :
    (bindHousehold x cores s).mem = s.mem := by
  unfold bindHousehold
  try dsimp only
  repeat' first
    | with_reducible rfl
    | (simp [State.fresh, State.choice]; done)
    | split
    | (refine (foldl_mem _ ?_ _ _).trans ?_)
    | intro _
    | (simp [State.fresh, State.choice])
@[simp] theorem yieldTo_mem (x : Item) (s : State) :
    (yieldTo x s).mem = s.mem := by
  unfold yieldTo
  try dsimp only
  repeat' first
    | with_reducible rfl
    | (simp [State.fresh, State.choice]; done)
    | split
    | (refine (foldl_mem _ ?_ _ _).trans ?_)
    | intro _
    | (simp [State.fresh, State.choice])
@[simp] theorem yieldAll_mem (die : Nat) (s : State) :
    (yieldAll die s).mem = s.mem := by
  unfold yieldAll
  try dsimp only
  repeat' first
    | with_reducible rfl
    | (simp [State.fresh, State.choice]; done)
    | split
    | (refine (foldl_mem _ ?_ _ _).trans ?_)
    | intro _
    | (simp [State.fresh, State.choice])
theorem bindFold_mem (x : Item) (hh : Nat) (l : List (Nat × List Nat)) (q : State × List Nat) :
    (l.foldl (fun (q : State × List Nat) p =>
      ((bindGang (x.birth hh p.1 true) p.2 q.1).1, q.2 ++ [(bindGang (x.birth hh p.1 true) p.2 q.1).2])) q).1.mem = q.1.mem := by
  induction l generalizing q with
  | nil => rfl
  | cons p l ih => rw [List.foldl_cons, ih]; simp
theorem takeReserved_mem {x : Item} {s t : State} {gs : List Nat} (h : takeReserved x s = some (t, gs)) : t.mem = s.mem := by
  unfold takeReserved at h
  split at h
  · dsimp only at h
    split at h
    · next cs hh _ _ =>
      rw [Option.some_inj] at h
      have hf := bindFold_mem x hh.uid ((s.ranksOn x).zip cs) (s, [])
      rw [h] at hf
      exact hf
    · cases h
  · rw [Option.map_eq_some_iff] at h
    obtain ⟨l, -, h⟩ := h
    cases h
    exact foldl_mem _ (fun _ _ => by simp) _ _
theorem reserve_mem {x : Item} {s t : State} (h : reserve x s = some t) : t.mem = s.mem := by
  unfold reserve at h
  dsimp only at h
  split at h
  · cases h
  · next u gs hu =>
    cases h
    split
    · rw [State.post_mem]; exact (takeReserved_mem hu :)
    · exact (takeReserved_mem hu :)
theorem bindItem_mem {x : Item} {s t : State} (h : bindItem x s = some t) : t.mem = s.mem := by
  unfold bindItem at h
  split at h
  · exact reserve_mem h
  · split at h
    all_goals
      rw [Option.map_eq_some_iff] at h
      obtain ⟨u, -, rfl⟩ := h
      simp
@[simp] theorem holdItem_mem (x : Item) (s : State) :
    (holdItem x s).mem = s.mem := by simp [holdItem, State.fresh, State.choice]
@[simp] theorem admitDispatcher_mem (x : Item) (s : State) :
    (admitDispatcher x s).mem = s.mem := by
  unfold admitDispatcher; dsimp only; repeat' first | (simp [State.fresh, State.choice]; done) | split
@[simp] theorem rechoose_mem (x : Item) (s : State) :
    (rechoose x s).mem = s.mem := by
  unfold rechoose
  try dsimp only
  repeat' first
    | with_reducible rfl
    | (simp [State.fresh, State.choice]; done)
    | split
    | (refine (foldl_mem _ ?_ _ _).trans ?_)
    | intro _
    | (simp [State.fresh, State.choice])
@[simp] theorem awayRequest_mem (m d counter : Nat) (s : State) :
    (awayRequest m d counter s).mem = s.mem := by simp [awayRequest, State.fresh, State.choice]
@[simp] theorem abstractHousehold_mem (x : Item) (s : State) :
    (abstractHousehold x s).mem = s.mem := rfl
@[simp] theorem clearHold_mem (gs : List Nat) (s : State) :
    (clearHold gs s).mem = s.mem := by simp [clearHold, State.fresh, State.choice]
@[simp] theorem State.setPorch_mem (p : Porch) (s : State) :
    (State.setPorch p s).mem = s.mem := rfl
@[simp] theorem takeRecord_mem (die : Nat) (r : TRef) (d id : Nat) (s : State) :
    (takeRecord die r d id s).mem = s.mem := by
  unfold takeRecord; dsimp only; repeat' first | (simp [State.fresh, State.choice]; done) | split
@[simp] theorem wakeReceivers_mem (die : Nat) (s : State) :
    (wakeReceivers die s).mem = s.mem := by
  unfold wakeReceivers; dsimp only; repeat' first | (simp [State.fresh, State.choice]; done) | split
@[simp] theorem sendAccepted_mem (m : Message) (s : State) :
    (sendAccepted m s).mem = s.mem := by
  unfold sendAccepted; dsimp only; repeat' first | (simp [State.fresh, State.choice]; done) | split
@[simp] theorem removeBlock_mem (b : Block) (s : State) :
    (removeBlock b s).mem = s.mem := rfl
@[simp] theorem freeBlock_mem (b : Block) (s : State) :
    (freeBlock b s).mem = s.mem := rfl
@[simp] theorem removeGang_mem (g : Gang) (s : State) :
    (removeGang g s).mem = s.mem := by simp [removeGang, State.fresh, State.choice]
@[simp] theorem finishTask_mem (num : Nat) (s : State) :
    (finishTask num s).mem = s.mem := by
  unfold finishTask
  try dsimp only
  repeat' first
    | with_reducible rfl
    | (simp [State.fresh, State.choice]; done)
    | split
    | (refine (foldl_mem _ ?_ _ _).trans ?_)
    | intro _
    | (simp [State.fresh, State.choice])
@[simp] theorem sendAct_mem (id node : Nat) (s : State) :
    (sendAct id node s).mem = s.mem := by
  unfold sendAct; split <;> simp [State.fresh, State.choice]
@[simp] theorem leaveNode_mem (id node : Nat) (s : State) :
    (leaveNode id node s).mem = s.mem := by
  unfold leaveNode; split <;> simp [State.fresh, State.choice]
@[simp] theorem moveAct_mem (id node next : Nat) (s : State) :
    (moveAct id node next s).mem = s.mem := by simp [moveAct, State.fresh, State.choice]
theorem readCondition_mem (e : Instr) (graph : Nat) (g : Graph) (p : DWord) (s : State) (go : State → Nat → State)
    (h : ∀ t v, (go t v).mem = t.mem) : (readCondition e graph g p s go).mem = s.mem := by
  have hg := graspAgent_mem s (dieUnit g.die) g.die g.ctx p 4 false
  unfold readCondition
  split
  · simp
  · split
    · next hh => rw [State.post_mem]; exact hg.2.1 _ hh
    · next hh => rw [faultGraph_mem]; exact hg.2.2 _ _ hh
    · next hh => rw [h]; exact hg.1 _ _ _ hh
@[simp] theorem releaseAttached_mem (hh core : Nat) (s : State) :
    (releaseAttached hh core s).mem = s.mem := by
  unfold releaseAttached
  try dsimp only
  repeat' first
    | with_reducible rfl
    | (simp [State.fresh, State.choice]; done)
    | split
    | (refine (foldl_mem _ ?_ _ _).trans ?_)
    | intro _
    | (simp [State.fresh, State.choice])
@[simp] theorem attachGang_mem (g : Gang) (s : State) :
    (attachGang g s).mem = s.mem := by
  unfold attachGang
  try dsimp only
  repeat' first
    | with_reducible rfl
    | (simp [State.fresh, State.choice]; done)
    | split
    | (refine (foldl_mem _ ?_ _ _).trans ?_)
    | intro _
    | (simp [State.fresh, State.choice])
@[simp] theorem awayNotice_mem (hh rank core : Nat) (a : Attach) (s : State) :
    (awayNotice hh rank core a s).mem = s.mem := rfl
@[simp] theorem departedTraps_mem (hh core : Nat) (s : State) :
    (departedTraps hh core s).mem = s.mem := by
  unfold departedTraps
  try dsimp only
  repeat' first
    | with_reducible rfl
    | (simp [State.fresh, State.choice]; done)
    | split
    | (refine (foldl_mem _ ?_ _ _).trans ?_)
    | intro _
    | (simp [State.fresh, State.choice])
theorem ctlWrite_mem {core n : Nat} {v : DWord} {s t : State} (h : ctlWrite core n v s = some t) : t.mem = s.mem := by
  unfold ctlWrite at h
  dsimp only at h
  repeat' split at h
  all_goals first | cases h | skip
  all_goals first | rfl | simp
@[simp] theorem killWarp_mem (ts : List Thread) (s : State) :
    (killWarp ts s).mem = s.mem := by
  unfold killWarp
  try dsimp only
  repeat' first
    | with_reducible rfl
    | (simp [State.fresh, State.choice]; done)
    | split
    | (refine (foldl_mem _ ?_ _ _).trans ?_)
    | intro _
    | (simp [State.fresh, State.choice])
@[simp] theorem writeUni_mem (core slot : Nat) (ks : List Nat) (f : List Word → List Word) (s : State) :
    (writeUni core slot ks f s).mem = s.mem := rfl
theorem State.writeItem_mem {s t : State} {th : Thread} {item : Nat} {wide : Bool} {v : DWord} (h : s.writeItem th item wide v = some t) : t.mem = s.mem := by
  unfold State.writeItem at h
  dsimp only at h
  repeat' split at h
  all_goals first | cases h | skip
  all_goals first | rfl | simp
@[simp] theorem faultRegister_mem (r : TRef) (reg : Nat) (s : State) :
    (faultRegister r reg s).mem = s.mem := by simp [faultRegister, State.fresh, State.choice]
@[simp] theorem clearEntries_mem (ctx page : Nat) (s : State) :
    (clearEntries ctx page s).mem = s.mem := rfl
@[simp] theorem releaseRequest_mem (s : State) (a : Access) :
    (releaseRequest s a).mem = s.mem := by
  unfold releaseRequest; split <;> simp [State.fresh, State.choice]
@[simp] theorem wakePage_mem (ctx page : Nat) (f : Thread → Thread) (s : State) :
    (wakePage ctx page f s).mem = s.mem := by
  unfold wakePage
  try dsimp only
  repeat' first
    | with_reducible rfl
    | (simp [State.fresh, State.choice]; done)
    | split
    | (refine (foldl_mem _ ?_ _ _).trans ?_)
    | intro _
    | (simp [State.fresh, State.choice])
@[simp] theorem releasePage_mem (ctx page : Nat) (s : State) :
    (releasePage ctx page s).mem = s.mem := by
  unfold releasePage
  try dsimp only
  repeat' first
    | with_reducible rfl
    | (simp [State.fresh, State.choice]; done)
    | split
    | (refine (foldl_mem _ ?_ _ _).trans ?_)
    | intro _
    | (simp [State.fresh, State.choice])
@[simp] theorem denyPage_mem (ctx page : Nat) (s : State) :
    (denyPage ctx page s).mem = s.mem := by
  unfold denyPage
  try dsimp only
  repeat' first
    | with_reducible rfl
    | (simp [State.fresh, State.choice]; done)
    | split
    | (refine (foldl_mem _ ?_ _ _).trans ?_)
    | intro _
    | (simp [State.fresh, State.choice])
@[simp] theorem askAfresh_mem (ctx page : Nat) (s : State) :
    (askAfresh ctx page s).mem = s.mem := by
  unfold askAfresh; split <;> simp [State.fresh, State.choice]
@[simp] theorem fillTranslation_mem (x : TransEntry) (s : State) :
    (fillTranslation x s).mem = s.mem := rfl
@[simp] theorem settleGroup_mem (ctx page : Nat) (got : Rights) (s : State) :
    (settleGroup ctx page got s).mem = s.mem := by
  unfold settleGroup; dsimp only; repeat' first | (simp [State.fresh, State.choice]; done) | split
@[simp] theorem dropPages_mem (ctx : Nat) (pages : Nat → Bool) (s : State) :
    (dropPages ctx pages s).1.mem = s.mem := by
  unfold dropPages; dsimp only; repeat' first | (simp [State.fresh, State.choice]; done) | split
@[simp] theorem resolveAgain_mem (ctx lo hi : Nat) (s : State) :
    (resolveAgain ctx lo hi s).mem = s.mem := by
  unfold resolveAgain
  try dsimp only
  repeat' first
    | with_reducible rfl
    | (simp [State.fresh, State.choice]; done)
    | split
    | (refine (foldl_mem _ ?_ _ _).trans ?_)
    | intro _
    | (simp [State.fresh, State.choice])
@[simp] theorem dropBridge_mem (ctx : Nat) (s : State) :
    (dropBridge ctx s).mem = s.mem := by simp [dropBridge, State.fresh, State.choice]
@[simp] theorem State.dropMove_mem (id : Nat) (s : State) :
    (State.dropMove id s).mem = s.mem := rfl
@[simp] theorem setFrame_mem (m : Move) (e : DWord) (s : State) :
    (setFrame m e s).mem = s.mem := rfl
@[simp] theorem abandonMove_mem (m : Move) (s : State) :
    (abandonMove m s).mem = s.mem := by simp [abandonMove, State.fresh, State.choice]
@[simp] theorem reroute_mem (link : Nat) (s : State) :
    (reroute link s).mem = s.mem := by
  unfold reroute
  try dsimp only
  repeat' first
    | with_reducible rfl
    | (simp [State.fresh, State.choice]; done)
    | split
    | (refine (foldl_mem _ ?_ _ _).trans ?_)
    | intro _
    | (simp [State.fresh, State.choice])
@[simp] theorem cutPaths_mem (port : Nat) (s : State) :
    (cutPaths port s).mem = s.mem := by simp [cutPaths, State.fresh, State.choice]
@[simp] theorem State.modModule_mem (dev : Nat) (f : Module → Module) (s : State) :
    (State.modModule dev f s).mem = s.mem := rfl
@[simp] theorem departAway_mem (dev : Nat) (s : State) (h : Household) :
    (departAway dev s h).mem = s.mem := by
  unfold departAway
  try dsimp only
  repeat' first
    | with_reducible rfl
    | (simp [State.fresh, State.choice]; done)
    | split
    | (refine (foldl_mem _ ?_ _ _).trans ?_)
    | intro _
    | (simp [State.fresh, State.choice])
@[simp] theorem bridgeDemand_mem (line : Nat) (write : Bool) (s : State) :
    (bridgeDemand line write s).1.mem = s.mem := by simp [bridgeDemand, State.fresh, State.choice]
@[simp] theorem tableRoom_mem (line : Nat) (s : State) :
    (tableRoom line s).1.mem = s.mem := by
  unfold tableRoom
  try dsimp only
  repeat' first
    | with_reducible rfl
    | (simp [State.fresh, State.choice]; done)
    | split
    | (refine (foldl_mem _ ?_ _ _).trans ?_)
    | intro _
    | (simp [State.fresh, State.choice])
@[simp] theorem grantHalf_mem (line half : Nat) (st : HalfState) (s : State) :
    (grantHalf line half st s).mem = s.mem := rfl
@[simp] theorem answerHalf_mem (line half : Nat) (s : State) :
    (answerHalf line half s).mem = s.mem := rfl
@[simp] theorem hostRead_mem (line half : Nat) (st : HalfState) (again : Instr) (s : State) :
    (hostRead line half st again s).mem = s.mem := by simp [hostRead, State.fresh, State.choice]
@[simp] theorem dropAsked_mem (line : Nat) (s : State) :
    (dropAsked line s).mem = s.mem := rfl
@[simp] theorem poolSnoop_mem (line : Nat) (inv : Bool) (s : State) :
    (poolSnoop line inv s).mem = s.mem := by
  unfold poolSnoop; split <;> simp [State.fresh, State.choice]
@[simp] theorem loseLine_mem (port : Nat) (s : State) (line : Nat) :
    (loseLine port s line).mem = s.mem := by simp [loseLine, State.fresh, State.choice]
@[simp] theorem State.dropLoss_mem (g : Segment) (s : State) :
    (State.dropLoss g s).mem = s.mem := rfl
@[simp] theorem unpowered_mem (s : State) :
    (unpowered s).mem = s.mem := rfl
@[simp] theorem measure_mem (i : Nat) (x : List Byte) (s : State) :
    (Machine.measure i x s).mem = s.mem := rfl
@[simp] theorem loadImage_mem (mr : Nat) (img : List Byte) (s : State) :
    (loadImage mr img s).1.mem = s.mem := rfl
@[simp] theorem State.finishStage_mem (n : Nat) (s : State) :
    (State.finishStage n s).mem = s.mem := by simp [State.finishStage, State.fresh, State.choice]
@[simp] theorem State.failStage_mem (n : Nat) (s : State) :
    (State.failStage n s).mem = s.mem := rfl
@[simp] theorem bootCore_mem (s : State) (c : Nat) :
    (bootCore s c).mem = s.mem := by
  unfold bootCore; dsimp only; repeat' first | (simp [State.fresh, State.choice]; done) | split
@[simp] theorem unsupported_mem (request : Nat) (s : State) :
    (unsupported request s).mem = s.mem := by simp [unsupported, State.fresh, State.choice]
@[simp] theorem signed_mem (request code : Nat) (payload nonce : List Byte) (s : State) :
    (signed request code payload nonce s).mem = s.mem := by simp [signed, State.fresh, State.choice]

end Sys2Proof.Laws
end

