-- ==== Sys2Proof/Laws/Canonical.lean ====
section
/-! SUPPORT. Operations that write memory keep its canonical form. -/

namespace Sys2Proof.Laws

open Sys2Proof.Machine Sys2Proof.Safety

theorem canonical_of_mem {s t : State} (hs : MemCanonical s) (h : t.mem = s.mem) : MemCanonical t := by
  unfold MemCanonical
  rw [h]
  exact hs

theorem foldl_canonical {α : Type} (f : State → α → State) (h : ∀ s x, MemCanonical s → MemCanonical (f s x)) (l : List α) {s : State}
    (hs : MemCanonical s) : MemCanonical (l.foldl f s) := by
  induction l generalizing s with
  | nil => exact hs
  | cons x l ih => exact ih (h s x hs)

theorem foldl_canonical_fst {α β : Type} (f : State × β → α → State × β)
    (h : ∀ x y, MemCanonical x.1 → MemCanonical (f x y).1) (l : List α) {x : State × β} (hx : MemCanonical x.1) :
    MemCanonical (l.foldl f x).1 := by
  induction l generalizing x with
  | nil => exact hx
  | cons y l ih => exact ih (h x y hx)

/-! ## Writes -/

theorem writeBytes_canonical {s : State} (h : MemCanonical s) (loc : Nat) (bs : List Byte) : MemCanonical (s.writeBytes loc bs) :=
  writeN_wf h loc bs

theorem objectUpdate_canonical {s t : State} {loc : Nat} {u : ObUpdate} (h : MemCanonical s) (ht : objectUpdate loc u s = some t) :
    MemCanonical t := by
  unfold objectUpdate at ht
  dsimp only at ht
  split at ht
  · cases ht
  · next v _ =>
    cases ht
    split
    · exact canonical_of_mem (writeBytes_canonical h loc (bytesOf 16 v)) (by simp)
    · exact writeBytes_canonical h loc _

theorem objectUpdate_getD {s : State} (h : MemCanonical s) (loc : Nat) (u : ObUpdate) : MemCanonical ((objectUpdate loc u s).getD s) := by
  cases ht : objectUpdate loc u s with
  | none => exact h
  | some t => exact objectUpdate_canonical h ht

theorem applyStore_canonical {s : State} (h : MemCanonical s) (a : Access) : MemCanonical (applyStore a s) := by
  unfold applyStore
  split
  · exact h
  · refine canonical_of_mem ?_ (markDirty_mem _ _)
    unfold MemCanonical Access.storeTo
    dsimp only
    split <;> exact writeN_wf h _ _

theorem applyAtom_canonical {s : State} (h : MemCanonical s) (a : Access) : MemCanonical (applyAtom a s) := by
  unfold applyAtom
  split
  · dsimp only [State.choice]
    refine canonical_of_mem ?_ (performed_mem _ _)
    have hk : ∀ (c : Prop) [Decidable c] (regs : List (Nat × Word)) (t : State), MemCanonical t →
        MemCanonical (if c then knownResult a regs [] t else t) := by
      intro c _ regs t ht
      split
      · exact canonical_of_mem ht (by simp)
      · exact ht
    apply hk
    refine canonical_of_mem ?_ (markDirty_mem _ _)
    cases a.mode <;> first
      | exact h
      | exact writeBytes_canonical (s := { s with free := s.free + 1 }) h _ _
      | exact canonical_of_mem (writeBytes_canonical (s := { s with free := s.free + 1 }) h _ _) (State.modCore_mem _ _ _)
  · exact h

theorem runAtoms_canonical {s : State} (h : MemCanonical s) (as : List Access) : MemCanonical (runAtoms as s) := by
  unfold runAtoms
  refine canonical_of_mem ?_ (settle_mem _)
  refine foldl_canonical _ ?_ as h
  intro s a hs
  split
  · exact canonical_of_mem hs (by simp)
  · exact canonical_of_mem hs (by simp)
  · split
    · exact canonical_of_mem hs (by simp)
    · exact applyAtom_canonical (canonical_of_mem hs (by simp)) a

theorem tileWrite_canonical {s : State} (h : MemCanonical s) (a : Access) (loc : Nat) (bs : List Byte) :
    MemCanonical (tileWrite a loc bs s) :=
  canonical_of_mem (writeBytes_canonical h loc bs) (by simp [tileWrite])

theorem tileReach_canonical {s : State} (h : MemCanonical s) (a : Access) (k n : Nat) (write : Bool) {again go : State → State}
    (ha : ∀ t, MemCanonical t → MemCanonical (again t)) (hg : ∀ t, MemCanonical t → MemCanonical (go t)) :
    MemCanonical (tileReach a k n write again go s) := by
  unfold tileReach
  dsimp only
  split
  · exact canonical_of_mem h (failAccess_mem _ _ _)
  · have hl := canonical_of_mem h (agentLine_mem a.mode a.die (a.tileLoc k) n a.asker write s)
    split
    · exact hg _ (canonical_of_mem hl (State.modAcc_mem _ _ _))
    · exact ha _ hl

theorem ldtStep_canonical {s : State} (h : MemCanonical s) (a : Access) (sp lim : Nat) : MemCanonical (ldtStep a sp lim s) := by
  have hd : ∀ (ok : Bool) (t : State), MemCanonical t → MemCanonical (settle (performed a (knownResult a [] [(a.pd, ok)] t))) :=
    fun _ _ ht => canonical_of_mem ht (by simp)
  have hr : ∀ t : State, MemCanonical t → MemCanonical (t.post (.loadBind a.id)) := fun _ ht => canonical_of_mem ht (State.post_mem _ _)
  unfold ldtStep
  dsimp only
  split
  · refine tileReach_canonical h a _ _ _ hr (fun t ht => ?_)
    split
    · exact hd _ _ ht
    · split
      · exact canonical_of_mem ht (by simp)
      · exact canonical_of_mem ht (by simp)
      · exact hd _ _ ht
  · split
    · next u _ hu =>
      refine tileReach_canonical (canonical_of_mem h (nextUnit_mem hu)) a _ _ _ hr (fun t ht => ?_)
      have hw := writeBytes_canonical ht (sp + 16 * u) (t.seen a.t.core (a.tileLoc (64 + 16 * u)) 16)
      exact canonical_of_mem hw (by simp)
    · refine tileReach_canonical h a _ _ _ hr (fun t ht => ?_)
      have hf := canonical_of_mem ht (fillL1_mem a a.loc t)
      split
      · exact hd _ _ hf
      · split
        · exact hd _ _ hf
        · exact canonical_of_mem hf (by simp)

theorem applySet_canonical {s : State} (h : MemCanonical s) (as : List Access) (again : State → State) (done : Access → State → State)
    (ha : ∀ t, (again t).mem = t.mem) (hd : ∀ b t, (done b t).mem = t.mem) : MemCanonical (applySet as again done s) := by
  unfold applySet
  split
  · exact h
  · split
    · exact foldl_canonical _ (fun _ _ hs => canonical_of_mem (applyStore_canonical hs _) (hd _ _)) _ h
    · split
      · exact foldl_canonical _ (fun _ _ hs => canonical_of_mem (applyStore_canonical hs _) (hd _ _)) _ h
      · exact canonical_of_mem (foldl_canonical _ (fun _ _ hs => applyStore_canonical hs _) _ (canonical_of_mem h (firstHalf_mem _ _))) (ha _)

theorem queueStores_canonical {s : State} (h : MemCanonical s) (as : List Access) : MemCanonical (queueStores as s) := by
  unfold queueStores
  refine canonical_of_mem ?_ (settle_mem _)
  split
  · exact h
  · split
    · exact applySet_canonical h _ _ _ (by simp) (by simp)
    · exact foldl_canonical _ (fun _ _ hs => canonical_of_mem hs (by simp)) _ h
    · refine foldl_canonical _ (fun _ _ hs => canonical_of_mem hs ?_) _ h
      simp

theorem drainStores_canonical {s : State} (h : MemCanonical s) (e : Instr) (as : List Access) : MemCanonical (drainStores e as s) := by
  unfold drainStores
  dsimp only
  refine canonical_of_mem ?_ (settle_mem _)
  refine applySet_canonical ?_ _ _ _ (by simp) (by simp)
  refine foldl_canonical _ ?_ _ h
  intro s a hs
  split
  · exact canonical_of_mem hs (by simp)
  · exact hs

theorem sttStep_canonical {s : State} (h : MemCanonical s) (a : Access) (aon : Bool) (sp : Nat) : MemCanonical (sttStep a aon sp s) := by
  have hr : ∀ t : State, MemCanonical t → MemCanonical (t.post (.storePerform a.id 0)) := fun _ ht => canonical_of_mem ht (State.post_mem _ _)
  have hw : ∀ (loc : Nat) (bs : List Byte) (f : Access → Access) (t : State), MemCanonical t →
      MemCanonical (((tileWrite a loc bs t).modAcc a.id f).post (.storePerform a.id 0)) :=
    fun loc bs f t ht => hr _ (canonical_of_mem (tileWrite_canonical ht a loc bs) (State.modAcc_mem _ _ _))
  have hv : ∀ t : State, MemCanonical t → MemCanonical (settle (madeVisible a (progressAcc a t))) :=
    fun _ ht => canonical_of_mem ht (by simp)
  unfold sttStep
  dsimp only
  split
  · exact tileReach_canonical h a _ _ _ hr (fun t ht => hw _ _ _ t ht)
  · split
    · next hu => exact tileReach_canonical (canonical_of_mem h (nextUnit_mem hu)) a _ _ _ hr (fun t ht => hw _ _ _ t ht)
    · split
      · exact tileReach_canonical h a _ _ _ hr (fun t ht => hv _ (tileWrite_canonical ht _ _ _))
      · exact hv _ h

/-! ## Engines -/

theorem enterEng_canonical {s : State} (h : MemCanonical s) (p : EngPlan) (id : Nat) : MemCanonical (enterEng p id s) := by
  unfold enterEng
  dsimp only
  have h0 : MemCanonical (p.ranges.foldl (fun s r => s.modCore r.1 (fun k => { k with ranges := k.ranges ++ [⟨id, r.2.1, r.2.2⟩] })) s) :=
    foldl_canonical _ (fun _ _ hs => canonical_of_mem hs (State.modCore_mem _ _ _)) _ h
  generalize p.ranges.foldl (fun s r => s.modCore r.1 (fun k => { k with ranges := k.ranges ++ [⟨id, r.2.1, r.2.2⟩] })) s = u at h0 ⊢
  have h1 : MemCanonical (match p.op.obj with
      | some loc => if p.charge = 0 then u else (objectUpdate loc (.charge p.charge) u).getD u
      | none => u) := by
    split
    · split
      · exact h0
      · exact objectUpdate_getD h0 _ _
    · exact h0
  unfold MemCanonical
  rw [State.post_mem]
  exact h1

theorem engPutLine_canonical {x : State × EngOp} (h : MemCanonical x.1) (p : DWord) (bs : List Byte) :
    MemCanonical (engPutLine p bs x).1 := by
  unfold engPutLine
  split
  · next loc _ _ =>
    have hw := writeBytes_canonical h loc bs
    dsimp only
    split
    · exact h
    · exact hw
    · exact canonical_of_mem hw (by simp)
  · exact h

theorem engPut_canonical {x : State × EngOp} (h : MemCanonical x.1) (p : DWord) (bs : List Byte) : MemCanonical (engPut p bs x).1 := by
  unfold engPut
  exact foldl_canonical_fst _ (fun _ _ hx => engPutLine_canonical hx _ _) _ h

theorem deliverTo_canonical {s : State} (h : MemCanonical s) (e : EngOp) (n : Nat) : MemCanonical (deliverTo e n s) := by
  unfold deliverTo
  split
  · split
    · exact h
    · exact objectUpdate_getD h _ _
  · exact h

theorem q4Store_canonical {x : State × EngOp} (h : MemCanonical x.1) (l : Layout) (line : DWord) (pos : Nat) (ws : List Byte) :
    MemCanonical (q4Store l line pos ws x).1 := by
  unfold q4Store
  dsimp only
  refine canonical_of_mem ?_ (setFmterr_mem _ _ _)
  exact engPut_canonical (engPut_canonical (engPut_canonical (engPut_canonical h _ _) _ _) _ _) _ _

theorem putPiece_canonical {y : (State × EngOp) × PutEnd} (h : MemCanonical y.1.1) (i : Nat) (p : DWord) (bs : List Byte) :
    MemCanonical (putPiece y i p bs).1.1 := by
  unfold putPiece
  split
  · exact h
  · split
    · exact h
    · split
      · split
        · exact h
        · exact engPutLine_canonical h p bs
      · exact h

theorem putAll_canonical {x : State × EngOp} (h : MemCanonical x.1) (l : List (DWord × List Byte)) : MemCanonical (putAll l x).1.1 := by
  have key : ∀ (qs : List ((DWord × List Byte) × Nat)) (y : (State × EngOp) × PutEnd), MemCanonical y.1.1 →
      MemCanonical (qs.foldl (fun y q => putPiece y q.2 q.1.1 q.1.2) y).1.1 := by
    intro qs
    induction qs with
    | nil => exact fun _ hy => hy
    | cons q qs ih => exact fun y hy => ih _ (putPiece_canonical hy _ _ _)
  exact key _ _ h

/-- What a unit of a copy leaves. -/
def UnitCanonical (u : UnitRes) : Prop := ∀ y adv, u = .ok y adv → MemCanonical y.1

theorem byteUnit_canonical {s : State} (h : MemCanonical s) (e : EngOp) : UnitCanonical (byteUnit s e) := by
  intro y adv hu
  unfold byteUnit at hu
  dsimp only at hu
  repeat' split at hu
  all_goals first | cases hu | skip
  all_goals exact engPut_canonical (x := (s, _)) h _ _

theorem boxUnit_canonical {s : State} (h : MemCanonical s) (e : EngOp) : UnitCanonical (boxUnit s e) := by
  intro y adv hu
  unfold boxUnit at hu
  dsimp only at hu
  repeat' split at hu
  all_goals first | cases hu | skip
  all_goals first
    | exact h
    | exact engPut_canonical (x := (s, e)) h _ _
    | exact q4Store_canonical (x := (s, e)) h _ _ _ _
    | exact engPut_canonical (x := (_, e)) (canonical_of_mem h (setFmterr_mem _ _ _)) _ _

theorem unitRun_canonical {x : State × EngOp} (h : MemCanonical x.1) (u n : Nat) : MemCanonical (unitRun u n x).1.1 := by
  induction n generalizing x with
  | zero => exact h
  | succ n ih =>
    rw [unitRun]
    split
    · exact h
    · have hu : UnitCanonical (match x.2.kind with | .cpyb _ => byteUnit x.1 x.2 | _ => boxUnit x.1 x.2) := by
        split
        · exact byteUnit_canonical h _
        · exact boxUnit_canonical h _
      split
      · next y adv heq => exact ih (x := (y.1, _)) (hu y adv heq)
      · exact h
      · exact h
      · exact h

theorem copyRun_canonical {x : State × EngOp} (h : MemCanonical x.1) (n : Nat) : MemCanonical (copyRun n x).1.1 := by
  induction n generalizing x with
  | zero => exact h
  | succ n ih =>
    rw [copyRun]
    split
    · exact h
    · have hr := unitRun_canonical h (destUnit x.2 x.2.progress) 16
      dsimp only
      split
      · exact ih hr
      · exact hr
      · split
        · exact hr
        · exact h
      · exact h

theorem accEffect_canonical {s t : State} {e : EngOp} (h : MemCanonical s) (ht : accEffect e s = some t) : MemCanonical t := by
  unfold accEffect at ht
  dsimp only at ht
  split at ht
  · split at ht
    · cases ht
    · cases ht; exact foldl_canonical _ (fun _ _ hs => canonical_of_mem hs (by simp)) _ h
  · split at ht
    · cases ht
    · cases ht; exact foldl_canonical _ (fun _ _ hs => writeBytes_canonical hs _ _) _ h
  · cases ht; exact foldl_canonical _ (fun _ _ hs => canonical_of_mem hs (by simp)) _ h

/-! ## Chains -/

theorem agentPut_canonical {s : State} (h : MemCanonical s) (core loc : Nat) (mode : AccMode) (bs : List Byte) :
    MemCanonical (agentPut core loc mode bs s) := by
  unfold agentPut
  split
  · exact h
  · exact canonical_of_mem (writeBytes_canonical h loc bs) (by simp)

theorem startWalk_canonical {s : State} (h : MemCanonical s) (core block : Nat) (t : TRef) (hdr : Nat) :
    MemCanonical (startWalk core block t hdr s) := by
  unfold startWalk
  split
  · split
    · exact h
    · dsimp only
      refine canonical_of_mem ?_ (State.post_mem _ _)
      refine canonical_of_mem ?_ (State.setChain_mem _ _)
      split
      · exact writeBytes_canonical h _ _
      · exact h
  · exact canonical_of_mem h (by simp [State.fresh])

theorem storeDone_canonical {s : State} (h : MemCanonical s) (k : Chain) (v : Nat) (head : Option Nat) (go : State → State)
    (hgo : ∀ t, MemCanonical t → MemCanonical (go t)) : MemCanonical (storeDone k v head go s) := by
  have hput : ∀ t : State, MemCanonical t →
      MemCanonical (match head with | some n => t.writeBytes (k.hdr + 20) (bytesOf 4 n) | none => t) := by
    intro t ht
    split
    · exact writeBytes_canonical ht _ _
    · exact ht
  unfold storeDone
  dsimp only
  have hr := agentReach_mem s k.core k.block Spaces.engine (chnDone (s.readLe k.hdr 64)) 8 8 true
  split
  · next t loc mode hh =>
    have ht : MemCanonical t := canonical_of_mem h (hr.1 _ _ _ hh)
    apply hgo
    apply hput
    exact agentPut_canonical ht _ _ _ _
  · next t hh => exact canonical_of_mem h ((State.post_mem _ _).trans (hr.2.1 _ hh))
  · next t c hh =>
    apply hgo
    apply hput
    exact canonical_of_mem h ((by simp : (State.log _ _ _ _ _ _ t).mem = t.mem).trans (hr.2.2 _ _ hh))

theorem stopChain_canonical {s : State} (h : MemCanonical s) (k : Chain) (header : Bool) : MemCanonical (stopChain k header s) :=
  storeDone_canonical h _ _ _ _ (fun _ ht => canonical_of_mem ht (by simp))

theorem runEntry_canonical {s : State} (h : MemCanonical s) (k : Chain) (plan : Except Cause EngPlan) : MemCanonical (runEntry k plan s) := by
  unfold runEntry
  split
  · exact stopChain_canonical h _ _
  · split
    · exact canonical_of_mem h (by simp)
    · have hn : MemCanonical { s with nextId := s.nextId + 1 } := h
      exact canonical_of_mem (enterEng_canonical hn _ _) (State.setChain_mem _ _)

theorem nextEntry_canonical {s : State} (h : MemCanonical s) (k : Chain) : MemCanonical (nextEntry k s) := by
  unfold nextEntry
  dsimp only
  split
  · exact stopChain_canonical h _ _
  · split
    · exact canonical_of_mem h (by simp)
    · have hr := agentReach_mem s k.core k.block Spaces.recordSet (chnSlot (s.readLe k.hdr 64) (chnHead (s.readLe k.hdr 64))) 64 64 false
      split
      · next hh => exact canonical_of_mem h ((State.post_mem _ _).trans (hr.2.1 _ hh))
      · next hh => exact stopChain_canonical (canonical_of_mem h (hr.2.2 _ _ hh)) _ _
      · next t loc _ hh =>
        have ht : MemCanonical t := canonical_of_mem h (hr.1 _ _ _ hh)
        split
        · exact stopChain_canonical ht _ _
        · have hr2 := agentReach_mem t k.core k.block Spaces.recordSet (recPtr (leValue (t.seen k.core loc 64)) 64) 64 64 false
          split
          all_goals first
            | exact runEntry_canonical ht _ _
            | (split
               · next hh => exact canonical_of_mem ht ((State.post_mem _ _).trans (hr2.2.1 _ hh))
               · next hh => exact stopChain_canonical (canonical_of_mem ht (hr2.2.2 _ _ hh)) _ _
               · next hh => exact runEntry_canonical (canonical_of_mem ht (hr2.1 _ _ _ hh)) _ _)

/-! ## Blocks, gangs, modules -/

theorem zeroBlock_canonical {s : State} (h : MemCanonical s) (b : Block) : MemCanonical (zeroBlock b s) := by
  unfold zeroBlock
  exact filter_wf _ h

theorem restoreBlock_canonical {s : State} (h : MemCanonical s) (x : Saved) (b : Block) : MemCanonical (restoreBlock x b s) := by
  unfold restoreBlock
  dsimp only
  refine canonical_of_mem ?_ (recheck_mem _ _)
  exact foldl_write_wf (fun c => scratchBase b.core + b.spBase + c.1) _ (zeroBlock_canonical h b)

theorem restoreFold_mem (ws : List Warp) (x : State × RefMap) : (ws.foldl restoreWarp x).1.mem = x.1.mem := by
  induction ws generalizing x with
  | nil => rfl
  | cons w ws ih => rw [List.foldl_cons, ih, restoreWarp_mem]

theorem restoreGang_canonical {s : State} (h : MemCanonical s) (g : Gang) (x : Saved) : MemCanonical (restoreGang g x s) := by
  unfold restoreGang
  dsimp only
  refine canonical_of_mem (s := (s.blocks.filter (fun b => b.gang == g.uid)).foldl (fun s b => restoreBlock x b s) s)
    (foldl_canonical _ (fun _ _ hs => restoreBlock_canonical hs _ _) _ h) ?_
  rw [settle_mem, satisfyArmed_mem, takeArrivals_mem, foldl_mem _ (fun _ _ => by simp), foldl_mem _ (fun _ _ => by simp),
    foldl_mem _ (fun _ _ => by simp), foldl_mem _ (fun _ _ => foldl_mem _ (fun _ _ => by simp) _ _), foldl_mem _ (fun _ _ => by simp),
    foldl_mem _ (fun _ _ => by simp)]
  split
  · rw [State.modHh_mem, State.modGang_mem, restoreFold_mem, foldl_mem _ (fun _ _ => by simp)]
  · rw [State.modGang_mem, restoreFold_mem, foldl_mem _ (fun _ _ => by simp)]

theorem writeDone_canonical {s : State} (h : MemCanonical s) (die ctx : Nat) (p : DWord) (v : Nat) :
    MemCanonical (writeDone s die ctx p v).1 := by
  unfold writeDone
  have hr := graspAgent_mem s (dieUnit die) die ctx p 4 true
  split
  · exact h
  · split
    · next t loc _ hh =>
      refine canonical_of_mem (writeBytes_canonical (canonical_of_mem h (hr.1 _ _ _ hh)) loc (bytesOf 4 v)) ?_
      simp
    · next hh => exact canonical_of_mem h (hr.2.1 _ hh)
    · next hh => exact canonical_of_mem h ((by simp : (State.log _ _ _ _ _ _ _).mem = _).trans (hr.2.2 _ _ hh))

theorem endLast_canonical {s : State} (h : MemCanonical s) (b : Block) (g : Gang) : MemCanonical (endLast b g s) := by
  have h1 : MemCanonical (match g.spawned with
      | some p => writeDone s g.die g.ctx p (if g.failed then 0xFFFFFFFF else 1)
      | none => (s, true)).1 := by
    split
    · exact writeDone_canonical h _ _ _ _
    · exact h
  have key : ∀ (u : State) (ok : Bool), MemCanonical u → MemCanonical (
      if !ok then u.post (.blockEnd b.uid)
      else
        let s := u.modGang g.uid (fun x => { x with spawned := x.spawned.map (fun _ => 0) })
        match s.task? g.task with
        | none => removeGang g (removeBlock b s)
        | some t =>
          if s.completes g t then
            let x := writeDone s t.die t.ctx (jcDone t.card) (if t.failed || g.failed then jcFailval t.card else jcDoneval t.card)
            if x.2 then finishTask g.task (removeGang g (removeBlock b x.1)) else x.1.post (.blockEnd b.uid)
          else removeGang g (removeBlock b s)) := by
    intro u ok hu
    split
    · exact canonical_of_mem hu (State.post_mem _ _)
    · have h2 := canonical_of_mem hu (State.modGang_mem g.uid (fun x => { x with spawned := x.spawned.map (fun _ => 0) }) u)
      dsimp only
      generalize u.modGang g.uid (fun x => { x with spawned := x.spawned.map (fun _ => 0) }) = v at h2 ⊢
      split
      · exact canonical_of_mem h2 (by simp)
      · next t _ =>
        split
        · have h3 := writeDone_canonical h2 t.die t.ctx (jcDone t.card)
            (if t.failed || g.failed then jcFailval t.card else jcDoneval t.card)
          generalize writeDone v t.die t.ctx (jcDone t.card)
            (if t.failed || g.failed then jcFailval t.card else jcDoneval t.card) = w at h3 ⊢
          split
          · refine canonical_of_mem ?_ (finishTask_mem _ _)
            refine canonical_of_mem ?_ (removeGang_mem _ _)
            exact canonical_of_mem h3 (removeBlock_mem _ _)
          · exact canonical_of_mem h3 (State.post_mem _ _)
        · exact canonical_of_mem h2 (by simp)
  unfold endLast
  exact key _ _ h1

theorem failTask_canonical {s : State} (h : MemCanonical s) (t : Machine.Task) : MemCanonical (failTask s t) := by
  unfold failTask
  split
  · exact h
  · exact writeDone_canonical h _ _ _ _

theorem failTasks_canonical {s : State} (h : MemCanonical s) : MemCanonical (failTasks s) :=
  foldl_canonical _ (fun _ t hs => failTask_canonical hs t) _ h

theorem stopModule_canonical {s : State} (h : MemCanonical s) : MemCanonical (stopModule s) := failTasks_canonical h

theorem collRead_mem (r : Nat) (es : List EngOp) (s : State) : (collRead r es s).1.mem = s.mem := by
  refine foldl_fst_mem _ (fun x e => ?_) es (s, none)
  repeat' first | rfl | split

theorem collWrite_canonical {s : State} (h : MemCanonical s) (l : List (EngOp × List Byte)) : MemCanonical (collWrite l s).1 := by
  refine foldl_canonical_fst (x := (s, none, false)) _ (fun x q hx => ?_) l h
  exact canonical_of_mem (putAll_canonical (x := (x.1, q.1)) hx _) (State.setEng_mem _ _)

theorem writeHalf_canonical {s : State} (h : MemCanonical s) (line half : Nat) (bytes : List (Nat × Byte)) :
    MemCanonical (writeHalf line half bytes s) :=
  foldl_canonical _ (fun _ _ hs => writeBytes_canonical hs _ _) _ h

theorem hostStore_canonical {s : State} (h : MemCanonical s) (line half : Nat) (st : HalfState) (bytes : List (Nat × Byte)) :
    MemCanonical (hostStore line half st bytes s) := by
  unfold hostStore
  extract_lets l
  split
  · exact canonical_of_mem h (by simp)
  · exact writeHalf_canonical h _ _ _

theorem freshLine_canonical {s : State} (h : MemCanonical s) (line : Nat) : MemCanonical (freshLine line s) := by
  unfold freshLine
  dsimp only [State.choice]
  split
  · exact writeBytes_canonical (s := { s with free := s.free + 1 }) h _ _
  · exact h

theorem forgetLine_canonical {s : State} (h : MemCanonical s) (line : Nat) : MemCanonical (forgetLine s line) := by
  unfold forgetLine
  exact writeBytes_canonical (canonical_of_mem h rfl) _ _

theorem unpowered_canonical {s : State} (h : MemCanonical s) : MemCanonical (unpowered s) := h

theorem dieTemp_canonical {s : State} (h : MemCanonical s) (x : Nat × Nat) : MemCanonical (dieTemp s x) := by
  obtain ⟨die, t⟩ := x
  have key : ∀ u : State, MemCanonical u → MemCanonical (
      if t < 115 ∨ u.boot.dead = true then u else ((stopModule u).count 6 die 0).log 0x03 die 0 0 0 die) := by
    intro u hu
    split
    · exact hu
    · exact canonical_of_mem (stopModule_canonical hu) (by simp)
  unfold dieTemp
  refine key _ ?_
  split
  · exact h
  · split
    · exact h
    · exact h

end Sys2Proof.Laws
end

