-- ==== Sys2Proof/Laws/Encoding.lean ====
section
/-! SUPPORT. Words and their fields: one is built from the other, either way, and a word's bytes read back as the word. -/

namespace Sys2Proof.Laws

open Sys2Proof.Machine

theorem toNat_append_add {a b : Nat} (x : BitVec a) (y : BitVec b) : (x ++ y).toNat = x.toNat * 2 ^ b + y.toNat := by
  rw [BitVec.toNat_append, Nat.shiftLeft_eq, ← Nat.shiftLeft_eq, Nat.shiftLeft_add_eq_or_of_lt y.isLt]

/-- The value of a word, from its fields (R39). -/
theorem wordOfFields_toNat (op : BitVec 10) (f : Fields) : (wordOfFields op f).toNat =
    ((((((((((((f.imm.toNat * 2 ^ 5 + f.m.toNat) * 2 ^ 4 + f.ck.toNat) * 2 ^ 4 + f.pk.toNat) * 2 ^ 8 + f.c.toNat) * 2 ^ 8 + f.b.toNat) * 2 ^ 8
      + f.a.toNat) * 2 ^ 8 + f.d.toNat) * 2 ^ 1 + f.neg.toNat) * 2 ^ 3 + f.guard.toNat) * 2 ^ 1 + f.yield.toNat) * 2 ^ 4 + f.stall.toNat)
      * 2 ^ 10 + op.toNat) := by
  unfold wordOfFields
  simp only [toNat_append_add, BitVec.toNat_ofBool]

/-- The fields of a word built from fields. -/
theorem fieldsOfWord_wordOfFields (op : BitVec 10) (f : Fields) : fieldsOfWord (wordOfFields op f) = f := by
  have hw := wordOfFields_toNat op f
  generalize wordOfFields op f = w at hw
  obtain ⟨imm, m, ck, pk, c, b, a, d, neg, guard, yield, stall⟩ := f
  have := imm.isLt; have := m.isLt; have := ck.isLt; have := pk.isLt; have := c.isLt; have := b.isLt; have := a.isLt
  have := d.isLt; have := guard.isLt; have := stall.isLt; have := op.isLt
  have := neg.toNat_lt; have := yield.toNat_lt
  simp only at hw
  simp only [fieldsOfWord, Fields.mk.injEq]
  refine ⟨?_, ?_, ?_, ?_, ?_, ?_, ?_, ?_, ?_, ?_, ?_, ?_⟩
  all_goals first
    | (apply BitVec.eq_of_toNat_eq; simp only [BitVec.extractLsb'_toNat, Nat.shiftRight_eq_div_pow]; omega)
    | (have e : w.toNat / 2 ^ 18 % 2 = neg.toNat := by omega
       simp only [BitVec.getLsbD, Nat.testBit_eq_decide_div_mod_eq, e]; cases neg <;> rfl)
    | (have e : w.toNat / 2 ^ 14 % 2 = yield.toNat := by omega
       simp only [BitVec.getLsbD, Nat.testBit_eq_decide_div_mod_eq, e]; cases yield <;> rfl)

/-- The opcode of a word built with one. -/
theorem opcodeOfWord_wordOfFields (op : BitVec 10) (f : Fields) : opcodeOfWord (wordOfFields op f) = op.toNat := by
  have hw := wordOfFields_toNat op f
  have := op.isLt
  simp only [opcodeOfWord, BitVec.extractLsb'_toNat, Nat.shiftRight_eq_div_pow, hw]
  omega

/-- Adding the next field below the bits from `k + j` up gives the bits from `k` up. -/
theorem slice_below (n k j : Nat) {x : Nat} (h : x = n / 2 ^ (k + j)) : x * 2 ^ j + n / 2 ^ k % 2 ^ j = n / 2 ^ k := by
  rw [h, Nat.pow_add, ← Nat.div_div_eq_div_mul, Nat.mul_comm, Nat.div_add_mod]

theorem bit_toNat (w : InsnWord) (k : Nat) : (w.getLsbD k).toNat = w.toNat / 2 ^ k % 2 ^ 1 := by
  have : w.toNat / 2 ^ k % 2 = 0 ∨ w.toNat / 2 ^ k % 2 = 1 := Nat.mod_two_eq_zero_or_one _
  simp only [BitVec.getLsbD, Nat.testBit_eq_decide_div_mod_eq, Nat.pow_one]
  rcases this with h | h <;> rw [h] <;> rfl

/-- A word is built from its own fields. -/
theorem wordOfFields_fieldsOfWord (w : InsnWord) : wordOfFields (w.extractLsb' 0 10) (fieldsOfWord w) = w := by
  apply BitVec.eq_of_toNat_eq
  rw [wordOfFields_toNat]
  simp only [fieldsOfWord, BitVec.extractLsb'_toNat, Nat.shiftRight_eq_div_pow, bit_toNat]
  have hw := w.isLt
  generalize w.toNat = n at *
  have h := slice_below n 59 5 (x := n / 2 ^ 64 % 2 ^ 32) (by omega)
  have h := slice_below n 55 4 h
  have h := slice_below n 51 4 h
  have h := slice_below n 43 8 h
  have h := slice_below n 35 8 h
  have h := slice_below n 27 8 h
  have h := slice_below n 19 8 h
  have h := slice_below n 18 1 h
  have h := slice_below n 15 3 h
  have h := slice_below n 14 1 h
  have h := slice_below n 10 4 h
  have h := slice_below n 0 10 h
  rw [h, Nat.pow_zero, Nat.div_one]

/-- The value of the n low bytes of a value (R5). -/
theorem leValue_bytesOf (n x : Nat) : leValue (bytesOf n x) = x % 256 ^ n := by
  induction n generalizing x with
  | zero => simp [bytesOf, leValue, Nat.mod_one]
  | succ n ih =>
    rw [bytesOf, leValue, ih, BitVec.toNat_ofNat]
    conv_rhs => rw [Nat.pow_succ', Nat.mod_mul]

theorem bytesOf_length (n x : Nat) : (bytesOf n x).length = n := by
  induction n generalizing x with
  | zero => rfl
  | succ n ih => simp [bytesOf, ih]

/-- Decoding the bytes of a word. -/
theorem decode_bytesOf (w : InsnWord) (rest : List Byte) : decode (bytesOf 12 w.toNat ++ rest) =
    match decodeWord w with | .ok i => .ok (i, rest) | .error e => .error e := by
  have hl := bytesOf_length 12 w.toNat
  unfold decode
  rw [if_neg (by simp [hl]), List.take_left' hl, List.drop_left' hl, leValue_bytesOf]
  have : BitVec.ofNat 96 (w.toNat % 256 ^ 12) = w := by
    apply BitVec.eq_of_toNat_eq; have := w.isLt; simp only [BitVec.toNat_ofNat]; omega
  rw [this] <;> cases decodeWord w <;> rfl

/-- The words of a row decode to the row's instruction. -/
theorem instrOf_wordOf (i : Instr) (op : Nat) (f : Fields) (h : Forms.wordOf i = some (op, f)) (hr : Forms.rowOk i = true) :
    op < 1024 ∧ instrOf op f = some i := by
  have at207 : instrOf 0x207 f = some (if Forms.m3 f then .atomCas f else .atom f) := rfl
  have at20A : instrOf 0x20A f = some (match f.m.toNat / 8 with
    | 0 => .cctlInv1 f | 1 => .cctlInv1all f | 2 => .cctlWb2 f | _ => .cctlEvict2 f) := rfl
  have at286 : instrOf 0x286 f = some (if Forms.m3 f then .obarrHold f else .obarr f) := rfl
  have at287 : instrOf 0x287 f = some (if Forms.m3 f then .obexpRls f else .obexp f) := rfl
  cases i
  all_goals first
    | (simp only [Forms.wordOf] at h; cases h; exact ⟨by decide, rfl⟩)
    | (simp only [Forms.wordOf, reduceCtorEq] at h; done)
    | skip
  all_goals
    simp only [Forms.wordOf] at h
    cases h
    refine ⟨by decide, ?_⟩
    simp only [Forms.rowOk, Bool.not_eq_true', beq_iff_eq] at hr
    first
      | (rw [at207, hr]; rfl)
      | (rw [at20A]; simp only [hr])
      | (rw [at286, hr]; rfl)
      | (rw [at287, hr]; rfl)

/-- An instruction that decodes has the fields it was decoded from. -/
theorem wordOf_instrOf (op : Nat) (f : Fields) (i : Instr) (h : instrOf op f = some i) : Forms.wordOf i = some (op, f) := by
  unfold instrOf at h
  split at h
  all_goals first
    | (cases h; done)
    | (cases h; rfl)
    | (split at h <;> cases h <;> rfl)

end Sys2Proof.Laws
end

