-- ==== Sys2Proof/Laws/Ends.lean ====
section
/-! SUPPORT. Ending threads and gangs changes no core's registers and adds no thread. -/

namespace Sys2Proof.Laws

open Sys2Proof.Machine

/-! ## What ending threads leaves -/

/-- Every core is what it was, and no thread is new. -/
def Quiet (s t : State) : Prop := t.cores = s.cores ∧ ∀ x ∈ t.threads, ∃ y ∈ s.threads, y.ref = x.ref

theorem Quiet.refl (s : State) : Quiet s s := ⟨rfl, fun x h => ⟨x, h, rfl⟩⟩
theorem Quiet.trans {s t u : State} (h1 : Quiet s t) (h2 : Quiet t u) : Quiet s u :=
  ⟨h2.1.trans h1.1, fun x hx => by obtain ⟨y, hy, e⟩ := h2.2 x hx; obtain ⟨z, hz, e'⟩ := h1.2 y hy; exact ⟨z, hz, e'.trans e⟩⟩
theorem Quiet.of_eq {s t : State} (h1 : t.cores = s.cores) (h2 : t.threads = s.threads) : Quiet s t :=
  ⟨h1, fun x hx => ⟨x, h2 ▸ hx, rfl⟩⟩
theorem Quiet.foldl {α : Type} (f : State → α → State) (h : ∀ s x, Quiet s (f s x)) (l : List α) (s : State) : Quiet s (l.foldl f s) := by
  induction l generalizing s with
  | nil => exact Quiet.refl s
  | cons x l ih => exact (h s x).trans (ih _)
theorem Quiet.map {s t : State} (f : Thread → Thread) (hf : ∀ x, (f x).ref = x.ref) (h1 : t.cores = s.cores) (h2 : t.threads = s.threads.map f) :
    Quiet s t :=
  ⟨h1, fun x hx => by rw [h2] at hx; obtain ⟨y, hy, e⟩ := List.mem_map.mp hx; exact ⟨y, hy, by rw [← e, hf]⟩⟩
theorem Quiet.filter {s t : State} (p : Thread → Bool) (h1 : t.cores = s.cores) (h2 : t.threads = s.threads.filter p) : Quiet s t :=
  ⟨h1, fun x hx => by rw [h2] at hx; exact ⟨x, (List.mem_filter.mp hx).1, rfl⟩⟩
/-- Then a change that leaves the cores and the threads. -/
theorem Quiet.then_eq {s u t : State} (h : Quiet s u) (h1 : t.cores = u.cores) (h2 : t.threads = u.threads) : Quiet s t :=
  h.trans (.of_eq h1 h2)
theorem Quiet.then_map {s u t : State} (h : Quiet s u) {f : Thread → Thread} (h1 : t.cores = u.cores) (h2 : t.threads = u.threads.map f)
    (hf : ∀ x, (f x).ref = x.ref) : Quiet s t :=
  h.trans (.map f hf h1 h2)

theorem finish_ref (n : Nat) (t : Thread) : (Thread.finish n t).ref = t.ref := by
  unfold Thread.finish Thread.advance; dsimp only; repeat' first | rfl | split
theorem post_quiet (e : Instr) (s : State) : Quiet s (s.post e) := .of_eq (by simp) (by simp)
theorem postAll_quiet (es : List Instr) (s : State) : Quiet s (s.postAll es) := Quiet.foldl _ (fun s e => post_quiet e s) es s
theorem progress_quiet (g : Nat) (s : State) : Quiet s (s.progress g) := .of_eq rfl rfl
theorem progressOf_quiet (th : Thread) (s : State) : Quiet s (s.progressOf th) := by
  unfold State.progressOf; split
  · exact progress_quiet _ _
  · exact .refl _
theorem progressWarp_quiet (core slot : Nat) (s : State) : Quiet s (progressWarp core slot s) := by
  unfold progressWarp; split
  · exact progress_quiet _ _
  · exact .refl _
theorem modThread_quiet (r : TRef) (f : Thread → Thread) (hf : ∀ x, (f x).ref = x.ref) (s : State) : Quiet s (s.modThread r f) :=
  .map (fun t => if t.ref = r then f t else t) (fun x => by split <;> simp [hf]) rfl rfl
theorem track_quiet (r : TRef) (x : Tracked) (s : State) : Quiet s (s.track r x) :=
  (modThread_quiet r (fun th => { th with tracked := th.tracked ++ [x] }) (fun _ => rfl) s).trans (post_quiet _ _)
theorem completeColl_quiet (core slot : Nat) (c : Collective) (s : State) : Quiet s (completeColl core slot c s) := by
  unfold completeColl
  refine (progressWarp_quiet core slot s).trans (Quiet.foldl _ (fun s p => ?_) _ _)
  dsimp only [State.fresh]
  have h1 : Quiet s ({ s with nextId := s.nextId + 1 } : State) := .of_eq rfl rfl
  have h2 := modThread_quiet ⟨core, slot, p.lane⟩ (fun t => { t.finish (s.clock + 1) with age := s.clock + 1 }) (finish_ref (s.clock + 1))
    { s with nextId := s.nextId + 1 }
  split
  · exact h1.trans h2
  · refine (h1.trans h2).trans ?_
    exact track_quiet _ _ _
theorem finishSome_quiet (c : Thread → Prop) [DecidablePred c] (n : Nat) (s : State) :
    Quiet s { s with threads := s.threads.map (fun t => if c t then { t.finish n with age := n } else t) } := by
  refine .map _ (fun x => ?_) rfl rfl
  dsimp only
  split
  · exact finish_ref n x
  · rfl
theorem settleRejoin_quiet (core slot : Nat) (s : State) : Quiet s (settleRejoin core slot s) := by
  unfold settleRejoin
  extract_lets w live go freed rest s1 s2
  have h1 : Quiet s s1 := .of_eq rfl rfl
  have h2 : Quiet s s2 := by
    show Quiet s (if (freed == 0) = true then s1 else progressWarp core slot s1)
    split
    · exact h1
    · exact h1.trans (progressWarp_quiet _ _ _)
  exact h2.trans (finishSome_quiet _ (s2.clock + 1) s2)
theorem settleColls_quiet (core slot : Nat) (s : State) : Quiet s (settleColls core slot s) := by
  unfold settleColls
  exact (Quiet.of_eq rfl rfl).trans (Quiet.foldl _ (fun s c => completeColl_quiet _ _ c s) _ _)
theorem settleWarp_quiet (core slot : Nat) (s : State) : Quiet s (settleWarp core slot s) :=
  (settleRejoin_quiet _ _ s).trans (settleColls_quiet _ _ _)
theorem postOnce_quiet (e : Instr) (s : State) : Quiet s (s.postOnce e) := by
  unfold State.postOnce; split
  · exact .refl _
  · exact post_quiet _ _
theorem wakeAdmission_quiet (die : Nat) (s : State) : Quiet s (wakeAdmission die s) :=
  Quiet.foldl _ (fun s _ => postOnce_quiet _ s) _ _
theorem dropWarp_quiet (core slot : Nat) (s : State) : Quiet s (dropWarp core slot s) := by
  unfold dropWarp
  refine Quiet.then_eq (u := if slot ≥ 64 then s else wakeAdmission (core / 256) s) ?_ rfl rfl
  split
  · exact .refl _
  · exact wakeAdmission_quiet _ _
theorem checkBarrier_quiet (level own id : Nat) (s : State) : Quiet s (checkBarrier level own id s) := by
  unfold checkBarrier
  dsimp only
  generalize (level == 2 && _ : Bool) = gone
  split
  · exact .refl _
  · have h := Quiet.foldl (fun s t => s.progressOf t) (fun s t => progressOf_quiet t s) (s.threads.filter (s.atLevel level own)) s
    split
    · refine Quiet.then_map h rfl rfl (fun x => ?_)
      split
      · exact finish_ref _ x
      · rfl
    · refine .trans ?_ (postAll_quiet _ _)
      refine Quiet.then_map h rfl rfl (fun x => ?_)
      split <;> rfl
theorem checkBarriersOf_quiet (th : Thread) (s : State) : Quiet s (checkBarriersOf th s) := by
  unfold checkBarriersOf
  have h := Quiet.foldl (fun s i => checkBarrier 0 th.block i s) (fun s i => checkBarrier_quiet _ _ _ s) (List.range 16) s
  dsimp only
  split
  · exact h
  · exact (h.trans (Quiet.foldl _ (fun s i => checkBarrier_quiet _ _ _ s) _ _)).trans
      (Quiet.foldl _ (fun s i => checkBarrier_quiet _ _ _ s) _ _)
theorem postHeldEnds_quiet (h : Nat) (s : State) : Quiet s (postHeldEnds h s) := by
  unfold postHeldEnds
  repeat' first | exact .refl _ | exact postAll_quiet _ _ | split
theorem gangEmptied_quiet (g : Nat) (s : State) : Quiet s (gangEmptied g s) := by
  unfold gangEmptied
  split
  · exact .refl _
  · split
    · exact .refl _
    · split
      · exact .refl _
      · dsimp only
        split
        · unfold startDetach
          split
          · exact .refl _
          · refine .trans ?_ (post_quiet _ _)
            refine .trans ?_ (postAll_quiet _ _)
            exact .of_eq rfl rfl
        · refine .trans (.trans ?_ (postHeldEnds_quiet _ _)) (postAll_quiet _ _)
          exact .of_eq rfl rfl
        · exact .refl _
theorem dropOwn_quiet (th : Thread) (s : State) : Quiet s (th.dropOwn s) := by
  unfold Thread.dropOwn; split
  · exact .of_eq rfl rfl
  · exact .refl _
theorem exitThread_quiet (r : TRef) (s : State) : Quiet s (exitThread r s) := by
  unfold exitThread
  split
  · exact .refl _
  · next th _ =>
    extract_lets bit s1 s2 s3 s4 s5 s6
    have h1 : Quiet s s1 := .filter _ rfl rfl
    have h2 : Quiet s s2 := h1.trans (dropOwn_quiet th s1)
    have h3 : Quiet s s3 := h2.trans (.of_eq rfl rfl)
    clear_value s3
    have h4 : Quiet s s4 := h3.trans (progressOf_quiet th s3)
    clear_value s4
    have h5 : Quiet s s5 := by
      show Quiet s (if (s4.threadsOfWarp r.core r.slot).isEmpty then dropWarp r.core r.slot s4 else s4)
      split
      · exact h4.trans (dropWarp_quiet _ _ _)
      · exact h4
    clear_value s5
    have h6 : Quiet s s6 := h5.trans (checkBarriersOf_quiet th s5)
    clear_value s6
    split
    · exact h6
    · split
      · exact (h6.trans (post_quiet _ _)).trans (gangEmptied_quiet _ _)
      · exact h6
theorem endUnstarted_quiet (g : Nat) (s : State) : Quiet s (endUnstarted g s) := by
  unfold endUnstarted
  dsimp only
  split
  · exact .refl _
  · refine .trans (.trans ?_ (postAll_quiet _ _)) (gangEmptied_quiet _ _)
    exact .of_eq rfl rfl
theorem dropSaved_quiet (g : Nat) (s : State) : Quiet s (dropSaved g s) := by
  unfold dropSaved; repeat' first | exact .refl _ | exact .of_eq rfl rfl | split
theorem endGang_quiet (g : Nat) (s : State) : Quiet s (endGang g s) := by
  unfold endGang
  refine .trans ?_ (endUnstarted_quiet g _)
  refine .trans ?_ (Quiet.foldl _ (fun s r => exitThread_quiet r s) _ _)
  exact (dropSaved_quiet g s).then_eq rfl rfl

end Sys2Proof.Laws
end

