-- ==== Sys2Proof/Laws/Registers.lean ====
section
/-! SUPPORT. What a register, a predicate and a uniform register read as after a write of one of them. -/

namespace Sys2Proof.Laws

open Sys2Proof.Machine

theorem find_add (reg due clock q : Nat) (old : Word) (l : List Pending) :
    (addPending reg due old l).find? (fun p => p.reg == q && decide (clock < p.due)) =
      if q = reg then (if clock < due then some ⟨reg, due, old⟩ else none)
      else l.find? (fun p => p.reg == q && decide (clock < p.due)) := by
  unfold addPending
  rw [List.find?_cons]
  by_cases hq : q = reg
  · subst hq
    by_cases hc : clock < due
    · simp [hc]
    · simp only [beq_self_eq_true, hc, decide_false, Bool.and_false, if_true, if_false]
      rw [List.find?_eq_none]
      intro p hp
      have := (List.mem_filter.mp hp).2
      simp only [bne_iff_ne, ne_eq] at this
      simp [this]
  · have : (reg == q) = false := by simp [Ne.symm hq]
    simp only [this, Bool.false_and, hq, if_false]
    induction l with
    | nil => rfl
    | cons p l ih =>
      rw [List.filter_cons]
      by_cases hp : p.reg = reg
      · have e1 : (p.reg != reg) = false := by simp [hp]
        have e2 : (p.reg == q) = false := by simp [hp, Ne.symm hq]
        rw [e1, List.find?_cons, e2]; simpa using ih
      · have e1 : (p.reg != reg) = true := by simp [hp]
        rw [e1, if_pos rfl, List.find?_cons, List.find?_cons, ih]

theorem writeW_eq {th : Thread} {due r : Nat} {v : Word} (h : r < 255) : th.writeW due r v =
    { th with w := th.w.set r v, pend := addPending r due (th.w.getD r 0) th.pend, marks := dropMark r th.marks } := if_neg (by omega)
theorem writeW_none {th : Thread} {due r : Nat} {v : Word} (h : ¬r < 255) : th.writeW due r v = th := if_pos (by omega)
theorem writeP_eq {th : Thread} {due k : Nat} {b : Bool} (h : k < 7) : th.writeP due k b =
    { th with p := th.p.set k b, pend := addPending (256 + k) due (if th.p.getD k false then 1 else 0) th.pend } := if_neg (by omega)
theorem writeP_none {th : Thread} {due k : Nat} {b : Bool} (h : ¬k < 7) : th.writeP due k b = th := if_pos (by omega)

/-! A write leaves every other register as it reads. -/
theorem readW_writeW_ne (th : Thread) (clock n pos due : Nat) (v : Word) {r q : Nat} (h : q ≠ r) :
    (th.writeW due r v).readW clock n pos q = th.readW clock n pos q := by
  by_cases hr : r < 255
  · have e : (th.writeW due r v).early? clock q = th.early? clock q := by
      rw [writeW_eq hr]; unfold Thread.early?; rw [find_add, if_neg h]
    unfold Thread.readW
    rw [e, writeW_eq hr]
    simp [List.getElem?_set_ne (Ne.symm h)]
  · rw [writeW_none hr]
theorem readP_writeP_ne (th : Thread) (clock n pos due : Nat) (b : Bool) {r q : Nat} (h : q ≠ r) :
    (th.writeP due r b).readP clock n pos q = th.readP clock n pos q := by
  by_cases hr : r < 7
  · have e : (th.writeP due r b).early? clock (256 + q) = th.early? clock (256 + q) := by
      rw [writeP_eq hr]; unfold Thread.early?; rw [find_add, if_neg (by omega)]
    unfold Thread.readP
    rw [e, writeP_eq hr]
    simp [List.getElem?_set_ne (Ne.symm h)]
  · rw [writeP_none hr]
theorem readU_writeU_ne (w : Warp) (clock n pos due : Nat) (v : Word) {r q : Nat} (h : q ≠ r) :
    (w.writeU due r v).readU clock n pos q = w.readU clock n pos q := by
  unfold Warp.writeU
  split
  · rfl
  · unfold Warp.readU
    dsimp only
    rw [find_add, if_neg h]
    simp [List.getElem?_set_ne (Ne.symm h)]
theorem readP_writeW (th : Thread) (clock n pos due r q : Nat) (v : Word) :
    (th.writeW due r v).readP clock n pos q = th.readP clock n pos q := by
  by_cases hr : r < 255
  · have e : (th.writeW due r v).early? clock (256 + q) = th.early? clock (256 + q) := by
      rw [writeW_eq hr]; unfold Thread.early?; rw [find_add, if_neg (by omega)]
    unfold Thread.readP
    rw [e, writeW_eq hr]
  · rw [writeW_none hr]
theorem readW_writeP (th : Thread) (clock n pos due r q : Nat) (b : Bool) :
    (th.writeP due r b).readW clock n pos q = th.readW clock n pos q := by
  by_cases hr : r < 7
  · unfold Thread.readW
    split
    · rfl
    · have e : (th.writeP due r b).early? clock q = th.early? clock q := by
        rw [writeP_eq hr]; unfold Thread.early?; rw [find_add, if_neg (by omega)]
      rw [e, writeP_eq hr]
  · rw [writeP_none hr]

end Sys2Proof.Laws
end

