-- ==== Sys2Proof/Laws/Frames.lean ====
section
/-! SUPPORT. What the effects and the issue of a word of classes 0x0 to 0x5 leave as it was. -/

namespace Sys2Proof.Laws

open Sys2Proof.Machine Sys2Proof.Safety

/-- What may differ in a core: nothing at level 0; a trap's registers at level 1; ctl.fmterr too at level 2. -/
def CoreKept (m : Nat) (k0 k : Core) : Prop := TrapOnly k0 k ∧ (m = 0 → k = k0) ∧ (m ≤ 1 → k.fmterr = k0.fmterr)

theorem CoreKept.refl (m : Nat) (k : Core) : CoreKept m k k := ⟨rfl, fun _ => rfl, fun _ => rfl⟩

theorem CoreKept.trans {m : Nat} {a b c : Core} (h1 : CoreKept m a b) (h2 : CoreKept m b c) : CoreKept m a c := by
  refine ⟨?_, fun h => (h2.2.1 h).trans (h1.2.1 h), fun h => (h2.2.2 h).trans (h1.2.2 h)⟩
  have a1 := h1.1; have a2 := h2.1
  unfold TrapOnly at *
  rw [a1] at a2
  rw [a2]

/-- From s to t, thread r keeps every register outside W and every predicate outside P; its warps, the other threads and cores and the rest are
as they were. -/
structure Frame (W P : Nat → Prop) (m : Nat) (r : TRef) (s t : State) : Prop where
  thr : ∀ th, s.thread? r = some th → ∃ u, t.thread? r = some u ∧ ThreadPlaceSame u th ∧
    (∀ q clock n pos, ¬W q → u.readW clock n pos q = th.readW clock n pos q) ∧
    (∀ k clock n pos, ¬P k → u.readP clock n pos k = th.readP clock n pos k)
  oth : OthersSame r s t
  warps : t.warps = s.warps
  cores : OtherCoresSame r.core s t
  own : CoreKept m (s.core r.core) (t.core r.core)
  rest : RestSame s t

theorem restSame_trans {s t u : State} (h1 : RestSame s t) (h2 : RestSame t u) : RestSame s u := by
  unfold RestSame at *
  simp only [h2, h1, and_self]

variable {W P : Nat → Prop} {m : Nat} {r : TRef}

theorem Frame.trans {s t u : State} (h1 : Frame W P m r s t) (h2 : Frame W P m r t u) : Frame W P m r s u := by
  refine ⟨fun th h => ?_, fun q hq => (h2.oth q hq).trans (h1.oth q hq), h2.warps.trans h1.warps,
    fun k hk => (h2.cores k hk).trans (h1.cores k hk), h1.own.trans h2.own, restSame_trans h1.rest h2.rest⟩
  obtain ⟨v, hv, a, b, c⟩ := h1.thr th h
  obtain ⟨w, hw, a', b', c'⟩ := h2.thr v hv
  refine ⟨w, hw, ?_, fun q cl n pos h => (b' q cl n pos h).trans (b q cl n pos h), fun q cl n pos h => (c' q cl n pos h).trans (c q cl n pos h)⟩
  obtain ⟨x1, x2, x3, x4, x5, x6⟩ := a
  obtain ⟨y1, y2, y3, y4, y5, y6⟩ := a'
  exact ⟨y1.trans x1, y2.trans x2, y3.trans x3, y4.trans x4, y5.trans x5, y6.trans x6⟩

theorem Frame.of_eq {s t : State} (h1 : t.threads = s.threads) (h2 : t.warps = s.warps) (h3 : t.cores = s.cores) (h4 : RestSame s t) : Frame W P m r s t := by
  refine ⟨fun th h => ⟨th, ?_, ⟨rfl, rfl, rfl, rfl, rfl, rfl⟩, fun _ _ _ _ _ => rfl, fun _ _ _ _ _ => rfl⟩, fun q _ => ?_, h2, fun k _ => ?_, ?_, h4⟩
  · unfold State.thread? at *; rw [h1]; exact h
  · unfold State.thread?; rw [h1]
  · unfold State.core; rw [h3]
  · unfold State.core; rw [h3]; exact .refl _ _

theorem Frame.modThread (s : State) (g : Thread → Thread) (hr : ∀ t, (g t).ref = t.ref)
    (h : ∀ th, ThreadPlaceSame (g th) th ∧
      (∀ q clock n pos, ¬W q → (g th).readW clock n pos q = th.readW clock n pos q) ∧
      (∀ k clock n pos, ¬P k → (g th).readP clock n pos k = th.readP clock n pos k)) : Frame W P m r s (s.modThread r g) := by
  refine ⟨fun th ht => ⟨g th, ?_, h th⟩, fun q hq => thread?_modThread_ne s hr hq, rfl, fun _ _ => rfl, .refl _ _, ?_⟩
  · rw [thread?_modThread s hr, ht]; rfl
  · exact (by repeat' constructor)

theorem Frame.retire (f : Fields) (s : State) : Frame W P m r s (retire r f s) := by
  have h := Frame.modThread (W := W) (P := P) (m := m) (r := r) s (fun t => t.advance.stalled s.clock f) (fun t => by
    unfold Thread.advance Thread.stalled; dsimp only; repeat' first | rfl | split) (fun th => by
    unfold Thread.advance Thread.stalled; dsimp only
    refine ⟨?_, fun q cl n pos _ => ?_, fun q cl n pos _ => ?_⟩
    · repeat' first | exact ⟨rfl, rfl, rfl, rfl, rfl, rfl⟩ | split
    · repeat' first | rfl | split
    · repeat' first | rfl | split)
  exact h.trans (Frame.of_eq rfl rfl rfl (by repeat' constructor))

theorem Frame.post (e : Instr) (s : State) : Frame W P m r s (s.post e) :=
  Frame.of_eq (by simp) (by simp) (by simp) (by simp [RestSame])

theorem Frame.track (s : State) (x : Tracked) : Frame W P m r s (s.track r x) :=
  (Frame.modThread s (fun th => { th with tracked := th.tracked ++ [x] }) (fun _ => rfl) (fun _ => ⟨⟨rfl, rfl, rfl, rfl, rfl, rfl⟩, fun _ _ _ _ _ => rfl, fun _ _ _ _ _ => rfl⟩)).trans (Frame.post _ _)

theorem core_id (s : State) (c : Nat) : (s.core c).id = c := by
  unfold State.core
  cases h : s.cores.find? (fun k => k.id == c) with
  | none => rfl
  | some k => have := List.find?_some h; simpa using this

theorem Frame.modCore (s : State) (g : Core → Core) (h : ∀ k, k.id = r.core → CoreKept m k { g k with id := r.core }) : Frame W P m r s (s.modCore r.core g) := by
  refine ⟨fun th ht => ⟨th, ?_, ⟨rfl, rfl, rfl, rfl, rfl, rfl⟩, fun _ _ _ _ _ => rfl, fun _ _ _ _ _ => rfl⟩, fun q _ => ?_, ?_, fun k hk => core_modCore_ne hk _ _, ?_, ?_⟩
  · unfold State.thread? at *; simpa using ht
  · unfold State.thread?; simp
  · simp
  · rw [core_modCore]; exact h _ (core_id _ _)
  · exact (by simp [RestSame])

theorem Frame.setFmterr (s : State) (b : Bool) : Frame W P 2 r s (setFmterr r.core b s) := by
  unfold Sys2Proof.Machine.setFmterr
  split
  · exact Frame.modCore s _ (fun k hk => ⟨by rw [← hk]; rfl, fun h => (nomatch h), fun h => absurd h (by decide)⟩)
  · exact Frame.of_eq rfl rfl rfl (by repeat' constructor)

theorem Frame.raiseTrap (hm : 1 ≤ m) {s : State} {th : Thread} (i : TrapInfo) (hs : r.slot ≠ 64) (hth : s.thread? r = some th) :
    Frame W P m r (th.dropOwn s) (raiseTrap r i s) := by
  unfold Sys2Proof.Machine.raiseTrap
  rw [hth]
  dsimp only
  have h1 : Frame W P m r (th.dropOwn s) ((th.dropOwn s).modThread r (Thread.stopped (s.clock + 1))) :=
    Frame.modThread _ _ (fun _ => by unfold Thread.stopped Thread.replay; split <;> rfl) (fun _ => by
      unfold Thread.stopped Thread.replay
      split <;> exact ⟨⟨rfl, rfl, rfl, rfl, rfl, rfl⟩, fun _ _ _ _ _ => rfl, fun _ _ _ _ _ => rfl⟩)
  generalize (th.dropOwn s).modThread r (Thread.stopped (s.clock + 1)) = s1 at h1 ⊢
  rw [if_neg hs]
  have h2 : Frame W P m r (th.dropOwn s) (if s1.issue.cur = r then { s1 with issue := { s1.issue with paired := false } } else s1) := by
    split
    · exact h1.trans (Frame.of_eq rfl rfl rfl (by repeat' constructor))
    · exact h1
  generalize (if s1.issue.cur = r then ({ s1 with issue := { s1.issue with paired := false } } : State) else s1) = s2 at h2 ⊢
  split
  · split
    · exact h2.trans (Frame.modCore _ _ (fun k hk => ⟨by rw [← hk]; rfl, fun h => by omega, fun h => rfl⟩))
    · exact h2
  · exact Frame.trans (h2.trans (Frame.modCore _ (fun k => { recordTrap th i k with stopped := some s2.clock }) (fun k hk => ⟨by rw [← hk]; rfl, fun h => by omega, fun h => rfl⟩))) (Frame.post _ _)

theorem writeW_readP (th : Thread) (due : Nat) (q : Nat × Word) : ∀ k clock n pos, (th.writeW due q.1 q.2).readP clock n pos k = th.readP clock n pos k :=
  fun k clock n pos => by apply readP_writeW

theorem writeW_place (th : Thread) (due r : Nat) (v : Word) : ThreadPlaceSame (th.writeW due r v) th ∧ (th.writeW due r v).ref = th.ref := by
  by_cases h : r < 255
  · rw [writeW_eq h]; exact ⟨⟨rfl, rfl, rfl, rfl, rfl, rfl⟩, rfl⟩
  · rw [writeW_none h]; exact ⟨⟨rfl, rfl, rfl, rfl, rfl, rfl⟩, rfl⟩

theorem writeP_place (th : Thread) (due r : Nat) (v : Bool) : ThreadPlaceSame (th.writeP due r v) th ∧ (th.writeP due r v).ref = th.ref := by
  by_cases h : r < 7
  · rw [writeP_eq h]; exact ⟨⟨rfl, rfl, rfl, rfl, rfl, rfl⟩, rfl⟩
  · rw [writeP_none h]; exact ⟨⟨rfl, rfl, rfl, rfl, rfl, rfl⟩, rfl⟩

theorem threadPlaceSame_trans {a b c : Thread} (y : ThreadPlaceSame c b) (x : ThreadPlaceSame b a) : ThreadPlaceSame c a := by
  obtain ⟨x1, x2, x3, x4, x5, x6⟩ := x
  obtain ⟨y1, y2, y3, y4, y5, y6⟩ := y
  exact ⟨y1.trans x1, y2.trans x2, y3.trans x3, y4.trans x4, y5.trans x5, y6.trans x6⟩

theorem foldW (due : Nat) (ws : List (Nat × Word)) (th : Thread) (hW : ∀ x ∈ ws, x.1 < 255 → W x.1) :
    let u := ws.foldl (fun th q => th.writeW due q.1 q.2) th
    ThreadPlaceSame u th ∧ u.ref = th.ref ∧ (∀ q clock n pos, ¬W q → u.readW clock n pos q = th.readW clock n pos q) ∧
      (∀ k clock n pos, u.readP clock n pos k = th.readP clock n pos k) := by
  induction ws generalizing th with
  | nil => exact ⟨⟨rfl, rfl, rfl, rfl, rfl, rfl⟩, rfl, fun _ _ _ _ _ => rfl, fun _ _ _ _ => rfl⟩
  | cons x ws ih =>
    rw [List.foldl_cons]
    obtain ⟨a, b, c, d⟩ := ih (th.writeW due x.1 x.2) (fun y hy => hW y (List.mem_cons_of_mem _ hy))
    have p := writeW_place th due x.1 x.2
    refine ⟨threadPlaceSame_trans a p.1, b.trans p.2, fun q cl n pos hq => (c q cl n pos hq).trans ?_, fun k cl n pos => (d k cl n pos).trans (writeW_readP th due x k cl n pos)⟩
    by_cases hx : x.1 < 255
    · exact readW_writeW_ne th cl n pos due x.2 (fun e => hq (by rw [e]; exact hW x List.mem_cons_self hx))
    · rw [writeW_none hx]

theorem foldP (due : Nat) (ps : List (Nat × Bool)) (th : Thread) (hP : ∀ x ∈ ps, x.1 < 7 → P x.1) :
    let u := ps.foldl (fun th q => th.writeP due q.1 q.2) th
    ThreadPlaceSame u th ∧ u.ref = th.ref ∧ (∀ k clock n pos, ¬P k → u.readP clock n pos k = th.readP clock n pos k) ∧
      (∀ q clock n pos, u.readW clock n pos q = th.readW clock n pos q) := by
  induction ps generalizing th with
  | nil => exact ⟨⟨rfl, rfl, rfl, rfl, rfl, rfl⟩, rfl, fun _ _ _ _ _ => rfl, fun _ _ _ _ => rfl⟩
  | cons x ws ih =>
    rw [List.foldl_cons]
    obtain ⟨a, b, c, d⟩ := ih (th.writeP due x.1 x.2) (fun y hy => hP y (List.mem_cons_of_mem _ hy))
    have p := writeP_place th due x.1 x.2
    refine ⟨threadPlaceSame_trans a p.1, b.trans p.2, fun q cl n pos hq => (c q cl n pos hq).trans ?_, fun k cl n pos => (d k cl n pos).trans ((by apply readW_writeP))⟩
    by_cases hx : x.1 < 7
    · exact readP_writeP_ne th cl n pos due x.2 (fun e => hq (by rw [e]; exact hP x List.mem_cons_self hx))
    · rw [writeP_none hx]

theorem Frame.write {c : Ctx} {ws : List (Nat × Word)} {ps : List (Nat × Bool)} (hr : c.r = r) (hW : ∀ x ∈ ws, x.1 < 255 → W x.1)
    (hP : ∀ x ∈ ps, x.1 < 7 → P x.1) : Frame W P m r c.s (c.write ws ps) := by
  unfold Ctx.write
  dsimp only
  rw [hr]
  refine Frame.modThread _ _ (fun t => ?_) (fun t => ?_)
  · exact (foldP _ ps _ hP).2.1.trans (foldW _ ws t hW).2.1
  · obtain ⟨a, b, cc, d⟩ := foldW (c.s.clock + (Forms.latency c.op c.f).getD 1) ws t hW
    obtain ⟨a', b', c', d'⟩ := foldP (c.s.clock + (Forms.latency c.op c.f).getD 1) ps (ws.foldl (fun th q => th.writeW (c.s.clock + (Forms.latency c.op c.f).getD 1) q.1 q.2) t) hP
    exact ⟨threadPlaceSame_trans a' a, fun q cl n pos hq => (d' q cl n pos).trans (cc q cl n pos hq), fun k cl n pos hk => (c' k cl n pos hk).trans (d k cl n pos)⟩

/-- What the effect of a word of these classes comes to. -/
def ResFrame (W P : Nat → Prop) (m : Nat) (c : Ctx) : Res → Prop
  | .ok t => Frame W P m c.r c.s t
  | .trap _ => 1 ≤ m ∧ c.r.slot ≠ 64
  | _ => False

/-- The registers, and the predicates, that a word of classes 0x0 to 0x5 may write, and what its class may change in its core. -/
def dests (op : Nat) (f : Fields) (q : Nat) : Prop := q ∈ Forms.writeRegs op f

def predDests (op : Nat) (f : Fields) (s : State) (th : Thread) (k : Nat) : Prop :=
  if op = 0x086 then ((atIssue op f s th).vb false).getLsbD k = true else k ∈ Forms.writePreds op f

def level (op : Nat) : Nat := if op / 64 < 3 then 0 else if op = 0x143 ∨ op = 0x145 then 2 else 1

/-- A word that completes leaves the frame of the state it issued in; one that traps, that state's without the operation it had joined a key with. -/
theorem frame_of {op : Nat} {f : Fields} {s t : State} {th : Thread} {body : Ctx → Res} (hop : op ≠ 0x088) (hI : Issues op f s th)
    (ht : issueOp op f s body = .next t)
    (hf : ResFrame (dests op f) (predDests op f s th) (level op) (atIssue op f s th) (body (atIssue op f s th))) :
    ∃ s0, (s0 = s ∨ s0 = th.dropOwn s) ∧ Frame (dests op f) (predDests op f s th) (level op) th.ref s0 t := by
  rw [issueOp_go body hI] at ht
  cases ht
  have h0 : Frame (dests op f) (predDests op f s th) (level op) th.ref s { s with free := s.free + 1 } :=
    Frame.of_eq rfl rfl rfl (by repeat' constructor)
  have h1 : Frame (dests op f) (predDests op f s th) (level op) th.ref (th.dropOwn s) (th.dropOwn { s with free := s.free + 1 }) := by
    unfold Thread.dropOwn
    split <;> exact Frame.of_eq rfl rfl rfl (by repeat' constructor)
  have hth : s.thread? th.ref = some th := by rw [thread?_ref hI.1]; exact hI.1
  generalize hx : body (atIssue op f s th) = x at hf ⊢
  cases x with
  | ok u => exact ⟨s, .inl rfl, (h0.trans hf).trans (Frame.retire f u)⟩
  | trap i => exact ⟨_, .inr rfl, h1.trans (Frame.raiseTrap hf.1 i hf.2 hth)⟩
  | jump _ _ => exact hf.elim
  | wait _ => exact hf.elim
  | hold _ => exact hf.elim

theorem mem_writeRegs_d {op : Nat} {f : Fields} {q : Nat} (h1 : (Forms.uses op f).d.wr = true) (h2 : q ∈ Forms.regsOf (Forms.uses op f).d f.d) :
    dests op f q := by
  unfold dests Forms.writeRegs Forms.fieldsOf
  simp [h1, h2]

theorem mem_writePreds_d {op : Nat} {f : Fields} {q : Nat} (h1 : (Forms.uses op f).d.wr = true) (h2 : q ∈ Forms.predsOf (Forms.uses op f).d f.d) :
    q ∈ Forms.writePreds op f := by
  unfold Forms.writePreds Forms.fieldsOf
  simp [h1, h2]

theorem mem_writePreds_c {op : Nat} {f : Fields} {q : Nat} (h1 : (Forms.uses op f).c.wr = true) (h2 : q ∈ Forms.predsOf (Forms.uses op f).c f.c) :
    q ∈ Forms.writePreds op f := by
  unfold Forms.writePreds Forms.fieldsOf
  simp [h1, h2]

theorem valueRegs_dest {op : Nat} {f : Fields} {w : Bool} (h : (Forms.uses op f).d = Forms.wr w) (v : DWord) :
    ∀ x ∈ valueRegs w f.d.toNat v, x.1 < 255 → dests op f x.1 := by
  intro x hx hl
  refine mem_writeRegs_d (by rw [h]; rfl) ?_
  rw [h]
  cases w
  · simp [valueRegs] at hx
    subst hx
    simp [Forms.regsOf, Forms.wr, Forms.regKind]; omega
  · simp [valueRegs] at hx
    simp only [Forms.regsOf, Forms.wr, Forms.regKind, if_true, List.mem_filter, List.mem_map, List.mem_range, decide_eq_true_eq]
    refine ⟨?_, hl⟩
    rcases hx with rfl | rfl
    · exact ⟨0, by decide, rfl⟩
    · exact ⟨1, by decide, rfl⟩

theorem pred_dest {u : FieldUse} {x : BitVec 8} {k : Nat} (h : u.kind = .pred) (hk : k = x.toNat) (hl : k < 7) : k ∈ Forms.predsOf u x := by
  unfold Forms.predsOf
  rw [h, ← hk]
  dsimp only
  rw [if_neg (by omega)]; simp; omega

variable {op : Nat} {f : Fields} {s : State} {th : Thread}

theorem fine_value {w : Bool} {v : DWord} {m : Nat} (h : (Forms.uses op f).d = Forms.wr w) :
    ResFrame (dests op f) (predDests op f s th) m (atIssue op f s th) ((atIssue op f s th).value w v) :=
  Frame.write rfl (valueRegs_dest h v) (fun x hx => by simp at hx)

theorem fine_pred {b : Bool} {m : Nat} (hop : op ≠ 0x086) (h : (Forms.uses op f).d = Forms.pwr) :
    ResFrame (dests op f) (predDests op f s th) m (atIssue op f s th) ((atIssue op f s th).predicate b) := by
  refine Frame.write rfl (fun x hx => by simp at hx) (fun x hx hl => ?_)
  simp at hx
  subst hx
  unfold predDests
  rw [if_neg hop]
  exact mem_writePreds_d (by rw [h]; rfl) (pred_dest (by rw [h]; rfl) rfl hl)

theorem fine_carry {m : Nat} {v : Word} {b : Bool} (hop : op ≠ 0x086) (h : (Forms.uses op f).d = Forms.wr false) (h2 : (Forms.uses op f).c = ⟨.pred, true, true⟩) :
    ResFrame (dests op f) (predDests op f s th) m (atIssue op f s th) (.ok ((atIssue op f s th).write [(f.d.toNat, v)] [(f.c.toNat, b)])) := by
  refine Frame.write rfl (fun x hx hl => ?_) (fun x hx hl => ?_)
  · simp at hx
    subst hx
    exact valueRegs_dest h 0 (f.d.toNat, (0 : DWord).extractLsb' 0 32) (by simp [valueRegs]) hl
  · simp at hx
    subst hx
    unfold predDests
    rw [if_neg hop]
    exact mem_writePreds_c (by rw [h2]) (pred_dest (by rw [h2]) rfl hl)

theorem fine_tracked {m : Nat} {w : Bool} {v : DWord} :
    ResFrame (dests op f) (predDests op f s th) m (atIssue op f s th) ((atIssue op f s th).trackedValue w v) := by
  unfold Ctx.trackedValue Ctx.tracked ResFrame
  dsimp only
  exact Frame.trans (t := (atIssue op f s th).s.fresh.2) (Frame.of_eq rfl rfl rfl (by repeat' constructor)) (Frame.track _ _)

theorem fine_fp {m : Nat} (hm : 1 ≤ m) (hs : th.ref.slot ≠ 64 ∨ (s.core th.ref.core).fpen = 0) {e : Exc} {k : Res} {W P : Nat → Prop}
    (h : ResFrame W P m (atIssue op f s th) k) : ResFrame W P m (atIssue op f s th) ((atIssue op f s th).fpResult e k) := by
  unfold Ctx.fpResult
  split
  · exact h
  · next hne =>
    refine ⟨hm, ?_⟩
    rcases hs with h | h
    · exact h
    · refine absurd ?_ hne
      have : (atIssue op f s th).fpHit e = (s.core th.ref.core).fpen &&& e.zeroExtend 32 := rfl
      rw [this, h]; simp

theorem fine_fmterr {b : Bool} {t : State} {W P : Nat → Prop} (h : ResFrame W P 2 (atIssue op f s th) (.ok t)) :
    ResFrame W P 2 (atIssue op f s th) (.ok (setFmterr th.ref.core b t)) := Frame.trans h (Frame.setFmterr (r := th.ref) t b)

theorem packWords_length (F : Fmt) (n : Nat) (l : List Nat) : (packWords F n l).length = n := by
  induction n generalizing l with
  | zero => rfl
  | succ n ih => simp [packWords, ih]

theorem wordRegs_mem (d : Nat) (l : List Word) : ∀ x ∈ wordRegs d l, d ≤ x.1 ∧ x.1 < d + l.length := by
  induction l generalizing d with
  | nil => intro x hx; simp [wordRegs] at hx
  | cons v l ih =>
    intro x hx
    simp only [wordRegs, List.mem_cons] at hx
    rcases hx with rfl | hx
    · simp
    · have := ih (d + 1) x hx; simp; omega

theorem fine_unpk {m : Nat} {l : List Word} (h : (Forms.uses op f).d = Forms.grp l.length l.length false false) :
    ResFrame (dests op f) (predDests op f s th) m (atIssue op f s th) (.ok ((atIssue op f s th).write (wordRegs f.d.toNat l) [])) := by
  refine Frame.write rfl (fun x hx hl => ?_) (fun x hx => by simp at hx)
  have hb := wordRegs_mem _ _ x hx
  refine mem_writeRegs_d (by rw [h]; rfl) ?_
  rw [h]
  simp only [Forms.regsOf, Forms.grp, List.mem_filter, List.mem_map, List.mem_range, decide_eq_true_eq]
  exact ⟨⟨x.1 - f.d.toNat, by omega, by omega⟩, hl⟩

theorem fine_pair {m : Nat} {a b : Word} (h : (Forms.uses op f).d = Forms.wr true) :
    ResFrame (dests op f) (predDests op f s th) m (atIssue op f s th) (.ok ((atIssue op f s th).write [(f.d.toNat, a), (f.d.toNat + 1, b)] [])) := by
  refine Frame.write rfl (fun x hx hl => ?_) (fun x hx => by simp at hx)
  refine mem_writeRegs_d (by rw [h]; rfl) ?_
  rw [h]
  simp only [Forms.regsOf, Forms.wr, Forms.regKind, if_true, List.mem_filter, List.mem_map, List.mem_range, decide_eq_true_eq]
  refine ⟨?_, hl⟩
  simp only [List.mem_cons, List.not_mem_nil, or_false] at hx
  rcases hx with rfl | rfl
  · exact ⟨0, by decide, rfl⟩
  · exact ⟨1, by decide, rfl⟩

theorem fine_w2p {m : Nat} {v : DWord} :
    ResFrame (dests 0x086 f) (predDests 0x086 f s th) m (atIssue 0x086 f s th)
      (.ok ((atIssue 0x086 f s th).write [] (((List.range 7).filter (fun k => ((atIssue 0x086 f s th).vb false).getLsbD k)).map (fun k => (k, v.getLsbD k))))) := by
  refine Frame.write rfl (fun x hx => by simp at hx) (fun x hx hl => ?_)
  obtain ⟨k, hk, rfl⟩ := List.mem_map.mp hx
  unfold predDests
  rw [if_pos rfl]
  exact (List.mem_filter.mp hk).2

theorem fine_special {m : Nat} (hm : 1 ≤ m) (hs : th.ref.slot ≠ 64 ∨ (s.core th.ref.core).fpen = 0) {r : LaneRes} :
    ResFrame (dests op f) (predDests op f s th) m (atIssue op f s th) ((atIssue op f s th).specialResult r) := fine_fp hm hs fine_tracked

theorem fine_lanes {m : Nat} (hm : 1 ≤ m) (hs : th.ref.slot ≠ 64 ∨ (s.core th.ref.core).fpen = 0) {l : List LaneRes}
    (h : (Forms.uses op f).d = Forms.wr (Forms.wide (Forms.ts f))) :
    ResFrame (dests op f) (predDests op f s th) m (atIssue op f s th) ((atIssue op f s th).floatLanes l) := fine_fp hm hs (fine_value h)

theorem foldPend (due : Nat) (ws : List (Nat × Word)) (th : Thread) :
    let u := ws.foldl (fun th q => { th with pend := addPending (512 + q.1) due 0 th.pend }) th
    ThreadPlaceSame u th ∧ u.ref = th.ref ∧ (∀ q clock n pos, q < 256 → u.readW clock n pos q = th.readW clock n pos q) ∧
      (∀ k clock n pos, k < 8 → u.readP clock n pos k = th.readP clock n pos k) := by
  induction ws generalizing th with
  | nil => exact ⟨⟨rfl, rfl, rfl, rfl, rfl, rfl⟩, rfl, fun _ _ _ _ _ => rfl, fun _ _ _ _ _ => rfl⟩
  | cons x ws ih =>
    rw [List.foldl_cons]
    obtain ⟨a, b, c, d⟩ := ih { th with pend := addPending (512 + x.1) due 0 th.pend }
    have e (clock q : Nat) (h : q < 512) : ({ th with pend := addPending (512 + x.1) due 0 th.pend } : Thread).early? clock q = th.early? clock q := by
      unfold Thread.early?; rw [find_add, if_neg (by omega)]
    refine ⟨a, b, fun q cl n pos h => (c q cl n pos h).trans ?_, fun k cl n pos h => (d k cl n pos h).trans ?_⟩
    · unfold Thread.readW; rw [e _ _ (by omega)]
    · unfold Thread.readP; rw [e _ _ (by omega)]

theorem foldU (due : Nat) (ws : List (Nat × Word)) (w : Warp) :
    let x := ws.foldl (fun w q => w.writeU due q.1 q.2) w
    x = { w with u := x.u, upend := x.upend } ∧
      ∀ q clock n pos, (∀ y ∈ ws, y.1 < 63 → y.1 ≠ q) → x.readU clock n pos q = w.readU clock n pos q := by
  induction ws generalizing w with
  | nil => exact ⟨rfl, fun _ _ _ _ _ => rfl⟩
  | cons y ws ih =>
    rw [List.foldl_cons]
    obtain ⟨a, b⟩ := ih (w.writeU due y.1 y.2)
    have e : w.writeU due y.1 y.2 = { w with u := (w.writeU due y.1 y.2).u, upend := (w.writeU due y.1 y.2).upend } := by
      unfold Warp.writeU; dsimp only; split <;> rfl
    refine ⟨?_, fun q cl n pos h => (b q cl n pos (fun z hz => h z (List.mem_cons_of_mem _ hz))).trans ?_⟩
    · generalize w.writeU due y.1 y.2 = w1 at a e ⊢
      have k : ∀ uu pp, ({ w1 with u := uu, upend := pp } : Warp) = { w with u := uu, upend := pp } := by intro uu pp; rw [e]
      exact a.trans (k _ _)
    · by_cases hy : y.1 < 63
      · exact readU_writeU_ne w cl n pos due y.2 (Ne.symm (h y List.mem_cons_self hy))
      · unfold Warp.writeU; rw [if_pos (by omega)]

theorem thread?_map (s : State) (g : Thread → Thread) (hg : ∀ t, (g t).ref = t.ref) (q : TRef) :
    ({ s with threads := s.threads.map g } : State).thread? q = (s.thread? q).map g := by
  unfold State.thread?
  rw [List.find?_map]
  have : ((fun (t : Thread) => decide (t.ref = q)) ∘ g) = (fun t => decide (t.ref = q)) := by funext t; simp [hg]
  rw [this]

theorem warp?_modWarp_at (s : State) (c k : Nat) (g : Warp → Warp) (hg : ∀ w a b, Warp.at a b (g w) = Warp.at a b w) :
    (s.modWarp c k g).warp? c k = (s.warp? c k).map g := by
  unfold State.warp? State.modWarp
  rw [List.find?_map]
  have : (Warp.at c k ∘ fun w => if Warp.at c k w = true then g w else w) = Warp.at c k := by
    funext w; simp only [Function.comp]; split
    · rw [hg]
    · rfl
  rw [this]
  cases h : List.find? (Warp.at c k) s.warps with
  | none => rfl
  | some w => simp [List.find?_some h]

theorem warp?_modWarp_ne (s : State) (c k a b : Nat) (g : Warp → Warp) (hg : ∀ w a b, Warp.at a b (g w) = Warp.at a b w)
    (hne : ¬(a = c ∧ b = k)) : (s.modWarp c k g).warp? a b = s.warp? a b := by
  unfold State.warp? State.modWarp
  rw [List.find?_map]
  have : (Warp.at a b ∘ fun w => if Warp.at c k w = true then g w else w) = Warp.at a b := by
    funext w; simp only [Function.comp]; split
    · rw [hg]
    · rfl
  rw [this]
  cases h : List.find? (Warp.at a b) s.warps with
  | none => rfl
  | some w =>
    have h1 := List.find?_some h
    have : Warp.at c k w = false := by
      simp only [Warp.at, Bool.and_eq_true, beq_iff_eq, Bool.and_eq_false_iff, beq_eq_false_iff_ne] at h1 ⊢
      omega
    simp [this]

theorem foldMarks (ws : List (Nat × Word)) (m : List (Nat × Cause)) (t : Thread) :
    ThreadPlaceSame ({ t with marks := ws.foldl (fun m q => dropMark (512 + q.1) m) m } : Thread) t := ⟨rfl, rfl, rfl, rfl, rfl, rfl⟩

end Sys2Proof.Laws
end

