-- ==== Sys2Proof/Laws/Keeps.lean ====
section
/-! SUPPORT. A property of memory that an instruction keeps: what the effect of a word must keep for its issue to keep it, one
lemma for each effect that several words share, and one for each instruction. -/

namespace Sys2Proof.Laws

open Sys2Proof.Machine Sys2Proof.Safety

variable {Q : List Host.Cell → Prop}

/-- Whatever state an effect comes to, `Q` holds of its memory. -/
def ResKeeps (Q : List Host.Cell → Prop) : Res → Prop
  | .ok s => Q s.mem
  | .jump s _ => Q s.mem
  | .wait s => Q s.mem
  | .hold s => Q s.mem
  | .trap _ => True

@[simp] theorem resKeeps_ok (s : State) : ResKeeps Q (.ok s) = Q s.mem := rfl
@[simp] theorem resKeeps_jump (s : State) (pc : DWord) : ResKeeps Q (.jump s pc) = Q s.mem := rfl
@[simp] theorem resKeeps_wait (s : State) : ResKeeps Q (.wait s) = Q s.mem := rfl
@[simp] theorem resKeeps_hold (s : State) : ResKeeps Q (.hold s) = Q s.mem := rfl
@[simp] theorem resKeeps_trap (i : TrapInfo) : ResKeeps Q (.trap i) = True := rfl

/-- Whatever next state an outcome has, `Q` holds of its memory. -/
def OutKeeps (Q : List Host.Cell → Prop) (o : Out) : Prop := ∀ s', o = .next s' → Q s'.mem

@[simp] theorem outKeeps_next (s : State) : OutKeeps Q (.next s) = Q s.mem :=
  propext ⟨fun h => h s rfl, fun h _ e => by cases e; exact h⟩

theorem settleRes_keeps {s : State} (h : Q s.mem) (r : TRef) (f : Fields) {x : Res} (hx : ResKeeps Q x) :
    Q (settleRes r f s x).mem := by
  cases x with
  | ok t => exact hx
  | jump t pc => exact hx
  | wait t => exact hx
  | hold t => exact hx
  | trap i => simpa [settleRes] using h

theorem issueWith_keeps {s : State} (h : Q s.mem) (op : Nat) (f : Fields) (pre : Option Cause) (bad : Bool) (body : Ctx → Res)
    (hb : ∀ c : Ctx, Q c.s.mem → ResKeeps Q (body c)) : Q (issueWith op f pre bad s body).mem := by
  have h1 : Q ({ s with free := s.free + 1 } : State).mem := h
  rcases issueWith_cases op f pre bad s body with ⟨-, e⟩ | ⟨th, -, ⟨c, -, e⟩ | ⟨-, e⟩ | ⟨-, e⟩ | ⟨-, e⟩⟩ <;> rw [e]
  · exact h
  · simpa using h
  · exact h
  · show Q (retire _ _ _).mem
    rw [retire_mem, Thread.dropOwn_mem]; exact h1
  · exact settleRes_keeps h1 _ _ (hb _ h1)

theorem issueOp_keeps {s : State} (h : Q s.mem) (op : Nat) (f : Fields) (body : Ctx → Res)
    (hb : ∀ c : Ctx, Q c.s.mem → ResKeeps Q (body c)) : OutKeeps Q (issueOp op f s body) := by
  rw [issueOp, outKeeps_next]
  exact issueWith_keeps h op f none false body hb

/-! ## Effects that several words share -/

theorem value_keeps {c : Ctx} (h : Q c.s.mem) (wide : Bool) (v : DWord) : ResKeeps Q (c.value wide v) := h
theorem predicate_keeps {c : Ctx} (h : Q c.s.mem) (b : Bool) : ResKeeps Q (c.predicate b) := h
theorem trackedValue_keeps {c : Ctx} (h : Q c.s.mem) (wide : Bool) (v : DWord) : ResKeeps Q (c.trackedValue wide v) := by
  simpa [Ctx.trackedValue] using h
theorem fpResult_keeps {c : Ctx} {k : Res} (hk : ResKeeps Q k) (e : Exc) : ResKeeps Q (c.fpResult e k) := by
  unfold Ctx.fpResult; split
  · exact hk
  · trivial
theorem floatLanes_keeps {c : Ctx} (h : Q c.s.mem) (l : List LaneRes) : ResKeeps Q (c.floatLanes l) :=
  fpResult_keeps (value_keeps h _ _) _
theorem specialResult_keeps {c : Ctx} (h : Q c.s.mem) (r : LaneRes) : ResKeeps Q (c.specialResult r) :=
  fpResult_keeps (trackedValue_keeps h _ _) _
theorem intOp1_keeps {s : State} (h : Q s.mem) (op : Nat) (f : Fields) (g : Int → Int) : OutKeeps Q (intOp1 op f s g) :=
  issueOp_keeps h _ _ _ (fun _ hc => value_keeps hc _ _)
theorem intOp2_keeps {s : State} (h : Q s.mem) (op : Nat) (f : Fields) (sat : Bool) (g : Int → Int → Int) :
    OutKeeps Q (intOp2 op f s sat g) := issueOp_keeps h _ _ _ (fun _ hc => value_keeps hc _ _)
theorem intOp3_keeps {s : State} (h : Q s.mem) (op : Nat) (f : Fields) (sat : Bool) (g : Int → Int → Int → Int) :
    OutKeeps Q (intOp3 op f s sat g) := issueOp_keeps h _ _ _ (fun _ hc => value_keeps hc _ _)
theorem bitOp2_keeps {s : State} (h : Q s.mem) (op : Nat) (f : Fields) (g : DWord → DWord → DWord) : OutKeeps Q (bitOp2 op f s g) :=
  issueOp_keeps h _ _ _ (fun _ hc => value_keeps hc _ _)
theorem shiftOp_keeps {s : State} (h : Q s.mem) (op : Nat) (f : Fields) (g : Nat → Nat → DWord → DWord) :
    OutKeeps Q (shiftOp op f s g) := issueOp_keeps h _ _ _ (fun _ hc => value_keeps hc _ _)
theorem floatSum_keeps {s : State} (h : Q s.mem) (op : Nat) (f : Fields) (terms : Val → Val → List Val) :
    OutKeeps Q (floatSum op f s terms) := issueOp_keeps h _ _ _ (fun _ hc => floatLanes_keeps hc _)
theorem floatMinMax_keeps {s : State} (h : Q s.mem) (op : Nat) (isMax : Bool) (f : Fields) : OutKeeps Q (floatMinMax op isMax f s) :=
  issueOp_keeps h _ _ _ (fun _ hc => floatLanes_keeps hc _)
theorem specialOp_keeps {s : State} (h : Q s.mem) (op : Nat) (f : Fields) : OutKeeps Q (specialOp op f s) :=
  issueOp_keeps h _ _ _ (fun _ hc => specialResult_keeps hc _)

theorem checkedTarget_keeps {c : Ctx} (h : Q c.s.mem) (slot : Nat) (t : DWord) {go : Unit → Res} (hg : ResKeeps Q (go ())) :
    ResKeeps Q (checkedTarget c slot t go) := by
  unfold checkedTarget
  repeat' first | exact hg | trivial | (simpa using h) | split
theorem privWay_mem {s t : State} {th : Thread} {r : TRef} {p : DWord} {want : Rights} {loc : Nat} {mode : AccMode}
    (hx : privWay s th r p want = .ok t loc mode) : t.mem = s.mem := by
  unfold privWay at hx
  dsimp only at hx
  repeat' split at hx
  all_goals cases hx
  all_goals simp
theorem privWay_keeps {s : State} (h : Q s.mem) (th : Thread) (r : TRef) (p : DWord) (want : Rights) :
    ∀ x, privWay s th r p want = .stop x → ResKeeps Q x := by
  intro x hx
  unfold privWay at hx
  dsimp only at hx
  repeat' split at hx
  all_goals cases hx
  all_goals first | trivial | (simpa using h)
theorem popCall_keeps {c : Ctx} (h : Q c.s.mem) (rest : List DWord) {go : State → Res}
    (hg : ∀ s : State, Q s.mem → ResKeeps Q (go s)) : ResKeeps Q (popCall c rest go) := by
  unfold popCall
  split
  · split
    · next hx => exact privWay_keeps h _ _ _ _ _ hx
    · next hx => exact hg _ (by rw [State.modThread_mem, privWay_mem hx]; exact h)
  · exact hg _ h
theorem arriveColl_keeps {c : Ctx} (h : Q c.s.mem) (instr : Nat) (v : DWord) (n : Nat) (x : Bool) :
    ResKeeps Q (arriveColl c instr v n x) := by
  unfold arriveColl
  dsimp only
  repeat' first | trivial | exact h | split
theorem barrierBody_keeps {c : Ctx} (h : Q c.s.mem) (level : Nat) : ResKeeps Q (barrierBody level c) := by
  unfold barrierBody
  dsimp only
  repeat' first | trivial | (simpa using h) | split
theorem afterEntry_keeps {c : Ctx} (tgt : Target) {x : Nat × State} (h : Q x.2.mem) : ResKeeps Q (afterEntry c tgt x) := by
  unfold afterEntry
  split <;> simpa using h
theorem memChecks_keeps {c : Ctx} (h : Q c.s.mem) (ok : Spaces) (need : Need) (n al : Nat) (typeOk : AtomPoint → Bool)
    {go : Target → Res} (hg : ∀ t, ResKeeps Q (go t)) : ResKeeps Q (memChecks c ok need n al typeOk go) := by
  unfold memChecks
  repeat' first | exact hg _ | trivial | exact h | split
theorem enterAccess_keeps {c : Ctx} (h : Q c.s.mem) (op : AccOp) (ea : DWord) (tgt : Target) (n : Nat) (data data2 : List Byte) (rz : Bool)
    (nreg : Nat) : Q (enterAccess c op ea tgt n data data2 rz nreg).2.mem := by
  have : (enterAccess c op ea tgt n data data2 rz nreg).2.mem = c.s.mem := by simp [enterAccess, State.fresh]
  rw [this]; exact h
theorem plainAccess_keeps {c : Ctx} (h : Q c.s.mem) (ok : Spaces) (need : Need) (n : Nat) (op : AccOp) (data data2 : List Byte)
    (typeOk : AtomPoint → Bool) : ResKeeps Q (plainAccess c ok need n op data data2 typeOk) :=
  memChecks_keeps h _ _ _ _ _ (fun _ => afterEntry_keeps _ (enterAccess_keeps h _ _ _ _ _ _ _ _))
theorem tileAccess_keeps {c : Ctx} (h : Q c.s.mem) (need : Need) (mk : Nat → Nat → AccOp) : ResKeeps Q (tileAccess c need mk) := by
  refine memChecks_keeps h _ _ _ _ _ (fun _ => ?_)
  dsimp only
  repeat' first | exact afterEntry_keeps _ (enterAccess_keeps h _ _ _ _ _ _ _ _) | trivial | split
theorem atomAccess_keeps {c : Ctx} (h : Q c.s.mem) (ret : Bool) : ResKeeps Q (atomAccess c ret) := plainAccess_keeps h _ _ _ _ _ _ _
theorem rangeAccess_keeps {c : Ctx} (h : Q c.s.mem) (ok : Spaces) (op : AccOp) : ResKeeps Q (rangeAccess c ok op) :=
  memChecks_keeps h _ _ _ _ _ (fun _ => afterEntry_keeps _ (enterAccess_keeps h _ _ _ _ _ _ _ _))
theorem joinKeys_keeps {c : Ctx} (h : Q c.s.mem) (ka : Nat) (src : List Nat) : ResKeeps Q (joinKeys c ka src) := by
  unfold joinKeys
  split
  · exact h
  · simpa using h
theorem threadGrasp_keeps {c : Ctx} (h : Q c.s.mem) (p g : DWord) (n : Nat) (write : Bool) {go : State → Nat → AccMode → Res}
    (hg : ∀ (s : State) loc mode, Q s.mem → ResKeeps Q (go s loc mode)) : ResKeeps Q (threadGrasp c p g n write go) := by
  have hm := grasp_mem c.s (c.r.core / 256) ⟨0, Forms.policy c.f, c.s.ctxOf c.th⟩ g n write
  unfold threadGrasp
  split
  · next hx =>
    split
    · show Q _; rw [hm.1 _ _ _ hx]; exact h
    · exact hg _ _ _ (by rw [hm.1 _ _ _ hx]; exact h)
  · next hx => show Q _; rw [hm.2.1 _ hx]; exact h
  · next hx => rw [resKeeps_hold, pageWait_mem, hm.2.2 _ hx]; exact h
  · trivial
theorem readRecord_keeps {c : Ctx} (h : Q c.s.mem) (ok : Spaces) (p : DWord) (n : Nat) {go : State → Nat → Res}
    (hg : ∀ (s : State) v, Q s.mem → ResKeeps Q (go s v)) : ResKeeps Q (readRecord c ok p n go) := by
  unfold readRecord
  repeat' first | exact hg _ _ h | trivial | exact h | exact threadGrasp_keeps h _ _ _ _ (fun _ _ _ hs => hg _ _ hs) | split
theorem close_keeps {c : Ctx} {go : Res} (hg : ResKeeps Q go) : ResKeeps Q (c.close go) := by
  unfold Ctx.close
  split
  · rw [resKeeps_ok, closeOp_mem]; exact hg
  · rw [resKeeps_wait, closeOp_mem]; exact hg
  · exact hg
theorem waitKey_keeps {c : Ctx} (h : Q c.s.mem) (scope : Nat) {go : Res} (hg : ResKeeps Q go) : ResKeeps Q (waitKey c scope go) := by
  unfold waitKey
  dsimp only
  split
  · trivial
  · split
    · exact close_keeps hg
    · split
      · exact h
      · rw [resKeeps_wait, State.modThread_mem, Ctx.operation_mem]; exact h
theorem keyChecked_keeps {c : Ctx} {go : Res} (hg : ResKeeps Q go) : ResKeeps Q (keyChecked c go) := by
  unfold keyChecked
  split
  · trivial
  · exact hg
theorem sendMessage_keeps {c : Ctx} (h : Q c.s.mem) (dst : Nat × Nat) (ptr : Option DWord) (card : BitVec 512) (ev : Nat → Instr) :
    ResKeeps Q (sendMessage c dst ptr card ev) := by
  unfold sendMessage
  split
  · exact h
  · rw [resKeeps_wait, State.post_mem, State.modThread_mem]; show Q (c.operation c.s).2.mem; rw [Ctx.operation_mem]; exact h
theorem visitNode_keeps {s : State} (h : Q s.mem) (id node kind : Nat) {act : State → Graph → Nat → State}
    (ha : ∀ (t : State) g n, Q t.mem → Q (act t g n).mem) : OutKeeps Q (visitNode id node kind s act) := by
  unfold visitNode
  dsimp only
  split
  · simpa using h
  · next g _ =>
    have hm := graspAgent_mem s (dieUnit g.die) g.die g.ctx (g.base + BitVec.ofNat 64 (32 * node)) 32 false
    split
    · simpa using h
    · split
      · next hx => simpa [hm.2.1 _ hx] using h
      · next hx => simpa [hm.2.2 _ _ hx] using h
      · next hx =>
        have h1 := hm.1 _ _ _ hx
        split
        · simpa [h1] using h
        · split
          · simpa [h1] using h
          · rw [outKeeps_next]; exact ha _ _ _ (by rw [h1]; exact h)

/-! ## Effects that write memory, for its canonical form -/

/-- The memory has its canonical form. -/
abbrev Wf : List Host.Cell → Prop := fun m => Memory.wf m = true

theorem next_wf {s t : State} (h : MemCanonical s) (e : t.mem = s.mem) : OutKeeps Wf (.next t) :=
  (outKeeps_next t).mpr (canonical_of_mem h e)
theorem pushCall_keeps {s : State} (h : MemCanonical s) (th : Thread) (r : TRef) (ret : DWord) {go : State → Res}
    (hg : ∀ s : State, MemCanonical s → ResKeeps Wf (go s)) : ResKeeps Wf (pushCall s th r ret go) := by
  unfold pushCall
  split
  · dsimp only
    split
    · trivial
    · split
      · next hx => exact privWay_keeps (Q := Wf) h _ _ _ _ _ hx
      · next u loc mode hx =>
        exact hg _ (by
          unfold MemCanonical; rw [State.modThread_mem, dirtyAt_mem, State.modCore_mem]
          exact writeBytes_canonical (canonical_of_mem h (privWay_mem hx)) _ _)
  · exact hg _ h
theorem handOver_keeps {c : Ctx} {s : State} (h : MemCanonical s) (plan : Except Cause EngPlan) : ResKeeps Wf (handOver c s plan) := by
  unfold handOver
  split
  · trivial
  · split
    · exact h
    · refine enterEng_canonical ?_ _ _
      exact canonical_of_mem h (by simp)
theorem copyBody_keeps {c : Ctx} (h : MemCanonical c.s) (kind : EngKind) : ResKeeps Wf (copyBody kind c) :=
  keyChecked_keeps (readRecord_keeps (Q := Wf) h _ _ _ (fun _ _ hs => handOver_keeps hs _))
theorem accMove_keeps {c : Ctx} (h : MemCanonical c.s) (kind : EngKind) (store : Bool) : ResKeeps Wf (accMove kind store c) :=
  keyChecked_keeps (handOver_keeps h _)
theorem objectBody_keeps {c : Ctx} (h : MemCanonical c.s) (scope : Nat) (up : Nat → ObUpdate) (bad : Nat → Bool) :
    ResKeeps Wf (objectBody scope up bad c) := by
  unfold objectBody
  dsimp only
  split
  · trivial
  · split
    · trivial
    · trivial
    · split
      · exact h
      · refine waitKey_keeps (Q := Wf) h _ ?_
        split
        · trivial
        · split
          · next hx => exact objectUpdate_canonical h hx
          · trivial

/-! ## Every instruction that leaves memory as it was -/

theorem execAdd_keeps {s : State} (h : Q s.mem) (f : Fields) : OutKeeps Q (execAdd f s) :=
  intOp2_keeps h _ _ _ _
theorem execSub_keeps {s : State} (h : Q s.mem) (f : Fields) : OutKeeps Q (execSub f s) :=
  intOp2_keeps h _ _ _ _
theorem execAddc_keeps {s : State} (h : Q s.mem) (f : Fields) : OutKeeps Q (execAddc f s) := by
  refine issueOp_keeps h _ _ _ (fun c h => ?_)
  dsimp only
  repeat' first
    | exact True.intro
    | exact h
    | (simpa using h)
    | split
theorem execSubb_keeps {s : State} (h : Q s.mem) (f : Fields) : OutKeeps Q (execSubb f s) := by
  refine issueOp_keeps h _ _ _ (fun c h => ?_)
  dsimp only
  repeat' first
    | exact True.intro
    | exact h
    | (simpa using h)
    | split
theorem execMul_keeps {s : State} (h : Q s.mem) (f : Fields) : OutKeeps Q (execMul f s) :=
  intOp2_keeps h _ _ _ _
theorem execMulh_keeps {s : State} (h : Q s.mem) (f : Fields) : OutKeeps Q (execMulh f s) :=
  bitOp2_keeps h _ _ _
theorem execMad_keeps {s : State} (h : Q s.mem) (f : Fields) : OutKeeps Q (execMad f s) :=
  intOp3_keeps h _ _ _ _
theorem execMadw_keeps {s : State} (h : Q s.mem) (f : Fields) : OutKeeps Q (execMadw f s) :=
  issueOp_keeps h _ _ _ (fun _ h => value_keeps h _ _)
theorem execAbs_keeps {s : State} (h : Q s.mem) (f : Fields) : OutKeeps Q (execAbs f s) :=
  intOp1_keeps h _ _ _
theorem execNeg_keeps {s : State} (h : Q s.mem) (f : Fields) : OutKeeps Q (execNeg f s) :=
  intOp1_keeps h _ _ _
theorem execMin_keeps {s : State} (h : Q s.mem) (f : Fields) : OutKeeps Q (execMin f s) :=
  intOp2_keeps h _ _ _ _
theorem execMax_keeps {s : State} (h : Q s.mem) (f : Fields) : OutKeeps Q (execMax f s) :=
  intOp2_keeps h _ _ _ _
theorem execClamp_keeps {s : State} (h : Q s.mem) (f : Fields) : OutKeeps Q (execClamp f s) :=
  intOp3_keeps h _ _ _ _
theorem execLea_keeps {s : State} (h : Q s.mem) (f : Fields) : OutKeeps Q (execLea f s) :=
  issueOp_keeps h _ _ _ (fun _ h => value_keeps h _ _)
theorem execSad_keeps {s : State} (h : Q s.mem) (f : Fields) : OutKeeps Q (execSad f s) :=
  issueOp_keeps h _ _ _ (fun _ h => value_keeps h _ _)
theorem execCmp_keeps {s : State} (h : Q s.mem) (f : Fields) : OutKeeps Q (execCmp f s) :=
  issueOp_keeps h _ _ _ (fun _ h => predicate_keeps h _)
theorem execAnd_keeps {s : State} (h : Q s.mem) (f : Fields) : OutKeeps Q (execAnd f s) :=
  bitOp2_keeps h _ _ _
theorem execOr_keeps {s : State} (h : Q s.mem) (f : Fields) : OutKeeps Q (execOr f s) :=
  bitOp2_keeps h _ _ _
theorem execXor_keeps {s : State} (h : Q s.mem) (f : Fields) : OutKeeps Q (execXor f s) :=
  bitOp2_keeps h _ _ _
theorem execAndn_keeps {s : State} (h : Q s.mem) (f : Fields) : OutKeeps Q (execAndn f s) :=
  bitOp2_keeps h _ _ _
theorem execNot_keeps {s : State} (h : Q s.mem) (f : Fields) : OutKeeps Q (execNot f s) :=
  issueOp_keeps h _ _ _ (fun _ h => value_keeps h _ _)
theorem execShl_keeps {s : State} (h : Q s.mem) (f : Fields) : OutKeeps Q (execShl f s) :=
  shiftOp_keeps h _ _ _
theorem execShr_keeps {s : State} (h : Q s.mem) (f : Fields) : OutKeeps Q (execShr f s) :=
  shiftOp_keeps h _ _ _
theorem execSar_keeps {s : State} (h : Q s.mem) (f : Fields) : OutKeeps Q (execSar f s) :=
  shiftOp_keeps h _ _ _
theorem execRot_keeps {s : State} (h : Q s.mem) (f : Fields) : OutKeeps Q (execRot f s) :=
  issueOp_keeps h _ _ _ (fun _ h => value_keeps h _ _)
theorem execFunl_keeps {s : State} (h : Q s.mem) (f : Fields) : OutKeeps Q (execFunl f s) :=
  issueOp_keeps h _ _ _ (fun _ h => value_keeps h _ _)
theorem execBfx_keeps {s : State} (h : Q s.mem) (f : Fields) : OutKeeps Q (execBfx f s) :=
  issueOp_keeps h _ _ _ (fun _ h => value_keeps h _ _)
theorem execBfi_keeps {s : State} (h : Q s.mem) (f : Fields) : OutKeeps Q (execBfi f s) :=
  issueOp_keeps h _ _ _ (fun _ h => value_keeps h _ _)
theorem execPopc_keeps {s : State} (h : Q s.mem) (f : Fields) : OutKeeps Q (execPopc f s) :=
  issueOp_keeps h _ _ _ (fun _ h => value_keeps h _ _)
theorem execClz_keeps {s : State} (h : Q s.mem) (f : Fields) : OutKeeps Q (execClz f s) :=
  issueOp_keeps h _ _ _ (fun _ h => value_keeps h _ _)
theorem execBrev_keeps {s : State} (h : Q s.mem) (f : Fields) : OutKeeps Q (execBrev f s) :=
  issueOp_keeps h _ _ _ (fun _ h => value_keeps h _ _)
theorem execBytp_keeps {s : State} (h : Q s.mem) (f : Fields) : OutKeeps Q (execBytp f s) :=
  issueOp_keeps h _ _ _ (fun _ h => value_keeps h _ _)
theorem execLog3_keeps {s : State} (h : Q s.mem) (f : Fields) : OutKeeps Q (execLog3 f s) :=
  issueOp_keeps h _ _ _ (fun _ h => value_keeps h _ _)
theorem execMov_keeps {s : State} (h : Q s.mem) (f : Fields) : OutKeeps Q (execMov f s) :=
  issueOp_keeps h _ _ _ (fun _ h => value_keeps h _ _)
theorem execMovi_keeps {s : State} (h : Q s.mem) (f : Fields) : OutKeeps Q (execMovi f s) :=
  issueOp_keeps h _ _ _ (fun _ h => value_keeps h _ _)
theorem execSel_keeps {s : State} (h : Q s.mem) (f : Fields) : OutKeeps Q (execSel f s) :=
  issueOp_keeps h _ _ _ (fun _ h => value_keeps h _ _)
theorem execMovs_keeps {s : State} (h : Q s.mem) (f : Fields) : OutKeeps Q (execMovs f s) :=
  issueOp_keeps h _ _ _ (fun _ h => trackedValue_keeps h _ _)
theorem execPlog_keeps {s : State} (h : Q s.mem) (f : Fields) : OutKeeps Q (execPlog f s) :=
  issueOp_keeps h _ _ _ (fun _ h => predicate_keeps h _)
theorem execP2w_keeps {s : State} (h : Q s.mem) (f : Fields) : OutKeeps Q (execP2w f s) :=
  issueOp_keeps h _ _ _ (fun _ h => value_keeps h _ _)
theorem execW2p_keeps {s : State} (h : Q s.mem) (f : Fields) : OutKeeps Q (execW2p f s) := by
  refine issueOp_keeps h _ _ _ (fun c h => ?_)
  dsimp only
  repeat' first
    | exact True.intro
    | exact h
    | (simpa using h)
    | split
theorem execRdu_keeps {s : State} (h : Q s.mem) (f : Fields) : OutKeeps Q (execRdu f s) :=
  issueOp_keeps h _ _ _ (fun _ h => value_keeps h _ _)
theorem execWru_keeps {s : State} (h : Q s.mem) (f : Fields) : OutKeeps Q (execWru f s) := by
  refine issueOp_keeps h _ _ _ (fun c h => ?_)
  dsimp only
  repeat' first
    | exact True.intro
    | exact h
    | (simpa using h)
    | split
theorem execFadd_keeps {s : State} (h : Q s.mem) (f : Fields) : OutKeeps Q (execFadd f s) :=
  floatSum_keeps h _ _ _
theorem execFsub_keeps {s : State} (h : Q s.mem) (f : Fields) : OutKeeps Q (execFsub f s) :=
  floatSum_keeps h _ _ _
theorem execFmul_keeps {s : State} (h : Q s.mem) (f : Fields) : OutKeeps Q (execFmul f s) :=
  floatSum_keeps h _ _ _
theorem execFfma_keeps {s : State} (h : Q s.mem) (f : Fields) : OutKeeps Q (execFfma f s) := by
  refine issueOp_keeps h _ _ _ (fun c h => ?_)
  dsimp only
  repeat' first
    | exact True.intro
    | exact h
    | exact floatLanes_keeps h _
    | (simpa using h)
    | split
theorem execFmin_keeps {s : State} (h : Q s.mem) (f : Fields) : OutKeeps Q (execFmin f s) :=
  floatMinMax_keeps h _ _ _
theorem execFmax_keeps {s : State} (h : Q s.mem) (f : Fields) : OutKeeps Q (execFmax f s) :=
  floatMinMax_keeps h _ _ _
theorem execFcmp_keeps {s : State} (h : Q s.mem) (f : Fields) : OutKeeps Q (execFcmp f s) :=
  issueOp_keeps h _ _ _ (fun _ h => predicate_keeps h _)
theorem execFrnd_keeps {s : State} (h : Q s.mem) (f : Fields) : OutKeeps Q (execFrnd f s) := by
  refine issueOp_keeps h _ _ _ (fun c h => ?_)
  dsimp only
  repeat' first
    | exact True.intro
    | exact h
    | exact floatLanes_keeps h _
    | (simpa using h)
    | split
theorem execFcls_keeps {s : State} (h : Q s.mem) (f : Fields) : OutKeeps Q (execFcls f s) :=
  issueOp_keeps h _ _ _ (fun _ h => predicate_keeps h _)
theorem execFdot2_keeps {s : State} (h : Q s.mem) (f : Fields) : OutKeeps Q (execFdot2 f s) :=
  issueOp_keeps h _ _ _ (fun _ h => fpResult_keeps (value_keeps h _ _) _)
theorem execFrcp_keeps {s : State} (h : Q s.mem) (f : Fields) : OutKeeps Q (execFrcp f s) :=
  specialOp_keeps h _ _
theorem execFrsq_keeps {s : State} (h : Q s.mem) (f : Fields) : OutKeeps Q (execFrsq f s) :=
  specialOp_keeps h _ _
theorem execFsqrt_keeps {s : State} (h : Q s.mem) (f : Fields) : OutKeeps Q (execFsqrt f s) :=
  specialOp_keeps h _ _
theorem execFex2_keeps {s : State} (h : Q s.mem) (f : Fields) : OutKeeps Q (execFex2 f s) :=
  specialOp_keeps h _ _
theorem execFlg2_keeps {s : State} (h : Q s.mem) (f : Fields) : OutKeeps Q (execFlg2 f s) :=
  specialOp_keeps h _ _
theorem execFsin_keeps {s : State} (h : Q s.mem) (f : Fields) : OutKeeps Q (execFsin f s) :=
  specialOp_keeps h _ _
theorem execFcos_keeps {s : State} (h : Q s.mem) (f : Fields) : OutKeeps Q (execFcos f s) :=
  specialOp_keeps h _ _
theorem execFdiv_keeps {s : State} (h : Q s.mem) (f : Fields) : OutKeeps Q (execFdiv f s) := by
  refine issueOp_keeps h _ _ _ (fun c h => ?_)
  dsimp only
  repeat' first
    | exact True.intro
    | exact h
    | exact specialResult_keeps h _
    | (simpa using h)
    | split
theorem execFtanh_keeps {s : State} (h : Q s.mem) (f : Fields) : OutKeeps Q (execFtanh f s) :=
  specialOp_keeps h _ _
theorem execCvt_keeps {s : State} (h : Q s.mem) (f : Fields) : OutKeeps Q (execCvt f s) := by
  refine issueOp_keeps h _ _ _ (fun c h => ?_)
  dsimp only
  repeat' first
    | exact True.intro
    | exact h
    | exact value_keeps h _ _
    | refine fpResult_keeps ?_ _
    | (simpa using h)
    | split
theorem execCvti_keeps {s : State} (h : Q s.mem) (f : Fields) : OutKeeps Q (execCvti f s) :=
  issueOp_keeps h _ _ _ (fun _ h => fpResult_keeps (value_keeps h _ _) _)
theorem execCvtf_keeps {s : State} (h : Q s.mem) (f : Fields) : OutKeeps Q (execCvtf f s) :=
  issueOp_keeps h _ _ _ (fun _ h => fpResult_keeps (value_keeps h _ _) _)
theorem execPack_keeps {s : State} (h : Q s.mem) (f : Fields) : OutKeeps Q (execPack f s) :=
  issueOp_keeps h _ _ _ (fun c h => fpResult_keeps (by rw [resKeeps_ok, setFmterr_mem, Ctx.write_mem]; exact h) _)
theorem execUnpk_keeps {s : State} (h : Q s.mem) (f : Fields) : OutKeeps Q (execUnpk f s) := by
  refine issueOp_keeps h _ _ _ (fun c h => fpResult_keeps ?_ _)
  exact h
theorem execQblk_keeps {s : State} (h : Q s.mem) (f : Fields) : OutKeeps Q (execQblk f s) :=
  issueOp_keeps h _ _ _ (fun c h => fpResult_keeps (by rw [resKeeps_ok, setFmterr_mem, Ctx.write_mem]; exact h) _)
theorem execTransientRequest_keeps {s : State} (h : Q s.mem) (req : Nat) : OutKeeps Q (execTransientRequest req s) := by
  unfold execTransientRequest
  repeat' first
    | (simpa using h)
    | split
theorem execTransientAnswer_keeps {s : State} (h : Q s.mem) (req : Nat) (holder : Holder) : OutKeeps Q (execTransientAnswer req holder s) := by
  unfold execTransientAnswer
  try dsimp only
  repeat' first
    | (simpa using h)
    | (next hx => simpa [reqHeld_mem hx] using h)
    | split
theorem execTransientAttemptTimeout_keeps {s : State} (h : Q s.mem) (req : Nat) : OutKeeps Q (execTransientAttemptTimeout req s) := by
  unfold execTransientAttemptTimeout
  repeat' first
    | (simpa using h)
    | split
theorem execTransientEscalation_keeps {s : State} (h : Q s.mem) (req : Nat) : OutKeeps Q (execTransientEscalation req s) := by
  unfold execTransientEscalation
  repeat' first
    | (simpa using h)
    | split
theorem execPersistentRequest_keeps {s : State} (h : Q s.mem) (req : Nat) : OutKeeps Q (execPersistentRequest req s) := by
  unfold execPersistentRequest
  try dsimp only
  repeat' first
    | (simpa using h)
    | (next hx => simpa [reqHeld_mem hx] using h)
    | split
theorem execPersistentTableEntry_keeps {s : State} (h : Q s.mem) (line : Nat) (holder : Holder) : OutKeeps Q (execPersistentTableEntry line holder s) := by
  unfold execPersistentTableEntry
  try dsimp only
  repeat' first
    | (simpa using h)
    | (next hx => simpa [reqHeld_mem hx] using h)
    | split
theorem execPersistentCompletion_keeps {s : State} (h : Q s.mem) (line : Nat) : OutKeeps Q (execPersistentCompletion line s) := by
  unfold execPersistentCompletion
  repeat' first
    | (simpa using h)
    | split
theorem execTokenMessageReceive_keeps {s : State} (h : Q s.mem) (msg : Nat) : OutKeeps Q (execTokenMessageReceive msg s) := by
  have hf : ∀ (ls : List Nat) (t : State), (ls.foldl (fun s l => s.flitPassed l) t).mem = t.mem := foldl_mem _ (fun s x => by simp)
  have hc : ∀ (rs : List TokenReq) (t : State), (rs.foldl (fun s r => checkReq r.id s) t).mem = t.mem := foldl_mem _ (fun s x => by simp)
  have hi : ∀ (c : Prop) [Decidable c] (l : Nat) (t : State), (if c then maskTidy l t else t).mem = t.mem := fun c _ l t => by split <;> simp
  unfold execTokenMessageReceive
  dsimp only
  repeat' first
    | exact (outKeeps_next s).mpr h
    | (rw [outKeeps_next]; try simp only [hc, hi]
       try simp only [State.post_mem, wakeLinks_mem, sendAll_mem, checkReq_mem, State.setTokens_mem, maskTidy_mem, l2Room_mem, hf, hc, State.dropMsgs_mem]
       exact h)
    | split
theorem execL2Eviction_keeps {s : State} (h : Q s.mem) (die line : Nat) : OutKeeps Q (execL2Eviction die line s) := by
  unfold execL2Eviction
  repeat' first
    | (simpa using h)
    | split
theorem execEvictionAck_keeps {s : State} (h : Q s.mem) (die line : Nat) : OutKeeps Q (execEvictionAck die line s) := by
  unfold execEvictionAck
  repeat' first
    | (simpa using h)
    | split
theorem execBridgeRecall_keeps {s : State} (h : Q s.mem) (line : Nat) : OutKeeps Q (execBridgeRecall line s) := by
  unfold execBridgeRecall
  repeat' first
    | (simpa using h)
    | split
theorem execTokenRecreation_keeps {s : State} (h : Q s.mem) (line : Nat) : OutKeeps Q (execTokenRecreation line s) := by
  unfold execTokenRecreation
  dsimp only
  split
  · simpa using h
  · rw [outKeeps_next]
    repeat' first
      | (simpa using h)
      | split
theorem execLinkWake_keeps {s : State} (h : Q s.mem) (link : Nat) : OutKeeps Q (execLinkWake link s) := by
  unfold execLinkWake
  repeat' first
    | (simpa using h)
    | split
theorem execLinkWakeComplete_keeps {s : State} (h : Q s.mem) (link : Nat) : OutKeeps Q (execLinkWakeComplete link s) := by
  unfold execLinkWakeComplete
  dsimp only
  repeat' first
    | (simpa using h)
    | split
theorem execLinkWakeLate_keeps {s : State} (h : Q s.mem) (link : Nat) : OutKeeps Q (execLinkWakeLate link s) := by
  unfold execLinkWakeLate
  dsimp only
  repeat' first
    | (simpa using h)
    | split
theorem execLinkSleep_keeps {s : State} (h : Q s.mem) (link : Nat) : OutKeeps Q (execLinkSleep link s) := by
  unfold execLinkSleep
  dsimp only
  repeat' first
    | (simpa using h)
    | split
theorem execFlitCrcFailure_keeps {s : State} (h : Q s.mem) (link : Nat) : OutKeeps Q (execFlitCrcFailure link s) := by
  unfold execFlitCrcFailure
  dsimp only
  repeat' first
    | (simpa using h)
    | split
theorem execLineFetch_keeps {s : State} (h : Q s.mem) (t : TRef) : OutKeeps Q (execLineFetch t s) := by
  unfold execLineFetch
  repeat' first
    | (simpa using h)
    | split
theorem execFetchParityRetry_keeps {s : State} (h : Q s.mem) (t : TRef) : OutKeeps Q (execFetchParityRetry t s) := by
  unfold execFetchParityRetry
  repeat' first
    | (simpa using h)
    | split
theorem execIssueGroup_keeps {s : State} (h : Q s.mem) (core picker : Nat) : OutKeeps Q (execIssueGroup core picker s) := by
  unfold execIssueGroup
  split
  · exact (outKeeps_next s).mpr h
  · dsimp only
    have hm := State.formGroup_mem core picker ((s.candidates core picker).length + 1) (s.candidates core picker) s
    split
    · next hx => rw [hx] at hm; rw [outKeeps_next, hm]; exact h
    · next hx => rw [hx] at hm; rw [outKeeps_next, beginIssue_mem, hm]; exact h
theorem execTrackedResultWrite_keeps {s : State} (h : Q s.mem) (t : TRef) (id : Nat) : OutKeeps Q (execTrackedResultWrite t id s) := by
  unfold execTrackedResultWrite
  repeat' first
    | (simpa using h)
    | split
theorem execSleepExpire_keeps {s : State} (h : Q s.mem) (t : TRef) : OutKeeps Q (execSleepExpire t s) := by
  unfold execSleepExpire
  repeat' first
    | (simpa using h)
    | split
theorem execBra_keeps {s : State} (h : Q s.mem) (f : Fields) : OutKeeps Q (execBra f s) := by
  refine issueOp_keeps h _ _ _ (fun c h => ?_)
  dsimp only
  repeat' first
    | exact True.intro
    | exact h
    | refine checkedTarget_keeps h _ _ ?_
    | (simpa using h)
    | split
theorem execBrx_keeps {s : State} (h : Q s.mem) (f : Fields) : OutKeeps Q (execBrx f s) := by
  refine issueOp_keeps h _ _ _ (fun c h => ?_)
  dsimp only
  repeat' first
    | exact True.intro
    | exact h
    | refine checkedTarget_keeps h _ _ ?_
    | (simpa using h)
    | split
theorem execRet_keeps {s : State} (h : Q s.mem) (f : Fields) : OutKeeps Q (execRet f s) := by
  unfold execRet
  refine issueOp_keeps h _ _ _ (fun c h => ?_)
  repeat' first
    | exact True.intro
    | exact h
    | refine checkedTarget_keeps h _ _ ?_
    | refine popCall_keeps h _ (fun _ h => ?_)
    | (simpa using h)
    | split
theorem execExit_keeps {s : State} (h : Q s.mem) (f : Fields) : OutKeeps Q (execExit f s) := by
  unfold execExit
  refine issueOp_keeps h _ _ _ (fun c h => ?_)
  repeat' first
    | exact True.intro
    | exact h
    | (simpa using h)
    | split
theorem execNop_keeps {s : State} (h : Q s.mem) (f : Fields) : OutKeeps Q (execNop f s) := by
  unfold execNop
  refine issueOp_keeps h _ _ _ (fun c h => ?_)
  repeat' first
    | exact True.intro
    | exact h
    | (simpa using h)
    | split
theorem execYield_keeps {s : State} (h : Q s.mem) (f : Fields) : OutKeeps Q (execYield f s) := by
  unfold execYield
  refine issueOp_keeps h _ _ _ (fun c h => ?_)
  repeat' first
    | exact True.intro
    | exact h
    | (simpa using h)
    | split
theorem execSleep_keeps {s : State} (h : Q s.mem) (f : Fields) : OutKeeps Q (execSleep f s) := by
  refine issueOp_keeps h _ _ _ (fun c h => ?_)
  dsimp only
  repeat' first
    | exact True.intro
    | exact h
    | (simpa using h)
    | split
theorem execBkpt_keeps {s : State} (h : Q s.mem) (f : Fields) : OutKeeps Q (execBkpt f s) := by
  unfold execBkpt
  refine issueOp_keeps h _ _ _ (fun c h => ?_)
  repeat' first
    | exact True.intro
    | exact h
    | (simpa using h)
    | split
theorem execTrap_keeps {s : State} (h : Q s.mem) (f : Fields) : OutKeeps Q (execTrap f s) := by
  unfold execTrap
  refine issueOp_keeps h _ _ _ (fun c h => ?_)
  repeat' first
    | exact True.intro
    | exact h
    | (simpa using h)
    | split
theorem execRep_keeps {s : State} (h : Q s.mem) (f : Fields) : OutKeeps Q (execRep f s) := by
  unfold execRep
  split
  · exact (outKeeps_next s).mpr h
  · split
    · simpa using h
    · split
      · simpa using h
      · rw [outKeeps_next]
        exact issueWith_keeps h _ _ _ _ _ (fun _ h => h)
theorem execRepRepetition_keeps {s : State} (h : Q s.mem) (f : Fields) : OutKeeps Q (execRepRepetition f s) := by
  unfold execRepRepetition
  split
  · exact (outKeeps_next s).mpr h
  · split
    · split
      · simpa using h
      · split <;> simpa using h
    · simpa using h
    · exact (outKeeps_next s).mpr h
theorem execRjset_keeps {s : State} (h : Q s.mem) (f : Fields) : OutKeeps Q (execRjset f s) := by
  refine issueOp_keeps h _ _ _ (fun c h => ?_)
  dsimp only
  repeat' first
    | exact True.intro
    | exact h
    | (simpa using h)
    | split
theorem execRjwait_keeps {s : State} (h : Q s.mem) (f : Fields) : OutKeeps Q (execRjwait f s) := by
  refine issueOp_keeps h _ _ _ (fun c h => ?_)
  dsimp only
  repeat' first
    | exact True.intro
    | exact h
    | (simpa using h)
    | split
theorem execShfl_keeps {s : State} (h : Q s.mem) (f : Fields) : OutKeeps Q (execShfl f s) :=
  issueOp_keeps h _ _ _ (fun _ h => arriveColl_keeps h _ _ _ _)
theorem execVote_keeps {s : State} (h : Q s.mem) (f : Fields) : OutKeeps Q (execVote f s) :=
  issueOp_keeps h _ _ _ (fun _ h => arriveColl_keeps h _ _ _ _)
theorem execWred_keeps {s : State} (h : Q s.mem) (f : Fields) : OutKeeps Q (execWred f s) :=
  issueOp_keeps h _ _ _ (fun _ h => arriveColl_keeps h _ _ _ _)
theorem execMatchLanes_keeps {s : State} (h : Q s.mem) (f : Fields) : OutKeeps Q (execMatchLanes f s) :=
  issueOp_keeps h _ _ _ (fun _ h => arriveColl_keeps h _ _ _ _)
theorem execElect_keeps {s : State} (h : Q s.mem) (f : Fields) : OutKeeps Q (execElect f s) :=
  issueOp_keeps h _ _ _ (fun _ h => arriveColl_keeps h _ _ _ _)
theorem execWsync_keeps {s : State} (h : Q s.mem) (f : Fields) : OutKeeps Q (execWsync f s) :=
  issueOp_keeps h _ _ _ (fun _ h => arriveColl_keeps h _ _ _ _)
theorem execBarb_keeps {s : State} (h : Q s.mem) (f : Fields) : OutKeeps Q (execBarb f s) :=
  issueOp_keeps h _ _ _ (fun _ h => barrierBody_keeps h _)
theorem execBarg_keeps {s : State} (h : Q s.mem) (f : Fields) : OutKeeps Q (execBarg f s) :=
  issueOp_keeps h _ _ _ (fun _ h => barrierBody_keeps h _)
theorem execBarh_keeps {s : State} (h : Q s.mem) (f : Fields) : OutKeeps Q (execBarh f s) := by
  unfold execBarh
  refine issueOp_keeps h _ _ _ (fun c h => ?_)
  repeat' first
    | exact True.intro
    | exact h
    | exact barrierBody_keeps h _
    | (simpa using h)
    | split
theorem execBarrierRelease_keeps {s : State} (h : Q s.mem) (t : TRef) : OutKeeps Q (execBarrierRelease t s) := by
  unfold execBarrierRelease
  repeat' first
    | (simpa using h)
    | split
theorem execAccessFailure_keeps {s : State} (h : Q s.mem) (id : Nat) (cause : Cause) : OutKeeps Q (execAccessFailure id cause s) := by
  unfold execAccessFailure
  repeat' first
    | (simpa using h)
    | split
theorem execBridgeReadRequest_keeps {s : State} (h : Q s.mem) (id : Nat) : OutKeeps Q (execBridgeReadRequest id s) := by
  unfold execBridgeReadRequest
  dsimp only
  repeat' first
    | (simpa using h)
    | split
theorem execBridgeWriteRedirect_keeps {s : State} (h : Q s.mem) (id : Nat) : OutKeeps Q (execBridgeWriteRedirect id s) := by
  unfold execBridgeWriteRedirect
  repeat' first
    | (simpa using h)
    | split
theorem execHomeResolve_keeps {s : State} (h : Q s.mem) (id : Nat) : OutKeeps Q (execHomeResolve id s) := by
  unfold execHomeResolve
  split
  · exact (outKeeps_next s).mpr h
  · split
    · exact (outKeeps_next s).mpr h
    · dsimp only
      split
      · next hx =>
        rw [Option.bind_eq_some_iff] at hx
        obtain ⟨p, -, hx⟩ := hx
        simpa [wayHeld_mem hx] using h
      · repeat' first
          | (simpa using h)
          | split
theorem execAccessAccept_keeps {s : State} (h : Q s.mem) (id : Nat) : OutKeeps Q (execAccessAccept id s) := by
  unfold execAccessAccept
  repeat' first
    | (simpa using h)
    | split
theorem execLd_keeps {s : State} (h : Q s.mem) (f : Fields) : OutKeeps Q (execLd f s) :=
  issueOp_keeps h _ _ _ (fun _ h => plainAccess_keeps h _ _ _ _ _ _ _)
theorem execSt_keeps {s : State} (h : Q s.mem) (f : Fields) : OutKeeps Q (execSt f s) :=
  issueOp_keeps h _ _ _ (fun _ h => plainAccess_keeps h _ _ _ _ _ _ _)
theorem execLdr_keeps {s : State} (h : Q s.mem) (f : Fields) : OutKeeps Q (execLdr f s) :=
  issueOp_keeps h _ _ _ (fun _ h => plainAccess_keeps h _ _ _ _ _ _ _)
theorem execLdd_keeps {s : State} (h : Q s.mem) (f : Fields) : OutKeeps Q (execLdd f s) :=
  issueOp_keeps h _ _ _ (fun _ h => plainAccess_keeps h _ _ _ _ _ _ _)
theorem execStd_keeps {s : State} (h : Q s.mem) (f : Fields) : OutKeeps Q (execStd f s) :=
  issueOp_keeps h _ _ _ (fun _ h => plainAccess_keeps h _ _ _ _ _ _ _)
theorem execLdt_keeps {s : State} (h : Q s.mem) (f : Fields) : OutKeeps Q (execLdt f s) :=
  issueOp_keeps h _ _ _ (fun _ h => tileAccess_keeps h _ _)
theorem execStt_keeps {s : State} (h : Q s.mem) (f : Fields) : OutKeeps Q (execStt f s) :=
  issueOp_keeps h _ _ _ (fun _ h => tileAccess_keeps h _ _)
theorem execAtom_keeps {s : State} (h : Q s.mem) (f : Fields) : OutKeeps Q (execAtom f s) :=
  issueOp_keeps h _ _ _ (fun _ h => plainAccess_keeps h _ _ _ _ _ _ _)
theorem execAtomCas_keeps {s : State} (h : Q s.mem) (f : Fields) : OutKeeps Q (execAtomCas f s) :=
  issueOp_keeps h _ _ _ (fun _ h => plainAccess_keeps h _ _ _ _ _ _ _)
theorem execRed_keeps {s : State} (h : Q s.mem) (f : Fields) : OutKeeps Q (execRed f s) :=
  issueOp_keeps h _ _ _ (fun _ h => plainAccess_keeps h _ _ _ _ _ _ _)
theorem execPref_keeps {s : State} (h : Q s.mem) (f : Fields) : OutKeeps Q (execPref f s) :=
  issueOp_keeps h _ _ _ (fun _ h => rangeAccess_keeps h _ _)
theorem execCctlInv1_keeps {s : State} (h : Q s.mem) (f : Fields) : OutKeeps Q (execCctlInv1 f s) :=
  issueOp_keeps h _ _ _ (fun _ h => rangeAccess_keeps h _ _)
theorem execCctlInv1all_keeps {s : State} (h : Q s.mem) (f : Fields) : OutKeeps Q (execCctlInv1all f s) := by
  refine issueOp_keeps h _ _ _ (fun c h => ?_)
  dsimp only
  repeat' first
    | exact True.intro
    | exact h
    | (simpa using h)
    | split
theorem execCctlWb2_keeps {s : State} (h : Q s.mem) (f : Fields) : OutKeeps Q (execCctlWb2 f s) :=
  issueOp_keeps h _ _ _ (fun _ h => rangeAccess_keeps h _ _)
theorem execCctlEvict2_keeps {s : State} (h : Q s.mem) (f : Fields) : OutKeeps Q (execCctlEvict2 f s) :=
  issueOp_keeps h _ _ _ (fun _ h => rangeAccess_keeps h _ _)
theorem execPgreq_keeps {s : State} (h : Q s.mem) (f : Fields) : OutKeeps Q (execPgreq f s) := by
  refine issueOp_keeps h _ _ _ (fun c h => ?_)
  dsimp only
  repeat' first
    | exact True.intro
    | exact h
    | refine memChecks_keeps h _ _ _ _ _ (fun _ => ?_)
    | (simpa using h)
    | split
theorem execKjoin_keeps {s : State} (h : Q s.mem) (f : Fields) : OutKeeps Q (execKjoin f s) := by
  unfold execKjoin
  refine issueOp_keeps h _ _ _ (fun c h => ?_)
  repeat' first
    | exact True.intro
    | exact h
    | exact joinKeys_keeps h _ _
    | (simpa using h)
    | split
theorem execKcopy_keeps {s : State} (h : Q s.mem) (f : Fields) : OutKeeps Q (execKcopy f s) := by
  unfold execKcopy
  refine issueOp_keeps h _ _ _ (fun c h => ?_)
  repeat' first
    | exact True.intro
    | exact h
    | exact joinKeys_keeps h _ _
    | (simpa using h)
    | split
theorem execKwait_keeps {s : State} (h : Q s.mem) (f : Fields) : OutKeeps Q (execKwait f s) := by
  refine issueOp_keeps h _ _ _ (fun c h => ?_)
  dsimp only
  repeat' first
    | exact True.intro
    | exact h
    | (simpa using h)
    | split
theorem execKtest_keeps {s : State} (h : Q s.mem) (f : Fields) : OutKeeps Q (execKtest f s) := by
  refine issueOp_keeps h _ _ _ (fun c h => ?_)
  dsimp only [State.fresh]
  repeat' first
    | exact True.intro
    | exact h
    | (simpa using h)
    | (show Q _; rw [State.track_mem]; split <;> exact h)
    | split
theorem execFence_keeps {s : State} (h : Q s.mem) (f : Fields) : OutKeeps Q (execFence f s) := by
  unfold execFence
  refine issueOp_keeps h _ _ _ (fun c h => ?_)
  repeat' first
    | exact True.intro
    | exact h
    | (simpa using h)
    | split
theorem execKclr_keeps {s : State} (h : Q s.mem) (f : Fields) : OutKeeps Q (execKclr f s) := by
  refine issueOp_keeps h _ _ _ (fun c h => ?_)
  dsimp only
  repeat' first
    | exact True.intro
    | exact h
    | (simpa using h)
    | split
theorem execKrecv_keeps {s : State} (h : Q s.mem) (f : Fields) : OutKeeps Q (execKrecv f s) := by
  refine issueOp_keeps h _ _ _ (fun c h => ?_)
  dsimp only
  repeat' first
    | exact True.intro
    | exact h
    | (simpa using h)
    | (simpa [State.fresh] using h)
    | split
theorem execKsend_keeps {s : State} (h : Q s.mem) (f : Fields) : OutKeeps Q (execKsend f s) := by
  refine issueOp_keeps h _ _ _ (fun c h => ?_)
  dsimp only
  repeat' first
    | exact True.intro
    | exact h
    | (simpa using h)
    | (simpa [State.fresh] using h)
    | split
theorem execKsendMarker_keeps {s : State} (h : Q s.mem) (id point : Nat) : OutKeeps Q (execKsendMarker id point s) := by
  unfold execKsendMarker
  dsimp only
  repeat' first
    | (simpa using h)
    | split
theorem execKsendNotice_keeps {s : State} (h : Q s.mem) (id point : Nat) : OutKeeps Q (execKsendNotice id point s) := by
  unfold execKsendNotice
  split
  · simpa using h
  · split
    · next hx => simpa [linkHeld_mem hx] using h
    · dsimp only
      rw [outKeeps_next]
      split
      · rw [satisfySlot_mem]; exact h
      · exact h
theorem execArrivalDelivery_keeps {s : State} (h : Q s.mem) (id : Nat) : OutKeeps Q (execArrivalDelivery id s) := by
  unfold execArrivalDelivery
  repeat' first
    | (simpa using h)
    | (next hx => simpa [linkHeld_mem hx] using h)
    | split
theorem execCopyLineAccept_keeps {s : State} (h : Q s.mem) (id line : Nat) : OutKeeps Q (execCopyLineAccept id line s) := by
  unfold execCopyLineAccept
  split
  · simpa using h
  · next e _ =>
    split
    · simpa using h
    · extract_lets p write g
      have hm := grasp_mem s e.die e.asker g (if line / 2 % 4 = 3 then 128 else 64) write
      split
      · next hx => simpa [hm.1 _ _ _ hx] using h
      · next hx => simpa [hm.2.1 _ hx] using h
      · next hx => dsimp only; split <;> simpa [hm.2.2 _ hx] using h
      · simpa using h
theorem execCopyRetire_keeps {s : State} (h : Q s.mem) (id : Nat) : OutKeeps Q (execCopyRetire id s) := by
  unfold execCopyRetire
  repeat' first
    | (simpa using h)
    | split
theorem execMmaSliceWrite_keeps {s : State} (h : Q s.mem) (id : Nat) : OutKeeps Q (execMmaSliceWrite id s) := by
  unfold execMmaSliceWrite
  dsimp only
  repeat' first
    | (rw [outKeeps_next, State.post_mem, State.setEng_mem, foldl_mem _ (fun s c => setFmterr_mem _ _ _), setFmterr_mem,
        foldl_mem _ (fun s t => accPut_mem _ _ _ _)]; exact h)
    | (simpa using h)
    | split

theorem execObwait_keeps {s : State} (h : Q s.mem) (f : Fields) : OutKeeps Q (execObwait f s) := by
  refine issueOp_keeps h _ _ _ (fun c h => ?_)
  dsimp only
  repeat' first
    | exact True.intro
    | exact h
    | refine waitKey_keeps h _ ?_
    | (simpa using h)
    | (simpa [State.fresh] using h)
    | split
theorem execChseq_keeps {s : State} (h : Q s.mem) (f : Fields) : OutKeeps Q (execChseq f s) := by
  refine issueOp_keeps h _ _ _ (fun c h => ?_)
  dsimp only
  repeat' first
    | exact True.intro
    | exact h
    | refine keyChecked_keeps ?_
    | refine afterEntry_keeps _ (enterAccess_keeps h _ _ _ _ _ _ _ _)
    | (simpa using h)
    | split
theorem execColl_keeps {s : State} (h : Q s.mem) (f : Fields) : OutKeeps Q (execColl f s) := by
  refine issueOp_keeps h _ _ _ (fun c h => ?_)
  dsimp only
  repeat' first
    | exact True.intro
    | exact h
    | refine keyChecked_keeps ?_
    | refine readRecord_keeps h _ _ _ (fun _ _ h => ?_)
    | (simpa using h)
    | (simpa [State.fresh] using h)
    | split
theorem execPreemptDrainEnd_keeps {s : State} (h : Q s.mem) (gang : Nat) : OutKeeps Q (execPreemptDrainEnd gang s) := by
  unfold execPreemptDrainEnd
  dsimp only
  repeat' first
    | (simpa using h)
    | (rw [outKeeps_next, State.post_mem, foldl_mem _ (fun s e => by simp), undoSent_mem]; exact h)
    | split
theorem execPost_keeps {s : State} (h : Q s.mem) (f : Fields) : OutKeeps Q (execPost f s) := by
  unfold execPost
  refine issueOp_keeps h _ _ _ (fun c h => ?_)
  repeat' first
    | exact True.intro
    | exact h
    | exact sendMessage_keeps h _ _ _ _
    | refine waitKey_keeps h _ ?_
    | refine keyChecked_keeps ?_
    | (simpa using h)
    | split
theorem execPostArrival_keeps {s : State} (h : Q s.mem) (id : Nat) : OutKeeps Q (execPostArrival id s) := by
  unfold execPostArrival
  split
  · simpa using h
  · next m _ =>
    split
    · simpa using h
    · split
      · next hx => simpa [Message.heldOnWay_mem hx] using h
      · extract_lets die decided withCard
        have hd (card : BitVec 512) (place : List (BitVec 16)) (t : State) (ht : Q t.mem) : Q (decided card place t).mem := by
          show Q (if m.dev = t.device then decideCard m card place t else
            answer m (BitVec.ofNat 32 ((Config.openWord t.choice.1).toNat % 4)) t.choice.2).mem
          split
          · rw [decideCard_mem]; exact ht
          · rw [answer_mem]; exact ht
        clear_value decided
        have hg (l : List (DWord × Nat)) {t u : State} {bs : List Byte} (ht : Q t.mem) (hx : graspBytes m.t die m.ctx l t = .ok u bs) :
            Q u.mem := by rw [(graspBytes_mem m.t die m.ctx l t).1 _ _ hx]; exact ht
        have hu (card : BitVec 512) (l : List (DWord × Nat)) {t : State} (ht : Q t.mem) :
            Q (unreadable m card (graspBytes m.t die m.ctx l t) t).mem := by
          rw [unreadable_mem _ _ _ _ (graspBytes_mem m.t die m.ctx l t)]; exact ht
        have hc (t : State) (card : BitVec 512) (ht : Q t.mem) : Q (withCard t card).mem := by
          dsimp only [withCard]
          split
          · exact hd _ _ _ ht
          · split
            · next hx => exact hd _ _ _ (hg _ ht hx)
            · exact hu _ _ ht
        clear_value withCard
        split
        · exact (outKeeps_next _).mpr (hc _ _ h)
        · split
          · next hx => exact (outKeeps_next _).mpr (hc _ _ (hg _ h hx))
          · exact (outKeeps_next _).mpr (hu _ _ h)

theorem execHostDoorbell_keeps {s : State} (h : Q s.mem) (die queue ctx : Nat) (card : BitVec 512) : OutKeeps Q (execHostDoorbell die queue ctx card s) := by
  unfold execHostDoorbell
  dsimp only
  repeat' first
    | (simpa using h)
    | (simpa [State.fresh] using h)
    | split
theorem execAdmissionDecision_keeps {s : State} (h : Q s.mem) (die : Nat) : OutKeeps Q (execAdmissionDecision die s) := by
  unfold execAdmissionDecision
  extract_lets s1 s2 s3
  have h0 : Q s1.mem := by
    dsimp only [s1]
    rw [foldl_mem _ (fun s x => rechoose_mem _ _)]; exact h
  have h1 : Q s3.mem := by
    dsimp only [s3, s2]
    rw [foldl_mem _ (fun s x => by simp), yieldAll_mem]; exact h0
  clear_value s3
  split
  · simpa using h1
  · split
    · simpa using h1
    · split
      · next hx => rw [outKeeps_next, State.postOnce_mem, bindItem_mem hx]; exact h1
      · simpa using h1
theorem execAgeing_keeps {s : State} (h : Q s.mem) (die item : Nat) : OutKeeps Q (execAgeing die item s) := by
  unfold execAgeing
  repeat' first
    | (simpa using h)
    | (dsimp only; rw [outKeeps_next, foldl_mem _ (fun s d => by simp)]; simpa using h)
    | split
theorem execHouseholdSequenceNumber_keeps {s : State} (h : Q s.mem) (item : Nat) : OutKeeps Q (execHouseholdSequenceNumber item s) := by
  unfold execHouseholdSequenceNumber
  repeat' first
    | (simpa using h)
    | split
theorem execReservationRequest_keeps {s : State} (h : Q s.mem) (item die : Nat) : OutKeeps Q (execReservationRequest item die s) := by
  unfold execReservationRequest
  dsimp only
  repeat' first
    | (simpa using h)
    | (simpa [State.fresh] using h)
    | split
theorem execHoldClear_keeps {s : State} (h : Q s.mem) (item : Nat) : OutKeeps Q (execHoldClear item s) := by
  have hf : ∀ (l : List Item) (t : State), (l.foldl (fun s y => s.dropItem y.id) t).mem = t.mem := foldl_mem _ (fun s y => by simp)
  unfold execHoldClear
  dsimp only [State.choice]
  repeat' first
    | (simpa [hf] using h)
    | split
theorem execPreemptHoldTimeout_keeps {s : State} (h : Q s.mem) (die : Nat) : OutKeeps Q (execPreemptHoldTimeout die s) := by
  unfold execPreemptHoldTimeout
  repeat' first
    | (simpa using h)
    | split
theorem execPreemptRequest_keeps {s : State} (h : Q s.mem) (ctx : Nat) : OutKeeps Q (execPreemptRequest ctx s) := by
  unfold execPreemptRequest
  rw [outKeeps_next, foldl_mem _ (fun s h => by split <;> simp)]
  exact h
theorem execSpawn_keeps {s : State} (h : Q s.mem) (f : Fields) : OutKeeps Q (execSpawn f s) := by
  refine issueOp_keeps h _ _ _ (fun c h => ?_)
  dsimp only
  repeat' first
    | exact True.intro
    | exact h
    | refine waitKey_keeps h _ ?_
    | refine keyChecked_keeps ?_
    | (simpa using h)
    | split
theorem execMbsend_keeps {s : State} (h : Q s.mem) (f : Fields) : OutKeeps Q (execMbsend f s) := by
  refine issueOp_keeps h _ _ _ (fun c h => ?_)
  repeat' first
    | exact True.intro
    | exact h
    | exact sendMessage_keeps h _ _ _ _
    | refine waitKey_keeps h _ ?_
    | refine keyChecked_keeps ?_
    | (simpa using h)
    | split
theorem execPorchAccept_keeps {s : State} (h : Q s.mem) (id : Nat) : OutKeeps Q (execPorchAccept id s) := by
  unfold execPorchAccept
  dsimp only [State.choice]
  repeat' first
    | (simpa using h)
    | (next hx => simpa [Message.heldOnWay_mem hx] using h)
    | (rw [outKeeps_next]; split <;> simpa using h)
    | split
theorem execPorchRefill_keeps {s : State} (h : Q s.mem) (die : Nat) : OutKeeps Q (execPorchRefill die s) := by
  unfold execPorchRefill
  dsimp only
  repeat' first
    | (simpa using h)
    | split
theorem execMbrecv_keeps {s : State} (h : Q s.mem) (f : Fields) : OutKeeps Q (execMbrecv f s) := by
  refine issueOp_keeps h _ _ _ (fun c h => ?_)
  dsimp only [State.fresh]
  repeat' first
    | exact True.intro
    | exact h
    | refine waitKey_keeps h _ ?_
    | refine keyChecked_keeps ?_
    | (simpa using h)
    | split
theorem execMbstat_keeps {s : State} (h : Q s.mem) (f : Fields) : OutKeeps Q (execMbstat f s) :=
  issueOp_keeps h _ _ _ (fun _ h => trackedValue_keeps h _ _)
theorem execGraphNodeEnd_keeps {s : State} (h : Q s.mem) (graph node : Nat) : OutKeeps Q (execGraphNodeEnd graph node s) :=
  visitNode_keeps h _ _ _ (fun _ _ _ h => by simpa using h)
theorem execGraphNodeTask_keeps {s : State} (h : Q s.mem) (graph node : Nat) : OutKeeps Q (execGraphNodeTask graph node s) := by
  refine visitNode_keeps h _ _ _ (fun t g n h => ?_)
  dsimp only [State.fresh]
  repeat' first | (simpa using h) | split
theorem execGraphPostRetry_keeps {s : State} (h : Q s.mem) (graph node : Nat) : OutKeeps Q (execGraphPostRetry graph node s) := by
  unfold execGraphPostRetry
  dsimp only
  split
  · simpa using h
  · split
    · rw [outKeeps_next, foldl_mem _ (fun s x => by simp)]; exact h
    · rw [outKeeps_next, checkGraph_mem, State.setGraph_mem, foldl_mem _ (fun s x => by simp)]; exact h
theorem execGraphNodeCondition_keeps {s : State} (h : Q s.mem) (graph node : Nat) : OutKeeps Q (execGraphNodeCondition graph node s) :=
  visitNode_keeps h _ _ _ (fun t g n h => by
    rw [readCondition_mem _ _ _ _ _ _ (fun t v => by simp)]; exact h)
theorem execGraphNodeWhile_keeps {s : State} (h : Q s.mem) (graph node : Nat) : OutKeeps Q (execGraphNodeWhile graph node s) :=
  visitNode_keeps h _ _ _ (fun t g n h => by
    rw [readCondition_mem _ _ _ _ _ _ (fun t v => by dsimp only; repeat' first | (simp; done) | split)]; exact h)
theorem execGraphNodeJoin_keeps {s : State} (h : Q s.mem) (graph node : Nat) : OutKeeps Q (execGraphNodeJoin graph node s) := by
  refine visitNode_keeps h _ _ _ (fun t g n h => ?_)
  dsimp only
  repeat' first | (simpa using h) | split
theorem execGraphTaskComplete_keeps {s : State} (h : Q s.mem) (graph task : Nat) : OutKeeps Q (execGraphTaskComplete graph task s) := by
  unfold execGraphTaskComplete
  dsimp only
  repeat' first
    | (simpa using h)
    | split
theorem execGlaunch_keeps {s : State} (h : Q s.mem) (f : Fields) : OutKeeps Q (execGlaunch f s) := by
  refine issueOp_keeps h _ _ _ (fun c h => ?_)
  dsimp only
  repeat' first
    | exact True.intro
    | exact h
    | refine waitKey_keeps h _ ?_
    | refine keyChecked_keeps ?_
    | refine readRecord_keeps h _ _ _ (fun _ _ h => ?_)
    | (simpa using h)
    | (simpa [State.fresh] using h)
    | split
theorem execHhatt_keeps {s : State} (h : Q s.mem) (f : Fields) : OutKeeps Q (execHhatt f s) := by
  refine issueOp_keeps h _ _ _ (fun c h => ?_)
  dsimp only
  repeat' first
    | exact True.intro
    | exact h
    | (simpa using h)
    | split
theorem execHhdet_keeps {s : State} (h : Q s.mem) (f : Fields) : OutKeeps Q (execHhdet f s) := by
  refine issueOp_keeps h _ _ _ (fun c h => ?_)
  dsimp only
  repeat' first
    | exact True.intro
    | exact h
    | (simpa using h)
    | split
theorem execHhstat_keeps {s : State} (h : Q s.mem) (f : Fields) : OutKeeps Q (execHhstat f s) :=
  issueOp_keeps h _ _ _ (fun _ h => trackedValue_keeps h _ _)
theorem execAttachNotice_keeps {s : State} (h : Q s.mem) (gang core : Nat) : OutKeeps Q (execAttachNotice gang core s) := by
  unfold execAttachNotice
  repeat' first
    | (simpa using h)
    | split
theorem execDetachNotice_keeps {s : State} (h : Q s.mem) (gang core : Nat) : OutKeeps Q (execDetachNotice gang core s) := by
  unfold execDetachNotice
  split
  · split
    · rw [outKeeps_next]
      have hd : ∀ (c : Bool) (t : State), Q t.mem → Q (if c = true then s else t).mem := by
        intro c t ht; split
        · exact h
        · exact ht
      exact hd _ _ (by simpa using h)
    · simpa using h
  · simpa using h
theorem execDetachComplete_keeps {s : State} (h : Q s.mem) (gang : Nat) : OutKeeps Q (execDetachComplete gang s) := by
  unfold execDetachComplete
  split
  · split
    · rw [outKeeps_next, State.postAll_mem, postHeldEnds_mem, foldl_mem _ (fun s c => awayNotice_mem _ _ _ _ _)]; exact h
    · simpa using h
  · split
    · simpa using h
    · split
      · simpa using h
      · split
        · simpa using h
        · dsimp only
          rw [outKeeps_next, State.postAll_mem, postHeldEnds_mem, foldl_mem _ (fun s t => by simp)]; simpa using h
theorem execTrapWarpStart_keeps {s : State} (h : Q s.mem) (core : Nat) : OutKeeps Q (execTrapWarpStart core s) := by
  unfold execTrapWarpStart
  dsimp only
  repeat' first
    | (simpa using h)
    | (simpa [State.fresh] using h)
    | split
theorem execCtlr_keeps {s : State} (h : Q s.mem) (f : Fields) : OutKeeps Q (execCtlr f s) :=
  issueOp_keeps h _ _ _ (fun _ h => trackedValue_keeps h _ _)
theorem execCtlw_keeps {s : State} (h : Q s.mem) (f : Fields) : OutKeeps Q (execCtlw f s) := by
  refine issueOp_keeps h _ _ _ (fun c h => ?_)
  dsimp only
  split
  · next hx => rw [resKeeps_ok, ctlWrite_mem hx]; exact h
  · trivial
theorem execResume_keeps {s : State} (h : Q s.mem) (f : Fields) : OutKeeps Q (execResume f s) :=
  issueOp_keeps h _ _ _ (fun c h => by rw [resKeeps_ok, resumeCore_mem]; exact h)
theorem execHalt_keeps {s : State} (h : Q s.mem) (f : Fields) : OutKeeps Q (execHalt f s) :=
  issueOp_keeps h _ _ _ (fun c h => by rw [resKeeps_ok, haltCore_mem]; exact h)
theorem execKillw_keeps {s : State} (h : Q s.mem) (f : Fields) : OutKeeps Q (execKillw f s) := by
  refine issueOp_keeps h _ _ _ (fun c h => ?_)
  dsimp only
  repeat' first
    | exact True.intro
    | (rw [resKeeps_ok, foldl_mem _ (fun s t => by simp)]; exact h)
    | (simpa using h)
    | split
theorem execSysc_keeps {s : State} (h : Q s.mem) (f : Fields) : OutKeeps Q (execSysc f s) := by
  refine issueOp_keeps h _ _ _ (fun c h => ?_)
  dsimp only
  repeat' first
    | exact True.intro
    | exact h
    | (simpa using h)
    | split
theorem execManagementCoreResume_keeps {s : State} (h : Q s.mem) (core : Nat) (resume : Bool) : OutKeeps Q (execManagementCoreResume core resume s) := by
  unfold execManagementCoreResume
  split
  · simpa using h
  · split
    · simpa using h
    · dsimp only
      rw [outKeeps_next, resumeCore_mem, foldl_mem _ (fun s g => by simp)]; exact h
theorem execSnapr_keeps {s : State} (h : Q s.mem) (f : Fields) : OutKeeps Q (execSnapr f s) := by
  refine issueOp_keeps h _ _ _ (fun c h => ?_)
  dsimp only
  repeat' first
    | exact True.intro
    | exact h
    | exact trackedValue_keeps h _ _
    | (simpa using h)
    | split
theorem execSnapw_keeps {s : State} (h : Q s.mem) (f : Fields) : OutKeeps Q (execSnapw f s) := by
  refine issueOp_keeps h _ _ _ (fun c h => ?_)
  split
  · trivial
  · split
    · trivial
    · next hx => rw [resKeeps_ok, State.writeItem_mem hx]; exact h
theorem execWatchdog_keeps {s : State} (h : Q s.mem) (gang : Nat) : OutKeeps Q (execWatchdog gang s) := by
  unfold execWatchdog
  repeat' first
    | (simpa using h)
    | split
theorem execCoreSelfTest_keeps {s : State} (h : Q s.mem) (core : Nat) (pass : Bool) : OutKeeps Q (execCoreSelfTest core pass s) := by
  unfold execCoreSelfTest
  dsimp only
  repeat' first
    | (simpa using h)
    | (simpa [State.fresh] using h)
    | split
theorem execCorrectableError_keeps {s : State} (h : Q s.mem) (unit : Nat) : OutKeeps Q (execCorrectableError unit s) := by
  unfold execCorrectableError
  repeat' first
    | (simpa using h)
    | split
theorem execUncorrectableError_keeps {s : State} (h : Q s.mem) (site : ErrorSite) : OutKeeps Q (execUncorrectableError site s) := by
  unfold execUncorrectableError
  dsimp only
  cases site
  case uniform => simp only; rw [outKeeps_next, foldl_mem _ (fun s t => by simp)]; simpa using h
  all_goals dsimp only; (try split) <;> simpa using h
theorem execPoisonScrub_keeps {s : State} (h : Q s.mem) (line : Nat) : OutKeeps Q (execPoisonScrub line s) := by
  unfold execPoisonScrub
  repeat' first
    | (simpa using h)
    | split
theorem execPageResidentRelease_keeps {s : State} (h : Q s.mem) (ctx page : Nat) : OutKeeps Q (execPageResidentRelease ctx page s) := by
  unfold execPageResidentRelease
  repeat' first
    | (simpa using h)
    | split
theorem execFaultFilterForward_keeps {s : State} (h : Q s.mem) (core ctx page : Nat) : OutKeeps Q (execFaultFilterForward core ctx page s) := by
  unfold execFaultFilterForward
  dsimp only
  repeat' first
    | (simpa using h)
    | split
theorem execClusterStageForward_keeps {s : State} (h : Q s.mem) (cluster ctx page : Nat) : OutKeeps Q (execClusterStageForward cluster ctx page s) := by
  unfold execClusterStageForward
  repeat' first
    | (simpa using h)
    | split
theorem execPageRequestGroup_keeps {s : State} (h : Q s.mem) (pasid page : Nat) : OutKeeps Q (execPageRequestGroup pasid page s) := by
  unfold execPageRequestGroup
  repeat' first
    | (simpa using h)
    | split
theorem execPrgResponseSuccess_keeps {s : State} (h : Q s.mem) (pasid page : Nat) : OutKeeps Q (execPrgResponseSuccess pasid page s) := by
  unfold execPrgResponseSuccess
  repeat' first
    | (simpa using h)
    | split
theorem execPrgResponseInvalidRequest_keeps {s : State} (h : Q s.mem) (pasid page : Nat) : OutKeeps Q (execPrgResponseInvalidRequest pasid page s) := by
  unfold execPrgResponseInvalidRequest
  repeat' first
    | (simpa using h)
    | split
theorem execPrgResponseFailure_keeps {s : State} (h : Q s.mem) (pasid page : Nat) : OutKeeps Q (execPrgResponseFailure pasid page s) := by
  unfold execPrgResponseFailure
  split
  · simpa using h
  · dsimp only
    rw [outKeeps_next, State.log_mem]
    show Q (List.foldl (fun s x => denyPage x.ctx x.page s) s (s.tx.groups.filter (·.sent))).mem
    rw [foldl_mem _ (fun s x => by simp)]; exact h
theorem execPriReenable_keeps {s : State} (h : Q s.mem) : OutKeeps Q (execPriReenable s) := (outKeeps_next _).mpr h
theorem execAtsTranslationCompletion_keeps {s : State} (h : Q s.mem) (ctx page : Nat) (reply : AtsReply) : OutKeeps Q (execAtsTranslationCompletion ctx page reply s) := by
  unfold execAtsTranslationCompletion
  dsimp only
  repeat' first
    | (simpa using h)
    | split
theorem execAtsInvalidateRequest_keeps {s : State} (h : Q s.mem) (pasid lo hi : Nat) : OutKeeps Q (execAtsInvalidateRequest pasid lo hi s) := by
  unfold execAtsInvalidateRequest
  repeat' first
    | (simpa using h)
    | split
theorem execInvalidateCompletion_keeps {s : State} (h : Q s.mem) (pasid lo hi : Nat) : OutKeeps Q (execInvalidateCompletion pasid lo hi s) := by
  unfold execInvalidateCompletion
  split
  · simpa using h
  · dsimp only
    split
    · exact (outKeeps_next _).mpr h
    · next ctx _ =>
      have hd := dropPages_mem ctx (inRange lo hi) s
      split
      · simpa using h
      · split
        · next hx => rw [hx] at hd; rw [outKeeps_next, State.post_mem, hd]; exact h
        · next hx =>
          rw [hx] at hd
          rw [outKeeps_next, foldl_mem _ (fun s p => by simp), resolveAgain_mem]
          show Q (State.mem _)
          rw [hd]; exact h
theorem execContextBind_keeps {s : State} (h : Q s.mem) (ctx pasid : Nat) : OutKeeps Q (execContextBind ctx pasid s) := by
  unfold execContextBind
  dsimp only [State.choice]
  repeat' first
    | (simpa using h)
    | split
theorem execContextUnbind_keeps {s : State} (h : Q s.mem) (ctx : Nat) : OutKeeps Q (execContextUnbind ctx s) := by
  unfold execContextUnbind
  repeat' first
    | (simpa using h)
    | split
theorem execRetireSweepEnd_keeps {s : State} (h : Q s.mem) (ctx : Nat) : OutKeeps Q (execRetireSweepEnd ctx s) := by
  have hd := (dropPages_mem ctx (fun _ => true) (dropBridge ctx s)).trans (dropBridge_mem ctx s)
  unfold execRetireSweepEnd
  split
  · simpa using h
  · split <;> (next hx => rw [hx] at hd; rw [outKeeps_next]; first | (rw [State.post_mem, hd]; exact h) | (show Q (State.mem _); rw [hd]; exact h))
theorem execHomeWindowWrite_keeps {s : State} (h : Q s.mem) (ctx win : Nat) (entry : DWord) : OutKeeps Q (execHomeWindowWrite ctx win entry s) := by
  unfold execHomeWindowWrite
  repeat' first
    | (simpa using h)
    | split
theorem execAttributeEntryWrite_keeps {s : State} (h : Q s.mem) (ctx page : Nat) (entry : DWord) : OutKeeps Q (execAttributeEntryWrite ctx page entry s) := by
  unfold execAttributeEntryWrite
  repeat' first
    | (simpa using h)
    | split
theorem execBufferEntryChange_keeps {s : State} (h : Q s.mem) (ctx idx : Nat) (entry : BitVec 128) : OutKeeps Q (execBufferEntryChange ctx idx entry s) := by
  unfold execBufferEntryChange
  repeat' first
    | (simpa using h)
    | split
theorem execFrameMapWrite_keeps {s : State} (h : Q s.mem) (home : Home) (tpage : Nat) (entry : DWord) : OutKeeps Q (execFrameMapWrite home tpage entry s) := (outKeeps_next _).mpr h
theorem execPoolSegmentBind_keeps {s : State} (h : Q s.mem) (seg port base len : Nat) : OutKeeps Q (execPoolSegmentBind seg port base len s) := by
  unfold execPoolSegmentBind
  repeat' first
    | (simpa using h)
    | split
theorem execMigrationDriverRequest_keeps {s : State} (h : Q s.mem) (ctx page : Nat) (up : Bool) : OutKeeps Q (execMigrationDriverRequest ctx page up s) := by
  unfold execMigrationDriverRequest
  dsimp only
  repeat' first
    | (simpa using h)
    | (simpa [State.fresh] using h)
    | split
theorem execMigrationClaim_keeps {s : State} (h : Q s.mem) (move : Nat) : OutKeeps Q (execMigrationClaim move s) := by
  unfold execMigrationClaim
  dsimp only
  repeat' first
    | (simpa using h)
    | (rw [outKeeps_next, State.postAll_mem, State.setMove_mem, setFrame_mem]; exact h)
    | split
theorem execMigrationSwitch_keeps {s : State} (h : Q s.mem) (move : Nat) : OutKeeps Q (execMigrationSwitch move s) := by
  unfold execMigrationSwitch
  split
  · exact (outKeeps_next s).mpr h
  · next m _ =>
    have hd := recallLines_mem (s.tokenLinesIn m.srcLoc) move s
    split
    · exact (outKeeps_next s).mpr h
    · split
      · next hx => rw [hx] at hd; rw [outKeeps_next, State.post_mem, hd]; exact h
      · next hx =>
        rw [hx] at hd
        dsimp only
        rw [outKeeps_next, State.dropMove_mem]
        rw [← hd] at h; exact h
theorem execMigrationAbandon_keeps {s : State} (h : Q s.mem) (move : Nat) : OutKeeps Q (execMigrationAbandon move s) := by
  unfold execMigrationAbandon
  dsimp only
  repeat' first
    | (simpa using h)
    | split
theorem execModuleReachable_keeps {s : State} (h : Q s.mem) (dev : Nat) : OutKeeps Q (execModuleReachable dev s) := by
  unfold execModuleReachable
  repeat' first
    | (simpa using h)
    | split
theorem execModuleLost_keeps {s : State} (h : Q s.mem) (dev : Nat) : OutKeeps Q (execModuleLost dev s) := by
  unfold execModuleLost
  split
  · exact (outKeeps_next s).mpr h
  · split
    · simpa using h
    · dsimp only
      rw [outKeeps_next, foldl_mem _ (fun s t => by simp)]; simpa using h
theorem execAfrikDemand_keeps {s : State} (h : Q s.mem) (dev bytes : Nat) : OutKeeps Q (execAfrikDemand dev bytes s) := by
  unfold execAfrikDemand
  repeat' first
    | (simpa using h)
    | split
theorem execAfrikGrant_keeps {s : State} (h : Q s.mem) (dev : Nat) : OutKeeps Q (execAfrikGrant dev s) := by
  unfold execAfrikGrant
  repeat' first
    | (simpa using h)
    | split
theorem execHostReadNoCache_keeps {s : State} (h : Q s.mem) (line half : Nat) : OutKeeps Q (execHostReadNoCache line half s) := by
  unfold execHostReadNoCache
  repeat' first
    | (simpa using h)
    | split
theorem execHostReadShared_keeps {s : State} (h : Q s.mem) (line half : Nat) : OutKeeps Q (execHostReadShared line half s) := by
  unfold execHostReadShared
  split <;> simpa using h
theorem execHostReadAny_keeps {s : State} (h : Q s.mem) (line half : Nat) : OutKeeps Q (execHostReadAny line half s) := by
  unfold execHostReadAny
  split <;> simpa using h
theorem execBiconflict_keeps {s : State} (h : Q s.mem) (line half : Nat) : OutKeeps Q (execBiconflict line half s) := by
  unfold execBiconflict
  repeat' first
    | (simpa using h)
    | split
theorem execHostLineFetch_keeps {s : State} (h : Q s.mem) (line : Nat) (own : Bool) : OutKeeps Q (execHostLineFetch line own s) := by
  unfold execHostLineFetch
  dsimp only
  repeat' first
    | (simpa using h)
    | split
theorem execDirtyEvict_keeps {s : State} (h : Q s.mem) (line : Nat) : OutKeeps Q (execDirtyEvict line s) := by
  unfold execDirtyEvict
  repeat' first
    | (simpa using h)
    | split
theorem execHostSnoop_keeps {s : State} (h : Q s.mem) (line : Nat) (inv : Bool) : OutKeeps Q (execHostSnoop line inv s) := by
  unfold execHostSnoop
  repeat' first
    | (simpa using h)
    | split
theorem execPoolBisnpinv_keeps {s : State} (h : Q s.mem) (line : Nat) : OutKeeps Q (execPoolBisnpinv line s) := by
  unfold execPoolBisnpinv
  repeat' first
    | (simpa using h)
    | split
theorem execPoolBisnpdata_keeps {s : State} (h : Q s.mem) (line : Nat) : OutKeeps Q (execPoolBisnpdata line s) := by
  unfold execPoolBisnpdata
  repeat' first
    | (simpa using h)
    | split
theorem execPoolPortLost_keeps {s : State} (h : Q s.mem) (port : Nat) : OutKeeps Q (execPoolPortLost port s) := by
  unfold execPoolPortLost
  split
  · exact (outKeeps_next s).mpr h
  · dsimp only
    rw [outKeeps_next, State.log_mem, foldl_mem _ (fun s t => by simp), releasePool_mem, foldl_mem _ (fun s t => by simp)]
    exact h
theorem execPoolSegmentReattach_keeps {s : State} (h : Q s.mem) (seg : Nat) : OutKeeps Q (execPoolSegmentReattach seg s) := by
  unfold execPoolSegmentReattach
  split
  · exact (outKeeps_next s).mpr h
  · next g _ =>
    split
    · exact (outKeeps_next s).mpr h
    · dsimp only
      rw [outKeeps_next, State.log_mem]
      show Q (State.dropLoss g _).mem
      show Q (List.foldl (fun s l => poisonLine l .poison s) s _).mem
      rw [foldl_mem _ (fun s t => by simp)]
      exact h
theorem execMeasurementExtend_keeps {s : State} (h : Q s.mem) (reg : Nat) (data : List Byte) : OutKeeps Q (execMeasurementExtend reg data s) := by
  unfold execMeasurementExtend
  repeat' first
    | (simpa using h)
    | split
theorem execGetVersion_keeps {s : State} (h : Q s.mem)  : OutKeeps Q (execGetVersion s) := by
  unfold execGetVersion
  repeat' first
    | (simpa using h)
    | split
theorem execGetCapabilities_keeps {s : State} (h : Q s.mem)  : OutKeeps Q (execGetCapabilities s) := by
  unfold execGetCapabilities
  repeat' first
    | (simpa using h)
    | split
theorem execNegotiateAlgorithms_keeps {s : State} (h : Q s.mem) (asym hash : Bool) : OutKeeps Q (execNegotiateAlgorithms asym hash s) := by
  unfold execNegotiateAlgorithms
  repeat' first
    | (simpa using h)
    | split
theorem execGetDigests_keeps {s : State} (h : Q s.mem) (slot : Nat) : OutKeeps Q (execGetDigests slot s) := by
  unfold execGetDigests
  repeat' first
    | (simpa using h)
    | split
theorem execGetCertificate_keeps {s : State} (h : Q s.mem) (slot : Nat) : OutKeeps Q (execGetCertificate slot s) := by
  unfold execGetCertificate
  repeat' first
    | (simpa using h)
    | split
theorem execChallenge_keeps {s : State} (h : Q s.mem) (slot : Nat) (nonce : List Byte) : OutKeeps Q (execChallenge slot nonce s) := by
  unfold execChallenge
  repeat' first
    | (simpa using h)
    | split
theorem execGetMeasurements_keeps {s : State} (h : Q s.mem) (index : Nat) (sign : Bool) (nonce : List Byte) : OutKeeps Q (execGetMeasurements index sign nonce s) := by
  unfold execGetMeasurements
  repeat' first
    | (simpa using h)
    | split
theorem execSpdmUnsupportedRequest_keeps {s : State} (h : Q s.mem) (code : Nat) : OutKeeps Q (execSpdmUnsupportedRequest code s) := by
  unfold execSpdmUnsupportedRequest
  repeat' first
    | (simpa using h)
    | split
theorem execLifetimeCommit_keeps {s : State} (h : Q s.mem)  : OutKeeps Q (execLifetimeCommit s) := by
  unfold execLifetimeCommit
  repeat' first
    | (simpa using h)
    | split
theorem execLifetimeClear_keeps {s : State} (h : Q s.mem) (authorised : Bool) : OutKeeps Q (execLifetimeClear authorised s) := by
  unfold execLifetimeClear
  repeat' first
    | (simpa using h)
    | split

/-! ## Every instruction that writes memory, for its canonical form -/

theorem execCall_keeps {s : State} (h : MemCanonical s) (f : Fields) : OutKeeps Wf (execCall f s) :=
  issueOp_keeps (Q := Wf) h _ _ _ (fun _ h => checkedTarget_keeps (Q := Wf) h _ _ (pushCall_keeps h _ _ _ (fun _ h => h)))
theorem execCallx_keeps {s : State} (h : MemCanonical s) (f : Fields) : OutKeeps Wf (execCallx f s) :=
  issueOp_keeps (Q := Wf) h _ _ _ (fun _ h => checkedTarget_keeps (Q := Wf) h _ _ (pushCall_keeps h _ _ _ (fun _ h => h)))
theorem execLoadBind_keeps {s : State} (h : MemCanonical s) (id : Nat) : OutKeeps Wf (execLoadBind id s) := by
  unfold execLoadBind
  dsimp only
  split
  · exact next_wf h rfl
  · next a _ =>
    split
    · exact next_wf h rfl
    · split
      · split
        · exact next_wf h (by simp)
        · split
          · exact (outKeeps_next _).mpr (runAtoms_canonical (canonical_of_mem h (by simp)) _)
          · exact next_wf h (by simp)
      · split
        · exact next_wf h (by simp)
        · split
          · exact next_wf h (by simp)
          · exact (outKeeps_next _).mpr (ldtStep_canonical h _ _ _)
      · split
        · exact next_wf h (by simp)
        · split <;> exact next_wf h (by simp)
      · split <;> exact next_wf h (by simp)
      · split
        · exact next_wf h (by simp)
        · split <;> exact next_wf h (by simp)
theorem execStorePerform_keeps {s : State} (h : MemCanonical s) (id scope : Nat) : OutKeeps Wf (execStorePerform id scope s) := by
  unfold execStorePerform
  dsimp only
  split
  · split
    · exact next_wf h (by simp)
    · refine next_wf h ?_
      rw [settle_mem]
      repeat' first | (simp; done) | split
  · split
    · exact next_wf h rfl
    · next a _ =>
      split
      · split
        · exact next_wf h rfl
        · split
          · next aon sp _ _ =>
            split
            · exact next_wf h (by simp)
            · split
              · exact next_wf h (by simp)
              · exact (outKeeps_next _).mpr (sttStep_canonical h _ _ _)
          · split
            · exact next_wf h (by simp)
            · exact (outKeeps_next _).mpr (queueStores_canonical h _)
      · split
        · exact next_wf h rfl
        · split
          · exact next_wf h (by simp)
          · have h1 : MemCanonical (lineReady a true s).1 := canonical_of_mem h (by simp)
            split
            · exact (outKeeps_next _).mpr (drainStores_canonical h1 _ _)
            · exact (outKeeps_next _).mpr (canonical_of_mem h1 (by simp))
theorem execMaskedWrite_keeps {s : State} (h : MemCanonical s) (id : Nat) : OutKeeps Wf (execMaskedWrite id s) := by
  unfold execMaskedWrite
  split
  · exact next_wf h rfl
  · next a _ =>
    split
    · exact next_wf h rfl
    · split
      · exact next_wf h (State.post_mem _ _)
      · split
        · next hx => exact next_wf h ((State.post_mem _ _).trans (homeHeld_mem hx))
        · have h1 : MemCanonical (snoopWrites a s).1 := canonical_of_mem h (by simp)
          dsimp only
          split
          · exact (outKeeps_next _).mpr (drainStores_canonical h1 _ _)
          · exact (outKeeps_next _).mpr (canonical_of_mem h1 (by simp))
theorem execHearthAtomic_keeps {s : State} (h : MemCanonical s) (id : Nat) : OutKeeps Wf (execHearthAtomic id s) := by
  unfold execHearthAtomic
  split
  · exact next_wf h rfl
  · next a _ =>
    split
    · exact next_wf h rfl
    · split
      · exact next_wf h (by simp)
      · by_cases hm : a.mode = .cached
        · simp only [if_pos hm]
          have h1 := canonical_of_mem h (recallLine_mem (lineNum a.loc) a.id s)
          split
          · exact (outKeeps_next _).mpr (runAtoms_canonical h1 _)
          · exact (outKeeps_next _).mpr (canonical_of_mem h1 (by simp))
        · simp only [if_neg hm]
          have h1 := canonical_of_mem h (snoopWrites_mem a s)
          split
          · exact (outKeeps_next _).mpr (runAtoms_canonical h1 _)
          · exact (outKeeps_next _).mpr (canonical_of_mem h1 (by simp))
theorem execBridgeAtomic_keeps {s : State} (h : MemCanonical s) (id : Nat) : OutKeeps Wf (execBridgeAtomic id s) := by
  unfold execBridgeAtomic
  split
  · exact next_wf h rfl
  · next a _ =>
    split
    · exact next_wf h rfl
    · split
      · exact next_wf h (by simp)
      · split
        all_goals
          dsimp only
          split
          · exact (outKeeps_next _).mpr (runAtoms_canonical (canonical_of_mem h (by simp)) _)
          · exact next_wf h (by simp)
theorem execBridgeMaskedWrite_keeps {s : State} (h : MemCanonical s) (id : Nat) : OutKeeps Wf (execBridgeMaskedWrite id s) := by
  unfold execBridgeMaskedWrite
  dsimp only
  repeat' first
    | exact next_wf h rfl
    | (refine next_wf h ?_; simp; done)
    | (refine (outKeeps_next _).mpr (drainStores_canonical (canonical_of_mem h ?_) _ _); simp; done)
    | split
theorem execCpy_keeps {s : State} (h : MemCanonical s) (f : Fields) : OutKeeps Wf (execCpy f s) :=
  issueOp_keeps (Q := Wf) h _ _ _ (fun _ h => copyBody_keeps h _)
theorem execCpyf_keeps {s : State} (h : MemCanonical s) (f : Fields) : OutKeeps Wf (execCpyf f s) :=
  issueOp_keeps (Q := Wf) h _ _ _ (fun _ h => copyBody_keeps h _)
theorem execCpyb_keeps {s : State} (h : MemCanonical s) (f : Fields) : OutKeeps Wf (execCpyb f s) :=
  issueOp_keeps (Q := Wf) h _ _ _ (fun _ h => keyChecked_keeps (handOver_keeps h _))
theorem execCopyWrite_keeps {s : State} (h : MemCanonical s) (id count : Nat) : OutKeeps Wf (execCopyWrite id count s) := by
  unfold execCopyWrite
  split
  · exact next_wf h rfl
  · next e _ =>
    split
    · exact next_wf h rfl
    · split
      · exact next_wf h (by simp)
      · have hr := copyRun_canonical (x := (s, e)) h count
        dsimp only
        have hd := deliverTo_canonical (canonical_of_mem hr (State.setEng_mem (copyRun count (s, e)).1.2 _)) (copyRun count (s, e)).1.2
          (deliveredBytes (copyRun count (s, e)).1.2 e.progress (copyRun count (s, e)).1.2.progress)
        split
        · exact next_wf hd (by simp)
        · exact next_wf hd (by simp)
        · exact next_wf hd (by simp)
theorem execCopyBlockDecode_keeps {s : State} (h : MemCanonical s) (id : Nat) : OutKeeps Wf (execCopyBlockDecode id s) := by
  unfold execCopyBlockDecode
  split
  · exact next_wf h rfl
  · next e _ =>
    split
    · exact next_wf h rfl
    · split
      · exact next_wf h (by simp)
      · split
        · exact next_wf h (by simp)
        · dsimp only
          split
          · split
            · exact next_wf h (by simp)
            · split
              · exact next_wf h (by simp)
              · split
                · exact next_wf h (by simp)
                · exact next_wf h (by simp)
                · split
                  · exact next_wf h (by simp)
                  · split
                    · exact next_wf h (by simp)
                    · rw [outKeeps_next, State.post_mem]
                      refine deliverTo_canonical ?_ _ _
                      refine canonical_of_mem ?_ (State.setEng_mem _ _)
                      exact engPut_canonical (x := (s, e)) h _ _
          · exact next_wf h (by simp)
theorem execCpyfHopForward_keeps {s : State} (h : MemCanonical s) (id : Nat) : OutKeeps Wf (execCpyfHopForward id s) := by
  unfold execCpyfHopForward
  dsimp only [State.fresh]
  repeat' first
    | exact next_wf h rfl
    | (refine next_wf h ?_; simp; done)
    | split
  all_goals
    rw [outKeeps_next, State.post_mem, State.setEng_mem, deliver_mem]
    exact writeBytes_canonical h _ _
theorem execMma_keeps {s : State} (h : MemCanonical s) (f : Fields) : OutKeeps Wf (execMma f s) :=
  issueOp_keeps (Q := Wf) h _ _ _ (fun _ h => keyChecked_keeps (readRecord_keeps (Q := Wf) h _ _ _ (fun _ _ h => handOver_keeps h _)))
theorem execOperandsConsumed_keeps {s : State} (h : MemCanonical s) (id : Nat) : OutKeeps Wf (execOperandsConsumed id s) := by
  unfold execOperandsConsumed
  dsimp only
  repeat' first
    | exact next_wf h rfl
    | (refine next_wf h ?_; simp; done)
    | split
  exact next_wf (objectUpdate_canonical h (by assumption)) (by simp)
theorem execMdrn_keeps {s : State} (h : MemCanonical s) (f : Fields) : OutKeeps Wf (execMdrn f s) :=
  issueOp_keeps (Q := Wf) h _ _ _ (fun _ h => keyChecked_keeps (readRecord_keeps (Q := Wf) h _ _ _ (fun _ _ h => handOver_keeps h _)))
theorem execMdrnDrain_keeps {s : State} (h : MemCanonical s) (id : Nat) : OutKeeps Wf (execMdrnDrain id s) := by
  unfold execMdrnDrain
  split
  · exact next_wf h rfl
  · next e _ =>
    split
    · exact next_wf h rfl
    · split
      · exact next_wf h (State.post_mem _ _)
      · extract_lets r g sat whole n rows words grid d t all y x s1 s2 e1 e2 s3
        split
        · exact next_wf h (stopEng_mem _ _ _)
        · have hy : MemCanonical y.1.1 := putAll_canonical (x := (s, e)) h all
          clear_value y
          split
          · exact (outKeeps_next _).mpr (canonical_of_mem hy (engBar_mem _ _ _))
          · split
            · exact (outKeeps_next _).mpr (canonical_of_mem hy (by simp))
            · have h1 : s1.mem = y.1.1.mem := foldl_mem _ (fun s c => setFmterr_mem _ _ s) _ _
              have h2 : s2.mem = s1.mem := by
                show (if r.testBit 258 = true then rows.foldl (fun s i => accPut e i (g.colList.map (fun _ => 0)) s) s1 else s1).mem = s1.mem
                split
                · exact foldl_mem _ (fun s i => accPut_mem _ _ _ s) _ _
                · rfl
              refine (outKeeps_next _).mpr (canonical_of_mem hy ?_)
              rw [State.post_mem]; show (State.setEng _ _).mem = _; rw [State.setEng_mem, h2, h1]
theorem execAccld_keeps {s : State} (h : MemCanonical s) (f : Fields) : OutKeeps Wf (execAccld f s) :=
  issueOp_keeps (Q := Wf) h _ _ _ (fun _ h => accMove_keeps h _ _)
theorem execAccst_keeps {s : State} (h : MemCanonical s) (f : Fields) : OutKeeps Wf (execAccst f s) :=
  issueOp_keeps (Q := Wf) h _ _ _ (fun _ h => accMove_keeps h _ _)
theorem execMzero_keeps {s : State} (h : MemCanonical s) (f : Fields) : OutKeeps Wf (execMzero f s) :=
  issueOp_keeps (Q := Wf) h _ _ _ (fun _ h => keyChecked_keeps (handOver_keeps h _))
theorem execEnginePerform_keeps {s : State} (h : MemCanonical s) (id : Nat) : OutKeeps Wf (execEnginePerform id s) := by
  unfold execEnginePerform
  dsimp only
  repeat' first
    | exact next_wf h rfl
    | (refine next_wf h ?_; simp; done)
    | (refine next_wf (accEffect_canonical h (by assumption)) ?_; simp; done)
    | split
theorem execObinit_keeps {s : State} (h : MemCanonical s) (f : Fields) : OutKeeps Wf (execObinit f s) :=
  issueOp_keeps (Q := Wf) h _ _ _ (fun _ h => objectBody_keeps h _ _ _)
theorem execObarr_keeps {s : State} (h : MemCanonical s) (f : Fields) : OutKeeps Wf (execObarr f s) :=
  issueOp_keeps (Q := Wf) h _ _ _ (fun _ h => objectBody_keeps h _ _ _)
theorem execObarrHold_keeps {s : State} (h : MemCanonical s) (f : Fields) : OutKeeps Wf (execObarrHold f s) :=
  issueOp_keeps (Q := Wf) h _ _ _ (fun _ h => objectBody_keeps h _ _ _)
theorem execObexp_keeps {s : State} (h : MemCanonical s) (f : Fields) : OutKeeps Wf (execObexp f s) :=
  issueOp_keeps (Q := Wf) h _ _ _ (fun _ h => objectBody_keeps h _ _ _)
theorem execObexpRls_keeps {s : State} (h : MemCanonical s) (f : Fields) : OutKeeps Wf (execObexpRls f s) :=
  issueOp_keeps (Q := Wf) h _ _ _ (fun _ h => objectBody_keeps h _ _ _)
theorem execChapp_keeps {s : State} (h : MemCanonical s) (f : Fields) : OutKeeps Wf (execChapp f s) := by
  refine issueOp_keeps (Q := Wf) h _ _ _ (fun c h => ?_)
  dsimp only
  split
  · split
    · exact h
    · split
      · trivial
      split
      · trivial
      · refine waitKey_keeps (Q := Wf) h _ ?_
        split
        · exact h
        · split
          · trivial
          · split
            · exact h
            · exact startWalk_canonical (writeBytes_canonical (writeBytes_canonical h _ _) _ _) _ _ _ _
          · trivial
          · trivial
          · refine threadGrasp_keeps (Q := Wf) h _ _ _ _ (fun s l mode h => ?_)
            split
            · exact h
            · exact startWalk_canonical (writeBytes_canonical (canonical_of_mem (agentPut_canonical h _ _ _ _) (State.modCore_mem _ _ _)) _ _)
                _ _ _ _
  · trivial
  · trivial
theorem execChainEntryRun_keeps {s : State} (h : MemCanonical s) (id : Nat) : OutKeeps Wf (execChainEntryRun id s) := by
  unfold execChainEntryRun
  split
  · exact next_wf h rfl
  · split
    · exact next_wf h rfl
    · split
      · exact (outKeeps_next _).mpr (nextEntry_canonical h _)
      · split
        · exact (outKeeps_next _).mpr (storeDone_canonical h _ _ _ _ (fun _ hs => canonical_of_mem hs (by simp)))
        · split
          · exact (outKeeps_next _).mpr (stopChain_canonical h _ _)
          · exact next_wf h rfl
theorem execCollCompute_keeps {s : State} (h : MemCanonical s) (id : Nat) : OutKeeps Wf (execCollCompute id s) := by
  unfold execCollCompute
  split
  · exact next_wf h rfl
  · next i _ =>
    split
    · exact next_wf h rfl
    · next e0 _ =>
      dsimp only
      split
      · exact next_wf h (failColl_mem _ _ _)
      · have hr : (collRead e0.recN (collParts s i) s).1.mem = s.mem := collRead_mem _ _ s
        split
        · exact next_wf h (failColl_mem _ _ _)
        split
        · exact next_wf h (failColl_mem _ _ _)
        split
        · exact next_wf h rfl
        split
        · exact next_wf h rfl
        split
        · exact next_wf h (State.post_mem _ _)
        split
        · next hx => rw [hx] at hr; exact next_wf h ((failColl_mem _ _ _).trans hr)
        · next hx => rw [hx] at hr; exact next_wf h ((engBar_mem _ _ _).trans hr)
        · next u hx =>
          rw [hx] at hr
          have hu : MemCanonical u := canonical_of_mem h hr
          have hw : ∀ {l x}, collWrite l u = x → MemCanonical x.1 := fun e => e ▸ collWrite_canonical hu _
          split
          · next hv => exact (outKeeps_next _).mpr (canonical_of_mem (hw hv) (failColl_mem _ _ _))
          · next hv => exact (outKeeps_next _).mpr (canonical_of_mem (hw hv) (engBar_mem _ _ _))
          · next hv => exact (outKeeps_next _).mpr (canonical_of_mem (hw hv) (State.post_mem _ _))
          · next hv =>
            exact (outKeeps_next _).mpr (foldl_canonical _ (fun _ _ hs => canonical_of_mem hs (performEng_mem _ _)) _ (hw hv))
theorem execBlockDispatch_keeps {s : State} (h : MemCanonical s) (block : Nat) : OutKeeps Wf (execBlockDispatch block s) := by
  unfold execBlockDispatch
  split
  · exact next_wf h rfl
  · next b _ =>
    split
    · exact next_wf h rfl
    · split
      · exact next_wf h rfl
      · dsimp only
        refine next_wf (zeroBlock_canonical h b) ?_
        rw [recheck_mem, foldl_mem _ (fun s w => by simp)]
        simp
theorem execResumeRestore_keeps {s : State} (h : MemCanonical s) (gang : Nat) : OutKeeps Wf (execResumeRestore gang s) := by
  unfold execResumeRestore
  split
  · split
    · refine (outKeeps_next _).mpr (foldl_canonical _ (fun s g hs => ?_) _ h)
      split
      · exact restoreGang_canonical hs _ _
      · exact hs
    · exact next_wf h rfl
  · exact next_wf h rfl
theorem execBlockEnd_keeps {s : State} (h : MemCanonical s) (block : Nat) : OutKeeps Wf (execBlockEnd block s) := by
  unfold execBlockEnd
  split
  · exact next_wf h rfl
  · split
    · exact next_wf h rfl
    · split
      · exact (outKeeps_next _).mpr (endLast_canonical h _ _)
      · split
        · exact next_wf h rfl
        · split
          · exact next_wf h (by simp)
          · dsimp only
            rw [outKeeps_next]
            split
            · refine endLast_canonical ?_ _ _
              unfold MemCanonical
              rw [wakeAdmission_mem, freeBlock_mem]
              exact h
            · rw [wakeAdmission_mem, removeBlock_mem]; exact h
theorem execGraphCompletion_keeps {s : State} (h : MemCanonical s) (graph : Nat) : OutKeeps Wf (execGraphCompletion graph s) := by
  unfold execGraphCompletion
  split
  · exact next_wf h rfl
  · next g _ =>
    split
    · exact next_wf h rfl
    · dsimp only
      generalize (if g.faulted = true then g.failval.toNat else g.doneval.toNat) = v
      have hw := writeDone_canonical h g.die g.ctx g.done v
      split
      · exact next_wf hw rfl
      · rw [outKeeps_next, State.post_mem]; exact hw
theorem execRett_keeps {s : State} (h : MemCanonical s) (f : Fields) : OutKeeps Wf (execRett f s) := by
  refine issueOp_keeps (Q := Wf) h _ _ _ (fun c h => ?_)
  split
  · trivial
  · dsimp only
    split
    all_goals
      split
      · exact trackedValue_keeps (Q := Wf) h _ _
      · refine pushCall_keeps h _ _ _ (fun s h => ?_)
        exact canonical_of_mem (t := resumeCore _ _) h (by simp)
theorem execMigrationCopy_keeps {s : State} (h : MemCanonical s) (move : Nat) : OutKeeps Wf (execMigrationCopy move s) := by
  unfold execMigrationCopy
  split
  · exact next_wf h rfl
  · next m _ =>
    have hd := recallLines_mem (s.tokenLinesIn m.srcLoc) move s
    split
    · exact next_wf h rfl
    · split
      · next hx => rw [hx] at hd; exact next_wf h ((State.post_mem _ _).trans hd)
      · next t hx =>
        rw [hx] at hd
        have ht : MemCanonical t := canonical_of_mem h hd
        split
        · exact (outKeeps_next _).mpr (canonical_of_mem ht (by simp))
        · dsimp only
          rw [outKeeps_next, State.post_mem, State.setMove_mem]; exact copyFrame_wf _ _ ht
theorem execLinkRetire_keeps {s : State} (h : MemCanonical s) (link : Nat) : OutKeeps Wf (execLinkRetire link s) := by
  unfold execLinkRetire
  extract_lets l die s1 s2 lines fb s3 s4
  have h3 : MemCanonical s3 := canonical_of_mem h (by show (State.log _ _ _ _ _ _ _).mem = _; simp [s1])
  have h4 : MemCanonical s4 := canonical_of_mem h3 (by simp [s4])
  clear_value s3 s4
  split
  · exact next_wf h rfl
  · split
    · exact (outKeeps_next _).mpr (canonical_of_mem h3 (by simp))
    · split
      · rw [outKeeps_next, State.log_mem]; exact stopModule_canonical h4
      · exact (outKeeps_next _).mpr h4
theorem execHostWrite_keeps {s : State} (h : MemCanonical s) (line half : Nat) (st : HalfState) (bytes : List (Nat × Byte)) : OutKeeps Wf (execHostWrite line half st bytes s) := by
  unfold execHostWrite
  extract_lets again
  split
  · exact next_wf h rfl
  split
  · exact (outKeeps_next _).mpr (hostStore_canonical h _ _ _ _)
  split
  · exact next_wf h rfl
  split
  · exact next_wf h (State.post_mem _ _)
  have h1 : MemCanonical (if st = .invalid then (s, true) else tableRoom line s).1 := by
    split
    · exact h
    · exact canonical_of_mem h (tableRoom_mem _ _)
  generalize (if st = .invalid then (s, true) else tableRoom line s) = x at h1
  dsimp only
  split
  · exact (outKeeps_next _).mpr (canonical_of_mem h1 (State.post_mem _ _))
  have h2 : MemCanonical (bridgeDemand line true x.1).1 := canonical_of_mem h1 (bridgeDemand_mem _ _ _)
  generalize bridgeDemand line true x.1 = y at h2
  split
  · exact (outKeeps_next _).mpr (canonical_of_mem h2 (State.post_mem _ _))
  · rw [outKeeps_next]
    split
    · rw [State.setHalf_mem]; exact writeHalf_canonical (canonical_of_mem h2 (by simp)) _ _ _
    · rw [grantHalf_mem]; exact writeHalf_canonical (canonical_of_mem h2 (by simp)) _ _ _
theorem execPoolSegmentUnmap_keeps {s : State} (h : MemCanonical s) (seg : Nat) : OutKeeps Wf (execPoolSegmentUnmap seg s) := by
  unfold execPoolSegmentUnmap
  split
  · exact next_wf h rfl
  · split
    · exact next_wf h rfl
    · dsimp only
      rw [outKeeps_next, State.log_mem]
      exact foldl_canonical _ (fun _ _ hs => forgetLine_canonical hs _) _ h
theorem execPoolLineFetch_keeps {s : State} (h : MemCanonical s) (line : Nat) : OutKeeps Wf (execPoolLineFetch line s) := by
  unfold execPoolLineFetch
  split
  · exact next_wf h rfl
  · split
    · exact next_wf h rfl
    · extract_lets old mine s1 s2 x t s3
      have h1 : MemCanonical s1 := by
        refine canonical_of_mem h ?_
        show (match old, decide (mine.length ≥ bridgeLines), mine.head? with
          | none, true, some first => releasePool (· == first.line) (writeBackPool (· == first.line) s)
          | _, _, _ => s).mem = s.mem
        split
        · rw [releasePool_mem, writeBackPool_mem]
        · rfl
      have h2 : MemCanonical s2 := by
        show MemCanonical (if old.isNone then freshLine line s1 else s1)
        split
        · exact freshLine_canonical h1 _
        · exact h1
      exact (outKeeps_next _).mpr (canonical_of_mem h2 (by rw [dropAsked_mem, State.setTokens_mem]))
theorem execPowerLoss_keeps {s : State} (h : MemCanonical s) : OutKeeps Wf (execPowerLoss s) :=
  (outKeeps_next _).mpr (unpowered_canonical h)
theorem execPowerGoodReset_keeps {s : State} (h : MemCanonical s) : OutKeeps Wf (execPowerGoodReset s) :=
  next_wf (unpowered_canonical h) (by simp)
theorem execBootStage_keeps {s : State} (h : MemCanonical s) : OutKeeps Wf (execBootStage s) := by
  unfold execBootStage
  dsimp only
  split
  · exact next_wf h rfl
  · split
    · exact next_wf h (by simp)
    · split
      · refine next_wf h ?_; rw [State.finishStage_mem]; simp
      · exact next_wf h (by simp)
    · split
      · exact next_wf h (by simp)
      · split
        · refine next_wf h ?_; rw [State.finishStage_mem]; simp
        · exact next_wf h (by simp)
    · rw [outKeeps_next, State.finishStage_mem]
      generalize Config.cores = n
      exact filter_wf _ (foldl_canonical _ (fun _ _ hs => canonical_of_mem hs (by simp)) _ h)
    · exact next_wf h (by simp)
    · exact next_wf h rfl
theorem execPowerTelemetry_keeps {s : State} (h : MemCanonical s) (near : Nat) (temps : List (Nat × Nat)) : OutKeeps Wf (execPowerTelemetry near temps s) :=
  next_wf (foldl_canonical _ (fun _ _ hs => dieTemp_canonical hs _) _ h) rfl

/-! ## The fetch -/

/-- A fetch that stops leaves memory as it was. -/
theorem fetchInstr_mem {r : TRef} {s t : State} (h : fetchInstr r s = .stop t) : t.mem = s.mem := by
  unfold fetchInstr at h
  dsimp only at h
  repeat' split at h
  all_goals cases h
  all_goals simp

end Sys2Proof.Laws
end

