-- ==== Sys2Proof/Laws/Objects.lean ====
section
/-! SUPPORT. Values in memory read back (R5), and the updates of barrier objects (R239). -/

namespace Sys2Proof.Laws

open Sys2Proof.Machine Sys2Proof.Safety

theorem bytesOf_getD (n v i : Nat) (h : i < n) : (bytesOf n v).getD i 0 = BitVec.ofNat 8 (v / 256 ^ i) := by
  induction n generalizing v i with
  | zero => omega
  | succ n ih =>
    cases i with
    | zero => simp [bytesOf]
    | succ i => rw [bytesOf, List.getD_cons_succ, ih _ _ (by omega), Nat.div_div_eq_div_mul, Nat.pow_succ']

theorem readN_writeN {m : List Host.Cell} (h : Memory.wf m = true) (a : Nat) (bs : List Byte) :
    Memory.readN (Memory.writeN a bs m) a bs.length = bs := by
  apply List.ext_getElem
  · simp [Memory.readN]
  · intro i h1 h2
    simp only [Memory.readN, List.getElem_map, List.getElem_range]
    rw [read_writeN_inside h a bs h2, List.getD_eq_getElem _ _ h2]

theorem readLe_writeBytes {s : State} (h : MemCanonical s) (loc n v : Nat) : (s.writeBytes loc (bytesOf n v)).readLe loc n = v % 256 ^ n := by
  have := readN_writeN h loc (bytesOf n v)
  rw [bytesOf_length] at this
  unfold State.readLe State.readBytes
  rw [State.writeBytes, this, leValue_bytesOf]

theorem obMake_lt (v e c : Nat) (ph : Bool) (p : Nat) : obMake v e c ph p < 2 ^ 128 := by
  unfold obMake; have := ph.toNat_lt; omega

theorem obExp_make (v e c : Nat) (ph : Bool) (p : Nat) : obExp (obMake v e c ph p) = e % 2 ^ 16 := by
  unfold obExp obMake; have := ph.toNat_lt; omega

theorem obCur_make (v e c : Nat) (ph : Bool) (p : Nat) : obCur (obMake v e c ph p) = c % 2 ^ 16 := by
  unfold obCur obMake; have := ph.toNat_lt; omega

theorem obPend_make (v e c : Nat) (ph : Bool) (p : Nat) : obPend (obMake v e c ph p) = p % 2 ^ 48 := by
  unfold obPend obMake; have := ph.toNat_lt; omega

theorem obPhase_make (v e c : Nat) (ph : Bool) (p : Nat) : obPhase (obMake v e c ph p) = ph := by
  have h : obMake v e c ph p / 2 ^ 64 % 2 = ph.toNat := by unfold obMake; have := ph.toNat_lt; omega
  unfold obPhase
  rw [Nat.testBit_eq_decide_div_mod_eq, h]; cases ph <;> rfl

theorem progress_thread? (g : Nat) (s : State) (r : TRef) : (s.progress g).thread? r = s.thread? r := rfl

theorem progressOf_thread? (th : Thread) (s : State) (r : TRef) : (s.progressOf th).thread? r = s.thread? r := by
  unfold State.progressOf; split <;> rfl

theorem performAt_thread? (id scope : Nat) (s : State) (r : TRef) : (s.performAt id scope).thread? r = s.thread? r := by
  have : (s.performAt id scope).threads = s.threads := by
    unfold State.performAt; split <;> rfl
  simp only [State.thread?, this]

theorem finish_status (n : Nat) (t : Thread) : (Thread.finish n t).status = .ready := by
  unfold Thread.finish; rfl

theorem thread?_mem {s : State} {r : TRef} {th : Thread} (h : s.thread? r = some th) : th ∈ s.threads := List.mem_of_find?_eq_some h

theorem thread?_ref' {s : State} {r : TRef} {th : Thread} (h : s.thread? r = some th) : th.ref = r := by
  have := List.find?_some h; simpa using this

/-- A waiter of another parity is released, and stays so. -/
theorem releaseFold (loc : Nat) (ph : Bool) (l : List Thread) (s : State) (r : TRef) (th : Thread) (h : s.thread? r = some th)
    (hw : th.status = .ready ∨ (th ∈ l ∧ ∃ par id, th.status = .obwait loc par id ∧ par ≠ ph)) :
    ∃ x, (l.foldl (fun s t =>
      match t.status with
      | .obwait k par id => if k = loc ∧ par ≠ ph then (s.performAt id 6).modThread t.ref (Thread.finish (s.clock + 1)) |>.progressOf t else s
      | _ => s) s).thread? r = some x ∧ x.status = .ready := by
  induction l generalizing s th with
  | nil =>
    rcases hw with h' | ⟨h', -⟩
    · exact ⟨th, h, h'⟩
    · simp at h'
  | cons y l ih =>
    rw [List.foldl_cons]
    have keep : (s.thread? r = some th) → (th.status = .ready ∨ (th ∈ l ∧ ∃ par id, th.status = .obwait loc par id ∧ par ≠ ph)) → _ := fun a b => ih s th a b
    have free : ∀ (id : Nat), y.ref ≠ r → (((s.performAt id 6).modThread y.ref (Thread.finish (s.clock + 1))).progressOf y).thread? r = some th := by
      intro id hy
      rw [progressOf_thread?, thread?_modThread_ne _ (fun t => finish_ref _ t) (Ne.symm hy), performAt_thread?, h]
    have done : ∀ (id : Nat), y.ref = r → (((s.performAt id 6).modThread y.ref (Thread.finish (s.clock + 1))).progressOf y).thread? r =
        some (Thread.finish (s.clock + 1) th) := by
      intro id hy
      rw [progressOf_thread?, hy, thread?_modThread _ (fun t => finish_ref _ t), performAt_thread?, h]; rfl
    rcases hw with hr | ⟨hm, par, id, hst, hp⟩
    · split
      · split
        · next k p i _ _ =>
          by_cases hy : y.ref = r
          · exact ih _ _ (done i hy) (.inl (finish_status _ _))
          · exact ih _ _ (free i hy) (.inl hr)
        · exact keep h (.inl hr)
      · exact keep h (.inl hr)
    · rcases List.mem_cons.mp hm with e | hm
      · subst e
        rw [hst]
        simp only [hp, ne_eq, not_false_eq_true, and_self, if_true]
        exact ih _ _ (done id (thread?_ref' h)) (.inl (finish_status _ _))
      · split
        · split
          · next k p i _ _ =>
            by_cases hy : y.ref = r
            · exact ih _ _ (done i hy) (.inl (finish_status _ _))
            · exact ih _ _ (free i hy) (.inr ⟨hm, par, id, hst, hp⟩)
          · exact keep h (.inr ⟨hm, par, id, hst, hp⟩)
        · exact keep h (.inr ⟨hm, par, id, hst, hp⟩)

/-- A thread that waits on an object at a location while its phase is another than the one reached is released. -/
theorem releaseObWaiters_ready {s : State} (loc : Nat) (ph : Bool) {r : TRef} {th : Thread} (h : s.thread? r = some th)
    {par : Bool} {id : Nat} (hst : th.status = .obwait loc par id) (hp : par ≠ ph) :
    ∃ x, (releaseObWaiters loc ph s).thread? r = some x ∧ x.status = .ready := by
  unfold releaseObWaiters
  exact releaseFold loc ph s.threads s r th h (.inr ⟨thread?_mem h, par, id, hst, hp⟩)

/-- What an update writes, from the counts that it comes to. -/
theorem obUpdate_comes {u : ObUpdate} {v0 : Nat} (e cur : Nat) (ph : Bool) (pend : Nat)
    (he : e < 2 ^ 16) (hc : cur < 2 ^ 16) (hp : pend < 2 ^ 48) (w : Nat) (hs : obStep u v0 = some (obMake w e cur ph pend)) :
    ∃ v, obUpdate u v0 = some v ∧ v < 2 ^ 128 ∧ obExp v = e ∧
      (cur = e → pend = 0 → obCur v = 0 ∧ obPhase v = !ph ∧ obPend v = 0) ∧
      (¬(cur = e ∧ pend = 0) → obCur v = cur ∧ obPhase v = ph ∧ obPend v = pend) := by
  have hcomp : obComplete (obMake w e cur ph pend) = decide (cur = e ∧ pend = 0) := by
    unfold obComplete
    rw [obCur_make, obExp_make, obPend_make, Nat.mod_eq_of_lt he, Nat.mod_eq_of_lt hc, Nat.mod_eq_of_lt hp]
    by_cases a : cur = e <;> by_cases b : pend = 0 <;> simp [a, b]
  unfold obUpdate
  rw [hs, Option.map_some, hcomp]
  by_cases hd : cur = e ∧ pend = 0
  · refine ⟨_, rfl, ?_⟩
    simp only [hd, and_self, decide_true, if_true]
    refine ⟨obMake_lt _ _ _ _ _, ?_, fun _ _ => ⟨?_, ?_, ?_⟩, fun x => absurd trivial x⟩
    · rw [obExp_make, obExp_make, Nat.mod_mod, Nat.mod_eq_of_lt he]
    · rw [obCur_make, Nat.zero_mod]
    · rw [obPhase_make, obPhase_make]
    · rw [obPend_make, obPend_make, Nat.zero_mod, Nat.zero_mod]
  · refine ⟨_, rfl, ?_⟩
    simp only [hd, decide_false, if_false, Bool.false_eq_true]
    refine ⟨obMake_lt _ _ _ _ _, ?_, fun a b => absurd ⟨a, b⟩ hd, fun _ => ⟨?_, ?_, ?_⟩⟩
    · rw [obExp_make, Nat.mod_eq_of_lt he]
    · rw [obCur_make, Nat.mod_eq_of_lt hc]
    · rw [obPhase_make]
    · rw [obPend_make, Nat.mod_eq_of_lt hp]

/-- What an update of the object at a location leaves. -/
theorem objectUpdate_comes {s : State} (h : MemCanonical s) (loc : Nat) (u : ObUpdate) (e cur : Nat) (ph : Bool) (pend : Nat)
    (he : e < 2 ^ 16) (hc : cur < 2 ^ 16) (hp : pend < 2 ^ 48)
    (w : Nat) (hs : obStep u (s.readLe loc 16) = some (obMake w e cur ph pend)) :
    ∃ t, objectUpdate loc u s = some t ∧
    (let v := t.readLe loc 16
     obExp v = e ∧
     (cur = e → pend = 0 → obCur v = 0 ∧ obPhase v = !ph ∧ obPend v = 0) ∧
     (¬(cur = e ∧ pend = 0) → obCur v = cur ∧ obPhase v = ph ∧ obPend v = pend) ∧
     (obPhase v ≠ obPhase (s.readLe loc 16) → ∀ r th par id, s.thread? r = some th → th.status = .obwait loc par id → par ≠ obPhase v →
       ∃ x, t.thread? r = some x ∧ x.status = .ready)) ∧
    SameOutside loc 16 s t := by
  obtain ⟨v, hv, hlt, f1, f2, f3⟩ := obUpdate_comes e cur ph pend he hc hp w hs
  have rd : ((s.writeBytes loc (bytesOf 16 v)).readLe loc 16) = v := by
    rw [readLe_writeBytes h, Nat.mod_eq_of_lt (Nat.lt_of_lt_of_le hlt (by decide))]
  have out : SameOutside loc 16 s (s.writeBytes loc (bytesOf 16 v)) := fun a ha =>
    read_writeN_outside h _ _ (by rw [bytesOf_length]; exact ha)
  unfold objectUpdate
  simp only [hv]
  refine ⟨_, rfl, ?_⟩
  by_cases hb : obPhase v = obPhase (s.readLe loc 16)
  · rw [if_neg (by simp [hb])]
    rw [rd]
    exact ⟨⟨f1, f2, f3, fun hx => absurd hb hx⟩, out⟩
  · rw [if_pos (by simpa using hb)]
    have m := releaseObWaiters_mem loc (obPhase v) (s.writeBytes loc (bytesOf 16 v))
    have rd' : (releaseObWaiters loc (obPhase v) (s.writeBytes loc (bytesOf 16 v))).readLe loc 16 = v := by
      unfold State.readLe State.readBytes at rd ⊢; rw [m, rd]
    rw [rd']
    have ht : ∀ r, (s.writeBytes loc (bytesOf 16 v)).thread? r = s.thread? r := fun _ => rfl
    refine ⟨⟨f1, f2, f3, fun _ r th par id h1 h2 h3 => ?_⟩, fun a ha => by rw [m]; exact out a ha⟩
    exact releaseObWaiters_ready loc (obPhase v) ((ht r).trans h1) h2 h3

theorem objectUpdate_none {s : State} {loc : Nat} {u : ObUpdate} (hs : obStep u (s.readLe loc 16) = none) : objectUpdate loc u s = none := by
  simp only [objectUpdate, obUpdate, hs, Option.map_none]

end Sys2Proof.Laws
end

