-- ==== Sys2Proof/Laws/PerInstr.lean ====
section
/-! SUPPORT. Statements of every instruction, one lemma for each constructor. -/

namespace Sys2Proof.Laws

open Sys2Proof.Machine

/-- The word of an instruction has an assigned opcode (R53). -/
def AssignedWord.Statement (i : Instr) : Prop :=
  ∀ op f, Forms.wordOf i = some (op, f) → op < 1024 ∧ Forms.assigned op = true

theorem AssignedWord.add (f : Fields) : AssignedWord.Statement (.add f) := fun _ _ h => by cases h; decide
theorem AssignedWord.sub (f : Fields) : AssignedWord.Statement (.sub f) := fun _ _ h => by cases h; decide
theorem AssignedWord.addc (f : Fields) : AssignedWord.Statement (.addc f) := fun _ _ h => by cases h; decide
theorem AssignedWord.subb (f : Fields) : AssignedWord.Statement (.subb f) := fun _ _ h => by cases h; decide
theorem AssignedWord.mul (f : Fields) : AssignedWord.Statement (.mul f) := fun _ _ h => by cases h; decide
theorem AssignedWord.mulh (f : Fields) : AssignedWord.Statement (.mulh f) := fun _ _ h => by cases h; decide
theorem AssignedWord.mad (f : Fields) : AssignedWord.Statement (.mad f) := fun _ _ h => by cases h; decide
theorem AssignedWord.madw (f : Fields) : AssignedWord.Statement (.madw f) := fun _ _ h => by cases h; decide
theorem AssignedWord.abs (f : Fields) : AssignedWord.Statement (.abs f) := fun _ _ h => by cases h; decide
theorem AssignedWord.neg (f : Fields) : AssignedWord.Statement (.neg f) := fun _ _ h => by cases h; decide
theorem AssignedWord.min (f : Fields) : AssignedWord.Statement (.min f) := fun _ _ h => by cases h; decide
theorem AssignedWord.max (f : Fields) : AssignedWord.Statement (.max f) := fun _ _ h => by cases h; decide
theorem AssignedWord.clamp (f : Fields) : AssignedWord.Statement (.clamp f) := fun _ _ h => by cases h; decide
theorem AssignedWord.lea (f : Fields) : AssignedWord.Statement (.lea f) := fun _ _ h => by cases h; decide
theorem AssignedWord.sad (f : Fields) : AssignedWord.Statement (.sad f) := fun _ _ h => by cases h; decide
theorem AssignedWord.cmp (f : Fields) : AssignedWord.Statement (.cmp f) := fun _ _ h => by cases h; decide
theorem AssignedWord.and (f : Fields) : AssignedWord.Statement (.and f) := fun _ _ h => by cases h; decide
theorem AssignedWord.or (f : Fields) : AssignedWord.Statement (.or f) := fun _ _ h => by cases h; decide
theorem AssignedWord.xor (f : Fields) : AssignedWord.Statement (.xor f) := fun _ _ h => by cases h; decide
theorem AssignedWord.andn (f : Fields) : AssignedWord.Statement (.andn f) := fun _ _ h => by cases h; decide
theorem AssignedWord.not (f : Fields) : AssignedWord.Statement (.not f) := fun _ _ h => by cases h; decide
theorem AssignedWord.shl (f : Fields) : AssignedWord.Statement (.shl f) := fun _ _ h => by cases h; decide
theorem AssignedWord.shr (f : Fields) : AssignedWord.Statement (.shr f) := fun _ _ h => by cases h; decide
theorem AssignedWord.sar (f : Fields) : AssignedWord.Statement (.sar f) := fun _ _ h => by cases h; decide
theorem AssignedWord.rot (f : Fields) : AssignedWord.Statement (.rot f) := fun _ _ h => by cases h; decide
theorem AssignedWord.funl (f : Fields) : AssignedWord.Statement (.funl f) := fun _ _ h => by cases h; decide
theorem AssignedWord.bfx (f : Fields) : AssignedWord.Statement (.bfx f) := fun _ _ h => by cases h; decide
theorem AssignedWord.bfi (f : Fields) : AssignedWord.Statement (.bfi f) := fun _ _ h => by cases h; decide
theorem AssignedWord.popc (f : Fields) : AssignedWord.Statement (.popc f) := fun _ _ h => by cases h; decide
theorem AssignedWord.clz (f : Fields) : AssignedWord.Statement (.clz f) := fun _ _ h => by cases h; decide
theorem AssignedWord.brev (f : Fields) : AssignedWord.Statement (.brev f) := fun _ _ h => by cases h; decide
theorem AssignedWord.bytp (f : Fields) : AssignedWord.Statement (.bytp f) := fun _ _ h => by cases h; decide
theorem AssignedWord.log3 (f : Fields) : AssignedWord.Statement (.log3 f) := fun _ _ h => by cases h; decide
theorem AssignedWord.mov (f : Fields) : AssignedWord.Statement (.mov f) := fun _ _ h => by cases h; decide
theorem AssignedWord.movi (f : Fields) : AssignedWord.Statement (.movi f) := fun _ _ h => by cases h; decide
theorem AssignedWord.sel (f : Fields) : AssignedWord.Statement (.sel f) := fun _ _ h => by cases h; decide
theorem AssignedWord.movs (f : Fields) : AssignedWord.Statement (.movs f) := fun _ _ h => by cases h; decide
theorem AssignedWord.plog (f : Fields) : AssignedWord.Statement (.plog f) := fun _ _ h => by cases h; decide
theorem AssignedWord.p2w (f : Fields) : AssignedWord.Statement (.p2w f) := fun _ _ h => by cases h; decide
theorem AssignedWord.w2p (f : Fields) : AssignedWord.Statement (.w2p f) := fun _ _ h => by cases h; decide
theorem AssignedWord.rdu (f : Fields) : AssignedWord.Statement (.rdu f) := fun _ _ h => by cases h; decide
theorem AssignedWord.wru (f : Fields) : AssignedWord.Statement (.wru f) := fun _ _ h => by cases h; decide
theorem AssignedWord.fadd (f : Fields) : AssignedWord.Statement (.fadd f) := fun _ _ h => by cases h; decide
theorem AssignedWord.fsub (f : Fields) : AssignedWord.Statement (.fsub f) := fun _ _ h => by cases h; decide
theorem AssignedWord.fmul (f : Fields) : AssignedWord.Statement (.fmul f) := fun _ _ h => by cases h; decide
theorem AssignedWord.ffma (f : Fields) : AssignedWord.Statement (.ffma f) := fun _ _ h => by cases h; decide
theorem AssignedWord.fmin (f : Fields) : AssignedWord.Statement (.fmin f) := fun _ _ h => by cases h; decide
theorem AssignedWord.fmax (f : Fields) : AssignedWord.Statement (.fmax f) := fun _ _ h => by cases h; decide
theorem AssignedWord.fcmp (f : Fields) : AssignedWord.Statement (.fcmp f) := fun _ _ h => by cases h; decide
theorem AssignedWord.frnd (f : Fields) : AssignedWord.Statement (.frnd f) := fun _ _ h => by cases h; decide
theorem AssignedWord.fcls (f : Fields) : AssignedWord.Statement (.fcls f) := fun _ _ h => by cases h; decide
theorem AssignedWord.fdot2 (f : Fields) : AssignedWord.Statement (.fdot2 f) := fun _ _ h => by cases h; decide
theorem AssignedWord.frcp (f : Fields) : AssignedWord.Statement (.frcp f) := fun _ _ h => by cases h; decide
theorem AssignedWord.frsq (f : Fields) : AssignedWord.Statement (.frsq f) := fun _ _ h => by cases h; decide
theorem AssignedWord.fsqrt (f : Fields) : AssignedWord.Statement (.fsqrt f) := fun _ _ h => by cases h; decide
theorem AssignedWord.fex2 (f : Fields) : AssignedWord.Statement (.fex2 f) := fun _ _ h => by cases h; decide
theorem AssignedWord.flg2 (f : Fields) : AssignedWord.Statement (.flg2 f) := fun _ _ h => by cases h; decide
theorem AssignedWord.fsin (f : Fields) : AssignedWord.Statement (.fsin f) := fun _ _ h => by cases h; decide
theorem AssignedWord.fcos (f : Fields) : AssignedWord.Statement (.fcos f) := fun _ _ h => by cases h; decide
theorem AssignedWord.fdiv (f : Fields) : AssignedWord.Statement (.fdiv f) := fun _ _ h => by cases h; decide
theorem AssignedWord.ftanh (f : Fields) : AssignedWord.Statement (.ftanh f) := fun _ _ h => by cases h; decide
theorem AssignedWord.cvt (f : Fields) : AssignedWord.Statement (.cvt f) := fun _ _ h => by cases h; decide
theorem AssignedWord.cvti (f : Fields) : AssignedWord.Statement (.cvti f) := fun _ _ h => by cases h; decide
theorem AssignedWord.cvtf (f : Fields) : AssignedWord.Statement (.cvtf f) := fun _ _ h => by cases h; decide
theorem AssignedWord.pack (f : Fields) : AssignedWord.Statement (.pack f) := fun _ _ h => by cases h; decide
theorem AssignedWord.unpk (f : Fields) : AssignedWord.Statement (.unpk f) := fun _ _ h => by cases h; decide
theorem AssignedWord.qblk (f : Fields) : AssignedWord.Statement (.qblk f) := fun _ _ h => by cases h; decide
theorem AssignedWord.bra (f : Fields) : AssignedWord.Statement (.bra f) := fun _ _ h => by cases h; decide
theorem AssignedWord.brx (f : Fields) : AssignedWord.Statement (.brx f) := fun _ _ h => by cases h; decide
theorem AssignedWord.call (f : Fields) : AssignedWord.Statement (.call f) := fun _ _ h => by cases h; decide
theorem AssignedWord.callx (f : Fields) : AssignedWord.Statement (.callx f) := fun _ _ h => by cases h; decide
theorem AssignedWord.ret (f : Fields) : AssignedWord.Statement (.ret f) := fun _ _ h => by cases h; decide
theorem AssignedWord.exit (f : Fields) : AssignedWord.Statement (.exit f) := fun _ _ h => by cases h; decide
theorem AssignedWord.nop (f : Fields) : AssignedWord.Statement (.nop f) := fun _ _ h => by cases h; decide
theorem AssignedWord.rep (f : Fields) : AssignedWord.Statement (.rep f) := fun _ _ h => by cases h; decide
theorem AssignedWord.repRepetition : ∀ x0, AssignedWord.Statement (.repRepetition x0) := fun _ _ _ h => nomatch h
theorem AssignedWord.rjset (f : Fields) : AssignedWord.Statement (.rjset f) := fun _ _ h => by cases h; decide
theorem AssignedWord.rjwait (f : Fields) : AssignedWord.Statement (.rjwait f) := fun _ _ h => by cases h; decide
theorem AssignedWord.yield (f : Fields) : AssignedWord.Statement (.yield f) := fun _ _ h => by cases h; decide
theorem AssignedWord.sleep (f : Fields) : AssignedWord.Statement (.sleep f) := fun _ _ h => by cases h; decide
theorem AssignedWord.bkpt (f : Fields) : AssignedWord.Statement (.bkpt f) := fun _ _ h => by cases h; decide
theorem AssignedWord.trap (f : Fields) : AssignedWord.Statement (.trap f) := fun _ _ h => by cases h; decide
theorem AssignedWord.shfl (f : Fields) : AssignedWord.Statement (.shfl f) := fun _ _ h => by cases h; decide
theorem AssignedWord.vote (f : Fields) : AssignedWord.Statement (.vote f) := fun _ _ h => by cases h; decide
theorem AssignedWord.wred (f : Fields) : AssignedWord.Statement (.wred f) := fun _ _ h => by cases h; decide
theorem AssignedWord.matchLanes (f : Fields) : AssignedWord.Statement (.matchLanes f) := fun _ _ h => by cases h; decide
theorem AssignedWord.elect (f : Fields) : AssignedWord.Statement (.elect f) := fun _ _ h => by cases h; decide
theorem AssignedWord.wsync (f : Fields) : AssignedWord.Statement (.wsync f) := fun _ _ h => by cases h; decide
theorem AssignedWord.barb (f : Fields) : AssignedWord.Statement (.barb f) := fun _ _ h => by cases h; decide
theorem AssignedWord.barg (f : Fields) : AssignedWord.Statement (.barg f) := fun _ _ h => by cases h; decide
theorem AssignedWord.barh (f : Fields) : AssignedWord.Statement (.barh f) := fun _ _ h => by cases h; decide
theorem AssignedWord.ld (f : Fields) : AssignedWord.Statement (.ld f) := fun _ _ h => by cases h; decide
theorem AssignedWord.st (f : Fields) : AssignedWord.Statement (.st f) := fun _ _ h => by cases h; decide
theorem AssignedWord.ldr (f : Fields) : AssignedWord.Statement (.ldr f) := fun _ _ h => by cases h; decide
theorem AssignedWord.ldd (f : Fields) : AssignedWord.Statement (.ldd f) := fun _ _ h => by cases h; decide
theorem AssignedWord.std (f : Fields) : AssignedWord.Statement (.std f) := fun _ _ h => by cases h; decide
theorem AssignedWord.ldt (f : Fields) : AssignedWord.Statement (.ldt f) := fun _ _ h => by cases h; decide
theorem AssignedWord.stt (f : Fields) : AssignedWord.Statement (.stt f) := fun _ _ h => by cases h; decide
theorem AssignedWord.atom (f : Fields) : AssignedWord.Statement (.atom f) := fun _ _ h => by cases h; decide
theorem AssignedWord.atomCas (f : Fields) : AssignedWord.Statement (.atomCas f) := fun _ _ h => by cases h; decide
theorem AssignedWord.red (f : Fields) : AssignedWord.Statement (.red f) := fun _ _ h => by cases h; decide
theorem AssignedWord.pref (f : Fields) : AssignedWord.Statement (.pref f) := fun _ _ h => by cases h; decide
theorem AssignedWord.cctlInv1 (f : Fields) : AssignedWord.Statement (.cctlInv1 f) := fun _ _ h => by cases h; decide
theorem AssignedWord.cctlInv1all (f : Fields) : AssignedWord.Statement (.cctlInv1all f) := fun _ _ h => by cases h; decide
theorem AssignedWord.cctlWb2 (f : Fields) : AssignedWord.Statement (.cctlWb2 f) := fun _ _ h => by cases h; decide
theorem AssignedWord.cctlEvict2 (f : Fields) : AssignedWord.Statement (.cctlEvict2 f) := fun _ _ h => by cases h; decide
theorem AssignedWord.pgreq (f : Fields) : AssignedWord.Statement (.pgreq f) := fun _ _ h => by cases h; decide
theorem AssignedWord.kjoin (f : Fields) : AssignedWord.Statement (.kjoin f) := fun _ _ h => by cases h; decide
theorem AssignedWord.kcopy (f : Fields) : AssignedWord.Statement (.kcopy f) := fun _ _ h => by cases h; decide
theorem AssignedWord.kwait (f : Fields) : AssignedWord.Statement (.kwait f) := fun _ _ h => by cases h; decide
theorem AssignedWord.ktest (f : Fields) : AssignedWord.Statement (.ktest f) := fun _ _ h => by cases h; decide
theorem AssignedWord.fence (f : Fields) : AssignedWord.Statement (.fence f) := fun _ _ h => by cases h; decide
theorem AssignedWord.ksend (f : Fields) : AssignedWord.Statement (.ksend f) := fun _ _ h => by cases h; decide
theorem AssignedWord.krecv (f : Fields) : AssignedWord.Statement (.krecv f) := fun _ _ h => by cases h; decide
theorem AssignedWord.kclr (f : Fields) : AssignedWord.Statement (.kclr f) := fun _ _ h => by cases h; decide
theorem AssignedWord.cpy (f : Fields) : AssignedWord.Statement (.cpy f) := fun _ _ h => by cases h; decide
theorem AssignedWord.cpyb (f : Fields) : AssignedWord.Statement (.cpyb f) := fun _ _ h => by cases h; decide
theorem AssignedWord.cpyf (f : Fields) : AssignedWord.Statement (.cpyf f) := fun _ _ h => by cases h; decide
theorem AssignedWord.accld (f : Fields) : AssignedWord.Statement (.accld f) := fun _ _ h => by cases h; decide
theorem AssignedWord.accst (f : Fields) : AssignedWord.Statement (.accst f) := fun _ _ h => by cases h; decide
theorem AssignedWord.obinit (f : Fields) : AssignedWord.Statement (.obinit f) := fun _ _ h => by cases h; decide
theorem AssignedWord.obarr (f : Fields) : AssignedWord.Statement (.obarr f) := fun _ _ h => by cases h; decide
theorem AssignedWord.obarrHold (f : Fields) : AssignedWord.Statement (.obarrHold f) := fun _ _ h => by cases h; decide
theorem AssignedWord.obexp (f : Fields) : AssignedWord.Statement (.obexp f) := fun _ _ h => by cases h; decide
theorem AssignedWord.obexpRls (f : Fields) : AssignedWord.Statement (.obexpRls f) := fun _ _ h => by cases h; decide
theorem AssignedWord.obwait (f : Fields) : AssignedWord.Statement (.obwait f) := fun _ _ h => by cases h; decide
theorem AssignedWord.coll (f : Fields) : AssignedWord.Statement (.coll f) := fun _ _ h => by cases h; decide
theorem AssignedWord.mma (f : Fields) : AssignedWord.Statement (.mma f) := fun _ _ h => by cases h; decide
theorem AssignedWord.mdrn (f : Fields) : AssignedWord.Statement (.mdrn f) := fun _ _ h => by cases h; decide
theorem AssignedWord.mzero (f : Fields) : AssignedWord.Statement (.mzero f) := fun _ _ h => by cases h; decide
theorem AssignedWord.post (f : Fields) : AssignedWord.Statement (.post f) := fun _ _ h => by cases h; decide
theorem AssignedWord.spawn (f : Fields) : AssignedWord.Statement (.spawn f) := fun _ _ h => by cases h; decide
theorem AssignedWord.mbsend (f : Fields) : AssignedWord.Statement (.mbsend f) := fun _ _ h => by cases h; decide
theorem AssignedWord.mbrecv (f : Fields) : AssignedWord.Statement (.mbrecv f) := fun _ _ h => by cases h; decide
theorem AssignedWord.mbstat (f : Fields) : AssignedWord.Statement (.mbstat f) := fun _ _ h => by cases h; decide
theorem AssignedWord.chapp (f : Fields) : AssignedWord.Statement (.chapp f) := fun _ _ h => by cases h; decide
theorem AssignedWord.chseq (f : Fields) : AssignedWord.Statement (.chseq f) := fun _ _ h => by cases h; decide
theorem AssignedWord.glaunch (f : Fields) : AssignedWord.Statement (.glaunch f) := fun _ _ h => by cases h; decide
theorem AssignedWord.hhatt (f : Fields) : AssignedWord.Statement (.hhatt f) := fun _ _ h => by cases h; decide
theorem AssignedWord.hhdet (f : Fields) : AssignedWord.Statement (.hhdet f) := fun _ _ h => by cases h; decide
theorem AssignedWord.hhstat (f : Fields) : AssignedWord.Statement (.hhstat f) := fun _ _ h => by cases h; decide
theorem AssignedWord.ctlr (f : Fields) : AssignedWord.Statement (.ctlr f) := fun _ _ h => by cases h; decide
theorem AssignedWord.ctlw (f : Fields) : AssignedWord.Statement (.ctlw f) := fun _ _ h => by cases h; decide
theorem AssignedWord.resume (f : Fields) : AssignedWord.Statement (.resume f) := fun _ _ h => by cases h; decide
theorem AssignedWord.killw (f : Fields) : AssignedWord.Statement (.killw f) := fun _ _ h => by cases h; decide
theorem AssignedWord.snapr (f : Fields) : AssignedWord.Statement (.snapr f) := fun _ _ h => by cases h; decide
theorem AssignedWord.snapw (f : Fields) : AssignedWord.Statement (.snapw f) := fun _ _ h => by cases h; decide
theorem AssignedWord.rett (f : Fields) : AssignedWord.Statement (.rett f) := fun _ _ h => by cases h; decide
theorem AssignedWord.halt (f : Fields) : AssignedWord.Statement (.halt f) := fun _ _ h => by cases h; decide
theorem AssignedWord.sysc (f : Fields) : AssignedWord.Statement (.sysc f) := fun _ _ h => by cases h; decide
theorem AssignedWord.issueGroup : ∀ x0 x1, AssignedWord.Statement (.issueGroup x0 x1) := fun _ _ _ _ h => nomatch h
theorem AssignedWord.trackedResultWrite : ∀ x0 x1, AssignedWord.Statement (.trackedResultWrite x0 x1) := fun _ _ _ _ h => nomatch h
theorem AssignedWord.lineFetch : ∀ x0, AssignedWord.Statement (.lineFetch x0) := fun _ _ _ h => nomatch h
theorem AssignedWord.fetchParityRetry : ∀ x0, AssignedWord.Statement (.fetchParityRetry x0) := fun _ _ _ h => nomatch h
theorem AssignedWord.coreSelfTest : ∀ x0 x1, AssignedWord.Statement (.coreSelfTest x0 x1) := fun _ _ _ _ h => nomatch h
theorem AssignedWord.barrierRelease : ∀ x0, AssignedWord.Statement (.barrierRelease x0) := fun _ _ _ h => nomatch h
theorem AssignedWord.sleepExpire : ∀ x0, AssignedWord.Statement (.sleepExpire x0) := fun _ _ _ h => nomatch h
theorem AssignedWord.homeResolve : ∀ x0, AssignedWord.Statement (.homeResolve x0) := fun _ _ _ h => nomatch h
theorem AssignedWord.accessAccept : ∀ x0, AssignedWord.Statement (.accessAccept x0) := fun _ _ _ h => nomatch h
theorem AssignedWord.loadBind : ∀ x0, AssignedWord.Statement (.loadBind x0) := fun _ _ _ h => nomatch h
theorem AssignedWord.storePerform : ∀ x0 x1, AssignedWord.Statement (.storePerform x0 x1) := fun _ _ _ _ h => nomatch h
theorem AssignedWord.accessFailure : ∀ x0 x1, AssignedWord.Statement (.accessFailure x0 x1) := fun _ _ _ _ h => nomatch h
theorem AssignedWord.faultFilterForward : ∀ x0 x1 x2, AssignedWord.Statement (.faultFilterForward x0 x1 x2) := fun _ _ _ _ _ h => nomatch h
theorem AssignedWord.clusterStageForward : ∀ x0 x1 x2, AssignedWord.Statement (.clusterStageForward x0 x1 x2) := fun _ _ _ _ _ h => nomatch h
theorem AssignedWord.pageRequestGroup : ∀ x0 x1, AssignedWord.Statement (.pageRequestGroup x0 x1) := fun _ _ _ _ h => nomatch h
theorem AssignedWord.pageResidentRelease : ∀ x0 x1, AssignedWord.Statement (.pageResidentRelease x0 x1) := fun _ _ _ _ h => nomatch h
theorem AssignedWord.invalidateCompletion : ∀ x0 x1 x2, AssignedWord.Statement (.invalidateCompletion x0 x1 x2) := fun _ _ _ _ _ h => nomatch h
theorem AssignedWord.retireSweepEnd : ∀ x0, AssignedWord.Statement (.retireSweepEnd x0) := fun _ _ _ h => nomatch h
theorem AssignedWord.ksendMarker : ∀ x0 x1, AssignedWord.Statement (.ksendMarker x0 x1) := fun _ _ _ _ h => nomatch h
theorem AssignedWord.ksendNotice : ∀ x0 x1, AssignedWord.Statement (.ksendNotice x0 x1) := fun _ _ _ _ h => nomatch h
theorem AssignedWord.arrivalDelivery : ∀ x0, AssignedWord.Statement (.arrivalDelivery x0) := fun _ _ _ h => nomatch h
theorem AssignedWord.copyLineAccept : ∀ x0 x1, AssignedWord.Statement (.copyLineAccept x0 x1) := fun _ _ _ _ h => nomatch h
theorem AssignedWord.copyWrite : ∀ x0 x1, AssignedWord.Statement (.copyWrite x0 x1) := fun _ _ _ _ h => nomatch h
theorem AssignedWord.copyBlockDecode : ∀ x0, AssignedWord.Statement (.copyBlockDecode x0) := fun _ _ _ h => nomatch h
theorem AssignedWord.copyRetire : ∀ x0, AssignedWord.Statement (.copyRetire x0) := fun _ _ _ h => nomatch h
theorem AssignedWord.cpyfHopForward : ∀ x0, AssignedWord.Statement (.cpyfHopForward x0) := fun _ _ _ h => nomatch h
theorem AssignedWord.mmaSliceWrite : ∀ x0, AssignedWord.Statement (.mmaSliceWrite x0) := fun _ _ _ h => nomatch h
theorem AssignedWord.operandsConsumed : ∀ x0, AssignedWord.Statement (.operandsConsumed x0) := fun _ _ _ h => nomatch h
theorem AssignedWord.mdrnDrain : ∀ x0, AssignedWord.Statement (.mdrnDrain x0) := fun _ _ _ h => nomatch h
theorem AssignedWord.enginePerform : ∀ x0, AssignedWord.Statement (.enginePerform x0) := fun _ _ _ h => nomatch h
theorem AssignedWord.chainEntryRun : ∀ x0, AssignedWord.Statement (.chainEntryRun x0) := fun _ _ _ h => nomatch h
theorem AssignedWord.collCompute : ∀ x0, AssignedWord.Statement (.collCompute x0) := fun _ _ _ h => nomatch h
theorem AssignedWord.postArrival : ∀ x0, AssignedWord.Statement (.postArrival x0) := fun _ _ _ h => nomatch h
theorem AssignedWord.admissionDecision : ∀ x0, AssignedWord.Statement (.admissionDecision x0) := fun _ _ _ h => nomatch h
theorem AssignedWord.ageing : ∀ x0 x1, AssignedWord.Statement (.ageing x0 x1) := fun _ _ _ _ h => nomatch h
theorem AssignedWord.householdSequenceNumber : ∀ x0, AssignedWord.Statement (.householdSequenceNumber x0) := fun _ _ _ h => nomatch h
theorem AssignedWord.reservationRequest : ∀ x0 x1, AssignedWord.Statement (.reservationRequest x0 x1) := fun _ _ _ _ h => nomatch h
theorem AssignedWord.holdClear : ∀ x0, AssignedWord.Statement (.holdClear x0) := fun _ _ _ h => nomatch h
theorem AssignedWord.blockDispatch : ∀ x0, AssignedWord.Statement (.blockDispatch x0) := fun _ _ _ h => nomatch h
theorem AssignedWord.blockEnd : ∀ x0, AssignedWord.Statement (.blockEnd x0) := fun _ _ _ h => nomatch h
theorem AssignedWord.porchAccept : ∀ x0, AssignedWord.Statement (.porchAccept x0) := fun _ _ _ h => nomatch h
theorem AssignedWord.porchRefill : ∀ x0, AssignedWord.Statement (.porchRefill x0) := fun _ _ _ h => nomatch h
theorem AssignedWord.graphNodeEnd : ∀ x0 x1, AssignedWord.Statement (.graphNodeEnd x0 x1) := fun _ _ _ _ h => nomatch h
theorem AssignedWord.graphNodeTask : ∀ x0 x1, AssignedWord.Statement (.graphNodeTask x0 x1) := fun _ _ _ _ h => nomatch h
theorem AssignedWord.graphNodeCondition : ∀ x0 x1, AssignedWord.Statement (.graphNodeCondition x0 x1) := fun _ _ _ _ h => nomatch h
theorem AssignedWord.graphNodeWhile : ∀ x0 x1, AssignedWord.Statement (.graphNodeWhile x0 x1) := fun _ _ _ _ h => nomatch h
theorem AssignedWord.graphNodeJoin : ∀ x0 x1, AssignedWord.Statement (.graphNodeJoin x0 x1) := fun _ _ _ _ h => nomatch h
theorem AssignedWord.graphPostRetry : ∀ x0 x1, AssignedWord.Statement (.graphPostRetry x0 x1) := fun _ _ _ _ h => nomatch h
theorem AssignedWord.graphTaskComplete : ∀ x0 x1, AssignedWord.Statement (.graphTaskComplete x0 x1) := fun _ _ _ _ h => nomatch h
theorem AssignedWord.graphCompletion : ∀ x0, AssignedWord.Statement (.graphCompletion x0) := fun _ _ _ h => nomatch h
theorem AssignedWord.trapWarpStart : ∀ x0, AssignedWord.Statement (.trapWarpStart x0) := fun _ _ _ h => nomatch h
theorem AssignedWord.watchdog : ∀ x0, AssignedWord.Statement (.watchdog x0) := fun _ _ _ h => nomatch h
theorem AssignedWord.preemptHoldTimeout : ∀ x0, AssignedWord.Statement (.preemptHoldTimeout x0) := fun _ _ _ h => nomatch h
theorem AssignedWord.preemptDrainEnd : ∀ x0, AssignedWord.Statement (.preemptDrainEnd x0) := fun _ _ _ h => nomatch h
theorem AssignedWord.resumeRestore : ∀ x0, AssignedWord.Statement (.resumeRestore x0) := fun _ _ _ h => nomatch h
theorem AssignedWord.transientRequest : ∀ x0, AssignedWord.Statement (.transientRequest x0) := fun _ _ _ h => nomatch h
theorem AssignedWord.transientAttemptTimeout : ∀ x0, AssignedWord.Statement (.transientAttemptTimeout x0) := fun _ _ _ h => nomatch h
theorem AssignedWord.transientEscalation : ∀ x0, AssignedWord.Statement (.transientEscalation x0) := fun _ _ _ h => nomatch h
theorem AssignedWord.transientAnswer : ∀ x0 x1, AssignedWord.Statement (.transientAnswer x0 x1) := fun _ _ _ _ h => nomatch h
theorem AssignedWord.tokenMessageReceive : ∀ x0, AssignedWord.Statement (.tokenMessageReceive x0) := fun _ _ _ h => nomatch h
theorem AssignedWord.persistentRequest : ∀ x0, AssignedWord.Statement (.persistentRequest x0) := fun _ _ _ h => nomatch h
theorem AssignedWord.persistentTableEntry : ∀ x0 x1, AssignedWord.Statement (.persistentTableEntry x0 x1) := fun _ _ _ _ h => nomatch h
theorem AssignedWord.persistentCompletion : ∀ x0, AssignedWord.Statement (.persistentCompletion x0) := fun _ _ _ h => nomatch h
theorem AssignedWord.evictionAck : ∀ x0 x1, AssignedWord.Statement (.evictionAck x0 x1) := fun _ _ _ _ h => nomatch h
theorem AssignedWord.hearthAtomic : ∀ x0, AssignedWord.Statement (.hearthAtomic x0) := fun _ _ _ h => nomatch h
theorem AssignedWord.maskedWrite : ∀ x0, AssignedWord.Statement (.maskedWrite x0) := fun _ _ _ h => nomatch h
theorem AssignedWord.migrationClaim : ∀ x0, AssignedWord.Statement (.migrationClaim x0) := fun _ _ _ h => nomatch h
theorem AssignedWord.migrationCopy : ∀ x0, AssignedWord.Statement (.migrationCopy x0) := fun _ _ _ h => nomatch h
theorem AssignedWord.migrationSwitch : ∀ x0, AssignedWord.Statement (.migrationSwitch x0) := fun _ _ _ h => nomatch h
theorem AssignedWord.migrationAbandon : ∀ x0, AssignedWord.Statement (.migrationAbandon x0) := fun _ _ _ h => nomatch h
theorem AssignedWord.linkWake : ∀ x0, AssignedWord.Statement (.linkWake x0) := fun _ _ _ h => nomatch h
theorem AssignedWord.linkWakeComplete : ∀ x0, AssignedWord.Statement (.linkWakeComplete x0) := fun _ _ _ h => nomatch h
theorem AssignedWord.linkWakeLate : ∀ x0, AssignedWord.Statement (.linkWakeLate x0) := fun _ _ _ h => nomatch h
theorem AssignedWord.tokenRecreation : ∀ x0, AssignedWord.Statement (.tokenRecreation x0) := fun _ _ _ h => nomatch h
theorem AssignedWord.afrikGrant : ∀ x0, AssignedWord.Statement (.afrikGrant x0) := fun _ _ _ h => nomatch h
theorem AssignedWord.bridgeReadRequest : ∀ x0, AssignedWord.Statement (.bridgeReadRequest x0) := fun _ _ _ h => nomatch h
theorem AssignedWord.bridgeWriteRedirect : ∀ x0, AssignedWord.Statement (.bridgeWriteRedirect x0) := fun _ _ _ h => nomatch h
theorem AssignedWord.bridgeMaskedWrite : ∀ x0, AssignedWord.Statement (.bridgeMaskedWrite x0) := fun _ _ _ h => nomatch h
theorem AssignedWord.bridgeAtomic : ∀ x0, AssignedWord.Statement (.bridgeAtomic x0) := fun _ _ _ h => nomatch h
theorem AssignedWord.bridgeRecall : ∀ x0, AssignedWord.Statement (.bridgeRecall x0) := fun _ _ _ h => nomatch h
theorem AssignedWord.hostLineFetch : ∀ x0 x1, AssignedWord.Statement (.hostLineFetch x0 x1) := fun _ _ _ _ h => nomatch h
theorem AssignedWord.dirtyEvict : ∀ x0, AssignedWord.Statement (.dirtyEvict x0) := fun _ _ _ h => nomatch h
theorem AssignedWord.poolLineFetch : ∀ x0, AssignedWord.Statement (.poolLineFetch x0) := fun _ _ _ h => nomatch h
theorem AssignedWord.attachNotice : ∀ x0 x1, AssignedWord.Statement (.attachNotice x0 x1) := fun _ _ _ _ h => nomatch h
theorem AssignedWord.detachNotice : ∀ x0 x1, AssignedWord.Statement (.detachNotice x0 x1) := fun _ _ _ _ h => nomatch h
theorem AssignedWord.detachComplete : ∀ x0, AssignedWord.Statement (.detachComplete x0) := fun _ _ _ h => nomatch h
theorem AssignedWord.bootStage : AssignedWord.Statement .bootStage := fun _ _ h => nomatch h
theorem AssignedWord.atsTranslationCompletion : ∀ x0 x1 x2, AssignedWord.Statement (.atsTranslationCompletion x0 x1 x2) := fun _ _ _ _ _ h => nomatch h
theorem AssignedWord.prgResponseSuccess : ∀ x0 x1, AssignedWord.Statement (.prgResponseSuccess x0 x1) := fun _ _ _ _ h => nomatch h
theorem AssignedWord.prgResponseInvalidRequest : ∀ x0 x1, AssignedWord.Statement (.prgResponseInvalidRequest x0 x1) := fun _ _ _ _ h => nomatch h
theorem AssignedWord.prgResponseFailure : ∀ x0 x1, AssignedWord.Statement (.prgResponseFailure x0 x1) := fun _ _ _ _ h => nomatch h
theorem AssignedWord.atsInvalidateRequest : ∀ x0 x1 x2, AssignedWord.Statement (.atsInvalidateRequest x0 x1 x2) := fun _ _ _ _ _ h => nomatch h
theorem AssignedWord.contextBind : ∀ x0 x1, AssignedWord.Statement (.contextBind x0 x1) := fun _ _ _ _ h => nomatch h
theorem AssignedWord.contextUnbind : ∀ x0, AssignedWord.Statement (.contextUnbind x0) := fun _ _ _ h => nomatch h
theorem AssignedWord.bufferEntryChange : ∀ x0 x1 x2, AssignedWord.Statement (.bufferEntryChange x0 x1 x2) := fun _ _ _ _ _ h => nomatch h
theorem AssignedWord.homeWindowWrite : ∀ x0 x1 x2, AssignedWord.Statement (.homeWindowWrite x0 x1 x2) := fun _ _ _ _ _ h => nomatch h
theorem AssignedWord.attributeEntryWrite : ∀ x0 x1 x2, AssignedWord.Statement (.attributeEntryWrite x0 x1 x2) := fun _ _ _ _ _ h => nomatch h
theorem AssignedWord.hostDoorbell : ∀ x0 x1 x2 x3, AssignedWord.Statement (.hostDoorbell x0 x1 x2 x3) := fun _ _ _ _ _ _ h => nomatch h
theorem AssignedWord.correctableError : ∀ x0, AssignedWord.Statement (.correctableError x0) := fun _ _ _ h => nomatch h
theorem AssignedWord.uncorrectableError : ∀ x0, AssignedWord.Statement (.uncorrectableError x0) := fun _ _ _ h => nomatch h
theorem AssignedWord.preemptRequest : ∀ x0, AssignedWord.Statement (.preemptRequest x0) := fun _ _ _ h => nomatch h
theorem AssignedWord.l2Eviction : ∀ x0 x1, AssignedWord.Statement (.l2Eviction x0 x1) := fun _ _ _ _ h => nomatch h
theorem AssignedWord.migrationDriverRequest : ∀ x0 x1 x2, AssignedWord.Statement (.migrationDriverRequest x0 x1 x2) := fun _ _ _ _ _ h => nomatch h
theorem AssignedWord.linkSleep : ∀ x0, AssignedWord.Statement (.linkSleep x0) := fun _ _ _ h => nomatch h
theorem AssignedWord.flitCrcFailure : ∀ x0, AssignedWord.Statement (.flitCrcFailure x0) := fun _ _ _ h => nomatch h
theorem AssignedWord.linkRetire : ∀ x0, AssignedWord.Statement (.linkRetire x0) := fun _ _ _ h => nomatch h
theorem AssignedWord.afrikDemand : ∀ x0 x1, AssignedWord.Statement (.afrikDemand x0 x1) := fun _ _ _ _ h => nomatch h
theorem AssignedWord.moduleLost : ∀ x0, AssignedWord.Statement (.moduleLost x0) := fun _ _ _ h => nomatch h
theorem AssignedWord.hostReadNoCache : ∀ x0 x1, AssignedWord.Statement (.hostReadNoCache x0 x1) := fun _ _ _ _ h => nomatch h
theorem AssignedWord.hostReadShared : ∀ x0 x1, AssignedWord.Statement (.hostReadShared x0 x1) := fun _ _ _ _ h => nomatch h
theorem AssignedWord.hostReadAny : ∀ x0 x1, AssignedWord.Statement (.hostReadAny x0 x1) := fun _ _ _ _ h => nomatch h
theorem AssignedWord.hostWrite : ∀ x0 x1 x2 x3, AssignedWord.Statement (.hostWrite x0 x1 x2 x3) := fun _ _ _ _ _ _ h => nomatch h
theorem AssignedWord.biconflict : ∀ x0 x1, AssignedWord.Statement (.biconflict x0 x1) := fun _ _ _ _ h => nomatch h
theorem AssignedWord.hostSnoop : ∀ x0 x1, AssignedWord.Statement (.hostSnoop x0 x1) := fun _ _ _ _ h => nomatch h
theorem AssignedWord.poolBisnpinv : ∀ x0, AssignedWord.Statement (.poolBisnpinv x0) := fun _ _ _ h => nomatch h
theorem AssignedWord.poolBisnpdata : ∀ x0, AssignedWord.Statement (.poolBisnpdata x0) := fun _ _ _ h => nomatch h
theorem AssignedWord.poolPortLost : ∀ x0, AssignedWord.Statement (.poolPortLost x0) := fun _ _ _ h => nomatch h
theorem AssignedWord.poolSegmentReattach : ∀ x0, AssignedWord.Statement (.poolSegmentReattach x0) := fun _ _ _ h => nomatch h
theorem AssignedWord.poolSegmentUnmap : ∀ x0, AssignedWord.Statement (.poolSegmentUnmap x0) := fun _ _ _ h => nomatch h
theorem AssignedWord.powerGoodReset : AssignedWord.Statement .powerGoodReset := fun _ _ h => nomatch h
theorem AssignedWord.measurementExtend : ∀ x0 x1, AssignedWord.Statement (.measurementExtend x0 x1) := fun _ _ _ _ h => nomatch h
theorem AssignedWord.getVersion : AssignedWord.Statement .getVersion := fun _ _ h => nomatch h
theorem AssignedWord.getCapabilities : AssignedWord.Statement .getCapabilities := fun _ _ h => nomatch h
theorem AssignedWord.negotiateAlgorithms : ∀ x0 x1, AssignedWord.Statement (.negotiateAlgorithms x0 x1) := fun _ _ _ _ h => nomatch h
theorem AssignedWord.getDigests : ∀ x0, AssignedWord.Statement (.getDigests x0) := fun _ _ _ h => nomatch h
theorem AssignedWord.getCertificate : ∀ x0, AssignedWord.Statement (.getCertificate x0) := fun _ _ _ h => nomatch h
theorem AssignedWord.challenge : ∀ x0 x1, AssignedWord.Statement (.challenge x0 x1) := fun _ _ _ _ h => nomatch h
theorem AssignedWord.getMeasurements : ∀ x0 x1 x2, AssignedWord.Statement (.getMeasurements x0 x1 x2) := fun _ _ _ _ _ h => nomatch h
theorem AssignedWord.spdmUnsupportedRequest : ∀ x0, AssignedWord.Statement (.spdmUnsupportedRequest x0) := fun _ _ _ h => nomatch h
theorem AssignedWord.powerTelemetry : ∀ x0 x1, AssignedWord.Statement (.powerTelemetry x0 x1) := fun _ _ _ _ h => nomatch h
theorem AssignedWord.lifetimeCommit : AssignedWord.Statement .lifetimeCommit := fun _ _ h => nomatch h
theorem AssignedWord.lifetimeClear : ∀ x0, AssignedWord.Statement (.lifetimeClear x0) := fun _ _ _ h => nomatch h
theorem AssignedWord.managementCoreResume : ∀ x0 x1, AssignedWord.Statement (.managementCoreResume x0 x1) := fun _ _ _ _ h => nomatch h
theorem AssignedWord.priReenable : AssignedWord.Statement .priReenable := fun _ _ h => nomatch h
theorem AssignedWord.poisonScrub : ∀ x0, AssignedWord.Statement (.poisonScrub x0) := fun _ _ _ h => nomatch h
theorem AssignedWord.frameMapWrite : ∀ x0 x1 x2, AssignedWord.Statement (.frameMapWrite x0 x1 x2) := fun _ _ _ _ _ h => nomatch h
theorem AssignedWord.poolSegmentBind : ∀ x0 x1 x2 x3, AssignedWord.Statement (.poolSegmentBind x0 x1 x2 x3) := fun _ _ _ _ _ _ h => nomatch h
theorem AssignedWord.powerLoss : AssignedWord.Statement .powerLoss := fun _ _ h => nomatch h
theorem AssignedWord.moduleReachable : ∀ x0, AssignedWord.Statement (.moduleReachable x0) := fun _ _ _ h => nomatch h

end Sys2Proof.Laws
end

