-- ==== Sys2Proof/Laws/Stores.lean ====
section
/-! SUPPORT. Which bytes the accesses of an event store to. -/

namespace Sys2Proof.Laws

open Sys2Proof.Machine Sys2Proof.Safety

theorem patch_length (off : Nat) (new old : List Byte) :
    (patch off new old).length = min off old.length + new.length + (old.length - (off + new.length)) := by
  unfold patch; simp; omega

theorem stdLine_length_eq (l l' : List Byte) (off : Nat) (b : List Byte) (h : l.length = l'.length) :
    (stdLine l off b).length = (stdLine l' off b).length := by
  unfold stdLine; simp only [patch_length, bytesOf_length, h]

theorem stdLine_length (l : List Byte) (off : Nat) (b : List Byte) (h : l.length = 128) (h4 : off % 4 = 0) (hl : off < 128) :
    (stdLine l off b).length = 128 := by
  unfold stdLine
  simp only [patch_length, bytesOf_length, h, List.length_take, List.length_drop]
  omega

theorem readBytes_length (s : State) (a n : Nat) : (s.readBytes a n).length = n := by simp [State.readBytes, Memory.readN]

/-- Memory is canonical, and every byte outside D reads as in `m0`. -/
structure Off (D : Nat → Prop) (m0 : List Host.Cell) (s : State) : Prop where
  wf : MemCanonical s
  same : ∀ x, ¬D x → Memory.read s.mem x = Memory.read m0 x

variable {D : Nat → Prop} {m0 : List Host.Cell}

theorem Off.of_mem {s t : State} (h : Off D m0 s) (e : t.mem = s.mem) : Off D m0 t :=
  ⟨canonical_of_mem h.wf e, fun x hx => by rw [e]; exact h.same x hx⟩

theorem Off.writeBytes {s : State} (h : Off D m0 s) (loc : Nat) (bs : List Byte) (hd : ∀ x, loc ≤ x → x < loc + bs.length → D x) :
    Off D m0 (s.writeBytes loc bs) :=
  ⟨writeBytes_canonical h.wf _ _, fun x hx => by
    rw [State.writeBytes, read_writeN_outside h.wf loc bs (fun hh => hx (hd x hh.1 hh.2))]; exact h.same x hx⟩

theorem Off.foldl {α : Type} (f : State → α → State) (l : List α) (hf : ∀ s a, a ∈ l → Off D m0 s → Off D m0 (f s a)) {s : State} (h : Off D m0 s) :
    Off D m0 (l.foldl f s) := by
  induction l generalizing s with
  | nil => exact h
  | cons a l ih => exact ih (fun s b hb => hf s b (List.mem_cons_of_mem _ hb)) (hf s a List.mem_cons_self h)

/-- The bytes that a store alone leaves: its data's, and for STD its line's. -/
def dataAt (s : State) (a : Access) (x : Nat) : Prop :=
  (a.op ≠ .std ∧ a.loc ≤ x ∧ x < a.loc + a.data.length) ∨
  (a.op = .std ∧ lineNum a.loc * 128 ≤ x ∧
    x < lineNum a.loc * 128 + (stdLine (s.readBytes (lineNum a.loc * 128) 128) (a.loc % 128) a.data).length)

theorem dataAt_stores {s0 : State} {a : Access} {x : Nat} (h : dataAt s0 a x) : storesAt s0 a x := by
  rcases h with ⟨-, h⟩ | ⟨e, h⟩
  · exact .inl h
  · refine .inr ?_
    rw [e]
    exact h

theorem dataAt_half {s0 : State} {a : Access} (k : Nat) {x : Nat} (h : dataAt s0 (a.half k) x) : dataAt s0 a x := by
  unfold Access.half at h
  split at h
  · exact h
  · next hn =>
    rcases h with ⟨-, h1, h2⟩ | ⟨e, -⟩
    · dsimp only at h1 h2
      rw [List.length_take, List.length_drop] at h2
      exact .inl ⟨hn, by omega, by omega⟩
    · exact absurd e hn

theorem Off.applyStore {s s0 : State} (h : Off D m0 s) (a : Access) (hd : ∀ x, dataAt s0 a x → D x) : Off D m0 (applyStore a s) := by
  have key : Off D m0 { s with mem := a.storeTo s.mem, past := s.pastAfter (lineNum a.loc * 128) 128 } := by
    unfold Access.storeTo
    split
    · next e =>
      have el := stdLine_length_eq (s0.readBytes (lineNum a.loc * 128) 128) (Memory.readN s.mem (lineNum a.loc * 128) 128) (a.loc % 128) a.data
        (by simp [State.readBytes, Memory.readN])
      dsimp only
      generalize stdLine (Memory.readN s.mem (lineNum a.loc * 128) 128) (a.loc % 128) a.data = new at el ⊢
      refine (h.writeBytes (lineNum a.loc * 128) new (fun x x1 x2 => hd x ?_)).of_mem rfl
      refine Or.inr ⟨e, x1, ?_⟩
      rw [el]; exact x2
    · next e => exact (h.writeBytes a.loc a.data (fun x x1 x2 => hd x (.inl ⟨e, x1, x2⟩))).of_mem rfl
  unfold Sys2Proof.Machine.applyStore
  split
  · exact h
  · exact key.of_mem (markDirty_mem _ _)

theorem Off.applyAtom {s s0 : State} (h : Off D m0 s) (a : Access) (hd : ∀ x, storesAt s0 a x → D x) : Off D m0 (applyAtom a s) := by
  unfold Sys2Proof.Machine.applyAtom
  split
  · next ret cas op ty e =>
    dsimp only [State.choice]
    refine Off.of_mem ?_ (performed_mem _ _)
    have hk : ∀ (c : Prop) [Decidable c] (regs : List (Nat × Word)) (t : State), Off D m0 t →
        Off D m0 (if c then knownResult a regs [] t else t) := by
      intro c _ regs t ht
      split
      · exact ht.of_mem (by simp)
      · exact ht
    apply hk
    refine Off.of_mem ?_ (markDirty_mem _ _)
    have h0 : Off D m0 ({ s with free := s.free + 1 } : State) := h.of_mem rfl
    have hw : ∀ v, Off D m0 (({ s with free := s.free + 1 } : State).writeBytes a.loc (bytesOf a.n v)) := fun v =>
      h0.writeBytes _ _ (fun x x1 x2 => hd x (.inr (by rw [e]; rw [bytesOf_length] at x2; exact ⟨x1, x2⟩)))
    cases a.mode <;> first
      | exact h0
      | exact hw _
      | exact (hw _).of_mem (State.modCore_mem _ _ _)
  · exact h

theorem Off.runAtoms {s s0 : State} (h : Off D m0 s) (as : List Access) (hd : ∀ b ∈ as, ∀ x, storesAt s0 b x → D x) : Off D m0 (runAtoms as s) := by
  unfold Sys2Proof.Machine.runAtoms
  refine Off.of_mem ?_ (settle_mem _)
  refine Off.foldl _ as ?_ h
  intro s a ha hs
  split
  · exact hs.of_mem (by simp)
  · exact hs.of_mem (by simp)
  · split
    · exact hs.of_mem (by simp)
    · exact Off.applyAtom (hs.of_mem (by simp)) a (hd a ha)

theorem Off.applySet {s s0 : State} (h : Off D m0 s) (as : List Access) (again : State → State) (done : Access → State → State)
    (ha : ∀ t, (again t).mem = t.mem) (hq : ∀ b t, (done b t).mem = t.mem) (hd : ∀ b ∈ as, ∀ x, storesAt s0 b x → D x) :
    Off D m0 (applySet as again done s) := by
  have h1 : ∀ b ∈ as, ∀ x, dataAt s0 b x → D x := fun b hb x hx => hd b hb x (dataAt_stores hx)
  have hh : ∀ b ∈ as, ∀ k x, dataAt s0 (b.half k) x → D x := fun b hb k x hx => h1 b hb x (dataAt_half k hx)
  unfold Sys2Proof.Machine.applySet
  split
  · exact h
  · split
    · exact Off.foldl _ _ (fun _ b hb hs => (hs.applyStore b (h1 b hb)).of_mem (hq _ _)) h
    · split
      · exact Off.foldl _ _ (fun _ b hb hs => (hs.applyStore _ (hh b hb _)).of_mem (hq _ _)) h
      · exact (Off.foldl _ _ (fun _ b hb hs => hs.applyStore _ (hh b hb _)) (h.of_mem (firstHalf_mem _ _))).of_mem (ha _)

theorem Off.queueStores {s s0 : State} (h : Off D m0 s) (as : List Access) (hd : ∀ b ∈ as, ∀ x, storesAt s0 b x → D x) : Off D m0 (queueStores as s) := by
  unfold Sys2Proof.Machine.queueStores
  refine Off.of_mem ?_ (settle_mem _)
  split
  · exact h
  · split
    · exact h.applySet _ _ _ (by simp) (by simp) hd
    · exact Off.foldl _ _ (fun _ _ _ hs => hs.of_mem (by simp)) h
    · exact Off.foldl _ _ (fun _ _ _ hs => hs.of_mem (by simp)) h

theorem Off.drainStores {s s0 : State} (h : Off D m0 s) (e : Instr) (as : List Access) (hd : ∀ b ∈ as, ∀ x, storesAt s0 b x → D x) :
    Off D m0 (drainStores e as s) := by
  unfold Sys2Proof.Machine.drainStores
  dsimp only
  refine Off.of_mem ?_ (settle_mem _)
  refine Off.applySet ?_ _ _ _ (by simp) (by simp) (fun b hb => hd b (List.mem_filter.mp hb).1)
  refine Off.foldl _ _ (fun _ _ _ hs => ?_) h
  split
  · exact hs.of_mem (by simp)
  · exact hs

theorem nextUnit_ok {a : Access} {s t : State} {u : Nat} (h : nextUnit a s = some (u, t)) : u ∈ a.units ∧ t.mem = s.mem := by
  refine ⟨?_, nextUnit_mem h⟩
  unfold nextUnit at h
  dsimp only at h
  rw [Option.map_eq_some_iff] at h
  obtain ⟨v, hv, h⟩ := h
  cases h
  exact List.mem_of_getElem? hv

theorem Off.tileWrite {s : State} (h : Off D m0 s) (a : Access) (loc : Nat) (bs : List Byte) (hd : ∀ x, loc ≤ x → x < loc + bs.length → D x) :
    Off D m0 (tileWrite a loc bs s) :=
  (h.writeBytes loc bs hd).of_mem (by simp [Sys2Proof.Machine.tileWrite])

theorem seen_length {s : State} {core loc n : Nat} : (s.seen core loc n).length ≤ n := by
  unfold State.seen
  simp [Memory.readN]

theorem Off.tileReach {s : State} (h : Off D m0 s) (a : Access) (k n : Nat) (write : Bool) {again go : State → State}
    (ha : ∀ t, Off D m0 t → Off D m0 (again t)) (hg : ∀ t, Off D m0 t → Off D m0 (go t)) : Off D m0 (tileReach a k n write again go s) := by
  unfold Sys2Proof.Machine.tileReach
  dsimp only
  split
  · exact h.of_mem (failAccess_mem _ _ _)
  · have hl := h.of_mem (agentLine_mem a.mode a.die (a.tileLoc k) n a.asker write s)
    split
    · exact hg _ (hl.of_mem (State.modAcc_mem _ _ _))
    · exact ha _ hl

theorem Off.ldtStep {s : State} (h : Off D m0 s) (a : Access) (sp lim : Nat)
    (hd : ∀ u ∈ a.units, ∀ x, sp + 16 * u ≤ x → x < sp + 16 * u + 16 → D x) : Off D m0 (ldtStep a sp lim s) := by
  have hk : ∀ (ok : Bool) (t : State), Off D m0 t → Off D m0 (settle (performed a (knownResult a [] [(a.pd, ok)] t))) :=
    fun _ _ ht => ht.of_mem (by simp)
  have hr : ∀ t : State, Off D m0 t → Off D m0 (t.post (.loadBind a.id)) := fun _ ht => ht.of_mem (State.post_mem _ _)
  unfold Sys2Proof.Machine.ldtStep
  dsimp only
  split
  · refine h.tileReach a _ _ _ hr (fun t ht => ?_)
    split
    · exact hk _ _ ht
    · split
      · exact ht.of_mem (by simp)
      · exact ht.of_mem (by simp)
      · exact hk _ _ ht
  · split
    · next u t hu =>
      obtain ⟨h1, h2⟩ := nextUnit_ok hu
      refine Off.tileReach (h.of_mem h2) a _ _ _ hr (fun v hv => ?_)
      have hw := hv.writeBytes (sp + 16 * u) (v.seen a.t.core (a.tileLoc (64 + 16 * u)) 16) (fun x x1 x2 => hd u h1 x x1 (by
        have := @seen_length v a.t.core (a.tileLoc (64 + 16 * u)) 16
        omega))
      exact hw.of_mem (by simp)
    · refine h.tileReach a _ _ _ hr (fun t ht => ?_)
      have hf := ht.of_mem (fillL1_mem a a.loc t)
      split
      · exact hk _ _ hf
      · split
        · exact hk _ _ hf
        · exact hf.of_mem (by simp)

theorem Off.sttStep {s : State} (h : Off D m0 s) (a : Access) (aon : Bool) (sp : Nat) (hd1 : ∀ x, a.loc ≤ x → x < a.loc + 4 → D x)
    (hd : ∀ u ∈ a.units, ∀ x, a.tileLoc (64 + 16 * u) ≤ x → x < a.tileLoc (64 + 16 * u) + 16 → D x) : Off D m0 (sttStep a aon sp s) := by
  have hr : ∀ t : State, Off D m0 t → Off D m0 (t.post (.storePerform a.id 0)) := fun _ ht => ht.of_mem (State.post_mem _ _)
  have hv : ∀ t : State, Off D m0 t → Off D m0 (settle (madeVisible a (progressAcc a t))) := fun _ ht => ht.of_mem (by simp)
  have hb : ∀ (v : Nat) (t : State), Off D m0 t → Off D m0 (Sys2Proof.Machine.tileWrite a a.loc (bytesOf 4 v) t) := fun v t ht =>
    ht.tileWrite a _ _ (fun x x1 x2 => hd1 x x1 (by rw [bytesOf_length] at x2; exact x2))
  unfold Sys2Proof.Machine.sttStep
  dsimp only
  split
  · exact h.tileReach a _ _ _ hr (fun t ht => hr _ ((hb _ t ht).of_mem (State.modAcc_mem _ _ _)))
  · split
    · next u t hu =>
      obtain ⟨h1, h2⟩ := nextUnit_ok hu
      refine Off.tileReach (h.of_mem h2) a _ _ _ hr (fun v hv' => hr _ (Off.of_mem ?_ (State.modAcc_mem _ _ _)))
      exact hv'.tileWrite a _ _ (fun x x1 x2 => hd u h1 x x1 (by rw [readBytes_length] at x2; exact x2))
    · split
      · exact h.tileReach a _ _ _ hr (fun t ht => hv _ (hb _ t ht))
      · exact hv _ h

theorem requestLine_accs (h : Holder) (line : Nat) (write : Bool) (who : Asker) (s : State) : (requestLine h line write who s).accs = s.accs := by
  unfold requestLine; split
  · rfl
  · simp [newRequest, State.fresh]

theorem foldl_accs {α : Type} (f : State → α → State) (h : ∀ s x, (f s x).accs = s.accs) (l : List α) (s : State) :
    (l.foldl f s).accs = s.accs := by
  induction l generalizing s with
  | nil => rfl
  | cons x l ih => rw [List.foldl_cons, ih, h]

theorem demandLines_accs (h : Holder) (ls : List Nat) (write : Bool) (who : Asker) (s : State) : (demandLines h ls write who s).1.accs = s.accs := by
  unfold demandLines
  dsimp only
  split
  · rfl
  · exact foldl_accs _ (fun s l => requestLine_accs _ _ _ _ s) _ _

theorem postOnce_accs (e : Instr) (s : State) : (s.postOnce e).accs = s.accs := by
  unfold State.postOnce; split <;> simp

theorem askBridge_accs (line ctx : Nat) (s : State) : (askBridge line ctx s).accs = s.accs := by
  unfold askBridge; split <;> rfl

theorem askHost_accs (line half : Nat) (inv : Bool) (s : State) : (askHost line half inv s).accs = s.accs := by
  unfold askHost; split
  · rfl
  · simp

theorem snoopData_accs (line : Nat) (s : State) : (snoopData line s).1.accs = s.accs :=
  foldl_accs _ (fun s _ => askHost_accs _ _ _ s) _ _

theorem setHalf_accs (line half : Nat) (st : HalfState) (s : State) : (s.setHalf line half st).accs = s.accs := rfl

theorem snoopInv_accs (loc n : Nat) (s : State) : (snoopInv loc n s).1.accs = s.accs :=
  foldl_accs _ (fun s _ => by split; exacts [askHost_accs _ _ _ s, setHalf_accs _ _ _ s]) _ _

theorem snoopWrites_accs (a : Access) (s : State) : (snoopWrites a s).1.accs = s.accs := by
  unfold snoopWrites
  generalize a.writes = l
  have key : ∀ (l : List (Nat × Nat)) (x : State × Bool),
      (l.foldl (fun (x : State × Bool) w => ((snoopInv w.1 w.2 x.1).1, x.2 && (snoopInv w.1 w.2 x.1).2)) x).1.accs = x.1.accs := by
    intro l
    induction l with
    | nil => exact fun _ => rfl
    | cons w l ih => exact fun x => (ih _).trans (snoopInv_accs _ _ _)
  exact key l (s, true)

theorem lineReady_accs (a : Access) (write : Bool) (s : State) : (lineReady a write s).1.accs = s.accs := by
  unfold lineReady lineHeld
  dsimp only
  repeat' first
    | rfl
    | exact demandLines_accs _ _ _ _ _
    | exact snoopData_accs _ _
    | exact postOnce_accs _ _
    | exact (postOnce_accs _ _).trans (askBridge_accs _ _ _)
    | split

theorem recallLine_accs (line acc : Nat) (s : State) : (recallLine line acc s).1.accs = s.accs := by
  unfold recallLine
  dsimp only
  repeat' first
    | rfl
    | exact (postOnce_accs _ _)
    | (simp [newRequest, State.fresh]; done)
    | split

theorem groupSet_accs {s t : State} (h : t.accs = s.accs) (a : Access) : t.groupSet a = s.groupSet a := by unfold State.groupSet; rw [h]

end Sys2Proof.Laws
end

