-- ==== Sys2Proof/Laws/Tokens.lean ====
section
/-! SUPPORT. The tokens of a line as they are taken, given, sent and received (R338, R340). -/

namespace Sys2Proof.Laws

open Sys2Proof.Machine Sys2Proof.Safety

theorem sum_update {α : Type} [DecidableEq α] (f g : α → Nat) (a : α) (H : List α) (hn : H.Nodup) (ha : a ∈ H) (hf : ∀ h, h ≠ a → f h = g h) :
    (H.map f).sum + g a = (H.map g).sum + f a := by
  induction H with
  | nil => simp at ha
  | cons x H ih =>
    rw [List.nodup_cons] at hn
    simp only [List.map_cons, List.sum_cons]
    by_cases hx : x = a
    · subst hx
      have : H.map f = H.map g := List.map_congr_left (fun y hy => hf y (fun e => hn.1 (e ▸ hy)))
      rw [this]; omega
    · have := ih hn.2 (by rcases List.mem_cons.mp ha with e | e; exact absurd e.symm hx; exact e)
      rw [hf x hx]; omega

theorem tokens_line (s : State) (l : Nat) : (s.tokens l).line = l := by
  unfold State.tokens
  cases h : s.fab.tokens.find? (fun t => t.line == l) with
  | none => rfl
  | some t => have := List.find?_some h; simpa using this

theorem tokens_setTokens (s : State) (x : TokenLine) (l : Nat) : (s.setTokens x).tokens l = if l = x.line then x else s.tokens l := by
  unfold State.tokens State.setTokens
  dsimp only
  rw [List.find?_append]
  by_cases hl : l = x.line
  · subst hl
    have : List.find? (fun t : TokenLine => t.line == x.line) (List.filter (fun y => y.line != x.line) s.fab.tokens) = none := by
      rw [List.find?_eq_none]; intro y hy; have := (List.mem_filter.mp hy).2; simpa using this
    rw [this]; simp
  · have h1 : List.find? (fun t : TokenLine => t.line == l) [x] = none := by simp [Ne.symm hl]
    have h2 : List.find? (fun t : TokenLine => t.line == l) (List.filter (fun y => y.line != x.line) s.fab.tokens) = List.find? (fun t => t.line == l) s.fab.tokens := by
      generalize s.fab.tokens = ts
      induction ts with
      | nil => rfl
      | cons y ts ih =>
        rw [List.filter_cons]
        by_cases hy : y.line = x.line
        · have e1 : (y.line != x.line) = false := by simp [hy]
          have e2 : (y.line == l) = false := by simp [hy, Ne.symm hl]
          rw [e1, List.find?_cons, e2]; simpa using ih
        · have e1 : (y.line != x.line) = true := by simp [hy]
          rw [e1, if_pos rfl, List.find?_cons, List.find?_cons, ih]
    rw [h1, h2, if_neg hl, Option.or_none]

theorem hold_holder (t : TokenLine) (h : Holder) : (t.hold h).holder = h := by
  unfold TokenLine.hold
  cases e : t.holds.find? (fun x => x.holder == h) with
  | none => rfl
  | some x => have := List.find?_some e; simpa using this

theorem hold_count_setHold (t : TokenLine) (x : Hold) (h : Holder) :
    ((t.setHold x).hold h).count = if h = x.holder then x.count else (t.hold h).count := by
  unfold TokenLine.hold TokenLine.setHold
  dsimp only
  rw [List.find?_append]
  by_cases hl : h = x.holder
  · subst hl
    have : List.find? (fun y : Hold => y.holder == x.holder) (List.filter (fun y => y.holder != x.holder) t.holds) = none := by
      rw [List.find?_eq_none]; intro y hy; have := (List.mem_filter.mp hy).2; simpa using this
    rw [this, if_pos rfl]
    split
    · next e => simp [e]
    · simp
  · have h1 : List.find? (fun y : Hold => y.holder == h) (if x.count = 0 then [] else [x]) = none := by split <;> simp [Ne.symm hl]
    have h2 : List.find? (fun y : Hold => y.holder == h) (List.filter (fun y => y.holder != x.holder) t.holds) = List.find? (fun y => y.holder == h) t.holds := by
      generalize t.holds = ts
      induction ts with
      | nil => rfl
      | cons y ts ih =>
        rw [List.filter_cons]
        by_cases hy : y.holder = x.holder
        · have e1 : (y.holder != x.holder) = false := by simp [hy]
          have e2 : (y.holder == h) = false := by simp [hy, Ne.symm hl]
          rw [e1, List.find?_cons, e2]; simpa using ih
        · have e1 : (y.holder != x.holder) = true := by simp [hy]
          rw [e1, if_pos rfl, List.find?_cons, List.find?_cons, ih]
    rw [h1, h2, if_neg hl, Option.or_none]

theorem count_take (t : TokenLine) (src h : Holder) (n : Nat) (o : Bool) :
    (t.take src n o).count h = if h = src then t.count src - n else t.count h := by
  unfold TokenLine.take
  by_cases hs : src = .home
  · rw [if_pos hs]; subst hs
    unfold TokenLine.count
    by_cases hh : h = .home
    · simp [hh]
    · simp only [hh, if_false]; rfl
  · rw [if_neg hs]
    unfold TokenLine.count
    dsimp only
    by_cases hh : h = .home
    · simp [hh, Ne.symm hs]; rfl
    · simp only [hh, if_false, hs]
      rw [hold_count_setHold]
      simp only [hold_holder]

theorem count_give (t : TokenLine) (dst h : Holder) (n : Nat) (o d : Bool) :
    (t.give dst n o d).count h = if h = dst then t.count dst + n else t.count h := by
  unfold TokenLine.give
  by_cases hn : n = 0
  · rw [if_pos hn, hn]; split
    · next e => rw [e]; rfl
    · rfl
  rw [if_neg hn]
  by_cases hs : dst = .home
  · rw [if_pos hs]; subst hs
    unfold TokenLine.count
    by_cases hh : h = .home
    · simp [hh]
    · simp only [hh, if_false]; rfl
  · rw [if_neg hs]
    unfold TokenLine.count
    dsimp only
    by_cases hh : h = .home
    · simp [hh, Ne.symm hs]; rfl
    · simp only [hh, if_false, hs]
      rw [hold_count_setHold]
      simp only [hold_holder]

theorem take_line (t : TokenLine) (h : Holder) (n : Nat) (o : Bool) : (t.take h n o).line = t.line ∧ (t.take h n o).epoch = t.epoch := by
  unfold TokenLine.take TokenLine.setHold; split <;> exact ⟨rfl, rfl⟩

theorem give_line (t : TokenLine) (h : Holder) (n : Nat) (o d : Bool) : (t.give h n o d).line = t.line ∧ (t.give h n o d).epoch = t.epoch := by
  unfold TokenLine.give TokenLine.setHold; split
  · exact ⟨rfl, rfl⟩
  · split <;> exact ⟨rfl, rfl⟩

theorem tokens_of {s t : State} (h : t.fab.tokens = s.fab.tokens) (k : Nat) : t.tokens k = s.tokens k := by unfold State.tokens; rw [h]

/-- What of a message in flight its tokens' total depends on. -/
abbrev flight (m : TokenMsg) : Nat × Nat × Nat := (m.line, m.epoch, m.count)

theorem sum_flight (line e : Nat) (l : List TokenMsg) : ((l.filter (fun m => m.line == line && m.epoch == e)).map (·.count)).sum =
    (((l.map flight).filter (fun x => x.1 == line && x.2.1 == e)).map (fun x => x.2.2)).sum := by
  rw [List.filter_map, List.map_map]; rfl

theorem total_of_flights {H : List Holder} {s t : State} (h1 : t.fab.tokens = s.fab.tokens) (h2 : t.fab.msgs.map flight = s.fab.msgs.map flight)
    (l : Nat) : tokenTotal H t l = tokenTotal H s l := by
  unfold tokenTotal; rw [tokens_of h1 l, sum_flight, sum_flight, h2]

theorem total_of_fab {H : List Holder} {s t : State} (h1 : t.fab.tokens = s.fab.tokens) (h2 : t.fab.msgs = s.fab.msgs) (l : Nat) :
    tokenTotal H t l = tokenTotal H s l := total_of_flights h1 (by rw [h2]) l

theorem total_fab {H : List Holder} {s t : State} (h : t.fab = s.fab) (l : Nat) : tokenTotal H t l = tokenTotal H s l :=
  total_of_fab (by rw [h]) (by rw [h]) l

theorem foldl_total {H : List Holder} {α : Type} (f : State → α → State) (hf : ∀ s x l, tokenTotal H (f s x) l = tokenTotal H s l) (xs : List α) (s : State) (l : Nat) :
    tokenTotal H (xs.foldl f s) l = tokenTotal H s l := by
  induction xs generalizing s with
  | nil => rfl
  | cons x xs ih => exact (ih _).trans (hf s x l)

theorem post_total {H : List Holder} (e : Instr) (s : State) (l : Nat) : tokenTotal H (s.post e) l = tokenTotal H s l := total_fab (by simp) l

theorem postOnce_total {H : List Holder} (e : Instr) (s : State) (l : Nat) : tokenTotal H (s.postOnce e) l = tokenTotal H s l := by
  unfold State.postOnce; split
  · rfl
  · exact post_total e s l

theorem wakeLinks_total {H : List Holder} (ls : List Nat) (s : State) (l : Nat) : tokenTotal H (wakeLinks ls s) l = tokenTotal H s l :=
  foldl_total _ (fun s _ l => postOnce_total _ s l) _ s l

theorem launch_total {H : List Holder} (s : State) (l : Nat) : tokenTotal H (launch s) l = tokenTotal H s l := by
  refine total_of_flights (s := s) (t := launch s) rfl ?_ l
  unfold launch
  dsimp only
  rw [List.map_map]
  refine List.map_congr_left (fun m _ => ?_)
  dsimp only [Function.comp]
  split <;> rfl

theorem maskAdd_fab (line : Nat) (h : Holder) (s : State) :
    (maskAdd line h s).fab.tokens = s.fab.tokens ∧ (maskAdd line h s).fab.msgs = s.fab.msgs := by
  unfold maskAdd; split <;> exact ⟨rfl, rfl⟩

theorem maskTidy_total {H : List Holder} (line : Nat) (s : State) (l : Nat) : tokenTotal H (maskTidy line s) l = tokenTotal H s l := by
  refine total_of_fab ?_ ?_ l <;> (unfold maskTidy; dsimp only; split <;> rfl)

theorem mark_line (t : TokenLine) (h : Holder) (m : Option (Nat × Nat)) : (t.mark h m).line = t.line ∧ (t.mark h m).epoch = t.epoch := by
  unfold TokenLine.mark TokenLine.setHold; repeat' first | exact ⟨rfl, rfl⟩ | split

theorem mark_count (t : TokenLine) (h k : Holder) (m : Option (Nat × Nat)) : (t.mark h m).count k = t.count k := by
  unfold TokenLine.mark
  split
  · split
    · rfl
    · next hn =>
      have hh : h ≠ .home := fun e => hn (.inr e)
      unfold TokenLine.count
      by_cases hk : k = .home
      · subst hk; simp [TokenLine.setHold]
      · simp only [hk, if_false]
        rw [hold_count_setHold]
        split
        · next e => rw [e]; simp only [hold_holder]
        · rfl
  · rfl

theorem total_send {H : List Holder} (hn : H.Nodup) (s : State) (line : Nat) (src dst : Holder) (n : Nat) (o d : Bool) (hs : src ∈ H)
    (hc : n ≤ (s.tokens line).count src) (l : Nat) : tokenTotal H (sendTokens line src dst n o d s) l = tokenTotal H s l := by
  unfold sendTokens
  split
  · rfl
  · dsimp only
    rw [post_total, wakeLinks_total, launch_total]
    obtain ⟨k1, k2⟩ := maskAdd_fab line dst (s.fresh.2.setTokens ((s.tokens line).take src n o))
    have e0 : ∀ k, s.fresh.2.tokens k = s.tokens k := fun _ => rfl
    have tk : ∀ k, (s.fresh.2.setTokens ((s.tokens line).take src n o)).tokens k = if k = line then (s.tokens line).take src n o else s.tokens k := by
      intro k
      have := tokens_setTokens s.fresh.2 ((s.tokens line).take src n o) k
      rw [(take_line _ _ _ _).1, tokens_line, e0] at this
      exact this
    have tk' : ∀ k, ({ maskAdd line dst (s.fresh.2.setTokens ((s.tokens line).take src n o)) with
        fab := { (maskAdd line dst (s.fresh.2.setTokens ((s.tokens line).take src n o))).fab with
          msgs := (maskAdd line dst (s.fresh.2.setTokens ((s.tokens line).take src n o))).fab.msgs ++
            [{ id := s.fresh.1, line := line, dest := dst, count := n, owner := o, data := d,
               poison := (List.find? (fun p => p.1 == line) s.fresh.2.poison).isSome && d, epoch := (s.tokens line).epoch,
               links := s.fresh.2.linksOf line src dst, sent := false }] } } : State).tokens k =
        if k = line then (s.tokens line).take src n o else s.tokens k := by
      intro k
      exact (tokens_of (s := maskAdd line dst (s.fresh.2.setTokens ((s.tokens line).take src n o))) rfl k).trans ((tokens_of k1 k).trans (tk k))
    unfold tokenTotal
    rw [tk']
    dsimp only
    rw [k2]
    have km : (s.fresh.2.setTokens ((s.tokens line).take src n o)).fab.msgs = s.fab.msgs := rfl
    rw [km, List.filter_append, List.map_append, List.sum_append]
    by_cases hl : l = line
    · subst hl
      rw [if_pos rfl, (take_line _ _ _ _).2]
      simp only [List.filter_cons, beq_self_eq_true, Bool.and_self, if_true, List.filter_nil, List.map_cons, List.map_nil, List.sum_cons, List.sum_nil]
      have := sum_update ((s.tokens l).take src n o).count (s.tokens l).count src H hn hs (fun h hh => by rw [count_take, if_neg hh])
      rw [count_take, if_pos rfl] at this
      omega
    · rw [if_neg hl]
      have : (line == l) = false := by simp [Ne.symm hl]
      simp [List.filter_cons, this]

theorem total_sendAll {H : List Holder} (hn : H.Nodup) (s : State) (line : Nat) (src dst : Holder) (hs : src ∈ H) (l : Nat) :
    tokenTotal H (sendAll line src dst s) l = tokenTotal H s l := total_send hn s line src dst _ _ _ hs (Nat.le_refl _) l

theorem answerOf_le {t : TokenLine} {h : Holder} {w : Bool} {n : Nat} {o d : Bool} (e : answerOf t h w = some (n, o, d)) : n ≤ t.count h := by
  unfold answerOf at e
  dsimp only at e
  repeat' split at e
  all_goals first
    | (cases e; done)
    | (cases e; omega)

theorem flitPassed_total {H : List Holder} (i : Nat) (s : State) (l : Nat) : tokenTotal H (s.flitPassed i) l = tokenTotal H s l := by
  unfold State.flitPassed; dsimp only; split <;> first | exact total_of_fab rfl rfl l | rfl

theorem checkReq_total {H : List Holder} (r : Nat) (s : State) (l : Nat) : tokenTotal H (checkReq r s) l = tokenTotal H s l := by
  unfold checkReq
  split
  · rfl
  · split
    · rfl
    · split
      · exact postOnce_total _ _ _
      · exact total_of_fab rfl rfl l

theorem bridgeTakes_fab (r : TokenReq) (s : State) : (bridgeTakes r s).fab = s.fab := by
  unfold bridgeTakes; repeat' first | rfl | (exact State.post_fab _ _) | split

theorem sum_split (p q : TokenMsg → Bool) (l : List TokenMsg) : ((l.filter p).map (·.count)).sum =
    (((l.filter (fun x => !(q x))).filter p).map (·.count)).sum + (((l.filter q).filter p).map (·.count)).sum := by
  induction l with
  | nil => rfl
  | cons x l ih =>
    cases hp : p x <;> cases hq : q x <;> simp [List.filter_cons, hp, hq] at ih ⊢ <;> omega

theorem tt_receive {H : List Holder} (hn : H.Nodup) (s : State) (id : Nat) (m : TokenMsg)
    (hm : s.fab.msgs.filter (fun x => x.id == id) = [m]) (hd : m.dest ∈ H) (he : m.epoch = (s.tokens m.line).epoch) (l : Nat) :
    tokenTotal H ((s.dropMsgs (fun x => x.id == id)).setTokens (((s.dropMsgs (fun x => x.id == id)).tokens m.line).give m.dest m.count m.owner m.data)) l
      = tokenTotal H s l := by
  have e0 : ∀ k, (s.dropMsgs (fun x => x.id == id)).tokens k = s.tokens k := fun _ => rfl
  unfold tokenTotal
  rw [tokens_setTokens, e0, e0, (give_line _ _ _ _ _).1, tokens_line]
  dsimp only [State.setTokens, State.dropMsgs]
  by_cases hl : l = m.line
  · rw [if_pos hl, (give_line _ _ _ _ _).2, hl]
    rw [sum_split (fun x => x.line == m.line && x.epoch == (s.tokens m.line).epoch) (fun x => x.id == id) s.fab.msgs, hm]
    have := sum_update ((s.tokens m.line).give m.dest m.count m.owner m.data).count (s.tokens m.line).count m.dest H hn hd (fun h hh => by rw [count_give, if_neg hh])
    rw [count_give, if_pos rfl] at this
    simp [List.filter_cons, he]
    omega
  · rw [if_neg hl]
    rw [sum_split (fun x => x.line == l && x.epoch == (s.tokens l).epoch) (fun x => x.id == id) s.fab.msgs, hm]
    simp [List.filter_cons, Ne.symm hl]

theorem tt_stale {H : List Holder} (s : State) (id : Nat) (m : TokenMsg)
    (hm : s.fab.msgs.filter (fun x => x.id == id) = [m]) (he : m.epoch ≠ (s.tokens m.line).epoch) (l : Nat) :
    tokenTotal H (s.dropMsgs (fun x => x.id == id)) l = tokenTotal H s l := by
  have e0 : ∀ k, (s.dropMsgs (fun x => x.id == id)).tokens k = s.tokens k := fun _ => rfl
  unfold tokenTotal
  rw [e0]
  dsimp only [State.dropMsgs]
  rw [sum_split (fun x => x.line == l && x.epoch == (s.tokens l).epoch) (fun x => x.id == id) s.fab.msgs, hm]
  by_cases hl : m.line = l
  · subst hl; simp [List.filter_cons, he]
  · simp [List.filter_cons, hl]

theorem evict_total {H : List Holder} (hn : H.Nodup) (die line : Nat) (s : State) (hd : Holder.l2 die ∈ H) (l : Nat) :
    tokenTotal H (evictLine die line s) l = tokenTotal H s l := by
  unfold evictLine
  split
  · rfl
  · rw [post_total]
    exact (total_of_fab (s := sendAll line (.l2 die) .home s) rfl rfl l).trans (total_sendAll hn s _ _ _ hd l)

theorem l2Room_total {H : List Holder} (hn : H.Nodup) (h : Holder) (line : Nat) (s : State) (hd : h ∈ H) (l : Nat) :
    tokenTotal H (l2Room h line s) l = tokenTotal H s l := by
  unfold l2Room
  split
  · dsimp only
    split
    · with_reducible rfl
    · split
      · exact evict_total hn _ _ s hd l
      · with_reducible rfl
  · with_reducible rfl

end Sys2Proof.Laws
end

