-- ==== Sys2Proof/Laws/Words.lean ====
section
/-! SUPPORT. What the shared effects of words come to where their checks pass, and what taking a trap leaves. -/

namespace Sys2Proof.Laws

open Sys2Proof.Machine Sys2Proof.Safety

theorem checked_go {c : Ctx} {slot : Nat} {t : DWord} {go : Unit → Res} (h : Reachable c slot t) :
    checkedTarget c slot t go = go () := by
  obtain ⟨h1, h2, h3, h4⟩ := h
  unfold checkedTarget
  rw [if_neg (by omega), if_neg]
  · cases hl : c.s.cachedLine c.r.core (c.s.ctxOf c.th) (pcLine t) with
    | none => rw [hl] at h4; simp at h4
    | some l => rw [hl] at h4; simp at h4; simp [h4]
  · rw [h2]
    cases hh : c.s.homeOf (c.s.ctxOf c.th) t with
    | none => rw [hh] at h3; simp at h3
    | some _ => simp

theorem push_few {s : State} {th : Thread} {r : TRef} {ret : DWord} {go : State → Res} (h : th.calls.length ≠ 4) :
    pushCall s th r ret go = go (s.modThread th.ref (fun t => { t with calls := th.calls ++ [ret] })) := by
  unfold pushCall
  split
  · next hc => simp [hc] at h
  · rfl

theorem push_spill {s : State} {th : Thread} {r : TRef} {ret : DWord} {go : State → Res} {w x y z : DWord} {u : State} {loc : Nat} {mode : AccMode}
    (h : th.calls = [w, x, y, z]) (h2 : th.callsp ≠ spillLimit) (h3 : privWay s th r th.callsp rightsW = .ok u loc mode) :
    pushCall s th r ret go = go ((dirtyAt mode (r.core / 256) loc ((u.writeBytes loc (bytesOf 8 w.toNat ++ bytesOf 8 x.toNat)).modCore th.ref.core
      (Core.l1Store loc (bytesOf 8 w.toNat ++ bytesOf 8 x.toNat)))).modThread th.ref (fun t => { t with calls := [y, z, ret], callsp := t.callsp + 16 })) := by
  unfold pushCall
  rw [h]; simp only [h2, if_false, h3]

variable {c : Ctx} {instr n : Nat} {v : DWord} {x : Bool}

abbrev isO (c : Ctx) (k : Collective) : Bool := k.pc == c.th.pc && k.j == c.th.rep.map (fun r => r.j)

theorem arrive_some {k : Collective} (hm : (collMask c).getLsbD c.th.ref.lane = true) (hk : c.warp.colls.find? (isO c) = some k) (h2 : k.mask = collMask c) :
    arriveColl c instr v n x = .wait ((c.s.modWarp c.th.ref.core c.th.ref.slot (fun w => { w with
      colls := w.colls.map (fun k => if isO c k then { k with arrived := k.arrived ++ [{ lane := c.th.ref.lane, d := c.f.d.toNat, v := v, n := n, x := x }] } else k) })).modThread c.th.ref (fun t => { t with status := .collective })) := by
  unfold arriveColl
  simp only
  rw [if_neg (by simp [hasLane, Ctx.r, hm])]
  have hk' : List.find? (fun k => k.pc == c.th.pc && k.j == Option.map (fun x => x.j) c.th.rep) c.warp.colls = some k := hk
  rw [hk']; simp only; rw [if_neg (by simp [h2])]; rfl

theorem arrive_none (hm : (collMask c).getLsbD c.th.ref.lane = true) (hk : c.warp.colls.find? (isO c) = none) :
    arriveColl c instr v n x = .wait ((c.s.modWarp c.th.ref.core c.th.ref.slot (fun w => { w with colls := w.colls ++ [{ pc := c.th.pc, j := c.th.rep.map (fun r => r.j), mask := collMask c, instr := instr, m := c.f.m, ty := Forms.ts c.f, arrived := [{ lane := c.th.ref.lane, d := c.f.d.toNat, v := v, n := n, x := x }] }] })).modThread c.th.ref (fun t => { t with status := .collective })) := by
  unfold arriveColl
  simp only
  rw [if_neg (by simp [hasLane, Ctx.r, hm])]
  have hk' : List.find? (fun k => k.pc == c.th.pc && k.j == Option.map (fun x => x.j) c.th.rep) c.warp.colls = none := hk
  rw [hk']; rfl

theorem coll_of {op : Nat} {f : Fields} {s : State} {th : Thread} {instr n v x} {body : Ctx → Res} (h : Issues op f s th)
   (hb : body (atIssue op f s th) = arriveColl (atIssue op f s th) instr v n x)
   (hm : (collMask (atIssue op f s th)).getLsbD th.ref.lane = true) :
   (∀ k, (atIssue op f s th).warp.colls.find? (isO (atIssue op f s th)) = some k → k.mask = collMask (atIssue op f s th) →
     Waits (issueOp op f s body) (atIssue op f s th) (((atIssue op f s th).s.modWarp th.ref.core th.ref.slot (fun w => { w with
      colls := w.colls.map (fun k => if isO (atIssue op f s th) k then { k with arrived := k.arrived ++ [{ lane := th.ref.lane, d := f.d.toNat, v := v, n := n, x := x }] } else k) })).modThread th.ref (fun t => { t with status := .collective }))) ∧
   ((atIssue op f s th).warp.colls.find? (isO (atIssue op f s th)) = none → Waits (issueOp op f s body) (atIssue op f s th)
     (((atIssue op f s th).s.modWarp th.ref.core th.ref.slot (fun w => { w with colls := w.colls ++ [{ pc := th.pc, j := th.rep.map (fun r => r.j), mask := collMask (atIssue op f s th), instr := instr, m := f.m, ty := Forms.ts f, arrived := [{ lane := th.ref.lane, d := f.d.toNat, v := v, n := n, x := x }] }] })).modThread th.ref (fun t => { t with status := .collective }))) :=
  ⟨fun k hk h2 => waits_of h (hb.trans (arrive_some hm hk h2)), fun hk => waits_of h (hb.trans (arrive_none hm hk))⟩

theorem barrier_now {level : Nat} {c : Ctx} (hs : c.r.slot ≠ 64) (h : c.f.m.getLsbD 0 = false ∨ (c.warp.faultOf 15 = none ∧ c.s.keySatisfied c.warp 15 (relScope level) = true)) :
   barrierBody level c = .wait (arriveBarrier c.th level (Forms.immBits c.f 3 0) c.s) := by
  unfold barrierBody; simp only; rw [if_neg hs]
  by_cases hm : c.f.m.getLsbD 0 = true
  · obtain ⟨h2, h3⟩ := h.resolve_left (by simp [hm])
    rw [if_pos hm, h2]; simp only; rw [if_pos h3]
  · rw [if_neg hm]

theorem barrier_keys {level : Nat} {c : Ctx} (hs : c.r.slot ≠ 64) (h1 : c.f.m.getLsbD 0 = true) (h2 : c.warp.faultOf 15 = none) (h3 : c.s.keySatisfied c.warp 15 (relScope level) = false) :
   barrierBody level c = .wait (c.s.modThread c.r (fun t => { t with status := .barrierKeys level (Forms.immBits c.f 3 0) (c.warp.waitsOf 15) })) := by
  unfold barrierBody; simp only; rw [if_neg hs, if_pos h1, h2]; simp only; rw [if_neg (by simp [h3])]

theorem barh_go {c : Ctx} (h : hhDeparted c = false) : (if hhDeparted c then (Res.trap (TrapInfo.of .hhDeparted)) else barrierBody 2 c) = barrierBody 2 c := by rw [if_neg (by simp [h])]

theorem memChecks_go {c : Ctx} {sp : Spaces} {need : Need} {n al : Nat} {ty : AtomPoint → Bool} {tgt : Target} {go : Target → Res}
    (h : MayAccess c sp need n al ty tgt) : memChecks c sp need n al ty go = go tgt := by
  obtain ⟨h1, h2, h3, h4⟩ := h
  unfold memChecks; rw [h1]; simp only; rw [h2]; simp only; rw [h3, h4]; rfl

theorem enter_acc? {c : Ctx} {op p tgt n d1 d2 rz pd} : ∃ a, (enterAccess c op p tgt n d1 d2 rz pd).2.acc? (enterAccess c op p tgt n d1 d2 rz pd).1 = some a := by
  unfold enterAccess bumpPath State.addOp State.modWarp State.acc? 
  simp only [State.fresh, List.find?_append]
  cases List.find? _ c.s.accs with
  | some a => exact ⟨a, rfl⟩
  | none => exact ⟨_, by simp; rfl⟩

theorem entersAs_of {op : Nat} {f : Fields} {s : State} {th : Thread} {body : Ctx → Res} (h : Issues op f s th) {tgt aop p n d1 d2 rz pd}
    (hb : body (atIssue op f s th) = afterEntry (atIssue op f s th) tgt (enterAccess (atIssue op f s th) aop p tgt n d1 d2 rz pd)) :
    EntersAs (issueOp op f s body) (atIssue op f s th) tgt (enterAccess (atIssue op f s th) aop p tgt n d1 d2 rz pd) := by
  obtain ⟨a, ha⟩ := @enter_acc? (atIssue op f s th) aop p tgt n d1 d2 rz pd
  cases tgt with
  | scratch x y z => exact ⟨a, ha, done_of h (by rw [hb]; unfold afterEntry; rw [ha])⟩
  | remote x => exact ⟨a, ha, done_of h (by rw [hb]; unfold afterEntry; rw [ha])⟩
  | priv x => exact waits_of h (by rw [hb]; unfold afterEntry; rfl)
  | glob x => exact waits_of h (by rw [hb]; unfold afterEntry; rfl)

theorem plain_go {c : Ctx} {sp : Spaces} {need : Need} {n : Nat} {ty : AtomPoint → Bool} {tgt : Target} {op d1 d2}
    (h : MayAccess c sp need n n ty tgt) : plainAccess c sp need n op d1 d2 ty = afterEntry c tgt (enterAccess c op c.addr tgt n d1 d2 (Forms.rz c.f) c.f.c.toNat) :=
  memChecks_go h

theorem range_go {c : Ctx} {sp : Spaces} {tgt : Target} {op}
    (h : MayAccess c sp .read 1 1 anyPoint tgt) : rangeAccess c sp op = afterEntry c tgt (enterAccess c op c.addr tgt 1 [] [] false 7) :=
  memChecks_go h

theorem tile_go {c : Ctx} {need : Need} {tgt : Target} {mk} {off : Nat} {b : Block} (h1 : decodePtr (c.pair 1 c.f.b.toNat) = some (.own off)) (h2 : off % 32 = 0) (h3 : c.s.blockOf c.th = some b)
    (h : MayAccess c Spaces.mem need 64 64 anyPoint tgt) : tileAccess c need mk = afterEntry c tgt (enterAccess c (mk (scratchBase b.core + b.spBase + off) (scratchBase b.core + b.spBase + b.spSize)) c.addr tgt 64 [] [] false c.f.c.toNat) := by
  unfold tileAccess; simp only; rw [h1, memChecks_go h]; simp only; rw [if_neg (by simp [h2]), h3]

theorem join_none {c : Ctx} {ka : Nat} {src : List Nat} (h : c.keyAnswer = none) : joinKeys c ka src = .ok (noteKey c.r 0 (c.modWarp (Warp.modKey ka (fun k => { k with
      producers := (src.flatMap c.warp.producersOf).eraseDups, fault := src.findSome? c.warp.faultOf })))) := by
  unfold joinKeys; rw [h]

theorem join_some {c : Ctx} {ka : Nat} {src : List Nat} {v} (h : c.keyAnswer = some v) : joinKeys c ka src = .ok c.s := by
  unfold joinKeys; rw [h]

theorem keyChecked_go {c : Ctx} {r : Res} (h : c.warp.faultOf c.f.ck.toNat = none) : keyChecked c r = r := by
  unfold keyChecked; rw [h]

theorem close_ok {c : Ctx} {t : State} : c.close (.ok t) = .ok (closed c t) := by
  unfold Ctx.close closed; cases c.th.entered <;> rfl
theorem close_wait {c : Ctx} {t : State} : c.close (.wait t) = .wait (closed c t) := by
  unfold Ctx.close closed; cases c.th.entered <;> rfl

theorem waitKey_go {c : Ctx} {sc : Nat} {r : Res} (h : KeyReady c sc) : waitKey c sc r = c.close r := by
  unfold waitKey; rw [h.1]; simp only; rw [if_pos h.2]

theorem readRecord_go {c : Ctx} {sp : Spaces} {p : DWord} {n : Nat} {t : State} {v : Nat} {go : State → Nat → Res}
    (h : ReadsRecord c sp p n t v) : readRecord c sp p n go = go t v := by
  rcases h with ⟨core, loc, b, h1, h2, h3, rfl, rfl⟩ | ⟨g, loc, mode, h1, h2, h3, rfl⟩
  · unfold readRecord; rw [h1]; simp only; rw [if_neg (by simp [Ctx.r, h2]), if_neg (by simp [h3])]
  · unfold readRecord; rw [h1]; simp only [threadGrasp, Ctx.r]; rw [h2]; dsimp only; simp only [h3, Bool.false_eq_true, if_false]

theorem handOver_go {c : Ctx} {t : State} {plan : Except Cause EngPlan} {p : EngPlan} (h1 : plan = .ok p) (h2 : keyFull c = false)
    (h3 : t.engRoom p = true) : handOver c t plan = .ok (enterEng p t.nextId (({ t with nextId := t.nextId + 1 } : State).addOp c.th t.nextId c.f.pk.toNat (pointOfCore c.th.ref.core))) := by
  subst h1; unfold handOver; simp only; rw [if_neg (by simp [h2, h3])]; rfl

theorem handsOver_of {op : Nat} {f : Fields} {s : State} {th : Thread} {body : Ctx → Res} {t : State} {plan : Except Cause EngPlan}
    (h : Issues op f s th) (hb : body (atIssue op f s th) = handOver (atIssue op f s th) t plan) :
    HandsOver (issueOp op f s body) (atIssue op f s th) t plan :=
  fun _ h1 h2 h3 => done_of h (hb.trans (handOver_go h1 h2 h3))

theorem first_none {l : List (Option Cause)} (h : ∀ x ∈ l, x = none) : firstCause l = none := by
  unfold firstCause; rw [List.findSome?_eq_none_iff]; exact h

theorem acc_go {c : Ctx} {kind : EngKind} {store : Bool} (hf : c.warp.faultOf c.f.ck.toNat = none)
   (h1 : (c.reg 2 c.f.c.toNat).toNat % 4 = 0) (h2 : regionCheck c.s c.th.block (controlRegion (c.reg 1 c.f.b.toNat).toNat) false = none)
   (h3 : checkPtr c.s c.th Spaces.ownOnly (if store then .write else .read) c.addr 4 (((controlRegion (c.reg 1 c.f.b.toNat).toNat).rows - 1) * (c.reg 2 c.f.c.toNat).toNat + 4 * (controlRegion (c.reg 1 c.f.b.toNat).toNat).cols) = none) :
   accMove kind store c = handOver c c.s (.ok { op := { engOf c kind (c.reg 1 c.f.b.toNat).toNat 0 with src := c.addr, len := (c.reg 2 c.f.c.toNat).toNat }, ranges := if store then [(c.th.ref.core, (match c.s.blockOf c.th with | some b => b.spBase | none => 0) + c.addr.toNat % 2 ^ 19, (match c.s.blockOf c.th with | some b => b.spBase | none => 0) + c.addr.toNat % 2 ^ 19 + (((controlRegion (c.reg 1 c.f.b.toNat).toNat).rows - 1) * (c.reg 2 c.f.c.toNat).toNat + 4 * (controlRegion (c.reg 1 c.f.b.toNat).toNat).cols) - 1)] else [], charge := 0 }) := by
  unfold accMove; rw [keyChecked_go hf]; simp only
  rw [first_none]; · rfl
  intro x hx
  simp only [List.mem_cons, List.not_mem_nil, or_false] at hx
  rcases hx with rfl | rfl | rfl
  · simp [failIf, h1]
  · exact h2
  · exact h3

theorem object_go {c : Ctx} {sc : Nat} {up : Nat → ObUpdate} {bad : Nat → Bool} {core loc : Nat} {t : State}
    (hb : bad (c.reg 1 c.f.b.toNat).toNat = false) (h : ReachesObject c .write sc core loc)
    (hu : objectUpdate loc (up (c.reg 1 c.f.b.toNat).toNat) c.s = some t) : objectBody sc up bad c = .ok (closed c t) := by
  obtain ⟨h1, h2, h0, h3, h4⟩ := h
  unfold objectBody; simp only
  rw [if_neg (by simp [hb]), h1, h2]; simp only
  rw [if_neg (by simp only [Ctx.r]; simpa using h0), waitKey_go h3, if_neg (by simp [h4]), hu, ← close_ok]

theorem send_go {c : Ctx} {dst ptr card ev} (h : keyFull c = false) : sendMessage c dst ptr card ev = .wait (sent c dst ptr card ev) := by
  unfold sendMessage; rw [if_neg (by simp [h])]; rfl

theorem visit_ok {s t : State} {id node kind loc : Nat} {mode : AccMode} {g : Graph} {act : State → Graph → Nat → State} (hg : s.graph? id = some g)
    (h1 : g.faulted = false) (h2 : node ∈ g.acts)
    (h3 : graspAgent s (dieUnit g.die) g.die g.ctx (g.base + BitVec.ofNat 64 (32 * node)) 32 false = .ok t loc mode)
    (h4 : recBits (t.readLe loc 32) 251 240 = 0) (h5 : recBits (t.readLe loc 32) 63 36 = 0) (h6 : recBits (t.readLe loc 32) 31 0 = 0)
    (h7 : gnKind (t.readLe loc 32) ≤ 4) : visitNode id node kind s act =
      if gnKind (t.readLe loc 32) ≠ kind then .next (t.post (nodeEvent (gnKind (t.readLe loc 32)) id node)) else .next (act t g (t.readLe loc 32)) := by
  simp only [visitNode, hg]; rw [if_neg (by simp [h1, h2]), h3]; dsimp only; rw [if_neg (by omega)]

theorem instrOf_assigned (op : Nat) (f : Fields) (h : op < 1024) : (instrOf op f).isSome = Forms.assigned op := by
  have : ∀ op < 1024, (instrOf op ⟨0,0,0,0,0,0,0,0,false,0,false,0⟩).isSome = Forms.assigned op := by decide +kernel
  rw [← this op h]
  unfold instrOf
  split <;> rfl

theorem fetch_line {u : State} {r : TRef} {th : Thread} {l : Line} (h1 : u.thread? r = some th) (h0 : u.firstCheck th = none) (h2 : th.denied ≠ some th.pc)
   (h3 : u.cachedLine r.core (u.ctxOf th) (pcLine th.pc) = some l) (h4 : th.line = some (pcLine th.pc) ∨ l.reservedOk = true) :
   (∀ i, th.rep = none → decodeWord (l.slot (pcSlot th.pc)) = .ok i → fetchInstr r u = .run i) ∧
   (∀ rp w, th.rep = some rp → u.wordAt th rp.pc = some w → fetchInstr r u = .run (.repRepetition (fieldsOfWord w))) := by
  have hr' : (th.line != some (pcLine th.pc) && !l.reservedOk) = false := by
    rcases h4 with h | h <;> simp [h]
  unfold fetchInstr
  rw [h1]
  refine ⟨fun i h5 h6 => ?_, fun rp w h5 h6 => ?_⟩
  · simp only [h0, h2, h3, hr', h5, h6, if_false, Bool.false_eq_true]
  · simp only [h0, h2, h3, hr', h5, h6, if_false, Bool.false_eq_true]

theorem fetch_check {u : State} {r : TRef} {th : Thread} {c : Cause} (h1 : u.thread? r = some th) (h0 : u.firstCheck th = some c) :
    fetchInstr r u = .stop (notIssued r (raiseTrap r (TrapInfo.of c) u)) := by
  unfold fetchInstr
  rw [h1]
  simp only [h0]

theorem fetch_stop {u : State} {r : TRef} {th : Thread} (h1 : u.thread? r = some th) (h0 : u.firstCheck th = none) :
   (th.denied = some th.pc → fetchInstr r u = .stop (raiseTrap r (TrapInfo.of .pageDenied) u)) ∧
   (th.denied ≠ some th.pc → u.cachedLine r.core (u.ctxOf th) (pcLine th.pc) = none → fetchInstr r u = .stop (needLine r (pcLine th.pc) u)) ∧
   (∀ l, th.denied ≠ some th.pc → u.cachedLine r.core (u.ctxOf th) (pcLine th.pc) = some l →
    (th.line ≠ some (pcLine th.pc) → l.word.extractLsb' 9 7 ≠ 0 → (∀ rp, th.rep = some rp → u.wordAt th rp.pc ≠ none) →
      fetchInstr r u = .stop (raiseTrap r (TrapInfo.of .illegalLine) u)) ∧
    (th.line = some (pcLine th.pc) ∨ l.word.extractLsb' 9 7 = 0 → th.rep = none →
      Forms.assigned (opcodeOfWord (l.slot (pcSlot th.pc))) = false → (u.warpOf th).poisoned = false →
      (u.core r.core).check.getLsbD 0 = false → fetchInstr r u = .stop (raiseTrap r (TrapInfo.of .illegalOpcode) u))) := by
  unfold fetchInstr
  rw [h1]
  refine ⟨fun hd => ?_, fun hd hl => ?_, fun l hd hl => ⟨fun h3 h4 hr => ?_, fun h3 h4 h5 h6 h7 => ?_⟩⟩
  · simp only [h0, hd, if_true]
  · simp only [h0, hd, if_false, hl]
  · have e : (th.line != some (pcLine th.pc) && !l.reservedOk) = true := by simp [h3, Line.reservedOk]; exact h4
    simp only [h0, hd, if_false, hl, e, if_true]
    cases hrep : th.rep with
    | none => rfl
    | some rp => cases hw : u.wordAt th rp.pc with
      | none => exact absurd hw (hr rp hrep)
      | some w => dsimp only; rw [hw]
  · have e : (th.line != some (pcLine th.pc) && !l.reservedOk) = false := by
      rcases h3 with h | h <;> simp [h, Line.reservedOk]
    have hn : decodeWord (l.slot (pcSlot th.pc)) = .error (.illegalOpcode (opcodeOfWord (l.slot (pcSlot th.pc)))) := by
      have := instrOf_assigned (opcodeOfWord (l.slot (pcSlot th.pc))) (fieldsOfWord (l.slot (pcSlot th.pc))) (BitVec.isLt _)
      rw [h5] at this
      unfold decodeWord
      cases hx : instrOf (opcodeOfWord (l.slot (pcSlot th.pc))) (fieldsOfWord (l.slot (pcSlot th.pc)))
      · rfl
      · rw [hx] at this; cases this
    simp only [h0, hd, hl, e, if_false, Bool.false_eq_true, h4, hn]
    unfold illegalWord
    rw [h1]
    simp only [h6, h7, Bool.false_and, Bool.false_eq_true, if_false]

set_option maxHeartbeats 4000000 in
theorem exec_issues (i : Instr) (op : Nat) (f : Fields) (h : Forms.wordOf i = some (op, f)) (hr : op ≠ 0x187) :
    ∃ body : State → Ctx → Res, ∀ s, exec i s = issueOp op f s (body s) := by
  cases i
  all_goals first
    | (simp only [Forms.wordOf, reduceCtorEq] at h; done)
    | (simp only [Forms.wordOf] at h; cases h; first | exact ⟨fun _ => _, fun _ => rfl⟩ | (exact absurd rfl hr))

theorem guard_known : ∀ (g : BitVec 3) (t : Bool), (g != 7 && t) = !decide (g = 7 ∨ t = false) := by decide

theorem mem_insertAt {α : Type} (k : Nat) (x : α) (l : List α) : x ∈ insertAt k x l := by
  induction k generalizing l with
  | zero => exact List.mem_cons_self
  | succ k ih => cases l with
    | nil => exact List.mem_cons_self
    | cons y l => exact List.mem_cons_of_mem _ (ih l)

theorem post_agenda (e : Instr) (s : State) : e ∈ (s.post e).agenda := by
  unfold State.post; split
  · exact List.mem_append_right _ List.mem_cons_self
  · exact mem_insertAt _ _ _

/-! The operation of an instruction that does not happen is gone; what else is as it was. -/
@[simp] theorem dropOwn_clock (th : Thread) (s : State) : (th.dropOwn s).clock = s.clock := by
  unfold Thread.dropOwn; split <;> rfl
@[simp] theorem dropOwn_device (th : Thread) (s : State) : (th.dropOwn s).device = s.device := by
  unfold Thread.dropOwn; split <;> rfl
@[simp] theorem dropOwn_free (th : Thread) (s : State) : (th.dropOwn s).free = s.free := by
  unfold Thread.dropOwn; split <;> rfl
@[simp] theorem dropOwn_nextId (th : Thread) (s : State) : (th.dropOwn s).nextId = s.nextId := by
  unfold Thread.dropOwn; split <;> rfl
@[simp] theorem dropOwn_agenda (th : Thread) (s : State) : (th.dropOwn s).agenda = s.agenda := by
  unfold Thread.dropOwn; split <;> rfl
@[simp] theorem dropOwn_sched (th : Thread) (s : State) : (th.dropOwn s).sched = s.sched := by
  unfold Thread.dropOwn; split <;> rfl
@[simp] theorem dropOwn_turn (th : Thread) (s : State) : (th.dropOwn s).turn = s.turn := by
  unfold Thread.dropOwn; split <;> rfl
@[simp] theorem dropOwn_cursor (th : Thread) (s : State) : (th.dropOwn s).cursor = s.cursor := by
  unfold Thread.dropOwn; split <;> rfl
@[simp] theorem dropOwn_issue (th : Thread) (s : State) : (th.dropOwn s).issue = s.issue := by
  unfold Thread.dropOwn; split <;> rfl
@[simp] theorem dropOwn_threads (th : Thread) (s : State) : (th.dropOwn s).threads = s.threads := by
  unfold Thread.dropOwn; split <;> rfl
@[simp] theorem dropOwn_cores (th : Thread) (s : State) : (th.dropOwn s).cores = s.cores := by
  unfold Thread.dropOwn; split <;> rfl
@[simp] theorem dropOwn_blocks (th : Thread) (s : State) : (th.dropOwn s).blocks = s.blocks := by
  unfold Thread.dropOwn; split <;> rfl
@[simp] theorem dropOwn_gangs (th : Thread) (s : State) : (th.dropOwn s).gangs = s.gangs := by
  unfold Thread.dropOwn; split <;> rfl
@[simp] theorem dropOwn_hhs (th : Thread) (s : State) : (th.dropOwn s).hhs = s.hhs := by
  unfold Thread.dropOwn; split <;> rfl
@[simp] theorem dropOwn_tasks (th : Thread) (s : State) : (th.dropOwn s).tasks = s.tasks := by
  unfold Thread.dropOwn; split <;> rfl
@[simp] theorem dropOwn_accs (th : Thread) (s : State) : (th.dropOwn s).accs = s.accs := by
  unfold Thread.dropOwn; split <;> rfl
@[simp] theorem dropOwn_engs (th : Thread) (s : State) : (th.dropOwn s).engs = s.engs := by
  unfold Thread.dropOwn; split <;> rfl
@[simp] theorem dropOwn_sends (th : Thread) (s : State) : (th.dropOwn s).sends = s.sends := by
  unfold Thread.dropOwn; split <;> rfl
@[simp] theorem dropOwn_arrivals (th : Thread) (s : State) : (th.dropOwn s).arrivals = s.arrivals := by
  unfold Thread.dropOwn; split <;> rfl
@[simp] theorem dropOwn_paths (th : Thread) (s : State) : (th.dropOwn s).paths = s.paths := by
  unfold Thread.dropOwn; split <;> rfl
@[simp] theorem dropOwn_messages (th : Thread) (s : State) : (th.dropOwn s).messages = s.messages := by
  unfold Thread.dropOwn; split <;> rfl
@[simp] theorem dropOwn_past (th : Thread) (s : State) : (th.dropOwn s).past = s.past := by
  unfold Thread.dropOwn; split <;> rfl
@[simp] theorem dropOwn_poison (th : Thread) (s : State) : (th.dropOwn s).poison = s.poison := by
  unfold Thread.dropOwn; split <;> rfl
@[simp] theorem dropOwn_tabs (th : Thread) (s : State) : (th.dropOwn s).tabs = s.tabs := by
  unfold Thread.dropOwn; split <;> rfl
@[simp] theorem dropOwn_tx (th : Thread) (s : State) : (th.dropOwn s).tx = s.tx := by
  unfold Thread.dropOwn; split <;> rfl
@[simp] theorem dropOwn_fab (th : Thread) (s : State) : (th.dropOwn s).fab = s.fab := by
  unfold Thread.dropOwn; split <;> rfl
@[simp] theorem dropOwn_ext (th : Thread) (s : State) : (th.dropOwn s).ext = s.ext := by
  unfold Thread.dropOwn; split <;> rfl
@[simp] theorem dropOwn_boot (th : Thread) (s : State) : (th.dropOwn s).boot = s.boot := by
  unfold Thread.dropOwn; split <;> rfl

/-- The state before the core is stopped: the trapping thread is ready again. -/
def replayed (r : TRef) (th : Thread) (s : State) : State :=
  let m := (th.dropOwn s).modThread r (Thread.stopped (s.clock + 1))
  if s.issue.cur = r then { m with issue := { m.issue with paired := false } } else m

theorem raiseTrap_eq {s : State} {r : TRef} {th : Thread} (i : TrapInfo) (h : s.thread? r = some th) : raiseTrap r i s =
    if r.slot = 64 then machineCheck r.core (replayed r th s)
    else match (s.core r.core).stopped with
      | some c =>
        if c = s.clock ∧ !(s.core r.core).halted ∧
            trapOrder r.slot r.lane < trapOrder ((s.core r.core).recWarp.toNat % 64) ((s.core r.core).recWarp.toNat / 64)
        then (replayed r th s).modCore r.core (recordTrap th i) else replayed r th s
      | none => ((replayed r th s).modCore r.core (fun k => { recordTrap th i k with stopped := some s.clock })).post (.trapWarpStart r.core) := by
  have e0 (u : State) : ((u.modThread r (Thread.stopped (s.clock + 1))).issue.cur) = u.issue.cur := rfl
  have e1 (id : Nat) : (s.dropProducer id).issue = s.issue := rfl
  unfold raiseTrap replayed Thread.dropOwn
  rw [h]
  dsimp only
  cases th.ownOp with
  | none =>
    dsimp only; rw [e0]
    by_cases hcur : s.issue.cur = r
    · rw [if_pos hcur]; rfl
    · rw [if_neg hcur]; rfl
  | some id =>
    dsimp only; rw [e0, e1]
    by_cases hcur : s.issue.cur = r
    · rw [if_pos hcur]; rfl
    · rw [if_neg hcur]; rfl

theorem replayed_same (r : TRef) (th : Thread) (s : State) :
    (replayed r th s).threads = (s.modThread r (Thread.stopped (s.clock + 1))).threads ∧ (replayed r th s).cores = s.cores ∧
    (replayed r th s).clock = s.clock ∧ (replayed r th s).warps = (th.dropOwn s).warps ∧ RestSame (th.dropOwn s) (replayed r th s) := by
  unfold replayed Thread.dropOwn
  cases th.ownOp <;> dsimp only <;> split <;> repeat' constructor

theorem stopped_ref (n : Nat) (t : Thread) : (Thread.stopped n t).ref = t.ref := by unfold Thread.stopped; split <;> rfl

theorem thread_replayed (r : TRef) (th : Thread) (s : State) :
    (replayed r th s).thread? r = (s.thread? r).map (Thread.stopped (s.clock + 1)) := by
  have h : (replayed r th s).thread? r = (s.modThread r (Thread.stopped (s.clock + 1))).thread? r := by
    unfold State.thread?; rw [(replayed_same r th s).1]
  rw [h, thread?_modThread _ (stopped_ref _)]

theorem thread_replayed_ne {r q : TRef} (th : Thread) (s : State) (hq : q ≠ r) : (replayed r th s).thread? q = s.thread? q := by
  have h : (replayed r th s).thread? q = (s.modThread r (Thread.stopped (s.clock + 1))).thread? q := by
    unfold State.thread?; rw [(replayed_same r th s).1]
  rw [h, thread?_modThread_ne _ (stopped_ref _) hq]

end Sys2Proof.Laws
end

