-- ==== Sys2Proof/Tests/Slice0.lean ====
section
/-! SUPPORT. Small tests: ill-formed words are refused, words written out from the spec's encodings decode, single steps give the spec's
results, and the hypotheses of every statement are met. -/

namespace Sys2Proof.Tests

open Sys2Proof Sys2Proof.Machine Sys2Proof.Safety

set_option Elab.async false

/-! ## A small machine -/

/-- A word's fields without negation, guard, yield hint or stall. -/
def fieldsOf (imm m ck pk c b a d : Nat) : Fields :=
  ⟨BitVec.ofNat 32 imm, BitVec.ofNat 5 m, BitVec.ofNat 4 ck, BitVec.ofNat 4 pk, BitVec.ofNat 8 c, BitVec.ofNat 8 b, BitVec.ofNat 8 a,
    BitVec.ofNat 8 d, false, 7, false, 0⟩

/-- Line 6 of rmsproj1: EXIT and four NOPs, with the line word that R36 works out. -/
def lineBytes : List Byte :=
  bytesOf 64 (0x0007FFFFFFFB8185 + 0x0007FFFFFFFB8186 * (2 ^ 96 + 2 ^ 192 + 2 ^ 288 + 2 ^ 384) + 0x806701E1 * 2 ^ 480)

def thr : Thread := Thread.fresh ⟨0, 0, 0⟩ 0 1 64 0 0x1000 0
def trapThr : Thread := Thread.fresh ⟨0, 64, 0⟩ 0 0 64 0 0x1000 0

def block1 : Block :=
  { uid := 1, gang := 1, index := 0, rank := 0, core := 0, sp0 := 0, spSize := 65536, acc0 := 0, accRows := 16, ntid := 32, regs := 64, entry := 0x1000,
    argp := 0, state := 2, hold := false }
def gang1 : Gang :=
  { uid := 1, gid := 0, die := 0, cluster := 0, rank := 0, hh := 1, task := 1, ctx := 1, nblock := 1, prio := 0, posted := 0, dispatcher := false,
    spawned := none, failed := false, wdInterval := 1, wdCount := 0, phase := .running, hasAtt := false, wanted := false }
def hh1 : Household := { uid := 1, task := 1, rank := 0, ngang := 1, seq := none, modules := [0], att := [.unattached], copies := [] }
def task1 : Task :=
  { num := 1, ctx := 1, card := 0, die := 0, failed := false, complete := false, nhhLeft := 1, graph := none, started := 0 }

/-- One warp of one thread on core 0, in a gang of context 1, whose window 0 is hall die 0, with page 0 placed and translated, page 1
translated but not placed, and the line at 0x1000 held. -/
def world : State :=
  { State.reset with
    threads := [thr], warps := [Warp.fresh 0 0 0 1], blocks := [block1], gangs := [gang1], hhs := [hh1], tasks := [task1],
    cores := [{ Core.fresh 0 with icache := [⟨1, 0x1000, lineBytes, 0, 0⟩] }],
    issue := { Issue.idle with cur := ⟨0, 0, 0⟩, firstId := 1 },
    tabs := { State.reset.tabs with
      windows := [((1, 0), 2 ^ 63)], binds := [(1, BitVec.ofNat 64 (2 ^ 63 + 5 * 2 ^ 32))], frames := [((.hall 0 0, 0), 2 ^ 63)] },
    tx := { State.reset.tx with
      tcache := [⟨.hall 0 0, 1, 0, 0, ⟨true, true, true⟩⟩, ⟨.hall 0 0, 1, 1, 1, ⟨true, true, true⟩⟩,
        ⟨.hall 0 0, 1, privPage 0 0, 0, ⟨true, true, true⟩⟩] },
    boot := { State.reset.boot with stage := 5 } }
/-- The same with the thread changed. -/
def worldT (g : Thread → Thread) : State := { world with threads := [g thr] }
/-- The trap warp of core 0 in its place. -/
def trapWorld : State :=
  { world with threads := [thr, trapThr], warps := [Warp.fresh 0 0 0 1, Warp.fresh 0 64 0 0],
               issue := { Issue.idle with cur := ⟨0, 64, 0⟩, firstId := 1 } }

/-- The rows of a table issue: nothing keeps a word of that opcode, with these fields, from its own effect. -/
abbrev AllIssue (rows : List (Nat × Fields)) (s : State) (th : Thread) : Prop := ∀ x ∈ rows, Issues x.1 x.2 s th
/-- Class 0x0. -/
def integerRows : List (Nat × Fields) :=
  [(0x000, fieldsOf 0 0 0 0 255 32 16 8), (0x001, fieldsOf 0 0 0 0 255 32 16 8), (0x002, fieldsOf 0 0 0 0 4 32 16 8),
   (0x003, fieldsOf 0 0 0 0 4 32 16 8), (0x004, fieldsOf 0 0 0 0 255 32 16 8), (0x005, fieldsOf 0 0 0 0 255 32 16 8),
   (0x006, fieldsOf 0 0 0 0 48 32 16 8), (0x007, fieldsOf 0 0 0 2 48 32 16 8), (0x008, fieldsOf 0 0 0 0 255 255 16 8),
   (0x009, fieldsOf 0 0 0 0 255 255 16 8), (0x00A, fieldsOf 0 0 0 0 255 32 16 8), (0x00B, fieldsOf 0 0 0 0 255 32 16 8),
   (0x00C, fieldsOf 0 0 0 0 48 32 16 8), (0x00D, fieldsOf 0 0 0 3 255 32 16 8), (0x00E, fieldsOf 0 0 0 0 48 32 16 8),
   (0x00F, fieldsOf 0 0 0 0 255 32 16 1)]

/-- Class 0x1. -/
def logicRows : List (Nat × Fields) :=
  [(0x040, fieldsOf 0 0 0 0 255 32 16 8), (0x041, fieldsOf 0 0 0 0 255 32 16 8), (0x042, fieldsOf 0 0 0 0 255 32 16 8),
   (0x043, fieldsOf 0 0 0 0 255 32 16 8), (0x044, fieldsOf 0 0 0 0 255 255 16 8), (0x045, fieldsOf 0 0 0 0 255 32 16 8),
   (0x046, fieldsOf 0 0 0 0 255 32 16 8), (0x047, fieldsOf 0 0 0 0 255 32 16 8), (0x048, fieldsOf 0 0 0 0 255 32 16 8),
   (0x049, fieldsOf 0 0 0 0 48 32 16 8), (0x04A, fieldsOf 0 0 0 0 255 32 16 8), (0x04B, fieldsOf 0 0 0 0 48 32 16 8),
   (0x04C, fieldsOf 0 0 0 0 255 255 16 8), (0x04D, fieldsOf 0 0 0 0 255 255 16 8), (0x04E, fieldsOf 0 0 0 0 255 255 16 8),
   (0x04F, fieldsOf 0 0 0 0 48 32 16 8), (0x050, fieldsOf 0 0 0 0 48 32 16 8)]

/-- Class 0x2. -/
def moveRows : List (Nat × Fields) :=
  [(0x080, fieldsOf 0 0 0 0 255 255 16 8), (0x081, fieldsOf 0 0 0 0 255 255 255 8), (0x082, fieldsOf 0 0 0 0 4 32 16 8),
   (0x083, fieldsOf 0 0 0 0 255 255 0 8), (0x084, fieldsOf 0 0 0 0 4 3 2 1), (0x085, fieldsOf 0 0 0 0 255 255 255 8),
   (0x086, fieldsOf 0 0 0 0 255 32 16 255), (0x087, fieldsOf 0 0 0 0 255 255 16 8), (0x088, fieldsOf 0 0 0 0 255 255 16 8)]

/-- Class 0x3. -/
def floatRows : List (Nat × Fields) :=
  [(0x0C0, fieldsOf 0 0 8 8 255 32 16 8), (0x0C1, fieldsOf 0 0 8 8 255 32 16 8), (0x0C2, fieldsOf 0 0 8 8 255 32 16 8),
   (0x0C3, fieldsOf 0 0 8 8 48 32 16 8), (0x0C4, fieldsOf 0 0 8 8 255 32 16 8), (0x0C5, fieldsOf 0 0 8 8 255 32 16 8),
   (0x0C6, fieldsOf 0 0 8 8 0 32 16 1), (0x0C7, fieldsOf 0 0 8 8 255 255 16 8), (0x0C8, fieldsOf 0 0 8 8 255 32 16 1),
   (0x0C9, fieldsOf 0 0 10 8 48 32 16 8)]

/-- Class 0x4. -/
def specialRows : List (Nat × Fields) :=
  [(0x100, fieldsOf 0 0 8 8 255 255 16 8), (0x101, fieldsOf 0 0 8 8 255 255 16 8), (0x102, fieldsOf 0 0 8 8 255 255 16 8),
   (0x103, fieldsOf 0 0 8 8 255 255 16 8), (0x104, fieldsOf 0 0 8 8 255 255 16 8), (0x105, fieldsOf 0 0 8 8 255 255 16 8),
   (0x106, fieldsOf 0 0 8 8 255 255 16 8), (0x107, fieldsOf 0 0 8 8 255 32 16 8), (0x108, fieldsOf 0 0 8 8 255 255 16 8)]

/-- Class 0x5. -/
def convertRows : List (Nat × Fields) :=
  [(0x140, fieldsOf 0 0 0 0 0 255 16 8), (0x141, fieldsOf 0 0 8 0 0 255 16 8), (0x142, fieldsOf 0 0 0 8 0 255 16 8),
   (0x143, fieldsOf 0 0 8 10 0 32 16 8), (0x144, fieldsOf 0 0 10 8 0 255 16 8), (0x145, fieldsOf 0 0 8 14 0 32 16 8)]

/-- Class 0x6. -/
def controlRows : List (Nat × Fields) :=
  [(0x180, fieldsOf 0 0 0 0 255 255 255 255), (0x181, fieldsOf 0 0 0 0 255 255 16 255), (0x182, fieldsOf 0 0 0 0 255 255 255 255),
   (0x183, fieldsOf 0 0 0 0 255 255 16 255), (0x184, fieldsOf 0 0 0 0 255 255 255 255), (0x185, fieldsOf 0 0 0 0 255 255 255 255),
   (0x186, fieldsOf 0 0 0 0 255 255 255 255), (0x187, fieldsOf 0 0 0 0 255 255 255 255), (0x188, fieldsOf 0 0 0 0 255 255 16 255),
   (0x189, fieldsOf 0 0 0 0 255 255 255 255), (0x18A, fieldsOf 0 0 0 0 255 255 255 255), (0x18B, fieldsOf 0 0 0 0 255 255 16 255),
   (0x18C, fieldsOf 0 0 0 0 255 255 255 255), (0x18D, fieldsOf 0 0 0 0 255 255 255 255)]

/-- Class 0x7. -/
def groupRows : List (Nat × Fields) :=
  [(0x1C0, fieldsOf 0 0 0 0 255 32 16 8), (0x1C1, fieldsOf 0 0 0 0 255 255 2 1), (0x1C2, fieldsOf 0 0 0 0 255 255 16 8),
   (0x1C3, fieldsOf 0 0 0 0 255 255 16 8), (0x1C4, fieldsOf 0 0 0 0 255 255 255 1), (0x1C5, fieldsOf 0 0 0 0 255 255 255 255),
   (0x1C6, fieldsOf 0 0 0 0 255 255 255 255), (0x1C7, fieldsOf 0 0 0 0 255 255 255 255), (0x1C8, fieldsOf 0 0 0 0 255 255 255 255)]

/-- Class 0x8. -/
def memoryRows : List (Nat × Fields) :=
  [(0x200, fieldsOf 0 0 0 0 255 255 16 8), (0x201, fieldsOf 0 0 0 0 255 32 16 255), (0x202, fieldsOf 0 0 0 0 255 255 16 8),
   (0x203, fieldsOf 0 2 0 0 255 255 16 8), (0x204, fieldsOf 0 2 0 0 255 32 16 255), (0x205, fieldsOf 0 5 0 0 4 32 16 255),
   (0x206, fieldsOf 0 5 0 0 255 32 16 255), (0x207, fieldsOf 0 2 0 0 0 32 16 8), (0x208, fieldsOf 0 2 0 0 0 32 16 255),
   (0x209, fieldsOf 0 0 0 0 255 32 16 255), (0x20A, fieldsOf 0 0 0 0 255 32 16 255), (0x20B, fieldsOf 0 0 0 0 255 255 16 255)]

/-- Class 0x9. -/
def keyRows : List (Nat × Fields) :=
  [(0x240, fieldsOf 0 0 0 0 255 255 255 255), (0x241, fieldsOf 0 0 0 0 255 255 255 255), (0x242, fieldsOf 0 0 0 0 255 255 255 255),
   (0x243, fieldsOf 0 0 0 0 255 255 255 1), (0x244, fieldsOf 0 0 15 0 255 255 255 255), (0x245, fieldsOf 0 0 0 0 255 255 16 255),
   (0x246, fieldsOf 0 0 0 0 255 255 255 255), (0x247, fieldsOf 0 0 0 0 255 255 255 255)]

/-- Classes 0xA and 0xB. -/
def engineRows : List (Nat × Fields) :=
  [(0x280, fieldsOf 0 0 0 0 48 32 16 255), (0x281, fieldsOf 0 0 0 0 48 32 16 255), (0x282, fieldsOf 0 0 0 0 48 32 16 255),
   (0x283, fieldsOf 0 2 0 0 48 32 16 255), (0x284, fieldsOf 0 2 0 0 48 32 16 255), (0x285, fieldsOf 0 4 0 0 255 32 16 255),
   (0x286, fieldsOf 0 4 0 0 255 255 16 255), (0x287, fieldsOf 0 4 0 0 255 32 16 255), (0x288, fieldsOf 0 4 0 0 255 32 16 255),
   (0x289, fieldsOf 0x4000000 0 0 0 255 255 16 255), (0x2C0, fieldsOf 0 0 0 0 255 255 16 255), (0x2C1, fieldsOf 0 0 0 0 255 255 16 255),
   (0x2C2, fieldsOf 0 0 0 0 255 32 255 255)]

/-- Classes 0xC and 0xD. -/
def taskRows : List (Nat × Fields) :=
  [(0x300, fieldsOf 0 0 0 0 255 32 16 8), (0x301, fieldsOf 0 0 0 0 255 32 255 8), (0x302, fieldsOf 0 0 0 0 255 32 16 255),
   (0x303, fieldsOf 0 0 0 0 255 255 255 8), (0x304, fieldsOf 0 0 0 0 255 255 255 8), (0x305, fieldsOf 0 0 0 0 255 32 16 255),
   (0x306, fieldsOf 0 0 0 0 255 255 16 8), (0x307, fieldsOf 0 0 0 0 255 255 16 8), (0x340, fieldsOf 0 0 0 0 255 255 255 255),
   (0x341, fieldsOf 0 0 0 0 255 255 255 255), (0x342, fieldsOf 0 0 0 0 255 255 255 8)]

/-- Class 0xE. -/
def systemRows : List (Nat × Fields) :=
  [(0x380, fieldsOf 0 0 0 0 255 255 0 8), (0x381, fieldsOf 0 0 0 0 255 255 16 0), (0x382, fieldsOf 0 0 0 0 255 255 255 255),
   (0x383, fieldsOf 0 0 0 0 255 255 16 255), (0x384, fieldsOf 0 0 0 0 255 255 16 8), (0x385, fieldsOf 0 0 0 0 255 32 16 255),
   (0x386, fieldsOf 0 0 0 0 255 255 16 8), (0x387, fieldsOf 0 0 0 0 255 255 255 255), (0x388, fieldsOf 0 0 0 0 255 255 16 8)]

/-! ## Every word issues somewhere -/

theorem test_issue_integer : AllIssue integerRows world thr := by decide +kernel
theorem test_issue_logic : AllIssue logicRows world thr := by decide +kernel
theorem test_issue_move : AllIssue moveRows world thr := by decide +kernel
theorem test_issue_float : AllIssue floatRows world thr := by decide +kernel
theorem test_issue_special : AllIssue specialRows world thr := by decide +kernel
theorem test_issue_convert : AllIssue convertRows world thr := by decide +kernel
theorem test_issue_control : AllIssue controlRows world thr := by decide +kernel
theorem test_issue_group : AllIssue groupRows world thr := by decide +kernel
theorem test_issue_memory : AllIssue memoryRows world thr := by decide +kernel
theorem test_issue_key : AllIssue keyRows world thr := by decide +kernel
theorem test_issue_engine : AllIssue engineRows world thr := by decide +kernel
theorem test_issue_task : AllIssue taskRows world thr := by decide +kernel
theorem test_issue_system : AllIssue systemRows trapWorld trapThr := by decide +kernel
/-- The second forms of the opcodes that have several rows, and the forms of a second type. -/
theorem test_issue_variant : AllIssue
    [(0x083, fieldsOf 0 0 2 2 255 255 15 0), (0x083, fieldsOf 0 0 2 2 255 255 25 0), (0x140, fieldsOf 0 0 8 9 0 255 16 0),
     (0x207, fieldsOf 0 10 0 0 48 32 16 0), (0x20A, fieldsOf 0 8 0 0 255 255 255 255), (0x20A, fieldsOf 0 16 0 0 255 32 16 255),
     (0x20A, fieldsOf 0 24 0 0 255 32 16 255), (0x286, fieldsOf 0 12 0 0 255 32 16 255), (0x287, fieldsOf 0 12 0 0 255 32 16 255)]
    world thr := by decide +kernel

/-! ## The hypotheses of the statements about words -/

/-- A thread with values in registers. -/
def withRegs (l : List (Nat × Word)) (t : Thread) : Thread := { t with w := l.foldl (fun w x => w.set x.1 x.2) t.w }
/-- The operands of a word in a state whose one thread is `g thr`. -/
abbrev ctx (op : Nat) (f : Fields) (g : Thread → Thread) : Ctx := atIssue op f (worldT g) (g thr)

/-- FMUL of 2^127 by itself signals; it traps where its exceptions are enabled, and not where none is. -/
theorem witness_FloatWords :
    let f := fieldsOf 0 0 8 8 255 32 16 0
    let c := ctx 0x0C2 f (withRegs [(16, 0x7F000000), (32, 0x7F000000)])
    let e := excAll (c.sources2.map (fun x => sumRound (fmtOf 8) (modeOf f) (ftzOf f) (x.1.isNan || x.2.isNan) [x.1.mul x.2]))
    c.fpHit e = 0 ∧
      ({ c with s := c.s.modCore 0 (fun k => { k with fpen := 0x1F }) } : Ctx).fpHit e ≠ 0 := by decide +kernel

/-- Whether private space is reached, and where. -/
def privAt (c : Ctx) (p : DWord) (want : Rights) : Option Nat :=
  match privWay c.s c.th c.th.ref p want with | .ok _ loc _ => some loc | .stop _ => none
/-- A thread with w16 and w17 at the held line, and a call stack. -/
def calling (l : List DWord) (sp : DWord) (t : Thread) : Thread := { withRegs [(16, 0x1000)] t with calls := l, callsp := sp }

/-- A transfer to slot 0 of the held line; a call with three and with four entries; a return with two, with one, and with one and a
spilled pair; a REP before a NOP, and a repetition of that NOP. -/
theorem witness_TransferWords :
    let f := fieldsOf 0 0 0 0 255 255 255 255
    let fx := fieldsOf 0 0 0 0 255 255 16 255
    let c (l : List DWord) (sp : DWord) : Ctx := ctx 0x184 f (calling l sp)
    let r : Thread := { thr with pc := 0x1001, rep := some ⟨0x1000, 2, 0⟩ }
    Reachable (ctx 0x180 f id) (Forms.mlow f) (encodedTarget (ctx 0x180 f id)) ∧
    Reachable (ctx 0x181 fx (calling [] spillBase)) (pcSlot 0x1000) ((ctx 0x181 fx (calling [] spillBase)).pair 0 16) ∧
    spillBase ≠ spillLimit ∧ privAt (c [0x1000, 0x1000, 0x1000, 0x1000] spillBase) spillBase rightsW = some (hallBase 0 0) ∧
    Reachable (c [0x1000, 0x1000] spillBase) (pcSlot 0x1000) 0x1000 ∧
    spillBase + 16 ≠ spillBase ∧ privAt (c [0x1000] (spillBase + 16)) (spillBase + 16 - 16) rightsR = some (hallBase 0 0) ∧
    world.wordAt thr (nextPc thr.pc) = some 0x0007FFFFFFFB8186 ∧ followerFate (opcodeOfWord 0x0007FFFFFFFB8186) = none ∧
    badIncrement f (opcodeOfWord 0x0007FFFFFFFB8186) (fieldsOfWord 0x0007FFFFFFFB8186) = false ∧
    world.wordAt r r.pc = some 0x0007FFFFFFFB8186 ∧
    repetition f (fieldsOfWord 0x0007FFFFFFFB8186) 0 = some (fieldsOfWord 0x0007FFFFFFFB8186) ∧
    instrOf 0x186 (fieldsOfWord 0x0007FFFFFFFB8186) = some (.nop (fieldsOfWord 0x0007FFFFFFFB8186)) := by decide +kernel

/-- EXIT in a block and in the trap warp; SLEEP of no cycle and of one; a rejoin point set, and set again, at the last of 32 entries; RJWAIT
where its entry is met, and where another thread has still to come. -/
theorem witness_ControlWords :
    thr.ref.slot ≠ 64 ∧ Issues 0x185 (fieldsOf 0 0 0 0 255 255 255 255) trapWorld trapThr ∧ trapThr.ref.slot = 64 ∧
    (ctx 0x18B (fieldsOf 0 0 0 0 255 255 16 255) id).reg 0 16 = 0 ∧
    Issues 0x18B (fieldsOf 1 16 0 0 255 255 255 255) world thr ∧
    (let p := encodedTarget (ctx 0x188 (fieldsOf 0 0 0 0 255 255 16 255) id)
     let w (l : List RejoinEntry) : Warp := { Warp.fresh 0 0 0 1 with rejoin := l }
     (w [⟨p, 1, 0⟩]).rejoin.any (fun e => e.point == p) = true ∧
     (w (List.replicate 31 ⟨p + 1, 1, 0⟩)).rejoin.any (fun e => e.point == p) = false ∧ (List.replicate 31 p).length < 32) ∧
    (let e : RejoinEntry := ⟨0x1000, 1, 0⟩
     ([e].find? (fun e => e.point == thr.pc)) = some e ∧ rejoinMet (laneMask [thr]) { e with arrived := 1 } = true ∧
     ∃ t ∈ [thr, Thread.fresh ⟨0, 0, 1⟩ 1 1 64 0 0x1000 0], t.ref.lane ≠ thr.ref.lane ∧ t.status ≠ .rejoin) := by decide +kernel

/-- A full rejoin table; a waiter that the last live lane's arrival does not release and that no other lane can; an arrival that is released at
the end of its cycle, and one that is not. -/
theorem witness_ControlWords_release :
    (let p := encodedTarget (ctx 0x188 (fieldsOf 0 0 0 0 255 255 16 255) id)
     (List.replicate 32 (⟨p + 1, 1, 0⟩ : RejoinEntry)).any (fun e => e.point == p) = false ∧
     32 ≤ (List.replicate 32 (⟨p + 1, 1, 0⟩ : RejoinEntry)).length) ∧
    (let y : Thread := { Thread.fresh ⟨0, 0, 1⟩ 1 1 64 0 0x1000 0 with status := .rejoin }
     rejoinMet (laneMask [thr, y]) ⟨0x1000, 3, 1⟩ = false ∧ ∀ t ∈ [thr, y], t.ref.lane = thr.ref.lane ∨ t.status = .rejoin) ∧
    (let x : Thread := { thr with status := .rejoin }
     let s (m : Word) : State :=
       { worldT (fun _ => x) with warps := [{ Warp.fresh 0 0 0 1 with rejoin := [⟨0x1000, m, 1⟩] }],
                                  threads := [x, Thread.fresh ⟨0, 0, 1⟩ 1 1 64 0 0x1000 0] }
     (s 1).warp? 0 0 = some { Warp.fresh 0 0 0 1 with rejoin := [⟨0x1000, 1, 1⟩] } ∧ (s 1).thread? ⟨0, 0, 0⟩ = some x ∧
     rejoinMet (laneMask ((s 1).threadsOfWarp 0 0)) ⟨0x1000, 1, 1⟩ = true ∧
     rejoinMet (laneMask ((s 3).threadsOfWarp 0 0)) ⟨0x1000, 3, 1⟩ = false) := by decide +kernel

/-- A collective whose mask holds the lane, with no open instance, and with one that another lane opened. -/
theorem witness_CollectiveWords :
    (0xFFFFFFFF : Word).getLsbD thr.ref.lane = true ∧
    (Warp.fresh 0 0 0 1).colls.find? (fun k => k.pc == thr.pc && k.j == none) = none ∧
    (let k : Collective := ⟨thr.pc, none, 0xFFFFFFFF, 5, 0, 0, [⟨1, 255, 0, 0, false⟩]⟩
     [k].find? (fun k => k.pc == thr.pc && k.j == none) = some k ∧ k.mask = 0xFFFFFFFF) := by decide +kernel

/-- A full instance of one lane, whose thread is there; SHFL from a lane that is there, and from one that is not. -/
theorem witness_CollectiveWords_full :
    let p : Participant := ⟨0, 255, 3, 0, false⟩
    let k (n : Nat) : Collective := ⟨thr.pc, none, 1, 0, 0, 0, [{ p with n := n }]⟩
    ((k 0).arrived.map (fun q => q.lane)).Nodup ∧ p ∈ (k 0).arrived ∧ world.thread? ⟨0, 0, p.lane⟩ = some thr ∧
    ({ world with warps := [{ Warp.fresh 0 0 0 1 with colls := [k 0] }] } : State).warp 0 0 = { Warp.fresh 0 0 0 1 with colls := [k 0] } ∧
    (∃ q ∈ (k 0).arrived, (q.lane : Int) = (0 : Nat)) ∧ (∀ q ∈ (k 5).arrived, (q.lane : Int) ≠ (5 : Nat)) ∧
    collResult (k 0) p = ([(255, 3)], []) ∧ collResult { k 0 with instr := 5 } p = ([], []) := by decide +kernel

/-- A warp whose k1 has a producer that has not performed. -/
def busyWorld : State :=
  { world with warps := [{ Warp.fresh 0 0 0 1 with keys := (List.replicate 14 ⟨[], none, .none⟩).set 0 ⟨[7], none, .none⟩ }],
               ops := [⟨7, 0, 0, 1, 0, []⟩] }

/-- A barrier with and without `.rel`, its keys satisfied and not; a household that no gang has left; a released thread. -/
theorem witness_BarrierWords :
    let f := fieldsOf 0 0 0 0 255 255 255 255
    let fr := fieldsOf 0 1 0 0 255 255 255 255
    f.m.getLsbD 0 = false ∧ fr.m.getLsbD 0 = true ∧ AllIssue [(0x1C5, fr), (0x1C6, fr), (0x1C7, fr)] world thr ∧
    (world.warpOf thr).faultOf 15 = none ∧ world.keySatisfied (world.warpOf thr) 15 0 = true ∧
    AllIssue [(0x1C5, fr)] busyWorld thr ∧ (busyWorld.warpOf thr).faultOf 15 = none ∧ busyWorld.keySatisfied (busyWorld.warpOf thr) 15 4 = false ∧
    hhDeparted (ctx 0x1C7 f id) = false ∧
    (let t := { thr with status := .released }; ({ world with threads := [t] } : State).thread? thr.ref = some t ∧ t.status = .released) := by
  decide +kernel

/-- A block barrier at which every thread of the block waits, and one at which its thread does not; and the gang's. -/
theorem witness_BarrierWords_ready :
    let w (l n : Nat) : State := worldT (fun t => { t with status := .barrier l n })
    (∃ x ∈ (w 0 2).threads, (w 0 2).atLevel 0 1 x = true) ∧
    (∀ x ∈ (w 0 2).threads, (w 0 2).atLevel 0 1 x = true → x.status = .barrier 0 2) ∧ (w 0 2).undispatched 0 1 = false ∧
    (∀ x ∈ (w 1 2).threads, (w 1 2).atLevel 1 1 x = true → x.status = .barrier 1 2) ∧ (w 1 2).undispatched 1 1 = false ∧
    (∀ x ∈ (w 2 2).threads, (w 2 2).atLevel 2 1 x = true → x.status = .barrier 2 2) ∧ (w 2 2).undispatched 2 1 = false ∧
    hh1.att.any Attach.gone = false ∧ world.atLevel 0 1 thr = true ∧ thr.status ≠ .barrier 0 2 := by decide +kernel

/-- An access to global memory passes its checks, and one of the own scratchpad. -/
theorem witness_MemoryWords :
    let c (op m : Nat) : Ctx := ctx op (fieldsOf 0 m 0 0 0 32 16 0) (withRegs [(33, 0x80000000)])
    MayAccess (c 0x200 5) Spaces.all .read 32 32 anyPoint (.glob 0) ∧
    MayAccess (c 0x201 0) Spaces.all .write 1 1 anyPoint (.glob 0) ∧
    MayAccess (c 0x202 3) Spaces.mem .read 8 8 anyPoint (.glob 0) ∧
    MayAccess (c 0x203 2) Spaces.mem .read 4 4 anyPoint (.glob 0) ∧
    MayAccess (c 0x204 2) Spaces.mem .write 4 4 anyPoint (.glob 0) ∧
    MayAccess (c 0x205 5) Spaces.mem .read 64 64 anyPoint (.glob 0) ∧
    MayAccess (c 0x206 5) Spaces.mem .write 64 64 anyPoint (.glob 0) ∧
    (decodePtr ((c 0x205 5).pair 1 32) = some (.own 0) ∧ world.blockOf thr = some block1) ∧
    MayAccess (c 0x207 2) Spaces.all .atomic 4 4 (fun p => atomSupported p false 0 0) (.glob 0) ∧
    MayAccess (c 0x208 2) Spaces.all .atomic 4 4 (fun p => atomSupported p false 0 0) (.glob 0) ∧
    MayAccess (c 0x207 2) Spaces.all .atomic 4 4 anyPoint (.glob 0) ∧
    MayAccess (ctx 0x200 (fieldsOf 0 5 0 0 255 255 16 0) (withRegs [(17, 0x80000000), (16, 65504)])) Spaces.all .read 32 32 anyPoint
      (.scratch 0 (scratchBase 0 + 65504) false) := by decide +kernel

theorem witness_LineWords :
    let c (op m : Nat) : Ctx := ctx op (fieldsOf 0 m 0 0 255 32 16 255) (withRegs [(32, 128)])
    MayAccess (c 0x209 0) Spaces.mem .read 1 1 anyPoint (.glob 0) ∧ MayAccess (c 0x20A 0) Spaces.cctl .read 1 1 anyPoint (.glob 0) ∧
    (c 0x20A 8).warp.faultOf 0 = none ∧ keyFull (c 0x20A 8) = false ∧
    MayAccess (c 0x20B 0) Spaces.mem .read 1 1 anyPoint (.glob 0) := by decide +kernel

/-- The keys of a warp: free, waited for, faulted nowhere, answered and not answered in this issue; a KSEND to slot 1 of the own warp. -/
theorem witness_KeyWords :
    let f := fieldsOf 0 0 1 1 255 255 16 255
    let c := ctx 0x245 f (withRegs [(16, 1)])
    let b : Ctx := atIssue 0x242 f busyWorld thr
    c.keyAnswer = none ∧ c.warp.faultOf 1 = none ∧ c.warp.faultOf 15 = none ∧
    c.s.allPerformed (c.warp.waitsOf 1) 0 = true ∧ b.warp.faultOf 1 = none ∧ b.s.allPerformed (b.warp.waitsOf 1) 0 = false ∧
    ({ c with s := { c.s with issue := { c.s.issue with keyDone := [(0, 1)] } } } : Ctx).keyAnswer = some 1 ∧
    (world.gangOf thr = some gang1 ∧ world.hhOf thr = some hh1 ∧ world.blockOf thr = some block1) ∧
    (c.warp.key 1).producers = [] ∧ (c.warp.key 1).fault = none ∧ (c.warp.key 1).arrival = .none ∧
    (c.s.blockOf thr).map (·.gang) = some 1 := by decide +kernel

/-- A record that begins at offset 0 of the own scratchpad, and the machine with it. -/
def recWorld (r n : Nat) : State := world.writeBytes (scratchBase 0) (bytesOf n r)
/-- A pointer to the own scratchpad in w16:17. -/
def ownThr (off : Nat) : Thread := withRegs [(16, BitVec.ofNat 32 off), (17, 0x80000000)] thr
def recCtx (op : Nat) (f : Fields) (r n : Nat) : Ctx := atIssue op f { recWorld r n with threads := [ownThr 0] } (ownThr 0)
/-- The record at w16:17 is read from the own scratchpad, and has this value. -/
abbrev RecordRead (c : Ctx) (n r : Nat) : Prop :=
  c.s.checkAccess c.th Spaces.recordSet .read c.addr n n = (Except.ok (.scratch 0 (scratchBase 0) false) : Except Cause Target) ∧
  c.s.badScratch 0 (scratchBase 0) n = false ∧ leValue (c.s.readBytes (scratchBase 0) n) = r
/-- A plan is accepted, and there is room for it. -/
def accepts (c : Ctx) (plan : Except Cause EngPlan) : Bool :=
  match plan with | .ok p => !(keyFull c) && c.s.engRoom p | .error _ => false

/-- Sixteen bytes of a row of sixteen at global address 0 (R229). -/
def layout1 : Nat := 1 * 2 ^ 435 + 15 * 2 ^ 368 + 16 * 2 ^ 224
/-- BF16 operands of one row of 24 elements each, in the own scratchpad (R240). -/
def mma1 : Nat := 2 * 2 ^ 336 + 2 * 2 ^ 344 + 24 * 2 ^ 288 + 2 ^ 272 + 2 ^ 256 + 48 * 2 ^ 192 + 48 * 2 ^ 224 +
  0x8000000000000100 + 0x8000000000000200 * 2 ^ 64 + 0x8000000000000000 * 2 ^ 128
/-- One row of sixteen FP32 words to the own scratchpad, and no transposed copy (R248). -/
def mdrn1 : Nat := 0xFF * 2 ^ 248 + 16 * 2 ^ 208 + 2 ^ 192 + 64 * 2 ^ 128 + 0x8000000000000400
/-- The reduction of four FP32 words of gang 0 alone (R280). -/
def coll1 : Nat := 2 ^ 336 + 8 * 2 ^ 324 + 4 * 2 ^ 352

theorem witness_EngineWords :
    let sp := 0x8000000000001000
    let cp := recCtx 0x280 (fieldsOf 0 0 0 0 48 32 16 255) layout1 64
    let cf := recCtx 0x282 (fieldsOf 0 0 0 0 48 32 16 255) (layout1 + 2 ^ 458 + 2 ^ 442) 64
    let mm := recCtx 0x2C0 (fieldsOf 0 0 0 0 255 255 16 255) mma1 64
    let md := recCtx 0x2C1 (fieldsOf 0 0 0 0 255 255 16 255) mdrn1 64
    let cl := recCtx 0x289 (fieldsOf 0x4000000 0 0 0 255 255 16 255) coll1 64
    let mv := recCtx 0x284 (fieldsOf 0 2 0 0 48 32 16 255) 0 0
    cp.warp.faultOf 0 = none ∧ RecordRead cp 64 layout1 ∧ RecordRead cf 64 (layout1 + 2 ^ 458 + 2 ^ 442) ∧ RecordRead mm 64 mma1 ∧
    RecordRead md 64 mdrn1 ∧ RecordRead cl 64 coll1 ∧
    accepts cp (planCopy cp.s cp.th (engOf cp (.cpy false) layout1 cp.addr) sp [0, 0, 0, 0, 0, 0] none) = true ∧
    accepts cf (planCopy cf.s cf.th (engOf cf .cpyf (layout1 + 2 ^ 458 + 2 ^ 442) cf.addr) sp [0, 0, 0, 0, 0, 0] none) = true ∧
    accepts mm (planMma mm.s mm.th (engOf mm .mma mma1 mm.addr)) = true ∧
    accepts md (planMdrn md.s md.th (engOf md .mdrn mdrn1 md.addr)) = true ∧
    accepts cl (planColl cl.s cl.th (engOf cl .coll coll1 cl.addr)) = true ∧ cl.s.gangOf cl.th = some gang1 ∧
    accepts cp (planBytes cp.s cp.th (engOf cp (.cpyb false) 0 0) 0 sp 16 none) = true ∧
    ((mv.reg 2 48).toNat % 4 = 0 ∧ regionCheck mv.s mv.th.block (controlRegion 0) false = none ∧
      checkPtr mv.s mv.th Spaces.ownOnly .write mv.addr 4 4 = none ∧ checkPtr mv.s mv.th Spaces.ownOnly .read mv.addr 4 4 = none) := by
  decide +kernel

/-- An object at offset 16, in the counts that its updates need; the waiting parity, and the other. -/
theorem witness_ObjectWords :
    let c (op m : Nat) (n : Word) : Ctx :=
      let th := withRegs [(32, n)] (ownThr 16)
      atIssue op (fieldsOf 0 m 0 0 255 32 16 255) { world with threads := [th] } th
    let s := (world.writeBytes (scratchBase 0 + 16) (bytesOf 16 (2 * 2 ^ 112)))
    (c 0x285 4 1).reg 1 32 = 1 ∧ (c 0x285 4 65535).reg 1 32 = 65535 ∧
    checkPtr (c 0x285 4 1).s (c 0x285 4 1).th Spaces.object .write (c 0x285 4 1).addr 16 16 = none ∧
    checkPtr (c 0x288 4 1).s (c 0x288 4 1).th Spaces.object .read (c 0x288 4 1).addr 16 16 = none ∧
    scratchLoc (c 0x285 4 1).s (c 0x285 4 1).th (c 0x285 4 1).addr 16 = some (0, scratchBase 0 + 16) ∧
    ReachesObject (c 0x285 4 1) .write 0 0 (scratchBase 0 + 16) ∧ ReachesObject (c 0x288 4 1) .read 0 0 (scratchBase 0 + 16) ∧
    (objectUpdate (scratchBase 0 + 16) (.init 65535) s).isSome ∧ (objectUpdate (scratchBase 0 + 16) .arrive s).isSome ∧
    (objectUpdate (scratchBase 0 + 16) (.holdArrive 5) s).isSome ∧ (objectUpdate (scratchBase 0 + 16) (.charge 5) s).isSome ∧
    (objectUpdate (scratchBase 0 + 16) (.release 0) s).isSome ∧
    obPhase (s.readLe (scratchBase 0 + 16) 16) = false ∧ keyFull (c 0x288 4 0) = false := by decide +kernel

/-- A dispatcher's gang: a spawn that fits, one that is illegal, and one for which a cluster has no room; messages; the Porch empty and not. -/
def dispWorld : State := { world with gangs := [{ gang1 with dispatcher := true }] }

theorem witness_QueueWords :
    let c (op : Nat) : Ctx := atIssue op (fieldsOf 0 0 0 0 255 32 16 0) { dispWorld with threads := [withRegs [(32, 15 + 63 * 1024)] thr] }
      (withRegs [(32, 15 + 63 * 1024)] thr)
    let small : Nat := 31 * 2 ^ 53 + 2 ^ 42 + 2 ^ 13 + 0x1000 * 2 ^ 192
    KeyReady (c 0x300) 0 ∧ destOf (c 0x300).s 0 ((c 0x300).reg 1 32) = (Except.ok (0, 0) : Except Cause (Nat × Nat)) ∧
    (c 0x300).s.checkAccess (c 0x300).th Spaces.globOnly .read (c 0x300).addr 64 64 = (Except.ok (.glob 0) : Except Cause Target) ∧
    keyFull (c 0x300) = false ∧ (c 0x301).s.gangOf (c 0x301).th = some { gang1 with dispatcher := true } ∧
    spawnBad small = false ∧ (spawnCores dispWorld 0 small).isSome = true ∧ spawnBad (small + 1) = true ∧
    spawnCores { dispWorld with cores := (List.range 64).map (fun i => { Core.fresh i with inService := false }) } 0
      (small - 2 ^ 13) = none ∧
    (c 0x303).dispatches = true ∧ (dispWorld.porch 0).porch = [] ∧
    ((dispWorld.setPorch ⟨0, [5], [], 7⟩).porch 0).porch = 5 :: [] := by decide +kernel

/-- A chain header of log 1 with its completion word and ring in the own scratchpad; graphs: a legal record, a reserved bit, and a walker
that is full. -/
theorem witness_ChainAndGraphWords :
    let hdr : Nat := 2 ^ 192 + 0x8000000000000100 * 2 ^ 64 + 0x8000000000000200
    let ca := recCtx 0x305 (fieldsOf 0 0 0 0 255 32 16 255) hdr 64
    let cs := recCtx 0x306 (fieldsOf 0 0 0 0 255 255 16 0) hdr 64
    let gl : Nat := 2 ^ 48
    let g0 : Graph := ⟨1, 0, 1, 0, 0, 0, 0, 1, [0], [], [], [], [], false⟩
    (ca.s.ownBefore ca.th.ref ca.addr (scratchBase 0) 64 true = false ∧
      ca.s.ownBefore ca.th.ref (chnSlot hdr 0) (scratchBase 0 + 512) 64 true = false ∧
      cs.s.ownBefore cs.th.ref cs.addr (scratchBase 0) 64 false = false) ∧
    (ca.s.checkAccess ca.th Spaces.ownOnly .write ca.addr 64 64 = (Except.ok (.scratch 0 (scratchBase 0) false) : Except Cause Target) ∧
      KeyReady ca 0 ∧ ca.s.badScratch 0 (scratchBase 0) 64 = false ∧ cs.s.badScratch 0 (scratchBase 0) 64 = false) ∧
    chnLog (ca.s.readLe (scratchBase 0) 64) = 1 ∧ chnTail (ca.s.readLe (scratchBase 0) 64) = 0 ∧
    ca.s.checkAccess ca.th Spaces.recordSet .write (chnSlot hdr 0) 64 64 =
      (Except.ok (.scratch 0 (scratchBase 0 + 512) false) : Except Cause Target) ∧
    chnDone (cs.s.readLe (scratchBase 0) 64) = 0x8000000000000100 ∧
    cs.s.checkAccess cs.th Spaces.engine .read 0x8000000000000100 8 8 =
      (Except.ok (.scratch 0 (scratchBase 0 + 256) false) : Except Cause Target) ∧
    (recBits gl 47 44 < 12 ∧ recBits gl 43 0 = 0 ∧ recBits gl 63 48 ≠ 0 ∧ globalAt (recPtr gl 192) 32 = true ∧ recPtr gl 128 = 0) ∧
    recBits (gl + 1) 43 0 ≠ 0 ∧ ((List.replicate 16 g0).filter (fun g => g.die == 0)).length = 16 ∧
    ((List.replicate 15 g0).filter (fun g => g.die == 0)).length < 16 := by decide +kernel

/-- A global record at a page that is placed, and a global ring slot. -/
theorem witness_GlobalRecords :
    (match grasp world 0 ⟨0, 0, 1⟩ 0 32 false with | .ok _ loc m => loc == hallBase 0 0 && m == .direct | _ => false) = true ∧
    (match grasp world 0 ⟨0, 0, 1⟩ 0 64 true with | .ok t _ _ => !(t.queuedAt 0 (hallBase 0 0) 64) && !(t.ownBefore thr.ref 0 (hallBase 0 0) 64 true) | _ => false) = true := by decide +kernel

theorem witness_HouseholdWords :
    world.gangOf thr = some gang1 ∧ world.hhOf thr = some hh1 ∧ (hh1.copyOf 0 0).gone = false ∧ hh1.copyOf 0 0 = .unattached ∧
    (({ hh1 with att := [.attached], copies := [(0, [.attached])] } : Household).copyOf 0 0 = .attached) ∧
    (({ hh1 with copies := [(0, [.attached])] } : Household).allAttached 0 = true) ∧
    (({ hh1 with ngang := 2, copies := [(0, [.attached, .unattached])] } : Household).allAttached 0 = false) ∧
    (({ hh1 with copies := [(0, [.detaching])] } : Household).copyOf 0 0 = .detaching) ∧
    (({ hh1 with copies := [(0, [.detached])] } : Household).copyOf 0 0 = .detached) := by decide +kernel

/-- In the trap warp: a register written; one thread and a warp killed; an item read and written; a handler, and none. -/
theorem witness_SystemWords :
    let c (op imm : Nat) (x : Word) : Ctx :=
      let th := withRegs [(16, x)] trapThr
      atIssue op (fieldsOf imm 0 0 0 255 255 16 0) { trapWorld with threads := [thr, th] } th
    (ctlWrite 0 0 255 trapWorld).isSome = true ∧ (ctlWrite 0 4 1 trapWorld).isSome = true ∧
    ((c 0x383 0 2048).reg 0 16).toNat < 2 ^ 12 ∧ ((c 0x383 0 2048).reg 0 16).toNat / 2 ^ 11 % 2 = 1 ∧
    trapWorld.threadsOfWarp 0 0 = [thr] ∧ (trapWorld.threadsOfWarp 0 0).find? (fun t => t.ref.lane == 0) = some thr ∧
    (c 0x384 0x101 0).selected = some thr ∧ (c 0x384 63 0).s.readItem thr 63 false = some 0 ∧ thr.itemPending 63 false = false ∧
    ((c 0x385 0 0).s.writeItem thr 0 false 5).isSome = true ∧
    (match (c 0x386 0 0).s.taskOf thr with | some t => jcTrap t.card | none => 0) = 0 ∧
    jcTrap (BitVec.ofNat 512 (0x1000 * 2 ^ 448)) ≠ 0 ∧ thr.calls.length ≠ 4 ∧
    (let x := calling [0x1000, 0x1000, 0x1000, 0x1000] spillBase thr
     privAt { c 0x386 0 0 with th := x } x.callsp rightsW = some (hallBase 0 0)) := by decide +kernel

/-! ## The hypotheses of the statements about events -/

/-- A picker with a ready thread; a tracked result that is due; a thread that fetches the line at 0, which lies at its place; a sleep that
is over. -/
theorem witness_IssueEvents :
    let s : State := { world with issue := Issue.idle }
    let tr : Tracked := ⟨5, 0, true, true, [(3, 7)], []⟩
    let m := world.writeBytes (hallBase 0 0) lineBytes
    s.issue.todo = [] ∧ (s.core 0).issues s.clock 0 = true ∧
    (State.formGroup 0 0 ((s.candidates 0 0).length + 1) (s.candidates 0 0) s).2.isSome = true ∧
    [tr].find? (fun x => x.id == 5) = some tr ∧ tr.known = true ∧ tr.due ≤ s.clock ∧
    m.invalidating 1 (globPage 0) = false ∧ (match m.lineAt 1 0 with | .ok p => p.base == hallBase 0 0 | _ => false) = true ∧
    m.poisonOf (hallBase 0 0) 64 = none ∧ (lineOf (m.readBytes (hallBase 0 0) 64)).parityOk = true := by decide +kernel

def accOf (op : AccOp) (phase : AccPhase) (mode : AccMode) (loc n : Nat) : Access :=
  { id := 9, t := ⟨0, 0, 0⟩, pc := 0x1000, op := op, ctx := 1, ptr := 0, gaddr := 0, loc := loc, priv := 0, pages := [(0, hallBase 0 0)],
    channel := none, mode := mode, n := n, grp := 9, tries := 0, begun := false, ver := 0, len := 0, units := [], data := List.replicate n 7, data2 := [], scope := 0, pk := 0, waits := [], policy := 0, rz := false, d := 3, pd := 7,
    phase := phase, held := false }
/-- The access in flight, its thread awaiting it, with its host line held by the bridge. -/
def accWorld (a : Access) : State :=
  { world with accs := [a], threads := [{ thr with status := .accept 9 }],
               ext := { world.ext with hostCache := [⟨hostBase / 64, true, false, 1⟩] } }

theorem witness_AccessEvents :
    let g := hallBase 0 0
    let ld := AccOp.ld false
    let a1 := accOf ld .sent .direct g 4
    let a2 := accOf .st (.resolved .ok) .direct g 4
    let a3 := accOf ld .accepted .scratch (scratchBase 0) 4
    let a4 := accOf ld .accepted .direct g 4
    let a5 := accOf (.atom true false 0 0) .accepted .direct g 4
    let a6 := accOf .st .accepted .direct g 4
    let a7 := accOf .st .coreDone .direct g 4
    let s (a : Access) : State := accWorld a
    ((s a1).acc? 9 = some a1 ∧ (s a1).invalidating 1 a1.page = false ∧
      (match (s a1).resolveAcc a1 with | .ok p => p.base == g | _ => false) = true) ∧
    ((s a2).noOneAwaits a2 = false ∧ (s a2).heldByMove g = false) ∧
    ((s a3).accDue a3 = true ∧ (s a3).lossOf a3 = none ∧ (s a3).poisonOf a3.loc 4 = none ∧
      (s a3).badScratch (a3.loc / 2 ^ 64 / 8) a3.loc 4 = false) ∧
    ((s a4).accDue a4 = true ∧ (s a4).lossOf a4 = none ∧ (s a4).poisonOf g 4 = none ∧ (fromL1 a4 (s a4).free { s a4 with free := 1 }).isNone = true ∧
      a4.mode ≠ .scratch ∧ a4.placed = true ∧
      (lineReady a4 false { s a4 with free := 1 }).2 = true) ∧
    ((s a5).atomsDue a5 = true ∧ (lineReady a5 true (s a5)).2 = true) ∧
    ((s a6).groupOpen a6 = false ∧ ((s a6).groupSet a6).all (fun b => b.phase == .accepted && (s a6).accDue b) = true) ∧
    ((s a7).drainDue a7 = true ∧ (lineReady a7 true (s a7)).2 = true) := by decide +kernel

/-- The way to its home is free; an access that is no tile's; and an access that has failed on its way. -/
theorem witness_AccessEvents_way :
    let a := accOf (.ld false) .sent .direct (hallBase 0 0) 4
    ((accWorld a).pageHome a.ctx a.page).bind (fun h => wayHeld a.die h 9 (accWorld a)) = none ∧
    a.op ≠ .pgreq ∧ (∀ sp lim, a.op ≠ .ldt sp lim) ∧ (∀ aon sp lim, a.op ≠ .stt aon sp lim) ∧ (∀ d, a.mode ≠ .remote d) ∧
    ({ a with phase := .accepted } : Access).phase = .accepted ∨ ({ a with phase := .coreDone } : Access).phase = .coreDone := by
  refine Or.inl ⟨by decide +kernel, by decide, nofun, nofun, nofun, rfl⟩

theorem witness_HomeAndBridgeEvents :
    let g := hallBase 0 0
    let a1 := accOf .st .coreDone .cached g 4
    let a2 := accOf (.atom true false 0 0) .accepted .cached g 4
    let a3 := accOf (.ld false) .accepted .host hostBase 4
    let a4 := accOf (.atom true false 0 0) .accepted .host hostBase 4
    let s (a : Access) : State := accWorld a
    (s a1).drainDue a1 = true ∧ ((s a2).atomsDue a2 = true ∧ (recallLine (lineNum g) 9 (s a2)).2 = true ∧ (snoopWrites a4 (s a4)).2 = true) ∧
    homeHeld a1.die a1.loc 9 (s a1) = none ∧ (snoopWrites a1 (s a1)).2 = true ∧
    (a3.op.cls = .load ∧ (s a3).accDue a3 = true ∧ (snoopData (lineNum a3.loc) (s a3)).2 = true ∧
      (snoopData (lineNum a3.loc) (s a3)).1.poisonOf a3.loc 4 = none) ∧
    ((s a4).atomsDue a4 = true ∧ a4.mode ≠ .cached ∧ (lineReady a4 true (s a4)).2 = true) ∧
    (a2.mode = .cached ∧ (snoopWrites a2 (s a2)).2 = true) := by decide +kernel

theorem witness_ArrivalEvents :
    let x : Send := ⟨9, 0, 1, 1, 0, 0, 1, 0, [], [], false, 0⟩
    let s : State := { world with sends := [x] }
    s.send? 9 = some x ∧
    (assoc 0 x.points).getD 0 ≤ s.appliedAt x.core 0 ∧
    (s.ops.filter (fun o => x.ops.contains o.id && o.points.contains 0)).all (fun o => s.performed o.id x.scope) = true ∧
    s.warpNamed 1 0 0 = some (Warp.fresh 0 0 0 1) ∧
    s.sends.any (fun y => y.grp == x.grp && decide (y.id < 9) && !y.delivered && y.gang == x.gang && y.block == x.block &&
      y.warp == x.warp && y.slot == x.slot) = false ∧ s.gangAway x = false ∧ s.undelivered x = false ∧
    linkHeld 0 (s.dieOfSend 9) 9 s = none ∧ linkHeld (dieOfPoint 0) (s.dieOfSend 9) 9 s = none ∧
    ({ s with gangs := [{ gang1 with phase := .saved }] } : State).gangAway x = true := by decide +kernel

/-- An arrival behind those that fill its die's queue, and one that is in the queue while its slot holds none. -/
theorem witness_ArrivalEvents_room :
    let x (id : Nat) : Send := ⟨id, 0, 1, 1, 0, 0, 1, 0, [], [], true, 0⟩
    let s (l : List Nat) : State := { world with sends := [x 8, x 9], arrivals := l }
    let full := List.replicate (Config.arrivalQueue 0 + 1) 8 ++ [9]
    ((s full).send? 9 = some (x 9) ∧ (s full).arrivals.contains 9 = true ∧ (s full).hasRoomFor 9 = false) ∧
    ((s [9]).hasRoomFor 9 = true ∧ (s [9]).slotFree (x 9) = true) := by
  refine ⟨⟨rfl, by simp, ?_⟩, by decide +kernel⟩
  have h : ∀ l : List Nat, (∀ i ∈ l, i = 8 ∨ i = 9) → l.filter (fun id => State.dieOfSend
      { world with sends := [⟨8, 0, 1, 1, 0, 0, 1, 0, [], [], true, 0⟩, ⟨9, 0, 1, 1, 0, 0, 1, 0, [], [], true, 0⟩],
                   arrivals := List.replicate (Config.arrivalQueue 0 + 1) 8 ++ [9] } id == 0) = l := by
    intro l hl
    refine List.filter_eq_self.2 (fun i hi => ?_)
    rcases hl i hi with rfl | rfl <;> rfl
  have e : State.dieOfSend
      { world with sends := [⟨8, 0, 1, 1, 0, 0, 1, 0, [], [], true, 0⟩, ⟨9, 0, 1, 1, 0, 0, 1, 0, [], [], true, 0⟩],
                   arrivals := List.replicate (Config.arrivalQueue 0 + 1) 8 ++ [9] } 9 = 0 := rfl
  simp only [State.hasRoomFor, State.arrivalQueue, e]
  rw [h _ (by simp)]
  simp

theorem witness_PageFaultEvents :
    let r : Ask := ⟨⟨true, false, false⟩, false⟩
    let w : Ask := ⟨⟨true, true, false⟩, false⟩
    let e : FaultEntry := ⟨0, 1, 2, w, 1⟩
    let x : FaultEntry := ⟨stageOf 0, 1, 2, r, 1⟩
    let g : Group := ⟨5, 1, 2, r, .none, 1, 0, none⟩
    let s (fs ss : List FaultEntry) (gs : List Group) : State :=
      { world with tx := { world.tx with filters := fs, stages := ss, groups := gs } }
    ((s [e] [] []).tx.filters.find? (fun e => e.unit == 0 && e.on 1 2) = some e ∧
      (s [e] [] []).tx.stages.find? (fun x => x.unit == stageOf 0 && x.on 1 2) = none ∧
      ([] : List FaultEntry).length < 512 ∧ (s [e] [x] []).tx.stages.find? (fun x => x.unit == stageOf 0 && x.on 1 2) = some x ∧
      e.ask.within x.ask = false) ∧
    ((s [] [x] []).pasidOf 1 = some 5 ∧ (s [] [x] []).tx.groups.find? (sameGroup 5 2) = none ∧ (s [] [x] []).tx.priOn = true ∧
      (s [] [x] [g]).tx.groups.find? (sameGroup 5 2) = some g ∧ g.sent = false ∧ g.count = 0) ∧
    ((s [] [] [g]).tx.groups.filter (fun g => g.sent)).length < (s [] [] [g]).groupLimit ∧
    (let g' := { g with index := some 511, count := 1 }
     (s [] [] [g']).tx.groups.find? (fun g => sameGroup 5 2 g && g.sent) = some g' ∧ g'.sent = true ∧ (s [] [] [g']).ctxOfPasid 5 = some 1) := by
  decide +kernel

/-- A completion that is awaited, one that another request for the page makes stale, one for a context that is not bound and one in an
invalidation of its page; an invalidation to take, and one that completes; a context to bind, to unbind and to sweep. -/
theorem witness_TranslationEvents :
    let h : Home := .hall 0 0
    let s (l : List (Home × Nat × Nat)) (invs : List (Nat × Nat × Nat)) : State := { world with tx := { world.tx with atsOut := l, invs := invs } }
    let free : State := { world with gangs := [], threads := [], warps := [], blocks := [] }
    let unbound : State := { s [(h, 1, 2)] [] with tabs := { world.tabs with binds := [] } }
    let retiring : State := { free with tabs := { world.tabs with binds := [(1, BitVec.ofNat 64 (2 ^ 63 + 2 ^ 62 + 5 * 2 ^ 32))] } }
    ((s [(h, 1, 2)] []).tx.atsOut.find? (fun o => o.2.1 == 1 && o.2.2 == 2) = some (h, 1, 2) ∧ ((s [(h, 1, 2)] []).pasidOf 1).isNone = false ∧
      ((s [(h, 1, 2)] []).tx.atsOut.erase (h, 1, 2)).any (fun o => o.2.1 == 1 && o.2.2 == 2) = false ∧
      ((s [(h, 1, 2), (h, 1, 2)] []).tx.atsOut.erase (h, 1, 2)).any (fun o => o.2.1 == 1 && o.2.2 == 2) = true ∧
      (unbound.pasidOf 1).isNone = true ∧ (s [] []).invalidating 1 2 = false ∧ (s [(h, 1, 2)] [(5, 2, 2)]).invalidating 1 2 = true) ∧
    (List.replicate 31 (5, 0, 0)).length < 32 ∧
    ((5, 0, 0) ∈ (s [] [(5, 0, 0)]).tx.invs ∧ (s [] [(5, 0, 0)]).ctxOfPasid 5 = some 1 ∧ (s [] [(5, 0, 0)]).accIn 1 0 0 = false ∧
      (s [] [(5, 0, 0)]).fab.moves.any (fun m => m.ctx == 1 && inRange 0 0 m.page && m.phase != .request) = false ∧
      (dropPages 1 (inRange 0 0) (s [] [(5, 0, 0)])).2 = true) ∧
    (world.boot.stage = 5 ∧ world.ctxOfPasid (2 ^ 20 - 1) = none ∧ assoc 4095 world.tabs.binds = none) ∧
    (free.pasidOf 1 = some 5 ∧ free.gangs.any (fun g => g.ctx == 1) = false ∧ free.tx.groups.any (fun g => g.pasid == 5) = false ∧
      free.tx.invs.any (fun i => i.1 == 5) = false) ∧
    (((assoc 1 retiring.tabs.binds).getD 0).getLsbD 62 = true ∧
      (dropPages 1 (fun _ => true) (dropBridge 1 retiring)).2 = true) := by
  decide +kernel

theorem witness_TableEvents :
    bufLegal 0 = true ∧ 2 ^ 20 - 1 < 2 ^ 20 ∧ world.handleInFlight 1 (2 ^ 20 - 1) = false ∧ 1023 < 1024 ∧ 5 < 6 := by decide +kernel

theorem witness_HouseholdEvents :
    let h : Household := { hh1 with att := [.detaching], copies := [(0, [.detaching])] }
    let s : State := { world with hhs := [h] }
    s.gang? 1 = some gang1 ∧ s.hh? 1 = some h ∧ h.stateOf 0 = .detaching ∧ s.detachDue gang1 = true := by decide +kernel

theorem witness_TrapAndErrorEvents :
    let s (k : Core → Core) : State := { world with cores := [k (Core.fresh 0)], clock := 1 }
    let st := s (fun k => { k with stopped := some 0 })
    let g : Gang := { gang1 with wdCount := 65536 }
    let w : State := { world with gangs := [g] }
    ((st.core 0).stopped = some 0 ∧ (st.core 0).halted = false ∧ (st.core 0).mcheck = false ∧ st.warp? 0 64 = none ∧ 0 < st.clock ∧
      st.thread? ⟨0, 64, 0⟩ = none) ∧
    (w.gang? 1 = some g ∧ w.watchdogThread 1 = some thr ∧ g.wdInterval ≠ 0 ∧ g.wdInterval * 65536 ≤ g.wdCount ∧ g.phase = .running ∧
      (w.coresOfGang 1).any (fun c => (w.core c).stopped.isSome) = false) ∧
    (let m : State := { s (fun k => { k with mcheck := true }) with blocks := [] }; (m.core 0).mcheck = true ∧ m.coreBlocks 0 = []) ∧
    ((s (fun k => { k with halted := true })).core 0).halted = true ∧ (63 : Nat) < 64 ∧ (trapWorld.thread? ⟨0, 64, 0⟩).isSome = true := by
  decide +kernel

/-- An engine operation of block 1, between two places of the own scratchpad. -/
def engOp (kind : EngKind) (record : Nat) : EngOp :=
  { id := 9, kind := kind, t := ⟨0, 0, 0⟩, core := 0, block := 1, gang := 1, ctx := 1, mate := none, record := BitVec.ofNat 512 record,
    recPtr := 0, src := 0x8000000000000000, dst := 0x8000000000001000, orig := [0, 0], len := 16, obj := none, scope := 0, pk := 0,
    waits := [], policy := 0, progress := 0, lines := [], channel := none, consumed := false, changed := [], cover := [], got := [], put := [],
    chain := none, phase := .accepted }
/-- Both engines' test machine: the bytes of a block of 16 raw bytes lie at the source (R236). -/
def engWorld (e : EngOp) : State := { world.writeBytes (scratchBase 0) (bytesOf 4 16 ++ List.replicate 16 9) with engs := [e] }

/-- A copy with 16 bytes to write, run to its end and held after one unit; a block to decode; a line that its home holds; a copy that has
written; and a hop from rank 0 to rank 1. -/
theorem witness_CopyEvents :
    let e := engOp (.cpyb false) 0
    let d := engOp (.cpyb true) 0
    let s := engWorld e
    let h : EngOp := { engOp .cpyf (layout1 + 2 ^ 458 + 2 ^ 452 + 2 ^ 442) with phase := .hopping 1 }
    let two : State := { engWorld h with
      gangs := [{ gang1 with nblock := 2 }], blocks := [block1, { block1 with uid := 2, rank := 1, core := 1 }] }
    (s.engAct? 9 = some e ∧ e.phase = .accepted ∧ s.allPerformed e.waits e.scope = true) ∧
    (copyRun 2 (s, e)).2 = .done ∧ (copyRun 1 (s, e)).2 = .again ∧ e.progress < e.len ∧
    (s.engReach e e.src 16 false = .ok (scratchBase 0) .scratch ∧ s.engReach e e.dst 16 true = .ok (scratchBase 0 + 0x1000) .scratch ∧
      s.engQueued e e.dst 16 = false) ∧
    ((engWorld d).engReach d d.src 4 false = .ok (scratchBase 0) .scratch ∧ leValue ((engWorld d).engRead d d.src 4) = 16 ∧
      (engWorld d).firstBar d [(d.src + 4, 16)] false = none ∧ (engWorld d).firstBar d [(d.dst, 16)] true = none ∧
      (decodeBlock 0 16 ((engWorld d).engRead d (d.src + 4) 16)).isSome = true) ∧
    (match grasp world e.die e.asker (world.lineGlob e 0) 128 false with | .ok _ _ _ => true | _ => false) = true ∧
    (hopBlock two 1 (layoutOf h.recN) 0 = some block1 ∧ (hopBlock two 1 (layoutOf h.recN) 1).isSome = true ∧
      two.badScratch 0 (scratchBase 0 + block1.spBase + 0x1000) 16 = false) := by decide +kernel

/-- A product of one row and one column; a drain of a row of sixteen; operands consumed with and without an event; an accumulator load; and
operations that have written. -/
theorem witness_TileEvents :
    let m := { engOp .mma mma1 with orig := [] }
    let d := engOp .mdrn mdrn1
    let l := engOp .accld 0
    let s := engWorld m
    (s.engAct? 9 = some m ∧ m.phase = .accepted ∧ s.allPerformed m.waits m.scope = true ∧ s.accHeld m = false ∧
      s.firstBar m ([(recPtr m.recN 128, 0)] ++ [(opA m.recN).row 24 0] ++ [(opB m.recN).row 24 0]) false = none ∧
      (outliers s m).any (fun x => decide (x / 2 ^ 36 % 2 ^ 28 ≠ 0)) = false ∧ (opA m.recN).agrees s m 24 0 = true ∧
      (opB m.recN).agrees s m 24 0 = true ∧ (s.accRow m 0).isNone = false) ∧
    (let x := (drainD d.recN).writes false 0 false [(((engWorld d).accRow d 0).getD [])]
     (engWorld d).accHeld d = false ∧ ((engWorld d).accRow d 0).isNone = false ∧ drainT? d.recN = none ∧ d.region.rows = 1 ∧
      ((putPieces x.1).zipIdx.foldl (fun y q => putPiece y q.2 q.1.1 q.1.2) ((engWorld d, d), ⟨none, false⟩)).2 = ⟨none, false⟩ ∧
      (engWorld d).engQueued d (BitVec.ofNat 64 0x8000000000000400) 16 = false) ∧
    ({ m with phase := .written } : EngOp).consumed = false ∧
    (objectUpdate (scratchBase 0 + 16) .arrive (world.writeBytes (scratchBase 0 + 16) (bytesOf 16 (2 * 2 ^ 112)))).isSome = true ∧
    ((engWorld l).accHeld l = false ∧ (accEffect l (engWorld l)).isSome = true) ∧ d.kind ≠ .accld := by decide +kernel

/-- A chain with an entry to start, one that is empty, one whose entry has performed and one whose entry has stopped; a collective of one
participant. -/
theorem witness_ChainEvents :
    let hdr (tail : Nat) : Nat := 2 ^ 192 + tail * 2 ^ 128 + 0x8000000000000100 * 2 ^ 64 + 0x8000000000000200
    let k (busy : Option Nat) : Chain := ⟨4, 0, 1, ⟨0, 0, 0⟩, scratchBase 0, 0, busy, true, none⟩
    let s (tail : Nat) (c : Chain) : State :=
      let w := recWorld (hdr tail) 64
      { w with sch := { w.sch with chains := [c] } }
    let e := engOp .coll coll1
    let i : CollInst := ⟨6, 1, 0, 0, [(1, 9)]⟩
    let w : State := { engWorld { e with src := 0, dst := 0, lines := [2, 3] } with sch := { world.sch with colls := [i] } }
    ((s 1 (k none)).chain? 4 = some (k none) ∧ (s 1 (k none)).blockRuns 1 = true ∧ (k none).walking = true) ∧
    (chnHead ((s 0 (k none)).readLe (scratchBase 0) 64) = chnTail ((s 0 (k none)).readLe (scratchBase 0) 64) ∧
      recBits ((s 0 (k none)).readLe (scratchBase 0) 64) 511 208 = 0 ∧ chnScope ((s 0 (k none)).readLe (scratchBase 0) 64) ≤ 6 ∧
      recBits ((s 0 (k none)).readLe (scratchBase 0) 64) 198 197 = 0 ∧ chnLog ((s 0 (k none)).readLe (scratchBase 0) 64) = 1) ∧
    (s 0 (k none)).badScratch 0 (scratchBase 0) 64 = false ∧
    ((s 1 (k (some 9))).eng? 9 = none ∧
      (s 1 (k (some 9))).checkAccess (agent 0 1) Spaces.engine .write (chnDone ((s 1 (k (some 9))).readLe (scratchBase 0) 64)) 8 8 =
        (Except.ok (.scratch 0 (scratchBase 0 + 256) false) : Except Cause Target)) ∧
    ({ e with phase := .stopped .spaceFault } : EngOp).stopped = true ∧
    (w.sch.colls.find? (fun i => i.id == 6) = some i ∧ (i.parts.findSome? (fun p => w.eng? p.2)).isSome = true ∧
      (collParts w i).any (fun e => e.stopped) = false ∧ (collParts w i).any (fun e => clShape e.recN != clShape coll1) = false ∧
      collOrphan w i coll1 = false ∧ (collParts w i).length = (w.collHere i coll1).length ∧
      (collParts w i).any (fun e => e.phase != .accepted || (w.engAct? e.id).isNone) = false ∧
      (collParts w i).all (fun e => w.allPerformed e.waits 4) = true ∧ (collRead coll1 (collParts w i) w).2.isNone = true ∧
      (collWrite ((collParts w i).map (fun e => (e, List.replicate 16 0))) w).2 = (none, false)) := by decide +kernel

/-- A card of one block of 32 threads with 16 registers each, at a priority (R254). -/
def card1 (prio : Nat) : BitVec 512 := BitVec.ofNat 512 (31 * 2 ^ 101 + 2 ^ 86 + prio * 2 ^ 55 + 0x1000 * 2 ^ 192)
def item1 (prio : Nat) : Item :=
  { id := 3, die := 0, queue := 0, card := card1 prio, place := [], ctx := 1, prio := prio, posted := 0, aged := false, next := 0, task := 1,
    seq := none, parent := none, resume := [], chosen := [], reserved := [], graph := none }
def withItems (l : List Item) (s : State) : State := { s with sch := { s.sch with items := l } }
/-- No core of die 0 takes a block. -/
def fullWorld : State := { world with cores := (List.range 256).map (fun c => { Core.fresh c with inService := false }) }
def message1 (ptr : Option DWord) : Message := ⟨5, none, 255, 0, [], 6, 0, 0, 1, ptr, 0, card1 0, none, 5⟩

/-- The state in which a decision of die 0 is taken: the dies chosen again, and the numbers asked for (R257). -/
def decided (s : State) : State :=
  let r := yieldAll 0 ((s.sch.items.filter (fun x => !x.chosen.isEmpty && x.parent.isNone)).foldl (fun s x => rechoose x s) s)
  ((r.heads 0).filter (fun x => !(r.localItem x) && x.seq.isNone && !(jcDisp x.card))).foldl
    (fun s x => s.postOnce (.householdSequenceNumber x.id)) r

/-- A card from the host, and one that lies in memory; nothing to admit, an item that fits, one that does not, and a dispatcher's; an item of
1 ms; a household's number, its request, and its start, for a card and for gangs that resume; and an item of priority 6 that has been held for
100 µs, where it fits after all, where a gang gives way, and where none can. -/
theorem witness_AdmissionEvents :
    let m := message1 none
    let s : State := { world with messages := [m] }
    let x := item1 6
    let y : Item := { x with seq := some (1, 0), chosen := [(0, 0)] }
    let z : Item := { y with resume := [1] }
    let r : Item := { x with id := 4, parent := some 3, reserved := [1] }
    let d : Item := { x with card := card1 6 ||| BitVec.ofNat 512 (2 ^ 48) }
    let held (w : State) : State := withItems [x] { w with clock := 140000, sch := { w.sch with heldItem := [(0, 3, 0)] } }
    let waits (w : State) : Bool := ((held w).sch.heldItem.findSome? (fun h => if h.1 = 0 then
      ((held w).item? h.2.1).bind (fun x => if (held w).eff x ≥ 6 then some (h.2.2, x) else none) else none) == some (0, x)) &&
      decide (0 + holdCycles ≤ (held w).clock) && !((held w).gangs.any (fun g => g.die == 0 && (g.phase == .stopping || g.wanted)))
    (s.message? 5 = some m ∧ s.messages.any (fun x => x.grp == m.grp && decide (x.id < 5) && x.dev == m.dev && x.die == m.die) = false ∧
      (m.heldOnWay s).isNone = true ∧ m.dev = s.device ∧ m.ptr = none ∧ jcPlace m.card = 0) ∧
    (match graspBytes none 0 1 (pieces 0x1040 64) s with | .ok _ bs => bs.length == 64 | _ => false) = true ∧
    ((decided (withItems [x] world)).dispatcherCard 0 = none ∧ (decided (withItems [d] world)).dispatcherCard 0 = some d) ∧
    (decided world).chooseItem 0 = none ∧ (decided (withItems [x] world)).chooseItem 0 = some x ∧
    (bindItem x (decided (withItems [x] world))).isSome = true ∧ (bindItem x (decided (withItems [x] fullWorld))).isNone = true ∧
    (decided (withItems [x] fullWorld)).chooseItem 0 = some x ∧
    (x.aged = false ∧ x.posted + 1400000 ≤ ({ world with clock := 1400000 } : State).clock ∧ x.seq = none) ∧
    (0 < 12 ∧ y.seq.isSome = true ∧ (withItems [y] world).sch.items.any (fun z => z.parent == some 3 && z.die == 0) = false) ∧
    (((y.chosen.filter (fun p => p.1 == 0)).map (·.2)).eraseDups = [0] ∧
      [0].all (fun d => ([y, r].filter (fun z => z.parent == some 3)).any (fun z => z.die == d && !z.reserved.isEmpty)) = true ∧
      y.chosen.any (fun p => p.1 != world.device) = false ∧ y.resume = [] ∧ z.resume ≠ [] ∧ z.seq.isSome = true) ∧
    (waits world = true ∧ (bindItem x (held world)).isSome = true) ∧
    (waits fullWorld = true ∧ (bindItem x (held fullWorld)).isNone = true ∧ (held fullWorld).victimFor 0 ((held fullWorld).eff x) = some gang1) ∧
    (let w : State := { fullWorld with gangs := [] }
     waits w = true ∧ (bindItem x (held w)).isNone = true ∧ ((held w).victimFor 0 ((held w).eff x)).isNone = true) := by decide +kernel

/-- A block to start, one to end, and one whose resources are free already; a Porch with room, one whose ring must drain first, one whose ring
takes the record, and one that refuses it, at their sizes; a ring with a record; a gang whose pre-emption is asked for, one that waited for
it, one that has drained, and one to restore. -/
theorem witness_BlockAndPorchEvents :
    let p (n k : Nat) : Porch := ⟨0, List.replicate n 0, List.replicate k 0, 7⟩
    let m := message1 none
    let st (f : Gang → Gang) (l : List Thread) : State := { world with gangs := [f gang1], threads := l }
    let g2 : Gang := { gang1 with phase := .stopping }
    let w : State := { world with gangs := [{ gang1 with wanted := true }] }
    let t := undoSent 1 (st (fun _ => g2) [])
    (world.block? 1 = some block1 ∧ world.gang? 1 = some gang1 ∧ ({ block1 with state := 1 } : Block).hold = false ∧
      ({ block1 with state := 0 } : Block).state = 0) ∧
    ((st id []).threadsOfBlock 1 = [] ∧ (st id []).endHeld gang1 = false ∧ (st id []).blockBusy block1 = false ∧ block1.state ≠ 1) ∧
    ((m.heldOnWay world).isNone = true ∧ m.dev = world.device ∧ (p 31 0).porch.length < 32 ∧ (p 31 0).ring = [] ∧
      32 ≤ (p 32 127).porch.length ∧ (p 32 127).ring.length < 2 ^ 7 ∧ 2 ^ 7 ≤ (p 32 128).ring.length ∧ (p 31 1).ring = 0 :: [] ∧
      (p 31 1).ring ≠ []) ∧
    (world.gangsOfHh 1).all (fun x => x.phase == .running && !x.dispatcher) = true ∧
    (w.gang? 1 = some { gang1 with wanted := true } ∧ w.canPreempt 1 = true) ∧
    ((st (fun _ => g2) []).gang? 1 = some g2 ∧ t.householdDrained 1 = true) ∧
    ({ gang1 with phase := .resuming } : Gang).phase = .resuming := by decide +kernel

def graph1 : Graph := ⟨8, 0, 1, 0x2000, 0, 1, 2, 4, [0], [], [], [], [], false⟩
/-- A graph whose node 0, of a kind and count, lies at 0x2000, and a word at 0x3000. -/
def graphWorld (kind count word : Nat) : State :=
  let n : Nat := kind * 2 ^ 252 + count * 2 ^ 192 + 0x3000 * 2 ^ 128
  let s := (world.writeBytes (hallBase 0 0 + 0x2000) (bytesOf 32 n)).writeBytes (hallBase 0 0 + 0x3000) (bytesOf 4 word)
  { s with sch := { s.sch with graphs := [graph1] } }

/-- An activation at a node of each kind, whose word is zero and not; a graph whose tasks are done; a task's end with and without a failure. -/
theorem witness_GraphEvents :
    let at_ (k n w : Nat) : State := graphWorld k n w
    let reads (s : State) (p : DWord) (n : Nat) : Bool :=
      match graspAgent s (dieUnit 0) 0 1 p n false with | .ok _ l m => l == hallBase 0 0 + p.toNat && m == .direct | _ => false
    let node (k n : Nat) : Nat := (at_ k n 0).readLe (hallBase 0 0 + 0x2000) 32
    let m : Message := { message1 (some 0x2040) with graph := some (8, 0) }
    let k (failed : Bool) : Task := { task1 with complete := true, failed := failed, graph := some (8, 0) }
    let s (l : List Task) : State := { world with tasks := l }
    ((at_ 0 0 0).graph? 8 = some graph1 ∧ graph1.faulted = false ∧ 0 ∈ graph1.acts ∧ reads (at_ 0 0 0) 0x2000 32 = true) ∧
    ([0, 1, 2, 3, 4].all (fun k => gnKind (node k 2) == k && recBits (node k 2) 251 240 == 0 && recBits (node k 2) 63 36 == 0 &&
      recBits (node k 2) 31 0 == 0 && gnCount (node k 2) == 2) = true) ∧
    (gnDie (node 1 0) < 12 ∧ globalAt (gnPtr (node 1 0)) 64 = true) ∧
    (globalAt (gnPtr (node 2 0)) 4 = true ∧ reads (at_ 2 0 0) 0x3000 4 = true ∧
      (at_ 2 0 0).readLe (hallBase 0 0 + 0x3000) 4 = 0 ∧ (at_ 3 0 5).readLe (hallBase 0 0 + 0x3000) 4 = 5) ∧
    ([m].filter (fun m => m.graph == some (8, 0)) = [m] ∧ ({ graph1 with faulted := true } : Graph).faulted = true) ∧
    ((s [k true]).task? 1 = some (k true) ∧ (s [k false]).task? 1 = some (k false) ∧
      ({ graph1 with tasks := [(0, 1, 2)] } : Graph).tasks.find? (fun x => x.1 == 0) = some (0, 1, 2)) ∧
    (writeDone world 0 1 0x3000 1).2 = true := by decide +kernel

/-- Line 3 of die 0's HBM4E. -/
def line3 : Nat := lineNum (hallBase 0 0) + 3
def req1 (attempt : Nat) : TokenReq := ⟨6, .l2 1, line3, true, 9, attempt, 0, 0, false, 0, 1, false⟩
def tokWorld (t : TokenLine) (r : TokenReq) (arb : List Nat) : State :=
  { world with fab := { world.fab with tokens := [t], reqs := [r], arb := [(line3, arb)] } }

/-- A request that its holder's tokens satisfy, and one that they do not; a holder that answers, and one that has nothing; a time that is over,
before and after the last attempt; a request in and out of its queue; a message of this epoch and of the last. -/
theorem witness_TokenEvents :
    let home : TokenLine := ⟨line3, 0, 32, true, []⟩
    let have_ : TokenLine := ⟨line3, 0, 0, false, [⟨.l2 1, 32, true, true, false, 0, 0⟩]⟩
    let s := tokWorld home (req1 1) []
    let m (e : Nat) : TokenMsg := ⟨4, line3, .l2 1, 1, false, true, false, e, [4], true⟩
    let r := req1 1
    (s.tokenReq? 6 = some r ∧ s.satisfied r = false ∧ (tokWorld have_ r []).satisfied r = true) ∧
    ((Holder.home : Holder) ≠ r.holder ∧ s.activeReq line3 = none ∧
      s.fab.reqs.any (fun x => x.holder == .home && x.line == line3 && x.write) = false ∧
      answerOf (s.tokens line3) .home true = some (32, true, true) ∧ answerOf (s.tokens line3) (.l2 2) true = none) ∧
    (r.persistent = false ∧ r.issued + attemptCycles ≤ ({ s with clock := 560 } : State).clock ∧ 560 < r.started + escalateCycles ∧
      s.linkWaiting r = false ∧ (req1 4).attempt ≥ 4 ∧ ¬(req1 3).attempt ≥ 4 ∧ r.started + escalateCycles ≤ 2 ^ 20) ∧
    (6 ∉ (assoc line3 s.fab.arb).getD [] ∧ (tokWorld home r [6]).activeReq line3 = some 6) ∧
    ((s.link 4).mode = .active ∧ (m 0).epoch = (s.tokens line3).epoch ∧ (m 1).epoch ≠ (s.tokens line3).epoch ∧
      (s.activeReq line3).bind s.tokenReq? = none ∧ ((tokWorld home r [6]).activeReq line3).bind (tokWorld home r [6]).tokenReq? = some r) ∧
    (({ s with fab := { s.fab with evicting := [(0, line3)] } } : State).msgsOf line3).any (fun m => m.dest == .home) = false := by
  decide +kernel

/-- What the ways and the tables leave free: no link held, no half of the host's, no entry of another request, room in the table; a request whose
access is done with, and one whose access is over; a line on its way out, and a recreation that nothing of the host's holds up. -/
theorem witness_TokenEvents_ways :
    let home : TokenLine := ⟨line3, 0, 32, true, []⟩
    let s := tokWorld home (req1 1) [6]
    let m : TokenMsg := ⟨4, line3, .l2 1, 1, false, true, false, 0, [], true⟩
    (reqHeld (req1 1).holder .home line3 s).isNone = true ∧ (reqHeld .home .home line3 s).isNone = true ∧ s.hostHolds line3 = false ∧
    s.fab.ptable.any (fun e => e.1 == .home && e.2.1 == line3 && e.2.2 != 6) = false ∧ s.activeReq line3 = some 6 ∧
    s.tableFull line3 .home = false ∧ s.stillWants (req1 1) = false ∧ ({ req1 1 with used := true } : TokenReq).used = true ∧
    m.links.any s.linkShut = false ∧ s.evicts m.dest line3 = false ∧
    ({ s with fab := { s.fab with evicting := [(1, line3)] } } : State).evicts m.dest line3 = true ∧
    (snoopInv (line3 * 128) 128 s).2 = true := by decide +kernel

/-- A page that can move; a move to claim a frame, one to copy, poisoned and not, one to switch, and one held for 40 µs; a link in every mode, and
at the last failure; a grant that ends a demand and one that does not; a module lost, and reached. -/
theorem witness_MigrationAndLinkEvents :
    let m (p : MovePhase) (heldAt : Option Nat) : Move := ⟨7, .hall 0 0, 1, 0, 0, false, 0, hallBase 0 0, cellarBase 0 0, p, heldAt⟩
    let s (x : Move) : State := { world with fab := { world.fab with moves := [x], freeFrames := [⟨0, false, 0, 0⟩] } }
    let l (mode : LinkMode) (fails : Nat) : Link := ⟨0, mode, fails, 0⟩
    let d (n : Nat) : Module := ⟨1, true, false, n, 0, [], none⟩
    (match world.resolve 1 0 1 noRights anyFmt with | .ok p => p.tpage == 0 | _ => false) = true ∧
    ((s (m .request none)).move? 7 = some (m .request none) ∧ (m .request none).active = false ∧
      moveSource (s (m .request none)) (m .request none) = some (hallBase 0 0) ∧ fmMove ((m .request none).entry (s (m .request none))) = false ∧
      ((s (m .request none)).framesFor (m .request none) (hallBase 0 0)).find? (fun f => decide ((s (m .request none)).engineMoves f.engine < 16)) =
        some ⟨0, false, 0, 0⟩) ∧
    ((recallLines ((s (m .recall none)).tokenLinesIn (hallBase 0 0)) 7 (s (m .recall none))).2 = true ∧
      ((s (m .recall none)).poisonOf (hallBase 0 0) 65536).isSome = false ∧
      (({ s (m .recall none) with poison := [(lineNum (hallBase 0 0), .poison)] } : State).poisonOf (hallBase 0 0) 65536).isSome = true) ∧
    ((m .recall (some 0)).active = true ∧ 0 + moveCycles ≤ 56000) ∧
    ((l .sleeping 0).mode = .sleeping ∧ (l .waking 0).fails ≠ 1 ∧ 4200 ≤ (l .waking 0).since + wakeCycles ∧
      (l .waking 0).since + wakeCycles < 4201 ∧ (l .active 15).fails + 1 ≥ 16 ∧ ¬(l .active 14).fails + 1 ≥ 16) ∧
    ([d 4096].find? (fun m => m.dev == 1) = some (d 4096) ∧ (d 4096).demand ≠ 0 ∧ ¬(d 4096).demand > 4096 ∧ (d 4097).demand > 4096) ∧
    (59 < 60 ∧ 59 ≠ world.device) := by decide +kernel

/-- A driver's page with a home here; a wake that is late, and one whose time has come; a link that nothing waits for; the last of a die's links;
a module whose paths are cut, and one that still has time. -/
theorem witness_MigrationAndLinkEvents_times :
    let l (mode : LinkMode) (fails : Nat) : Link := ⟨0, mode, fails, 0⟩
    world.pageHome 1 0 = some (.hall 0 0) ∧ movesHere world.device (.hall 0 0) = true ∧
    (l .waking 0).since + wakeCycles < 4201 ∧ 4201 < (l .waking 0).since + retireCycles ∧
    (l .waking 1).fails = 1 ∧ (l .retraining 1).since + retireCycles ≤ retireCycles ∧
    world.fab.replay.any (fun x => x.link == 0) = false ∧
    (let u : State := { world with fab := { world.fab with links := (List.range 4).map (fun i => ⟨i, .retired, 0, 0⟩) } }
     (List.range 4).all (fun i => (u.link (4 * 0 + i)).mode == .retired) = true ∧
     (List.range 4).all (fun i => (world.link (4 * 0 + i)).mode == .retired) = false) ∧
    ([⟨1, true, false, 0, 0, [], some 0⟩] : List Module).any (fun m => m.dev == 1 && m.cut.any (fun t => decide (5 < t + retireCycles))) = true := by
  decide +kernel

/-- A line whose token the bridge has, and one whose token it has not; lines that the host bridge and a pool bridge hold, dirty and clean, and lines
that they do not; a lost segment. -/
theorem witness_HostAndPoolEvents :
    let s (t : TokenLine) : State := { world with fab := { world.fab with tokens := [t] } }
    let pl : Nat := 3 * 2 ^ 57
    let g : Segment := ⟨0, 0, 0, 65536, true, false, []⟩
    world.ownLine line3 = true ∧ 1 < 2 ∧ (tableRoom line3 world).2 = true ∧ world.hostOwns (line3 * 128) 128 = false ∧
    (world.setHalf line3 0 .any).hostOwns (line3 * 128) 128 = true ∧
    ((s ⟨line3, 0, 31, true, [⟨.hostBridge, 1, false, true, false, 0, 0⟩]⟩).tokens line3).may .hostBridge false = true ∧
    (((s ⟨line3, 0, 1, true, []⟩).tokens line3).may .hostBridge false = false ∧ 1 ≤ ((s ⟨line3, 0, 1, true, []⟩).tokens line3).home) ∧
    ([⟨5, true, true, 1⟩].find? (fun x => x.line == 5) = some (⟨5, true, true, 1⟩ : BridgeLine)) ∧
    (world.ext.hostCache.find? (fun x => x.line == 5) = none ∧ world.ext.hostCache.length < bridgeLines) ∧
    (poolLine pl = true ∧ world.ext.portsLost.contains (portOf pl) = false ∧ world.ext.poolCache.find? (fun x => x.line == pl) = none ∧
      (world.ext.poolCache.filter (fun x => portOf x.line == portOf pl)).length < bridgeLines) ∧
    (5 < 6 ∧ world.ext.portsLost.contains 5 = false) ∧ ([g].find? (fun g => g.seg == 0) = some g ∧ g.lost = true) := by decide +kernel

/-- What the host may do with a line of the module: the tokens are gathered, or not; a write that nothing holds; memory of its own. -/
theorem witness_HostAndPoolEvents_ways :
    let s (t : TokenLine) : State := { world with fab := { world.fab with tokens := [t] } }
    let mine : TokenLine := ⟨line3, 0, 0, false, [⟨.hostBridge, 32, true, true, false, 0, 0⟩]⟩
    (bridgeDemand line3 true (s mine)).2 = true ∧ (bridgeDemand line3 false (s ⟨line3, 0, 0, false, [⟨.l2 1, 32, true, true, false, 0, 0⟩]⟩)).2 = false ∧
    (tableRoom line3 (s mine)).2 = true ∧ (s mine).heldByMove (line3 * 128) = false ∧ hostMemLine line3 = false ∧
    (s mine).hostWriteHeld line3 0 = false ∧ hostMemLine (hostBase / 128) = true ∧
    world.ext.hostCache.any (fun x => x.line == 2 * (hostBase / 128)) = false ∧
    ([⟨2 * (hostBase / 128), true, true, 1⟩] : List BridgeLine).any (fun x => x.line == 2 * (hostBase / 128)) = true := by decide +kernel

/-- The boot at each of its stages, and the register numbers that firmware extends. -/
theorem witness_BootAndHealthEvents :
    State.reset.boot.failed = none ∧ State.reset.boot.stage = 0 ∧
    [1, 2, 3, 4, 5].all (fun n => ({ State.reset.boot with stage := n } : Boot).stage == n && (State.reset.boot.failed).isNone) = true ∧
    (world.boot.stage = 5 ∧ 8 ≤ 8 ∧ 15 ≤ 15) := by decide +kernel

/-- An image is good or is not; no commit under way, and one. -/
theorem witness_BootAndHealthEvents_parts :
    (∀ img, State.reset.imageGood img = true ∨ State.reset.imageGood img = false) ∧
    (([(1, [], some 0)] : List (Nat × List (Nat × Nat) × Option (BitVec 256))).any (fun x => x.2.2.isNone) = false) ∧
    (([(1, [], none)] : List (Nat × List (Nat × Nat) × Option (BitVec 256))).any (fun x => x.2.2.isNone) = true) := by
  refine ⟨fun img => by cases State.reset.imageGood img <;> simp, rfl, rfl⟩

theorem witness_AttestationEvents :
    world.boot.stage = 5 ∧ (1 : Nat) ≠ 0 ∧ (blocksOf world.boot.mr 1).isSome = true ∧ (blocksOf world.boot.mr 16).isSome = true ∧
    (blocksOf world.boot.mr 255).isSome = true ∧ ((true, false).1 || (true, false).2) = true ∧ 1048575 < 1048576 := by decide +kernel

/-- A response to sign that has no index, with one left and with none, and one that has its index. -/
theorem witness_AttestationEvents_sign :
    let x (i : Option Nat) : Signature := ⟨0x83, 0x03, [], [], i⟩
    let b (n : Nat) (i : Option Nat) : Boot := { world.boot with otp := n, signing := [x i] }
    ((b 1048575 none).signing = x none :: [] ∧ (x none).index = none ∧ (b 1048575 none).otp < 1048576) ∧
    1048576 ≤ (b 1048576 none).otp ∧ (x (some 7)).index = some 7 := by decide +kernel

/-! ## The hypotheses of the statements about the whole machine -/

theorem witness_WordRoundTrip :
    Forms.wordOf (.nop (fieldsOf 0 0 0 0 255 255 255 255)) = some (0x186, fieldsOf 0 0 0 0 255 255 255 255) ∧
    WellFormed (.nop (fieldsOf 0 0 0 0 255 255 255 255)) ∧ (decodeWord 0x0007FFFFFFFB8186).isOk = true := by decide +kernel

/-- Each case of a step: stopped, failed, a member with a follower, with a word, and within a repetition, an event, a picker, and the tick. -/
theorem witness_StepRunsInstruction :
    let run : State := { world with issue := { Issue.idle with todo := [⟨0, 0, 0⟩], cur := ⟨0, 0, 0⟩ } }
    let idle : State := { world with issue := Issue.idle }
    (({ State.reset with boot := { State.reset.boot with dead := true } } : State).boot.dead = true ∧
      (State.reset.failStage 2).boot.failed = some 2) ∧
    (run.boot.dead = false ∧ run.boot.failed = none ∧ run.issue.todo = [⟨0, 0, 0⟩] ∧ run.issue.follower = none ∧
      run.thread? ⟨0, 0, 0⟩ = some thr ∧ run.firstCheck thr = none ∧ thr.denied ≠ some thr.pc ∧
      (match run.cachedLine 0 (run.ctxOf thr) (pcLine thr.pc) with
       | some l => l.reservedOk && (l.slot (pcSlot thr.pc) == 0x0007FFFFFFFB8185)
       | none => false) = true ∧ thr.rep = none ∧ (decodeWord 0x0007FFFFFFFB8185).isOk = true) ∧
    ({ run.issue with follower := some (.nop (fieldsOf 0 0 0 0 255 255 255 255)) } : Issue).follower.isSome = true ∧
    (run.wordAt { thr with rep := some ⟨0x1001, 2, 0⟩ } 0x1001 = some 0x0007FFFFFFFB8186) ∧
    (State.reset.agenda = .bootStage :: [] ∧ ({ State.reset with turn := true } : State).turn = true) ∧
    (idle.issue.todo = [] ∧ idle.turn = false ∧ nextPicker idle = some 0 ∧ nextPicker State.reset = none) := by decide +kernel

/-- A stopped module with a reset that has come, with its tasks' values written and not, with an event and without; a failed one; a group whose
members are ready. -/
theorem witness_StepRunsInstruction_stopped :
    let dead : State := { world with boot := { world.boot with dead := true } }
    let on (s : State) : State := { s with agenda := [.bootStage, .powerGoodReset], turn := true }
    (on dead).agenda.find? Instr.resets = some .powerGoodReset ∧ dead.agenda.find? Instr.resets = none ∧
    ({ dead with tasks := [] } : State).tasks.all (fun k => k.complete) = true ∧ dead.tasks.all (fun k => k.complete) = false ∧
    Instr.works (.issueGroup 0 0) = true ∧ Instr.works .bootStage = false ∧ dead.turn = false ∧
    ((on (State.reset.failStage 2)).agenda.find? Instr.resets = some .powerGoodReset ∧
      ({ State.reset.failStage 2 with agenda := [] } : State).agenda.find? Instr.resets = none) ∧
    (∀ r ∈ ({ world with issue := { Issue.idle with todo := [⟨0, 0, 0⟩] } } : State).issue.todo,
      unready r { world with issue := { Issue.idle with todo := [⟨0, 0, 0⟩] } } = none) := by decide +kernel

/-- A poisoned key file, and a word that is too early on a core that checks; a denied page, a line that is not held, one with a reserved bit,
and one with no opcode. -/
theorem witness_FetchTraps :
    let bad (bytes : List Byte) : State :=
      { world with cores := [{ Core.fresh 0 with icache := [⟨1, 0x1000, bytes, 0, 0⟩] }],
                   issue := { Issue.idle with todo := [⟨0, 0, 0⟩], cur := ⟨0, 0, 0⟩ } }
    let t : Thread := { thr with pc := 0x2000 }
    let r := bad (bytesOf 64 (2 ^ 489))
    let o := bad (bytesOf 64 0x3FF)
    let add := bad (bytesOf 64 0x000000000007F9008040E000)
    let e : State := { add with cores := add.cores.map (fun k => { k with check := 1 }) }
    ({ o with warps := [{ Warp.fresh 0 0 0 1 with poisoned := true }] } : State).firstCheck thr = some .poison ∧
    e.firstCheck { thr with pend := [⟨16, 5, 0⟩] } = some .stallShort ∧
    (o.firstCheck { thr with denied := some 0x1000 } = none ∧ ({ thr with denied := some 0x1000 } : Thread).denied = some thr.pc) ∧
    (({ r with threads := [t] } : State).firstCheck t = none ∧
      ({ r with threads := [t] } : State).cachedLine 0 1 (pcLine t.pc) = none) ∧
    ((match r.cachedLine 0 1 (pcLine thr.pc) with | some l => l.word.extractLsb' 9 7 != 0 | none => false) = true ∧
      r.firstCheck thr = none ∧ thr.line ≠ some (pcLine thr.pc)) ∧
    (match o.cachedLine 0 1 (pcLine thr.pc) with
      | some l => l.word.extractLsb' 9 7 == 0 && !(Forms.assigned (opcodeOfWord (l.slot (pcSlot thr.pc)))) | none => false) = true ∧
    o.firstCheck thr = none ∧ (o.core 0).check.getLsbD 0 = false := by decide +kernel

/-- An opcode that is not assigned, on a core that checks, and in a repetition. -/
theorem witness_FetchTraps_opcode :
    let s (check : Word) (t : Thread) : State :=
      { world with cores := [{ Core.fresh 0 with check := check, icache := [⟨1, 0x1000, bytesOf 64 (0x0007FFFFFFFB8187 + 0x3FF * 2 ^ 96), 0, 0⟩] }],
                   threads := [t], issue := { Issue.idle with todo := [⟨0, 0, 0⟩], cur := ⟨0, 0, 0⟩ } }
    let t : Thread := { thr with pc := 0x1001, rep := some ⟨0x1000, 2, 0⟩, line := some 0x1000 }
    (s 1 t).firstCheck t = none ∧ ((s 1 t).core 0).check.getLsbD 0 = true ∧ t.denied ≠ some t.pc ∧ t.line = some (pcLine t.pc) ∧
    (match (s 1 t).cachedLine 0 1 (pcLine t.pc) with
      | some l => Forms.assigned (opcodeOfWord (l.slot (pcSlot t.pc))) == false | none => false) = true ∧
    (s 1 t).wordAt t 0x1000 = some 0x0007FFFFFFFB8187 ∧
    (repetition (fieldsOfWord 0x0007FFFFFFFB8187) (fieldsOfWord 0x3FF) 0).isSome = true ∧
    (s 1 { t with rep := none }).firstCheck { t with rep := none } = none := by decide +kernel

theorem witness_Canonical : MemCanonical (world.writeBytes 5 [1]) ∧ MemCanonical State.reset := by
  constructor <;> (show Memory.wf _ = true) <;> decide +kernel

/-- Each check of a word met and failed: a poisoned warp; an early read on a core that checks; a class-0xE word outside the trap warp; an odd
pair; the key k15 as a produce key; a guard that is pending, and one that is false; a faulted register; a pending one. -/
theorem witness_IssueChecks :
    let f := fieldsOf 0 0 0 0 255 32 16 0
    let p : Pending := ⟨16, 5, 0⟩
    let tr (r : Nat) : Tracked := ⟨5, 9, true, true, [(r, 7)], []⟩
    Forms.wordOf (.add f) = some (0, f) ∧ world.thread? world.issue.cur = some thr ∧ (0 : Nat) ≠ 0x187 ∧
    (({ world with warps := [{ Warp.fresh 0 0 0 1 with poisoned := true }] } : State).warpOf thr).poisoned = true ∧
    (tooEarly 0 f 0 { thr with pend := [p] } = true ∧ ({ Core.fresh 0 with check := 1 } : Core).check.getLsbD 0 = true) ∧
    (0x382 / 64 = 14 ∧ thr.ref.slot ≠ 64) ∧ Forms.wordOk 0 (fieldsOf 0 0 2 2 255 33 16 0) = false ∧
    Forms.wordAllocOk 0 (fieldsOf 0 0 0 0 255 64 16 0) 64 = false ∧
    (Forms.wordOk 0x200 (fieldsOf 0 0 0 15 255 255 16 0) = true ∧ Forms.keyOk 0x200 (fieldsOf 0 0 0 15 255 255 16 0) = false) ∧
    (let g : Fields := { f with guard := 1 }
     ({ thr with tracked := [⟨5, 9, false, true, [], [(1, true)]⟩] } : Thread).trackedOn (256 + g.guard.toNat) = true ∧
       guardOn g 0 0 thr = false ∧ guardOn { g with neg := true } 0 0 thr = true) ∧
    faultedRead 0 f { thr with marks := [(16, .poison)] } = some .poison ∧
    awaitsTracked 0 f { thr with tracked := [tr 16] } = true := by decide +kernel

/-- The checks of REP met and failed: too early; no line that follows; a word that no repetition takes, and one that one does; fields that are not
its own, and an increment of a field that is no register; a produce key that it may not name; a guard that is false. -/
theorem witness_IssueChecks_rep :
    let g : Fields := ⟨0, 0, 0, 0, 255, 255, 255, 255, false, 7, false, 0⟩
    let off : Fields := { g with guard := 1 }
    tooEarly 0x187 { g with guard := 1 } 0 { thr with pend := [⟨257, 5, 0⟩] } = true ∧ tooEarly 0x187 g 0 thr = false ∧
    world.wordAt thr (nextPc thr.pc) = some 0x0007FFFFFFFB8186 ∧ world.wordAt thr (nextPc 0x2000) = none ∧
    followerFate (opcodeOfWord 0x0007FFFFFFFB8185) = some .illegalOpcode ∧ followerFate (opcodeOfWord 0x0007FFFFFFFB8186) = none ∧
    badIncrement { g with imm := 0x100 } (opcodeOfWord 0x0007FFFFFFFB8186) (fieldsOfWord 0x0007FFFFFFFB8186) = true ∧
    Forms.wordOk 0x187 g = true ∧ Forms.wordAllocOk 0x187 g 64 = true ∧ Forms.keyOk 0x187 g = true ∧ Forms.wordOk 0x187 { g with m := 1 } = false ∧
    thr.trackedOn (256 + off.guard.toNat) = false ∧ guardOn off 0 0 thr = false := by decide +kernel

theorem witness_RegisterReadWrite : thr.w.length = 255 ∧ thr.p.length = 7 ∧ (Warp.fresh 0 0 0 1).u.length = 63 := by decide +kernel

/-- A trap of a running core, one of the same cycle in a lower place, one of a core that stopped before, and one of the trap warp. -/
theorem witness_TrapEntry :
    world.thread? ⟨0, 0, 0⟩ = some thr ∧ (world.core 0).stopped = none ∧
    (let k : Core := { Core.fresh 0 with stopped := some 0, recWarp := 5 }
     k.stopped = some world.clock ∧ k.halted = false ∧ trapOrder 0 0 < trapOrder (k.recWarp.toNat % 64) (k.recWarp.toNat / 64) ∧
     ¬ trapOrder 5 0 < trapOrder (k.recWarp.toNat % 64) (k.recWarp.toNat / 64)) ∧
    trapWorld.thread? ⟨0, 64, 0⟩ = some trapThr ∧ trapThr.ref.slot = 64 := by decide +kernel

theorem witness_MemoryUntouched :
    storesMemory (.add (fieldsOf 0 0 0 0 255 32 16 0)) = false ∧
    (match exec (.add (fieldsOf 0 0 0 0 255 32 16 0)) world with | .next _ => true | _ => false) = true := by decide +kernel

/-- An object with one arrival to come, and one with all; bytes that are pending, and none. -/
theorem witness_BarrierObjectUpdates :
    let v (e cur : Nat) (ph : Bool) (pend : Nat) : Nat := obMake 0 e cur ph pend
    65535 < 2 ^ 16 ∧ obPend (v 2 1 false 8) + (2 ^ 48 - 9) < 2 ^ 48 ∧ 8 ≤ obPend (v 2 1 false 8) ∧ obPend (v 2 1 false 8) < 9 ∧
    (obCur (v 2 1 false 8) ≠ obExp (v 2 1 false 8) ∧ obCur (v 2 1 false 8) + 1 < 2 ^ 16) ∧ obCur (v 2 2 false 8) = obExp (v 2 2 false 8) := by
  decide +kernel

theorem witness_FaultedKeyTraps :
    let ks : List KeyState := (List.replicate 14 ⟨[], none, .none⟩).set 13 ⟨[], some (.spaceFault, 0x40, 0), .none⟩
    let s : State := { world with warps := [{ Warp.fresh 0 0 0 1 with keys := ks }] }
    let f := fieldsOf 0 0 14 0 255 255 255 255
    (s.warpOf thr).faultOf 14 = some (.spaceFault, 0x40, 0) ∧ Forms.wordOf (.kwait f) = some (0x242, f) ∧ AllIssue [(0x242, f)] s thr ∧
    ([1, 2, 3, 4, 5, 6, 7, 8, 9, 10, 11, 12, 13].all (fun j => ((s.warpOf thr).key j).fault.isNone)) = true := by decide +kernel

/-- ADD issues and completes outside the trap warp, and within it with no exception enabled; WRU and W2P too. -/
theorem witness_RegisterWordFrame :
    (0x0 < 0x180 ∧ thr.ref.slot ≠ 64 ∧ (world.core 0).fpen = 0) ∧ AllIssue [(0, fieldsOf 0 0 0 0 255 32 16 0)] trapWorld trapThr ∧
    [Instr.add (fieldsOf 0 0 0 0 255 32 16 0), .wru (fieldsOf 0 0 0 0 255 255 16 0), .w2p (fieldsOf 0 0 0 0 255 32 16 255)].all
      (fun i => match exec i world with | .next _ => true | _ => false) = true := by decide +kernel

theorem witness_StoreFrame :
    let a := accOf .st .accepted .direct (hallBase 0 0) 4
    let b := accOf .std .accepted .direct (hallBase 0 0 + 124) 4
    a.op = .st ∧ b.op = .std ∧ b.loc % 4 = 0 ∧ (accWorld a).acc? 9 = some a ∧ a ∈ (accWorld a).groupSet a ∧
    (match exec (.storePerform 9 0) (accWorld a) with | .next _ => true | _ => false) = true := by decide +kernel

/-- A load and a store that goes to its queue complete. -/
theorem witness_StoreFrame_queue :
    let a := accOf .st .accepted .direct (hallBase 0 0) 4
    let l := accOf (.ld false) .accepted .scratch (scratchBase 0) 4
    (∀ x c o y, l.op ≠ .atom x c o y) ∧ (∀ sp lim, l.op ≠ .ldt sp lim) ∧ (accWorld l).acc? 9 = some l ∧
    (match exec (.loadBind 9) (accWorld l) with | .next _ => true | _ => false) = true ∧
    (∀ aon sp lim, a.op ≠ .stt aon sp lim) ∧ (∀ b ∈ (accWorld a).groupSet a, b.mode ≠ .scratch) := by
  refine ⟨nofun, nofun, by decide +kernel, by decide +kernel, nofun, by decide +kernel⟩

theorem witness_MovingOn :
    world.thread? ⟨0, 0, 0⟩ = some thr ∧ thr.rep = none ∧ (⟨0x1000, 2, 0⟩ : RepState).j + 1 < 2 ∧ 2 ≤ (⟨0x1000, 2, 1⟩ : RepState).j + 1 ∧
    (0x1003 : DWord).toNat % 64 < 4 ∧ (0x1004 : DWord).toNat % 64 = 4 := by decide +kernel

theorem witness_TokensConserved :
    let s := tokWorld ⟨line3, 0, 32, true, []⟩ (req1 1) []
    [Holder.home, .l2 1, .hostBridge].Nodup ∧ Holder.home ∈ [Holder.home, .l2 1, .hostBridge] ∧
    (match exec (.transientAnswer 6 .home) s with | .next t => t.fab.msgs.length == 1 | _ => false) = true := by decide +kernel

/-! ## Words written out from R39 and the classes' tables: one for every instruction word of the opcode table -/

/-- Each word decodes to its instruction, and is its encoding; the fields are imm32, m, ck, pk, c, b, a, d, neg, guard, yield, stall. -/
abbrev AllDecode (l : List (Nat × Instr)) : Prop :=
  ∀ x ∈ l, decodeTableWord 96 x.1 = some x.2 ∧ encode x.2 = some (BitVec.ofNat 96 x.1)

theorem test_decode_integer : AllDecode [
    (0x000000000007F90080408000, .add ⟨0, 0, 0, 0, 255, 32, 16, 8, false, 1, false, 0⟩),
    (0x000000000007F90080460401, .sub ⟨0, 0, 0, 0, 255, 32, 16, 8, true, 4, false, 1⟩),
    (0x00000000000021008043C802, .addc ⟨0, 0, 0, 0, 4, 32, 16, 8, false, 7, true, 2⟩),
    (0x000000000000210080454C03, .subb ⟨0, 0, 0, 0, 4, 32, 16, 8, true, 2, true, 3⟩),
    (0x000000000007F90080429004, .mul ⟨0, 0, 0, 0, 255, 32, 16, 8, false, 5, false, 4⟩),
    (0x000000000007F90080441405, .mulh ⟨0, 0, 0, 0, 255, 32, 16, 8, true, 0, false, 5⟩),
    (0x00000000000181008041D806, .mad ⟨0, 0, 0, 0, 48, 32, 16, 8, false, 3, true, 6⟩),
    (0x000000000011810080475C07, .madw ⟨0, 0, 0, 2, 48, 32, 16, 8, true, 6, true, 7⟩),
    (0x000000000007FFF88040A008, .abs ⟨0, 0, 0, 0, 255, 255, 16, 8, false, 1, false, 8⟩),
    (0x000000000007FFF880462409, .neg ⟨0, 0, 0, 0, 255, 255, 16, 8, true, 4, false, 9⟩),
    (0x000000000007F9008043E80A, .min ⟨0, 0, 0, 0, 255, 32, 16, 8, false, 7, true, 10⟩),
    (0x000000000007F90080456C0B, .max ⟨0, 0, 0, 0, 255, 32, 16, 8, true, 2, true, 11⟩),
    (0x00000000000181008042B00C, .clamp ⟨0, 0, 0, 0, 48, 32, 16, 8, false, 5, false, 12⟩),
    (0x00000000001FF9008044340D, .lea ⟨0, 0, 0, 3, 255, 32, 16, 8, true, 0, false, 13⟩),
    (0x00000000000181008041F80E, .sad ⟨0, 0, 0, 0, 48, 32, 16, 8, false, 3, true, 14⟩),
    (0x000000000007F900800F7C0F, .cmp ⟨0, 0, 0, 0, 255, 32, 16, 1, true, 6, true, 15⟩)] := by decide +kernel

theorem test_decode_logic : AllDecode [
    (0x000000000007F90080408040, .and ⟨0, 0, 0, 0, 255, 32, 16, 8, false, 1, false, 0⟩),
    (0x000000000007F90080460441, .or ⟨0, 0, 0, 0, 255, 32, 16, 8, true, 4, false, 1⟩),
    (0x000000000007F9008043C842, .xor ⟨0, 0, 0, 0, 255, 32, 16, 8, false, 7, true, 2⟩),
    (0x000000000007F90080454C43, .andn ⟨0, 0, 0, 0, 255, 32, 16, 8, true, 2, true, 3⟩),
    (0x000000000007FFF880429044, .not ⟨0, 0, 0, 0, 255, 255, 16, 8, false, 5, false, 4⟩),
    (0x000000000007F90080441445, .shl ⟨0, 0, 0, 0, 255, 32, 16, 8, true, 0, false, 5⟩),
    (0x000000000007F9008041D846, .shr ⟨0, 0, 0, 0, 255, 32, 16, 8, false, 3, true, 6⟩),
    (0x000000000007F90080475C47, .sar ⟨0, 0, 0, 0, 255, 32, 16, 8, true, 6, true, 7⟩),
    (0x000000000007F9008040A048, .rot ⟨0, 0, 0, 0, 255, 32, 16, 8, false, 1, false, 8⟩),
    (0x000000000001810080462449, .funl ⟨0, 0, 0, 0, 48, 32, 16, 8, true, 4, false, 9⟩),
    (0x000000000007F9008043E84A, .bfx ⟨0, 0, 0, 0, 255, 32, 16, 8, false, 7, true, 10⟩),
    (0x000000000001810080456C4B, .bfi ⟨0, 0, 0, 0, 48, 32, 16, 8, true, 2, true, 11⟩),
    (0x000000000007FFF88042B04C, .popc ⟨0, 0, 0, 0, 255, 255, 16, 8, false, 5, false, 12⟩),
    (0x000000000007FFF88044344D, .clz ⟨0, 0, 0, 0, 255, 255, 16, 8, true, 0, false, 13⟩),
    (0x000000000007FFF88041F84E, .brev ⟨0, 0, 0, 0, 255, 255, 16, 8, false, 3, true, 14⟩),
    (0x000000000001810080477C4F, .bytp ⟨0, 0, 0, 0, 48, 32, 16, 8, true, 6, true, 15⟩),
    (0x000000000001810080408050, .log3 ⟨0, 0, 0, 0, 48, 32, 16, 8, false, 1, false, 0⟩)] := by decide +kernel

theorem test_decode_move : AllDecode [
    (0x000000000007FFF880460480, .mov ⟨0, 0, 0, 0, 255, 255, 16, 8, true, 4, false, 1⟩),
    (0x000000000007FFFFF843C881, .movi ⟨0, 0, 0, 0, 255, 255, 255, 8, false, 7, true, 2⟩),
    (0x000000000000210080454C82, .sel ⟨0, 0, 0, 0, 4, 32, 16, 8, true, 2, true, 3⟩),
    (0x000000000007FFF800429083, .movs ⟨0, 0, 0, 0, 255, 255, 0, 8, false, 5, false, 4⟩),
    (0x0000000000002018100C1484, .plog ⟨0, 0, 0, 0, 4, 3, 2, 1, true, 0, false, 5⟩),
    (0x000000000007FFFFF841D885, .p2w ⟨0, 0, 0, 0, 255, 255, 255, 8, false, 3, true, 6⟩),
    (0x000000000007F90087FF5C86, .w2p ⟨0, 0, 0, 0, 255, 32, 16, 255, true, 6, true, 7⟩),
    (0x000000000007FFF88040A087, .rdu ⟨0, 0, 0, 0, 255, 255, 16, 8, false, 1, false, 8⟩),
    (0x000000000007FFF880462488, .wru ⟨0, 0, 0, 0, 255, 255, 16, 8, true, 4, false, 9⟩)] := by decide +kernel

theorem test_decode_float : AllDecode [
    (0x000000000447F9008043E8C0, .fadd ⟨0, 0, 8, 8, 255, 32, 16, 8, false, 7, true, 10⟩),
    (0x000000000447F90080456CC1, .fsub ⟨0, 0, 8, 8, 255, 32, 16, 8, true, 2, true, 11⟩),
    (0x000000000447F9008042B0C2, .fmul ⟨0, 0, 8, 8, 255, 32, 16, 8, false, 5, false, 12⟩),
    (0x0000000004418100804434C3, .ffma ⟨0, 0, 8, 8, 48, 32, 16, 8, true, 0, false, 13⟩),
    (0x000000000447F9008041F8C4, .fmin ⟨0, 0, 8, 8, 255, 32, 16, 8, false, 3, true, 14⟩),
    (0x000000000447F90080477CC5, .fmax ⟨0, 0, 8, 8, 255, 32, 16, 8, true, 6, true, 15⟩),
    (0x0000000004400100800880C6, .fcmp ⟨0, 0, 8, 8, 0, 32, 16, 1, false, 1, false, 0⟩),
    (0x000000000447FFF8804604C7, .frnd ⟨0, 0, 8, 8, 255, 255, 16, 8, true, 4, false, 1⟩),
    (0x000000000447F900800BC8C8, .fcls ⟨0, 0, 8, 8, 255, 32, 16, 1, false, 7, true, 2⟩),
    (0x000000000541810080454CC9, .fdot2 ⟨0, 0, 10, 8, 48, 32, 16, 8, true, 2, true, 3⟩)] := by decide +kernel

theorem test_decode_special : AllDecode [
    (0x000000000447FFF880429100, .frcp ⟨0, 0, 8, 8, 255, 255, 16, 8, false, 5, false, 4⟩),
    (0x000000000447FFF880441501, .frsq ⟨0, 0, 8, 8, 255, 255, 16, 8, true, 0, false, 5⟩),
    (0x000000000447FFF88041D902, .fsqrt ⟨0, 0, 8, 8, 255, 255, 16, 8, false, 3, true, 6⟩),
    (0x000000000447FFF880475D03, .fex2 ⟨0, 0, 8, 8, 255, 255, 16, 8, true, 6, true, 7⟩),
    (0x000000000447FFF88040A104, .flg2 ⟨0, 0, 8, 8, 255, 255, 16, 8, false, 1, false, 8⟩),
    (0x000000000447FFF880462505, .fsin ⟨0, 0, 8, 8, 255, 255, 16, 8, true, 4, false, 9⟩),
    (0x000000000447FFF88043E906, .fcos ⟨0, 0, 8, 8, 255, 255, 16, 8, false, 7, true, 10⟩),
    (0x000000000447F90080456D07, .fdiv ⟨0, 0, 8, 8, 255, 32, 16, 8, true, 2, true, 11⟩),
    (0x000000000447FFF88042B108, .ftanh ⟨0, 0, 8, 8, 255, 255, 16, 8, false, 5, false, 12⟩)] := by decide +kernel

theorem test_decode_convert : AllDecode [
    (0x00000000000007F880443540, .cvt ⟨0, 0, 0, 0, 0, 255, 16, 8, true, 0, false, 13⟩),
    (0x00000000040007F88041F941, .cvti ⟨0, 0, 8, 0, 0, 255, 16, 8, false, 3, true, 14⟩),
    (0x00000000004007F880477D42, .cvtf ⟨0, 0, 0, 8, 0, 255, 16, 8, true, 6, true, 15⟩),
    (0x000000000450010080408143, .pack ⟨0, 0, 8, 10, 0, 32, 16, 8, false, 1, false, 0⟩),
    (0x00000000054007F880460544, .unpk ⟨0, 0, 10, 8, 0, 255, 16, 8, true, 4, false, 1⟩),
    (0x00000000047001008043C945, .qblk ⟨0, 0, 8, 14, 0, 32, 16, 8, false, 7, true, 2⟩)] := by decide +kernel

theorem test_decode_control : AllDecode [
    (0x000000000007FFFFFFFD4D80, .bra ⟨0, 0, 0, 0, 255, 255, 255, 255, true, 2, true, 3⟩),
    (0x000000000007FFF887FA9181, .brx ⟨0, 0, 0, 0, 255, 255, 16, 255, false, 5, false, 4⟩),
    (0x000000000007FFFFFFFC1582, .call ⟨0, 0, 0, 0, 255, 255, 255, 255, true, 0, false, 5⟩),
    (0x000000000007FFF887F9D983, .callx ⟨0, 0, 0, 0, 255, 255, 16, 255, false, 3, true, 6⟩),
    (0x000000000007FFFFFFFF5D84, .ret ⟨0, 0, 0, 0, 255, 255, 255, 255, true, 6, true, 7⟩),
    (0x000000000007FFFFFFF8A185, .exit ⟨0, 0, 0, 0, 255, 255, 255, 255, false, 1, false, 8⟩),
    (0x000000000007FFFFFFFE2586, .nop ⟨0, 0, 0, 0, 255, 255, 255, 255, true, 4, false, 9⟩),
    (0x000000000007FFFFFFFBE987, .rep ⟨0, 0, 0, 0, 255, 255, 255, 255, false, 7, true, 10⟩),
    (0x000000000007FFF887FD6D88, .rjset ⟨0, 0, 0, 0, 255, 255, 16, 255, true, 2, true, 11⟩),
    (0x000000000007FFFFFFFAB189, .rjwait ⟨0, 0, 0, 0, 255, 255, 255, 255, false, 5, false, 12⟩),
    (0x000000000007FFFFFFFC358A, .yield ⟨0, 0, 0, 0, 255, 255, 255, 255, true, 0, false, 13⟩),
    (0x000000000007FFF887F9F98B, .sleep ⟨0, 0, 0, 0, 255, 255, 16, 255, false, 3, true, 14⟩),
    (0x000000000007FFFFFFFF7D8C, .bkpt ⟨0, 0, 0, 0, 255, 255, 255, 255, true, 6, true, 15⟩),
    (0x000000000007FFFFFFF8818D, .trap ⟨0, 0, 0, 0, 255, 255, 255, 255, false, 1, false, 0⟩)] := by decide +kernel

theorem test_decode_group : AllDecode [
    (0x000000000007F900804605C0, .shfl ⟨0, 0, 0, 0, 255, 32, 16, 8, true, 4, false, 1⟩),
    (0x000000000007FFF8100BC9C1, .vote ⟨0, 0, 0, 0, 255, 255, 2, 1, false, 7, true, 2⟩),
    (0x000000000007FFF880454DC2, .wred ⟨0, 0, 0, 0, 255, 255, 16, 8, true, 2, true, 3⟩),
    (0x000000000007FFF8804291C3, .matchLanes ⟨0, 0, 0, 0, 255, 255, 16, 8, false, 5, false, 4⟩),
    (0x000000000007FFFFF80C15C4, .elect ⟨0, 0, 0, 0, 255, 255, 255, 1, true, 0, false, 5⟩),
    (0x000000000007FFFFFFF9D9C8, .wsync ⟨0, 0, 0, 0, 255, 255, 255, 255, false, 3, true, 6⟩),
    (0x000000000007FFFFFFFF5DC5, .barb ⟨0, 0, 0, 0, 255, 255, 255, 255, true, 6, true, 7⟩),
    (0x000000000007FFFFFFF8A1C6, .barg ⟨0, 0, 0, 0, 255, 255, 255, 255, false, 1, false, 8⟩),
    (0x000000000007FFFFFFFE25C7, .barh ⟨0, 0, 0, 0, 255, 255, 255, 255, true, 4, false, 9⟩)] := by decide +kernel

theorem test_decode_memory : AllDecode [
    (0x000000000007FFF88043EA00, .ld ⟨0, 0, 0, 0, 255, 255, 16, 8, false, 7, true, 10⟩),
    (0x000000000007F90087FD6E01, .st ⟨0, 0, 0, 0, 255, 32, 16, 255, true, 2, true, 11⟩),
    (0x000000000007FFF88042B202, .ldr ⟨0, 0, 0, 0, 255, 255, 16, 8, false, 5, false, 12⟩),
    (0x000000001007FFF880443603, .ldd ⟨0, 2, 0, 0, 255, 255, 16, 8, true, 0, false, 13⟩),
    (0x000000001007F90087F9FA04, .std ⟨0, 2, 0, 0, 255, 32, 16, 255, false, 3, true, 14⟩),
    (0x000000002800210087FF7E05, .ldt ⟨0, 5, 0, 0, 4, 32, 16, 255, true, 6, true, 15⟩),
    (0x000000002807F90087F88206, .stt ⟨0, 5, 0, 0, 255, 32, 16, 255, false, 1, false, 0⟩),
    (0x000000001000010080460607, .atom ⟨0, 2, 0, 0, 0, 32, 16, 8, true, 4, false, 1⟩),
    (0x00000000500181008043CA07, .atomCas ⟨0, 10, 0, 0, 48, 32, 16, 8, false, 7, true, 2⟩),
    (0x000000001000010087FD4E08, .red ⟨0, 2, 0, 0, 0, 32, 16, 255, true, 2, true, 3⟩),
    (0x000000000007F90087FA9209, .pref ⟨0, 0, 0, 0, 255, 32, 16, 255, false, 5, false, 4⟩),
    (0x000000000007F90087FC160A, .cctlInv1 ⟨0, 0, 0, 0, 255, 32, 16, 255, true, 0, false, 5⟩),
    (0x000000004007FFFFFFF9DA0A, .cctlInv1all ⟨0, 8, 0, 0, 255, 255, 255, 255, false, 3, true, 6⟩),
    (0x000000008007F90087FF5E0A, .cctlWb2 ⟨0, 16, 0, 0, 255, 32, 16, 255, true, 6, true, 7⟩),
    (0x00000000C007F90087F8A20A, .cctlEvict2 ⟨0, 24, 0, 0, 255, 32, 16, 255, false, 1, false, 8⟩),
    (0x000000000007FFF887FE260B, .pgreq ⟨0, 0, 0, 0, 255, 255, 16, 255, true, 4, false, 9⟩)] := by decide +kernel

theorem test_decode_key : AllDecode [
    (0x000000000007FFFFFFFBEA40, .kjoin ⟨0, 0, 0, 0, 255, 255, 255, 255, false, 7, true, 10⟩),
    (0x000000000007FFFFFFFD6E41, .kcopy ⟨0, 0, 0, 0, 255, 255, 255, 255, true, 2, true, 11⟩),
    (0x000000000007FFFFFFFAB242, .kwait ⟨0, 0, 0, 0, 255, 255, 255, 255, false, 5, false, 12⟩),
    (0x000000000007FFFFF80C3643, .ktest ⟨0, 0, 0, 0, 255, 255, 255, 1, true, 0, false, 13⟩),
    (0x000000000787FFFFFFF9FA44, .fence ⟨0, 0, 15, 0, 255, 255, 255, 255, false, 3, true, 14⟩),
    (0x000000000007FFF887FF7E45, .ksend ⟨0, 0, 0, 0, 255, 255, 16, 255, true, 6, true, 15⟩),
    (0x000000000007FFFFFFF88246, .krecv ⟨0, 0, 0, 0, 255, 255, 255, 255, false, 1, false, 0⟩),
    (0x000000000007FFFFFFFE0647, .kclr ⟨0, 0, 0, 0, 255, 255, 255, 255, true, 4, false, 1⟩)] := by decide +kernel

theorem test_decode_engine : AllDecode [
    (0x000000000001810087FBCA80, .cpy ⟨0, 0, 0, 0, 48, 32, 16, 255, false, 7, true, 2⟩),
    (0x000000000001810087FD4E81, .cpyb ⟨0, 0, 0, 0, 48, 32, 16, 255, true, 2, true, 3⟩),
    (0x000000000001810087FA9282, .cpyf ⟨0, 0, 0, 0, 48, 32, 16, 255, false, 5, false, 4⟩),
    (0x000000001001810087FC1683, .accld ⟨0, 2, 0, 0, 48, 32, 16, 255, true, 0, false, 5⟩),
    (0x000000001001810087F9DA84, .accst ⟨0, 2, 0, 0, 48, 32, 16, 255, false, 3, true, 6⟩),
    (0x000000002007F90087FF5E85, .obinit ⟨0, 4, 0, 0, 255, 32, 16, 255, true, 6, true, 7⟩),
    (0x000000002007FFF887F8A286, .obarr ⟨0, 4, 0, 0, 255, 255, 16, 255, false, 1, false, 8⟩),
    (0x000000006007F90087FE2686, .obarrHold ⟨0, 12, 0, 0, 255, 32, 16, 255, true, 4, false, 9⟩),
    (0x000000002007F90087FBEA87, .obexp ⟨0, 4, 0, 0, 255, 32, 16, 255, false, 7, true, 10⟩),
    (0x000000006007F90087FD6E87, .obexpRls ⟨0, 12, 0, 0, 255, 32, 16, 255, true, 2, true, 11⟩),
    (0x000000002007F90087FAB288, .obwait ⟨0, 4, 0, 0, 255, 32, 16, 255, false, 5, false, 12⟩),
    (0x040000000007FFF887FC3689, .coll ⟨0x4000000, 0, 0, 0, 255, 255, 16, 255, true, 0, false, 13⟩),
    (0x000000000007FFF887F9FAC0, .mma ⟨0, 0, 0, 0, 255, 255, 16, 255, false, 3, true, 14⟩),
    (0x000000000007FFF887FF7EC1, .mdrn ⟨0, 0, 0, 0, 255, 255, 16, 255, true, 6, true, 15⟩),
    (0x000000000007F907FFF882C2, .mzero ⟨0, 0, 0, 0, 255, 32, 255, 255, false, 1, false, 0⟩)] := by decide +kernel

theorem test_decode_task : AllDecode [
    (0x000000000007F90080460700, .post ⟨0, 0, 0, 0, 255, 32, 16, 8, true, 4, false, 1⟩),
    (0x000000000007F907F843CB01, .spawn ⟨0, 0, 0, 0, 255, 32, 255, 8, false, 7, true, 2⟩),
    (0x000000000007F90087FD4F02, .mbsend ⟨0, 0, 0, 0, 255, 32, 16, 255, true, 2, true, 3⟩),
    (0x000000000007FFFFF8429303, .mbrecv ⟨0, 0, 0, 0, 255, 255, 255, 8, false, 5, false, 4⟩),
    (0x000000000007FFFFF8441704, .mbstat ⟨0, 0, 0, 0, 255, 255, 255, 8, true, 0, false, 5⟩),
    (0x000000000007F90087F9DB05, .chapp ⟨0, 0, 0, 0, 255, 32, 16, 255, false, 3, true, 6⟩),
    (0x000000000007FFF880475F06, .chseq ⟨0, 0, 0, 0, 255, 255, 16, 8, true, 6, true, 7⟩),
    (0x000000000007FFF88040A307, .glaunch ⟨0, 0, 0, 0, 255, 255, 16, 8, false, 1, false, 8⟩)] := by decide +kernel

theorem test_decode_household : AllDecode [
    (0x000000000007FFFFFFFE2740, .hhatt ⟨0, 0, 0, 0, 255, 255, 255, 255, true, 4, false, 9⟩),
    (0x000000000007FFFFFFFBEB41, .hhdet ⟨0, 0, 0, 0, 255, 255, 255, 255, false, 7, true, 10⟩),
    (0x000000000007FFFFF8456F42, .hhstat ⟨0, 0, 0, 0, 255, 255, 255, 8, true, 2, true, 11⟩)] := by decide +kernel

theorem test_decode_system : AllDecode [
    (0x000000000007FFF80042B380, .ctlr ⟨0, 0, 0, 0, 255, 255, 0, 8, false, 5, false, 12⟩),
    (0x000000000007FFF880043781, .ctlw ⟨0, 0, 0, 0, 255, 255, 16, 0, true, 0, false, 13⟩),
    (0x000000000007FFFFFFF9FB82, .resume ⟨0, 0, 0, 0, 255, 255, 255, 255, false, 3, true, 14⟩),
    (0x000000000007FFF887FF7F83, .killw ⟨0, 0, 0, 0, 255, 255, 16, 255, true, 6, true, 15⟩),
    (0x000000000007FFF880408384, .snapr ⟨0, 0, 0, 0, 255, 255, 16, 8, false, 1, false, 0⟩),
    (0x000000000007F90087FE0785, .snapw ⟨0, 0, 0, 0, 255, 32, 16, 255, true, 4, false, 1⟩),
    (0x000000000007FFF88043CB86, .rett ⟨0, 0, 0, 0, 255, 255, 16, 8, false, 7, true, 2⟩),
    (0x000000000007FFFFFFFD4F87, .halt ⟨0, 0, 0, 0, 255, 255, 255, 255, true, 2, true, 3⟩),
    (0x000000000007FFF880429388, .sysc ⟨0, 0, 0, 0, 255, 255, 16, 8, false, 5, false, 4⟩)] := by decide +kernel

/-- Words that the spec gives: R46, R84, R48, R212, R33 (the others of that kind are in the statement WordsDecode). -/
theorem test_decode_spec_words :
    decodeTableWord 96 0x1007FFF8105B8200 = some (.ld ⟨0, 2, 0, 0, 255, 255, 2, 11, false, 7, false, 0⟩) ∧
    decodeTableWord 96 0x108FF830500B900F = some (.cmp ⟨0, 2, 1, 1, 255, 6, 10, 1, false, 7, false, 4⟩) ∧
    decodeTableWord 96 0xFFFFFFFF0807FFFFFFF88180 = some (.bra ⟨0xFFFFFFFF, 1, 0, 0, 255, 255, 255, 255, false, 1, false, 0⟩) ∧
    decodeTableWord 96 0x0300000050104FF840138207 = some (.atomCas ⟨0x03000000, 10, 0, 2, 9, 255, 8, 2, false, 7, false, 0⟩) ∧
    decodeTableWord 96 0x0007FFFFFFFB8186 = some (.nop ⟨0, 0, 0, 0, 255, 255, 255, 255, false, 7, false, 0⟩) := by decide +kernel

/-- Opcodes that no class assigns decode to nothing: the first after each class, and class 0xF. -/
theorem test_decode_unassigned :
    [0x010, 0x051, 0x089, 0x0CA, 0x109, 0x146, 0x18E, 0x1C9, 0x20C, 0x248, 0x28A, 0x2C3, 0x308, 0x343, 0x389, 0x3C0].all
      (fun w => (decodeTableWord 96 w).isNone) = true := by decide +kernel

/-! ## Ill-formed words: one for each check of WellFormed -/

theorem test_wellFormed_ok : WellFormed (.add (fieldsOf 0 0 0 0 255 32 16 0)) := by decide +kernel
/-- R40, R75: a pair at 255, an odd pair, a predicate beyond 7; an unused register field may be anything. -/
theorem test_wellFormed_fields :
    WellFormed (.add (fieldsOf 0 0 0 0 0 32 16 0)) ∧ ¬ WellFormed (.add (fieldsOf 0 0 2 2 255 32 255 0)) ∧
    ¬ WellFormed (.add (fieldsOf 0 0 2 2 255 32 17 0)) ∧
    ¬ WellFormed (.cmp (fieldsOf 0 0 0 0 255 32 16 8)) := by decide +kernel
/-- R42: a pair of types that the opcode does not list; R93: a number that MOVS does not. -/
theorem test_wellFormed_types :
    ¬ WellFormed (.add (fieldsOf 0 0 8 8 255 32 16 0)) ∧ ¬ WellFormed (.add (fieldsOf 0 0 0 1 255 32 16 0)) ∧
    ¬ WellFormed (.movs (fieldsOf 0 0 0 0 255 255 26 0)) := by decide +kernel
/-- R43–R47: modifier bits and imm32 where the word has no use for them, class by class. -/
theorem test_wellFormed_modifiers :
    [Instr.add (fieldsOf 1 0 0 0 255 32 16 0), .shl (fieldsOf 0 2 0 0 255 32 16 0), .mov (fieldsOf 0 16 0 0 255 255 16 0),
     .fadd (fieldsOf 0x80000000 0 8 8 255 32 16 0), .frcp (fieldsOf 4 0 8 8 255 255 16 0), .cvti (fieldsOf 0x100 0 8 0 0 255 16 0),
     .nop (fieldsOf 1 0 0 0 255 255 255 255), .elect (fieldsOf 1 0 0 0 255 255 255 1), .ld (fieldsOf 0x80000000 0 0 0 255 255 16 0),
     .hhatt (fieldsOf 1 0 0 0 255 255 255 255), .resume (fieldsOf 1 0 0 0 255 255 255 255)].all (fun i => !i.wellFormed) = true := by
  decide +kernel
/-- R46: k15 as a produce key. -/
theorem test_wellFormed_key : ¬ WellFormed (.ld (fieldsOf 0 0 0 15 255 255 16 0)) := by decide +kernel
/-- A form of an opcode under the name of another. -/
theorem test_wellFormed_rows :
    ¬ WellFormed (.atom (fieldsOf 0 10 0 0 48 32 16 0)) ∧ ¬ WellFormed (.cctlWb2 (fieldsOf 0 0 0 0 255 32 16 255)) ∧
    ¬ WellFormed (.obarrHold (fieldsOf 0 4 0 0 255 255 16 255)) := by decide +kernel

/-! ## Single steps, with results worked out from the spec's rules and its examples -/

/-- The thread after one instruction, from values in its registers. -/
def after (i : Instr) (l : List (Nat × Word)) : Thread :=
  match exec i (worldT (withRegs l)) with | .next t => (t.thread? ⟨0, 0, 0⟩).getD thr | _ => thr
/-- The value that w8 will hold. -/
def w8 (i : Instr) (l : List (Nat × Word)) : Word := (after i l).w.getD 8 0
/-- The values that w8 and w9 will hold. -/
def x8 (i : Instr) (l : List (Nat × Word)) : Word × Word := ((after i l).w.getD 9 0, (after i l).w.getD 8 0)
/-- The tracked registers and predicates. -/
def tracked8 (i : Instr) (l : List (Nat × Word)) : List (Nat × Word) := (after i l).tracked.flatMap (·.regs)
def p1 (i : Instr) (l : List (Nat × Word)) : Bool := (after i l).p.getD 1 false
/-- An instruction that reads w16, w32 and w48 and writes w8, with types and modifiers. -/
def abc (imm m ts td : Nat) : Fields := fieldsOf imm m ts td 48 32 16 8

/-- R79 with its table of lane results; the most negative number; R80's carries; R81, R82 and R83. -/
theorem test_integer :
    w8 (.add (abc 0 0 6 6)) [(16, 0x7F0180FF), (32, 0x0101FF01)] = 0x80027F00 ∧
    w8 (.add (abc 0 1 6 6)) [(16, 0x7F0180FF), (32, 0x0101FF01)] = 0x7F028000 ∧
    w8 (.add (abc 0 1 7 7)) [(16, 0x7F0180FF), (32, 0x0101FF01)] = 0x8002FFFF ∧
    w8 (.sub (abc 0 0 0 0)) [(16, 3), (32, 5)] = 0xFFFFFFFE ∧ w8 (.mul (abc 0 1 0 0)) [(16, 0x10000), (32, 0x10000)] = 0x7FFFFFFF ∧
    w8 (.mulh (abc 0 0 0 0)) [(16, 0xFFFFFFFF), (32, 2)] = 0xFFFFFFFF ∧ w8 (.mulh (abc 0 0 1 1)) [(16, 0xFFFFFFFF), (32, 2)] = 1 ∧
    w8 (.mad (abc 0 0 0 0)) [(16, 3), (32, 5), (48, 7)] = 22 ∧
    x8 (.madw (abc 0 0 0 2)) [(16, 0xFFFFFFFF), (32, 1)] = (0xFFFFFFFF, 0xFFFFFFFF) ∧
    w8 (.abs (abc 0 0 0 0)) [(16, 0x80000000)] = 0x80000000 ∧ w8 (.abs (abc 0 1 0 0)) [(16, 0x80000000)] = 0x7FFFFFFF ∧
    w8 (.neg (abc 0 0 0 0)) [(16, 1)] = 0xFFFFFFFF ∧ w8 (.min (abc 0 0 0 0)) [(16, 0xFFFFFFFF), (32, 1)] = 0xFFFFFFFF ∧
    w8 (.max (abc 0 0 1 1)) [(16, 0xFFFFFFFF), (32, 1)] = 0xFFFFFFFF ∧ w8 (.clamp (abc 0 0 0 0)) [(16, 5), (32, 9), (48, 7)] = 7 ∧
    x8 (.lea (abc 0 3 0 3)) [(17, 1), (16, 8), (32, 0xFFFFFFFF)] = (1, 0) ∧
    w8 (.sad (abc 0 0 7 7)) [(16, 0x01020304), (32, 0x04030201), (48, 10)] = 18 := by decide +kernel

/-- R80: the carry out of ADDC and the borrow out of SUBB; naming p7 adds one. R84: signed and natural. -/
theorem test_carry_and_compare :
    (let t := after (.addc (fieldsOf 0 0 0 0 1 32 16 8)) [(16, 0xFFFFFFFF), (32, 1)]; t.w.getD 8 9 = 0 ∧ t.p.getD 1 false = true) ∧
    w8 (.addc (fieldsOf 0 0 0 0 7 32 16 8)) [(16, 1), (32, 1)] = 3 ∧
    (let t := after (.subb (fieldsOf 0 0 0 0 1 32 16 8)) [(16, 0), (32, 1)]; t.w.getD 8 9 = 0xFFFFFFFF ∧ t.p.getD 1 false = true) ∧
    p1 (.cmp (fieldsOf 0 2 0 0 255 32 16 1)) [(16, 0xFFFFFFFF), (32, 1)] = true ∧
    p1 (.cmp (fieldsOf 0 2 1 1 255 32 16 1)) [(16, 0xFFFFFFFF), (32, 1)] = false := by decide +kernel

/-- R86–R91, with the table of R87 and the unchanged selection of R91. -/
theorem test_logic :
    w8 (.and (abc 0 0 0 0)) [(16, 12), (32, 10)] = 8 ∧ w8 (.or (abc 0 0 0 0)) [(16, 12), (32, 10)] = 14 ∧
    w8 (.xor (abc 0 0 0 0)) [(16, 12), (32, 10)] = 6 ∧ w8 (.andn (abc 0 0 0 0)) [(16, 12), (32, 10)] = 4 ∧
    w8 (.not (abc 0 0 0 0)) [(16, 12)] = 0xFFFFFFF3 ∧ w8 (.shl (abc 0 0 0 0)) [(16, 1), (32, 32)] = 0 ∧
    w8 (.sar (abc 0 0 0 0)) [(16, 0x80000000), (32, 40)] = 0xFFFFFFFF ∧
    w8 (.sar (abc 0 1 0 0)) [(16, 0x80000000), (32, 40)] = 0xFF800000 ∧ w8 (.shr (abc 0 0 1 1)) [(16, 0x80000000), (32, 40)] = 0 ∧
    w8 (.rot (abc 0 0 0 0)) [(16, 0x80000001), (32, 33)] = 3 ∧
    w8 (.funl (abc 0 0 0 0)) [(16, 0x80000000), (32, 1), (48, 1)] = 3 ∧ w8 (.funl (abc 0 1 0 0)) [(16, 2), (32, 1), (48, 1)] = 0x80000001 ∧
    w8 (.bfx (abc 0 0 0 0)) [(16, 0xF0), (32, 0x0404)] = 0xFFFFFFFF ∧ w8 (.bfx (abc 0 0 1 1)) [(16, 0xF0), (32, 0x0404)] = 0xF ∧
    w8 (.bfi (abc 0 0 0 0)) [(16, 5), (32, 0xFFFF), (48, 0x0404)] = 0xFF5F ∧ w8 (.popc (abc 0 0 0 0)) [(16, 0xF1)] = 5 ∧
    w8 (.clz (abc 0 0 0 0)) [(16, 0)] = 32 ∧ w8 (.clz (abc 0 0 0 0)) [(16, 1)] = 31 ∧ w8 (.brev (abc 0 0 0 0)) [(16, 1)] = 0x80000000 ∧
    w8 (.bytp (abc 0 0 0 0)) [(16, 0x44332211), (32, 0x88776655), (48, 0x3210)] = 0x44332211 ∧
    w8 (.bytp (abc 0 0 0 0)) [(16, 0x44332211), (32, 0x88776655), (48, 0x07F4)] = 0x1188FF55 ∧
    w8 (.log3 (abc 0xE8 0 0 0)) [(16, 12), (32, 10), (48, 6)] = 14 := by decide +kernel

/-- R93–R96. -/
theorem test_move :
    w8 (.mov (abc 0 0 0 0)) [(16, 7)] = 7 ∧ x8 (.movi (fieldsOf 0xFFFFFFFE 0 2 2 255 255 255 8)) [] = (0xFFFFFFFF, 0xFFFFFFFE) ∧
    w8 (.sel (fieldsOf 0 0 0 0 7 32 16 8)) [(16, 1), (32, 2)] = 1 ∧ w8 (.sel (fieldsOf 0 0 0 0 0 32 16 8)) [(16, 1), (32, 2)] = 2 ∧
    p1 (.plog (fieldsOf 0x80 0 0 0 7 7 7 1)) [] = true ∧ w8 (.p2w (fieldsOf 0 0 0 0 255 255 255 8)) [] = 0x80 ∧
    (after (.w2p (fieldsOf 0 0 0 0 255 32 16 255)) [(16, 0xFF), (32, 0x02)]).p = [false, true, false, false, false, false, false] ∧
    tracked8 (.movs (fieldsOf 0 0 0 0 255 255 0 8)) [] = [(8, 0)] := by decide +kernel

/-- R98–R103: rounding, −0, NaN, and the classes of R102. -/
theorem test_float :
    w8 (.fadd (abc 0 0 8 8)) [(16, 0x3F800000), (32, 0x33800000)] = 0x3F800000 ∧
    w8 (.fadd (abc 0 3 8 8)) [(16, 0x3F800000), (32, 0x33800000)] = 0x3F800001 ∧
    w8 (.fsub (abc 0 0 8 8)) [(16, 0x3F800000), (32, 0x3F800000)] = 0 ∧ w8 (.fsub (abc 0 2 8 8)) [(16, 0x3F800000), (32, 0x3F800000)] = 0x80000000 ∧
    w8 (.fmul (abc 0 0 8 8)) [(16, 0x7F800000), (32, 0)] = 0x7FC00000 ∧ w8 (.fmul (abc 4 0 8 8)) [(16, 0x40000000), (32, 0x40400000)] = 0xC0C00000 ∧
    w8 (.ffma (abc 0 0 8 8)) [(16, 0x40000000), (32, 0x40400000), (48, 0x3F800000)] = 0x40E00000 ∧
    w8 (.fmin (abc 0 0 8 8)) [(16, 0), (32, 0x80000000)] = 0x80000000 ∧ w8 (.fmax (abc 0 0 8 8)) [(16, 0x7FC00000), (32, 0x3F800000)] = 0x3F800000 ∧
    p1 (.fcmp (fieldsOf 0 0 8 8 1 32 16 1)) [(16, 0x7FC00000)] = true ∧ p1 (.fcmp (fieldsOf 0 0 8 8 0 32 16 1)) [(16, 0x80000000)] = true ∧
    w8 (.frnd (abc 0 0 8 8)) [(16, 0xBECCCCCD)] = 0x80000000 ∧ p1 (.fcls (fieldsOf 0 0 8 8 255 32 16 1)) [(16, 0x80000000), (32, 8)] = true ∧
    w8 (.fdot2 (abc 0 0 10 8)) [(16, 0x3C003C00), (32, 0x3C003C00), (48, 0x3F800000)] = 0x40400000 := by decide +kernel

/-- R105: special operands and exact results. -/
theorem test_special :
    tracked8 (.frcp (fieldsOf 0 0 8 8 255 255 16 8)) [(16, 0x80000000)] = [(8, 0xFF800000)] ∧
    tracked8 (.frsq (fieldsOf 0 0 8 8 255 255 16 8)) [(16, 0x40800000)] = [(8, 0x3F000000)] ∧
    tracked8 (.fsqrt (fieldsOf 0 0 8 8 255 255 16 8)) [(16, 0x80000000)] = [(8, 0x80000000)] ∧
    tracked8 (.fex2 (fieldsOf 0 0 8 8 255 255 16 8)) [(16, 0x40400000)] = [(8, 0x41000000)] ∧
    tracked8 (.flg2 (fieldsOf 0 0 8 8 255 255 16 8)) [(16, 0x3F800000)] = [(8, 0)] ∧
    tracked8 (.fsin (fieldsOf 0 0 8 8 255 255 16 8)) [(16, 0x7F800000)] = [(8, 0x7FC00000)] ∧
    tracked8 (.fcos (fieldsOf 0 0 8 8 255 255 16 8)) [(16, 0)] = [(8, 0x3F800000)] ∧
    tracked8 (.fdiv (fieldsOf 0 0 8 8 255 32 16 8)) [(16, 0x3F800000), (32, 0x40000000)] = [(8, 0x3F000000)] ∧
    tracked8 (.ftanh (fieldsOf 0 0 8 8 255 255 16 8)) [(16, 0xFF800000)] = [(8, 0xBF800000)] := by decide +kernel

/-- R107–R111: the examples of R108 and R109, and the block of R71. -/
theorem test_convert :
    w8 (.cvt (fieldsOf 0 0 0 2 0 255 16 8)) [(16, 0xFFFFFFFF)] = 0xFFFFFFFF ∧
    x8 (.cvt (fieldsOf 0 0 8 9 0 255 16 8)) [(16, 0x3F800000)] = (0x3FF00000, 0) ∧
    w8 (.cvti (fieldsOf 0 0 8 0 0 255 16 8)) [(16, 0xC0200000)] = 0xFFFFFFFE ∧ w8 (.cvti (fieldsOf 0 2 8 0 0 255 16 8)) [(16, 0xC0200000)] = 0xFFFFFFFD ∧
    w8 (.cvti (fieldsOf 0 0 8 0 0 255 16 8)) [(16, 0x7FC00000)] = 0 ∧ w8 (.cvtf (fieldsOf 0 0 0 8 0 255 16 8)) [(16, 0xFFFFFFFF)] = 0xBF800000 ∧
    w8 (.pack (fieldsOf 0 0 8 12 1 18 16 8)) [(16, 0x3F800000), (17, 0xC0200000), (18, 0x447A0000), (19, 0x7FC00000)] = 0x7F7EC238 ∧
    w8 (.pack (fieldsOf 0 0 8 12 0 18 16 8)) [(16, 0x3F800000), (17, 0xC0200000), (18, 0x447A0000), (19, 0x7FC00000)] = 0x7F7FC238 ∧
    x8 (.unpk (fieldsOf 0 0 10 8 0 255 16 8)) [(16, 0xC1003C00)] = (0xC0200000, 0x3F800000) ∧
    x8 (.qblk (fieldsOf 0 0 8 14 0 32 16 8)) [(16, 0x3F400000), (17, 0xBFA00000), (18, 0x40380000), (19, 0), (20, 0x3D800000), (21, 0xC0C80000),
      (22, 0x40480000), (23, 0x3F800000), (32, 0x3F80)] = (0x62, 0x25F005A1) := by decide +kernel

/-- ctl.trapcause of core 0 after one instruction of `thr`. -/
def causeOf (i : Instr) (g : Thread → Thread) : Word :=
  match exec i (worldT g) with | .next t => (t.core 0).trapcause | _ => 0xFFFFFFFF
/-- The codes of R312, for causes that one word raises. -/
theorem test_traps :
    causeOf (.brx (fieldsOf 0 0 0 0 255 255 16 255)) (withRegs [(16, 0x1001)]) = 0x03 ∧
    causeOf (.add (fieldsOf 1 0 0 0 255 32 16 8)) id = 0x04 ∧ causeOf (.halt (fieldsOf 0 0 0 0 255 255 255 255)) id = 0x06 ∧
    causeOf (.trap (fieldsOf 0 0 0 0 255 255 255 255)) id = 0x07 ∧ causeOf (.bkpt (fieldsOf 0 0 0 0 255 255 255 255)) id = 0x08 ∧
    causeOf (.ld (fieldsOf 0 2 0 0 255 255 16 8)) (withRegs [(16, 2)]) = 0x09 ∧
    causeOf (.ld (fieldsOf 0 2 0 0 255 255 16 8)) (withRegs [(17, 0x20000000)]) = 0x0B ∧
    causeOf (.ld (fieldsOf 0 2 0 0 255 255 16 8)) (withRegs [(17, 0xC0000000)]) = 0x0D ∧
    causeOf (.ld (fieldsOf 0 2 0 15 255 255 16 8)) id = 0x12 ∧
    causeOf (.add (fieldsOf 0 0 0 0 255 32 16 8)) (fun t => { t with marks := [(16, .poolLost)] }) = 0x14 ∧
    causeOf (.call (fieldsOf 0 0 0 0 255 255 255 255)) (calling [0x1000, 0x1000, 0x1000, 0x1000] spillLimit) = 0x16 := by decide +kernel

/-- R48, R113–R115: the program counter and the call stack. -/
theorem test_transfers :
    (after (.bra (fieldsOf 0 0 0 0 255 255 255 255)) []).pc = 0x1000 ∧
    (let t := after (.call (fieldsOf 0 0 0 0 255 255 255 255)) []; t.pc = 0x1000 ∧ t.calls = [0x1001]) ∧
    (match exec (.ret (fieldsOf 0 0 0 0 255 255 255 255)) (worldT (calling [0x1000] spillBase)) with
     | .next t => (t.thread? ⟨0, 0, 0⟩).any (fun x => x.pc == 0x1000 && x.calls == []) | _ => false) = true ∧
    (match exec (.exit (fieldsOf 0 0 0 0 255 255 255 255)) world with
     | .next t => (t.thread? ⟨0, 0, 0⟩).isNone | _ => false) = true := by decide +kernel

/-- R212, R5: what a store and an atomic leave in memory, and what a load binds, lowest byte first. -/
theorem test_accesses :
    (let a := accOf .st .accepted .direct (hallBase 0 0) 4
     (applyStore { a with data := [1, 2, 3, 4] } (accWorld a)).readLe (hallBase 0 0) 4 = 0x04030201) ∧
    loadWords 4 false [1, 2, 3, 4] = [0x04030201] ∧ loadWords 1 true [0x80] = [0xFFFFFF80] ∧ loadWords 1 false [0x80] = [0x80] ∧
    loadWords 8 false [1, 0, 0, 0, 2, 0, 0, 0] = [1, 2] := by decide +kernel

/-- R360: the last bytes of a pool segment, bytes beyond it, and a segment that no port is bound to. -/
theorem test_pool_bounds :
    let x : Segment := ⟨5, 0, 0, 65536, false, false, []⟩
    let s : State := { world with tabs := { world.tabs with segs := [x] } }
    (match s.resolvePage 1 0xFFFC 4 (.pool 0 5) rightsR anyFmt with | .ok p => p.base == poolBase 0 | _ => false) = true ∧
    s.resolvePage 1 0x10000 4 (.pool 0 5) rightsR anyFmt = .space ∧ s.resolvePage 1 0 4 (.pool 0 6) rightsR anyFmt = .space := by
  decide +kernel

/-- FIPS 202's SHAKE256 of no bytes, its first 32 bytes (R383). -/
theorem test_shake256 : bytesOf 32 (shake256 []).toNat =
    [0x46, 0xB9, 0xDD, 0x2B, 0x0B, 0xA8, 0x8D, 0x13, 0x23, 0x3B, 0x3F, 0xEB, 0x74, 0x3E, 0xEB, 0x24,
     0x3F, 0xCD, 0x52, 0xEA, 0x62, 0xB8, 0x1B, 0x82, 0xB5, 0x0C, 0x27, 0x64, 0x6E, 0xD5, 0x76, 0x2F] := by decide +kernel

/-- R382: the first step after reset waits for the boot ROM's turn, and the second finishes stage 1. -/
theorem test_reset_steps :
    (match step State.reset with
     | .next t => (match step t with | .next u => u.boot.stage == 1 && u.agenda == [.bootStage] | _ => false)
     | _ => false) = true := by decide +kernel

/-- A word placed by withFetchWord is the first that the next step runs (log 1, DESIGN CHOICE): NOP and ADD complete; an opcode of class 0xE traps. -/
theorem test_first_word :
    (match step (State.reset.withFetchWord 96 0x0007FFFFFFFB8186) with | .next t => (t.core 0).trapcause == 0 | _ => false) = true ∧
    (match step (State.reset.withFetchWord 96 0x0007FFFFFFFB8387) with | .next t => (t.core 0).trapcause == 6 | _ => false) = true := by
  decide +kernel

end Sys2Proof.Tests
end

section
/-! PROOFS. Memory under every instruction and every step (R5): what the instructions that store nothing leave, and that a step keeps the
canonical form. -/

namespace Sys2Proof.Proofs

open Sys2Proof.Machine Sys2Proof.Safety Sys2Proof.Laws

/-! ## One instruction -/

/-- An instruction that stores nothing keeps whatever holds of the memory. -/
theorem exec_keeps_of_storesNothing {Q : List Host.Cell → Prop} {s : State} (h : Q s.mem) {i : Instr} (hs : storesMemory i = false) :
    OutKeeps Q (exec i s) := by
  cases i with
  | add f => exact execAdd_keeps h f
  | sub f => exact execSub_keeps h f
  | addc f => exact execAddc_keeps h f
  | subb f => exact execSubb_keeps h f
  | mul f => exact execMul_keeps h f
  | mulh f => exact execMulh_keeps h f
  | mad f => exact execMad_keeps h f
  | madw f => exact execMadw_keeps h f
  | abs f => exact execAbs_keeps h f
  | neg f => exact execNeg_keeps h f
  | min f => exact execMin_keeps h f
  | max f => exact execMax_keeps h f
  | clamp f => exact execClamp_keeps h f
  | lea f => exact execLea_keeps h f
  | sad f => exact execSad_keeps h f
  | cmp f => exact execCmp_keeps h f
  | and f => exact execAnd_keeps h f
  | or f => exact execOr_keeps h f
  | xor f => exact execXor_keeps h f
  | andn f => exact execAndn_keeps h f
  | not f => exact execNot_keeps h f
  | shl f => exact execShl_keeps h f
  | shr f => exact execShr_keeps h f
  | sar f => exact execSar_keeps h f
  | rot f => exact execRot_keeps h f
  | funl f => exact execFunl_keeps h f
  | bfx f => exact execBfx_keeps h f
  | bfi f => exact execBfi_keeps h f
  | popc f => exact execPopc_keeps h f
  | clz f => exact execClz_keeps h f
  | brev f => exact execBrev_keeps h f
  | bytp f => exact execBytp_keeps h f
  | log3 f => exact execLog3_keeps h f
  | mov f => exact execMov_keeps h f
  | movi f => exact execMovi_keeps h f
  | sel f => exact execSel_keeps h f
  | movs f => exact execMovs_keeps h f
  | plog f => exact execPlog_keeps h f
  | p2w f => exact execP2w_keeps h f
  | w2p f => exact execW2p_keeps h f
  | rdu f => exact execRdu_keeps h f
  | wru f => exact execWru_keeps h f
  | fadd f => exact execFadd_keeps h f
  | fsub f => exact execFsub_keeps h f
  | fmul f => exact execFmul_keeps h f
  | ffma f => exact execFfma_keeps h f
  | fmin f => exact execFmin_keeps h f
  | fmax f => exact execFmax_keeps h f
  | fcmp f => exact execFcmp_keeps h f
  | frnd f => exact execFrnd_keeps h f
  | fcls f => exact execFcls_keeps h f
  | fdot2 f => exact execFdot2_keeps h f
  | frcp f => exact execFrcp_keeps h f
  | frsq f => exact execFrsq_keeps h f
  | fsqrt f => exact execFsqrt_keeps h f
  | fex2 f => exact execFex2_keeps h f
  | flg2 f => exact execFlg2_keeps h f
  | fsin f => exact execFsin_keeps h f
  | fcos f => exact execFcos_keeps h f
  | fdiv f => exact execFdiv_keeps h f
  | ftanh f => exact execFtanh_keeps h f
  | cvt f => exact execCvt_keeps h f
  | cvti f => exact execCvti_keeps h f
  | cvtf f => exact execCvtf_keeps h f
  | pack f => exact execPack_keeps h f
  | unpk f => exact execUnpk_keeps h f
  | qblk f => exact execQblk_keeps h f
  | bra f => exact execBra_keeps h f
  | brx f => exact execBrx_keeps h f
  | ret f => exact execRet_keeps h f
  | exit f => exact execExit_keeps h f
  | nop f => exact execNop_keeps h f
  | rep f => exact execRep_keeps h f
  | repRepetition f => exact execRepRepetition_keeps h f
  | rjset f => exact execRjset_keeps h f
  | rjwait f => exact execRjwait_keeps h f
  | yield f => exact execYield_keeps h f
  | sleep f => exact execSleep_keeps h f
  | bkpt f => exact execBkpt_keeps h f
  | trap f => exact execTrap_keeps h f
  | shfl f => exact execShfl_keeps h f
  | vote f => exact execVote_keeps h f
  | wred f => exact execWred_keeps h f
  | matchLanes f => exact execMatchLanes_keeps h f
  | elect f => exact execElect_keeps h f
  | wsync f => exact execWsync_keeps h f
  | barb f => exact execBarb_keeps h f
  | barg f => exact execBarg_keeps h f
  | barh f => exact execBarh_keeps h f
  | ld f => exact execLd_keeps h f
  | st f => exact execSt_keeps h f
  | ldr f => exact execLdr_keeps h f
  | ldd f => exact execLdd_keeps h f
  | std f => exact execStd_keeps h f
  | ldt f => exact execLdt_keeps h f
  | stt f => exact execStt_keeps h f
  | atom f => exact execAtom_keeps h f
  | atomCas f => exact execAtomCas_keeps h f
  | red f => exact execRed_keeps h f
  | pref f => exact execPref_keeps h f
  | cctlInv1 f => exact execCctlInv1_keeps h f
  | cctlInv1all f => exact execCctlInv1all_keeps h f
  | cctlWb2 f => exact execCctlWb2_keeps h f
  | cctlEvict2 f => exact execCctlEvict2_keeps h f
  | pgreq f => exact execPgreq_keeps h f
  | kjoin f => exact execKjoin_keeps h f
  | kcopy f => exact execKcopy_keeps h f
  | kwait f => exact execKwait_keeps h f
  | ktest f => exact execKtest_keeps h f
  | fence f => exact execFence_keeps h f
  | ksend f => exact execKsend_keeps h f
  | krecv f => exact execKrecv_keeps h f
  | kclr f => exact execKclr_keeps h f
  | obwait f => exact execObwait_keeps h f
  | coll f => exact execColl_keeps h f
  | post f => exact execPost_keeps h f
  | spawn f => exact execSpawn_keeps h f
  | mbsend f => exact execMbsend_keeps h f
  | mbrecv f => exact execMbrecv_keeps h f
  | mbstat f => exact execMbstat_keeps h f
  | chseq f => exact execChseq_keeps h f
  | glaunch f => exact execGlaunch_keeps h f
  | hhatt f => exact execHhatt_keeps h f
  | hhdet f => exact execHhdet_keeps h f
  | hhstat f => exact execHhstat_keeps h f
  | ctlr f => exact execCtlr_keeps h f
  | ctlw f => exact execCtlw_keeps h f
  | resume f => exact execResume_keeps h f
  | killw f => exact execKillw_keeps h f
  | snapr f => exact execSnapr_keeps h f
  | snapw f => exact execSnapw_keeps h f
  | halt f => exact execHalt_keeps h f
  | sysc f => exact execSysc_keeps h f
  | issueGroup core picker => exact execIssueGroup_keeps h core picker
  | trackedResultWrite r id => exact execTrackedResultWrite_keeps h r id
  | lineFetch r => exact execLineFetch_keeps h r
  | fetchParityRetry r => exact execFetchParityRetry_keeps h r
  | coreSelfTest core pass => exact execCoreSelfTest_keeps h core pass
  | barrierRelease r => exact execBarrierRelease_keeps h r
  | sleepExpire r => exact execSleepExpire_keeps h r
  | homeResolve id => exact execHomeResolve_keeps h id
  | accessAccept id => exact execAccessAccept_keeps h id
  | accessFailure id cause => exact execAccessFailure_keeps h id cause
  | faultFilterForward core ctx page => exact execFaultFilterForward_keeps h core ctx page
  | clusterStageForward cluster ctx page => exact execClusterStageForward_keeps h cluster ctx page
  | pageRequestGroup pasid page => exact execPageRequestGroup_keeps h pasid page
  | pageResidentRelease ctx page => exact execPageResidentRelease_keeps h ctx page
  | invalidateCompletion pasid lo hi => exact execInvalidateCompletion_keeps h pasid lo hi
  | retireSweepEnd ctx => exact execRetireSweepEnd_keeps h ctx
  | ksendMarker id point => exact execKsendMarker_keeps h id point
  | ksendNotice id point => exact execKsendNotice_keeps h id point
  | arrivalDelivery id => exact execArrivalDelivery_keeps h id
  | copyLineAccept id line => exact execCopyLineAccept_keeps h id line
  | copyRetire id => exact execCopyRetire_keeps h id
  | mmaSliceWrite id => exact execMmaSliceWrite_keeps h id
  | postArrival id => exact execPostArrival_keeps h id
  | admissionDecision die => exact execAdmissionDecision_keeps h die
  | ageing die item => exact execAgeing_keeps h die item
  | householdSequenceNumber item => exact execHouseholdSequenceNumber_keeps h item
  | reservationRequest item die => exact execReservationRequest_keeps h item die
  | holdClear item => exact execHoldClear_keeps h item
  | porchAccept id => exact execPorchAccept_keeps h id
  | porchRefill die => exact execPorchRefill_keeps h die
  | graphNodeEnd graph node => exact execGraphNodeEnd_keeps h graph node
  | graphNodeTask graph node => exact execGraphNodeTask_keeps h graph node
  | graphNodeCondition graph node => exact execGraphNodeCondition_keeps h graph node
  | graphNodeWhile graph node => exact execGraphNodeWhile_keeps h graph node
  | graphNodeJoin graph node => exact execGraphNodeJoin_keeps h graph node
  | graphPostRetry graph node => exact execGraphPostRetry_keeps h graph node
  | graphTaskComplete graph task => exact execGraphTaskComplete_keeps h graph task
  | trapWarpStart core => exact execTrapWarpStart_keeps h core
  | watchdog gang => exact execWatchdog_keeps h gang
  | preemptHoldTimeout die => exact execPreemptHoldTimeout_keeps h die
  | preemptDrainEnd gang => exact execPreemptDrainEnd_keeps h gang
  | transientRequest req => exact execTransientRequest_keeps h req
  | transientAttemptTimeout req => exact execTransientAttemptTimeout_keeps h req
  | transientEscalation req => exact execTransientEscalation_keeps h req
  | transientAnswer req holder => exact execTransientAnswer_keeps h req holder
  | tokenMessageReceive msg => exact execTokenMessageReceive_keeps h msg
  | persistentRequest req => exact execPersistentRequest_keeps h req
  | persistentTableEntry line holder => exact execPersistentTableEntry_keeps h line holder
  | persistentCompletion line => exact execPersistentCompletion_keeps h line
  | evictionAck die line => exact execEvictionAck_keeps h die line
  | migrationClaim move => exact execMigrationClaim_keeps h move
  | migrationSwitch move => exact execMigrationSwitch_keeps h move
  | migrationAbandon move => exact execMigrationAbandon_keeps h move
  | linkWake link => exact execLinkWake_keeps h link
  | linkWakeComplete link => exact execLinkWakeComplete_keeps h link
  | linkWakeLate link => exact execLinkWakeLate_keeps h link
  | tokenRecreation line => exact execTokenRecreation_keeps h line
  | afrikGrant dev => exact execAfrikGrant_keeps h dev
  | bridgeReadRequest id => exact execBridgeReadRequest_keeps h id
  | bridgeWriteRedirect id => exact execBridgeWriteRedirect_keeps h id
  | bridgeRecall line => exact execBridgeRecall_keeps h line
  | hostLineFetch line own => exact execHostLineFetch_keeps h line own
  | dirtyEvict line => exact execDirtyEvict_keeps h line
  | attachNotice gang core => exact execAttachNotice_keeps h gang core
  | detachNotice gang core => exact execDetachNotice_keeps h gang core
  | detachComplete gang => exact execDetachComplete_keeps h gang
  | atsTranslationCompletion ctx page reply => exact execAtsTranslationCompletion_keeps h ctx page reply
  | prgResponseSuccess pasid page => exact execPrgResponseSuccess_keeps h pasid page
  | prgResponseInvalidRequest pasid page => exact execPrgResponseInvalidRequest_keeps h pasid page
  | prgResponseFailure pasid page => exact execPrgResponseFailure_keeps h pasid page
  | atsInvalidateRequest pasid lo hi => exact execAtsInvalidateRequest_keeps h pasid lo hi
  | contextBind ctx pasid => exact execContextBind_keeps h ctx pasid
  | contextUnbind ctx => exact execContextUnbind_keeps h ctx
  | bufferEntryChange ctx idx entry => exact execBufferEntryChange_keeps h ctx idx entry
  | homeWindowWrite ctx win entry => exact execHomeWindowWrite_keeps h ctx win entry
  | attributeEntryWrite ctx page entry => exact execAttributeEntryWrite_keeps h ctx page entry
  | hostDoorbell die queue ctx card => exact execHostDoorbell_keeps h die queue ctx card
  | correctableError unit => exact execCorrectableError_keeps h unit
  | uncorrectableError site => exact execUncorrectableError_keeps h site
  | preemptRequest ctx => exact execPreemptRequest_keeps h ctx
  | l2Eviction die line => exact execL2Eviction_keeps h die line
  | migrationDriverRequest ctx page up => exact execMigrationDriverRequest_keeps h ctx page up
  | linkSleep link => exact execLinkSleep_keeps h link
  | flitCrcFailure link => exact execFlitCrcFailure_keeps h link
  | afrikDemand dev bytes => exact execAfrikDemand_keeps h dev bytes
  | moduleLost dev => exact execModuleLost_keeps h dev
  | hostReadNoCache line half => exact execHostReadNoCache_keeps h line half
  | hostReadShared line half => exact execHostReadShared_keeps h line half
  | hostReadAny line half => exact execHostReadAny_keeps h line half
  | biconflict line half => exact execBiconflict_keeps h line half
  | hostSnoop line inv => exact execHostSnoop_keeps h line inv
  | poolBisnpinv line => exact execPoolBisnpinv_keeps h line
  | poolBisnpdata line => exact execPoolBisnpdata_keeps h line
  | poolPortLost port => exact execPoolPortLost_keeps h port
  | poolSegmentReattach seg => exact execPoolSegmentReattach_keeps h seg
  | measurementExtend reg data => exact execMeasurementExtend_keeps h reg data
  | getVersion => exact execGetVersion_keeps h
  | getCapabilities => exact execGetCapabilities_keeps h
  | negotiateAlgorithms asym hash => exact execNegotiateAlgorithms_keeps h asym hash
  | getDigests slot => exact execGetDigests_keeps h slot
  | getCertificate slot => exact execGetCertificate_keeps h slot
  | challenge slot nonce => exact execChallenge_keeps h slot nonce
  | getMeasurements index sign nonce => exact execGetMeasurements_keeps h index sign nonce
  | spdmUnsupportedRequest code => exact execSpdmUnsupportedRequest_keeps h code
  | lifetimeCommit => exact execLifetimeCommit_keeps h
  | lifetimeClear authorised => exact execLifetimeClear_keeps h authorised
  | managementCoreResume core resume => exact execManagementCoreResume_keeps h core resume
  | priReenable => exact execPriReenable_keeps h
  | poisonScrub line => exact execPoisonScrub_keeps h line
  | frameMapWrite home tpage entry => exact execFrameMapWrite_keeps h home tpage entry
  | poolSegmentBind seg port base len => exact execPoolSegmentBind_keeps h seg port base len
  | moduleReachable dev => exact execModuleReachable_keeps h dev
  | _ => cases hs

/-- The instructions that store keep the canonical form, each by the lemma about its own writes; every other one leaves memory alone. -/
theorem exec_keeps_canonical {s : State} (h : MemCanonical s) {i : Instr} : OutKeeps Wf (exec i s) := by
  cases i with
  | call f => exact execCall_keeps h f
  | callx f => exact execCallx_keeps h f
  | cpy f => exact execCpy_keeps h f
  | cpyb f => exact execCpyb_keeps h f
  | cpyf f => exact execCpyf_keeps h f
  | accld f => exact execAccld_keeps h f
  | accst f => exact execAccst_keeps h f
  | obinit f => exact execObinit_keeps h f
  | obarr f => exact execObarr_keeps h f
  | obarrHold f => exact execObarrHold_keeps h f
  | obexp f => exact execObexp_keeps h f
  | obexpRls f => exact execObexpRls_keeps h f
  | mma f => exact execMma_keeps h f
  | mdrn f => exact execMdrn_keeps h f
  | mzero f => exact execMzero_keeps h f
  | chapp f => exact execChapp_keeps h f
  | rett f => exact execRett_keeps h f
  | loadBind id => exact execLoadBind_keeps h id
  | storePerform id scope => exact execStorePerform_keeps h id scope
  | copyWrite id count => exact execCopyWrite_keeps h id count
  | copyBlockDecode id => exact execCopyBlockDecode_keeps h id
  | cpyfHopForward id => exact execCpyfHopForward_keeps h id
  | operandsConsumed id => exact execOperandsConsumed_keeps h id
  | mdrnDrain id => exact execMdrnDrain_keeps h id
  | enginePerform id => exact execEnginePerform_keeps h id
  | chainEntryRun id => exact execChainEntryRun_keeps h id
  | collCompute id => exact execCollCompute_keeps h id
  | blockDispatch block => exact execBlockDispatch_keeps h block
  | blockEnd block => exact execBlockEnd_keeps h block
  | graphCompletion graph => exact execGraphCompletion_keeps h graph
  | resumeRestore gang => exact execResumeRestore_keeps h gang
  | hearthAtomic id => exact execHearthAtomic_keeps h id
  | maskedWrite id => exact execMaskedWrite_keeps h id
  | migrationCopy move => exact execMigrationCopy_keeps h move
  | bridgeMaskedWrite id => exact execBridgeMaskedWrite_keeps h id
  | bridgeAtomic id => exact execBridgeAtomic_keeps h id
  | poolLineFetch line => exact execPoolLineFetch_keeps h line
  | bootStage => exact execBootStage_keeps h
  | linkRetire link => exact execLinkRetire_keeps h link
  | hostWrite line half st bytes => exact execHostWrite_keeps h line half st bytes
  | poolSegmentUnmap seg => exact execPoolSegmentUnmap_keeps h seg
  | powerGoodReset => exact execPowerGoodReset_keeps h
  | powerTelemetry near temps => exact execPowerTelemetry_keeps h near temps
  | powerLoss => exact execPowerLoss_keeps h
  | _ => exact exec_keeps_of_storesNothing (Q := Wf) h rfl

/-- Settles O54: of an instruction that stores nothing, the property kept is that the memory is the one before. -/
theorem memoryUntouched : Obligations.MemoryUntouched := by
  intro i s t hi ht a
  have hm : t.mem = s.mem := exec_keeps_of_storesNothing (Q := fun m => m = s.mem) rfl hi t ht
  rw [hm]

/-! ## One step -/

theorem outKeeps_fault (Q : List Host.Cell → Prop) (x : Fault) : OutKeeps Q (.fault x) := fun _ e => by cases e

theorem outKeeps_refused (Q : List Host.Cell → Prop) (x : Refusal) : OutKeeps Q (.refused x) := fun _ e => by cases e

@[simp] theorem markLine_mem (r : TRef) (s : State) : (markLine r s).mem = s.mem := rfl

theorem afterMember_keeps {Q : List Host.Cell → Prop} {o : Out} (h : OutKeeps Q o) : OutKeeps Q (afterMember o) := by
  cases o with
  | next s =>
    rw [outKeeps_next] at h
    rw [afterMember, outKeeps_next]
    split
    · rwa [endGroup_mem]
    · exact h
  | fault x => exact outKeeps_fault Q x
  | refused x => exact outKeeps_refused Q x

theorem runMember_keeps_canonical {s : State} (h : MemCanonical s) (r : TRef) (rest : List TRef) : OutKeeps Wf (runMember r rest s) := by
  unfold runMember
  dsimp only
  split
  · exact afterMember_keeps (exec_keeps_canonical (canonical_of_mem h (by rfl)))
  · split
    · exact afterMember_keeps (exec_keeps_canonical (canonical_of_mem h (by rfl)))
    · next t ht => exact afterMember_keeps ((outKeeps_next t).mpr (canonical_of_mem (canonical_of_mem h (by rfl)) (fetchInstr_mem ht)))

theorem executeMember_keeps_canonical {s : State} (h : MemCanonical s) (r : TRef) : OutKeeps Wf (executeMember r s) := by
  unfold executeMember
  split
  · next t ht => exact next_wf h (fetchInstr_mem ht)
  · next i _ =>
    have hi := exec_keeps_canonical (canonical_of_mem h (markLine_mem r s)) (i := i)
    split
    · next t ht =>
      have hw : MemCanonical t := hi t ht
      split
      · exact exec_keeps_canonical (canonical_of_mem hw (by rfl))
      · exact (outKeeps_next t).mpr hw
    · exact hi

theorem unready_canonical {s t : State} {r : TRef} (h : MemCanonical s) (ht : unready r s = some t) : MemCanonical t := by
  unfold unready at ht
  split at ht
  · next u hu =>
    split at ht
    · cases ht
      exact executeMember_keeps_canonical (s := { s with issue := { s.issue with todo := [], cur := r } }) h r t hu
    · cases ht
  · cases ht

theorem asideOf_canonical {s : State} (h : MemCanonical s) (ms : List TRef) : MemCanonical (asideOf s ms).1 := by
  refine foldl_canonical_fst _ (fun x r hx => ?_) ms h
  split
  · next t ht => exact canonical_of_mem (unready_canonical hx ht) (by rfl)
  · exact hx

theorem tryGroup_keeps_canonical {o : Out} (h : OutKeeps Wf o) {k : Nat} : OutKeeps Wf (tryGroup k o) := by
  cases o with
  | next s =>
    have hs : MemCanonical s := h s rfl
    rw [tryGroup, outKeeps_next]
    split
    · exact asideOf_canonical hs s.issue.todo
    · exact hs
  | fault x => exact outKeeps_fault Wf x
  | refused x => exact outKeeps_refused Wf x

theorem stoppedStep_keeps_canonical {s : State} (h : MemCanonical s) : OutKeeps Wf (stoppedStep s) := by
  unfold stoppedStep
  split
  · exact exec_keeps_canonical (canonical_of_mem h (by rfl))
  · split
    · exact outKeeps_fault Wf _
    · split
      · split
        · exact next_wf h rfl
        · exact exec_keeps_canonical (canonical_of_mem h (by rfl))
      · exact (outKeeps_next _).mpr (failTasks_canonical (canonical_of_mem h (by rfl)))

theorem failedStep_keeps_canonical {s : State} (h : MemCanonical s) (stage : Nat) : OutKeeps Wf (failedStep stage s) := by
  unfold failedStep
  split
  · exact exec_keeps_canonical (canonical_of_mem h (by rfl))
  · exact outKeeps_fault Wf _

/-- The cases of a step, in the order in which it looks for what is due: a stopped module, a stopped boot, the next member of a group, the
next event, the next picker, the end of the cycle (log 2). -/
theorem step_keeps_canonical {s : State} (h : MemCanonical s) : OutKeeps Wf (step s) := by
  unfold step
  split
  · exact stoppedStep_keeps_canonical h
  · split
    · exact failedStep_keeps_canonical h _
    · split
      · exact runMember_keeps_canonical h _ _
      · split
        · exact exec_keeps_canonical (canonical_of_mem h (by rfl))
        · split
          · exact tryGroup_keeps_canonical (afterMember_keeps (exec_keeps_canonical (canonical_of_mem h (by rfl))))
          · exact next_wf h (tick_mem _)

/-- Settles O48: whatever a step runs (a member of a group, an event, a picker, the end of a cycle, a stopped module) keeps the form. -/
theorem stepKeepsMemoryCanonical : Obligations.StepKeepsMemoryCanonical :=
  fun _ t h ht => step_keeps_canonical h t ht

/-! ## Reads after writes -/

theorem read_writeBytes_toNat {s : State} (h : MemCanonical s) (loc n v : Nat) {i : Nat} (hi : i < n) :
    (Memory.read (s.writeBytes loc (bytesOf n v)).mem (loc + i)).toNat = v / 256 ^ i % 256 := by
  rw [State.writeBytes, read_writeN_inside h loc _ (by rwa [bytesOf_length]), bytesOf_getD n v i hi, BitVec.toNat_ofNat]

theorem sameOutside_writeBytes {s : State} (h : MemCanonical s) (loc n v : Nat) : SameOutside loc n s (s.writeBytes loc (bytesOf n v)) :=
  fun _ ha => read_writeN_outside h loc _ (by rwa [bytesOf_length])

/-- Settles O53, from the laws of the canonical list of cells. -/
theorem memoryReadWrite : Obligations.MemoryReadWrite := fun _ loc n v h =>
  ⟨readLe_writeBytes h loc n v, fun _ hi => read_writeBytes_toNat h loc n v hi, sameOutside_writeBytes h loc n v,
    writeBytes_canonical h loc _, fun _ hu hs => memory_ext h hu hs⟩

end Sys2Proof.Proofs
end

section
/-! PROOFS. Reads and writes of registers, predicates and uniform registers (R9, R10, R17, R19, R20). -/

namespace Sys2Proof.Proofs

open Sys2Proof.Machine Sys2Proof.Laws

/-- A register just written reads its new value, but for an early read, which may take the value before the write (R20). -/
theorem readW_writeW_same {th : Thread} (hw : th.w.length = 255) (clock n pos due : Nat) (v : Word) {r : Nat} (hr : r < 255) :
    (th.writeW due r v).readW clock n pos r =
      if clock < due ∧ Config.earlyOld n (r + 1024 * pos) = true then th.w.getD r 0 else v := by
  have new : (th.w.set r v).getD r 0 = v := by simp [hw, hr]
  have pending : (th.writeW due r v).early? clock r = if clock < due then some ⟨r, due, th.w.getD r 0⟩ else none := by
    rw [writeW_eq hr, Thread.early?, find_add, if_pos rfl]
  rw [Thread.readW, if_neg (by omega), pending, writeW_eq hr]
  by_cases hc : clock < due
  · simp only [hc, if_true, true_and, new]
  · simp only [hc, if_false, false_and, new]

theorem readP_writeP_same {th : Thread} (hp : th.p.length = 7) (clock n pos due : Nat) (b : Bool) {r : Nat} (hr : r < 7) :
    (th.writeP due r b).readP clock n pos r =
      if clock < due ∧ Config.earlyOld n (256 + r + 1024 * pos) = true then th.p.getD r false else b := by
  have new : (th.p.set r b).getD r false = b := by simp [hp, hr]
  have old : ((if th.p.getD r false then (1 : Word) else 0) != 0) = th.p.getD r false := by cases th.p.getD r false <;> rfl
  have pending : (th.writeP due r b).early? clock (256 + r) =
      if clock < due then some ⟨256 + r, due, if th.p.getD r false then 1 else 0⟩ else none := by
    rw [writeP_eq hr, Thread.early?, find_add, if_pos rfl]
  rw [Thread.readP, if_neg (by omega), pending, writeP_eq hr]
  by_cases hc : clock < due
  · simp only [hc, if_true, true_and, new, old]
  · simp only [hc, if_false, false_and, new]

/-- Once its write is ready, a uniform register reads the value written. -/
theorem readU_writeU_ready {w : Warp} (hu : w.u.length = 63) {clock due : Nat} (hd : due ≤ clock) (n pos : Nat) (v : Word) {r : Nat}
    (hr : r < 63) : (w.writeU due r v).readU clock n pos r = v := by
  rw [Warp.writeU, if_neg (by omega), Warp.readU, if_neg (by omega)]
  dsimp only
  rw [find_add, if_pos rfl, if_neg (by omega)]
  simp [hu, hr]

/-- Settles O50: the register just written by cases on whether the read is early, every other register by the laws of the writes. -/
theorem registerReadWrite : Obligations.RegisterReadWrite := by
  intro th w clock n pos due r v b hw hp hu
  refine ⟨⟨rfl, rfl⟩, ⟨rfl, rfl⟩, ⟨rfl, rfl⟩, fun hr => ⟨fun hd => ?_, ?_⟩, fun hr => ⟨fun hd => ?_, ?_⟩,
    fun hr hd => readU_writeU_ready hu hd n pos v hr,
    fun q hq => ⟨readW_writeW_ne th clock n pos due v hq, readP_writeP_ne th clock n pos due b hq, readU_writeU_ne w clock n pos due v hq⟩,
    fun q => ⟨readP_writeW th clock n pos due r q v, readW_writeP th clock n pos due r q b⟩⟩
  · rw [readW_writeW_same hw _ _ _ _ _ hr, if_neg (by omega)]
  · rw [readW_writeW_same hw _ _ _ _ _ hr]
    split
    · exact .inr rfl
    · exact .inl rfl
  · rw [readP_writeP_same hp _ _ _ _ _ hr, if_neg (by omega)]
  · rw [readP_writeP_same hp _ _ _ _ _ hr]
    split
    · exact .inr rfl
    · exact .inl rfl

end Sys2Proof.Proofs
end

section
/-! PROOFS. How a thread goes on after its word (R14, R18). -/

namespace Sys2Proof.Proofs

open Sys2Proof.Machine Sys2Proof.Safety Sys2Proof.Laws

/-! ## The program counter -/

/-- The line of a program counter is what its slot number is added to. -/
theorem pcLine_add_slot (pc : DWord) : pcLine pc + (pc &&& 63) = pc := by
  have disjoint : pcLine pc &&& (pc &&& 63) = 0#64 := by
    ext i hi
    simp only [pcLine, BitVec.getElem_and, BitVec.getElem_not, BitVec.getElem_zero]
    cases pc[i] <;> cases (63 : DWord)[i] <;> rfl
  rw [BitVec.add_eq_or_of_and_eq_zero _ _ disjoint]
  ext i hi
  simp only [pcLine, BitVec.getElem_or, BitVec.getElem_and, BitVec.getElem_not]
  cases pc[i] <;> cases (63 : DWord)[i] <;> rfl

theorem toNat_and_63 (pc : DWord) : (pc &&& 63).toNat = pc.toNat % 64 := by
  rw [BitVec.toNat_and]
  exact Nat.and_two_pow_sub_one_eq_mod pc.toNat 6

/-- Within a line the next instruction is in the next slot. -/
theorem nextPc_within {pc : DWord} (h : pc.toNat % 64 < 4) : nextPc pc = pc + 1 := if_neg (Nat.not_le.mpr h)

/-- After slot 4 the next instruction is the first of the next line. -/
theorem nextPc_last {pc : DWord} (h : pc.toNat % 64 = 4) : nextPc pc = pc + 60 := by
  have slot : pc &&& 63 = 4 := BitVec.eq_of_toNat_eq ((toNat_and_63 pc).trans h)
  have line : pcLine pc + 4 = pc := slot ▸ pcLine_add_slot pc
  calc nextPc pc = pcLine pc + 64 := if_pos h.ge
    _ = pcLine pc + 4 + 60 := by rw [BitVec.add_assoc]; rfl
    _ = pc + 60 := by rw [line]

/-! ## One thread changed -/

/-- A change of one thread that keeps its place leaves that thread as changed, and everything else as it was. -/
theorem modThread_only {s : State} {r : TRef} {th : Thread} {g : Thread → Thread} (hg : ∀ t, (g t).ref = t.ref) (h : s.thread? r = some th) :
    (s.modThread r g).thread? r = some (g th) ∧ OthersSame r s (s.modThread r g) ∧ (s.modThread r g).warps = s.warps ∧
      (s.modThread r g).cores = s.cores ∧ RestSame s (s.modThread r g) :=
  ⟨by rw [thread?_modThread s hg, h]; rfl, fun _ hq => thread?_modThread_ne s hg hq, rfl, rfl, by simp [RestSame]⟩

theorem advance_ref (th : Thread) : th.advance.ref = th.ref := by
  unfold Thread.advance
  split
  · split <;> rfl
  · rfl

theorem advance_no_rep {th : Thread} (h : th.rep = none) : th.advance = { th with pc := nextPc th.pc, rep := none } := by
  simp only [Thread.advance, h]

theorem advance_repeats {th : Thread} {rp : RepState} (h : th.rep = some rp) (hj : rp.j + 1 < rp.n) :
    th.advance = { th with rep := some { rp with j := rp.j + 1 } } := by
  simp only [Thread.advance, h, if_pos hj]

theorem advance_last_repetition {th : Thread} {rp : RepState} (h : th.rep = some rp) (hj : rp.n ≤ rp.j + 1) :
    th.advance = { th with pc := nextPc th.pc, rep := none } := by
  simp only [Thread.advance, h, if_neg (Nat.not_lt.mpr hj)]

/-- A word that is done leaves its thread advanced and stalled, and everything else as it was. -/
theorem retire_only {s : State} {r : TRef} {th : Thread} (f : Fields) (h : s.thread? r = some th) :
    (retire r f s).thread? r = some (th.advance.stalled s.clock f) ∧ OthersSame r s (retire r f s) ∧ (retire r f s).warps = s.warps ∧
      (retire r f s).cores = s.cores ∧ RestSame s (retire r f s) :=
  modThread_only (g := fun t => t.advance.stalled s.clock f) (fun t => advance_ref t) h

/-- Settles O59: each of the three ways on changes its own thread alone; `advance` and `nextPc` say where that thread goes on. -/
theorem movingOn : Obligations.MovingOn := by
  intro s r f pc th hth
  refine ⟨fun hrep => ?_, fun rp hrep hj => ?_, fun rp hrep hj => ?_,
    modThread_only (g := fun t => ({ t with pc := pc } : Thread).stalled s.clock f) (fun _ => rfl) hth,
    modThread_only (g := fun t => t.stalled s.clock f) (fun _ => rfl) hth, fun _ => nextPc_within, fun _ => nextPc_last⟩
  · have retired := retire_only f hth
    rwa [advance_no_rep hrep] at retired
  · have retired := retire_only f hth
    rwa [advance_repeats hrep hj] at retired
  · have retired := retire_only f hth
    rwa [advance_last_repetition hrep hj] at retired

end Sys2Proof.Proofs
end

section
/-! PROOFS. The events of the issue: ISSUE_GROUP, LINE_FETCH and FETCH_PARITY_RETRY, TRACKED_RESULT_WRITE and SLEEP_EXPIRE (R14, R19, R37, R118,
R125, R126). -/

namespace Sys2Proof.Proofs

open Sys2Proof.Machine Sys2Proof.Laws

/-- A picker that may issue, while no group does, issues the group that it forms. -/
theorem execIssueGroup_forms {s u : State} {core q : Nat} {t : Thread} {g : List Thread} (idle : s.issue.todo = [])
    (issues : (s.core core).issues s.clock q = true)
    (forms : State.formGroup core q ((s.candidates core q).length + 1) (s.candidates core q) s = (u, some (t, g))) :
    execIssueGroup core q s = .next (beginIssue q (some t.ref.slot) t.pc t.rep.isNone (issueOrder g) u) := by
  have free : ¬(!s.issue.todo.isEmpty || !(s.core core).issues s.clock q) = true := by simp [idle, issues]
  rw [execIssueGroup, if_neg free]
  simp only [forms]

/-- A tracked result that is known and due is written. -/
theorem execTrackedResultWrite_due {s : State} {r : TRef} {th : Thread} {id : Nat} {x : Tracked} (hth : s.thread? r = some th)
    (hx : th.tracked.find? (fun x => x.id == id) = some x) (known : x.known = true) (due : x.due ≤ s.clock) :
    execTrackedResultWrite r id s = .next ((s.setThread (s.writeTracked x th)).received r id) := by
  have now : ¬(!x.known || decide (s.clock < x.due)) = true := by simp [known, due]
  simp only [execTrackedResultWrite, hth, hx]
  rw [if_neg now]

/-- The state in which the bytes of a line have entered the instruction cache of a core, its parity good, and the threads that waited for it are
ready (R125). -/
def lineEnters (core ctx : Nat) (line : DWord) (bytes : List Byte) (u : State) : State :=
  lineArrived core ctx line (u.modCore core (fun k => { k with
    icache := evictOver Config.icacheLines (k.icache.filter (fun l => !(isLine ctx line.toNat l))) ++ [⟨ctx, line.toNat, bytes, u.clock, 0⟩],
    refetch := k.refetch.filter (fun x => x != line) }))

/-- The fetch of a line that its home gives, that is not poisoned and whose parity is good brings it into the cache, at the first try and at
the retry. -/
theorem fetchLine_enters (retry : Bool) {s u : State} {r : TRef} {th : Thread} {line : DWord} {p : Placed} {loc : Nat}
    (hth : s.thread? r = some th) (waits : th.status = .fetch line) (valid : s.invalidating (s.ctxOf th) (globPage line) = false)
    (placed : s.lineAt (s.ctxOf th) line = .ok p) (hloc : loc = p.base + line.toNat % 65536)
    (hu : u = countMigration (s.ctxOf th) (globPage line) p s) (clean : u.poisonOf loc 64 = none)
    (parity : (lineOf (u.readBytes loc 64)).parityOk = true) :
    fetchLine retry r s = lineEnters r.core (s.ctxOf th) line (u.readBytes loc 64) u := by
  subst hloc hu
  simp only [fetchLine, hth, waits, valid, placed, clean, parity, Option.isSome_none, Bool.false_eq_true, if_false, if_true, lineEnters]

/-- A sleep whose count has elapsed ends. -/
theorem execSleepExpire_elapsed {s : State} {r : TRef} {th : Thread} {u : Nat} (hth : s.thread? r = some th) (sleeps : th.status = .sleep u)
    (elapsed : u ≤ s.clock) : execSleepExpire r s = .next (s.modThread r (Thread.finish u)) := by
  simp only [execSleepExpire, hth, sleeps, if_neg (Nat.not_lt.mpr elapsed)]

/-- Settles O20: each event by the lemma about its own case; both fetches of a line by the one lemma. -/
theorem issueEvents : Obligations.IssueEvents := by
  intro s r th id core q
  refine ⟨fun t g u => execIssueGroup_forms, fun x => execTrackedResultWrite_due, ?_, fun u => execSleepExpire_elapsed⟩
  intro line p hth waits valid placed loc u bytes clean parity held
  have enters (retry : Bool) : fetchLine retry r s = held := fetchLine_enters retry hth waits valid placed rfl rfl clean parity
  have first : exec (.lineFetch r) s = .next (fetchLine false r s) := rfl
  have again : exec (.fetchParityRetry r) s = .next (fetchLine true r s) := rfl
  exact ⟨first.trans (congrArg _ (enters false)), again.trans (congrArg _ (enters true))⟩

end Sys2Proof.Proofs
end

section
/-! PROOFS. The checks before a word's effect, one lemma for each stage of the gate (R16, R19, R20, R54, R55, R201), and those of REP (R50, R52). -/

namespace Sys2Proof.Proofs

open Sys2Proof.Machine Sys2Proof.Safety Sys2Proof.Laws

/-- On a core that checks, the word reads or overwrites a register too early (R20). -/
abbrev StallShort (op : Nat) (f : Fields) (s : State) (th : Thread) : Prop :=
  (s.core th.ref.core).check.getLsbD 0 = true ∧ tooEarly op f s.clock th = true

/-- The fields and registers of a word are legal, and where it is a REP its increments (R50, R55). -/
abbrev LegalFields (op : Nat) (f : Fields) (bad : Bool) (th : Thread) : Prop :=
  Forms.wordOk op f = true ∧ Forms.wordAllocOk op f th.alloc = true ∧ bad = false

/-- No tracked result is pending on the word's guard (R16, R19). -/
abbrev GuardKnown (f : Fields) (th : Thread) : Prop := f.guard = 7 ∨ th.trackedOn (256 + f.guard.toNat) = false

section

variable {op : Nat} {f : Fields} {pre : Option Cause} {bad : Bool} {s : State} {th : Thread}

theorem gate_poisoned (h : (s.warpOf th).poisoned = true) : gate op f pre bad s th = .trap .poison := by
  rw [gate.eq_def, if_pos h]

/-! Each stage below assumes that the stages before it have let the word pass. -/

variable (sound : (s.warpOf th).poisoned = false)
include sound

theorem gate_stallShort (h : StallShort op f s th) : gate op f pre bad s th = .trap .stallShort := by
  rw [gate.eq_def, if_neg (by simp [sound]), if_pos (by simp [h])]

variable (onTime : ¬StallShort op f s th)
include onTime

theorem gate_pre (c : Cause) : gate op f (some c) bad s th = .trap c := by
  rw [gate.eq_def, if_neg (by simp [sound]), if_neg (by simpa using onTime)]

theorem gate_privileged (h : op / 64 = 14) (hs : th.ref.slot ≠ 64) : gate op f none bad s th = .trap .privileged := by
  rw [gate.eq_def, if_neg (by simp [sound]), if_neg (by simpa using onTime)]
  exact if_pos (by simp [h, hs])

variable (permitted : op / 64 = 14 → th.ref.slot = 64)
include permitted

/-- A word that may run where it stands comes to its fields, registers and key. -/
theorem gate_permitted : gate op f none bad s th =
    if !Forms.wordOk op f || !Forms.wordAllocOk op f th.alloc || bad then .trap .illegalOperand
    else if !Forms.keyOk op f then .trap .keyMisuse
    else if f.guard != 7 && th.trackedOn (256 + f.guard.toNat) then .hold
    else if !guardOn f s.clock s.free th then .skip
    else ((faultedRead op f th).map Gate.trap).getD (if awaitsTracked op f th then .hold else .go) := by
  rw [gate.eq_def, if_neg (by simp [sound]), if_neg (by simpa using onTime)]
  rw [if_neg (by simpa using permitted)]
  cases faultedRead op f th <;> rfl

theorem gate_illegalOperand (h : ¬LegalFields op f bad th) : gate op f none bad s th = .trap .illegalOperand := by
  rw [gate_permitted sound onTime permitted, if_pos]
  simp only [Bool.or_eq_true, Bool.not_eq_true']
  by_contra hn
  simp only [not_or, Bool.not_eq_false, Bool.not_eq_true] at hn
  exact h ⟨hn.1.1, hn.1.2, hn.2⟩

variable (legal : LegalFields op f bad th)
include legal

theorem gate_keyMisuse (h : Forms.keyOk op f = false) : gate op f none bad s th = .trap .keyMisuse := by
  rw [gate_permitted sound onTime permitted, if_neg (by simp [legal]), if_pos (by simp [h])]

variable (key : Forms.keyOk op f = true)
include key

theorem gate_guard_pending (h : ¬GuardKnown f th) : gate op f none bad s th = .hold := by
  rw [gate_permitted sound onTime permitted, if_neg (by simp [legal]), if_neg (by simp [key]), if_pos]
  rw [guard_known]
  simpa using h

variable (known : GuardKnown f th)
include known

theorem gate_guard_known : gate op f none bad s th =
    if !guardOn f s.clock s.free th then .skip
    else ((faultedRead op f th).map Gate.trap).getD (if awaitsTracked op f th then .hold else .go) := by
  rw [gate_permitted sound onTime permitted, if_neg (by simp [legal]), if_neg (by simp [key]), if_neg]
  rw [guard_known, decide_eq_true known]
  decide

theorem gate_guard_off (h : guardOn f s.clock s.free th = false) : gate op f none bad s th = .skip := by
  rw [gate_guard_known sound onTime permitted legal key known, if_pos (by simp [h])]

variable (on : guardOn f s.clock s.free th = true)
include on

theorem gate_faulted {c : Cause} (h : faultedRead op f th = some c) : gate op f none bad s th = .trap c := by
  rw [gate_guard_known sound onTime permitted legal key known, if_neg (by simp [on]), h]
  rfl

theorem gate_result_pending (h : faultedRead op f th = none) (h' : awaitsTracked op f th = true) : gate op f none bad s th = .hold := by
  rw [gate_guard_known sound onTime permitted legal key known, if_neg (by simp [on]), h, h']
  rfl

end

/-! ## What the issue comes to where the gate stops the word -/

section

variable {op : Nat} {f : Fields} {pre : Option Cause} {bad : Bool} {s : State} {th : Thread} {body : Ctx → Res}
  (hth : s.thread? s.issue.cur = some th)
include hth

theorem issueWith_trap {c : Cause} (h : gate op f pre bad s th = .trap c) :
    issueWith op f pre bad s body = raiseTrap th.ref (TrapInfo.of c) { s with free := s.free + 1 } := by
  simp only [issueWith, hth, h]

theorem issueWith_hold (h : gate op f pre bad s th = .hold) :
    issueWith op f pre bad s body = notReady th.ref { s with free := s.free + 1 } := by
  simp only [issueWith, hth, h]

theorem issueWith_skip (h : gate op f pre bad s th = .skip) :
    issueWith op f pre bad s body = retire th.ref f (th.dropOwn { s with free := s.free + 1 }) := by
  simp only [issueWith, hth, h]

end

/-! ## REP (R50–R52) -/

section

variable {g : Fields} {s : State} {th : Thread} (hth : s.thread? s.issue.cur = some th) (sound : (s.warpOf th).poisoned = false)
include hth sound

theorem execRep_stallShort (h : StallShort 0x187 g s th) : execRep g s = .next (raiseTrap th.ref (TrapInfo.of .stallShort) s) := by
  simp only [execRep, hth]
  rw [if_pos (by simp [sound, h])]

variable (onTime : ¬StallShort 0x187 g s th)
include onTime

theorem execRep_needs_line (h : s.wordAt th (nextPc th.pc) = none) :
    execRep g s = .next (needLine th.ref (pcLine (nextPc th.pc)) s) := by
  simp only [execRep, hth]
  rw [if_neg (by simpa [sound] using onTime)]
  simp only [h]

/-- Where the line that follows is held, REP issues with the checks of its follower. -/
theorem execRep_issues {w : InsnWord} (h : s.wordAt th (nextPc th.pc) = some w) :
    ∃ body, execRep g s = .next (issueWith 0x187 g (followerFate (opcodeOfWord w)) (badIncrement g (opcodeOfWord w) (fieldsOfWord w)) s body) := by
  simp only [execRep, hth]
  rw [if_neg (by simpa [sound] using onTime)]
  simp only [h]
  exact ⟨_, rfl⟩

end

/-- The checks of REP and of the word that it repeats, in order. -/
theorem execRep_checks {g : Fields} {s : State} {th : Thread} (hth : s.thread? s.issue.cur = some th) (sound : (s.warpOf th).poisoned = false) :
    (StallShort 0x187 g s th → exec (.rep g) s = .next (raiseTrap th.ref (TrapInfo.of .stallShort) s)) ∧
    (¬StallShort 0x187 g s th →
      (s.wordAt th (nextPc th.pc) = none → exec (.rep g) s = .next (needLine th.ref (pcLine (nextPc th.pc)) s)) ∧
      (∀ w, s.wordAt th (nextPc th.pc) = some w →
        let legal := LegalFields 0x187 g (badIncrement g (opcodeOfWord w) (fieldsOfWord w)) th
        let stops (c : Cause) : Prop := exec (.rep g) s = .next (raiseTrap th.ref (TrapInfo.of c) { s with free := s.free + 1 })
        (∀ c, followerFate (opcodeOfWord w) = some c → stops c) ∧
        (followerFate (opcodeOfWord w) = none →
          (¬legal → stops .illegalOperand) ∧
          (legal → Forms.keyOk 0x187 g = false → stops .keyMisuse) ∧
          (legal → Forms.keyOk 0x187 g = true → GuardKnown g th → guardOn g s.clock s.free th = false →
            exec (.rep g) s = .next (retire th.ref g (th.dropOwn { s with free := s.free + 1 })))))) := by
  refine ⟨fun early => execRep_stallShort hth sound early, fun onTime => ⟨fun h => execRep_needs_line hth sound onTime h, fun w hw => ?_⟩⟩
  obtain ⟨body, issued⟩ := execRep_issues hth sound onTime hw
  have outside : 0x187 / 64 = 14 → th.ref.slot = 64 := fun h => absurd h (by decide)
  refine ⟨fun c hc => ?_, fun hc => ?_⟩
  · rw [hc] at issued
    exact issued.trans (congrArg _ (issueWith_trap hth (gate_pre sound onTime c)))
  · rw [hc] at issued
    exact ⟨fun h => issued.trans (congrArg _ (issueWith_trap hth (gate_illegalOperand sound onTime outside h))),
      fun legal h => issued.trans (congrArg _ (issueWith_trap hth (gate_keyMisuse sound onTime outside legal h))),
      fun legal key known h => issued.trans (congrArg _ (issueWith_skip hth (gate_guard_off sound onTime outside legal key known h)))⟩

/-- Settles O49: the word's own checks are the stages of the gate in their order; REP's are its follower's, then the same stages. -/
theorem issueChecks : Obligations.IssueChecks := by
  intro i op f s th hw hop hth
  obtain ⟨body, hbody⟩ := exec_issues i op f hw hop
  have issued : exec i s = .next (issueWith op f none false s (body s)) := hbody s
  have trap {c : Cause} (h : gate op f none false s th = .trap c) := issued.trans (congrArg _ (issueWith_trap hth h))
  have hold (h : gate op f none false s th = .hold) := issued.trans (congrArg _ (issueWith_hold hth h))
  have skip (h : gate op f none false s th = .skip) := issued.trans (congrArg _ (issueWith_skip hth h))
  refine ⟨fun h => trap (gate_poisoned h), fun sound early => trap (gate_stallShort sound early), fun sound onTime =>
    ⟨fun h hs => trap (gate_privileged sound onTime h hs), fun permitted => ⟨fun h => ?_, fun legal h => ?_, fun legal key => ?_⟩⟩,
      fun g => ?_⟩
  · exact trap (gate_illegalOperand sound onTime permitted (fun h' => h ⟨h'.1, h'.2.1⟩))
  · exact trap (gate_keyMisuse sound onTime permitted ⟨legal.1, legal.2, rfl⟩ h)
  · have legal' : LegalFields op f false th := ⟨legal.1, legal.2, rfl⟩
    exact ⟨fun h => hold (gate_guard_pending sound onTime permitted legal' key h), fun known =>
      ⟨fun h => skip (gate_guard_off sound onTime permitted legal' key known h), fun on =>
        ⟨fun c h => trap (gate_faulted sound onTime permitted legal' key known on h),
         fun h h' => hold (gate_result_pending sound onTime permitted legal' key known on h h')⟩⟩⟩
  · exact execRep_checks hth

end Sys2Proof.Proofs
end

section
/-! PROOFS. What one step runs, one lemma for each of its cases (log 2). -/

namespace Sys2Proof.Proofs

open Sys2Proof.Machine Sys2Proof.Laws

/-! ## A stopped module, and a boot that has failed (R351, R384, R388) -/

section

variable {s : State}

theorem step_dead (dead : s.boot.dead = true) : step s = stoppedStep s := if_pos dead

theorem step_failed {n : Nat} (alive : s.boot.dead = false) (failed : s.boot.failed = some n) : step s = failedStep n s := by
  rw [step, if_neg (by simp [alive])]
  simp only [failed]

theorem failedStep_resets {n : Nat} {e : Instr} (h : s.agenda.find? Instr.resets = some e) : failedStep n s = exec e { s with agenda := [] } := by
  simp only [failedStep, h]

theorem failedStep_stays {n : Nat} (h : s.agenda.find? Instr.resets = none) : failedStep n s = .fault (.bootStopped n) := by
  simp only [failedStep, h]

theorem stoppedStep_resets {e : Instr} (h : s.agenda.find? Instr.resets = some e) : stoppedStep s = exec e { s with agenda := [] } := by
  simp only [stoppedStep, h]

variable (noReset : s.agenda.find? Instr.resets = none)
include noReset

theorem stoppedStep_stays (complete : s.tasks.all (fun k => k.complete) = true) : stoppedStep s = .fault .moduleStopped := by
  simp only [stoppedStep, noReset, complete, if_true]

variable (incomplete : s.tasks.all (fun k => k.complete) = false)
include incomplete

/-- Until its tasks have their failure values it takes the events that give it no work. -/
theorem stoppedStep_event {e : Instr} {es : List Instr} (turn : s.turn = true) (agenda : s.agenda = e :: es) :
    stoppedStep s = if Instr.works e = true then .next { s with agenda := es } else exec e { s with agenda := es, turn := false } := by
  rw [agenda] at noReset
  simp only [stoppedStep, noReset, incomplete, turn, agenda, Bool.false_eq_true, if_false]

theorem stoppedStep_fails (h : s.turn = false ∨ s.agenda = []) :
    stoppedStep s = .next (failTasks { s with clock := s.clock + 1, turn := true }) := by
  simp only [stoppedStep, noReset, incomplete, Bool.false_eq_true, if_false]
  rcases h with h | h
  · simp only [h]
  · cases s.turn <;> simp only [h]

end

/-! ## The next member of the issue group (R14, R51) -/

/-- The state in which the next member of the group issues. -/
abbrev withMember (r : TRef) (rest : List TRef) (s : State) : State := { s with issue := { s.issue with todo := rest, cur := r } }

section

variable {s : State} (alive : s.boot.dead = false) (booted : s.boot.failed = none)
include alive booted

theorem step_member {r : TRef} {rest : List TRef} (todo : s.issue.todo = r :: rest) : step s = runMember r rest s := by
  rw [step, if_neg (by simp [alive])]
  simp only [booted, todo]

/-! ## The next event, the next picker, and the end of the cycle (R125) -/

variable (noGroup : s.issue.todo = [])
include noGroup

theorem step_event {e : Instr} {es : List Instr} (turn : s.turn = true) (agenda : s.agenda = e :: es) :
    step s = exec e { s with agenda := es, turn := false } := by
  rw [step, if_neg (by simp [alive])]
  simp only [booted, noGroup, turn, agenda]

variable (noEvent : s.turn = false ∨ s.agenda = [])
include noEvent

/-- Where nothing is due, the next picker with threads forms a group, or the cycle ends. -/
theorem step_no_event : step s = (nextPicker s).elim (.next (tick { s with turn := true }))
    (fun k => tryGroup k (afterMember (exec (.issueGroup (k / 5) (k % 5)) { s with cursor := k + 1, turn := true }))) := by
  rw [step, if_neg (by simp [alive])]
  rcases noEvent with hn | hn
  · simp only [booted, noGroup, hn]
    cases nextPicker s <;> rfl
  · simp only [booted, noGroup, hn]
    cases s.turn <;> cases nextPicker s <;> rfl

theorem step_picker {k : Nat} (h : nextPicker s = some k) :
    step s = tryGroup k (afterMember (exec (.issueGroup (k / 5) (k % 5)) { s with cursor := k + 1, turn := true })) := by
  rw [step_no_event alive booted noGroup noEvent, h, Option.elim_some]

theorem step_tick (h : nextPicker s = none) : step s = .next (tick { s with turn := true }) := by
  rw [step_no_event alive booted noGroup noEvent, h, Option.elim_none]

end

section

variable {s : State} {r : TRef} {rest : List TRef}

theorem runMember_follows {i : Instr} (h : s.issue.follower = some i) :
    runMember r rest s = afterMember (exec i { s with issue := { s.issue with todo := rest, cur := r, follower := none } }) := by
  simp only [runMember, h]

theorem runMember_stops {t : State} (first : s.issue.follower = none) (h : fetchInstr r (withMember r rest s) = .stop t) :
    runMember r rest s = afterMember (.next t) := by
  simp only [withMember, first] at h
  simp only [runMember, first, h]

theorem runMember_runs {i : Instr} (first : s.issue.follower = none) (h : fetchInstr r (withMember r rest s) = .run i) :
    runMember r rest s = afterMember (exec i (markLine r (withMember r rest s))) := by
  simp only [withMember, first] at h
  simp only [runMember, withMember, first, h]

end

/-! ## A group that a picker has formed (R125) -/

/-- Where every member is ready, none is put aside. -/
theorem asideOf_ready {s : State} {ms : List TRef} (ready : ∀ r ∈ ms, unready r s = none) : asideOf s ms = (s, false) := by
  unfold asideOf
  induction ms with
  | nil => rfl
  | cons r ms ih =>
    rw [List.foldl_cons]
    simp only [ready r List.mem_cons_self]
    exact ih (fun q hq => ready q (List.mem_cons_of_mem r hq))

theorem tryGroup_ready {s : State} (k : Nat) (ready : ∀ r ∈ s.issue.todo, unready r s = none) : tryGroup k (.next s) = .next s := by
  simp only [tryGroup, asideOf_ready ready, Bool.false_eq_true, if_false]

end Sys2Proof.Proofs
end

section
/-! PROOFS. What a thread without a word to run does (R14, R16, R20, R36, R54, R55, R306). -/

namespace Sys2Proof.Proofs

open Sys2Proof.Machine Sys2Proof.Safety Sys2Proof.Laws

/-! ## The first check, and the opcode -/

theorem firstCheck_poisoned {s : State} {th : Thread} (h : (s.warpOf th).poisoned = true) : s.firstCheck th = some .poison := by
  rw [State.firstCheck, if_pos h]

theorem sound_of_firstCheck {s : State} {th : Thread} (h : s.firstCheck th = none) : (s.warpOf th).poisoned = false := by
  by_contra hp
  rw [firstCheck_poisoned (by simpa using hp)] at h
  cases h

theorem instrOf_unassigned {w : InsnWord} (h : Forms.assigned (opcodeOfWord w) = false) (f : Fields) : instrOf (opcodeOfWord w) f = none := by
  rw [← instrOf_assigned _ f (BitVec.isLt _)] at h
  simpa using h

theorem decodeWord_unassigned {w : InsnWord} (h : Forms.assigned (opcodeOfWord w) = false) :
    decodeWord w = .error (.illegalOpcode (opcodeOfWord w)) := by
  simp only [decodeWord, instrOf_unassigned h]

/-- The reserved bits of a line are no obstacle where they are zero, or the thread has issued from the line before. -/
theorem line_passes {th : Thread} {l : Line} (good : th.line = some (pcLine th.pc) ∨ l.word.extractLsb' 9 7 = 0) :
    (th.line != some (pcLine th.pc) && !l.reservedOk) = false := by
  rcases good with h | h <;> simp [h, Line.reservedOk]

/-- Outside a repetition an opcode that is not assigned traps at the fetch (R54). -/
theorem fetchInstr_unassigned {u : State} {r : TRef} {th : Thread} {l : Line} (hth : u.thread? r = some th) (passed : u.firstCheck th = none)
    (undenied : th.denied ≠ some th.pc) (held : u.cachedLine r.core (u.ctxOf th) (pcLine th.pc) = some l)
    (good : th.line = some (pcLine th.pc) ∨ l.word.extractLsb' 9 7 = 0)
    (unassigned : Forms.assigned (opcodeOfWord (l.slot (pcSlot th.pc))) = false) (alone : th.rep = none) :
    fetchInstr r u = .stop (raiseTrap r (TrapInfo.of .illegalOpcode) u) := by
  have trap : illegalWord r u = raiseTrap r (TrapInfo.of .illegalOpcode) u := by
    simp only [illegalWord, hth, sound_of_firstCheck passed, Bool.false_eq_true, if_false]
  simp only [fetchInstr, hth, passed, undenied, held, line_passes good, alone, decodeWord_unassigned unassigned, trap, if_false, Bool.false_eq_true]

/-- Within a repetition it traps where the repetition's word would be formed (R51, R54). -/
theorem execRepRepetition_unassigned {s : State} {th : Thread} {rp : RepState} {f : Fields} {w : InsnWord}
    (hth : s.thread? s.issue.cur = some th) (hrep : th.rep = some rp) (hw : s.wordAt th th.pc = some w)
    (inRange : (repetition f (fieldsOfWord w) rp.j).isSome = true) (unassigned : Forms.assigned (opcodeOfWord w) = false) :
    execRepRepetition f s = .next (raiseTrap th.ref (TrapInfo.of .illegalOpcode) s) := by
  obtain ⟨g, hg⟩ := Option.isSome_iff_exists.mp inRange
  simp only [execRepRepetition, hth, hrep, hw, hg, instrOf_unassigned unassigned]

/-- A thread whose line has been marked keeps its place, its repetition and its words. -/
theorem thread?_markLine {s : State} {r : TRef} {th : Thread} (h : s.thread? r = some th) :
    (markLine r s).thread? r = some { th with line := some (pcLine th.pc) } :=
  (modThread_only (g := fun t => { t with line := some (pcLine t.pc) }) (fun _ => rfl) h).1

/-- Settles O45: the cases of the fetch, each in the step of the member that fetches. -/
theorem fetchTraps : Obligations.FetchTraps := by
  intro s r rest th alive booted todo first hth now stops
  have now_th : now.thread? r = some th := hth
  have stopped {t : State} (h : fetchInstr r now = .stop t) : step s = afterMember (.next t) :=
    (step_member alive booted todo).trans (runMember_stops first h)
  refine ⟨fun c h => stopped (fetch_check now_th h), firstCheck_poisoned, fun passed denied => ?_, fun passed undenied absent => ?_,
    fun l passed undenied held => ⟨fun fresh bits ready => ?_, fun good unassigned => ⟨fun alone => ?_, fun rp w hrep hw inRange => ?_⟩⟩⟩
  · exact stopped ((fetch_stop now_th passed).1 denied)
  · exact stopped ((fetch_stop now_th passed).2.1 undenied absent)
  · exact stopped (((fetch_stop now_th passed).2.2 l undenied held).1 fresh bits ready)
  · exact stopped (fetchInstr_unassigned now_th passed undenied held good unassigned alone)
  · have place : th.ref = r := thread?_ref hth
    have good' : th.line = some (pcLine th.pc) ∨ l.reservedOk = true := good.imp_right fun h => by simp [Line.reservedOk, h]
    have fetched : fetchInstr r now = .run (.repRepetition (fieldsOfWord w)) := (fetch_line now_th passed undenied held good').2 rp w hrep hw
    have word : s.wordAt th th.pc = some (l.slot (pcSlot th.pc)) := by rw [State.wordAt, place, held, Option.map_some]
    have traps := execRepRepetition_unassigned (s := markLine r now) (thread?_markLine now_th) hrep word inRange unassigned
    rw [place] at traps
    exact ((step_member alive booted todo).trans (runMember_runs first fetched)).trans (congrArg afterMember traps)

end Sys2Proof.Proofs
end

section
/-! PROOFS. No instruction faults and none is refused: each branch of each meaning answers a next state (log 6). -/

namespace Sys2Proof.Proofs

open Sys2Proof.Machine Sys2Proof.Laws

/-- The outcome is a next state. -/
def Answers (o : Host.Outcome State Fault Refusal) : Prop := ∃ t, o = .next t

/-- The visit of a graph's node answers, whatever the node does. -/
theorem visitNode_answers (id node kind : Nat) (s : State) (act : State → Graph → Nat → State) : Answers (visitNode id node kind s act) := by
  fun_cases visitNode <;> exact ⟨_, rfl⟩

/-! Each branch of a meaning ends in a next state: one lemma for each instruction whose meaning branches before it does. -/

theorem execRep_answers (f : Fields) (s : State) : Answers (execRep f s) := by fun_cases execRep <;> exact ⟨_, rfl⟩
theorem execRepRepetition_answers (f : Fields) (s : State) : Answers (execRepRepetition f s) := by
  fun_cases execRepRepetition <;> exact ⟨_, rfl⟩
theorem execIssueGroup_answers (core picker : Nat) (s : State) : Answers (execIssueGroup core picker s) := by
  fun_cases execIssueGroup <;> exact ⟨_, rfl⟩
theorem execTrackedResultWrite_answers (t : TRef) (id : Nat) (s : State) : Answers (execTrackedResultWrite t id s) := by
  fun_cases execTrackedResultWrite <;> exact ⟨_, rfl⟩
theorem execCoreSelfTest_answers (core : Nat) (pass : Bool) (s : State) : Answers (execCoreSelfTest core pass s) := by
  fun_cases execCoreSelfTest <;> exact ⟨_, rfl⟩
theorem execBarrierRelease_answers (t : TRef) (s : State) : Answers (execBarrierRelease t s) := by
  fun_cases execBarrierRelease <;> exact ⟨_, rfl⟩
theorem execSleepExpire_answers (t : TRef) (s : State) : Answers (execSleepExpire t s) := by
  fun_cases execSleepExpire <;> exact ⟨_, rfl⟩
theorem execHomeResolve_answers (id : Nat) (s : State) : Answers (execHomeResolve id s) := by
  fun_cases execHomeResolve <;> exact ⟨_, rfl⟩
theorem execAccessAccept_answers (id : Nat) (s : State) : Answers (execAccessAccept id s) := by
  fun_cases execAccessAccept <;> exact ⟨_, rfl⟩
theorem execLoadBind_answers (id : Nat) (s : State) : Answers (execLoadBind id s) := by
  fun_cases execLoadBind <;> exact ⟨_, rfl⟩
theorem execStorePerform_answers (id scope : Nat) (s : State) : Answers (execStorePerform id scope s) := by
  fun_cases execStorePerform <;> exact ⟨_, rfl⟩
theorem execFaultFilterForward_answers (core ctx page : Nat) (s : State) : Answers (execFaultFilterForward core ctx page s) := by
  fun_cases execFaultFilterForward <;> exact ⟨_, rfl⟩
theorem execClusterStageForward_answers (cluster ctx page : Nat) (s : State) : Answers (execClusterStageForward cluster ctx page s) := by
  fun_cases execClusterStageForward <;> exact ⟨_, rfl⟩
theorem execPageRequestGroup_answers (pasid page : Nat) (s : State) : Answers (execPageRequestGroup pasid page s) := by
  fun_cases execPageRequestGroup <;> exact ⟨_, rfl⟩
theorem execInvalidateCompletion_answers (pasid lo hi : Nat) (s : State) : Answers (execInvalidateCompletion pasid lo hi s) := by
  fun_cases execInvalidateCompletion <;> exact ⟨_, rfl⟩
theorem execRetireSweepEnd_answers (ctx : Nat) (s : State) : Answers (execRetireSweepEnd ctx s) := by
  fun_cases execRetireSweepEnd <;> exact ⟨_, rfl⟩
theorem execKsendMarker_answers (id point : Nat) (s : State) : Answers (execKsendMarker id point s) := by
  fun_cases execKsendMarker <;> exact ⟨_, rfl⟩
theorem execKsendNotice_answers (id point : Nat) (s : State) : Answers (execKsendNotice id point s) := by
  fun_cases execKsendNotice <;> exact ⟨_, rfl⟩
theorem execArrivalDelivery_answers (id : Nat) (s : State) : Answers (execArrivalDelivery id s) := by
  fun_cases execArrivalDelivery <;> exact ⟨_, rfl⟩
theorem execCopyLineAccept_answers (id line : Nat) (s : State) : Answers (execCopyLineAccept id line s) := by
  fun_cases execCopyLineAccept <;> exact ⟨_, rfl⟩
theorem execCopyWrite_answers (id count : Nat) (s : State) : Answers (execCopyWrite id count s) := by
  fun_cases execCopyWrite <;> exact ⟨_, rfl⟩
theorem execCopyBlockDecode_answers (id : Nat) (s : State) : Answers (execCopyBlockDecode id s) := by
  unfold execCopyBlockDecode
  dsimp only
  repeat' first | exact ⟨_, rfl⟩ | split
theorem execCopyRetire_answers (id : Nat) (s : State) : Answers (execCopyRetire id s) := by
  fun_cases execCopyRetire <;> exact ⟨_, rfl⟩
theorem execCpyfHopForward_answers (id : Nat) (s : State) : Answers (execCpyfHopForward id s) := by
  fun_cases execCpyfHopForward <;> exact ⟨_, rfl⟩
theorem execMmaSliceWrite_answers (id : Nat) (s : State) : Answers (execMmaSliceWrite id s) := by
  fun_cases execMmaSliceWrite <;> exact ⟨_, rfl⟩
theorem execOperandsConsumed_answers (id : Nat) (s : State) : Answers (execOperandsConsumed id s) := by
  fun_cases execOperandsConsumed <;> exact ⟨_, rfl⟩
theorem execMdrnDrain_answers (id : Nat) (s : State) : Answers (execMdrnDrain id s) := by
  fun_cases execMdrnDrain <;> exact ⟨_, rfl⟩
theorem execEnginePerform_answers (id : Nat) (s : State) : Answers (execEnginePerform id s) := by
  fun_cases execEnginePerform <;> exact ⟨_, rfl⟩
theorem execChainEntryRun_answers (id : Nat) (s : State) : Answers (execChainEntryRun id s) := by
  fun_cases execChainEntryRun <;> exact ⟨_, rfl⟩
theorem execCollCompute_answers (id : Nat) (s : State) : Answers (execCollCompute id s) := by
  fun_cases execCollCompute <;> exact ⟨_, rfl⟩
theorem execPostArrival_answers (id : Nat) (s : State) : Answers (execPostArrival id s) := by
  fun_cases execPostArrival <;> exact ⟨_, rfl⟩
theorem execAdmissionDecision_answers (die : Nat) (s : State) : Answers (execAdmissionDecision die s) := by
  fun_cases execAdmissionDecision <;> exact ⟨_, rfl⟩
theorem execAgeing_answers (die item : Nat) (s : State) : Answers (execAgeing die item s) := by
  fun_cases execAgeing <;> exact ⟨_, rfl⟩
theorem execHouseholdSequenceNumber_answers (item : Nat) (s : State) : Answers (execHouseholdSequenceNumber item s) := by
  fun_cases execHouseholdSequenceNumber <;> exact ⟨_, rfl⟩
theorem execReservationRequest_answers (item die : Nat) (s : State) : Answers (execReservationRequest item die s) := by
  fun_cases execReservationRequest <;> exact ⟨_, rfl⟩
theorem execHoldClear_answers (item : Nat) (s : State) : Answers (execHoldClear item s) := by
  fun_cases execHoldClear <;> exact ⟨_, rfl⟩
theorem execBlockDispatch_answers (block : Nat) (s : State) : Answers (execBlockDispatch block s) := by
  fun_cases execBlockDispatch <;> exact ⟨_, rfl⟩
theorem execBlockEnd_answers (block : Nat) (s : State) : Answers (execBlockEnd block s) := by
  fun_cases execBlockEnd <;> exact ⟨_, rfl⟩
theorem execPorchAccept_answers (id : Nat) (s : State) : Answers (execPorchAccept id s) := by
  fun_cases execPorchAccept <;> exact ⟨_, rfl⟩
theorem execPorchRefill_answers (die : Nat) (s : State) : Answers (execPorchRefill die s) := by
  fun_cases execPorchRefill <;> exact ⟨_, rfl⟩
theorem execGraphNodeEnd_answers (graph node : Nat) (s : State) : Answers (execGraphNodeEnd graph node s) := visitNode_answers graph node _ s _
theorem execGraphNodeTask_answers (graph node : Nat) (s : State) : Answers (execGraphNodeTask graph node s) := visitNode_answers graph node _ s _
theorem execGraphNodeCondition_answers (graph node : Nat) (s : State) : Answers (execGraphNodeCondition graph node s) :=
  visitNode_answers graph node _ s _
theorem execGraphNodeWhile_answers (graph node : Nat) (s : State) : Answers (execGraphNodeWhile graph node s) := visitNode_answers graph node _ s _
theorem execGraphNodeJoin_answers (graph node : Nat) (s : State) : Answers (execGraphNodeJoin graph node s) := visitNode_answers graph node _ s _
theorem execGraphPostRetry_answers (graph node : Nat) (s : State) : Answers (execGraphPostRetry graph node s) := by
  fun_cases execGraphPostRetry <;> exact ⟨_, rfl⟩
theorem execGraphTaskComplete_answers (graph task : Nat) (s : State) : Answers (execGraphTaskComplete graph task s) := by
  fun_cases execGraphTaskComplete <;> exact ⟨_, rfl⟩
theorem execGraphCompletion_answers (graph : Nat) (s : State) : Answers (execGraphCompletion graph s) := by
  fun_cases execGraphCompletion <;> exact ⟨_, rfl⟩
theorem execTrapWarpStart_answers (core : Nat) (s : State) : Answers (execTrapWarpStart core s) := by
  fun_cases execTrapWarpStart <;> exact ⟨_, rfl⟩
theorem execWatchdog_answers (gang : Nat) (s : State) : Answers (execWatchdog gang s) := by
  fun_cases execWatchdog <;> exact ⟨_, rfl⟩
theorem execPreemptHoldTimeout_answers (die : Nat) (s : State) : Answers (execPreemptHoldTimeout die s) := by
  fun_cases execPreemptHoldTimeout <;> exact ⟨_, rfl⟩
theorem execPreemptDrainEnd_answers (gang : Nat) (s : State) : Answers (execPreemptDrainEnd gang s) := by
  fun_cases execPreemptDrainEnd <;> exact ⟨_, rfl⟩
theorem execResumeRestore_answers (gang : Nat) (s : State) : Answers (execResumeRestore gang s) := by
  fun_cases execResumeRestore <;> exact ⟨_, rfl⟩
theorem execTransientRequest_answers (req : Nat) (s : State) : Answers (execTransientRequest req s) := by
  fun_cases execTransientRequest <;> exact ⟨_, rfl⟩
theorem execTransientAttemptTimeout_answers (req : Nat) (s : State) : Answers (execTransientAttemptTimeout req s) := by
  fun_cases execTransientAttemptTimeout <;> exact ⟨_, rfl⟩
theorem execTransientEscalation_answers (req : Nat) (s : State) : Answers (execTransientEscalation req s) := by
  fun_cases execTransientEscalation <;> exact ⟨_, rfl⟩
theorem execTransientAnswer_answers (req : Nat) (holder : Holder) (s : State) : Answers (execTransientAnswer req holder s) := by
  fun_cases execTransientAnswer <;> exact ⟨_, rfl⟩
theorem execTokenMessageReceive_answers (msg : Nat) (s : State) : Answers (execTokenMessageReceive msg s) := by
  fun_cases execTokenMessageReceive <;> exact ⟨_, rfl⟩
theorem execPersistentRequest_answers (req : Nat) (s : State) : Answers (execPersistentRequest req s) := by
  fun_cases execPersistentRequest <;> exact ⟨_, rfl⟩
theorem execPersistentTableEntry_answers (line : Nat) (holder : Holder) (s : State) : Answers (execPersistentTableEntry line holder s) := by
  fun_cases execPersistentTableEntry <;> exact ⟨_, rfl⟩
theorem execPersistentCompletion_answers (line : Nat) (s : State) : Answers (execPersistentCompletion line s) := by
  fun_cases execPersistentCompletion <;> exact ⟨_, rfl⟩
theorem execEvictionAck_answers (die line : Nat) (s : State) : Answers (execEvictionAck die line s) := by
  fun_cases execEvictionAck <;> exact ⟨_, rfl⟩
theorem execHearthAtomic_answers (id : Nat) (s : State) : Answers (execHearthAtomic id s) := by
  fun_cases execHearthAtomic <;> exact ⟨_, rfl⟩
theorem execMaskedWrite_answers (id : Nat) (s : State) : Answers (execMaskedWrite id s) := by
  fun_cases execMaskedWrite <;> exact ⟨_, rfl⟩
theorem execMigrationClaim_answers (move : Nat) (s : State) : Answers (execMigrationClaim move s) := by
  fun_cases execMigrationClaim <;> exact ⟨_, rfl⟩
theorem execMigrationCopy_answers (move : Nat) (s : State) : Answers (execMigrationCopy move s) := by
  fun_cases execMigrationCopy <;> exact ⟨_, rfl⟩
theorem execMigrationSwitch_answers (move : Nat) (s : State) : Answers (execMigrationSwitch move s) := by
  fun_cases execMigrationSwitch <;> exact ⟨_, rfl⟩
theorem execMigrationAbandon_answers (move : Nat) (s : State) : Answers (execMigrationAbandon move s) := by
  fun_cases execMigrationAbandon <;> exact ⟨_, rfl⟩
theorem execLinkWake_answers (link : Nat) (s : State) : Answers (execLinkWake link s) := by
  fun_cases execLinkWake <;> exact ⟨_, rfl⟩
theorem execLinkWakeComplete_answers (link : Nat) (s : State) : Answers (execLinkWakeComplete link s) := by
  fun_cases execLinkWakeComplete <;> exact ⟨_, rfl⟩
theorem execLinkWakeLate_answers (link : Nat) (s : State) : Answers (execLinkWakeLate link s) := by
  fun_cases execLinkWakeLate <;> exact ⟨_, rfl⟩
theorem execTokenRecreation_answers (line : Nat) (s : State) : Answers (execTokenRecreation line s) := by
  fun_cases execTokenRecreation <;> exact ⟨_, rfl⟩
theorem execAfrikGrant_answers (dev : Nat) (s : State) : Answers (execAfrikGrant dev s) := by
  fun_cases execAfrikGrant <;> exact ⟨_, rfl⟩
theorem execBridgeReadRequest_answers (id : Nat) (s : State) : Answers (execBridgeReadRequest id s) := by
  fun_cases execBridgeReadRequest <;> exact ⟨_, rfl⟩
theorem execBridgeWriteRedirect_answers (id : Nat) (s : State) : Answers (execBridgeWriteRedirect id s) := by
  fun_cases execBridgeWriteRedirect <;> exact ⟨_, rfl⟩
theorem execBridgeMaskedWrite_answers (id : Nat) (s : State) : Answers (execBridgeMaskedWrite id s) := by
  fun_cases execBridgeMaskedWrite <;> exact ⟨_, rfl⟩
theorem execBridgeAtomic_answers (id : Nat) (s : State) : Answers (execBridgeAtomic id s) := by
  fun_cases execBridgeAtomic <;> exact ⟨_, rfl⟩
theorem execHostLineFetch_answers (line : Nat) (own : Bool) (s : State) : Answers (execHostLineFetch line own s) := by
  fun_cases execHostLineFetch <;> exact ⟨_, rfl⟩
theorem execPoolLineFetch_answers (line : Nat) (s : State) : Answers (execPoolLineFetch line s) := by
  fun_cases execPoolLineFetch <;> exact ⟨_, rfl⟩
theorem execAttachNotice_answers (gang core : Nat) (s : State) : Answers (execAttachNotice gang core s) := by
  fun_cases execAttachNotice <;> exact ⟨_, rfl⟩
theorem execDetachNotice_answers (gang core : Nat) (s : State) : Answers (execDetachNotice gang core s) := by
  fun_cases execDetachNotice <;> exact ⟨_, rfl⟩
theorem execDetachComplete_answers (gang : Nat) (s : State) : Answers (execDetachComplete gang s) := by
  fun_cases execDetachComplete <;> exact ⟨_, rfl⟩
theorem execBootStage_answers (s : State) : Answers (execBootStage s) := by
  fun_cases execBootStage <;> exact ⟨_, rfl⟩
theorem execAtsTranslationCompletion_answers (ctx page : Nat) (reply : AtsReply) (s : State) :
    Answers (execAtsTranslationCompletion ctx page reply s) := by
  fun_cases execAtsTranslationCompletion <;> exact ⟨_, rfl⟩
theorem execPrgResponseSuccess_answers (pasid page : Nat) (s : State) : Answers (execPrgResponseSuccess pasid page s) := by
  fun_cases execPrgResponseSuccess <;> exact ⟨_, rfl⟩
theorem execPrgResponseInvalidRequest_answers (pasid page : Nat) (s : State) : Answers (execPrgResponseInvalidRequest pasid page s) := by
  fun_cases execPrgResponseInvalidRequest <;> exact ⟨_, rfl⟩
theorem execPrgResponseFailure_answers (pasid page : Nat) (s : State) : Answers (execPrgResponseFailure pasid page s) := by
  fun_cases execPrgResponseFailure <;> exact ⟨_, rfl⟩
theorem execAtsInvalidateRequest_answers (pasid lo hi : Nat) (s : State) : Answers (execAtsInvalidateRequest pasid lo hi s) := by
  fun_cases execAtsInvalidateRequest <;> exact ⟨_, rfl⟩
theorem execContextBind_answers (ctx pasid : Nat) (s : State) : Answers (execContextBind ctx pasid s) := by
  fun_cases execContextBind <;> exact ⟨_, rfl⟩
theorem execContextUnbind_answers (ctx : Nat) (s : State) : Answers (execContextUnbind ctx s) := by
  fun_cases execContextUnbind <;> exact ⟨_, rfl⟩
theorem execBufferEntryChange_answers (ctx idx : Nat) (entry : BitVec 128) (s : State) : Answers (execBufferEntryChange ctx idx entry s) := by
  fun_cases execBufferEntryChange <;> exact ⟨_, rfl⟩
theorem execUncorrectableError_answers (site : ErrorSite) (s : State) : Answers (execUncorrectableError site s) := by
  fun_cases execUncorrectableError <;> exact ⟨_, rfl⟩
theorem execMigrationDriverRequest_answers (ctx page : Nat) (up : Bool) (s : State) : Answers (execMigrationDriverRequest ctx page up s) := by
  fun_cases execMigrationDriverRequest <;> exact ⟨_, rfl⟩
theorem execLinkSleep_answers (link : Nat) (s : State) : Answers (execLinkSleep link s) := by
  fun_cases execLinkSleep <;> exact ⟨_, rfl⟩
theorem execFlitCrcFailure_answers (link : Nat) (s : State) : Answers (execFlitCrcFailure link s) := by
  fun_cases execFlitCrcFailure <;> exact ⟨_, rfl⟩
theorem execLinkRetire_answers (link : Nat) (s : State) : Answers (execLinkRetire link s) := by
  fun_cases execLinkRetire <;> exact ⟨_, rfl⟩
theorem execAfrikDemand_answers (dev bytes : Nat) (s : State) : Answers (execAfrikDemand dev bytes s) := by
  fun_cases execAfrikDemand <;> exact ⟨_, rfl⟩
theorem execModuleLost_answers (dev : Nat) (s : State) : Answers (execModuleLost dev s) := by
  fun_cases execModuleLost <;> exact ⟨_, rfl⟩
theorem execHostReadNoCache_answers (line half : Nat) (s : State) : Answers (execHostReadNoCache line half s) := by
  fun_cases execHostReadNoCache <;> exact ⟨_, rfl⟩
theorem execHostReadShared_answers (line half : Nat) (s : State) : Answers (execHostReadShared line half s) := by
  fun_cases execHostReadShared <;> exact ⟨_, rfl⟩
theorem execHostReadAny_answers (line half : Nat) (s : State) : Answers (execHostReadAny line half s) := by
  fun_cases execHostReadAny <;> exact ⟨_, rfl⟩
theorem execHostWrite_answers (line half : Nat) (st : HalfState) (bytes : List (Nat × Byte)) (s : State) :
    Answers (execHostWrite line half st bytes s) := by
  fun_cases execHostWrite <;> exact ⟨_, rfl⟩
theorem execBiconflict_answers (line half : Nat) (s : State) : Answers (execBiconflict line half s) := by
  fun_cases execBiconflict <;> exact ⟨_, rfl⟩
theorem execHostSnoop_answers (line : Nat) (inv : Bool) (s : State) : Answers (execHostSnoop line inv s) := by
  fun_cases execHostSnoop <;> exact ⟨_, rfl⟩
theorem execPoolPortLost_answers (port : Nat) (s : State) : Answers (execPoolPortLost port s) := by
  fun_cases execPoolPortLost <;> exact ⟨_, rfl⟩
theorem execPoolSegmentReattach_answers (seg : Nat) (s : State) : Answers (execPoolSegmentReattach seg s) := by
  fun_cases execPoolSegmentReattach <;> exact ⟨_, rfl⟩
theorem execPoolSegmentUnmap_answers (seg : Nat) (s : State) : Answers (execPoolSegmentUnmap seg s) := by
  fun_cases execPoolSegmentUnmap <;> exact ⟨_, rfl⟩
theorem execMeasurementExtend_answers (reg : Nat) (data : List Byte) (s : State) : Answers (execMeasurementExtend reg data s) := by
  fun_cases execMeasurementExtend <;> exact ⟨_, rfl⟩
theorem execNegotiateAlgorithms_answers (asym hash : Bool) (s : State) : Answers (execNegotiateAlgorithms asym hash s) := by
  fun_cases execNegotiateAlgorithms <;> exact ⟨_, rfl⟩
theorem execGetDigests_answers (slot : Nat) (s : State) : Answers (execGetDigests slot s) := by
  fun_cases execGetDigests <;> exact ⟨_, rfl⟩
theorem execGetCertificate_answers (slot : Nat) (s : State) : Answers (execGetCertificate slot s) := by
  fun_cases execGetCertificate <;> exact ⟨_, rfl⟩
theorem execChallenge_answers (slot : Nat) (nonce : List Byte) (s : State) : Answers (execChallenge slot nonce s) := by
  fun_cases execChallenge <;> exact ⟨_, rfl⟩
theorem execGetMeasurements_answers (index : Nat) (sign : Bool) (nonce : List Byte) (s : State) :
    Answers (execGetMeasurements index sign nonce s) := by
  fun_cases execGetMeasurements <;> exact ⟨_, rfl⟩
theorem execLifetimeCommit_answers (s : State) : Answers (execLifetimeCommit s) := by
  fun_cases execLifetimeCommit <;> exact ⟨_, rfl⟩
theorem execLifetimeClear_answers (authorised : Bool) (s : State) : Answers (execLifetimeClear authorised s) := by
  fun_cases execLifetimeClear <;> exact ⟨_, rfl⟩
theorem execManagementCoreResume_answers (core : Nat) (resume : Bool) (s : State) : Answers (execManagementCoreResume core resume s) := by
  fun_cases execManagementCoreResume <;> exact ⟨_, rfl⟩
theorem execPoolSegmentBind_answers (seg port base len : Nat) (s : State) : Answers (execPoolSegmentBind seg port base len s) := by
  fun_cases execPoolSegmentBind <;> exact ⟨_, rfl⟩
theorem execModuleReachable_answers (dev : Nat) (s : State) : Answers (execModuleReachable dev s) := by
  fun_cases execModuleReachable <;> exact ⟨_, rfl⟩

/-- Every instruction answers a next state: a word by its issue, an event by its own lemma, or at once. -/
theorem exec_answers (i : Instr) (s : State) : Answers (exec i s) := by
  cases i with
  | rep f => exact execRep_answers f s
  | repRepetition f => exact execRepRepetition_answers f s
  | issueGroup core picker => exact execIssueGroup_answers core picker s
  | trackedResultWrite t_ id => exact execTrackedResultWrite_answers t_ id s
  | coreSelfTest core pass => exact execCoreSelfTest_answers core pass s
  | barrierRelease t_ => exact execBarrierRelease_answers t_ s
  | sleepExpire t_ => exact execSleepExpire_answers t_ s
  | homeResolve id => exact execHomeResolve_answers id s
  | accessAccept id => exact execAccessAccept_answers id s
  | loadBind id => exact execLoadBind_answers id s
  | storePerform id scope => exact execStorePerform_answers id scope s
  | faultFilterForward core ctx page => exact execFaultFilterForward_answers core ctx page s
  | clusterStageForward cluster ctx page => exact execClusterStageForward_answers cluster ctx page s
  | pageRequestGroup pasid page => exact execPageRequestGroup_answers pasid page s
  | invalidateCompletion pasid lo hi => exact execInvalidateCompletion_answers pasid lo hi s
  | retireSweepEnd ctx => exact execRetireSweepEnd_answers ctx s
  | ksendMarker id point => exact execKsendMarker_answers id point s
  | ksendNotice id point => exact execKsendNotice_answers id point s
  | arrivalDelivery id => exact execArrivalDelivery_answers id s
  | copyLineAccept id line => exact execCopyLineAccept_answers id line s
  | copyWrite id count => exact execCopyWrite_answers id count s
  | copyBlockDecode id => exact execCopyBlockDecode_answers id s
  | copyRetire id => exact execCopyRetire_answers id s
  | cpyfHopForward id => exact execCpyfHopForward_answers id s
  | mmaSliceWrite id => exact execMmaSliceWrite_answers id s
  | operandsConsumed id => exact execOperandsConsumed_answers id s
  | mdrnDrain id => exact execMdrnDrain_answers id s
  | enginePerform id => exact execEnginePerform_answers id s
  | chainEntryRun id => exact execChainEntryRun_answers id s
  | collCompute id => exact execCollCompute_answers id s
  | postArrival id => exact execPostArrival_answers id s
  | admissionDecision die => exact execAdmissionDecision_answers die s
  | ageing die item => exact execAgeing_answers die item s
  | householdSequenceNumber item => exact execHouseholdSequenceNumber_answers item s
  | reservationRequest item die => exact execReservationRequest_answers item die s
  | holdClear item => exact execHoldClear_answers item s
  | blockDispatch block => exact execBlockDispatch_answers block s
  | blockEnd block => exact execBlockEnd_answers block s
  | porchAccept id => exact execPorchAccept_answers id s
  | porchRefill die => exact execPorchRefill_answers die s
  | graphNodeEnd graph node => exact execGraphNodeEnd_answers graph node s
  | graphNodeTask graph node => exact execGraphNodeTask_answers graph node s
  | graphNodeCondition graph node => exact execGraphNodeCondition_answers graph node s
  | graphNodeWhile graph node => exact execGraphNodeWhile_answers graph node s
  | graphNodeJoin graph node => exact execGraphNodeJoin_answers graph node s
  | graphPostRetry graph node => exact execGraphPostRetry_answers graph node s
  | graphTaskComplete graph task => exact execGraphTaskComplete_answers graph task s
  | graphCompletion graph => exact execGraphCompletion_answers graph s
  | trapWarpStart core => exact execTrapWarpStart_answers core s
  | watchdog gang => exact execWatchdog_answers gang s
  | preemptHoldTimeout die => exact execPreemptHoldTimeout_answers die s
  | preemptDrainEnd gang => exact execPreemptDrainEnd_answers gang s
  | resumeRestore gang => exact execResumeRestore_answers gang s
  | transientRequest req => exact execTransientRequest_answers req s
  | transientAttemptTimeout req => exact execTransientAttemptTimeout_answers req s
  | transientEscalation req => exact execTransientEscalation_answers req s
  | transientAnswer req holder => exact execTransientAnswer_answers req holder s
  | tokenMessageReceive msg => exact execTokenMessageReceive_answers msg s
  | persistentRequest req => exact execPersistentRequest_answers req s
  | persistentTableEntry line holder => exact execPersistentTableEntry_answers line holder s
  | persistentCompletion line => exact execPersistentCompletion_answers line s
  | evictionAck die line => exact execEvictionAck_answers die line s
  | hearthAtomic id => exact execHearthAtomic_answers id s
  | maskedWrite id => exact execMaskedWrite_answers id s
  | migrationClaim move => exact execMigrationClaim_answers move s
  | migrationCopy move => exact execMigrationCopy_answers move s
  | migrationSwitch move => exact execMigrationSwitch_answers move s
  | migrationAbandon move => exact execMigrationAbandon_answers move s
  | linkWake link => exact execLinkWake_answers link s
  | linkWakeComplete link => exact execLinkWakeComplete_answers link s
  | linkWakeLate link => exact execLinkWakeLate_answers link s
  | tokenRecreation line => exact execTokenRecreation_answers line s
  | afrikGrant dev => exact execAfrikGrant_answers dev s
  | bridgeReadRequest id => exact execBridgeReadRequest_answers id s
  | bridgeWriteRedirect id => exact execBridgeWriteRedirect_answers id s
  | bridgeMaskedWrite id => exact execBridgeMaskedWrite_answers id s
  | bridgeAtomic id => exact execBridgeAtomic_answers id s
  | hostLineFetch line own => exact execHostLineFetch_answers line own s
  | poolLineFetch line => exact execPoolLineFetch_answers line s
  | attachNotice gang core => exact execAttachNotice_answers gang core s
  | detachNotice gang core => exact execDetachNotice_answers gang core s
  | detachComplete gang => exact execDetachComplete_answers gang s
  | bootStage => exact execBootStage_answers s
  | atsTranslationCompletion ctx page reply => exact execAtsTranslationCompletion_answers ctx page reply s
  | prgResponseSuccess pasid page => exact execPrgResponseSuccess_answers pasid page s
  | prgResponseInvalidRequest pasid page => exact execPrgResponseInvalidRequest_answers pasid page s
  | prgResponseFailure pasid page => exact execPrgResponseFailure_answers pasid page s
  | atsInvalidateRequest pasid lo hi => exact execAtsInvalidateRequest_answers pasid lo hi s
  | contextBind ctx pasid => exact execContextBind_answers ctx pasid s
  | contextUnbind ctx => exact execContextUnbind_answers ctx s
  | bufferEntryChange ctx idx entry => exact execBufferEntryChange_answers ctx idx entry s
  | uncorrectableError site => exact execUncorrectableError_answers site s
  | migrationDriverRequest ctx page up => exact execMigrationDriverRequest_answers ctx page up s
  | linkSleep link => exact execLinkSleep_answers link s
  | flitCrcFailure link => exact execFlitCrcFailure_answers link s
  | linkRetire link => exact execLinkRetire_answers link s
  | afrikDemand dev bytes => exact execAfrikDemand_answers dev bytes s
  | moduleLost dev => exact execModuleLost_answers dev s
  | hostReadNoCache line half => exact execHostReadNoCache_answers line half s
  | hostReadShared line half => exact execHostReadShared_answers line half s
  | hostReadAny line half => exact execHostReadAny_answers line half s
  | hostWrite line half st bytes => exact execHostWrite_answers line half st bytes s
  | biconflict line half => exact execBiconflict_answers line half s
  | hostSnoop line inv => exact execHostSnoop_answers line inv s
  | poolPortLost port => exact execPoolPortLost_answers port s
  | poolSegmentReattach seg => exact execPoolSegmentReattach_answers seg s
  | poolSegmentUnmap seg => exact execPoolSegmentUnmap_answers seg s
  | measurementExtend reg data => exact execMeasurementExtend_answers reg data s
  | negotiateAlgorithms asym hash => exact execNegotiateAlgorithms_answers asym hash s
  | getDigests slot => exact execGetDigests_answers slot s
  | getCertificate slot => exact execGetCertificate_answers slot s
  | challenge slot nonce => exact execChallenge_answers slot nonce s
  | getMeasurements index sign nonce => exact execGetMeasurements_answers index sign nonce s
  | lifetimeCommit => exact execLifetimeCommit_answers s
  | lifetimeClear authorised => exact execLifetimeClear_answers authorised s
  | managementCoreResume core resume => exact execManagementCoreResume_answers core resume s
  | poolSegmentBind seg port base len => exact execPoolSegmentBind_answers seg port base len s
  | moduleReachable dev => exact execModuleReachable_answers dev s
  | _ => exact ⟨_, rfl⟩

end Sys2Proof.Proofs
end

section
/-! PROOFS. A step runs the first thing that is due, and every instruction answers (O44). -/

namespace Sys2Proof.Proofs

open Sys2Proof.Machine Sys2Proof.Laws

/-- Settles O44: that every instruction answers, and the cases of a step by the lemma about each. -/
theorem stepRunsInstruction : Obligations.StepRunsInstruction := by
  intro s
  refine ⟨fun i => exec_answers i s, fun dead => ?_, fun n alive failed => ?_, fun k t ready => tryGroup_ready k ready, fun alive booted => ?_⟩
  · refine ⟨fun e he => (step_dead dead).trans (stoppedStep_resets he), fun noReset => ⟨fun complete => ?_, fun incomplete => ?_⟩⟩
    · exact (step_dead dead).trans (stoppedStep_stays noReset complete)
    · exact ⟨fun e es turn agenda => (step_dead dead).trans (stoppedStep_event noReset incomplete turn agenda),
        fun idle => (step_dead dead).trans (stoppedStep_fails noReset incomplete idle)⟩
  · exact ⟨fun e he => (step_failed alive failed).trans (failedStep_resets he),
      fun noReset => (step_failed alive failed).trans (failedStep_stays noReset)⟩
  · refine ⟨fun r rest todo => ?_, fun noGroup => ⟨fun e es => step_event alive booted noGroup, fun noEvent => ?_⟩⟩
    · have member := step_member alive booted todo
      refine ⟨fun i follower => member.trans (runMember_follows follower), fun th l first hth passed undenied held good => ?_⟩
      have fetched := fetch_line (u := withMember r rest s) hth passed undenied held good
      exact ⟨fun i alone word => member.trans (runMember_runs first (fetched.1 i alone word)),
        fun rp w hrep word => member.trans (runMember_runs first (fetched.2 rp w hrep word))⟩
    · exact ⟨fun k => step_picker alive booted noGroup noEvent, step_tick alive booted noGroup noEvent⟩

end Sys2Proof.Proofs
end

section
/-! PROOFS. What the words of classes 0x0 to 0x5 leave as it was (R10, R17, R19, R25, R96, R228). -/

namespace Sys2Proof.Proofs

open Sys2Proof.Machine Sys2Proof.Safety Sys2Proof.Laws

/-! ## Every word but WRU -/

/-- A word of classes 0x0 to 0x5 other than WRU leaves the frame of its own destinations: each writes its value, its predicate or its carry,
or tracks its result, and a float word may trap first. -/
theorem registerWord_frame {i : Instr} {op : Nat} {f : Fields} {s t : State} {th : Thread} (hw : Forms.wordOf i = some (op, f))
    (low : op < 0x180) (notWru : op ≠ 0x088) (hI : Issues op f s th) (hs : th.ref.slot ≠ 64 ∨ (s.core th.ref.core).fpen = 0)
    (ht : exec i s = .next t) :
    ∃ s0, (s0 = s ∨ s0 = th.dropOwn s) ∧ Frame (dests op f) (predDests op f s th) (level op) th.ref s0 t := by
  cases i with
  | add _ | sub _ | mul _ | mulh _ | mad _ | madw _ | abs _ | neg _ | min _ | max _ | clamp _ | lea _ | sad _
  | and _ | or _ | xor _ | andn _ | not _ | shl _ | shr _ | sar _ | rot _ | funl _ | bfx _ | bfi _ | popc _ | clz _ | brev _ | bytp _ | log3 _
  | mov _ | movi _ | sel _ | p2w _ | rdu _ =>
    cases hw
    exact frame_of notWru hI ht (fine_value rfl)
  | addc _ | subb _ =>
    cases hw
    exact frame_of notWru hI ht (fine_carry (by decide) rfl rfl)
  | cmp _ | plog _ | fcmp _ | fcls _ =>
    cases hw
    exact frame_of notWru hI ht (fine_pred (by decide) rfl)
  | movs _ =>
    cases hw
    exact frame_of notWru hI ht fine_tracked
  | w2p _ =>
    cases hw
    exact frame_of notWru hI ht fine_w2p
  | fadd _ | fsub _ | fmul _ | ffma _ | fmin _ | fmax _ | frnd _ =>
    cases hw
    exact frame_of notWru hI ht (fine_lanes (by decide) hs rfl)
  | frcp _ | frsq _ | fsqrt _ | fex2 _ | flg2 _ | fsin _ | fcos _ | fdiv _ | ftanh _ =>
    cases hw
    exact frame_of notWru hI ht (fine_special (by decide) hs)
  | fdot2 _ | cvti _ | cvtf _ =>
    cases hw
    exact frame_of notWru hI ht (fine_fp (by decide) hs (fine_value rfl))
  | cvt _ =>
    cases hw
    refine frame_of notWru hI ht ?_
    dsimp only
    split
    · exact fine_value rfl
    · exact fine_fp (by decide) hs (fine_value rfl)
  | pack _ =>
    cases hw
    exact frame_of notWru hI ht (fine_fp (by decide) hs (fine_fmterr (fine_value rfl)))
  | unpk _ =>
    cases hw
    exact frame_of notWru hI ht (fine_fp (by decide) hs (fine_unpk (by rw [packWords_length]; rfl)))
  | qblk _ =>
    cases hw
    exact frame_of notWru hI ht (fine_fp (by decide) hs (fine_fmterr (fine_pair rfl)))
  | wru _ =>
    cases hw
    exact absurd rfl notWru
  | _ => cases hw <;> exact absurd low (by decide)

/-! ## WRU (R96) -/

/-- The marks of a thread without those of the uniform registers written (R201). -/
def clearMarks (ws : List (Nat × Word)) (th : Thread) : Thread :=
  { th with marks := ws.foldl (fun m q => dropMark (512 + q.1) m) th.marks }

/-- The thread notes the uniform registers that it has written, as pending until `due` (R19, R20). -/
def notePending (due : Nat) (ws : List (Nat × Word)) (th : Thread) : Thread :=
  ws.foldl (fun th q => { th with pend := addPending (512 + q.1) due 0 th.pend }) th

/-- What WRU leaves for the thread `r`: the warp's uniform registers `ws` written, noted as pending, and their faulted marks cleared in every
thread of the warp (R96). -/
def wroteUniform (due : Nat) (ws : List (Nat × Word)) (r : TRef) (s : State) : State :=
  let t := (s.modWarp r.core r.slot (fun w => ws.foldl (fun w q => w.writeU due q.1 q.2) w)).modThread r (notePending due ws)
  { t with threads := t.threads.map (fun x => if x.ref.core = r.core ∧ x.ref.slot = r.slot then clearMarks ws x else x) }


theorem notePending_ref (due : Nat) (ws : List (Nat × Word)) (th : Thread) : (notePending due ws th).ref = th.ref := (foldPend due ws th).2.1

section

variable (due : Nat) (ws : List (Nat × Word)) (r : TRef) (s : State)

/-- Every thread of the warp has its marks cleared, after the issuing thread has noted what it wrote. -/
theorem wroteUniform_thread? (q : TRef) : (wroteUniform due ws r s).thread? q =
    ((s.modThread r (notePending due ws)).thread? q).map (fun x => if x.ref.core = r.core ∧ x.ref.slot = r.slot then clearMarks ws x else x) :=
  thread?_map (s.modThread r (notePending due ws)) _ (fun _ => by split <;> rfl) q

theorem wroteUniform_thread {th : Thread} (h : s.thread? r = some th) :
    (wroteUniform due ws r s).thread? r = some (clearMarks ws (notePending due ws th)) := by
  have place : (notePending due ws th).ref = r := (notePending_ref due ws th).trans (thread?_ref h)
  rw [wroteUniform_thread?, thread?_modThread s (notePending_ref due ws), h, Option.map_some, Option.map_some, place, if_pos ⟨rfl, rfl⟩]

theorem wroteUniform_thread_ne {q : TRef} {v : Thread} (hq : q ≠ r) (h : s.thread? q = some v) :
    ∃ marks, (wroteUniform due ws r s).thread? q = some { v with marks := marks } := by
  rw [wroteUniform_thread?, thread?_modThread_ne s (notePending_ref due ws) hq, h, Option.map_some]
  split
  · exact ⟨_, rfl⟩
  · exact ⟨v.marks, rfl⟩

theorem writeU_at (w : Warp) (a b : Nat) : Warp.at a b (ws.foldl (fun w q => w.writeU due q.1 q.2) w) = Warp.at a b w := by
  rw [(foldU due ws w).1]
  rfl

theorem wroteUniform_warp : (wroteUniform due ws r s).warp? r.core r.slot =
    (s.warp? r.core r.slot).map (fun w => ws.foldl (fun w q => w.writeU due q.1 q.2) w) :=
  warp?_modWarp_at s r.core r.slot _ (writeU_at due ws)

theorem wroteUniform_warp_ne {core slot : Nat} (h : ¬(core = r.core ∧ slot = r.slot)) :
    (wroteUniform due ws r s).warp? core slot = s.warp? core slot :=
  warp?_modWarp_ne s r.core r.slot core slot _ (writeU_at due ws) h

theorem wroteUniform_rest : RestSame s (wroteUniform due ws r s) := by repeat' constructor

end

/-- WRU, once it issues, writes a value to its destination's uniform registers, and its thread goes on. -/
theorem execWru_retires {f : Fields} {s t : State} {th : Thread} (hI : Issues 0x088 f s th) (ht : exec (.wru f) s = .next t) :
    ∃ v, t = retire th.ref f
      (wroteUniform (s.clock + 4) (valueRegs (Forms.wide (Forms.ts f)) f.d.toNat v) th.ref { s with free := s.free + 1 }) := by
  have done : Done (exec (.wru f) s) (atIssue 0x088 f s th) _ := done_of hI rfl
  rw [done] at ht
  exact ⟨_, (Host.Outcome.next.inj ht).symm⟩

theorem mem_writeUnis_d {op : Nat} {f : Fields} {q : Nat} (h1 : (Forms.uses op f).d.wr = true) (h2 : q ∈ Forms.unisOf (Forms.uses op f).d f.d) :
    q ∈ Forms.writeUnis op f := by
  unfold Forms.writeUnis Forms.fieldsOf
  simp [h1, h2]

/-- The uniform registers that WRU writes are its destination's (R96). -/
theorem valueRegs_writeUnis {f : Fields} {v : DWord} :
    ∀ y ∈ valueRegs (Forms.wide (Forms.ts f)) f.d.toNat v, y.1 < 63 → y.1 ∈ Forms.writeUnis 0x088 f := by
  intro y hy small
  have dest : (Forms.uses 0x088 f).d = ⟨.uni (Forms.wide (Forms.ts f)), false, true⟩ := rfl
  refine mem_writeUnis_d (by rw [dest]) ?_
  rw [dest, Forms.unisOf, List.mem_filter]
  refine ⟨?_, decide_eq_true small⟩
  cases hwide : Forms.wide (Forms.ts f)
  · rw [hwide] at hy
    simpa [valueRegs] using congrArg Prod.fst (List.mem_singleton.mp hy)
  · rw [hwide] at hy
    rcases List.mem_cons.mp hy with rfl | hy
    · simp
    · simpa using Or.inr (congrArg Prod.fst (List.mem_singleton.mp hy))

/-- WRU leaves its own thread's registers and predicates as they read, and its place. -/
theorem wroteUniform_reads (due : Nat) (ws : List (Nat × Word)) (th : Thread) :
    ThreadPlaceSame (clearMarks ws (notePending due ws th)) th ∧
      (∀ q clock n pos, q < 256 → (clearMarks ws (notePending due ws th)).readW clock n pos q = th.readW clock n pos q) ∧
      (∀ k clock n pos, k < 8 → (clearMarks ws (notePending due ws th)).readP clock n pos k = th.readP clock n pos k) := by
  obtain ⟨place, -, regs, preds⟩ := foldPend due ws th
  exact ⟨place, regs, preds⟩

/-- WRU leaves its own warp as it was but for its uniform registers, and of those the ones that it does not write as they read. -/
theorem wroteUniform_own_warp {s : State} {r : TRef} {w : Warp} {due : Nat} {f : Fields} {v : DWord} (h : s.warp? r.core r.slot = some w) :
    ∃ x, (wroteUniform due (valueRegs (Forms.wide (Forms.ts f)) f.d.toNat v) r s).warp? r.core r.slot = some x ∧
      x = { w with u := x.u, upend := x.upend } ∧
      ∀ q clock n pos, q ∉ Forms.writeUnis 0x088 f → x.readU clock n pos q = w.readU clock n pos q := by
  obtain ⟨only, reads⟩ := foldU due (valueRegs (Forms.wide (Forms.ts f)) f.d.toNat v) w
  refine ⟨_, by rw [wroteUniform_warp, h]; rfl, only, fun q clock n pos hq => reads q clock n pos fun y hy small same => hq ?_⟩
  exact same ▸ valueRegs_writeUnis y hy small

/-! ## Both together -/

/-- What is no destination of a word is none of those of its frame. -/
theorem not_predDests {op : Nat} {f : Fields} {s : State} {th : Thread} {p : Nat} (h : op ≠ 0x086 → p ∉ Forms.writePreds op f)
    (h' : op = 0x086 → ((atIssue op f s th).vb false).getLsbD p = false) : ¬predDests op f s th p := by
  unfold predDests
  split
  · next isW2p => simp [h' isW2p]
  · next isOther => exact h isOther

theorem level_le_one {op : Nat} (pack : op ≠ 0x143) (qblk : op ≠ 0x145) : level op ≤ 1 := by
  unfold level
  split
  · exact Nat.zero_le 1
  · rw [if_neg (by simp [pack, qblk])]

/-- Settles O57: WRU by what it leaves of its warp, every other word by the frame of its destinations. -/
theorem registerWordFrame : Obligations.RegisterWordFrame := by
  intro i op f s t th hw low hI hs ht
  have hth : s.thread? th.ref = some th := (thread?_ref hI.1).symm ▸ hI.1
  by_cases isWru : op = 0x088
  · subst isWru
    have wru : i = .wru f := by cases i <;> cases hw; rfl
    obtain ⟨v, rfl⟩ := execWru_retires hI (wru ▸ ht)
    have retired := Frame.retire (W := fun _ => False) (P := fun _ => False) (m := 0) (r := th.ref) f
      (wroteUniform (s.clock + 4) (valueRegs (Forms.wide (Forms.ts f)) f.d.toNat v) th.ref { s with free := s.free + 1 })
    obtain ⟨trapOnly, untouched, fmterr⟩ := retired.own
    refine ⟨s, .inl rfl, ?_, fun h => absurd rfl h, fun _ => ⟨fun q x hq hx => ?_, fun core slot h => wroteUniform_warp_ne _ _ _ _ h,
      fun w h => wroteUniform_own_warp h⟩, retired.cores, trapOnly, fun _ => untouched rfl, fun _ _ => fmterr (Nat.zero_le 1),
      restSame_trans (wroteUniform_rest _ _ _ { s with free := s.free + 1 }) retired.rest⟩
    · obtain ⟨x, hx, place, regs, preds⟩ := retired.thr _ (wroteUniform_thread _ _ _ _ hth)
      obtain ⟨place', regs', preds'⟩ := wroteUniform_reads (s.clock + 4) (valueRegs (Forms.wide (Forms.ts f)) f.d.toNat v) th
      exact ⟨x, hx, threadPlaceSame_trans place place',
        fun q clock n pos small _ => (regs q clock n pos id).trans (regs' q clock n pos small),
        fun k clock n pos small _ _ => (preds k clock n pos id).trans (preds' k clock n pos small)⟩
    · rw [retired.oth q hq]
      exact wroteUniform_thread_ne _ _ _ _ hq hx
  · obtain ⟨s0, h0, frame⟩ := registerWord_frame hw low isWru hI hs ht
    have thread? (q : TRef) : s0.thread? q = s.thread? q := by rcases h0 with rfl | rfl <;> simp [State.thread?]
    have core (c : Nat) : s0.core c = s.core c := by rcases h0 with rfl | rfl <;> simp [State.core]
    obtain ⟨trapOnly, untouched, fmterr⟩ := frame.own
    rw [core] at trapOnly untouched fmterr
    refine ⟨s0, h0, ?_, fun _ => ⟨fun q hq => (frame.oth q hq).trans (thread? q), frame.warps⟩, fun h => absurd h isWru,
      fun k hk => (frame.cores k hk).trans (core k), trapOnly, fun h => untouched (if_pos h),
      fun pack qblk => fmterr (level_le_one pack qblk), frame.rest⟩
    obtain ⟨u, hu, place, regs, preds⟩ := frame.thr th ((thread? th.ref).trans hth)
    exact ⟨u, hu, place, fun q clock n pos _ hq => regs q clock n pos hq,
      fun p clock n pos _ h h' => preds p clock n pos (not_predDests h h')⟩

end Sys2Proof.Proofs
end

section
/-! PROOFS. The encoding of instruction words (R39, R53): an instruction is built into its word and read back, a word is the encoding of what
it reads as, and the opcodes that read as anything. -/

namespace Sys2Proof.Proofs

open Sys2Proof.Machine Sys2Proof.Laws

/-! ## A word from its instruction, and an instruction from its word -/

/-- A word decodes to the row of its opcode, with its fields. -/
theorem decodeWord_ok_iff {w : InsnWord} {i : Instr} : decodeWord w = .ok i ↔ instrOf (opcodeOfWord w) (fieldsOfWord w) = some i := by
  unfold decodeWord
  cases instrOf (opcodeOfWord w) (fieldsOfWord w) <;> simp

theorem encode_of_wordOf {i : Instr} {op : Nat} {f : Fields} (h : Forms.wordOf i = some (op, f)) :
    encode i = some (wordOfFields (BitVec.ofNat 10 op) f) := by
  simp only [encode, h]

/-- The row that m selects is one of the checks of a well-formed word. -/
theorem rowOk_of_wellFormed {i : Instr} {op : Nat} {f : Fields} (hw : Forms.wordOf i = some (op, f)) (h : WellFormed i) :
    Forms.rowOk i = true := by
  simp only [WellFormed, Instr.wellFormed, hw, Bool.and_eq_true] at h
  exact h.2

/-- The word built for a row's opcode and fields decodes to the row's instruction. -/
theorem decodeWord_wordOfFields {i : Instr} {op : Nat} {f : Fields} (hw : Forms.wordOf i = some (op, f)) (hr : Forms.rowOk i = true) :
    decodeWord (wordOfFields (BitVec.ofNat 10 op) f) = .ok i := by
  obtain ⟨small, row⟩ := instrOf_wordOf i op f hw hr
  have opcode : (BitVec.ofNat 10 op).toNat = op := by simp only [BitVec.toNat_ofNat]; omega
  rw [decodeWord_ok_iff, opcodeOfWord_wordOfFields, fieldsOfWord_wordOfFields, opcode]
  exact row

/-- The bytes of a word that decodes, and bytes after them that are left over. -/
theorem decode_bytesOf_ok {w : InsnWord} {i : Instr} (h : decodeWord w = .ok i) (rest : List Byte) :
    decode (bytesOf 12 w.toNat ++ rest) = .ok (i, rest) := by
  rw [decode_bytesOf, h]

/-- A word is built again from its own opcode and fields. -/
theorem wordOfFields_opcodeOfWord (w : InsnWord) : wordOfFields (BitVec.ofNat 10 (opcodeOfWord w)) (fieldsOfWord w) = w := by
  rw [opcodeOfWord, BitVec.ofNat_toNat, BitVec.setWidth_eq]
  exact wordOfFields_fieldsOfWord w

/-- Settles O41: the opcode and the fields are read back from the word that they build, and the row that m selects is the instruction's own. -/
theorem wordRoundTrip : Obligations.WordRoundTrip := by
  intro i op f hw wf
  have decodes := decodeWord_wordOfFields hw (rowOk_of_wellFormed hw wf)
  exact ⟨wordOfFields (BitVec.ofNat 10 op) f, encode_of_wordOf hw, decodes, decode_bytesOf_ok decodes⟩

/-- Settles O42: the instruction has the opcode and fields of the word, and these build the word again. -/
theorem wordsReencode : Obligations.WordsReencode := by
  intro w i h
  have hw : Forms.wordOf i = some (opcodeOfWord w, fieldsOfWord w) := wordOf_instrOf _ _ i (decodeWord_ok_iff.mp h)
  rw [encode_of_wordOf hw, wordOfFields_opcodeOfWord]

/-! ## The assigned opcodes -/

theorem decodeWord_ok_iff_assigned (w : InsnWord) : (∃ i, decodeWord w = .ok i) ↔ Forms.assigned (opcodeOfWord w) = true := by
  simp only [decodeWord_ok_iff]
  rw [← Option.isSome_iff_exists, instrOf_assigned _ _ (BitVec.isLt _)]

/-- Settles O43: the count by evaluating the table, the words by the opcodes that have a row. -/
theorem opcodesAssigned : Obligations.OpcodesAssigned :=
  ⟨by decide +kernel, decodeWord_ok_iff_assigned⟩

/-- Settles O40: the decoder is run on each of the words. -/
theorem wordsDecode : Obligations.WordsDecode := by
  unfold Obligations.WordsDecode
  decide +kernel

end Sys2Proof.Proofs
end

section
/-! PROOFS. Branches, calls, returns and repetition (R21, R48–R51, R113–R115): the target's checks pass, then the call stack does its part. -/

namespace Sys2Proof.Proofs

open Sys2Proof.Machine Sys2Proof.Safety Sys2Proof.Laws

/-! ## Calls (R21, R114) -/

/-- Four on-chip entries: the oldest two are spilled, as `spillCall` says. -/
theorem pushCall_spills {c : Ctx} {ret : DWord} {go : State → Res} {w x y z : DWord} {u : State} {loc : Nat} {mode : AccMode}
    (full : c.th.calls = [w, x, y, z]) (room : c.th.callsp ≠ spillLimit) (way : privWay c.s c.th c.r c.th.callsp rightsW = .ok u loc mode) :
    pushCall c.s c.th c.r ret go = go (spillCall c u loc mode [w, x] [y, z, ret]) := by
  have bytes : [w, x].flatMap (fun x => bytesOf 8 x.toNat) = bytesOf 8 w.toNat ++ bytesOf 8 x.toNat := by simp
  rw [push_spill full room way]
  simp only [spillCall, bytes, Ctx.r]

/-- The effect of CALL and CALLX, to a legal target: the fall-through address is pushed where there is room for it on chip, and above two
entries that are spilled. -/
theorem call_jumps {op : Nat} {f : Fields} {s : State} {th : Thread} {body : Ctx → Res} {slot : Nat} {t : DWord} (h : Issues op f s th)
    (legal : Reachable (atIssue op f s th) slot t)
    (calls : body (atIssue op f s th) = checkedTarget (atIssue op f s th) slot t (fun _ =>
      pushCall (atIssue op f s th).s th th.ref (nextPc th.pc) (fun s => .jump s t))) :
    (th.calls.length ≠ 4 → Jumps (issueOp op f s body) (atIssue op f s th)
      ((atIssue op f s th).s.modThread th.ref (fun t => { t with calls := th.calls ++ [nextPc th.pc] })) t) ∧
    (∀ w x y z u loc mode, th.calls = [w, x, y, z] → th.callsp ≠ spillLimit →
      privWay (atIssue op f s th).s th th.ref th.callsp rightsW = .ok u loc mode →
      Jumps (issueOp op f s body) (atIssue op f s th) (spillCall (atIssue op f s th) u loc mode [w, x] [y, z, nextPc th.pc]) t) := by
  rw [checked_go legal] at calls
  exact ⟨fun few => jumps_of h (calls.trans (push_few few)),
    fun w x y z u loc mode full room way => jumps_of h (calls.trans (pushCall_spills full room way))⟩

/-! ## Returns (R21, R115) -/

/-- A return while entries stay on chip, or while none is spilled. -/
theorem popCall_on_chip {c : Ctx} {rest : List DWord} {go : State → Res} (h : rest ≠ [] ∨ c.th.callsp = spillBase) :
    popCall c rest go = go (c.s.modThread c.r (fun t => { t with calls := rest })) := by
  rw [popCall, if_neg]
  rcases h with h | h <;> simp [h]

/-- A return that empties the stack refills it with the pair spilled last. -/
theorem popCall_refills {c : Ctx} {go : State → Res} {u : State} {loc : Nat} {mode : AccMode} (spilled : c.th.callsp ≠ spillBase)
    (way : privWay c.s c.th c.r (c.th.callsp - 16) rightsR = .ok u loc mode) :
    popCall c [] go = go (u.modThread c.r (fun t => { t with calls := spilledPair u loc, callsp := t.callsp - 16 })) := by
  rw [popCall, if_pos (by simp [spilled])]
  simp only [way]

/-- RET goes to the newest entry, where that is legal, and leaves what the pop leaves. -/
theorem execRet_jumps {f : Fields} {s u : State} {th : Thread} {rest : List DWord} {t : DWord} (h : Issues 0x184 f s th)
    (newest : th.calls = rest ++ [t]) (legal : Reachable (atIssue 0x184 f s th) (pcSlot t) t)
    (pops : popCall (atIssue 0x184 f s th) rest (fun s => .jump s t) = .jump u t) :
    Jumps (execRet f s) (atIssue 0x184 f s th) u t := by
  refine jumps_of h ?_
  simp only [newest, List.getLast?_concat, List.dropLast_concat]
  exact (checked_go legal).trans pops

/-! ## Repetitions (R49–R51) -/

/-- REP before a follower that it may repeat holds its count and goes on to the follower. -/
theorem execRep_jumps {f : Fields} {s : State} {th : Thread} {w : InsnWord} (h : Issues 0x187 f s th) (held : s.wordAt th (nextPc th.pc) = some w)
    (fate : followerFate (opcodeOfWord w) = none) (increments : badIncrement f (opcodeOfWord w) (fieldsOfWord w) = false) :
    Jumps (execRep f s) (atIssue 0x187 f s th)
      ((atIssue 0x187 f s th).s.modThread th.ref (fun t => { t with rep := some ⟨t.pc, f.imm.toNat % 64 + 1, 0⟩ })) (nextPc th.pc) := by
  have ⟨hth, _, onTime, _⟩ := h
  have notEarly : ¬(!(s.warpOf th).poisoned && (s.core th.ref.core).check.getLsbD 0 && tooEarly 0x187 f s.clock th) = true := by
    rcases onTime with h | h <;> simp only [h, Bool.and_false, Bool.false_and, Bool.false_eq_true, not_false_eq_true]
  simp only [execRep, hth]
  rw [if_neg notEarly]
  simp only [held, fate, increments]
  exact congrArg _ (issueWith_go _ h)

/-- A repetition whose fields stay in range forms its word, which the thread issues next. -/
theorem execRepRepetition_starts {f g : Fields} {s : State} {th : Thread} {r : RepState} {w : InsnWord} {i : Instr}
    (hth : s.thread? s.issue.cur = some th) (hrep : th.rep = some r) (held : s.wordAt th th.pc = some w)
    (inRange : repetition f (fieldsOfWord w) r.j = some g) (row : instrOf (opcodeOfWord w) g = some i) :
    execRepRepetition f s = .next (startRepetition i th s) := by
  simp only [execRepRepetition, hth, hrep, held, inRange, row]

/-- Settles O7: the checks of the target by `checked_go`, then each word by the lemma about its part of the call stack or of a repetition. -/
theorem transferWords : Obligations.TransferWords := by
  intro f s th
  refine ⟨fun h legal => ?bra, fun h legal => ?brx, fun h legal => ?call, fun h legal => ?callx, fun h rest t newest legal => ?ret,
    fun h w => execRep_jumps h, fun r w g i => execRepRepetition_starts⟩
  case bra => exact jumps_of h (checked_go legal)
  case brx => exact jumps_of h (checked_go legal)
  case call => exact call_jumps h legal rfl
  case callx => exact call_jumps h legal rfl
  case ret =>
    refine ⟨fun onChip => execRet_jumps h newest legal (popCall_on_chip onChip), fun u loc mode empty spilled way => ?_⟩
    subst empty
    exact execRet_jumps h newest legal (popCall_refills spilled way)

end Sys2Proof.Proofs
end

section
/-! PROOFS. The values of the E2M1 codes (R58) and the check of a Q4 line (R67). -/

namespace Sys2Proof.Proofs

open Sys2Proof.Machine Sys2Proof.Laws

/-! ## The E2M1 codes (R58) -/

/-- The codes of exponent 0, of either sign: their fraction counts halves. -/
theorem decode_e2m1_subnormal {k : Nat} (neg : Bool) (h : k < 2) : Fmt.e2m1.decode (Fmt.e2m1.withSign neg k) = .fin neg k (-1) := by
  interval_cases k <;> cases neg <;> rfl

/-- The codes of exponent 1 to 3, of either sign. -/
theorem decode_e2m1_normal {k : Nat} (neg : Bool) (normal : 2 ≤ k) (h : k < 8) :
    Fmt.e2m1.decode (Fmt.e2m1.withSign neg k) = .fin neg (2 + k % 2) ((k / 2 : Nat) - 2) := by
  interval_cases k <;> cases neg <;> rfl

/-- A code below 8 has a magnitude in halves from R58's table, and the code 8 above it is its negative. -/
theorem e2m1_code_value {k : Nat} (h : k < 8) : ∃ (m : Nat) (e : Int), -1 ≤ e ∧ Fmt.e2m1.decode k = .fin false m e ∧
    Fmt.e2m1.decode (8 + k) = .fin true m e ∧ m * 2 ^ (e + 1).toNat = [0, 1, 2, 3, 4, 6, 8, 12].getD k 0 := by
  have negative : 8 + k = Fmt.e2m1.withSign true k := Nat.add_comm 8 k
  rw [negative]
  by_cases subnormal : k < 2
  · refine ⟨k, -1, le_rfl, decode_e2m1_subnormal false subnormal, decode_e2m1_subnormal true subnormal, ?_⟩
    interval_cases k <;> rfl
  · have normal : 2 ≤ k := not_lt.mp subnormal
    refine ⟨2 + k % 2, (k / 2 : Nat) - 2, by omega, decode_e2m1_normal false normal h, decode_e2m1_normal true normal h, ?_⟩
    interval_cases k <;> rfl

/-! ## The check of a Q4 line (R67) -/

/-- Two bytes as R67's h: the 16-bit value whose low byte is the second. -/
theorem byte_append_byte (high low : Byte) : high ++ low = BitVec.ofNat 16 (low.toNat + 256 * high.toNat) := by
  apply BitVec.eq_of_toNat_eq
  rw [toNat_append_add, BitVec.toNat_ofNat]
  omega

/-- The check as R67 writes it, over the little-endian halves of the line. -/
theorem q4Check_eq_foldl (line : List Byte) : q4Check line = (List.range 63).foldl (fun chk n =>
    chk ^^^ (BitVec.ofNat 16 ((line.getD (2 * n) 0).toNat + 256 * (line.getD (2 * n + 1) 0).toNat)).rotateLeft (n % 16)) 0 := by
  unfold q4Check
  exact List.foldl_ext _ _ _ fun chk n _ => by rw [byte_append_byte]

/-- An all-zero line has check 0. -/
theorem q4Check_zero : q4Check (List.replicate 128 0) = 0 := by
  decide

/-- The line that is zero except q4.ver = 0x0001 and q4.band = 0x3F80. -/
theorem q4Check_ver_band : q4Check (List.replicate 120 0 ++ [0x01, 0x00, 0x80, 0x3F] ++ List.replicate 4 0) = 0x17F0 := by
  decide

/-- Settles O52: the codes by their exponent, the check half by half, and its two examples by evaluation. -/
theorem numberFormats : Obligations.NumberFormats :=
  ⟨fun _ => e2m1_code_value, q4Check_eq_foldl, q4Check_zero, q4Check_ver_band⟩

end Sys2Proof.Proofs
end

section
/-! PROOFS. The integer, logic and move words (R79–R96): what a word writes is the value that its rule gives. -/

namespace Sys2Proof.Proofs

open Sys2Proof.Machine Sys2Proof.Safety Sys2Proof.Laws

/-! ## Integer values (R79–R82) -/

theorem ofNat_addCarry (a b : Nat) (cin : Bool) : BitVec.ofNat 32 (addCarry a b cin).1 = BitVec.ofNat 32 (a + b + cin.toNat) := by
  apply BitVec.eq_of_toNat_eq
  simp only [addCarry, BitVec.toNat_ofNat, Nat.mod_mod]

/-- Wrapping to the width of a word (R9) keeps the word. -/
theorem ofNat_wrapInt (w : Nat) (x : Int) : BitVec.ofNat w (wrapInt w x) = BitVec.ofInt w x := by
  apply BitVec.eq_of_toNat_eq
  rw [BitVec.toNat_ofNat, BitVec.toNat_ofInt]
  exact Nat.mod_eq_of_lt (BitVec.ofInt w x).isLt

/-- A difference borrows where what is taken exceeds what it is taken from (R80). -/
theorem subBorrow_borrow (a b : Nat) (bin : Bool) : (subBorrow a b bin).2 = decide (a < b + bin.toNat) := by
  rw [subBorrow, decide_eq_decide]
  omega

theorem ofInt_add_toNat {w : Nat} (x : Int) (z : BitVec w) : BitVec.ofInt w (x + z.toNat) = BitVec.ofInt w x + z := by
  rw [BitVec.ofInt_add, BitVec.ofInt_natCast, BitVec.ofNat_toNat, BitVec.setWidth_eq]

theorem shiftLeft_eq_mul_ofNat {w : Nat} (x : BitVec w) (n : Nat) : x <<< n = x * BitVec.ofNat w (2 ^ n) := by
  have power : BitVec.twoPow w n = BitVec.ofNat w (2 ^ n) := by
    apply BitVec.eq_of_toNat_eq
    rw [BitVec.toNat_twoPow, BitVec.toNat_ofNat]
  rw [BitVec.shiftLeft_eq_mul_twoPow, power]

theorem natAbs_eq_ite (x : Int) : (x.natAbs : Int) = if x < 0 then -x else x := by
  split <;> omega

/-- Settles O1: the effect of each word is the rule's value, written; where the two are spelled differently (ADDC, SUBB, MADW, ABS, NEG, MIN, MAX,
LEA), a lemma brings one to the other. -/
theorem integerWords : Obligations.IntegerWords := by
  intro f s th
  refine ⟨fun h => done_of h rfl, fun h => done_of h rfl, fun h => ?addc, fun h => ?subb, fun h => done_of h rfl, fun h => done_of h rfl,
    fun h => done_of h rfl, fun h => ?madw, fun h => ?abs, fun h => ?neg, fun h => ?min, fun h => ?max, fun h => done_of h rfl,
    fun h => ?lea, fun h => done_of h rfl, fun h => done_of h rfl⟩
  case addc => beta_reduce; rw [← ofNat_addCarry]; exact done_of h rfl
  case subb => beta_reduce; rw [← ofNat_wrapInt, ← subBorrow_borrow]; exact done_of h rfl
  case madw => beta_reduce; rw [← ofInt_add_toNat]; exact done_of h rfl
  case abs => simp only [← natAbs_eq_ite]; exact done_of h rfl
  case neg => simp only [Int.zero_sub]; exact done_of h rfl
  case min => simp only [← min_def]; exact done_of h rfl
  case max => simp only [← max_def]; exact done_of h rfl
  case lea => beta_reduce; rw [← shiftLeft_eq_mul_ofNat]; exact done_of h rfl

/-! ## Logic words (R86–R91) -/

/-- Settles O2: the effect of each logic word is the rule's value, written. -/
theorem logicWords : Obligations.LogicWords := by
  intro f s th
  and_intros
  all_goals exact fun h => done_of h rfl

/-! ## Moves (R93–R96) -/

/-- MOVS tracks what it reads: a special register, a pair of them, or the whole program counter (R94). -/
theorem execMovs_tracks {f : Fields} {s : State} {th : Thread} {wide : Bool} {v : DWord} (h : Issues 0x083 f s th)
    (hw : (atIssue 0x083 f s th).w = wide)
    (hv : (if wide then if f.a.toNat = 25 then th.pc else
        (atIssue 0x083 f s th).special (f.a.toNat + 1) ++ (atIssue 0x083 f s th).special f.a.toNat
      else ofWord ((atIssue 0x083 f s th).special f.a.toNat)) = v) :
    Tracks (execMovs f s) (atIssue 0x083 f s th) wide v := by
  subst hw hv
  exact done_of h rfl

/-- Settles O3: MOVS by what it reads, WRU by what it leaves of its warp; the effect of every other word is the rule's value, written. -/
theorem moveWords : Obligations.MoveWords := by
  intro f s th
  refine ⟨fun h => done_of h rfl, fun h => done_of h rfl, fun h => done_of h rfl, fun h => ?movs, fun h => done_of h rfl,
    fun h => done_of h rfl, fun h => done_of h rfl, fun h => done_of h rfl, fun h => ?wru⟩
  case movs =>
    exact ⟨fun one => execMovs_tracks h one rfl, fun two other => execMovs_tracks h two (if_neg other),
      fun two pc => execMovs_tracks h two (if_pos pc)⟩
  case wru => exact ⟨_, done_of h rfl, rfl, wroteUniform_warp _ _ th.ref { s with free := s.free + 1 }⟩

end Sys2Proof.Proofs
end

section
/-! PROOFS. The float words, the special functions and the conversions (R98–R111): a word has its result unless it signals an exception that is
enabled (R325). -/

namespace Sys2Proof.Proofs

open Sys2Proof.Machine Sys2Proof.Safety Sys2Proof.Laws

/-- A float word has its result, unless one of the exceptions that it signals is enabled: then it traps. -/
theorem floatDone_of {op : Nat} {f : Fields} {s t : State} {th : Thread} {body : Ctx → Res} {e : Exc} (h : Issues op f s th)
    (hb : body (atIssue op f s th) = (atIssue op f s th).fpResult e (.ok t)) :
    FloatDone (issueOp op f s body) (atIssue op f s th) e t :=
  ⟨fun quiet => done_of h (hb.trans (fpResult_ok quiet)), fun enabled => traps_of h (hb.trans (fpResult_trap enabled))⟩

/-- Settles O4: the words of lanes and FDOT2 by `floatDone_of`; FCMP and FCLS write a predicate and signal nothing. -/
theorem floatWords : Obligations.FloatWords := by
  intro f s th
  exact ⟨fun h => floatDone_of h rfl, fun h => floatDone_of h rfl, fun h => floatDone_of h rfl, fun h => floatDone_of h rfl,
    fun h => floatDone_of h rfl, fun h => floatDone_of h rfl, fun h => done_of h rfl, fun h => floatDone_of h rfl, fun h => done_of h rfl,
    fun h => floatDone_of h rfl⟩

/-- Settles O5: every special function is tracked, by `floatDone_of`. -/
theorem specialFunctionWords : Obligations.SpecialFunctionWords := by
  intro f s th
  and_intros
  all_goals exact fun h => floatDone_of h rfl

/-! ## Conversions (R107–R111) -/

/-- CVT from an integer type (R107). -/
theorem execCvt_integer {f : Fields} {s : State} {th : Thread} (h : Issues 0x140 f s th) (int : Forms.ts f ≤ 3) :
    Writes (execCvt f s) (atIssue 0x140 f s th) (Forms.wide (Forms.td f))
      (convertInt (Forms.td f) (Forms.ts f) (cvtSat f) ((atIssue 0x140 f s th).va (atIssue 0x140 f s th).w)) :=
  done_of h (if_pos (decide_eq_true int))

/-- CVT from a float type (R107). -/
theorem execCvt_float {f : Fields} {s : State} {th : Thread} (h : Issues 0x140 f s th) (float : ¬Forms.ts f ≤ 3) :
    let c := atIssue 0x140 f s th
    let r := convFloat (fmtOf (Forms.td f)) (modeOf f) (ftzOf f) (cvtClamps f)
      ((fmtOf (Forms.ts f)).source (ftzOf f) (smodAbs f 0) (smodNeg f 0) (c.va c.w).toNat)
    FloatDone (execCvt f s) c r.exc (c.write (valueRegs (Forms.wide (Forms.td f)) f.d.toNat (BitVec.ofNat 64 r.code)) []) :=
  floatDone_of h (if_neg (by simpa [Forms.tyS] using float))

/-- Settles O6: CVT by its source's kind, and whether PACK reads pairs by its types; the effect of every other word is the rule's. -/
theorem conversionWords : Obligations.ConversionWords := by
  intro f s th
  refine ⟨fun h => ⟨execCvt_integer h, execCvt_float h⟩, fun h => floatDone_of h rfl, fun h => floatDone_of h rfl, fun h => ?pack,
    fun h => floatDone_of h rfl, fun h => floatDone_of h rfl⟩
  case pack =>
    have pairs : (Forms.packPairs (Forms.td f) (Forms.ts f) == some true) = (Forms.packPairs (Forms.td f) (Forms.ts f)).getD false := by
      rcases Forms.packPairs (Forms.td f) (Forms.ts f) with _ | _ | _ <;> rfl
    simp only [pairs]
    exact floatDone_of h rfl

end Sys2Proof.Proofs
end

section
/-! PROOFS. The words of control beside the transfers (R116–R120), and the rejoin points: setting one, waiting at one, and the release at the end
of a cycle (R128–R131). -/

namespace Sys2Proof.Proofs

open Sys2Proof.Machine Sys2Proof.Safety Sys2Proof.Laws

/-! ## EXIT and SLEEP (R116, R118) -/

theorem execExit_block {f : Fields} {s : State} {th : Thread} (h : Issues 0x185 f s th) (block : th.ref.slot ≠ 64) :
    Done (execExit f s) (atIssue 0x185 f s th) (exitThread th.ref (atIssue 0x185 f s th).s) :=
  done_of h (congrArg Res.ok (if_neg block))

theorem execExit_trapWarp {f : Fields} {s : State} {th : Thread} (h : Issues 0x185 f s th) (trapWarp : th.ref.slot = 64) :
    Done (execExit f s) (atIssue 0x185 f s th) (haltCore th.ref.core (atIssue 0x185 f s th).s) :=
  done_of h (congrArg Res.ok (if_pos trapWarp))

/-! ## Setting a rejoin point (R119, R130) -/

section

variable {f : Fields} {s : State} {th : Thread} (h : Issues 0x188 f s th) (slot : Forms.mlow f < 5)
include h slot

/-- A point that has an entry expects the lanes of the mask as well. -/
theorem execRjset_known
    (known : (atIssue 0x188 f s th).warp.rejoin.any (fun e => e.point == encodedTarget (atIssue 0x188 f s th)) = true) :
    Done (execRjset f s) (atIssue 0x188 f s th) ((atIssue 0x188 f s th).s.modWarp th.ref.core th.ref.slot (fun w => { w with
      rejoin := w.rejoin.map (fun e => if e.point = encodedTarget (atIssue 0x188 f s th) then
        { e with mask := e.mask ||| ((atIssue 0x188 f s th).va false).extractLsb' 0 32 } else e) })) :=
  done_of h ((if_neg (Nat.not_le.mpr slot)).trans (if_pos known))

/-- A new point finds the table full. -/
theorem execRjset_full
    (new : (atIssue 0x188 f s th).warp.rejoin.any (fun e => e.point == encodedTarget (atIssue 0x188 f s th)) = false)
    (full : 32 ≤ (atIssue 0x188 f s th).warp.rejoin.length) :
    Traps (execRjset f s) (atIssue 0x188 f s th) ⟨.rejoinCycle, 0, 0, 0⟩ :=
  traps_of h ((if_neg (Nat.not_le.mpr slot)).trans ((if_neg (ne_true_of_eq_false new)).trans (if_pos full)))

/-- A new point takes a free entry. -/
theorem execRjset_new
    (new : (atIssue 0x188 f s th).warp.rejoin.any (fun e => e.point == encodedTarget (atIssue 0x188 f s th)) = false)
    (free : (atIssue 0x188 f s th).warp.rejoin.length < 32) :
    Done (execRjset f s) (atIssue 0x188 f s th) ((atIssue 0x188 f s th).s.modWarp th.ref.core th.ref.slot (fun w => { w with
      rejoin := w.rejoin ++ [⟨encodedTarget (atIssue 0x188 f s th), ((atIssue 0x188 f s th).va false).extractLsb' 0 32, 0⟩] })) :=
  done_of h ((if_neg (Nat.not_le.mpr slot)).trans ((if_neg (ne_true_of_eq_false new)).trans (if_neg (Nat.not_le.mpr free))))

end

/-! ## Waiting at a rejoin point (R119, R128, R131) -/

/-- An entry with the arrival of one more lane. -/
abbrev withArrival (lane : Nat) (e : RejoinEntry) : RejoinEntry := { e with arrived := e.arrived ||| BitVec.ofNat 32 (2 ^ lane) }

/-- The arrival of lane `lane` at the entry is no deadlock: it meets the entry, or another live thread of the warp still runs. -/
abbrev RejoinGoes (mates : List Thread) (lane : Nat) (e : RejoinEntry) : Prop :=
  rejoinMet (laneMask mates) (withArrival lane e) = true ∨ ∃ t ∈ mates, t.ref.lane ≠ lane ∧ t.status ≠ .rejoin

theorem rejoinGoes_iff (mates : List Thread) (lane : Nat) (e : RejoinEntry) : RejoinGoes mates lane e ↔
    ¬(!(rejoinMet (laneMask mates) (withArrival lane e)) && mates.all (fun t => t.ref.lane == lane || t.status == .rejoin)) = true := by
  simp [RejoinGoes, Decidable.imp_iff_not_or]

section

variable {f : Fields} {s : State} {th : Thread} (h : Issues 0x189 f s th)
include h

theorem execRjwait_no_entry (noEntry : (atIssue 0x189 f s th).warp.rejoin.find? (fun e => e.point == th.pc) = none) :
    Done (execRjwait f s) (atIssue 0x189 f s th) (atIssue 0x189 f s th).s :=
  done_of h (by simp only [noEntry])

variable {e : RejoinEntry} (entry : (atIssue 0x189 f s th).warp.rejoin.find? (fun e => e.point == th.pc) = some e)
include entry

theorem execRjwait_waits (goes : RejoinGoes (s.threadsOfWarp th.ref.core th.ref.slot) th.ref.lane e) :
    Waits (execRjwait f s) (atIssue 0x189 f s th) (((atIssue 0x189 f s th).s.modWarp th.ref.core th.ref.slot (fun w => { w with
      rejoin := w.rejoin.map (fun x => if x.point = th.pc then withArrival th.ref.lane e else x) })).modThread th.ref
        (fun t => { t with status := .rejoin })) :=
  waits_of h (by simp only [entry]; exact if_neg ((rejoinGoes_iff _ _ _).mp goes))

theorem execRjwait_traps (stuck : ¬RejoinGoes (s.threadsOfWarp th.ref.core th.ref.slot) th.ref.lane e) :
    Traps (execRjwait f s) (atIssue 0x189 f s th) ⟨.rejoinCycle, 0, 0, 0⟩ :=
  traps_of h (by simp only [entry]; exact if_pos (not_not.mp (mt (rejoinGoes_iff _ _ _).mpr stuck)))

end

/-! ## The lanes of a mask -/

/-- A bit of the union of some masks is one of theirs. -/
theorem getLsbD_foldl_or {α : Type} (g : α → Word) (i : Nat) (l : List α) (acc : Word) :
    (l.foldl (fun acc x => acc ||| g x) acc).getLsbD i = true ↔ acc.getLsbD i = true ∨ ∃ x ∈ l, (g x).getLsbD i = true := by
  induction l generalizing acc with
  | nil => simp
  | cons x l ih => simp [ih, or_assoc]

/-- The lanes of some threads are those that one of them has. -/
theorem getLsbD_laneMask (ts : List Thread) {i : Nat} (lane : i < 32) : (laneMask ts).getLsbD i = true ↔ ∃ t ∈ ts, t.ref.lane = i := by
  have bit (t : Thread) : (BitVec.ofNat 32 (2 ^ t.ref.lane)).getLsbD i = true ↔ t.ref.lane = i := by
    rw [BitVec.getLsbD_ofNat, Nat.testBit_two_pow, decide_eq_true lane, Bool.true_and, decide_eq_true_iff]
  rw [laneMask, getLsbD_foldl_or]
  simp only [BitVec.ofNat_eq_ofNat, BitVec.getLsbD_zero, Bool.false_eq_true, false_or, bit]

/-- An entry's condition holds where every lane that it expects and that is live has arrived (R128). -/
theorem rejoinMet_iff (live : Word) (e : RejoinEntry) : rejoinMet live e = true ↔
    ∀ i < 32, e.mask.getLsbD i = true → live.getLsbD i = true → e.arrived.getLsbD i = true := by
  rw [rejoinMet, beq_iff_eq, BitVec.eq_of_getLsbD_eq_iff]
  refine forall₂_congr fun i lane => ?_
  simp [lane]

/-! ## The release of a rejoin point (R128, R130) -/

/-- At the end of a cycle the warp's entry `e` is released: its condition holds, and it has an arrival or has lost a lane. -/
def releases (s : State) (core slot : Nat) (e : RejoinEntry) : Bool :=
  rejoinMet (laneMask (s.threadsOfWarp core slot)) e && (e.arrived != 0 || e.mask &&& (s.warp core slot).left != 0)

/-- The lanes that have arrived at an entry that is released. -/
def released (s : State) (core slot : Nat) : Word :=
  ((s.warp core slot).rejoin.filter (releases s core slot)).foldl (fun acc e => acc ||| e.arrived) 0

/-- A thread of the warp that waits at a released entry is ready in the next cycle; another is what it was. -/
def rejoined (s : State) (core slot : Nat) (t : Thread) : Thread :=
  if t.ref.core = core ∧ t.ref.slot = slot ∧ t.status = .rejoin ∧ hasLane (released s core slot) t.ref.lane = true
  then { t.finish (s.clock + 1) with age := s.clock + 1 } else t

theorem progressWarp_threads (core slot : Nat) (s : State) : (progressWarp core slot s).threads = s.threads := by
  unfold progressWarp; split <;> rfl
theorem progressWarp_warps (core slot : Nat) (s : State) : (progressWarp core slot s).warps = s.warps := by
  unfold progressWarp; split <;> rfl
theorem progressWarp_clock (core slot : Nat) (s : State) : (progressWarp core slot s).clock = s.clock := by
  unfold progressWarp; split <;> rfl

theorem settleRejoin_threads (core slot : Nat) (s : State) :
    (settleRejoin core slot s).threads = s.threads.map (rejoined s core slot) := by
  unfold settleRejoin
  dsimp only
  split
  · rfl
  · simp only [progressWarp_threads, progressWarp_clock]; rfl

theorem settleRejoin_warps (core slot : Nat) (s : State) :
    (settleRejoin core slot s).warps = (s.modWarp core slot (fun w => { w with
      rejoin := (s.warp core slot).rejoin.filter (fun e => !releases s core slot e), left := 0 })).warps := by
  unfold settleRejoin
  dsimp only
  split
  · rfl
  · exact progressWarp_warps _ _ _

theorem rejoined_ref (core slot : Nat) (s : State) (t : Thread) : (rejoined s core slot t).ref = t.ref := by
  unfold rejoined
  split
  · exact finish_ref (s.clock + 1) t
  · rfl

/-- What the end of a cycle makes of a thread. -/
theorem settleRejoin_thread? {s : State} {r : TRef} {x : Thread} (core slot : Nat) (h : s.thread? r = some x) :
    (settleRejoin core slot s).thread? r = some (rejoined s core slot x) := by
  have only : (settleRejoin core slot s).thread? r = ({ s with threads := s.threads.map (rejoined s core slot) } : State).thread? r := by
    rw [State.thread?, settleRejoin_threads]; rfl
  rw [only, thread?_map s _ (rejoined_ref core slot s), h, Option.map_some]

theorem warp_of_warp? {s : State} {core slot : Nat} {w : Warp} (h : s.warp? core slot = some w) : s.warp core slot = w := by
  rw [State.warp, h, Option.getD_some]

/-- What the end of a cycle makes of a warp. -/
theorem settleRejoin_warp? {s : State} {core slot : Nat} {w : Warp} (h : s.warp? core slot = some w) :
    (settleRejoin core slot s).warp? core slot =
      some { w with rejoin := w.rejoin.filter (fun e => !releases s core slot e), left := 0 } := by
  rw [State.warp?, settleRejoin_warps, warp_of_warp? h]
  have found := warp?_modWarp_at s core slot (fun v => { v with
    rejoin := w.rejoin.filter (fun e => !releases s core slot e), left := 0 }) (fun _ _ _ => rfl)
  rwa [h] at found

/-- An entry is released where its live expected lanes have all arrived, and it has an arrival or has lost a lane in this cycle. -/
theorem releases_iff {s : State} {core slot : Nat} {w : Warp} (h : s.warp? core slot = some w) (e : RejoinEntry) :
    releases s core slot e = true ↔
      (∀ i < 32, e.mask.getLsbD i = true → (∃ t ∈ s.threadsOfWarp core slot, t.ref.lane = i) → e.arrived.getLsbD i = true) ∧
      (e.arrived ≠ 0 ∨ e.mask &&& w.left ≠ 0) := by
  rw [releases, warp_of_warp? h, Bool.and_eq_true, rejoinMet_iff, Bool.or_eq_true, bne_iff_ne, bne_iff_ne]
  refine and_congr_left' (forall₂_congr fun i lane => ?_)
  rw [getLsbD_laneMask _ lane]

/-- A lane is released by an entry at which it has arrived. -/
theorem hasLane_released_iff {s : State} {core slot : Nat} {w : Warp} (h : s.warp? core slot = some w) (lane : Nat) :
    hasLane (released s core slot) lane = true ↔
      ∃ e ∈ w.rejoin, releases s core slot e = true ∧ e.arrived.getLsbD lane = true := by
  simp [hasLane, released, warp_of_warp? h, getLsbD_foldl_or, List.mem_filter, and_assoc]

/-- Settles O8: RJSET by what the table holds of its point, RJWAIT by the entry of its program counter, and the release by what it makes of a
thread and of its warp. -/
theorem controlWords : Obligations.ControlWords := by
  intro f s th
  refine ⟨fun h => ⟨execExit_block h, execExit_trapWarp h⟩, fun h => done_of h rfl, fun h => done_of h rfl,
    fun h => ⟨fun zero => done_of h (if_pos zero), fun more => waits_of h (if_neg more)⟩, fun h => traps_of h rfl, fun h => traps_of h rfl,
    fun h slot => ⟨execRjset_known h slot, execRjset_full h slot, execRjset_new h slot⟩,
    fun h => ⟨execRjwait_no_entry h, fun e entry => ⟨execRjwait_waits h entry, execRjwait_traps h entry⟩⟩, ?release⟩
  case release =>
    intro core slot r x w hw hx hcore hslot live met frees t
    have met_iff (e : RejoinEntry) : releases s core slot e = true ↔ met e := releases_iff hw e
    have frees_iff : (x.ref.core = core ∧ x.ref.slot = slot ∧ x.status = .rejoin ∧
        hasLane (released s core slot) x.ref.lane = true) ↔ frees := by
      simp only [thread?_ref hx, hcore, hslot, true_and, hasLane_released_iff hw, met_iff, frees]
    have thread := settleRejoin_thread? core slot hx
    refine ⟨fun yes => ?_, fun no => ?_, _, settleRejoin_warp? hw, fun e => ?_⟩
    · rw [thread, rejoined, if_pos (frees_iff.mpr yes)]
    · rw [thread, rejoined, if_neg (mt frees_iff.mp no)]
    · rw [List.mem_filter, Bool.not_eq_true', ← met_iff, Bool.not_eq_true]

end Sys2Proof.Proofs
end

section
/-! PROOFS. The warp collectives (R137–R146): arrival, which collectives complete at the end of a cycle, what completion makes of a participant, and
what each participant receives. -/

namespace Sys2Proof.Proofs

open Sys2Proof.Machine Sys2Proof.Safety Sys2Proof.Laws

/-! ## Arrival, and the collectives that are full (R137, R141) -/

/-- SHFL reads its second operand modulo 32 (R141). -/
theorem execShfl_eq (f : Fields) (s : State) : execShfl f s = issueOp 0x1C0 f s (fun c =>
    arriveColl c 0 (c.regv 0 c.w f.a.toNat) ((if Forms.m4 f then f.imm.toNat else (c.reg 1 f.b.toNat).toNat) % 32) false) := by
  simp only [execShfl, apply_ite (· % 32)]

theorem getLsbD_ofNat_two_pow (n : Nat) {i : Nat} (lane : i < 32) : (BitVec.ofNat 32 (2 ^ n)).getLsbD i = true ↔ n = i := by
  rw [BitVec.getLsbD_ofNat, Nat.testBit_two_pow, decide_eq_true lane, Bool.true_and, decide_eq_true_iff]

/-- The lanes of the participants that satisfy a predicate. -/
theorem getLsbD_lanesWhere (k : Collective) (g : Participant → Bool) {i : Nat} (lane : i < 32) :
    (lanesWhere k g).getLsbD i = true ↔ ∃ q ∈ k.arrived, q.lane = i ∧ g q = true := by
  have union : lanesWhere k g = (k.arrived.filter g).foldl (fun acc q => acc ||| BitVec.ofNat 32 (2 ^ q.lane)) 0 :=
    List.foldl_filter.symm
  rw [union, getLsbD_foldl_or]
  simp only [getLsbD_ofNat_two_pow _ lane, List.mem_filter, and_assoc, and_comm (a := g _ = true), BitVec.ofNat_eq_ofNat,
    BitVec.getLsbD_zero, Bool.false_eq_true, false_or]

/-- Every lane that the collective expects and that is live has arrived. -/
def collFull (s : State) (core slot : Nat) (k : Collective) : Bool := (List.range 32).all (fun i => !(k.mask.getLsbD i) ||
  (s.threadsOfWarp core slot).all (fun t => t.ref.lane != i) || k.arrived.any (fun q => q.lane == i))

/-- The masks say of a collective that it is full, as of a rejoin entry that its condition holds. -/
theorem collFull_eq (s : State) (core slot : Nat) (k : Collective) : collFull s core slot k =
    (k.mask &&& laneMask (s.threadsOfWarp core slot) &&& ~~~ (lanesWhere k (fun _ => true)) == 0) := by
  have masks := rejoinMet_iff (laneMask (s.threadsOfWarp core slot)) ⟨0, k.mask, lanesWhere k (fun _ => true)⟩
  refine Bool.eq_iff_iff.mpr (Iff.trans ?_ masks.symm)
  simp only [collFull, List.all_eq_true, List.mem_range]
  refine forall₂_congr fun i lane => ?_
  rw [getLsbD_laneMask _ lane, getLsbD_lanesWhere _ _ lane]
  cases k.mask.getLsbD i <;> simp [imp_iff_not_or]

/-- At the end of a cycle the full collectives leave the warp's list, and complete. -/
theorem settleColls_eq (core slot : Nat) (s : State) :
    settleColls core slot s = ((s.warp core slot).colls.filter (collFull s core slot)).foldl (fun s k => completeColl core slot k s)
      (s.modWarp core slot (fun w => { w with colls := w.colls.filter (fun k => !(collFull s core slot k)) })) := by
  have masks : collFull s core slot = fun k => k.mask &&& laneMask (s.threadsOfWarp core slot) &&& ~~~ (lanesWhere k (fun _ => true)) == 0 :=
    funext (collFull_eq s core slot)
  rw [masks]
  rfl

/-! ## Completion, for one participant (R136, R137) -/

/-- The end of a wait moves the thread on and makes it ready; what it holds is what it was. -/
theorem finish_eq (n : Nat) (x : Thread) : x.finish n = { x with
    pc := (x.finish n).pc, rep := (x.finish n).rep, status := .ready, age := Nat.max x.readyAt n, readyAt := Nat.max x.readyAt n,
    edited := false } := by
  unfold Thread.finish Thread.advance
  repeat' split
  all_goals rfl

theorem finish_w (n : Nat) (x : Thread) : (x.finish n).w = x.w := by rw [finish_eq]
theorem finish_p (n : Nat) (x : Thread) : (x.finish n).p = x.p := by rw [finish_eq]
theorem finish_calls (n : Nat) (x : Thread) : (x.finish n).calls = x.calls := by rw [finish_eq]
theorem finish_tracked (n : Nat) (x : Thread) : (x.finish n).tracked = x.tracked := by rw [finish_eq]

/-- The result that a participant awaits once its collective completes in cycle `clock`: none, where it receives nothing. -/
def awaited (k : Collective) (p : Participant) (id clock : Nat) : List Tracked :=
  if (collResult k p).1.isEmpty && (collResult k p).2.isEmpty then []
  else [⟨id, clock + collLatency k, true, true, (collResult k p).1, (collResult k p).2⟩]

theorem awaited_nothing {k : Collective} {p : Participant} (id clock : Nat) (regs : (collResult k p).1 = []) (preds : (collResult k p).2 = []) :
    awaited k p id clock = [] := if_pos (by rw [regs, preds]; rfl)

theorem awaited_something {k : Collective} {p : Participant} (id clock : Nat) (something : ¬((collResult k p).1 = [] ∧ (collResult k p).2 = [])) :
    awaited k p id clock = [⟨id, clock + collLatency k, true, true, (collResult k p).1, (collResult k p).2⟩] :=
  if_neg (by simpa only [Bool.and_eq_true, List.isEmpty_iff] using something)

/-- A participant once its collective has completed in cycle `clock`. -/
def completed (k : Collective) (p : Participant) (id clock : Nat) (x : Thread) : Thread :=
  { x.finish (clock + 1) with age := clock + 1, tracked := (x.finish (clock + 1)).tracked ++ awaited k p id clock }

theorem completed_ref (k : Collective) (p : Participant) (id clock : Nat) (x : Thread) : (completed k p id clock x).ref = x.ref :=
  finish_ref (clock + 1) x

/-- Two changes of one thread, the first of which keeps its place, are one. -/
theorem modThread_modThread (s : State) (r : TRef) {f : Thread → Thread} (g : Thread → Thread) (hf : ∀ t, (f t).ref = t.ref) :
    (s.modThread r f).modThread r g = s.modThread r (fun t => g (f t)) := by
  simp only [State.modThread, List.map_map]
  congr 2
  funext t
  by_cases here : t.ref = r
  · simp only [Function.comp_apply, if_pos here, if_pos ((hf t).trans here)]
  · simp only [Function.comp_apply, if_neg here]

/-- Completion, for one participant. -/
def completeOne (core slot : Nat) (k : Collective) (s : State) (p : Participant) : State :=
  let r : TRef := ⟨core, slot, p.lane⟩
  let u := ({ s with nextId := s.nextId + 1 } : State).modThread r (fun t => { t.finish (s.clock + 1) with age := s.clock + 1 })
  if (collResult k p).1.isEmpty && (collResult k p).2.isEmpty then u
  else u.track r ⟨s.nextId, s.clock + collLatency k, true, true, (collResult k p).1, (collResult k p).2⟩

theorem completeColl_eq (core slot : Nat) (k : Collective) (s : State) :
    completeColl core slot k s = k.arrived.foldl (completeOne core slot k) (progressWarp core slot s) := rfl

theorem completeOne_clock (core slot : Nat) (k : Collective) (s : State) (p : Participant) : (completeOne core slot k s p).clock = s.clock := by
  unfold completeOne
  dsimp only
  split
  · rfl
  · exact State.post_clock _ _

theorem completeOne_threads (core slot : Nat) (k : Collective) (s : State) (p : Participant) :
    (completeOne core slot k s p).threads = (s.modThread ⟨core, slot, p.lane⟩ (completed k p s.nextId s.clock)).threads := by
  unfold completeOne completed awaited
  dsimp only
  split
  · simp only [List.append_nil]
    rfl
  · rw [State.track, State.post_threads, modThread_modThread]
    · rfl
    · exact finish_ref (s.clock + 1)

/-- Completion makes this of its participant, and leaves every other thread. -/
theorem completeOne_thread? {core slot : Nat} {s : State} {p : Participant} {x : Thread} (k : Collective)
    (h : s.thread? ⟨core, slot, p.lane⟩ = some x) :
    (completeOne core slot k s p).thread? ⟨core, slot, p.lane⟩ = some (completed k p s.nextId s.clock x) := by
  rw [State.thread?, completeOne_threads]
  exact (thread?_modThread s (completed_ref k p s.nextId s.clock)).trans (congrArg _ h)

theorem completeOne_thread?_ne {core slot : Nat} {r : TRef} {p : Participant} (k : Collective) (s : State) (h : r ≠ ⟨core, slot, p.lane⟩) :
    (completeOne core slot k s p).thread? r = s.thread? r := by
  rw [State.thread?, completeOne_threads]
  exact thread?_modThread_ne s (completed_ref k p s.nextId s.clock) h

/-! ## Completion, for all of them (R137) -/

/-- The completion of other lanes leaves a thread. -/
theorem completeAll_thread?_ne {core slot lane : Nat} (k : Collective) (l : List Participant) (s : State)
    (others : lane ∉ l.map (fun q => q.lane)) :
    (l.foldl (completeOne core slot k) s).thread? ⟨core, slot, lane⟩ = s.thread? ⟨core, slot, lane⟩ := by
  induction l generalizing s with
  | nil => rfl
  | cons q l ih =>
    rw [List.map_cons, List.mem_cons, not_or] at others
    rw [List.foldl_cons, ih _ others.2]
    exact completeOne_thread?_ne k s (fun same => others.1 (congrArg TRef.lane same))

/-- Each participant of its own lane is completed once. -/
theorem completeAll_thread? {core slot : Nat} {p : Participant} {x : Thread} (k : Collective) {l : List Participant} {s : State}
    (lanes : (l.map (fun q => q.lane)).Nodup) (mem : p ∈ l) (h : s.thread? ⟨core, slot, p.lane⟩ = some x) :
    ∃ id, (l.foldl (completeOne core slot k) s).thread? ⟨core, slot, p.lane⟩ = some (completed k p id s.clock x) := by
  induction l generalizing s with
  | nil => exact absurd mem List.not_mem_nil
  | cons q l ih =>
    rw [List.map_cons, List.nodup_cons] at lanes
    obtain ⟨first, rest⟩ := lanes
    rw [List.foldl_cons]
    rcases List.mem_cons.mp mem with rfl | later
    · exact ⟨s.nextId, (completeAll_thread?_ne k l _ first).trans (completeOne_thread? k h)⟩
    · have lane : p.lane ≠ q.lane := fun same => first (same ▸ List.mem_map_of_mem later)
      have other : (⟨core, slot, p.lane⟩ : TRef) ≠ ⟨core, slot, q.lane⟩ := mt (congrArg TRef.lane) lane
      have kept := completeOne_thread?_ne k s other
      have done := ih rest later (kept.trans h)
      rwa [completeOne_clock] at done

/-- What completion makes of a participant's thread. -/
theorem completeColl_thread? {core slot : Nat} {k : Collective} {p : Participant} {s : State} {x : Thread}
    (lanes : (k.arrived.map (fun q => q.lane)).Nodup) (mem : p ∈ k.arrived) (h : s.thread? ⟨core, slot, p.lane⟩ = some x) :
    ∃ id, (completeColl core slot k s).thread? ⟨core, slot, p.lane⟩ = some (completed k p id s.clock x) := by
  have same : (progressWarp core slot s).thread? ⟨core, slot, p.lane⟩ = some x := by
    rw [State.thread?, progressWarp_threads]; exact h
  have done := completeAll_thread? k lanes mem same
  rwa [progressWarp_clock, ← completeColl_eq] at done

/-! ## SHFL (R141) -/

/-- A participant of its own lane is found by its lane. -/
theorem participant?_lane {k : Collective} {q : Participant} (lanes : (k.arrived.map (fun q => q.lane)).Nodup) (mem : q ∈ k.arrived) :
    participant? k q.lane = some q := by
  obtain ⟨y, found⟩ : ∃ y, participant? k q.lane = some y :=
    Option.isSome_iff_exists.mp (List.find?_isSome.mpr ⟨q, mem, beq_self_eq_true q.lane⟩)
  have lane : y.lane = q.lane := by simpa using List.find?_some (show k.arrived.find? _ = some y from found)
  rw [found, List.inj_on_of_nodup_map lanes (List.mem_of_find?_eq_some found) mem lane]

theorem participant?_none {k : Collective} {lane : Nat} (absent : ∀ q ∈ k.arrived, q.lane ≠ lane) : participant? k lane = none :=
  List.find?_eq_none.mpr fun q mem => by simpa using absent q mem

section

variable {k : Collective} {p : Participant} {j : Int} (source : shflLane (k.m.toNat % 8) p.lane p.n = j)
include source

theorem shflValue_of_participant {q : Participant} (lanes : (k.arrived.map (fun q => q.lane)).Nodup) (mem : q ∈ k.arrived)
    (low : 0 ≤ j) (high : j ≤ 31) (lane : (q.lane : Int) = j) : shflValue k p = q.v := by
  subst source
  have found : participant? k (shflLane (k.m.toNat % 8) p.lane p.n).toNat = some q := by
    rw [← lane, Int.toNat_natCast]; exact participant?_lane lanes mem
  simp only [shflValue, if_pos (And.intro low high), found]

theorem shflValue_own (absent : j < 0 ∨ 31 < j ∨ ∀ q ∈ k.arrived, (q.lane : Int) ≠ j) : shflValue k p = p.v := by
  subst source
  by_cases range : 0 ≤ shflLane (k.m.toNat % 8) p.lane p.n ∧ shflLane (k.m.toNat % 8) p.lane p.n ≤ 31
  · have none : participant? k (shflLane (k.m.toNat % 8) p.lane p.n).toNat = none := by
      refine participant?_none fun q mem lane => ?_
      have := absent.resolve_left (by omega) |>.resolve_left (by omega) q mem
      omega
    simp only [shflValue, if_pos range, none]
  · simp only [shflValue, if_neg range]

end

/-! ## VOTE (R142) -/

theorem votePred_all {k : Collective} (mode : k.m.toNat % 4 = 0) : votePred k = true ↔ ∀ q ∈ k.arrived, q.x = true := by
  simp only [votePred, mode, List.all_eq_true]

theorem votePred_any {k : Collective} (mode : k.m.toNat % 4 = 1) : votePred k = true ↔ ∃ q ∈ k.arrived, q.x = true := by
  simp only [votePred, mode, List.any_eq_true]

theorem votePred_agree {k : Collective} (mode : k.m.toNat % 4 = 2) :
    votePred k = true ↔ (∀ q ∈ k.arrived, q.x = true) ∨ ∀ q ∈ k.arrived, q.x = false := by
  simp only [votePred, mode, Bool.or_eq_true, List.all_eq_true, Bool.not_eq_true']

/-! ## WRED (R143): folds over the participants' values -/

/-- The fold that keeps the lesser of two values ends at a least one. -/
theorem foldl_least {α : Type} (val : α → Int) (a : α) (l : List α) :
    let m := l.foldl (fun acc v => if val v < val acc then v else acc) a
    m ∈ a :: l ∧ ∀ y ∈ a :: l, val m ≤ val y := by
  induction l generalizing a with
  | nil => simp
  | cons b l ih =>
    obtain ⟨mem, least⟩ := ih (if val b < val a then b else a)
    rw [List.foldl_cons]
    generalize hm : l.foldl (fun acc v => if val v < val acc then v else acc) (if val b < val a then b else a) = m at mem least
    have below := least _ List.mem_cons_self
    simp only [List.mem_cons, forall_eq_or_imp] at mem least ⊢
    by_cases less : val b < val a
    · rw [if_pos less] at mem below
      exact ⟨.inr mem, below.trans less.le, below, least.2⟩
    · rw [if_neg less] at mem below
      exact ⟨mem.imp_right .inr, below, below.trans (not_lt.mp less), least.2⟩

/-! The bits of the conjunction, the disjunction and the exclusive or of some values. -/

theorem getLsbD_andAll {w : Nat} (i : Nat) (a : BitVec w) (l : List (BitVec w)) :
    (l.foldl (· &&& ·) a).getLsbD i = true ↔ ∀ y ∈ a :: l, y.getLsbD i = true := by
  induction l generalizing a with
  | nil => simp
  | cons b l ih => simp [ih, and_assoc]

theorem getLsbD_orAll {w : Nat} (i : Nat) (a : BitVec w) (l : List (BitVec w)) :
    (l.foldl (· ||| ·) a).getLsbD i = true ↔ ∃ y ∈ a :: l, y.getLsbD i = true := by
  induction l generalizing a with
  | nil => simp
  | cons b l ih => simp [ih, or_assoc]

/-- A bit of the exclusive or of some values is set where an odd number of them have it. -/
theorem getLsbD_xorAll {w : Nat} (i : Nat) (a : BitVec w) (l : List (BitVec w)) :
    (l.foldl (· ^^^ ·) a).getLsbD i = decide (((a :: l).filter (fun y => y.getLsbD i)).length % 2 = 1) := by
  induction l generalizing a with
  | nil => cases h : a.getLsbD i <;> simp [h]
  | cons b l ih =>
    rw [List.foldl_cons, ih]
    cases ha : a.getLsbD i <;> cases hb : b.getLsbD i <;> simp [ha, hb, Nat.add_assoc]

/-! ## WRED (R143): the reductions -/

/-- The value that an integer reduction of type `ty` compares: signed for an even type, of the low half for one of 32 bits. -/
def redOrder (ty : Nat) (y : DWord) : Int :=
  if ty % 2 = 0 then (if (if Forms.wide ty then 64 else 32) = 64 then y.toInt else (y.extractLsb' 0 32).toInt) else (y.toNat : Int)

theorem wredValue_floatSum {ty op : Nat} (float : ty = 8 ∨ ty = 9) (vs : List DWord) (sum : op = 0) :
    let F := if ty = 9 then Fmt.f64 else Fmt.f32
    wredValue ty op vs = BitVec.ofNat 64 (sumRound F .rne false true (vs.map (fun y => F.decode y.toNat))).code := by
  subst sum
  exact if_pos (by simpa using float)

theorem wredValue_floatMin {ty op : Nat} (float : ty = 8 ∨ ty = 9) (vs : List DWord) (min : op = 1) :
    let F := if ty = 9 then Fmt.f64 else Fmt.f32
    wredValue ty op vs =
      BitVec.ofNat 64 (vs.foldl (fun acc y => (minMaxNum F false (F.decode acc) (F.decode y.toNat)).code) F.nan) := by
  subst min
  exact if_pos (by simpa using float)

theorem wredValue_floatMax {ty op : Nat} (float : ty = 8 ∨ ty = 9) (vs : List DWord) (max : op = 2) :
    let F := if ty = 9 then Fmt.f64 else Fmt.f32
    wredValue ty op vs =
      BitVec.ofNat 64 (vs.foldl (fun acc y => (minMaxNum F true (F.decode acc) (F.decode y.toNat)).code) F.nan) := by
  subst max
  exact if_pos (by simpa using float)

section

variable {ty op : Nat} {vs : List DWord} (int : ¬(ty == 8 || ty == 9) = true)
include int

theorem wredValue_sum (sum : op = 0) :
    (wredValue ty op vs).toNat = (vs.map (fun y => y.toNat)).sum % 2 ^ (if Forms.wide ty then 64 else 32) := by
  subst sum
  have total : vs.foldl (fun acc v => acc + v.toNat) 0 = (vs.map (fun y => y.toNat)).sum := by
    rw [List.sum_eq_foldl, List.foldl_map]
  have fits : 2 ^ (if Forms.wide ty then 64 else 32) ≤ 2 ^ 64 := by split <;> decide
  have branch : wredValue ty 0 vs = BitVec.ofNat 64 (vs.foldl (fun acc v => acc + v.toNat) 0 % 2 ^ (if Forms.wide ty then 64 else 32)) :=
    if_neg int
  rw [branch, total, BitVec.toNat_ofNat]
  exact Nat.mod_eq_of_lt ((Nat.mod_lt _ (Nat.two_pow_pos _)).trans_le fits)

variable (nonempty : vs ≠ [])
include nonempty

theorem wredValue_least (min : op = 1) : wredValue ty op vs ∈ vs ∧ ∀ y ∈ vs, redOrder ty (wredValue ty op vs) ≤ redOrder ty y := by
  subst min
  obtain ⟨a, l, rfl⟩ := List.exists_cons_of_ne_nil nonempty
  have fold : wredValue ty 1 (a :: l) = (a :: l).foldl (fun acc v => if redOrder ty v < redOrder ty acc then v else acc) a := by
    refine (if_neg int).trans ?_
    simp only [redOrder, beq_iff_eq, List.headD_cons]
    rfl
  rw [fold, List.foldl_cons, if_neg (lt_irrefl _)]
  exact foldl_least (redOrder ty) a l

theorem wredValue_greatest (max : op = 2) : wredValue ty op vs ∈ vs ∧ ∀ y ∈ vs, redOrder ty y ≤ redOrder ty (wredValue ty op vs) := by
  subst max
  obtain ⟨a, l, rfl⟩ := List.exists_cons_of_ne_nil nonempty
  have fold : wredValue ty 2 (a :: l) = (a :: l).foldl (fun acc v => if -redOrder ty v < -redOrder ty acc then v else acc) a := by
    refine (if_neg int).trans ?_
    simp only [redOrder, beq_iff_eq, List.headD_cons, neg_lt_neg_iff]
  rw [fold, List.foldl_cons, if_neg (lt_irrefl _)]
  simpa only [neg_le_neg_iff] using foldl_least (fun v => -redOrder ty v) a l

end

section

variable (ty : Nat) {op : Nat} {vs : List DWord}

theorem getLsbD_wredValue_and (nonempty : vs ≠ []) (and : op = 3) (i : Nat) :
    (wredValue ty op vs).getLsbD i = true ↔ ∀ y ∈ vs, y.getLsbD i = true := by
  subst and
  obtain ⟨a, l, rfl⟩ := List.exists_cons_of_ne_nil nonempty
  refine (getLsbD_andAll i a (a :: l)).trans ?_
  simp only [List.forall_mem_cons, and_self_left]

theorem getLsbD_wredValue_or (or : op = 4) (i : Nat) : (wredValue ty op vs).getLsbD i = true ↔ ∃ y ∈ vs, y.getLsbD i = true := by
  subst or
  refine (getLsbD_orAll i 0 vs).trans ?_
  simp

theorem getLsbD_wredValue_xor (xor : 5 ≤ op) (i : Nat) :
    (wredValue ty op vs).getLsbD i = decide ((vs.filter (fun y => y.getLsbD i)).length % 2 = 1) := by
  obtain ⟨n, rfl⟩ := Nat.exists_eq_add_of_le' xor
  refine (getLsbD_xorAll i 0 vs).trans ?_
  simp

end

/-! ## What each instruction gives a participant (R141–R146) -/

section

variable {k : Collective} {p : Participant}

theorem collResult_shfl (shfl : k.instr = 0) : collResult k p = (valueRegs (Forms.wide k.ty) p.d (shflValue k p), []) := by
  simp only [collResult, shfl]

theorem collResult_ballot (vote : k.instr = 1) (mode : k.m.toNat % 4 = 3) :
    collResult k p = ([(p.d, lanesWhere k (fun q => q.x))], []) := by
  simp only [collResult, vote, if_pos mode]

theorem collResult_vote (vote : k.instr = 1) (mode : k.m.toNat % 4 ≠ 3) : collResult k p = ([], [(p.d, votePred k)]) := by
  simp only [collResult, vote, if_neg mode]

theorem collResult_wred (wred : k.instr = 2) : collResult k p =
    (valueRegs (Forms.wide k.ty) p.d (wredValue k.ty (k.m.toNat % 8) (k.arrived.map (fun q => q.v))), []) := by
  simp only [collResult, wred]

theorem collResult_match (equal : k.instr = 3) :
    collResult k p = ([(p.d, lanesWhere k (fun q => q.v == p.v))], []) := by
  simp only [collResult, equal]

theorem collResult_elect (elect : k.instr = 4) :
    collResult k p = ([], [(p.d, k.arrived.all (fun q => decide (p.lane ≤ q.lane)))]) := by
  simp only [collResult, elect]

theorem collResult_wsync (wsync : k.instr = 5) : collResult k p = ([], []) := by
  simp only [collResult, wsync]

end

/-- Settles O9: the words by the arrival at their collective, the end of a cycle by the collectives that are full, completion by what it makes of a
participant's thread, and the results instruction by instruction. -/
theorem collectiveWords : Obligations.CollectiveWords := by
  intro f s th Arrives
  refine ⟨fun h mask => ?shfl, fun h mask => coll_of h rfl mask, fun h mask => coll_of h rfl mask, fun h mask => coll_of h rfl mask,
    fun h mask => coll_of h rfl mask, fun h mask => coll_of h rfl mask, fun core slot => settleColls_eq core slot s, ?complete, ?results⟩
  case shfl => rw [show exec (.shfl f) s = _ from execShfl_eq f s]; exact coll_of h rfl mask
  case complete =>
    intro core slot k p x lanes mem hx
    obtain ⟨id, done⟩ := completeColl_thread? lanes mem hx
    refine ⟨_, done, finish_status (s.clock + 1) x, rfl, rfl, finish_w (s.clock + 1) x, finish_p (s.clock + 1) x,
      finish_calls (s.clock + 1) x, fun regs preds => ?_, fun something => ⟨id, ?_⟩⟩
    · rw [completed, awaited_nothing _ _ regs preds, List.append_nil, finish_tracked]
    · rw [completed, awaited_something _ _ something, finish_tracked, collLatency]
  case results =>
    intro k p lanes mem vs regs lanes' gives
    have nonempty : vs ≠ [] := List.ne_nil_of_mem (List.mem_map_of_mem mem)
    have ballot (g : Participant → Bool) (given : collResult k p = ([(p.d, lanesWhere k g)], [])) : lanes' (fun q => g q = true) :=
      ⟨_, given, fun i lane => getLsbD_lanesWhere k g lane⟩
    refine ⟨fun shfl => ?source, fun vote => ⟨fun mode => ?all, fun mode => ?any,
      fun mode => ?agree, fun mode => ballot _ (collResult_ballot vote mode)⟩, fun wred => ⟨_, collResult_wred wred, ?red⟩,
      fun same => ?same, fun elect => ⟨_, collResult_elect elect, ?least⟩, collResult_wsync⟩
    case source =>
      intro j
      refine ⟨fun q arrived low high lane => ?_, fun absent => ?_⟩
      · rw [← shflValue_of_participant (j := j) rfl lanes arrived low high lane]; exact collResult_shfl shfl
      · rw [← shflValue_own (j := j) rfl absent]; exact collResult_shfl shfl
    case all => exact ⟨_, collResult_vote vote (by omega), votePred_all mode⟩
    case any => exact ⟨_, collResult_vote vote (by omega), votePred_any mode⟩
    case agree => exact ⟨_, collResult_vote vote (by omega), votePred_agree mode⟩
    case same => simpa only [beq_iff_eq] using ballot _ (collResult_match same)
    case least => simp only [List.all_eq_true, decide_eq_true_iff]
    case red =>
      intro w val F op
      have int (not32 : k.ty ≠ 8) (not64 : k.ty ≠ 9) : ¬(k.ty == 8 || k.ty == 9) = true := by simp [not32, not64]
      exact ⟨fun not32 not64 => ⟨wredValue_sum (int not32 not64), wredValue_least (int not32 not64) nonempty,
          wredValue_greatest (int not32 not64) nonempty⟩,
        fun float => ⟨wredValue_floatSum float vs, wredValue_floatMin float vs, wredValue_floatMax float vs⟩,
        getLsbD_wredValue_and k.ty nonempty, getLsbD_wredValue_or k.ty, getLsbD_wredValue_xor k.ty⟩

end Sys2Proof.Proofs
end

section
/-! PROOFS. The block, gang and household barriers (R147–R149): arrival, completion, and the going on of a released thread. -/

namespace Sys2Proof.Proofs

open Sys2Proof.Machine Sys2Proof.Safety Sys2Proof.Laws

/-! ## Arrival (R147) -/

section

variable {op level : Nat} {f : Fields} {s : State} {th : Thread} {body : Ctx → Res} (h : Issues op f s th) (block : th.ref.slot ≠ 64)
  (hb : body (atIssue op f s th) = barrierBody level (atIssue op f s th))
include h block hb

/-- A thread arrives at once, or with `.rel` where its keys are satisfied. -/
theorem barrier_arrives (ready : f.m.getLsbD 0 = false ∨ ((atIssue op f s th).warp.faultOf 15 = none ∧
      (atIssue op f s th).s.keySatisfied (atIssue op f s th).warp 15 (relScope level) = true)) :
    Waits (issueOp op f s body) (atIssue op f s th) (arriveBarrier th level (Forms.immBits f 3 0) (atIssue op f s th).s) :=
  waits_of h (hb.trans (barrier_now block ready))

/-- With `.rel` a thread waits for its keys first. -/
theorem barrier_waits_keys (rel : f.m.getLsbD 0 = true) (sound : (atIssue op f s th).warp.faultOf 15 = none)
    (pending : (atIssue op f s th).s.keySatisfied (atIssue op f s th).warp 15 (relScope level) = false) :
    Waits (issueOp op f s body) (atIssue op f s th) ((atIssue op f s th).s.modThread th.ref
      (fun t => { t with status := .barrierKeys level (Forms.immBits f 3 0) ((atIssue op f s th).warp.waitsOf 15) })) :=
  waits_of h (hb.trans (barrier_keys block rel sound pending))

end

/-! ## Going on (R148) -/

theorem execBarrierRelease_released {s : State} {r : TRef} {th : Thread} (hth : s.thread? r = some th) (released : th.status = .released) :
    execBarrierRelease r s = .next ((s.modThread r (Thread.finish (s.clock + 1))).progressOf th) := by
  simp only [execBarrierRelease, hth, if_pos released]

/-! ## Completion (R147–R149) -/

/-- A live thread counts at the barrier of a level. -/
abbrev CountsAt (level own : Nat) (s : State) (x : Thread) : Prop := x ∈ s.threads ∧ s.atLevel level own x = true

/-- The barrier's condition: some thread of the level is live, every one waits there under the number, every block has started, and at a
household's barrier no gang has begun to depart. -/
def BarrierMet (level own id : Nat) (s : State) : Prop :=
  (∃ x, CountsAt level own s x) ∧ (∀ x, CountsAt level own s x → x.status = .barrier level id) ∧
  s.undispatched level own = false ∧ (level = 2 → ∀ h, s.hh? own = some h → h.att.any Attach.gone = false)

/-- The places of the threads that count at the barrier. -/
def barrierRefs (level own : Nat) (s : State) : List TRef := (s.threads.filter (s.atLevel level own)).map (fun x => x.ref)

theorem mem_barrierRefs {level own : Nat} {s : State} {r : TRef} :
    r ∈ barrierRefs level own s ↔ ∃ y, CountsAt level own s y ∧ y.ref = r := by
  simp only [barrierRefs, List.mem_map, List.mem_filter]

/-- A thread once its barrier has completed: ready again at a block's, released at a wider one. -/
def passed (level at_ : Nat) (x : Thread) : Thread := if level = 0 then x.finish at_ else { x with status := .released }

theorem passed_ref (level at_ : Nat) (x : Thread) : (passed level at_ x).ref = x.ref := by
  unfold passed
  split
  · exact finish_ref at_ x
  · rfl

/-- The restart of the watchdog counters of some threads' gangs changes no thread, and not the clock (R328). -/
theorem progressAll_threads (ts : List Thread) (s : State) : (ts.foldl (fun s t => s.progressOf t) s).threads = s.threads :=
  List.foldlRecOn (motive := fun u : State => u.threads = s.threads) ts _ rfl fun u same t _ => by
    unfold State.progressOf; split <;> exact same
theorem progressAll_clock (ts : List Thread) (s : State) : (ts.foldl (fun s t => s.progressOf t) s).clock = s.clock :=
  List.foldlRecOn (motive := fun u : State => u.clock = s.clock) ts _ rfl fun u same t _ => by
    unfold State.progressOf; split <;> exact same

theorem postAll_threads (es : List Instr) (s : State) : (s.postAll es).threads = s.threads :=
  List.foldlRecOn (motive := fun u : State => u.threads = s.threads) es _ rfl fun u same e _ => (State.post_threads e u).trans same

theorem mem_insertAt_of_mem {α : Type} {y : α} (n : Nat) (x : α) {l : List α} (mem : y ∈ l) : y ∈ insertAt n x l := by
  induction n generalizing l with
  | zero => exact List.mem_cons_of_mem x mem
  | succ n ih =>
    cases l with
    | nil => exact absurd mem List.not_mem_nil
    | cons z l =>
      rcases List.mem_cons.mp mem with rfl | later
      · exact List.mem_cons_self
      · exact List.mem_cons_of_mem z (ih later)

/-- What the agenda holds stays there as another event is entered. -/
theorem mem_post_agenda {e : Instr} (e' : Instr) {s : State} (mem : e ∈ s.agenda) : e ∈ (s.post e').agenda := by
  unfold State.post
  split
  · exact List.mem_append_left _ mem
  · exact mem_insertAt_of_mem _ e' mem

theorem mem_postAll_agenda {e : Instr} {es : List Instr} (s : State) (mem : e ∈ es ∨ e ∈ s.agenda) : e ∈ (s.postAll es).agenda := by
  induction es generalizing s with
  | nil => exact mem.resolve_left List.not_mem_nil
  | cons e' es ih =>
    refine ih (s.post e') ?_
    rcases mem with entered | held
    · rcases List.mem_cons.mp entered with rfl | later
      · exact .inr (post_agenda _ s)
      · exact .inl later
    · exact .inr (mem_post_agenda e' held)

/-- What the check of a barrier can do: nothing, where its condition is not met; else every thread that counts there passes, and the release of each
is due at a wider barrier. -/
theorem checkBarrier_cases (level own id : Nat) (s : State) :
    (¬BarrierMet level own id s ∧ checkBarrier level own id s = s) ∨
    (BarrierMet level own id s ∧
      (checkBarrier level own id s).threads =
        s.threads.map (fun x => if x.ref ∈ barrierRefs level own s then passed level (s.clock + 1) x else x) ∧
      (level ≠ 0 → ∀ r ∈ barrierRefs level own s, Instr.barrierRelease r ∈ (checkBarrier level own id s).agenda)) := by
  unfold checkBarrier
  dsimp only
  generalize hgone : (level == 2 && _ : Bool) = gone
  have departs : gone = false ↔ (level = 2 → ∀ h, s.hh? own = some h → h.att.any Attach.gone = false) := by
    rw [← hgone]
    cases s.hh? own <;> simp
  have stops : ((s.threads.filter (s.atLevel level own)).isEmpty || gone || s.undispatched level own ||
      !((s.threads.filter (s.atLevel level own)).all (fun t => t.status == .barrier level id))) = false ↔ BarrierMet level own id s := by
    simp only [BarrierMet, ← departs, Bool.or_eq_false_iff, Bool.not_eq_false', List.isEmpty_eq_false_iff_exists_mem, List.all_eq_true,
      List.mem_filter, beq_iff_eq, and_assoc]
    exact and_congr_right fun _ => by rw [← and_assoc, and_comm, and_comm (a := gone = false)]
  have refs (r : TRef) : ((s.threads.filter (s.atLevel level own)).map (fun x => x.ref)).contains r = true ↔ r ∈ barrierRefs level own s :=
    List.contains_iff_mem
  split
  · next stop => exact .inl ⟨fun met => Bool.false_ne_true ((stops.mpr met).symm.trans stop), rfl⟩
  · next go =>
    refine .inr ⟨stops.mp (Bool.eq_false_of_not_eq_true go), ?_⟩
    simp only [refs]
    split
    · next zero =>
      refine ⟨?_, fun wider => absurd zero wider⟩
      simp only [progressAll_threads, progressAll_clock, passed, if_pos zero]
    · next wider =>
      refine ⟨?_, fun _ r mem => mem_postAll_agenda _ (.inl (List.mem_map_of_mem mem))⟩
      simp only [postAll_threads, progressAll_threads, passed, if_neg wider]

/-- A thread whose place is counted passes, and another is what it was. -/
theorem thread?_of_passed {level own at_ : Nat} {s t : State} {r : TRef} {x : Thread}
    (threads : t.threads = s.threads.map (fun x => if x.ref ∈ barrierRefs level own s then passed level at_ x else x))
    (h : s.thread? r = some x) : t.thread? r = some (if r ∈ barrierRefs level own s then passed level at_ x else x) := by
  have place (x : Thread) : (if x.ref ∈ barrierRefs level own s then passed level at_ x else x).ref = x.ref := by
    split
    · exact passed_ref level at_ x
    · rfl
  have found := thread?_map s _ place r
  rw [h, Option.map_some, thread?_ref h] at found
  rw [State.thread?, threads]
  exact found

/-- Settles O10: the three words by the arrival at their level, the completion by what the check of a barrier can do. -/
theorem barrierWords : Obligations.BarrierWords := by
  intro f s th Arrives
  refine ⟨fun block => ⟨fun h => ?barb, fun h => ?barg, fun h stay => ?barh⟩, fun t => execBarrierRelease_released, ?completes⟩
  case barb => exact ⟨barrier_arrives (level := 0) h block rfl, barrier_waits_keys (level := 0) h block rfl⟩
  case barg => exact ⟨barrier_arrives (level := 1) h block rfl, barrier_waits_keys (level := 1) h block rfl⟩
  case barh =>
    exact ⟨barrier_arrives (level := 2) h block (by exact barh_go stay), barrier_waits_keys (level := 2) h block (by exact barh_go stay)⟩
  case completes =>
    intro level own id named ready t
    rcases checkBarrier_cases level own id s with ⟨unmet, same⟩ | ⟨met, threads, due⟩
    · exact ⟨fun _ => same, fun met => absurd met unmet⟩
    · refine ⟨fun unmet => absurd met unmet, fun _ r x hx => ?_⟩
      have found := thread?_of_passed threads hx
      refine ⟨fun named => ⟨fun zero => ?_, fun wider => ⟨?_, due wider r (mem_barrierRefs.mpr named)⟩⟩, fun other => ?_⟩
      · rw [found, if_pos (mem_barrierRefs.mpr named), passed, if_pos zero]
      · rw [found, if_pos (mem_barrierRefs.mpr named), passed, if_neg wider]
      · rw [found, if_neg fun mem => ?_]
        obtain ⟨y, named, place⟩ := mem_barrierRefs.mp mem
        exact other y named place

end Sys2Proof.Proofs
end

section
/-! PROOFS. The tables that Serril writes: HOME_WINDOW_WRITE, ATTRIBUTE_ENTRY_WRITE, BUFFER_ENTRY_CHANGE, FRAME_MAP_WRITE, POOL_SEGMENT_BIND and
POISON_SCRUB (R154, R156, R158, R300, R327, R360). -/

namespace Sys2Proof.Proofs

open Sys2Proof.Machine Sys2Proof.Laws

/-- A legal entry of an index in range takes effect once nothing is in flight under the old one (R158), and the engines see it (R160). -/
theorem execBufferEntryChange_takes {s : State} {ctx idx : Nat} {entry : BitVec 128} (legal : bufLegal entry = true) (inTable : idx < 2 ^ 20)
    (clear : s.handleInFlight ctx idx = false) :
    execBufferEntryChange ctx idx entry s = .next { s with
      tabs := { s.tabs with
        bufs := setEntry 0 (ctx, idx) entry s.tabs.bufs,
        bufLen := setAssoc ctx (Nat.max ((assoc ctx s.tabs.bufLen).getD 0) (idx + 1)) s.tabs.bufLen },
      engs := s.engs.map (EngOp.sees ctx idx),
      sch := { s.sch with saved := s.sch.saved.map (fun v => { v with engs := v.engs.map (EngOp.sees ctx idx) }) } } := by
  have taken : (!bufLegal entry || decide (idx ≥ 2 ^ 20)) = false := by
    rw [legal, decide_eq_false (Nat.not_le.mpr inTable)]
    rfl
  rw [execBufferEntryChange, taken, clear]
  rfl

/-- A segment and a port that exist are bound, and the segment is lost if its port is (R360). -/
theorem execPoolSegmentBind_binds {s : State} {seg port : Nat} (base len : Nat) (segExists : seg < 1024) (portExists : port < 6) :
    execPoolSegmentBind seg port base len s = .next { s with tabs := { s.tabs with
      segs := upsert (fun x => x.seg == seg)
        { seg := seg, port := port, base := base, len := len, lost := s.ext.portsLost.contains port, poisoned := false, cleared := [] }
        s.tabs.segs } } :=
  if_neg (not_or.mpr ⟨Nat.not_le.mpr segExists, Nat.not_le.mpr portExists⟩)

/-- Settles O26: four of the events have no condition, and their next state is the one named by definition (`setEntry` erases an entry of 0); a
buffer's entry and a pool segment by the lemma about the case in which each is taken. -/
theorem tableEvents : Obligations.TableEvents := by
  intro s ctx i e b home seg port base len
  refine ⟨?homeWindow, ?attributes, fun legal inTable clear => ?buffer, ?frameMap, fun segExists portExists => ?segment, ?scrub⟩
  case homeWindow => rfl
  case attributes => rfl
  case buffer => exact execBufferEntryChange_takes legal inTable clear
  case frameMap => rfl
  case segment => exact execPoolSegmentBind_binds base len segExists portExists
  case scrub => rfl

end Sys2Proof.Proofs
end

section
/-! PROOFS. The fault of a key, and the trap of a word that consumes a faulted one (R179, R220). -/

namespace Sys2Proof.Proofs

open Sys2Proof.Machine Sys2Proof.Safety Sys2Proof.Laws

/-! ## The fault of a key (R171, R179) -/

/-- Over the numbers 1 to n, the first for which `g` gives something decides. -/
theorem findSome?_succ_range {α : Type} {g : Nat → Option α} {n k : Nat} {x : α} (low : 1 ≤ k) (high : k ≤ n) (found : g k = some x)
    (before : ∀ j, 1 ≤ j → j < k → g j = none) : ((List.range n).map (· + 1)).findSome? g = some x := by
  induction n with
  | zero => omega
  | succ n ih =>
    rw [List.range_succ, List.map_append, List.findSome?_append]
    rcases Nat.lt_or_eq_of_le high with earlier | rfl
    · rw [ih (Nat.le_of_lt_succ earlier), Option.some_or]
    · have none_before : ((List.range n).map (· + 1)).findSome? g = none := by
        simp only [List.findSome?_eq_none_iff, List.mem_map, List.mem_range]
        rintro _ ⟨j, hj, rfl⟩
        exact before (j + 1) (by omega) (by omega)
      rw [none_before, Option.none_or]
      exact (List.findSome?_singleton ..).trans found

theorem faultOf_one (w : Warp) {k : Nat} (low : 1 ≤ k) (high : k ≤ 14) : w.faultOf k = (w.key k).fault := by
  rw [Warp.faultOf, coveredKeys, if_neg (by omega), if_neg (by omega), List.findSome?_singleton]

/-- k15 covers all fourteen keys, in their order. -/
theorem faultOf_all (w : Warp) : w.faultOf 15 = ((List.range 14).map (· + 1)).findSome? (fun k => (w.key k).fault) := rfl

theorem faultOf_all_none {w : Warp} (sound : ∀ k, 1 ≤ k → k ≤ 14 → (w.key k).fault = none) : w.faultOf 15 = none := by
  simp only [faultOf_all, List.findSome?_eq_none_iff, List.mem_map, List.mem_range]
  rintro _ ⟨k, hk, rfl⟩
  exact sound (k + 1) (by omega) (by omega)

/-! ## The trap of a consume (R179) -/

section

variable {c : Ctx} {x : Cause × DWord × Nat}

theorem keyChecked_faulted (go : Res) (faulted : c.warp.faultOf c.f.ck.toNat = some x) : keyChecked c go = .trap (TrapInfo.ofKey x) := by
  rw [keyChecked, faulted]

theorem memChecks_faulted (sp : Spaces) (need : Need) (n al : Nat) (ty : AtomPoint → Bool) (go : Target → Res)
    (faulted : c.warp.faultOf c.f.ck.toNat = some x) : memChecks c sp need n al ty go = .trap (TrapInfo.ofKey x) := by
  rw [memChecks, faulted]

theorem atomAccess_faulted (ret : Bool) (faulted : c.warp.faultOf c.f.ck.toNat = some x) : atomAccess c ret = .trap (TrapInfo.ofKey x) := by
  simp only [atomAccess, plainAccess, memChecks_faulted _ _ _ _ _ _ faulted]

end

/-- The opcodes that the statement lists, of words whose first check is that of the key they consume. -/
abbrev keyConsumers : List Nat :=
  [0x200, 0x201, 0x202, 0x203, 0x204, 0x205, 0x206, 0x207, 0x208, 0x209, 0x20A, 0x20B, 0x242, 0x243, 0x244, 0x245,
    0x280, 0x281, 0x282, 0x283, 0x284, 0x289, 0x2C0, 0x2C1, 0x2C2, 0x300, 0x302, 0x306, 0x307]

/-- The key that such a word consumes: FENCE consumes every key (R220; log 43, DEDUCED). -/
abbrev consumedKey (op : Nat) (f : Fields) : Nat := if op = 0x244 then 15 else f.ck.toNat

/-- A word whose consumed key is faulted traps with what the key recorded: each checks its key first. -/
theorem consume_traps {i : Instr} {op : Nat} {f : Fields} {s : State} {th : Thread} {x : Cause × DWord × Nat}
    (hw : Forms.wordOf i = some (op, f)) (hop : op ∈ keyConsumers) (h : Issues op f s th)
    (faulted : (atIssue op f s th).warp.faultOf (consumedKey op f) = some x) :
    Traps (exec i s) (atIssue op f s th) (TrapInfo.ofKey x) := by
  cases i with
  | ld _ | st _ | ldr _ | ldd _ | std _ | ldt _ | stt _ | atomCas _ | pref _ | cctlInv1 _ | cctlWb2 _ | cctlEvict2 _ | pgreq _ =>
    cases hw
    exact traps_of h (memChecks_faulted _ _ _ _ _ _ faulted)
  | cpy _ | cpyb _ | cpyf _ | accld _ | accst _ | coll _ | mma _ | mdrn _ | mzero _ | post _ | mbsend _ | chseq _ | glaunch _ =>
    cases hw
    exact traps_of h (keyChecked_faulted _ faulted)
  | atom _ | red _ =>
    cases hw
    exact traps_of h (atomAccess_faulted _ faulted)
  | kwait _ | ktest _ | ksend _ | cctlInv1all _ =>
    cases hw
    change (atIssue _ f s th).warp.faultOf f.ck.toNat = _ at faulted
    exact traps_of h (by dsimp only; rw [faulted])
  | fence _ =>
    cases hw
    change (atIssue _ f s th).warp.faultOf 15 = _ at faulted
    exact traps_of h (by dsimp only; rw [faulted])
  | _ => cases hw <;> exact absurd hop (by decide)

/-- Settles O56: the fault of a key and of k15 by the keys that each covers, and the trap of every word by what its own checks make of the
fault. -/
theorem faultedKeyTraps : Obligations.FaultedKeyTraps := by
  refine ⟨fun w k => faultOf_one w, fun w k x low high found before => ?_, fun w => faultOf_all_none,
    fun i op f s th cause addr n hw hop h faulted => consume_traps hw hop h faulted⟩
  exact findSome?_succ_range low high found before

end Sys2Proof.Proofs
end

section
/-! PROOFS. The key words: joining, copying, waiting, testing and clearing keys, and the arrivals that are sent and received (R178, R181, R182,
R219–R222, R391). -/

namespace Sys2Proof.Proofs

open Sys2Proof.Machine Sys2Proof.Safety Sys2Proof.Laws

/-! ## Joining, copying, waiting, testing and clearing (R178, R219, R220, R222) -/

/-- KJOIN and KCOPY: the first thread of a warp gives the key its producers and its fault, and the later ones of the issue change nothing. -/
theorem joins_of {op : Nat} {f : Fields} {s : State} {th : Thread} {body : Ctx → Res} {src : List Nat} (h : Issues op f s th)
    (hb : body (atIssue op f s th) = joinKeys (atIssue op f s th) f.pk.toNat src) :
    ((atIssue op f s th).keyAnswer = none → Done (issueOp op f s body) (atIssue op f s th)
      (noteKey th.ref 0 ((atIssue op f s th).modWarp (Warp.modKey f.pk.toNat (fun k => { k with
        producers := (src.flatMap (atIssue op f s th).warp.producersOf).eraseDups,
        fault := src.findSome? (atIssue op f s th).warp.faultOf }))))) ∧
    (∀ v, (atIssue op f s th).keyAnswer = some v → Done (issueOp op f s body) (atIssue op f s th) (atIssue op f s th).s) :=
  ⟨fun first => done_of h (hb.trans (join_none first)), fun _ later => done_of h (hb.trans (join_some later))⟩

theorem immBits_low (f : Fields) : Forms.immBits f 3 0 = f.imm.toNat % 16 := by simp [Forms.immBits]

theorem ite_one_zero (b : Bool) : (if b then 1 else 0) = b.toNat := by cases b <;> rfl

section

variable {f : Fields} {s : State} {th : Thread}

theorem execKwait_performed (h : Issues 0x242 f s th) (sound : (atIssue 0x242 f s th).warp.faultOf f.ck.toNat = none)
    (performed : (atIssue 0x242 f s th).s.allPerformed ((atIssue 0x242 f s th).warp.waitsOf f.ck.toNat) (Forms.scope f) = true) :
    Done (execKwait f s) (atIssue 0x242 f s th) (atIssue 0x242 f s th).s :=
  done_of h (by dsimp only; rw [sound]; exact if_pos performed)

theorem execKwait_outstanding (h : Issues 0x242 f s th) (sound : (atIssue 0x242 f s th).warp.faultOf f.ck.toNat = none)
    (outstanding : (atIssue 0x242 f s th).s.allPerformed ((atIssue 0x242 f s th).warp.waitsOf f.ck.toNat) (Forms.scope f) = false) :
    Waits (execKwait f s) (atIssue 0x242 f s th) ((atIssue 0x242 f s th).s.modThread th.ref (fun t =>
      { t with status := .kwait f.ck.toNat (Forms.scope f) ((atIssue 0x242 f s th).warp.waitsOf f.ck.toNat) })) :=
  waits_of h (by dsimp only; rw [sound]; exact if_neg (by simp [outstanding]))

/-- The predicate that KTEST has tested, ready in cycle `due` (R218). -/
def tested (r : TRef) (f : Fields) (due : Nat) (v : Bool) (t : State) : State :=
  ({ t with nextId := t.nextId + 1 } : State).track r ⟨t.nextId, due, true, true, [], [(f.d.toNat % 8, v)]⟩

theorem execKtest_first (h : Issues 0x243 f s th) (sound : (atIssue 0x243 f s th).warp.faultOf f.ck.toNat = none)
    (first : (atIssue 0x243 f s th).keyAnswer = none) :
    let now := (atIssue 0x243 f s th).s.keySatisfied (atIssue 0x243 f s th).warp f.ck.toNat (Forms.scope f)
    Done (execKtest f s) (atIssue 0x243 f s th) (tested th.ref f (s.clock + 4) now (noteKey th.ref now.toNat (atIssue 0x243 f s th).s)) := by
  intro now
  refine done_of h ?_
  dsimp only
  rw [sound, first, ← ite_one_zero]
  rfl

theorem execKtest_later {v : Nat} (h : Issues 0x243 f s th) (sound : (atIssue 0x243 f s th).warp.faultOf f.ck.toNat = none)
    (later : (atIssue 0x243 f s th).keyAnswer = some v) :
    Done (execKtest f s) (atIssue 0x243 f s th) (tested th.ref f (s.clock + 4) (v == 1) (atIssue 0x243 f s th).s) := by
  refine done_of h ?_
  dsimp only
  rw [sound, later]
  rfl

theorem execFence_done (h : Issues 0x244 f s th) (sound : (atIssue 0x244 f s th).warp.faultOf 15 = none) :
    Done (execFence f s) (atIssue 0x244 f s th) (atIssue 0x244 f s th).s :=
  done_of h (by dsimp only; rw [sound])

theorem execKclr_clears (h : Issues 0x247 f s th) (key : f.pk.toNat ≠ 0) (first : (atIssue 0x247 f s th).keyAnswer = none)
    (idle : ((atIssue 0x247 f s th).warp.key f.pk.toNat).producers = [])
    (empty : ((atIssue 0x247 f s th).warp.key f.pk.toNat).arrival = .none) :
    Done (execKclr f s) (atIssue 0x247 f s th)
      (noteKey th.ref 0 (settle ((atIssue 0x247 f s th).modWarp (Warp.modKey f.pk.toNat (fun _ => KeyState.clear))))) := by
  refine done_of h ?_
  dsimp only
  rw [if_neg key, first]
  exact if_pos (by rw [idle, empty]; rfl)

end

/-! ## KSEND (R181, R182, R221) -/

/-- The arrival of a thread of gang `g` goes to gang `dst`: its own, or an attached one of rank `rank` in its household (R221). -/
abbrev ReachesGang (c : Ctx) (g : Gang) (h : Household) (rank dst : Nat) : Prop :=
  rank = g.rank ∧ dst = g.uid ∨ rank ≠ g.rank ∧ h.copyOf c.th.ref.core g.rank = .attached ∧ h.copyOf c.th.ref.core rank = .attached ∧
    (((c.s.gangsOfHh h.uid).find? (fun x => x.rank == rank)).map (·.uid)).getD 0 = dst

section

variable {c : Ctx} {g : Gang} {h : Household} {rank dst : Nat} (there : ReachesGang c g h rank dst)
include there

theorem reachesGang_attached :
    ¬(rank ≠ g.rank ∧ (h.copyOf c.th.ref.core g.rank ≠ .attached ∨ h.copyOf c.th.ref.core rank ≠ .attached)) := by
  rintro ⟨other, departed⟩
  rcases there with ⟨own, -⟩ | ⟨-, here, gone, -⟩
  · exact other own
  · exact departed.elim (· here) (· gone)

theorem reachesGang_target : (if rank = g.rank then some g.uid
    else ((c.s.gangsOfHh h.uid).find? (fun x => x.rank == rank)).map (·.uid)).getD 0 = dst := by
  rcases there with ⟨own, rfl⟩ | ⟨other, -, -, rfl⟩
  · rw [if_pos own, Option.getD_some]
  · rw [if_neg other]

end

/-- The operations that a KSEND covers: the producers of its key from earlier issues. -/
def covered (c : Ctx) : List Nat := (c.warp.producersOf c.f.ck.toNat).filter (· < c.s.issue.firstId)

/-- The points that those used. -/
def coveredPoints (c : Ctx) : List Nat := ((c.s.ops.filter (fun o => (covered c).contains o.id)).flatMap (·.points)).eraseDups

/-- The arrival that a thread of gang `g` sends to gang `dst`, at the block, warp and slot that the operand names. -/
def arrivalTo (c : Ctx) (g : Gang) (dst operand : Nat) : Send :=
  { id := c.s.nextId, core := c.th.ref.core, fromGang := g.uid, gang := dst, block := operand / 2 ^ 10 % 64, warp := operand / 2 ^ 4 % 64,
    slot := operand % 16, scope := Forms.scope c.f, ops := covered c,
    points := (coveredPoints c).map (fun p => (p, c.s.sentTo c.th.ref.core p)), delivered := false, grp := c.s.issue.firstId }

/-- The state after an arrival has left, with a marker to each covered point. -/
def arrivalLeft (c : Ctx) (x : Send) : State :=
  (({ c.s with nextId := c.s.nextId + 1, sends := c.s.sends ++ [x] } : State).postAll
    ((coveredPoints c).map (.ksendMarker c.s.nextId))).post (.arrivalDelivery c.s.nextId)

theorem execKsend_sends {f : Fields} {s : State} {th : Thread} {g : Gang} {h : Household} {b : Block} {dst operand : Nat}
    (hI : Issues 0x245 f s th) (sound : (atIssue 0x245 f s th).warp.faultOf f.ck.toNat = none)
    (hg : (atIssue 0x245 f s th).s.gangOf th = some g) (hh : (atIssue 0x245 f s th).s.hhOf th = some h)
    (hb : (atIssue 0x245 f s th).s.blockOf th = some b)
    (hv : (((atIssue 0x245 f s th).va false).extractLsb' 0 32).toNat = operand)
    (legal : ¬(operand / 2 ^ 20 ≠ 0 ∨ operand % 16 = 0 ∨ operand % 16 = 15))
    (named : ¬(operand / 2 ^ 16 % 16 ≥ h.ngang ∨ operand / 2 ^ 10 % 64 ≥ g.nblock ∨ operand / 2 ^ 4 % 64 ≥ (b.ntid + 31) / 32))
    (there : ReachesGang (atIssue 0x245 f s th) g h (operand / 2 ^ 16 % 16) dst) :
    Done (execKsend f s) (atIssue 0x245 f s th) (arrivalLeft (atIssue 0x245 f s th) (arrivalTo (atIssue 0x245 f s th) g dst operand)) := by
  refine done_of hI ?_
  dsimp only
  rw [sound, hv]
  refine (if_neg legal).trans ?_
  rw [hg, hh, hb]
  refine (if_neg named).trans ((if_neg (reachesGang_attached there)).trans ?_)
  rw [← reachesGang_target there]
  rfl

/-! ## KRECV (R181, R222) -/

/-- The number of the gang of the thread that issues. -/
def ownGang (c : Ctx) : Nat := match c.s.blockOf c.th with | some b => b.gang | none => 0

theorem ownGang_of_block {c : Ctx} {gang : Nat} (h : (c.s.blockOf c.th).map (·.gang) = some gang) : ownGang c = gang := by
  obtain ⟨b, hb, rfl⟩ := Option.map_eq_some_iff.mp h
  rw [ownGang, hb]

/-- The arrival that a slot holds. -/
def heldArrival : ArrivalState → Option Nat
  | .held id => some id
  | _ => none

/-- The state after the slot of the produce key is armed for a thread of gang `gang`: its mark is outstanding, and a held arrival is taken. -/
def slotArmed (c : Ctx) (gang : Nat) : State :=
  noteKey c.th.ref 0 (State.modWarp c.th.ref.core c.th.ref.slot
    (Warp.modKey c.f.pk.toNat (fun k => { k with arrival := .armed c.s.nextId (heldArrival (c.warp.key c.f.pk.toNat).arrival) }))
    { c.s with nextId := c.s.nextId + 1, ops := c.s.ops ++ [⟨c.s.nextId, c.th.ref.core, c.th.ref.slot, gang, 0, []⟩] })

theorem execKrecv_arms {f : Fields} {s : State} {th : Thread} {gang : Nat} (h : Issues 0x246 f s th) (key : f.pk.toNat ≠ 0)
    (first : (atIssue 0x246 f s th).keyAnswer = none) (idle : ((atIssue 0x246 f s th).warp.key f.pk.toNat).producers = [])
    (sound : ((atIssue 0x246 f s th).warp.key f.pk.toNat).fault = none)
    (unarmed : ∀ m x, ((atIssue 0x246 f s th).warp.key f.pk.toNat).arrival ≠ .armed m x)
    (hg : ((atIssue 0x246 f s th).s.blockOf th).map (·.gang) = some gang) :
    Done (execKrecv f s) (atIssue 0x246 f s th)
      (satisfySlot ((slotArmed (atIssue 0x246 f s th) gang).warpOf th) f.pk.toNat (slotArmed (atIssue 0x246 f s th) gang)) := by
  refine done_of h ?_
  dsimp only
  rw [if_neg key, first, ← ownGang_of_block (c := atIssue 0x246 f s th) hg]
  refine (if_neg ?_).trans rfl
  rw [idle, sound]
  cases harr : ((atIssue 0x246 f s th).warp.key f.pk.toNat).arrival with
  | armed m x => exact absurd harr (unarmed m x)
  | none | held _ => exact Bool.false_ne_true

/-! ## All of them -/

/-- Settles O13: KJOIN and KCOPY by the one lemma about joining keys, every other word by the lemma about each of its cases. -/
theorem keyWords : Obligations.KeyWords := by
  intro f s th pk ck sc Joins
  refine ⟨fun h => ?kjoin, fun h => joins_of h rfl, fun h sound => ⟨execKwait_performed h sound, execKwait_outstanding h sound⟩,
    fun h sound => ⟨execKtest_first h sound, fun v => execKtest_later h sound⟩, execFence_done, fun h => ?ksend, fun h g => execKrecv_arms h,
    fun h => ⟨fun none => done_of h (if_pos none), execKclr_clears h⟩⟩
  case kjoin => exact joins_of h (by rw [← immBits_low])
  case ksend =>
    intro g hhd b dst sound hg hhh hb v hh blk wrp slot small slot0 slot15 inHh inGang inBlock there
    exact execKsend_sends h sound hg hhh hb rfl (by omega) (by omega) there

end Sys2Proof.Proofs
end

section
/-! PROOFS. The events of an access: resolved at its home, accepted, bound, performed, or failed (R174–R176, R187, R200, R201, R299). -/

namespace Sys2Proof.Proofs

open Sys2Proof.Machine Sys2Proof.Laws

section

variable {s : State} {id : Nat} {a : Access} (ha : s.acc? id = some a)
include ha

/-! ## At its home (R200, R299) -/

/-- An access that has reached its home is placed on a resident page. -/
theorem execHomeResolve_placed {p : Placed} (sent : a.phase = .sent)
    (carried : (s.pageHome a.ctx a.page).bind (fun h => wayHeld a.die h id s) = none) (valid : s.invalidating a.ctx a.page = false)
    (resident : s.resolveAcc a = .ok p) : execHomeResolve id s = .next (verdict a .ok (placeAccess a p s)) := by
  simp only [execHomeResolve, ha]
  rw [if_neg (by simp [sent]), if_pos sent, carried]
  simp [valid, resident]

/-- The home's answer accepts an access whose thread awaits it, a tile's beside. -/
theorem execAccessAccept_accepts (resolved : a.phase = .resolved .ok) (notPgreq : a.op ≠ .pgreq) (awaited : s.noOneAwaits a = false)
    (notLdt : ∀ sp lim, a.op ≠ .ldt sp lim) (notStt : ∀ aon sp lim, a.op ≠ .stt aon sp lim) :
    execAccessAccept id s = .next (acceptAccess a s) := by
  simp only [execAccessAccept, ha, resolved, awaited, if_neg notPgreq, Bool.false_eq_true, if_false]

/-! ## Loads (R174, R202) -/

section

variable {sx : Bool} (load : a.op = .ld sx) (accepted : a.phase = .accepted) (due : s.accDue a = true)
include load accepted due

/-- LD that is due and has its place binds as `bindDue` says. -/
theorem execLoadBind_ld (placed : a.placed = true) : execLoadBind id s = .next (bindDue a s) := by
  simp only [execLoadBind, ha, load, accepted, due, placed, ne_eq, not_true_eq_false, Bool.not_true, Bool.false_eq_true, if_false, if_true]

end

end

/-- A load of a scratchpad binds its bytes. -/
theorem bindDue_scratch {s : State} {a : Access} (scratch : a.mode = .scratch) (kept : s.lossOf a = none) (clean : s.poisonOf a.loc a.n = none)
    (good : s.badScratch (a.loc / 2 ^ 64 / 8) a.loc a.n = false) : bindDue a s = bindBytes a (s.readBytes a.loc a.n) s := by
  simp only [bindDue, kept, clean, scratch, good, Bool.false_eq_true, if_false]

/-- A load that L1 does not serve binds what its core sees at a line that its agent holds; an LDR what the bytes held at some moment. -/
theorem bindDue_line {s t : State} {a : Access} (notScratch : a.mode ≠ .scratch) (notRemote : ∀ d, a.mode ≠ .remote d)
    (kept : s.lossOf a = none) (clean : s.poisonOf a.loc a.n = none) (missed : fromL1 a s.free { s with free := s.free + 1 } = none)
    (ready : lineReady a false { s with free := s.free + 1 } = (t, true)) :
    bindDue a s = if a.isRead = true then bindBytes a (t.pastRead ((t.taskStart a.t).getD t.clock) a.loc a.n (Config.ldrBack s.free)) t
      else bindBytes a (t.seen a.t.core a.loc a.n) (fillL1 a a.loc t) := by
  simp only [bindDue, kept, clean, State.choice, missed, ready]
  cases mode : a.mode with
  | scratch => exact absurd mode notScratch
  | remote d => exact absurd mode (notRemote d)
  | _ => rfl

section

variable {s : State} {id : Nat} {a : Access} (ha : s.acc? id = some a)
include ha

/-! ## Atomics, stores and failures (R175, R176, R187, R201) -/

/-- An atomic that is due executes with the simultaneous ones of its group. -/
theorem execLoadBind_atom {x c : Bool} {o y : Nat} {t : State} (atom : a.op = .atom x c o y) (accepted : a.phase = .accepted)
    (due : s.atomsDue a = true) (ready : lineReady a true s = (t, true)) : execLoadBind id s = .next (runAtoms (t.groupSet a) t) := by
  simp only [execLoadBind, ha, atom, accepted, due, ready, ne_eq, not_true_eq_false, Bool.not_true, Bool.false_eq_true, if_false, if_true]

/-- The stores of a group that are all due enter the store queue. -/
theorem execStorePerform_queues (store : a.op = .st) (accepted : a.phase = .accepted) (complete : s.groupOpen a = false)
    (due : (s.groupSet a).all (fun b => b.phase == .accepted && s.accDue b) = true) :
    execStorePerform id 0 s = .next (queueStores (s.groupSet a) s) := by
  simp [execStorePerform, ha, store, accepted, complete, due]

/-- Queued stores that are due are applied at a line that their agent holds. -/
theorem execStorePerform_drains {t : State} (queued : a.phase = .coreDone) (due : s.drainDue a = true)
    (ready : lineReady a true s = (t, true)) :
    execStorePerform id 3 s = .next (drainStores (.storePerform id 3) (t.groupSet a) t) := by
  simp [execStorePerform, ha, queued, due, ready]

/-- An access fails once it is accepted and until it is visible. -/
theorem execAccessFailure_fails (c : Cause) (inFlight : a.phase = .accepted ∨ a.phase = .coreDone) :
    execAccessFailure id c s = .next (failAccess id c s) := by
  simp only [execAccessFailure, ha, if_pos inFlight]

end

/-- Settles O21: each event by the lemma about its case; a load that has its place by what `bindDue` makes of it. -/
theorem accessEvents : Obligations.AccessEvents := by
  intro s id a ha
  refine ⟨fun p => execHomeResolve_placed ha, execAccessAccept_accepts ha, fun sx load accepted scratch due kept clean good => ?scratch,
    fun sx t load accepted notScratch notRemote placed due kept clean missed ready => ?line, fun x c o y t => execLoadBind_atom ha,
    execStorePerform_queues ha, fun t => execStorePerform_drains ha, execAccessFailure_fails ha⟩
  case scratch =>
    have placed : a.placed = true := by rw [Access.placed, scratch]
    exact (execLoadBind_ld ha load accepted due placed).trans (congrArg _ (bindDue_scratch scratch kept clean good))
  case line =>
    exact (execLoadBind_ld ha load accepted due placed).trans (congrArg _ (bindDue_line notScratch notRemote kept clean missed ready))

end Sys2Proof.Proofs
end

section
/-! PROOFS. The markers and notices of KSEND, and the delivery of arrivals (R181–R183, R391). -/

namespace Sys2Proof.Proofs

open Sys2Proof.Machine Sys2Proof.Laws

/-- The state after the notice of a point has counted at an arrival. -/
def noticeCounted (id point : Nat) (s : State) : State := { s with sends := s.sends.map (fun (y : Send) =>
  if y.id = id then { y with points := y.points.filter (fun p => p.1 != point) } else y) }

section

variable {s : State} {id point : Nat} {x : Send} (hx : s.send? id = some x)
include hx

/-- A marker whose point has applied the messages counted and performed the covered operations sends its notice. -/
theorem execKsendMarker_gathered (applied : (assoc point x.points).getD 0 ≤ s.appliedAt x.core point)
    (performed : (s.ops.filter (fun o => x.ops.contains o.id && o.points.contains point)).all (fun o => s.performed o.id x.scope) = true) :
    execKsendMarker id point s = .next (s.post (.ksendNotice id point)) := by
  simp only [execKsendMarker, hx]
  exact if_pos ⟨applied, performed⟩

/-- A notice that its link carries counts at the arrival, whose warp's slot may be satisfied by it. -/
theorem execKsendNotice_counts {w : Warp} (carried : linkHeld (dieOfPoint point) (s.dieOfSend id) id s = none)
    (hw : s.warpNamed x.gang x.block x.warp = some w) :
    execKsendNotice id point s = .next (satisfySlot w x.slot (noticeCounted id point s)) := by
  have named : (noticeCounted id point s).warpNamed x.gang x.block x.warp = some w := hw
  simp only [noticeCounted] at named ⊢
  simp only [execKsendNotice, hx, carried, named]

/-! ## Delivery -/

section

variable (onWay : x.delivered = false)
  (first : s.sends.any (fun y => y.grp == x.grp && decide (y.id < x.id) && !y.delivered && y.gang == x.gang &&
    y.block == x.block && y.warp == x.warp && y.slot == x.slot) = false)
  (carried : linkHeld (x.core / 256) (s.dieOfSend id) id s = none)
include onWay first carried

/-- An arrival that nothing holds on its way is delivered where its gang runs and its block has started. -/
theorem execArrivalDelivery_delivers (here : s.gangAway x = false) (started : s.undelivered x = false) :
    execArrivalDelivery id s = .next (deliver x s) := by
  simp only [execArrivalDelivery, hx, onWay, first, here, started, carried, Bool.false_and, Bool.false_eq_true, if_false]

/-- One for a saved gang stays queued. -/
theorem execArrivalDelivery_queues (away : s.gangAway x = true) : execArrivalDelivery id s = .next { s with
      arrivals := s.arrivals ++ [id],
      sends := s.sends.map (fun (y : Send) => if y.id = id then { y with delivered := true } else y) } := by
  simp only [execArrivalDelivery, hx, onWay, first, away, carried, Bool.not_true, Bool.and_false, Bool.false_eq_true, if_false, if_true]

end

section

variable (delivered : x.delivered = true) (queued : s.arrivals.contains id = true)
include delivered queued

/-- One that found its die's queue full waits for room. -/
theorem execArrivalDelivery_waits (full : s.hasRoomFor id = false) : execArrivalDelivery id s = .next (s.post (.arrivalDelivery id)) := by
  simp only [execArrivalDelivery, hx, delivered, queued, full, if_true, Bool.not_true, Bool.not_false, Bool.false_eq_true, if_false]

variable (room : s.hasRoomFor id = true)
include room

/-- One that has entered its queue stays there while its gang is away. -/
theorem execArrivalDelivery_away (away : s.gangAway x = true) : execArrivalDelivery id s = .next s := by
  simp only [execArrivalDelivery, hx, delivered, queued, room, away, if_true, Bool.not_true, Bool.false_eq_true, if_false]

/-- One that has entered its queue leaves it for its slot, once that holds none; where its warp is gone, it is dropped. -/
theorem execArrivalDelivery_enters (here : s.gangAway x = false) (started : s.undelivered x = false)
    (free : s.slotFree x = true ∨ s.warpNamed x.gang x.block x.warp = none) :
    execArrivalDelivery id s = .next (deliver x { s with arrivals := s.arrivals.filter (· != id) }) := by
  have enters : (s.slotFree x || (s.warpNamed x.gang x.block x.warp).isNone) = true := by
    rcases free with h | h <;> simp [h]
  simp only [execArrivalDelivery, hx, delivered, queued, room, here, started, enters, if_true, Bool.not_true, Bool.false_eq_true, if_false]

end

end

/-- Settles O23: each event by the lemma about its case. -/
theorem arrivalEvents : Obligations.ArrivalEvents := by
  intro s id point x hx
  refine ⟨execKsendMarker_gathered hx, fun w => execKsendNotice_counts hx, fun onWay first started carried => ⟨fun here => ?delivers, ?queues⟩,
    fun delivered queued => ⟨execArrivalDelivery_waits hx delivered queued, execArrivalDelivery_away hx delivered queued,
      execArrivalDelivery_enters hx delivered queued⟩⟩
  case delivers =>
    exact execArrivalDelivery_delivers hx onWay first carried here (started.resolve_right (by rw [here]; exact Bool.false_ne_true))
  case queues => exact execArrivalDelivery_queues hx onWay first carried

end Sys2Proof.Proofs
end

section
/-! PROOFS. The chain walker (R251, R252) and the collective engine (R190, R281, R282). -/

namespace Sys2Proof.Proofs

open Sys2Proof.Machine Sys2Proof.Laws

/-! ## The walk (R251, R252) -/

section

variable {s : State} {id : Nat} {k : Chain} (hk : s.chain? id = some k) (walking : k.walking = true) (runs : s.blockRuns k.block = true)
include hk walking runs

/-- With no entry in its engine a walk goes on to the next. -/
theorem execChainEntryRun_idle (idle : k.busy = none) : execChainEntryRun id s = .next (nextEntry k s) := by
  simp only [execChainEntryRun, hk, walking, runs, idle, Bool.not_true, Bool.or_self, Bool.false_eq_true, if_false]

/-- An entry that has left its engine has performed: the completion word and the head are stored. -/
theorem execChainEntryRun_performed {o : Nat} (busy : k.busy = some o) (gone : s.eng? o = none) :
    execChainEntryRun id s = .next (storeDone k (k.count + 1) (some (k.count + 1))
      (fun s => (s.setChain { k with busy := none, count := k.count + 1 }).post (.chainEntryRun id)) s) := by
  simp only [execChainEntryRun, hk, walking, runs, busy, gone, Bool.not_true, Bool.or_self, Bool.false_eq_true, if_false]

/-- An entry that has stopped stops its chain. -/
theorem execChainEntryRun_stops {o : Nat} {e : EngOp} (busy : k.busy = some o) (there : s.eng? o = some e) (stopped : e.stopped = true) :
    execChainEntryRun id s = .next (stopChain k false s) := by
  simp only [execChainEntryRun, hk, walking, runs, busy, there, stopped, Bool.not_true, Bool.or_self, Bool.false_eq_true, if_false, if_true]

end

/-- At a good header whose ring is empty the walk ends. -/
theorem nextEntry_empty {s : State} {k : Chain} (good : s.badScratch k.core k.hdr 64 = false)
    (empty : chnHead (s.readLe k.hdr 64) = chnTail (s.readLe k.hdr 64)) (reservedHigh : recBits (s.readLe k.hdr 64) 511 208 = 0)
    (scope : chnScope (s.readLe k.hdr 64) ≤ 6) (reservedLow : recBits (s.readLe k.hdr 64) 198 197 = 0) (ring : 0 < chnLog (s.readLe k.hdr 64))
    (fits : chnLog (s.readLe k.hdr 64) ≤ 16) : nextEntry k s = s.setChain { k with walking := false } := by
  have sound : ¬(s.badScratch k.core k.hdr 64 = true ∨ recBits (s.readLe k.hdr 64) 511 208 ≠ 0 ∨ chnScope (s.readLe k.hdr 64) > 6 ∨
      recBits (s.readLe k.hdr 64) 198 197 ≠ 0 ∨ chnLog (s.readLe k.hdr 64) = 0 ∨ chnLog (s.readLe k.hdr 64) > 16) := by
    simp only [good, Bool.false_eq_true, false_or]
    omega
  rw [nextEntry]
  exact (if_neg sound).trans (if_pos empty)

/-- A completion word in a scratchpad is stored there, and the new head with it. -/
theorem storeDone_scratch {s : State} {k : Chain} {core loc : Nat} {b : Bool} (v n : Nat) (go : State → State)
    (reached : s.checkAccess (agent k.core k.block) Spaces.engine .write (chnDone (s.readLe k.hdr 64)) 8 8 = .ok (.scratch core loc b)) :
    storeDone k v (some n) go s = go ((s.writeBytes loc (bytesOf 8 v)).writeBytes (k.hdr + 20) (bytesOf 4 n)) := by
  have way : agentReach s k.core k.block Spaces.engine (chnDone (s.readLe k.hdr 64)) 8 8 true = .ok s loc .scratch := by
    simp only [agentReach, reached, if_true, Bool.not_true, Bool.false_and, Bool.false_eq_true, if_false]
  simp only [storeDone, way]
  rfl

/-! ## Collectives (R281, R282) -/

/-- The cause with which an operation has stopped. -/
def stopCause (e : EngOp) : Option Cause := match e.phase with | .stopped c => some c | _ => none

theorem stopCause_none {e : EngOp} (running : e.stopped = false) : stopCause e = none := by
  rw [EngOp.stopped] at running
  rw [stopCause]
  cases phase : e.phase with
  | stopped c => rw [phase] at running; cases running
  | _ => rfl

theorem findSome?_stopCause_none {es : List EngOp} (running : es.any (fun e => e.stopped) = false) : es.findSome? stopCause = none :=
  List.findSome?_eq_none_iff.mpr fun e mem => stopCause_none (Bool.eq_false_of_not_eq_true (List.any_eq_false.mp running e mem))

/-- What must hold of the participants of a collective before it computes: none has stopped or departed, they agree, those of this module have
joined and are accepted, and what they wait for has performed at fabric scope. -/
structure CollReady (s : State) (i : CollInst) (r : Nat) : Prop where
  running : (collParts s i).any (fun e => e.stopped) = false
  agree : (collParts s i).any (fun e => clShape e.recN != clShape r) = false
  present : collOrphan s i r = false
  joined : (collParts s i).length = (s.collHere i r).length
  accepted : (collParts s i).any (fun e => e.phase != .accepted || (s.engAct? e.id).isNone) = false
  ready : (collParts s i).all (fun e => s.allPerformed e.waits 4) = true

/-- A collective that is ready, whose sources are all read and whose destinations are all written performs. -/
theorem execCollCompute_performs {s u v : State} {id : Nat} {i : CollInst} {e0 : EngOp}
    (hi : s.sch.colls.find? (fun i => i.id == id) = some i) (h0 : i.parts.findSome? (fun p => s.eng? p.2) = some e0)
    (h : CollReady s i e0.recN) (read : collRead e0.recN (collParts s i) s = (u, none))
    (wrote : collWrite ((collParts u i).zip (u.collWrites i e0.recN (collParts u i))) u = (v, none, false)) :
    execCollCompute id s = .next ((collParts v i).foldl (fun s e => performEng e s) v) := by
  obtain ⟨running, agree, present, joined, accepted, ready⟩ := h
  simp only [execCollCompute, hi, h0, agree, present, joined, accepted, ready, read, wrote, lt_irrefl, Bool.not_true, Bool.false_eq_true,
    if_false]
  split
  · next stops => cases (findSome?_stopCause_none running).symm.trans stops
  · rfl

/-- Settles O31: the chain by what it finds of its entry, the collective by the lemma about one that is ready. -/
theorem chainEvents : Obligations.ChainEvents := by
  intro s id
  refine ⟨fun k hk walking runs => ⟨execChainEntryRun_idle hk walking runs, ?empty, ?performed, fun o e => execChainEntryRun_stops hk walking runs⟩,
    fun i e0 hi h0 running agree present joined accepted ready u v read => ?coll⟩
  case empty =>
    intro idle good empty reservedHigh scope reservedLow ring fits
    have ended := nextEntry_empty good empty reservedHigh scope reservedLow ring fits
    exact (execChainEntryRun_idle hk walking runs idle).trans (congrArg _ ended)
  case performed =>
    intro o core loc b busy gone reached
    exact (execChainEntryRun_performed hk walking runs busy gone).trans (congrArg _ (storeDone_scratch _ _ _ reached))
  case coll => exact execCollCompute_performs hi h0 ⟨running, agree, present, joined, accepted, ready⟩ read

end Sys2Proof.Proofs
end

section
/-! PROOFS. The words of class 0x8: the access that each enters once its checks pass (R199–R215). -/

namespace Sys2Proof.Proofs

open Sys2Proof.Machine Sys2Proof.Safety Sys2Proof.Laws

section

variable {op : Nat} {f : Fields} {s : State} {th : Thread} {body : Ctx → Res} {sp : Spaces} {need : Need} {tgt : Target}
  (issues : Issues op f s th)
include issues

/-! ## Plain accesses, tiles and ranges of lines -/

/-- A word whose effect is a plain access enters it. -/
theorem plainAccess_enters {n : Nat} {typeOk : AtomPoint → Bool} {aop : AccOp} {d1 d2 : List Byte}
    (effect : body (atIssue op f s th) = plainAccess (atIssue op f s th) sp need n aop d1 d2 typeOk)
    (may : MayAccess (atIssue op f s th) sp need n n typeOk tgt) :
    EntersAs (issueOp op f s body) (atIssue op f s th) tgt
      (enterAccess (atIssue op f s th) aop (atIssue op f s th).addr tgt n d1 d2 (Forms.rz f) f.c.toNat) :=
  entersAs_of issues (effect.trans (plain_go may))

/-- A word whose effect is a tile's access enters it, once its scratchpad pointer is aligned and its block is known. -/
theorem tileAccess_enters {mk : Nat → Nat → AccOp} {off : Nat} {b : Block}
    (effect : body (atIssue op f s th) = tileAccess (atIssue op f s th) need mk)
    (inner : decodePtr ((atIssue op f s th).pair 1 f.b.toNat) = some (.own off)) (aligned : off % 32 = 0)
    (block : (atIssue op f s th).s.blockOf th = some b) (may : MayAccess (atIssue op f s th) Spaces.mem need 64 64 anyPoint tgt) :
    EntersAs (issueOp op f s body) (atIssue op f s th) tgt
      (enterAccess (atIssue op f s th) (mk (scratchBase b.core + b.spBase + off) (scratchBase b.core + b.spBase + b.spSize))
        (atIssue op f s th).addr tgt 64 [] [] false f.c.toNat) :=
  entersAs_of issues (effect.trans (tile_go inner aligned block may))

/-- A word whose effect is an access to a range of lines enters it. -/
theorem rangeAccess_enters {aop : AccOp} (effect : body (atIssue op f s th) = rangeAccess (atIssue op f s th) sp aop)
    (may : MayAccess (atIssue op f s th) sp .read 1 1 anyPoint tgt) :
    EntersAs (issueOp op f s body) (atIssue op f s th) tgt
      (enterAccess (atIssue op f s th) aop (atIssue op f s th).addr tgt 1 [] [] false 7) :=
  entersAs_of issues (effect.trans (range_go may))

end

/-! ## The two words that go on at once -/

/-- CCTL.inv1all enters its access as accepted, with no check of an address (R214). -/
theorem execCctlInv1all_done {f : Fields} {s : State} {th : Thread} (issues : Issues 0x20A f s th)
    (sound : (atIssue 0x20A f s th).warp.faultOf f.ck.toNat = none) (room : keyFull (atIssue 0x20A f s th) = false) :
    let e := enterAccess (atIssue 0x20A f s th) (.cctl 1 0) 0 (.glob 0) 0 [] [] false 7
    Done (execCctlInv1all f s) (atIssue 0x20A f s th)
      ((e.2.modAcc e.1 (fun a => { a with phase := .accepted })).post (.loadBind e.1)) := by
  refine done_of issues ?_
  dsimp only
  rw [sound, room]
  rfl

/-- PGREQ sends its request to the home, and its thread goes on (R215). -/
theorem execPgreq_done {f : Fields} {s : State} {th : Thread} {tgt : Target} (issues : Issues 0x20B f s th)
    (may : MayAccess (atIssue 0x20B f s th) Spaces.mem .read 1 1 anyPoint tgt) :
    let e := enterAccess (atIssue 0x20B f s th) .pgreq (atIssue 0x20B f s th).addr tgt 1 [] [] false 7
    Done (execPgreq f s) (atIssue 0x20B f s th) (e.2.post (.homeResolve e.1)) :=
  done_of issues (memChecks_go may)

/-! ## All of them -/

/-- Settles O11: LDT and STT are tile accesses, and every other word is a plain one. -/
theorem memoryWords : Obligations.MemoryWords := by
  intro f s th tgt n Enters Tile
  refine ⟨fun h => ?ld, fun h => ?st, fun h => ?ldr, fun h => ?ldd, fun h => ?std, fun h off b => ?ldt, fun h off b => ?stt, fun h => ?atom,
    fun h => ?atomCas, fun h => ?red⟩
  case ldt => exact tileAccess_enters h rfl
  case stt => exact tileAccess_enters h rfl
  all_goals exact plainAccess_enters h rfl

/-- Settles O12: PREF and three forms of CCTL are accesses to a range; CCTL.inv1all and PGREQ by the lemma about each. -/
theorem lineWords : Obligations.LineWords := by
  intro f s th tgt Enters
  exact ⟨fun h => rangeAccess_enters h rfl, fun h => rangeAccess_enters h rfl, execCctlInv1all_done, fun h => rangeAccess_enters h rfl,
    fun h => rangeAccess_enters h rfl, execPgreq_done⟩

end Sys2Proof.Proofs
end

section
/-! PROOFS. The frame of the performing of accesses: what one store leaves, and that an event changes no byte but those that its accesses store to
(R205–R212, R176, R346, R347, R357). -/

namespace Sys2Proof.Proofs

open Sys2Proof.Machine Sys2Proof.Safety Sys2Proof.Laws

/-! ## One store (R205, R207) -/

section

variable {s : State} {a : Access}

/-- A store to another module's scratchpad lies outside this memory (log 17). -/
theorem applyStore_remote {dev : Nat} (remote : a.mode = .remote dev) : applyStore a s = s := by
  rw [applyStore, remote]

variable (here : ∀ dev, a.mode ≠ .remote dev)
include here

theorem applyStore_mem_here : (applyStore a s).mem = a.storeTo s.mem := by
  unfold applyStore
  split
  · next dev remote => exact absurd remote (here dev)
  · exact markDirty_mem _ _

variable (canonical : MemCanonical s)
include canonical

/-- A store whose memory is that of `bs` written at `loc` leaves those bytes there, and every other as it was. -/
theorem applyStore_writes {loc : Nat} {bs : List Byte} (stores : a.storeTo s.mem = Memory.writeN loc bs s.mem) :
    (applyStore a s).readBytes loc bs.length = bs ∧ SameOutside loc bs.length s (applyStore a s) := by
  have mem : (applyStore a s).mem = Memory.writeN loc bs s.mem := (applyStore_mem_here here).trans stores
  refine ⟨?inside, fun x outside => ?outside⟩
  case inside => rw [State.readBytes, mem, readN_writeN canonical]
  case outside => rw [mem, read_writeN_outside canonical loc bs outside]

theorem applyStore_st (st : a.op = .st) : (applyStore a s).readBytes a.loc a.data.length = a.data ∧
    SameOutside a.loc a.data.length s (applyStore a s) :=
  applyStore_writes here canonical (by rw [Access.storeTo, st])

/-- STD writes its line whole: a line's update is as long as the line. -/
theorem applyStore_std (std : a.op = .std) (aligned : a.loc % 4 = 0) :
    (applyStore a s).readBytes (lineNum a.loc * 128) 128 = stdLine (s.readBytes (lineNum a.loc * 128) 128) (a.loc % 128) a.data ∧
    SameOutside (lineNum a.loc * 128) 128 s (applyStore a s) := by
  have length : (stdLine (s.readBytes (lineNum a.loc * 128) 128) (a.loc % 128) a.data).length = 128 :=
    stdLine_length _ _ _ (readBytes_length s _ _) (by omega) (Nat.mod_lt _ (by decide))
  have written := applyStore_writes here canonical (loc := lineNum a.loc * 128)
    (bs := stdLine (s.readBytes (lineNum a.loc * 128) 128) (a.loc % 128) a.data) (by rw [Access.storeTo, std]; rfl)
  rwa [length] at written

end

/-! ## The events that perform accesses (R176, R346, R347, R357) -/

/-- An access that is performed with access `id` stores to byte x. -/
def StoredBy (s : State) (id x : Nat) : Prop := ∃ a b, s.acc? id = some a ∧ b ∈ s.groupSet a ∧ storesAt s b x

theorem storedBy_of_group {s : State} {id : Nat} {a b : Access} (ha : s.acc? id = some a) (hb : b ∈ s.groupSet a) (x : Nat)
    (hx : storesAt s b x) : StoredBy s id x :=
  ⟨a, b, ha, hb, hx⟩

/-- Whatever next state an outcome has, its memory is canonical, and every byte outside `D` is as in `m`. -/
def OutOff (D : Nat → Prop) (m : List Host.Cell) (o : Out) : Prop := ∀ t, o = .next t → Off D m t

theorem outOff_next {D : Nat → Prop} {m : List Host.Cell} {t : State} (h : Off D m t) : OutOff D m (.next t) :=
  fun _ e => by cases e; exact h

section

variable {s : State} (canonical : MemCanonical s)
include canonical

theorem off_of_mem {D : Nat → Prop} {t : State} (mem : t.mem = s.mem) : Off D s.mem t :=
  Off.of_mem ⟨canonical, fun _ _ => rfl⟩ mem

/-- An event that leaves memory as it was. -/
theorem outOff_of_mem {D : Nat → Prop} {t : State} (mem : t.mem = s.mem) : OutOff D s.mem (.next t) :=
  outOff_next (off_of_mem canonical mem)

variable {id : Nat} {a : Access} (ha : s.acc? id = some a)
include ha

section

variable {t : State} (mem : t.mem = s.mem) (accs : t.accs = s.accs)
include mem accs

/-- The atomics of a group execute. -/
theorem groupAtoms_off : Off (StoredBy s id) s.mem (runAtoms (t.groupSet a) t) := by
  rw [groupSet_accs accs]
  exact (off_of_mem canonical mem).runAtoms _ (fun _ hb => storedBy_of_group ha hb)

theorem atomsOrAgain_off (ok : Bool) (again : Instr) :
    OutOff (StoredBy s id) s.mem (.next (if ok then runAtoms (t.groupSet a) t else t.post again)) := by
  cases ok with
  | true => exact outOff_next (groupAtoms_off canonical ha mem accs)
  | false => exact outOff_of_mem canonical ((State.post_mem _ _).trans mem)

/-- The stores of a group are applied, or the event comes again. -/
theorem drainOrAgain_off (ok : Bool) (again : Instr) :
    OutOff (StoredBy s id) s.mem (.next (if ok then drainStores again (t.groupSet a) t else t.post again)) := by
  cases ok with
  | true =>
    rw [groupSet_accs accs]
    exact outOff_next ((off_of_mem canonical mem).drainStores again _ (fun _ hb => storedBy_of_group ha hb))
  | false => exact outOff_of_mem canonical ((State.post_mem _ _).trans mem)

end

/-- The stores of a group enter the store queue. -/
theorem groupQueue_off : Off (StoredBy s id) s.mem (queueStores (s.groupSet a) s) :=
  (off_of_mem canonical rfl).queueStores _ (fun _ hb => storedBy_of_group ha hb)

/-- A tile's access stands alone in its group. -/
theorem ldtStep_off {sp lim : Nat} (ldt : a.op = .ldt sp lim) : Off (StoredBy s id) s.mem (ldtStep a sp lim s) := by
  have alone : a ∈ s.groupSet a := by simp [State.groupSet, ldt, AccOp.cls]
  refine (off_of_mem canonical rfl).ldtStep a sp lim (fun u hu x lo hi => storedBy_of_group ha alone x (.inr ?_))
  rw [ldt]
  exact ⟨u, hu, lo, hi⟩

theorem sttStep_off {aon : Bool} {sp lim : Nat} (stt : a.op = .stt aon sp lim) : Off (StoredBy s id) s.mem (sttStep a aon sp s) := by
  have alone : a ∈ s.groupSet a := by simp [State.groupSet, stt]
  refine (off_of_mem canonical rfl).sttStep a aon sp (fun x lo hi => storedBy_of_group ha alone x (.inr ?_))
    (fun u hu x lo hi => storedBy_of_group ha alone x (.inr ?_))
  · rw [stt]
    exact .inl ⟨lo, hi⟩
  · rw [stt]
    exact .inr ⟨u, hu, lo, hi⟩

end

/-! ## What the two events of the issue's accesses can do (R174, R176, R208, R209) -/

section

variable {s : State} {id : Nat} {a : Access} (ha : s.acc? id = some a)
include ha

/-- LOAD_BIND leaves memory as it was, executes an atomic's group at a line that is held, or makes a step of an LDT. -/
theorem execLoadBind_cases : ∃ t, execLoadBind id s = .next t ∧ (t.mem = s.mem ∨
    (∃ ret cas o y, a.op = .atom ret cas o y ∧ t = runAtoms ((lineReady a true s).1.groupSet a) (lineReady a true s).1) ∨
    ∃ sp lim, a.op = .ldt sp lim ∧ t = ldtStep a sp lim s) := by
  simp only [execLoadBind, ha]
  split
  · exact ⟨_, rfl, .inl rfl⟩
  split
  case _ atom =>
    split
    · exact ⟨_, rfl, .inl (State.post_mem _ _)⟩
    split
    · exact ⟨_, rfl, .inr (.inl ⟨_, _, _, _, atom, rfl⟩)⟩
    · exact ⟨_, rfl, .inl (by simp)⟩
  case _ ldt =>
    split
    · exact ⟨_, rfl, .inl (State.post_mem _ _)⟩
    split
    · exact ⟨_, rfl, .inl (failAccess_mem _ _ _)⟩
    · exact ⟨_, rfl, .inr (.inr ⟨_, _, ldt, rfl⟩)⟩
  case _ pref =>
    split
    · exact ⟨_, rfl, .inl (State.post_mem _ _)⟩
    split <;> exact ⟨_, rfl, .inl (by simp)⟩
  case _ cctl =>
    split <;> exact ⟨_, rfl, .inl (by simp)⟩
  case _ load =>
    split
    · exact ⟨_, rfl, .inl (State.post_mem _ _)⟩
    split <;> exact ⟨_, rfl, .inl (by simp)⟩

/-- STORE_PERFORM at core scope leaves memory as it was, makes a step of an STT, or queues the stores of a group. -/
theorem execStorePerform_zero_cases : ∃ t, execStorePerform id 0 s = .next t ∧ (t.mem = s.mem ∨
    (∃ aon sp lim, a.op = .stt aon sp lim ∧ t = sttStep a aon sp s) ∨
    (∀ aon sp lim, a.op ≠ .stt aon sp lim) ∧ t = queueStores (s.groupSet a) s) := by
  have core : ¬ 0 ≥ 6 := by decide
  simp only [execStorePerform, ha, if_neg core, if_true]
  split
  · exact ⟨_, rfl, .inl rfl⟩
  split
  case _ stt =>
    split
    · exact ⟨_, rfl, .inl (State.post_mem _ _)⟩
    split
    · exact ⟨_, rfl, .inl (failAccess_mem _ _ _)⟩
    · exact ⟨_, rfl, .inr (.inl ⟨_, _, _, stt, rfl⟩)⟩
  case _ notStt =>
    split
    · exact ⟨_, rfl, .inl (State.post_mem _ _)⟩
    · exact ⟨_, rfl, .inr (.inr ⟨notStt, rfl⟩)⟩

end

/-- Stores that enter their core's queue, and those to other modules, leave memory as it was. -/
theorem queueStores_mem {as : List Access} (queued : ∀ b ∈ as, b.mode ≠ .scratch) (s : State) : (queueStores as s).mem = s.mem := by
  unfold queueStores
  rw [settle_mem]
  split
  · rfl
  · next b as =>
    split
    · next scratch => exact absurd scratch (queued b List.mem_cons_self)
    · exact foldl_mem _ (fun _ _ => by simp) _ _
    · exact foldl_mem _ (fun _ _ => by simp) _ _

/-- The gathering of markers (scope 6) leaves memory as it was. -/
theorem execStorePerform_six_mem (id : Nat) (s : State) : OutKeeps (· = s.mem) (execStorePerform id 6 s) := by
  simp only [execStorePerform, ge_iff_le, Nat.le_refl, if_true]
  cases s.gathered id with
  | false => simp
  | true => cases s.ops.find? (fun o => o.id == id) <;> simp [apply_ite State.mem]

/-! ## What each event leaves -/

section

variable {s : State} (canonical : MemCanonical s) (id : Nat)
include canonical

theorem execLoadBind_off : OutOff (StoredBy s id) s.mem (execLoadBind id s) := by
  cases ha : s.acc? id with
  | none => simp only [execLoadBind, ha]; exact outOff_of_mem canonical rfl
  | some a =>
    obtain ⟨t, next, mem | ⟨ret, cas, o, y, atom, rfl⟩ | ⟨sp, lim, ldt, rfl⟩⟩ := execLoadBind_cases ha
    · rw [next]; exact outOff_of_mem canonical mem
    · rw [next]; exact outOff_next (groupAtoms_off canonical ha (lineReady_mem _ _ _) (lineReady_accs _ _ _))
    · rw [next]; exact outOff_next (ldtStep_off canonical ha ldt)

theorem execStorePerform_zero_off : OutOff (StoredBy s id) s.mem (execStorePerform id 0 s) := by
  cases ha : s.acc? id with
  | none => simp only [execStorePerform, ha]; exact outOff_of_mem canonical rfl
  | some a =>
    obtain ⟨t, next, mem | ⟨aon, sp, lim, stt, rfl⟩ | ⟨-, rfl⟩⟩ := execStorePerform_zero_cases ha
    · rw [next]; exact outOff_of_mem canonical mem
    · rw [next]; exact outOff_next (sttStep_off canonical ha stt)
    · rw [next]; exact outOff_next (groupQueue_off canonical ha)

theorem execStorePerform_three_off : OutOff (StoredBy s id) s.mem (execStorePerform id 3 s) := by
  have module : ¬ 3 ≥ 6 := by decide
  have notCore : ¬ 3 = 0 := by decide
  simp only [execStorePerform, if_neg module, if_neg notCore]
  split
  · exact outOff_of_mem canonical rfl
  · next a ha =>
    split
    · exact outOff_of_mem canonical rfl
    split
    · exact outOff_of_mem canonical (State.post_mem _ _)
    · exact drainOrAgain_off canonical ha (lineReady_mem _ _ _) (lineReady_accs _ _ _) _ _

theorem execStorePerform_six_off : OutOff (StoredBy s id) s.mem (execStorePerform id 6 s) :=
  fun t e => off_of_mem canonical (execStorePerform_six_mem id s t e)

theorem execMaskedWrite_off : OutOff (StoredBy s id) s.mem (execMaskedWrite id s) := by
  unfold execMaskedWrite
  split
  · exact outOff_of_mem canonical rfl
  · next a ha =>
    split
    · exact outOff_of_mem canonical rfl
    split
    · exact outOff_of_mem canonical (State.post_mem _ _)
    split
    · next held => exact outOff_of_mem canonical ((State.post_mem _ _).trans (homeHeld_mem held))
    · exact drainOrAgain_off canonical ha (snoopWrites_mem _ _) (snoopWrites_accs _ _) _ _

theorem execBridgeMaskedWrite_off : OutOff (StoredBy s id) s.mem (execBridgeMaskedWrite id s) := by
  unfold execBridgeMaskedWrite
  split
  · exact outOff_of_mem canonical rfl
  · next a ha =>
    split
    · exact outOff_of_mem canonical rfl
    split
    · exact outOff_of_mem canonical (State.post_mem _ _)
    · exact drainOrAgain_off canonical ha (snoopWrites_mem _ _) (snoopWrites_accs _ _) _ _

theorem execHearthAtomic_off : OutOff (StoredBy s id) s.mem (execHearthAtomic id s) := by
  unfold execHearthAtomic
  split
  · exact outOff_of_mem canonical rfl
  · next a ha =>
    split
    · exact outOff_of_mem canonical rfl
    split
    · exact outOff_of_mem canonical (State.post_mem _ _)
    by_cases cached : a.mode = .cached
    · simp only [if_pos cached]
      exact atomsOrAgain_off canonical ha (recallLine_mem _ _ _) (recallLine_accs _ _ _) _ _
    · simp only [if_neg cached]
      exact atomsOrAgain_off canonical ha (snoopWrites_mem _ _) (snoopWrites_accs _ _) _ _

theorem execBridgeAtomic_off : OutOff (StoredBy s id) s.mem (execBridgeAtomic id s) := by
  unfold execBridgeAtomic
  split
  · exact outOff_of_mem canonical rfl
  · next a ha =>
    split
    · exact outOff_of_mem canonical rfl
    split
    · exact outOff_of_mem canonical (State.post_mem _ _)
    split
    · exact atomsOrAgain_off canonical ha (snoopWrites_mem _ _) (snoopWrites_accs _ _) _ _
    · exact atomsOrAgain_off canonical ha (lineReady_mem _ _ _) (lineReady_accs _ _ _) _ _

end

/-! ## The accesses that change no byte (R174, R176) -/

section

variable {s : State} {id : Nat} {a : Access} (ha : s.acc? id = some a)
include ha

/-- A load that is neither an atomic nor LDT leaves memory as it was. -/
theorem execLoadBind_mem (notAtom : ∀ ret cas o y, a.op ≠ .atom ret cas o y) (notLdt : ∀ sp lim, a.op ≠ .ldt sp lim) :
    OutKeeps (· = s.mem) (execLoadBind id s) := by
  obtain ⟨t, next, mem | ⟨ret, cas, o, y, atom, -⟩ | ⟨sp, lim, ldt, -⟩⟩ := execLoadBind_cases ha
  · rw [next]; exact (outKeeps_next t).mpr mem
  · exact absurd atom (notAtom ret cas o y)
  · exact absurd ldt (notLdt sp lim)

/-- Stores that go to their core's queue leave memory as it was. -/
theorem execStorePerform_zero_mem (notStt : ∀ aon sp lim, a.op ≠ .stt aon sp lim) (queued : ∀ b ∈ s.groupSet a, b.mode ≠ .scratch) :
    OutKeeps (· = s.mem) (execStorePerform id 0 s) := by
  obtain ⟨t, next, mem | ⟨aon, sp, lim, stt, -⟩ | ⟨-, rfl⟩⟩ := execStorePerform_zero_cases ha
  · rw [next]; exact (outKeeps_next t).mpr mem
  · exact absurd stt (notStt aon sp lim)
  · rw [next]; exact (outKeeps_next _).mpr (queueStores_mem queued s)

end

theorem sameMemory_of_keeps {s t : State} {o : Out} (keeps : OutKeeps (· = s.mem) o) (next : o = .next t) : SameMemory s t :=
  fun x => congrArg (Memory.read · x) (keeps t next)

/-- Each of the events that perform accesses. -/
theorem exec_performing_off {s : State} (canonical : MemCanonical s) {id : Nat} {e : Instr}
    (performing : e ∈ [.loadBind id, .storePerform id 0, .storePerform id 3, .storePerform id 6, .maskedWrite id, .hearthAtomic id,
      .bridgeAtomic id, .bridgeMaskedWrite id]) : OutOff (StoredBy s id) s.mem (exec e s) := by
  simp only [List.mem_cons, List.not_mem_nil, or_false] at performing
  obtain rfl | rfl | rfl | rfl | rfl | rfl | rfl | rfl := performing
  · exact execLoadBind_off canonical id
  · exact execStorePerform_zero_off canonical id
  · exact execStorePerform_three_off canonical id
  · exact execStorePerform_six_off canonical id
  · exact execMaskedWrite_off canonical id
  · exact execHearthAtomic_off canonical id
  · exact execBridgeAtomic_off canonical id
  · exact execBridgeMaskedWrite_off canonical id

/-- Settles O58: one store by what it writes; the events by the bytes that their accesses store to; a load and a queued store by the cases of
LOAD_BIND and STORE_PERFORM. -/
theorem storeFrame : Obligations.StoreFrame := by
  refine ⟨fun s a canonical => ⟨fun dev => applyStore_remote, fun st here => ?st, fun std here aligned => ?std⟩,
    fun s t id e canonical performing next x unstored => ?events, fun s t id a ha => ⟨fun notAtom notLdt next => ?load, fun notStt queued next => ?queue⟩⟩
  case st => exact applyStore_st here canonical st
  case std => exact applyStore_std here canonical std aligned
  case events =>
    exact (exec_performing_off canonical performing t next).same x (fun ⟨a, b, ha, hb, stored⟩ => unstored a b ha hb stored)
  case load => exact sameMemory_of_keeps (execLoadBind_mem ha notAtom notLdt) next
  case queue => exact sameMemory_of_keeps (execStorePerform_zero_mem ha notStt queued) next

end Sys2Proof.Proofs
end

section
/-! PROOFS. The updates of a barrier object (R239), and the words that make them or wait for one (R238, R278, R279). -/

namespace Sys2Proof.Proofs

open Sys2Proof.Machine Sys2Proof.Safety Sys2Proof.Laws

/-! ## The fields of an object (R238) -/

theorem obExp_lt (v : Nat) : obExp v < 2 ^ 16 := Nat.mod_lt _ (by decide)
theorem obCur_lt (v : Nat) : obCur v < 2 ^ 16 := Nat.mod_lt _ (by decide)
theorem obPend_lt (v : Nat) : obPend v < 2 ^ 48 := Nat.mod_lt _ (by decide)

/-- The pending count is kept modulo 2^48. -/
theorem obMake_pend_mod (w e cur : Nat) (ph : Bool) (pend : Nat) : obMake w e cur ph (pend % 2 ^ 48) = obMake w e cur ph pend := by
  rw [obMake, obMake, Nat.mod_mod]

/-! ## The updates before the phase test (R239) -/

section

variable {v n : Nat}

theorem obStep_release_within (h : n ≤ obPend v) :
    obStep (.release n) v = some (obMake v (obExp v) (obCur v) (obPhase v) (obPend v - n)) :=
  if_neg (Nat.not_lt.mpr h)

theorem obStep_release_beyond (h : obPend v < n) : obStep (.release n) v = none := if_pos h

theorem obStep_arrive_open (h : obCur v ≠ obExp v) :
    obStep .arrive v = some (obMake v (obExp v) (obCur v + 1) (obPhase v) (obPend v)) := if_neg h

theorem obStep_arrive_closed (h : obCur v = obExp v) : obStep .arrive v = none := if_pos h

theorem obStep_holdArrive_open (h : obCur v ≠ obExp v) :
    obStep (.holdArrive n) v = some (obMake v (obExp v) (obCur v + 1) (obPhase v) (obPend v + n)) := if_neg h

theorem obStep_holdArrive_closed (h : obCur v = obExp v) : obStep (.holdArrive n) v = none := if_pos h

/-- A delivery that the pending count covers takes its bytes off it. -/
theorem obStep_take_within (h : n ≤ obPend v) :
    obStep (.take n) v = some (obMake v (obExp v) (obCur v) (obPhase v) (obPend v - n)) := by
  have small := obPend_lt v
  have left : (obPend v + 2 ^ 48 - n % 2 ^ 48) % 2 ^ 48 = obPend v - n := by omega
  rw [obStep, ← obMake_pend_mod, left]

end

/-- Settles O55: each update by what it comes to before the phase test, with the bounds of the fields; the refusals by the same. -/
theorem barrierObjectUpdates : Obligations.BarrierObjectUpdates := by
  intro s loc canonical old comesTo
  have exp : obExp old < 2 ^ 16 := obExp_lt old
  have cur : obCur old < 2 ^ 16 := obCur_lt old
  have pend : obPend old < 2 ^ 48 := obPend_lt old
  have comes := objectUpdate_comes canonical loc
  refine ⟨fun e he => comes _ _ _ _ _ he (by decide) (by decide) _ rfl, fun n small => comes _ _ _ _ _ exp cur small _ rfl,
    fun n within => ?release, fun n beyond => objectUpdate_none (obStep_release_beyond beyond),
    fun isOpen more => ⟨?arrive, fun n small => ?holdArrive⟩,
    fun full => ⟨objectUpdate_none (obStep_arrive_closed full), fun n => objectUpdate_none (obStep_holdArrive_closed full)⟩,
    fun n within => ?take⟩
  case release => exact comes _ _ _ _ _ exp cur (Nat.lt_of_le_of_lt (Nat.sub_le _ _) pend) _ (obStep_release_within within)
  case arrive => exact comes _ _ _ _ _ exp more pend _ (obStep_arrive_open isOpen)
  case holdArrive => exact comes _ _ _ _ _ exp more small _ (obStep_holdArrive_open isOpen)
  case take => exact comes _ _ _ _ _ exp cur (Nat.lt_of_le_of_lt (Nat.sub_le _ _) pend) _ (obStep_take_within within)

/-! ## The words (R278, R279) -/

/-- A word whose operand is legal makes its update of the object that it reaches. -/
theorem objectBody_updates {op sc core loc : Nat} {f : Fields} {s : State} {th : Thread} {up : Nat → ObUpdate} {bad : Nat → Bool}
    (issues : Issues op f s th) (legal : bad ((atIssue op f s th).reg 1 f.b.toNat).toNat = false)
    (reaches : ReachesObject (atIssue op f s th) .write sc core loc) (t : State)
    (updated : objectUpdate loc (up ((atIssue op f s th).reg 1 f.b.toNat).toNat) (atIssue op f s th).s = some t) :
    Done (issueOp op f s (objectBody sc up bad)) (atIssue op f s th) (closed (atIssue op f s th) t) :=
  done_of issues (object_go legal reaches updated)

/-- OBWAIT goes on at once where the phase of the object is not its parity, and holds its thread where it is. -/
theorem execObwait_reaches {core loc : Nat} {f : Fields} {s : State} {th : Thread} (issues : Issues 0x288 f s th)
    (reaches : ReachesObject (atIssue 0x288 f s th) .read 0 core loc) :
    let c := atIssue 0x288 f s th
    let parity := (c.reg 1 f.b.toNat).getLsbD 0
    (obPhase (c.s.readLe loc 16) ≠ parity → Done (execObwait f s) c (closed c c.s)) ∧
    (obPhase (c.s.readLe loc 16) = parity → keyFull c = false → Waits (execObwait f s) c (closed c
      ((c.operation c.s).2.modThread th.ref (fun t => { t with status := .obwait loc parity (c.operation c.s).1 })))) := by
  intro c parity
  obtain ⟨legal, place, inOrder, ready, good⟩ := reaches
  refine ⟨fun differs => done_of issues ?passes, fun same room => waits_of issues ?waits⟩
  all_goals
    dsimp only
    rw [legal, place]
    refine (if_neg (ne_true_of_eq_false inOrder)).trans ((waitKey_go ready).trans ?_)
  case passes =>
    exact (congrArg c.close ((if_neg (ne_true_of_eq_false good)).trans (if_pos (bne_iff_ne.mpr differs)))).trans close_ok
  case waits =>
    have kept : ¬(obPhase (c.s.readLe loc 16) != parity) = true := fun h => bne_iff_ne.mp h same
    exact (congrArg c.close ((if_neg (ne_true_of_eq_false good)).trans
      ((if_neg kept).trans (if_neg (ne_true_of_eq_false room))))).trans close_wait

/-- Settles O15: the five updates by the one lemma about a word that updates its object; OBWAIT by its own. -/
theorem objectWords : Obligations.ObjectWords := by
  intro f s th core loc n Updates
  refine ⟨fun h nonzero small => ?obinit, fun h => ?obarr, fun h => ?obarrHold, fun h => ?obexp, fun h => ?obexpRls,
    fun h reaches => execObwait_reaches h reaches⟩
  case obinit =>
    have legal : (decide (n (atIssue 0x285 f s th) = 0) || decide (n (atIssue 0x285 f s th) > 65535)) = false := by
      simp only [decide_eq_false nonzero, decide_eq_false (Nat.not_lt.mpr small), Bool.or_self]
    exact objectBody_updates (up := .init) h legal
  case obarr => exact objectBody_updates (up := fun _ => .arrive) h rfl
  case obarrHold => exact objectBody_updates (up := .holdArrive) h rfl
  case obexp => exact objectBody_updates (up := .charge) h rfl
  case obexpRls => exact objectBody_updates (up := .release) h rfl

end Sys2Proof.Proofs
end

section
/-! PROOFS. The words that hand an operation to an engine (R228, R240, R248, R274–R277, R280, R281, R284, R285). -/

namespace Sys2Proof.Proofs

open Sys2Proof.Machine Sys2Proof.Safety Sys2Proof.Laws

/-- A word whose operation a record describes hands it over, once the record is read. -/
theorem recordWord_handsOver {op : Nat} {f : Fields} {s : State} {th : Thread} {body : Ctx → Res} {plan : State → Nat → Except Cause EngPlan}
    (issues : Issues op f s th) (effect : body (atIssue op f s th) = keyChecked (atIssue op f s th)
      (readRecord (atIssue op f s th) Spaces.recordSet (atIssue op f s th).addr 64 (fun t r => handOver (atIssue op f s th) t (plan t r))))
    (t : State) (r : Nat) (sound : (atIssue op f s th).warp.faultOf f.ck.toNat = none)
    (read : ReadsRecord (atIssue op f s th) Spaces.recordSet (atIssue op f s th).addr 64 t r) :
    HandsOver (issueOp op f s body) (atIssue op f s th) t (plan t r) :=
  handsOver_of issues (effect.trans ((keyChecked_go sound).trans (readRecord_go read)))

section

variable {f : Fields} {s : State} {th : Thread}

/-- MZERO hands over the zeroing of a region that its block may reach. -/
theorem execMzero_handsOver (issues : Issues 0x2C2 f s th) (sound : (atIssue 0x2C2 f s th).warp.faultOf f.ck.toNat = none)
    (region : regionCheck (atIssue 0x2C2 f s th).s th.block (controlRegion (((atIssue 0x2C2 f s th).vb false).toNat % 2 ^ 32)) (Forms.m3 f) = none) :
    HandsOver (execMzero f s) (atIssue 0x2C2 f s th) (atIssue 0x2C2 f s th).s (.ok {
      op := { engOf (atIssue 0x2C2 f s th) (.mzero (Forms.m3 f)) (((atIssue 0x2C2 f s th).vb false).toNat % 2 ^ 32) 0 with scope := 6, policy := 0 },
      ranges := [], charge := 0 }) := by
  refine handsOver_of issues ((keyChecked_go sound).trans ?_)
  dsimp only
  rw [region]

/-- COLL joins the collective of its gang's household, tag and turn, once its record passes and there is room. -/
theorem execColl_joins (issues : Issues 0x289 f s th) {t : State} {r : Nat} {g : Gang} {p : EngPlan}
    (sound : (atIssue 0x289 f s th).warp.faultOf f.ck.toNat = none)
    (read : ReadsRecord (atIssue 0x289 f s th) Spaces.recordSet (atIssue 0x289 f s th).addr 64 t r)
    (plan : planColl t th (engOf (atIssue 0x289 f s th) .coll r (atIssue 0x289 f s th).addr) = .ok p) (gang : t.gangOf th = some g)
    (key : keyFull (atIssue 0x289 f s th) = false) (room : t.engRoom p = true) :
    let u := ({ t with nextId := t.nextId + 1 } : State).addOp th t.nextId f.pk.toNat (pointOfCore th.ref.core)
    Done (execColl f s) (atIssue 0x289 f s th) (joinColl g.hh g.uid (clTag r) t.nextId { u with engs := u.engs ++ [{ p.op with id := t.nextId }] }) := by
  refine done_of issues ((keyChecked_go sound).trans ((readRecord_go read).trans ?_))
  dsimp only
  rw [plan, gang]
  refine (if_neg ?_).trans rfl
  rw [key, room]
  exact Bool.false_ne_true

end

/-- Settles O14: the words with a record by one lemma, the accumulator moves by another, MZERO and COLL by their own. -/
theorem engineWords : Obligations.EngineWords := by
  intro f s th ck Moves
  refine ⟨fun h => ?cpy, fun h sound => ?cpyb, fun h => ?cpyf, fun h sound aligned region legal => ?accld,
    fun h sound aligned region legal => ?accst, fun h => ?mma, fun h => ?mdrn, fun h sound region => ?mzero,
    fun h t r g p sound read plan gang key room => ?coll⟩
  case cpy | cpyf | mma | mdrn => exact recordWord_handsOver h rfl
  case cpyb => exact handsOver_of h (keyChecked_go sound)
  case accld | accst => exact handsOver_of h (acc_go sound aligned region legal)
  case mzero => exact execMzero_handsOver h sound region
  case coll => exact execColl_joins h sound read plan gang key room

end Sys2Proof.Proofs
end

section
/-! PROOFS. The chain and graph words: CHAPP, CHSEQ and GLAUNCH (R250, R292–R294). -/

namespace Sys2Proof.Proofs

open Sys2Proof.Machine Sys2Proof.Safety Sys2Proof.Laws

/-! ## CHAPP (R292) -/

/-- The chain header that CHAPP names is the thread's to read and write, and good; its ring size is legal, its key ready, and its ring not full. -/
structure RingOpen (c : Ctx) (core loc : Nat) : Prop where
  header : ∃ b, c.s.checkAccess c.th Spaces.ownOnly .write c.addr 64 64 = .ok (.scratch core loc b)
  ready : KeyReady c (Forms.scope c.f)
  inOrder : c.s.ownBefore c.th.ref c.addr loc 64 true = false
  good : c.s.badScratch core loc 64 = false
  sized : ¬(chnLog (c.s.readLe loc 64) = 0 ∨ chnLog (c.s.readLe loc 64) > 16)
  room : (chnTail (c.s.readLe loc 64) + 2 ^ 32 - chnHead (c.s.readLe loc 64)) % 2 ^ 32 ≠ 2 ^ chnLog (c.s.readLe loc 64)

/-- The slot that the tail of the header at `loc` names. -/
abbrev tailSlot (c : Ctx) (loc : Nat) : DWord := chnSlot (c.s.readLe loc 64) (chnTail (c.s.readLe loc 64))

/-- The state after the tail of the header at `loc` has advanced over an entry that is written, and the walk has started. -/
def entryAdded (c : Ctx) (core loc : Nat) (written : State) : State :=
  startWalk core c.th.block c.th.ref loc (written.writeBytes (loc + 16) (bytesOf 4 (chnTail (c.s.readLe loc 64) + 1)))

/-- CHAPP writes its entry in a scratchpad, or in a line that its core makes ready, and advances the tail. -/
theorem execChapp_appends {f : Fields} {s : State} {th : Thread} {core loc : Nat} (issues : Issues 0x305 f s th)
    (ring : RingOpen (atIssue 0x305 f s th) core loc) :
    let c := atIssue 0x305 f s th
    let bs := storeBytes 64 (c.group 1 f.b.toNat 16)
    (∀ k l x, c.s.checkAccess th Spaces.recordSet .write (tailSlot c loc) 64 64 = .ok (.scratch k l x) →
      c.s.ownBefore th.ref (tailSlot c loc) l 64 true = false →
      Done (execChapp f s) c (closed c (entryAdded c core loc (c.s.writeBytes l bs)))) ∧
    (∀ g t l mode, c.s.checkAccess th Spaces.recordSet .write (tailSlot c loc) 64 64 = .ok (.glob g) →
      grasp c.s (th.ref.core / 256) ⟨0, Forms.policy f, c.s.ctxOf th⟩ g 64 true = .ok t l mode →
      t.ownBefore th.ref (tailSlot c loc) l 64 true = false → t.queuedAt core l 64 = false →
      Done (execChapp f s) c (closed c (entryAdded c core loc ((agentPut core l mode bs t).modCore core (Core.l1Store l bs))))) := by
  intro c bs
  obtain ⟨⟨b, header⟩, ready, inOrder, good, sized, room⟩ := ring
  refine ⟨fun k l x slot slotInOrder => done_of issues ?scratch, fun g t l mode slot held slotInOrder drained => done_of issues ?glob⟩
  all_goals
    dsimp only
    rw [header]
    refine (if_neg (ne_true_of_eq_false inOrder)).trans ((if_neg (ne_true_of_eq_false good)).trans ((if_neg sized).trans ?_))
    refine (waitKey_go ready).trans ((congrArg c.close ((if_neg room).trans ?_)).trans close_ok)
    rw [slot]
  case scratch => exact if_neg (ne_true_of_eq_false slotInOrder)
  case glob =>
    dsimp only [threadGrasp, Ctx.r]
    rw [held]
    exact (if_neg (ne_true_of_eq_false slotInOrder)).trans (if_neg (ne_true_of_eq_false drained))

/-! ## CHSEQ (R293) -/

/-- CHSEQ enters a load of the completion word that a good header names. -/
theorem execChseq_enters {f : Fields} {s : State} {th : Thread} {core loc : Nat} {b : Bool} {tgt : Target} (issues : Issues 0x306 f s th)
    (sound : (atIssue 0x306 f s th).warp.faultOf f.ck.toNat = none)
    (header : (atIssue 0x306 f s th).s.checkAccess th Spaces.ownOnly .read (atIssue 0x306 f s th).addr 64 64 = .ok (.scratch core loc b))
    (inOrder : (atIssue 0x306 f s th).s.ownBefore th.ref (atIssue 0x306 f s th).addr loc 64 false = false)
    (good : (atIssue 0x306 f s th).s.badScratch core loc 64 = false)
    (word : (atIssue 0x306 f s th).s.checkAccess th Spaces.engine .read (chnDone ((atIssue 0x306 f s th).s.readLe loc 64)) 8 8 = .ok tgt)
    (room : keyFull (atIssue 0x306 f s th) = false) :
    EntersAs (execChseq f s) (atIssue 0x306 f s th) tgt
      (enterAccess (atIssue 0x306 f s th) .chseq (chnDone ((atIssue 0x306 f s th).s.readLe loc 64)) tgt 8 [] [] false 7) := by
  refine entersAs_of issues ((keyChecked_go sound).trans ?_)
  rw [header]
  refine (if_neg (ne_true_of_eq_false inOrder)).trans ((if_neg (ne_true_of_eq_false good)).trans ?_)
  rw [word]
  exact if_neg (ne_true_of_eq_false room)

/-! ## GLAUNCH (R294) -/

/-- The die that a launch record names, 15 for the thread's own. -/
def launchDie (r own : Nat) : Nat := if recBits r 47 44 = 15 then own else recBits r 47 44

/-- The walker rejects the launch record. -/
def LaunchBad (r own : Nat) : Prop :=
  launchDie r own ≥ 12 ∨ recBits r 43 0 ≠ 0 ∨ recBits r 63 48 = 0 ∨ globalAt (recPtr r 192) 32 = false ∨
    (recPtr r 128 ≠ 0 ∧ globalAt (recPtr r 128) 4 = false)

/-- The graphs that the walker of a die holds. -/
def graphsOn (die : Nat) (t : State) : List Graph := t.sch.graphs.filter (fun g => g.die == die)

/-- The graph of a launch record, before its first activation. -/
def launched (r own ctx id : Nat) : Graph :=
  { id := id, die := launchDie r own, ctx := ctx, base := recPtr r 192, done := recPtr r 128, doneval := BitVec.ofNat 32 (recBits r 127 96),
    failval := BitVec.ofNat 32 (recBits r 95 64), nodes := recBits r 63 48, acts := [], joins := [], loops := [], posting := [], tasks := [],
    faulted := false }

/-- GLAUNCH gives 1 for a bad record, 2 where the walker holds 16 graphs, and 0 for a graph that has begun at its node 0. -/
theorem execGlaunch_gives {f : Fields} {s t : State} {th : Thread} {r : Nat} (issues : Issues 0x307 f s th)
    (ready : KeyReady (atIssue 0x307 f s th) (Forms.scope f))
    (read : ReadsRecord (atIssue 0x307 f s th) Spaces.globOnly (atIssue 0x307 f s th).addr 32 t r) :
    let c := atIssue 0x307 f s th
    let own := th.ref.core / 256
    let Gives (v : Word) (t : State) : Prop :=
      Done (execGlaunch f s) c (closed c (c.tracked t (s.clock + 1) (wordRegs f.d.toNat [v]) []))
    (LaunchBad r own → Gives 1 t) ∧
    (¬LaunchBad r own → (graphsOn (launchDie r own) t).length ≥ 16 → Gives 2 t) ∧
    (¬LaunchBad r own → (graphsOn (launchDie r own) t).length < 16 →
      Gives 0 (sendAct t.nextId 0 (({ t with nextId := t.nextId + 1 } : State).setGraph (launched r own (t.ctxOf th) t.nextId)))) := by
  intro c own Gives
  refine ⟨fun bad => done_of issues ?bad, fun legal full => done_of issues ?full, fun legal room => done_of issues ?accepted⟩
  all_goals
    refine (keyChecked_go ready.1).trans ((waitKey_go ready).trans ((congrArg c.close ((readRecord_go read).trans ?_)).trans close_ok))
    simp only [Bool.not_eq_true']
  case bad => exact if_pos bad
  case full => exact (if_neg legal).trans (if_pos full)
  case accepted => exact (if_neg legal).trans (if_neg (Nat.not_le.mpr room))

/-- Settles O17: each word by the lemma about it. -/
theorem chainAndGraphWords : Obligations.ChainAndGraphWords := by
  intro f s th
  refine ⟨fun h core loc b header ready inOrder good => ?chapp, fun h core loc b tgt sound header inOrder good => ?chseq,
    fun h t r ready read => execGlaunch_gives h ready read⟩
  case chapp =>
    intro hd slot bs walks low high room
    exact execChapp_appends h ⟨⟨b, header⟩, ready, inOrder, good, not_or.mpr ⟨Nat.one_le_iff_ne_zero.mp low, Nat.not_lt.mpr high⟩, room⟩
  case chseq =>
    intro p word room
    exact execChseq_enters h sound header inOrder good word room

end Sys2Proof.Proofs
end

section
/-! PROOFS. The copy engine's events: its units, decoded blocks, accepted lines, retirement and hops (R163, R233–R237, R239, R275). -/

namespace Sys2Proof.Proofs

open Sys2Proof.Machine Sys2Proof.Laws

/-! ## What a write leaves of its operation (R233, R327) -/

theorem coverLine_kind (loc n : Nat) (x : State × EngOp) : (coverLine loc n x).2.kind = x.2.kind := by
  unfold coverLine
  dsimp only
  split
  · rfl
  · split <;> rfl

theorem engPutLine_kind (p : DWord) (bs : List Byte) (x : State × EngOp) : (engPutLine p bs x).2.kind = x.2.kind := by
  unfold engPutLine
  split
  · split
    · rfl
    · rfl
    · exact coverLine_kind _ _ _
  · rfl

theorem engPut_kind (p : DWord) (bs : List Byte) (x : State × EngOp) : (engPut p bs x).2.kind = x.2.kind :=
  List.foldlRecOn (motive := fun y : State × EngOp => y.2.kind = x.2.kind) _ _ rfl fun y same _ _ => (engPutLine_kind _ _ y).trans same

/-! ## One unit of CPYB (R275) -/

/-- Where the next byte that a bulk copy reads, and that it writes, lies. -/
abbrev byteSrc (e : EngOp) : DWord := e.src + BitVec.ofNat 64 e.progress
abbrev byteDst (e : EngOp) : DWord := e.dst + BitVec.ofNat 64 e.progress

/-- The bytes up to the next end of a line on either side. -/
abbrev byteCount (e : EngOp) : Nat :=
  Nat.min (e.len - e.progress) (Nat.min (128 - (byteSrc e).toNat % 128) (128 - (byteDst e).toNat % 128))

theorem byteCount_pos {e : EngOp} (more : e.progress < e.len) : 0 < byteCount e :=
  Nat.lt_min.mpr ⟨Nat.sub_pos_of_lt more, Nat.lt_min.mpr
    ⟨Nat.sub_pos_of_lt (Nat.mod_lt _ (by decide)), Nat.sub_pos_of_lt (Nat.mod_lt _ (by decide))⟩⟩

/-- The state and the operation after a unit has been written and counted. -/
def advanced (n : Nat) (e : EngOp) (y : State × EngOp) : State × EngOp := (y.1, { y.2 with progress := e.progress + n })

section

variable {s : State} {e : EngOp}

/-- A bulk copy that has read nothing ahead, and reaches both sides, moves the bytes of its unit. -/
theorem byteUnit_ok {loc loc' : Nat} {mode mode' : AccMode} (fresh : e.got = [])
    (source : s.engReach e (byteSrc e) (byteCount e) false = .ok loc mode)
    (target : s.engReach e (byteDst e) (byteCount e) true = .ok loc' mode') (drained : s.engQueued e (byteDst e) (byteCount e) = false) :
    byteUnit s e = .ok (engPut (byteDst e) (s.engRead e (byteSrc e) (byteCount e)) (s, e)) (byteCount e) := by
  have same : { e with got := [] } = e := by rw [← fresh]
  simp only [byteUnit, fresh, List.isEmpty_nil, if_true, source, target, drained, same, Bool.false_eq_true, if_false]

theorem destUnit_cpyb {dz : Bool} (kind : e.kind = .cpyb dz) (i : Nat) : destUnit e i = 2 ^ 64 + i := by
  simp only [destUnit, kind]

variable {y : State × EngOp} {n : Nat} {dz : Bool} (kind : e.kind = .cpyb dz) (more : e.progress < e.len)
  (unit : byteUnit s e = .ok y n) (moves : 0 < n) (same : y.2.kind = e.kind)
include kind more unit moves same

/-- The units that go where the next unit of a bulk copy goes are that one alone. -/
theorem unitRun_cpyb (fuel : Nat) : unitRun (destUnit e e.progress) (fuel + 2) (s, e) = (advanced n e y, .done) := by
  have left : destUnit (advanced n e y).2 (advanced n e y).2.progress ≠ destUnit e e.progress := by
    rw [destUnit_cpyb (e := (advanced n e y).2) (same.trans kind), destUnit_cpyb kind]
    exact fun h => by simp only [advanced] at h; omega
  rw [unitRun, if_neg (by simp only [ne_eq, not_true_eq_false, or_false]; omega)]
  simp only [kind, unit]
  rw [unitRun]
  exact if_pos (.inr left)

/-- A run of one unit of a bulk copy writes it, and goes on. -/
theorem copyRun_cpyb : copyRun 1 (s, e) = (advanced n e y, .again) := by
  rw [copyRun, if_neg (Nat.not_le.mpr more), unitRun_cpyb kind more unit moves same 14]
  rfl

end

/-! ## COPY_WRITE (R233, R239) -/

section

variable {s : State} {id : Nat} {e : EngOp} (he : s.engAct? id = some e)
include he

section

variable (accepted : e.phase = .accepted) (ready : s.allPerformed e.waits e.scope = true)
include accepted ready

/-- A copy whose run comes to its end is done. -/
theorem execCopyWrite_done {n : Nat} {t : State} {e' : EngOp} (run : copyRun n (s, e) = ((t, e'), .done)) : execCopyWrite id n s =
    .next (copyDone e' (deliverTo e' (deliveredBytes e' e.progress e'.progress) (t.setEng e'))) := by
  simp only [execCopyWrite, he, accepted, ready, run, ne_eq, not_true_eq_false, Bool.not_true, Bool.false_eq_true, if_false]

/-- A copy whose run leaves units goes on later. -/
theorem execCopyWrite_again {n : Nat} {t : State} {e' : EngOp} (run : copyRun n (s, e) = ((t, e'), .again)) : execCopyWrite id n s =
    .next ((deliverTo e' (deliveredBytes e' e.progress e'.progress) (t.setEng e')).post (.copyWrite id n)) := by
  simp only [execCopyWrite, he, accepted, ready, run, ne_eq, not_true_eq_false, Bool.not_true, Bool.false_eq_true, if_false]

/-! ## COPY_BLOCK_DECODE (R235, R236) -/

/-- A compressed copy with no byte left is done. -/
theorem execCopyBlockDecode_done (full : e.len ≤ e.progress) : execCopyBlockDecode id s = .next (copyDone e s) := by
  simp only [execCopyBlockDecode, he, accepted, ready, full, ne_eq, not_true_eq_false, Bool.not_true, Bool.false_eq_true, if_false, if_true]

/-- The block whose header a compressed copy has come to, by its number, its header, and that header's value. -/
abbrev blockNumber (e : EngOp) : Nat := (e.orig.getD 1 0).toNat
abbrev blockHeader (e : EngOp) : DWord := e.src + BitVec.ofNat 64 (e.orig.getD 0 0).toNat
abbrev headerValue (s : State) (e : EngOp) : Nat := leValue (s.engRead e (blockHeader e) 4)
/-- The bytes of data under a header, and those of the block that they decode to. -/
abbrev dataBytes (v : Nat) : Nat := v % 2 ^ 13
abbrev blockBytes (e : EngOp) : Nat := Nat.min 4096 (e.len - e.progress)

/-- A copy that has written a block, and has come to the next header. -/
def pastBlock (e : EngOp) (v : Nat) (x : EngOp) : EngOp :=
  { x with progress := e.progress + blockBytes e,
           orig := [(((e.orig.getD 0 0).toNat + 4 + (dataBytes v + 3) / 4 * 4 : Nat) : Int), ((blockNumber e + 1 : Nat) : Int)] }

/-- A block whose header is legal, whose lines are held and whose data decodes is written, and the copy goes on at the next header. -/
theorem execCopyBlockDecode_writes {loc : Nat} {mode : AccMode} {bs : List Byte} (more : e.progress < e.len)
    (header : s.engReach e (blockHeader e) 4 false = .ok loc mode)
    (legal : ¬(headerValue s e / 2 ^ 30 = 3 ∨ headerValue s e / 2 ^ 13 % 2 ^ 17 ≠ 0 ∨ dataBytes (headerValue s e) = 0 ∨
      dataBytes (headerValue s e) > 4096)) (reached : e.progress / 4096 ≤ blockNumber e)
    (source : s.firstBar e [(blockHeader e + 4, dataBytes (headerValue s e))] false = none)
    (target : s.firstBar e [(byteDst e, blockBytes e)] true = none) (drained : s.engQueued e (byteDst e) (blockBytes e) = false)
    (decodes : decodeBlock (headerValue s e / 2 ^ 30) (blockBytes e) (s.engRead e (blockHeader e + 4) (dataBytes (headerValue s e))) = some bs) :
    let x := engPut (byteDst e) bs (s, e)
    let e' := pastBlock e (headerValue s e) x.2
    execCopyBlockDecode id s = .next ((deliverTo e' (blockBytes e) (x.1.setEng e')).post (.copyBlockDecode id)) := by
  rw [execCopyBlockDecode, he]
  refine (if_neg (not_not.mpr accepted)).trans ((if_neg (by rw [ready]; exact Bool.false_ne_true)).trans ((if_neg (Nat.not_le.mpr more)).trans ?_))
  dsimp only
  rw [header]
  refine (if_neg legal).trans ((if_neg (Nat.not_lt.mpr reached)).trans ?_)
  rw [source, target]
  refine (if_neg (ne_true_of_eq_false drained)).trans ?_
  rw [decodes]
  rfl

end

/-! ## COPY_LINE_ACCEPT (R233) -/

/-- The pointer of the line, or of the half of it, that an event names. -/
abbrev eventPtr (line : Nat) : DWord := BitVec.ofNat 64 (line / 8 * 128 + if line / 2 % 4 = 2 then 64 else 0)

/-- A line that its home grants is kept, and the operation goes on. -/
theorem execCopyLineAccept_keeps {line loc : Nat} {t : State} {mode : AccMode} (accepted : e.phase = .accepted)
    (granted : grasp s e.die e.asker (s.lineGlob e (eventPtr line)) (if line / 2 % 4 = 3 then 128 else 64) (line % 2 == 1) = .ok t loc mode) :
    let e' : EngOp := { e with lines := e.keep line, channel := t.channelAt e.ctx (eventPtr line) (s.lineGlob e (eventPtr line)) 0 loc }
    let u := addPoint id e.core (t.pointOfGlob e.ctx (s.lineGlob e (eventPtr line))) (t.setEng e')
    execCopyLineAccept id line s = .next (u.post (engineGo u e')) := by
  rw [execCopyLineAccept, he]
  refine (if_neg (not_not.mpr accepted)).trans ?_
  dsimp only
  rw [granted]

/-! ## COPY_RETIRE (R163) -/

/-- The ranges of a copy that has written all leave the scoreboards. -/
theorem execCopyRetire_drops (written : e.phase = .written) : execCopyRetire id s = .next ((dropRanges id s).post (.enginePerform id)) := by
  rw [execCopyRetire, he]
  exact if_pos written

/-! ## CPYF_HOP_FORWARD (R237) -/

/-- The scratchpad location of a copy's destination in a block. -/
abbrev hopLoc (b : Block) (e : EngOp) : Nat := scratchBase b.core + b.spBase + e.dst.toNat % 2 ^ 19

/-- The arrival that a hop sends to the key slot of its block's warp. -/
def hopArrival (e : EngOp) (b : Block) (sid : Nat) : Send :=
  ⟨sid, e.core, e.gang, e.gang, b.rank, (layoutOf e.recN).hopwarp, (layoutOf e.recN).hopkey, 0, [], [], false, 0⟩

/-- A copy whose hop `h` has received its bytes. -/
def pastHop (e : EngOp) (h : Nat) : EngOp := { e with phase := if h + 1 ≤ (layoutOf e.recN).hops then .hopping (h + 1) else .written }

/-- A hop receives the bytes of the hop before it, and its key slot an arrival. -/
theorem execCpyfHopForward_forwards {h : Nat} {a b : Block} (hopping : e.phase = .hopping h)
    (before : hopBlock s e.block (layoutOf e.recN) (h - 1) = some a) (here : hopBlock s e.block (layoutOf e.recN) h = some b)
    (good : s.badScratch a.core (hopLoc a e) (layoutOf e.recN).bytes = false) :
    let t := s.writeBytes (hopLoc b e) (s.readBytes (hopLoc a e) (layoutOf e.recN).bytes)
    let x := hopArrival e b t.nextId
    let u := (deliver x { t with nextId := t.nextId + 1, sends := t.sends ++ [x] }).setEng (pastHop e h)
    execCpyfHopForward id s = .next (u.post (engineGo u (pastHop e h))) := by
  rw [execCpyfHopForward, he]
  dsimp only
  rw [hopping]
  dsimp only
  rw [before, here]
  exact if_neg (ne_true_of_eq_false good)

end

/-- Settles O29: each event by the lemma about its case; one unit of CPYB is a run of one unit that leaves more. -/
theorem copyEvents : Obligations.CopyEvents := by
  intro s id e he
  refine ⟨fun accepted ready => ⟨fun n t e' => execCopyWrite_done he accepted ready, fun n t e' => execCopyWrite_again he accepted ready,
    ?unit, execCopyBlockDecode_done he accepted ready, ?block, fun line t loc mode => execCopyLineAccept_keeps he accepted⟩,
    execCopyRetire_drops he, fun h a b => execCpyfHopForward_forwards he⟩
  case unit =>
    intro p q n loc mode loc' mode' kind fresh more source target drained
    have unit := byteUnit_ok fresh source target drained
    exact execCopyWrite_again he accepted ready (copyRun_cpyb kind more unit (byteCount_pos more) (engPut_kind _ _ _))
  case block =>
    intro loc mode bs blk h v n q more header method reserved nonempty small reached source target drained decodes
    have legal : ¬(v / 2 ^ 30 = 3 ∨ v / 2 ^ 13 % 2 ^ 17 ≠ 0 ∨ v % 2 ^ 13 = 0 ∨ v % 2 ^ 13 > 4096) := by omega
    exact execCopyBlockDecode_writes he accepted ready more header legal reached source target drained decodes

end Sys2Proof.Proofs
end

section
/-! PROOFS. The matrix engine's events: slices, drains, consumed operands, and the performing of operations (R189, R239, R241–R249, R276,
R277). -/

namespace Sys2Proof.Proofs

open Sys2Proof.Machine Sys2Proof.Laws

/-! ## A slice of a product (R241–R246) -/

section

variable (s : State) (e : EngOp)

/-- The rows of an operation's next slice, and the columns of its product. -/
abbrev sliceRows : List Nat := (List.range (Nat.min 16 (e.region.rows - e.progress))).map (e.progress + ·)
abbrev productCols : List Nat := List.range (recBits e.recN 287 272)

/-- What a slice reads: the outlier list, the rows of A and the columns of B. -/
def sliceReads : List (DWord × Nat) :=
  [(recPtr e.recN 128, 8 * recBits e.recN 319 304)] ++ (sliceRows e).map ((opA e.recN).row (mmaK e.recN)) ++
    (productCols e).map ((opB e.recN).row (mmaK e.recN))

/-- The elements of B's columns, as floats with their poisoning or as integers. -/
def floatCols : List (List (Val × Bool)) :=
  if (opA e.recN).code = 4 ∨ (opA e.recN).code = 5 then [] else (productCols e).map ((opB e.recN).vals s e (mmaK e.recN))
def intCols : List (List Int) :=
  if (opA e.recN).code = 4 ∨ (opA e.recN).code = 5 then (productCols e).map ((opB e.recN).ints s e (mmaK e.recN)) else []

/-- The rows of the slice with their words, and whether a poisoned block was met. -/
def sliceOut : List (Nat × List Word × Bool) :=
  (sliceRows e).map (fun i => (i, mmaRow s e (outliers s e) ((floatCols s e).map (fun l => l.map (·.1))) (intCols s e)
    ((s.accRow e i).getD ((productCols e).map (fun _ => 0))) i))

/-- The partner's core, of a paired operation. -/
def pairedCore : List Nat := match e.pair, s.mateOf e with | true, some m => [m.1] | _, _ => []

/-- The state after the slice: its words are in the accumulators, and each core's ctl.fmterr tells of any block of B and of the core's own rows
(log 88, DESIGN CHOICE). -/
def sliceWritten : State :=
  let bad := (floatCols s e).any (fun l => l.any (·.2))
  (pairedCore s e).foldl (fun t c => setFmterr c (bad || (sliceOut s e).any (fun x => x.2.2 && decide (x.1 ≥ 128))) t)
    (setFmterr e.core (bad || (sliceOut s e).any (fun x => x.2.2 && decide (x.1 < 128)))
      ((sliceOut s e).foldl (fun t x => accPut e x.1 x.2.1 t) s))

/-- The operation after the slice. -/
def pastSlice : EngOp :=
  { e with progress := e.progress + (sliceRows e).length, orig := [1],
           phase := if e.progress + (sliceRows e).length ≥ e.region.rows then .written else .accepted }

/-- Nothing that a slice reads stops it: its lines are held, its outlier list is legal, its pages agree, and no accumulator word that it adds to is
poisoned. -/
structure SliceGoes : Prop where
  held : s.firstBar e (sliceReads e) false = none
  listed : e.orig.isEmpty = true → (outliers s e).any (fun x => decide (x / 2 ^ 36 % 2 ^ 28 ≠ 0)) = false
  agreesA : (sliceRows e).all ((opA e.recN).agrees s e (mmaK e.recN)) = true
  agreesB : (productCols e).all ((opB e.recN).agrees s e (mmaK e.recN)) = true
  sound : (sliceRows e).any (fun i => (s.accRow e i).isNone && e.recN.testBit 352) = false

end

/-! ## A drain (R248, R249) -/

section

variable (s : State) (e : EngOp)

/-- A copy in Q4 is drained as a whole. -/
abbrev DrainsWhole : Prop := (drainD e.recN).fmt = 5 ∨ (drainT? e.recN).any (fun t => t.fmt == 5) = true

/-- How many rows a drain takes next, and which. -/
def drainCount : Nat := if DrainsWhole e then e.region.rows - e.progress else Nat.min 16 (e.region.rows - e.progress)
abbrev drainRows : List Nat := (List.range (drainCount e)).map (e.progress + ·)

/-- The words of those rows. -/
abbrev drainGrid : List (List Word) := ((drainRows e).map (s.accRow e)).map (fun w => w.getD [])

/-- What the direct and the transposed copy receive of them, and whether a poisoned block was met. -/
def directCopy : List (DWord × List Byte) × Bool := (drainD e.recN).writes (e.recN.testBit 257) e.progress false (drainGrid s e)
def transposedCopy : List (DWord × List Byte) × Bool :=
  match drainT? e.recN with
  | some t => t.writes (e.recN.testBit 257) e.progress true (transposeRows e.region.cols (drainGrid s e))
  | none => ([], false)

/-- The state after both copies are in memory, from the one that their writes left: ctl.fmterr tells of a poisoned block, and the rows are zeroed
where the record asks for it. -/
def rowsDrained (written : State) : State :=
  let u := (s.engCores e).foldl (fun u c => setFmterr c ((directCopy s e).2 || (transposedCopy s e).2) u) written
  if e.recN.testBit 258 then (drainRows e).foldl (fun v i => accPut e i (e.region.colList.map (fun _ => 0)) v) u else u

/-- The operation after those rows. -/
def pastDrain (x : EngOp) : EngOp :=
  { x with progress := e.progress + drainCount e, put := [],
           phase := if e.progress + drainCount e ≥ e.region.rows then .written else .accepted }

end

/-! ## A piece of a drain (R233) -/

/-- A piece that the operation reaches, and that is not in memory yet, is written and noted, unless the operation has met a stop. -/
theorem putPiece_writes {y : (State × EngOp) × PutEnd} {i loc : Nat} {p : DWord} {bs : List Byte} {mode : AccMode}
    (goes : ∀ c, y.2.bar ≠ some (.stop c)) (left : y.1.2.put.contains i = false)
    (reached : y.1.1.engReach y.1.2 p bs.length true = .ok loc mode) (drained : y.1.1.engQueued y.1.2 p bs.length = false) :
    let z := engPutLine p bs y.1
    putPiece y i p bs = ((z.1, { z.2 with put := i :: z.2.put }), y.2) := by
  unfold putPiece
  split
  · next c stop => exact absurd stop (goes c)
  · simp only [left, reached, drained, Bool.false_eq_true, if_false]

/-! ## The accumulator moves (R276, R277) -/

/-- The operations that take effect as they perform: ACCLD, ACCST and MZERO. -/
def movesAcc (k : EngKind) : Bool := k == .accld || k == .accst || (match k with | .mzero _ => true | _ => false)

theorem movesAcc_iff {k : EngKind} : movesAcc k = true ↔ k = .accld ∨ k = .accst ∨ ∃ p, k = .mzero p := by
  cases k <;> simp [movesAcc]

/-! ## The events -/

/-- In its turn, with its consume key satisfied, an operation is not held. -/
theorem not_held_of_turn {s : State} {e : EngOp} (ready : s.allPerformed e.waits e.scope = true) (turn : s.accHeld e = false) :
    ¬(!(s.allPerformed e.waits e.scope) || s.accHeld e) = true := by
  simp only [ready, turn, Bool.not_true, Bool.or_self, Bool.false_eq_true, not_false_eq_true]

section

variable {s : State} {id : Nat} {e : EngOp} (he : s.engAct? id = some e)
include he

section

variable (accepted : e.phase = .accepted) (ready : s.allPerformed e.waits e.scope = true) (turn : s.accHeld e = false)
include accepted ready turn

/-- A slice that nothing stops, in its operation's turn, is computed and written. -/
theorem execMmaSliceWrite_writes (goes : SliceGoes s e) : execMmaSliceWrite id s = .next
    (((sliceWritten s e).setEng (pastSlice e)).post (engineGo ((sliceWritten s e).setEng (pastSlice e)) (pastSlice e))) := by
  obtain ⟨held, listed, agreesA, agreesB, sound⟩ := goes
  have legal : (e.orig.isEmpty && (outliers s e).any (fun x => decide (x / 2 ^ 36 % 2 ^ 28 ≠ 0))) = false := by
    cases first : e.orig.isEmpty with
    | true => exact listed first
    | false => rfl
  have agree : (!((sliceRows e).all ((opA e.recN).agrees s e (mmaK e.recN))) ||
      !((productCols e).all ((opB e.recN).agrees s e (mmaK e.recN)))) = false := by rw [agreesA, agreesB]; rfl
  rw [execMmaSliceWrite, he]
  refine (if_neg (not_not.mpr accepted)).trans ((if_neg (not_held_of_turn ready turn)).trans ?_)
  rw [sliceReads] at held
  dsimp only
  rw [held]
  refine (if_neg (ne_true_of_eq_false legal)).trans ((if_neg (ne_true_of_eq_false agree)).trans ((if_neg (ne_true_of_eq_false sound)).trans ?_))
  rfl

/-- A drain in its turn, none of whose words is poisoned and whose pieces can all be written, writes both copies. -/
theorem execMdrnDrain_writes {x : State × EngOp} (sound : ((drainRows e).map (s.accRow e)).any Option.isNone = false)
    (put : putAll ((directCopy s e).1 ++ (transposedCopy s e).1) (s, e) = (x, ⟨none, false⟩)) : execMdrnDrain id s = .next
    (((rowsDrained s e x.1).setEng (pastDrain e x.2)).post (engineGo ((rowsDrained s e x.1).setEng (pastDrain e x.2)) (pastDrain e x.2))) := by
  rw [execMdrnDrain, he]
  refine (if_neg (not_not.mpr accepted)).trans ((if_neg (not_held_of_turn ready turn)).trans ((if_neg (ne_true_of_eq_false sound)).trans ?_))
  dsimp only
  generalize written : putAll _ (s, e) = y
  cases written.symm.trans put
  rfl

end

/-! ## OPERANDS_CONSUMED (R239, R246) -/

section

variable (written : e.phase = .written) (held : e.consumed = false)
include written held

/-- With no object, the operands are consumed. -/
theorem execOperandsConsumed_noObject (obj : e.obj = none) :
    execOperandsConsumed id s = .next ((s.setEng { e with consumed := true }).post (.enginePerform id)) := by
  simp [execOperandsConsumed, he, written, held, obj]

/-- With an object, the event arrives there. -/
theorem execOperandsConsumed_arrives {loc : Nat} {t : State} (obj : e.obj = some loc) (arrived : objectUpdate loc .arrive s = some t) :
    execOperandsConsumed id s = .next ((t.setEng { e with consumed := true }).post (.enginePerform id)) := by
  simp [execOperandsConsumed, he, written, held, obj, arrived]

end

/-! ## ENGINE_PERFORM (R189, R276, R277) -/

/-- An accumulator move in its turn takes effect and performs. -/
theorem execEnginePerform_moves {t : State} (move : movesAcc e.kind = true) (accepted : e.phase = .accepted)
    (ready : s.allPerformed e.waits e.scope = true) (turn : s.accHeld e = false) (effect : accEffect e s = some t) :
    execEnginePerform id s = .next (performEng e (dropRanges id t)) := by
  rw [execEnginePerform, he]
  refine (if_pos move).trans ((if_neg (not_not.mpr accepted)).trans ((if_neg (not_held_of_turn ready turn)).trans ?_))
  rw [effect]

/-- Another operation performs once it has written, a product once its operands are consumed. -/
theorem execEnginePerform_written (noMove : movesAcc e.kind = false) (written : e.phase = .written)
    (consumed : e.kind = .mma → e.consumed = true) : execEnginePerform id s = .next (performEng e s) := by
  have due : ¬(e.phase ≠ .written ∨ (e.kind = .mma ∧ e.consumed = false)) := by
    rintro (early | ⟨product, outstanding⟩)
    · exact early written
    · exact Bool.false_ne_true (outstanding.symm.trans (consumed product))
  rw [execEnginePerform, he]
  exact (if_neg (ne_true_of_eq_false noMove)).trans (if_neg due)

end

/-- Settles O30: each event by the lemma about its case, with the state and the operation that it leaves under their names. -/
theorem tileEvents : Obligations.TileEvents := by
  intro s id e he
  refine ⟨?slice, ?drain, fun y i p bs loc mode => putPiece_writes,
    fun written held => ⟨execOperandsConsumed_noObject he written held, fun loc t => execOperandsConsumed_arrives he written held⟩,
    fun t move => ?moves, fun notLoad notStore notZero => ?written⟩
  case slice =>
    intro r a b k n rows cols int bv bi out accepted ready turn held listed agreesA agreesB sound
    exact execMmaSliceWrite_writes he accepted ready turn ⟨held, listed, agreesA, agreesB, sound⟩
  case drain =>
    intro r g whole n rows grid d t all accepted ready turn sound x put
    exact execMdrnDrain_writes he accepted ready turn sound put
  case moves => exact execEnginePerform_moves he (movesAcc_iff.mpr move)
  case written =>
    refine execEnginePerform_written he (Bool.eq_false_of_not_eq_true fun move => ?_)
    rcases movesAcc_iff.mp move with load | store | ⟨p, zero⟩
    · exact notLoad load
    · exact notStore store
    · exact notZero p zero

end Sys2Proof.Proofs
end

section
/-! PROOFS. The queue words: POST, SPAWN, MBSEND, MBRECV and MBSTAT (R255, R256, R264, R273, R286–R291). -/

namespace Sys2Proof.Proofs

open Sys2Proof.Machine Sys2Proof.Safety Sys2Proof.Laws

/-! ## A word that waits for its consume key (R173, R179) -/

section

variable {op : Nat} {f : Fields} {s t : State} {th : Thread} {body : Ctx → Res} {scope : Nat} {go : Res}
  (issues : Issues op f s th) (ready : KeyReady (atIssue op f s th) scope)
  (effect : body (atIssue op f s th) = keyChecked (atIssue op f s th) (waitKey (atIssue op f s th) scope go))
include ready effect

theorem keyedWord_goes : body (atIssue op f s th) = (atIssue op f s th).close go :=
  effect.trans ((keyChecked_go ready.1).trans (waitKey_go ready))

include issues

/-- With its key ready, a word that then goes on is done, and its own operation closed. -/
theorem keyedWord_done (goes : go = .ok t) : Done (issueOp op f s body) (atIssue op f s th) (closed (atIssue op f s th) t) :=
  done_of issues ((keyedWord_goes ready effect).trans ((congrArg _ goes).trans close_ok))

/-- With its key ready, a word that then holds its thread leaves it waiting, and its own operation closed. -/
theorem keyedWord_waits (goes : go = .wait t) : Waits (issueOp op f s body) (atIssue op f s th) (closed (atIssue op f s th) t) :=
  waits_of issues ((keyedWord_goes ready effect).trans ((congrArg _ goes).trans close_wait))

end

/-! ## Messages (R256, R286, R289) -/

section

variable {f : Fields} {s : State} {th : Thread} {dst : Nat × Nat}

/-- POST sends its card's pointer to the queue that it names, once the line of the card may be read. -/
theorem execPost_waits {tgt : Target} (issues : Issues 0x300 f s th) (ready : KeyReady (atIssue 0x300 f s th) (Forms.scope f))
    (names : destOf (atIssue 0x300 f s th).s th.ref.core ((atIssue 0x300 f s th).reg 1 f.b.toNat) = .ok dst)
    (card : (atIssue 0x300 f s th).s.checkAccess th Spaces.globOnly .read (atIssue 0x300 f s th).addr 64 64 = .ok tgt)
    (room : keyFull (atIssue 0x300 f s th) = false) :
    let c := atIssue 0x300 f s th
    Waits (execPost f s) c (closed c (sent c dst (some c.addr) 0 .postArrival)) := by
  refine keyedWord_waits issues ready ?_ (send_go room)
  rw [Ctx.r, names]
  dsimp only
  rw [card]

/-- MBSEND sends its record to the Porch that it names. -/
theorem execMbsend_waits (issues : Issues 0x302 f s th) (ready : KeyReady (atIssue 0x302 f s th) (Forms.scope f))
    (names : destOf (atIssue 0x302 f s th).s th.ref.core (((atIssue 0x302 f s th).va false).extractLsb' 0 32) = .ok dst)
    (room : keyFull (atIssue 0x302 f s th) = false) :
    let c := atIssue 0x302 f s th
    Waits (execMbsend f s) c (closed c (sent c dst none (BitVec.ofNat 512 (leValue (storeBytes 32 (c.group 1 f.b.toNat 8)))) .porchAccept)) := by
  refine keyedWord_waits issues ready ?_ (send_go room)
  rw [Ctx.r, names]

end

/-! ## SPAWN (R287, R288) -/

/-- The household of one gang that a SPAWN of dispatcher gang `g` begins: the state after, and its number. -/
def childHousehold (g : Gang) (s : State) : State × Nat := newHousehold g.task 0 [s.device] none s

/-- The child gang of dispatcher gang `g` that spawn record `r` asks for, in household `hh`. -/
def spawnBirth (g : Gang) (r hh posted : Nat) : Birth :=
  { task := g.task, ctx := g.ctx, hh := hh, rank := 0, shape := Shape.ofSpawn r, entry := recPtr r 192, argp := recPtr r 128,
    prio := g.prio, posted := posted, disp := false, spawned := some (recPtr r 64), hold := false }

/-- The state after the child gang is bound to the cores claimed. -/
def childBound (g : Gang) (r : Nat) (cores : List Nat) (s : State) : State :=
  (bindGang (spawnBirth g r (childHousehold g s).2 (childHousehold g s).1.clock) cores (childHousehold g s).1).1

/-- The spawn record in the registers of SPAWN. -/
abbrev spawnRecord (c : Ctx) : Nat := leValue (storeBytes 32 (c.group 1 c.f.b.toNat 8))

/-- The dispatcher's SPAWN gives 1 for a bad record, 2 where its gang fits nowhere, and 0 for a child that is bound. -/
theorem execSpawn_gives {f : Fields} {s : State} {th : Thread} {g : Gang} (issues : Issues 0x301 f s th)
    (gang : (atIssue 0x301 f s th).s.gangOf th = some g) (dispatcher : g.dispatcher = true)
    (ready : KeyReady (atIssue 0x301 f s th) (Forms.scope f)) :
    let c := atIssue 0x301 f s th
    let Gives (v : Word) (t : State) : Prop :=
      Done (execSpawn f s) c (closed c (c.tracked (t.progress g.uid) (t.clock + 8) (wordRegs f.d.toNat [v]) []))
    (spawnBad (spawnRecord c) = true → Gives 1 c.s) ∧
    (spawnBad (spawnRecord c) = false → spawnCores c.s g.die (spawnRecord c) = none → Gives 2 c.s) ∧
    (∀ cores, spawnBad (spawnRecord c) = false → spawnCores c.s g.die (spawnRecord c) = some cores →
      Gives 0 (childBound g (spawnRecord c) cores c.s)) := by
  intro c Gives
  refine ⟨fun bad => ?bad, fun legal full => ?full, fun cores legal free => ?bound⟩
  all_goals
    refine keyedWord_done issues ready (by rw [gang]; exact if_neg (ne_true_of_eq_false (congrArg not dispatcher))) ?_
  case bad => exact if_pos bad
  case full =>
    refine (if_neg (ne_true_of_eq_false legal)).trans ?_
    rw [full]
  case bound =>
    refine (if_neg (ne_true_of_eq_false legal)).trans ?_
    rw [free]
    rfl

/-! ## MBRECV and MBSTAT (R265, R290, R291) -/

/-- The state after the oldest record of a Porch has left it, the Porch refilled where its ring holds more. -/
def recordLeft (die : Nat) (rest : List (BitVec 256)) (s : State) : State :=
  let t := s.setPorch { s.porch die with porch := rest }
  if (s.porch die).ring.isEmpty then t else t.postOnce (.porchRefill die)

/-- The oldest record of a Porch goes to registers. -/
theorem takeRecord_cons {die d id : Nat} {r : TRef} {s : State} {x : BitVec 256} {rest : List (BitVec 256)} (oldest : (s.porch die).porch = x :: rest) :
    takeRecord die r d id s = (recordLeft die rest s).track r
      ⟨id, (recordLeft die rest s).clock + 4, true, false, wordRegs d ((List.range 8).map (fun i => x.extractLsb' (32 * i) 32)), []⟩ := by
  rw [takeRecord]
  dsimp only
  rw [oldest]
  rfl

section

variable {f : Fields} {s : State} {th : Thread} (issues : Issues 0x303 f s th) (dispatches : (atIssue 0x303 f s th).dispatches = true)
  (ready : KeyReady (atIssue 0x303 f s th) 0) (room : keyFull (atIssue 0x303 f s th) = false)
include issues dispatches ready room

/-- The dispatcher's MBRECV waits at an empty Porch. -/
theorem execMbrecv_waits :
    let c := atIssue 0x303 f s th
    let u := c.operation c.s
    (u.2.porch (th.ref.core / 256)).porch = [] →
      Waits (execMbrecv f s) c (closed c (u.2.modThread th.ref (fun t => { t with status := .mbrecv u.1 f.d.toNat }))) := by
  intro c u empty
  refine keyedWord_waits issues ready (if_neg (ne_true_of_eq_false (congrArg not dispatches))) ?_
  exact (if_neg (ne_true_of_eq_false room)).trans (if_pos (List.isEmpty_iff.mpr empty))

/-- The dispatcher's MBRECV takes the oldest record of a Porch that holds one. -/
theorem execMbrecv_takes :
    let c := atIssue 0x303 f s th
    let u := c.operation c.s
    ∀ x rest, (u.2.porch (th.ref.core / 256)).porch = x :: rest →
      let t := recordLeft (th.ref.core / 256) rest u.2
      Done (execMbrecv f s) c (closed c (t.track th.ref
        ⟨u.1, t.clock + 4, true, false, wordRegs f.d.toNat ((List.range 8).map (fun i => x.extractLsb' (32 * i) 32)), []⟩)) := by
  intro c u x rest oldest
  have holds : ¬(u.2.porch (th.ref.core / 256)).porch.isEmpty = true := by
    rw [oldest]
    exact Bool.false_ne_true
  refine keyedWord_done issues ready (if_neg (ne_true_of_eq_false (congrArg not dispatches))) ?_
  exact (if_neg (ne_true_of_eq_false room)).trans ((if_neg holds).trans (congrArg Res.ok (takeRecord_cons oldest)))

end

/-- Settles O16: each word by the lemma about it; MBSTAT is no more than its value. -/
theorem queueWords : Obligations.QueueWords := by
  intro f s th Gives
  exact ⟨fun h dst tgt ready names card room => execPost_waits h ready names card room,
    fun h g gang dispatcher ready => execSpawn_gives h gang dispatcher ready,
    fun h dst ready names room => execMbsend_waits h ready names room,
    fun h dispatches ready room => ⟨execMbrecv_waits h dispatches ready room, execMbrecv_takes h dispatches ready room⟩,
    fun h => done_of h rfl⟩

end Sys2Proof.Proofs
end

section
/-! PROOFS. The graph walker: visits of nodes by their kind, posted cards, completed tasks and completion (R262, R263, R294). -/

namespace Sys2Proof.Proofs

open Sys2Proof.Machine Sys2Proof.Laws

/-! ## Visits (R262, R294) -/

/-- The walker of a running graph `g` has read value `n` for a node at which an activation stands, with its reserved fields zero; `t` is the state
after the read. -/
structure NodeRead (s : State) (id node : Nat) (g : Graph) (t : State) (n : Nat) : Prop where
  graph : s.graph? id = some g
  running : g.faulted = false
  active : node ∈ g.acts
  read : ∃ loc mode, graspAgent s (dieUnit g.die) g.die g.ctx (g.base + BitVec.ofNat 64 (32 * node)) 32 false = .ok t loc mode ∧ n = t.readLe loc 32
  reservedHigh : recBits n 251 240 = 0
  reservedMid : recBits n 63 36 = 0
  reservedLow : recBits n 31 0 = 0

section

variable {s t : State} {id node n : Nat} {g : Graph} (visit : NodeRead s id node g t n)
include visit

theorem visitNode_of_nodeRead (kind : Nat) (known : gnKind n ≤ 4) (act : State → Graph → Nat → State) : visitNode id node kind s act =
    if gnKind n ≠ kind then .next (t.post (nodeEvent (gnKind n) id node)) else .next (act t g n) := by
  obtain ⟨loc, mode, read, value⟩ := visit.read
  have visited := @visit_ok s t id node kind loc mode g act visit.graph visit.running visit.active read
  rw [← value] at visited
  exact visited visit.reservedHigh visit.reservedMid visit.reservedLow known

/-- An event of the node's own kind takes its effect. -/
theorem visitNode_acts {kind : Nat} (same : gnKind n = kind) (known : kind ≤ 4) (act : State → Graph → Nat → State) :
    visitNode id node kind s act = .next (act t g n) :=
  (visitNode_of_nodeRead visit kind (same ▸ known) act).trans (if_neg (not_not.mpr same))

/-- An event of another kind leaves the visit to the event of the node's own. -/
theorem visitNode_redirects {kind : Nat} (other : gnKind n ≠ kind) (known : gnKind n ≤ 4) (act : State → Graph → Nat → State) :
    visitNode id node kind s act = .next (t.post (nodeEvent (gnKind n) id node)) :=
  (visitNode_of_nodeRead visit kind known act).trans (if_pos other)

/-! ## End nodes (R263) -/

/-- An activation ends at an end node. -/
theorem execGraphNodeEnd_leaves (kind : gnKind n = 0) : execGraphNodeEnd id node s = .next (checkGraph id (leaveNode id node t)) :=
  visitNode_acts visit kind (by decide) _

/-- A node that is no end node is visited by the event of its kind. -/
theorem execGraphNodeEnd_redirects (other : 0 < gnKind n) (known : gnKind n ≤ 4) :
    execGraphNodeEnd id node s = .next (t.post (nodeEvent (gnKind n) id node)) :=
  visitNode_redirects visit (Nat.ne_of_gt other) known _

/-! ## Task nodes (R263) -/

/-- The die in whose queue the card of a task node goes. -/
def cardDie (g : Graph) (n : Nat) : Nat := if gnDie n = 15 then g.die else gnDie n

/-- The graph after an activation at a task node has posted the card. -/
def pastTask (g : Graph) (node n : Nat) : Graph :=
  { g with acts := g.acts.erase node, posting := g.posting ++ [(node, gnNext n, gnAlt n)] }

/-- The message that carries the card of a task node. -/
def cardMessage (t : State) (id node n : Nat) (g : Graph) : Message :=
  ⟨t.nextId, none, 255, 0, [], 6, t.device, cardDie g n, g.ctx, some (gnPtr n), gnArgp n, 0, some (id, node), t.nextId⟩

/-- The state after the walker has posted the card of a task node. -/
def cardPosted (t : State) (id node n : Nat) (g : Graph) : State :=
  let u := ({ t with nextId := t.nextId + 1 } : State).setGraph (pastTask g node n)
  ({ u with messages := u.messages ++ [cardMessage t id node n g] } : State).post (.postArrival t.nextId)

/-- A task node posts its card to a queue of a die that there is. -/
theorem execGraphNodeTask_posts (kind : gnKind n = 1) (die : cardDie g n < 12) (card : globalAt (gnPtr n) 64 = true) :
    execGraphNodeTask id node s = .next (cardPosted t id node n g) := by
  have legal : ¬(12 ≤ cardDie g n ∨ (!globalAt (gnPtr n) 64) = true) :=
    not_or.mpr ⟨Nat.not_le.mpr die, ne_true_of_eq_false (congrArg not card)⟩
  exact (visitNode_acts visit kind (by decide) _).trans (congrArg Host.Outcome.next (if_neg legal))

/-! ## Joins (R263) -/

/-- How many activations have arrived at a join, with the present one. -/
def arrivalsAt (g : Graph) (node : Nat) : Nat := (assoc node g.joins).getD 0 + 1

/-- The last arrival at a join sends the activation on, and its count restarts; an earlier one is counted, and ends. -/
theorem execGraphNodeJoin_counts (kind : gnKind n = 4) (counts : gnCount n ≠ 0) :
    execGraphNodeJoin id node s = .next (if gnCount n ≤ arrivalsAt g node
      then moveAct id node (gnNext n) (t.setGraph { g with joins := eraseAssoc node g.joins })
      else checkGraph id (leaveNode id node (t.setGraph { g with joins := setAssoc node (arrivalsAt g node) g.joins }))) :=
  (visitNode_acts visit kind (by decide) _).trans (congrArg Host.Outcome.next (if_neg counts))

/-! ## Conditions (R263) -/

section

variable {u : State} {l : Nat} {md : AccMode} (aligned : globalAt (gnPtr n) 4 = true)
  (held : graspAgent t (dieUnit g.die) g.die g.ctx (gnPtr n) 4 false = .ok u l md)

omit visit in
include aligned held in
/-- A condition word that the walker reaches is read. -/
theorem readCondition_goes (e : Instr) (go : State → Nat → State) : readCondition e id g (gnPtr n) t go = go u (u.readLe l 4) := by
  refine (if_neg (ne_true_of_eq_false (congrArg not aligned))).trans ?_
  rw [held]

include aligned held

/-- A condition goes on to its alternative where its word is 0, else to its next node. -/
theorem execGraphNodeCondition_moves (kind : gnKind n = 2) :
    execGraphNodeCondition id node s = .next (moveAct id node (if u.readLe l 4 = 0 then gnAlt n else gnNext n) u) :=
  (visitNode_acts visit kind (by decide) _).trans (congrArg Host.Outcome.next (readCondition_goes aligned held _ _))

/-- How often a loop has been entered, with the present time. -/
def iterationsAt (g : Graph) (node : Nat) : Nat := (assoc node g.loops).getD 0 + 1

/-- A loop whose word is 0 ends, and its count restarts. -/
theorem execGraphNodeWhile_ends (kind : gnKind n = 3) (zero : u.readLe l 4 = 0) :
    execGraphNodeWhile id node s = .next (moveAct id node (gnAlt n) (u.setGraph { g with loops := eraseAssoc node g.loops })) :=
  (visitNode_acts visit kind (by decide) _).trans (congrArg Host.Outcome.next ((readCondition_goes aligned held _ _).trans (if_pos zero)))

/-- A loop whose word is not 0 goes round, unless that is once more than its count allows. -/
theorem execGraphNodeWhile_repeats (kind : gnKind n = 3) (nonzero : u.readLe l 4 ≠ 0) :
    execGraphNodeWhile id node s = .next (if gnCount n ≠ 0 ∧ iterationsAt g node > gnCount n then faultGraph id u
      else moveAct id node (gnNext n) (u.setGraph { g with loops := setAssoc node (iterationsAt g node) g.loops })) :=
  (visitNode_acts visit kind (by decide) _).trans (congrArg Host.Outcome.next ((readCondition_goes aligned held _ _).trans (if_neg nonzero)))

end

end

/-! ## Cards that met a full queue (R263) -/

section

variable {s : State} {id node : Nat} {g : Graph} (graph : s.graph? id = some g)
include graph

/-- The cards that a node of the graph has posted. -/
def cardsOf (s : State) (id node : Nat) : List Message := s.messages.filter (fun m => m.graph == some (id, node))

/-- The cards of a running graph are posted again. -/
theorem execGraphPostRetry_posts (running : g.faulted = false) :
    execGraphPostRetry id node s = .next ((cardsOf s id node).foldl (fun s m => s.postOnce (.postArrival m.id)) s) := by
  rw [execGraphPostRetry, graph]
  exact if_pos (congrArg not running)

/-- Those of the cards whose posting is not under way. -/
def cardsBack (s : State) (id node : Nat) : List Message :=
  (cardsOf s id node).filter (fun m => !(s.agenda.contains (.postArrival m.id)))

/-- The cards of a faulted graph are dropped. -/
theorem execGraphPostRetry_drops (faulted : g.faulted = true) :
    execGraphPostRetry id node s = .next (checkGraph id (((cardsBack s id node).foldl (fun s m => s.dropMessage m.id) s).setGraph
      { g with posting := (cardsBack s id node).foldl (fun l _ => l.eraseP (fun x => x.1 == node)) g.posting })) := by
  rw [execGraphPostRetry, graph]
  exact if_neg (ne_true_of_eq_false (congrArg not faulted))

/-! ## Tasks that complete (R263) -/

section

variable {task : Nat} {k : Task} (known : s.task? task = some k) (complete : k.complete = true) (posted : k.graph = some (id, node))

/-- The state after a task of a graph's node has left the machine and the graph. -/
def taskLeft (s : State) (g : Graph) (node task : Nat) : State :=
  { s.setGraph { g with tasks := g.tasks.eraseP (fun x => x.1 == node) } with tasks := s.tasks.filter (fun x => x.num != task) }

include known complete posted

/-- A failed task faults its graph. -/
theorem execGraphTaskComplete_faults (failed : k.failed = true) :
    execGraphTaskComplete id task s = .next (faultGraph id (taskLeft s g node task)) := by
  simp only [execGraphTaskComplete, graph, known, complete, posted, failed, Bool.not_true, Bool.false_eq_true, if_false, if_true]
  rfl

/-- Both successors of a task that has not failed are activated. -/
theorem execGraphTaskComplete_activates {nx al : Nat} (sound : k.failed = false)
    (successors : g.tasks.find? (fun x => x.1 == node) = some (node, nx, al)) :
    execGraphTaskComplete id task s = .next (checkGraph id (sendAct id al (sendAct id nx (taskLeft s g node task)))) := by
  simp only [execGraphTaskComplete, graph, known, complete, posted, sound, successors, Bool.not_true, Bool.false_eq_true, if_false]
  rfl

end

/-! ## Completion (R294) -/

/-- A graph of which nothing remains ends once its completion word is written. -/
theorem execGraphCompletion_ends {t : State} (noActs : g.acts = []) (noPosting : g.posting = []) (noTasks : g.tasks = [])
    (written : writeDone s g.die g.ctx g.done (if g.faulted then g.failval.toNat else g.doneval.toNat) = (t, true)) :
    execGraphCompletion id s = .next { t with sch := { t.sch with graphs := t.sch.graphs.filter (fun x => x.id != id) } } := by
  have nothing : (!(g.acts.isEmpty && g.posting.isEmpty && g.tasks.isEmpty)) = false := by rw [noActs, noPosting, noTasks]; rfl
  rw [execGraphCompletion, graph]
  refine (if_neg (ne_true_of_eq_false nothing)).trans ?_
  rw [written]
  rfl

end

/-- Settles O34: a visit by the node that it has read, each other event by the lemma about its case. -/
theorem graphEvents : Obligations.GraphEvents := by
  intro s t id node loc mode g graph
  refine ⟨fun running active read => ?visits, ⟨execGraphPostRetry_posts graph, execGraphPostRetry_drops graph⟩,
    fun task k nx al known complete posted => ⟨execGraphTaskComplete_faults graph known complete posted,
      execGraphTaskComplete_activates graph known complete posted⟩, execGraphCompletion_ends graph⟩
  case visits =>
    intro n high mid low
    have visit : NodeRead s id node g t n := ⟨graph, running, active, ⟨loc, mode, read, rfl⟩, high, mid, low⟩
    exact ⟨execGraphNodeEnd_leaves visit, execGraphNodeEnd_redirects visit,
      execGraphNodeTask_posts visit,
      fun u l md aligned held => ⟨execGraphNodeCondition_moves visit aligned held, execGraphNodeWhile_ends visit aligned held,
        execGraphNodeWhile_repeats visit aligned held⟩,
      execGraphNodeJoin_counts visit⟩

end Sys2Proof.Proofs
end

section
/-! PROOFS. Blocks that start and end (R260, R261, R371), records that reach the Porch (R264), and the save and the restoration of a pre-empted
gang (R330, R331). -/

namespace Sys2Proof.Proofs

open Sys2Proof.Machine Sys2Proof.Laws

/-! ## BLOCK_DISPATCH and BLOCK_END (R260, R261, R371) -/

section

/-- The state after a block's storage is zero, and its core has dropped what it holds of the context's code. -/
def blockCleared (b : Block) (g : Gang) (s : State) : State :=
  (zeroBlock b s).modCore b.core (fun k => { k with icache := k.icache.filter (fun l => l.ctx != g.ctx), fpen := (s.ctxConfig g.ctx).fpen })

/-- The state after block `id` and its gang are marked as running. -/
def blockMarked (id : Nat) (g : Gang) (s : State) : State :=
  ({ s with blocks := s.blocks.map (fun (x : Block) => if x.uid = id then { x with state := 2 } else x) } : State).modGang
    g.uid (fun x => { x with phase := .running })

/-- The state after block `id` has ended, its record still there. -/
def blockEnded (id : Nat) (s : State) : State :=
  { s with blocks := s.blocks.map (fun (x : Block) => if x.uid = id then { x with state := 3 } else x) }

variable {s : State} {id : Nat} {b : Block} {g : Gang} (block : s.block? id = some b) (gang : s.gang? b.gang = some g)
include block gang

/-- A bound block that is not held starts: its warps are placed on its cleared core. -/
theorem execBlockDispatch_starts (bound : b.state = 1) (free : b.hold = false) (live : g.phase = .bound ∨ g.phase = .running) :
    execBlockDispatch id s = .next (recheck b.core
      ((List.range b.shape.warps).foldl (fun s w => startWarp b w s) (blockMarked id g (blockCleared b g s)))) := by
  have goes : ¬(b.state ≠ 1 ∨ b.hold = true ∨ (g.phase ≠ .bound ∧ g.phase ≠ .running)) := by
    rintro (unbound | held | ⟨notBound, notRunning⟩)
    · exact unbound bound
    · exact Bool.false_ne_true (free.symm.trans held)
    · exact live.elim notBound notRunning
  rw [execBlockDispatch, block]
  dsimp only
  rw [gang]
  exact if_neg goes

/-- The record of a block whose resources are free already ends with its gang. -/
theorem execBlockEnd_freed (freed : b.state = 0) : execBlockEnd id s = .next (endLast b g s) := by
  rw [execBlockEnd, block]
  dsimp only
  rw [gang]
  exact if_pos freed

/-- A block that has nothing left, and that nothing holds, ends: alone where its gang has another, else with its gang. -/
theorem execBlockEnd_ends (unfreed : b.state ≠ 0) (started : b.state ≠ 1) (exited : s.threadsOfBlock id = [])
    (live : g.phase = .running ∨ g.phase = .bound) (unheld : s.endHeld g = false) (idle : s.blockBusy b = false) :
    execBlockEnd id s = .next (if (blockEnded id s).blocks.any (fun x => x.gang == g.uid && x.uid != id)
      then wakeAdmission g.die (removeBlock b (blockEnded id s)) else endLast b g (wakeAdmission g.die (freeBlock b (blockEnded id s)))) := by
  have due : ¬(b.state = 1 ∨ (!(s.threadsOfBlock id).isEmpty) = true ∨ (g.phase ≠ .running ∧ g.phase ≠ .bound) ∨ s.endHeld g = true) := by
    rintro (unstarted | left | ⟨notRunning, notBound⟩ | held)
    · exact started unstarted
    · exact ne_true_of_eq_false (congrArg not (List.isEmpty_iff.mpr exited)) left
    · exact live.elim notRunning notBound
    · exact Bool.false_ne_true (unheld.symm.trans held)
  rw [execBlockEnd, block]
  dsimp only
  rw [gang]
  refine (if_neg unfreed).trans ((if_neg due).trans ((if_neg (ne_true_of_eq_false idle)).trans (congrArg Host.Outcome.next ?_)))
  change (if (!(blockEnded id s).blocks.any (fun x => x.gang == g.uid && x.uid != id)) = true then _ else _) = _
  cases (blockEnded id s).blocks.any (fun x => x.gang == g.uid && x.uid != id) <;> rfl

end

/-! ## Messages that arrive (R255, R264, R289) -/

/-- Message `id` is `m`, the next of its issue group to arrive where it goes, and no link holds it on its way. -/
structure Arrives (s : State) (id : Nat) (m : Message) : Prop where
  message : s.message? id = some m
  next : s.messages.any (fun x => x.grp == m.grp && decide (x.id < id) && x.dev == m.dev && x.die == m.die) = false
  way : m.heldOnWay s = none

/-! ## PORCH_ACCEPT and PORCH_REFILL (R264) -/

section

variable {s : State} {id : Nat} {m : Message} (arrives : Arrives s id m) (here : m.dev = s.device)
include arrives here

/-- The record that a message carries. -/
abbrev recordOf (m : Message) : BitVec 256 := m.card.extractLsb' 0 256

/-- What becomes of a record that has come to a Porch of this module. -/
theorem execPorchAccept_arrives : execPorchAccept id s =
    (let p := s.porch m.die
     if p.ring.isEmpty && decide (p.porch.length < 32) then
       .next (wakeReceivers m.die (sendAccepted m (s.setPorch { p with porch := p.porch ++ [recordOf m] })))
     else if p.porch.length < 32 then .next ((s.postOnce (.porchRefill m.die)).post (.porchAccept id))
     else if p.ring.length < 2 ^ p.q then .next (sendAccepted m (s.setPorch { p with ring := p.ring ++ [recordOf m] }))
     else .next (refuseMessage m .queueOverflow s)) := by
  obtain ⟨message, next, way⟩ := arrives
  rw [execPorchAccept, message]
  refine (if_neg (ne_true_of_eq_false next)).trans ?_
  rw [way]
  exact if_neg (not_not.mpr here)

/-- With an empty ring and room in the Porch the record goes to the Porch's tail. -/
theorem execPorchAccept_enters (empty : (s.porch m.die).ring = []) (room : (s.porch m.die).porch.length < 32) : execPorchAccept id s =
    .next (wakeReceivers m.die (sendAccepted m
      (s.setPorch { s.porch m.die with porch := (s.porch m.die).porch ++ [recordOf m] }))) := by
  have straight : ((s.porch m.die).ring.isEmpty && decide ((s.porch m.die).porch.length < 32)) = true := by
    rw [List.isEmpty_iff.mpr empty, decide_eq_true room]
    rfl
  exact (execPorchAccept_arrives arrives here).trans (if_pos straight)

/-- With room in the Porch and records in the ring, the record waits for a refill. -/
theorem execPorchAccept_defers (filled : (s.porch m.die).ring ≠ []) (room : (s.porch m.die).porch.length < 32) :
    execPorchAccept id s = .next ((s.postOnce (.porchRefill m.die)).post (.porchAccept id)) := by
  have shut : ¬((s.porch m.die).ring.isEmpty && decide ((s.porch m.die).porch.length < 32)) = true :=
    fun both => filled (List.isEmpty_iff.mp (Bool.and_eq_true_iff.mp both).1)
  exact (execPorchAccept_arrives arrives here).trans ((if_neg shut).trans (if_pos room))

section

variable (full : 32 ≤ (s.porch m.die).porch.length)
include full

/-- At a full Porch the ring decides. -/
theorem execPorchAccept_full : execPorchAccept id s = if (s.porch m.die).ring.length < 2 ^ (s.porch m.die).q
    then .next (sendAccepted m (s.setPorch { s.porch m.die with ring := (s.porch m.die).ring ++ [recordOf m] }))
    else .next (refuseMessage m .queueOverflow s) := by
  have shut : ¬((s.porch m.die).ring.isEmpty && decide ((s.porch m.die).porch.length < 32)) = true :=
    fun both => Nat.not_lt.mpr full (of_decide_eq_true (Bool.and_eq_true_iff.mp both).2)
  exact (execPorchAccept_arrives arrives here).trans ((if_neg shut).trans (if_neg (Nat.not_lt.mpr full)))

end

end

/-- The head of the ring moves to the tail of a Porch that has room. -/
theorem execPorchRefill_moves {s : State} {die : Nat} {x : BitVec 256} {r : List (BitVec 256)} (ring : (s.porch die).ring = x :: r)
    (room : (s.porch die).porch.length < 32) :
    let t := wakeReceivers die (s.setPorch { s.porch die with porch := (s.porch die).porch ++ [x], ring := r })
    execPorchRefill die s = .next (if r.isEmpty then t else t.postOnce (.porchRefill die)) := by
  intro t
  rw [execPorchRefill]
  dsimp only
  rw [ring]
  exact if_neg (Nat.not_le.mpr room)

/-! ## PREEMPT_DRAIN_END and RESUME_RESTORE (R329–R331) -/

section

variable {s : State} {id : Nat} {g : Gang} (gang : s.gang? id = some g)
include gang

/-- A deferred pre-emption begins once the household may be pre-empted. -/
theorem execPreemptDrainEnd_begins (running : g.phase = .running) (wanted : g.wanted = true) (able : s.canPreempt g.hh = true) :
    execPreemptDrainEnd id s = .next (beginPreempt g.hh s) := by
  rw [execPreemptDrainEnd, gang]
  exact (if_pos ⟨running, wanted⟩).trans (if_pos able)

/-- A stopping gang is saved once its household has drained. -/
theorem execPreemptDrainEnd_saves (stopping : g.phase = .stopping) (drained : (undoSent id s).householdDrained g.hh = true) :
    execPreemptDrainEnd id s = .next (saveGang g (undoSent id s)) := by
  have halted : ¬(g.phase = .running ∧ g.wanted = true) := fun both => nomatch stopping.symm.trans both.1
  rw [execPreemptDrainEnd, gang]
  exact (if_neg halted).trans ((if_neg (not_not.mpr stopping)).trans (if_pos drained))

/-- A gang that is bound again is restored with its household. -/
theorem execResumeRestore_restores (resuming : g.phase = .resuming) : execResumeRestore id s = .next (restoreHousehold g.hh s) := by
  rw [execResumeRestore, gang]
  exact if_pos resuming

end

/-- Settles O33: each event by the lemma about its case; a request is the pre-emption of the ready households by definition. -/
theorem blockAndPorchEvents : Obligations.BlockAndPorchEvents := by
  intro s id die
  refine ⟨fun b g block gang => ⟨execBlockDispatch_starts block gang, execBlockEnd_freed block gang, execBlockEnd_ends block gang⟩,
    fun m message next way here => ?porch, fun x r => execPorchRefill_moves, rfl,
    fun g gang => ⟨execPreemptDrainEnd_begins gang, execPreemptDrainEnd_saves gang, execResumeRestore_restores gang⟩⟩
  case porch =>
    have arrives : Arrives s id m := ⟨message, next, way⟩
    exact ⟨execPorchAccept_enters arrives here, execPorchAccept_defers arrives here,
      fun full room => (execPorchAccept_full arrives here full).trans (if_pos room),
      fun full ringFull => (execPorchAccept_full arrives here full).trans (if_neg (Nat.not_lt.mpr ringFull))⟩

end Sys2Proof.Proofs
end

section
/-! PROOFS. Cards that are posted, admission and its reservations, and the hold of an item (R255–R258, R266, R329, R331). -/

namespace Sys2Proof.Proofs

open Sys2Proof.Machine Sys2Proof.Laws

/-! ## POST_ARRIVAL (R255, R286) -/

/-- The die from which the card of a message is read: the sender's, else the queue's. -/
def readingDie (m : Message) : Nat := match m.t with | some r => r.core / 256 | none => m.die

/-- A card as it has been read, with the argument pointer of the message where that has one. -/
def cardGiven (m : Message) (bs : List Byte) : BitVec 512 :=
  BitVec.ofNat 512 (if m.argp == 0 then leValue bs else leValue bs - leValue bs / 2 ^ 256 % 2 ^ 64 * 2 ^ 256 + m.argp.toNat * 2 ^ 256)

/-- A card without a placement table is decided without one. -/
theorem placement_skipped {card : BitVec 512} (unplaced : jcPlace card = 0) :
    (jcPlace card == 0 || !(globalAt (jcPlace card) 2)) = true := by
  rw [beq_iff_eq.mpr unplaced, Bool.true_or]

section

variable {s : State} {id : Nat} {m : Message} (arrives : Arrives s id m)
include arrives

/-- A card that comes with its message and has no placement table is decided. -/
theorem execPostArrival_carried (carried : m.ptr = none) (unplaced : jcPlace m.card = 0) (here : m.dev = s.device) :
    execPostArrival id s = .next (decideCard m m.card [] s) := by
  obtain ⟨message, next, way⟩ := arrives
  rw [execPostArrival, message]
  refine (if_neg (ne_true_of_eq_false next)).trans ?_
  rw [way]
  dsimp only
  rw [carried]
  exact congrArg Host.Outcome.next ((if_pos (placement_skipped unplaced)).trans (if_pos here))

/-- A card that its message names, and that has no placement table, is decided once it is read. -/
theorem execPostArrival_read {t : State} {bs : List Byte} {p : DWord} (named : m.ptr = some p)
    (read : graspBytes m.t (readingDie m) m.ctx (pieces p 64) s = .ok t bs) (unplaced : jcPlace (cardGiven m bs) = 0) (here : m.dev = t.device) :
    execPostArrival id s = .next (decideCard m (cardGiven m bs) [] t) := by
  obtain ⟨message, next, way⟩ := arrives
  rw [execPostArrival, message]
  refine (if_neg (ne_true_of_eq_false next)).trans ?_
  rw [way]
  dsimp only
  rw [named]
  dsimp only
  generalize got : graspBytes _ _ _ _ s = r
  cases got.symm.trans read
  exact congrArg Host.Outcome.next ((if_pos (placement_skipped unplaced)).trans (if_pos here))

end

/-! ## ADMISSION_DECISION (R257, R258, R266) -/

/-- The state after the open dies of the households across dies are chosen anew, and the reservations of a die have given way. -/
def diesChosen (die : Nat) (s : State) : State :=
  yieldAll die ((s.sch.items.filter (fun x => !x.chosen.isEmpty && x.parent.isNone)).foldl (fun s x => rechoose x s) s)

/-- The state after the heads of a die's queues that need a household sequence number have asked for one. -/
def numbersAsked (die : Nat) (s : State) : State :=
  ((s.heads die).filter (fun x => !(s.localItem x) && x.seq.isNone && !(jcDisp x.card))).foldl
    (fun s x => s.postOnce (.householdSequenceNumber x.id)) s

/-- The state in which a die makes its decision. -/
def deciding (die : Nat) (s : State) : State := numbersAsked die (diesChosen die s)

section

variable {s : State} {die : Nat}

/-- A dispatcher's card goes ahead of every item. -/
theorem execAdmissionDecision_dispatcher {x : Item} (card : (deciding die s).dispatcherCard die = some x) :
    execAdmissionDecision die s = .next (admitDispatcher x (deciding die s)) := by
  unfold deciding numbersAsked diesChosen at card
  rw [execAdmissionDecision]
  rw [card]
  rfl

section

variable (noCard : (deciding die s).dispatcherCard die = none)
include noCard

/-- Without a dispatcher's card, the decision is about the item that the policy chooses. -/
theorem execAdmissionDecision_chooses : execAdmissionDecision die s = match (deciding die s).chooseItem die with
    | none => .next (deciding die s)
    | some w => match bindItem w (deciding die s) with
      | some t => .next (t.postOnce (.admissionDecision die))
      | none => .next (holdItem w (deciding die s)) := by
  unfold deciding numbersAsked diesChosen at noCard
  rw [execAdmissionDecision]
  rw [noCard]
  rfl

/-- With no item to choose, the decision ends. -/
theorem execAdmissionDecision_idle (nothing : (deciding die s).chooseItem die = none) :
    execAdmissionDecision die s = .next (deciding die s) := by
  rw [execAdmissionDecision_chooses noCard, nothing]

/-- A chosen item that fits is bound, and another decision follows. -/
theorem execAdmissionDecision_binds {w : Item} {t : State} (chosen : (deciding die s).chooseItem die = some w)
    (bound : bindItem w (deciding die s) = some t) : execAdmissionDecision die s = .next (t.postOnce (.admissionDecision die)) := by
  rw [execAdmissionDecision_chooses noCard, chosen]
  dsimp only
  rw [bound]

/-- A chosen item that does not fit is held. -/
theorem execAdmissionDecision_holds {w : Item} (chosen : (deciding die s).chooseItem die = some w) (unfit : bindItem w (deciding die s) = none) :
    execAdmissionDecision die s = .next (holdItem w (deciding die s)) := by
  rw [execAdmissionDecision_chooses noCard, chosen]
  dsimp only
  rw [unfit]

end

end

/-! ## The items of a card (R257, R258) -/

/-- A request of another module's household for die `die % 16`. -/
theorem execReservationRequest_away {s : State} {id die : Nat} (away : 16 ≤ die) (named : die % 16 < 12) :
    execReservationRequest id die s = .next (awayRequest (die / 16 - 1) (die % 16) id s) :=
  (if_pos (by omega)).trans (congrArg Host.Outcome.next (if_pos ⟨away, named⟩))

section

/-- The dies of this module that an item's gangs are bound for. -/
def diesHere (chosen : List (Nat × Nat)) (s : State) : List Nat := ((chosen.filter (fun p => p.1 == s.device)).map (·.2)).eraseDups

/-- The requests that an item has made. -/
def requestsOf (id : Nat) (s : State) : List Item := s.sch.items.filter (fun y => y.parent == some id)

variable {s : State} {id : Nat} {x : Item} (item : s.item? id = some x)
include item

/-- An item that has waited 1 ms has aged, and the dies that know of it decide again. -/
theorem execAgeing_ages {die : Nat} (young : x.aged = false) (due : x.posted + msCycles ≤ s.clock) :
    execAgeing die id s = .next (((requestsOf id s).map (·.die)).foldl (fun s d => s.postOnce (.admissionDecision d))
      (wakeAdmission die (s.setItem { x with aged := true }))) := by
  rw [execAgeing, item]
  exact (if_neg (ne_true_of_eq_false young)).trans (if_neg (Nat.not_lt.mpr due))

/-! ### HOUSEHOLD_SEQUENCE_NUMBER (R258, steps 1 and 2) -/

/-- The dies that an item's gangs are bound for when it draws its number. -/
def firstDies (x : Item) (s : State) : List (Nat × Nat) :=
  s.chooseDies (Shape.ofCard x.card) x.die [] (placesOf s.device x.die x.card x.place)

/-- The state after an item has drawn its number, and its household begun. -/
def numbered (x : Item) (s : State) : State :=
  let n := s.sch.seqCounter + 1
  ((newHousehold x.task x.next ((firstDies x s).map (·.1)) (some (n, s.device)) { s with sch := { s.sch with seqCounter := n } }).1).setItem
    { x with seq := some (n, s.device), chosen := firstDies x s }

/-- An item of a card that has no number draws one, and requests its dies; with none of them here, its hold may clear. -/
theorem execHouseholdSequenceNumber_numbers (unnumbered : x.seq = none) (own : x.parent = none) (fresh : x.resume = []) :
    execHouseholdSequenceNumber id s = .next (if (diesHere (firstDies x s) s).isEmpty then (numbered x s).post (.holdClear id)
      else (numbered x s).postAll ((diesHere (firstDies x s) s).map (fun d => .reservationRequest id d))) := by
  have due : (x.seq.isSome || x.parent.isSome || !x.resume.isEmpty) = false := by rw [unnumbered, own, fresh]; rfl
  rw [execHouseholdSequenceNumber, item]
  exact if_neg (ne_true_of_eq_false due)

/-! ### RESERVATION_REQUEST (R258, step 2) -/

/-- The request of an item for the gangs that go to one die. -/
def requestFor (id die : Nat) (x : Item) (s : State) : Item :=
  let here := (List.range x.resume.length).filter (fun i => x.chosen[i]? == some (s.device, die))
  { x with id := s.nextId, die := die, parent := some id, reserved := [], resume := here.map (fun i => x.resume.getD i 0) }

/-- A die takes the request of a numbered item once. -/
theorem execReservationRequest_enters {die : Nat} (here : die < 12) (numbered : x.seq.isSome = true)
    (first : s.sch.items.any (fun y => y.parent == some id && y.die == die) = false) :
    execReservationRequest id die s = .next (({ s with
      nextId := s.nextId + 1, sch := { s.sch with items := s.sch.items ++ [requestFor id die x s] } } : State).postOnce (.admissionDecision die)) := by
  have due : (x.seq.isNone || s.sch.items.any (fun y => y.parent == some id && y.die == die)) = false := by
    rw [first, Option.isNone_eq_false_iff.mpr numbered, Bool.or_self]
  rw [execReservationRequest, if_neg (Nat.not_le.mpr here), item]
  exact if_neg (ne_true_of_eq_false due)

/-! ### HOLD_CLEAR (R258, step 5; R331) -/

/-- Every die here that an item's gangs are bound for holds a reservation, and those of other modules hold theirs by the choice made. -/
structure HoldClears (s : State) (id : Nat) (x : Item) : Prop where
  numbered : x.seq.isSome = true
  reserved : (diesHere x.chosen s).all (fun d => (requestsOf id s).any (fun y => y.die == d && !y.reserved.isEmpty)) = true
  elsewhere : (x.chosen.any (fun p => p.1 != s.device) && (Config.openWord s.free).getLsbD 0) = false

/-- The gangs that the requests of an item have reserved for. -/
def reservedOf (id : Nat) (s : State) : List Nat := (requestsOf id s).flatMap (·.reserved)

/-- The requests of an item leave, whichever the state that they leave. -/
def requestsDropped (id : Nat) (s u : State) : State := (requestsOf id s).foldl (fun s y => s.dropItem y.id) u

section

variable (clears : HoldClears s id x)
include clears

/-- Once every die has reserved, the household of the item starts or resumes. -/
theorem execHoldClear_clears : execHoldClear id s =
    let u : State := { s with free := s.free + 1 }
    if !x.resume.isEmpty then .next (finishRebind (reservedOf id s) (requestsDropped id s (u.dropItem id)))
    else
      let t := clearHold (reservedOf id s) (requestsDropped id s u)
      .next ((advanceItem x (if (diesHere x.chosen s).isEmpty then abstractHousehold x t else t)).postOnce (.admissionDecision x.die)) := by
  obtain ⟨numbered, reserved, elsewhere⟩ := clears
  have due : (x.seq.isNone || !(diesHere x.chosen s).all (fun d => (requestsOf id s).any (fun y => y.die == d && !y.reserved.isEmpty))) = false := by
    rw [reserved, Option.isNone_eq_false_iff.mpr numbered]
    rfl
  rw [execHoldClear, item]
  exact (if_neg (ne_true_of_eq_false due)).trans (if_neg (ne_true_of_eq_false elsewhere))

/-- A household that resumes is bound again. -/
theorem execHoldClear_resumes (resumes : x.resume ≠ []) : execHoldClear id s =
    .next (finishRebind (reservedOf id s) (requestsDropped id s (({ s with free := s.free + 1 } : State).dropItem id))) := by
  refine (execHoldClear_clears item clears).trans (if_pos ?_)
  rw [List.isEmpty_eq_false_iff.mpr resumes]
  rfl

/-- The gangs of a new household may be dispatched, and its card goes on. -/
theorem execHoldClear_starts (starts : x.resume = []) : execHoldClear id s =
    let t := clearHold (reservedOf id s) (requestsDropped id s { s with free := s.free + 1 })
    .next ((advanceItem x (if (diesHere x.chosen s).isEmpty then abstractHousehold x t else t)).postOnce (.admissionDecision x.die)) := by
  refine (execHoldClear_clears item clears).trans (if_neg ?_)
  rw [starts]
  exact Bool.false_ne_true

end

end

/-! ## PREEMPT_HOLD_TIMEOUT (R329) -/

/-- The item of effective priority 6 or 7 that a die holds, with the cycle from which it has held it. -/
def urgentHeld (die : Nat) (s : State) : Option (Nat × Item) :=
  s.sch.heldItem.findSome? (fun h => if h.1 = die then (s.item? h.2.1).bind (fun x => if s.eff x ≥ 6 then some (h.2.2, x) else none) else none)

/-- A die has held item `x` for 100 µs, and no pre-emption of a gang of the die is under way. -/
structure HoldTimedOut (s : State) (die since : Nat) (x : Item) : Prop where
  held : urgentHeld die s = some (since, x)
  due : since + holdCycles ≤ s.clock
  quiet : s.gangs.any (fun g => g.die == die && (g.phase == .stopping || g.wanted)) = false

section

variable {s : State} {die since : Nat} {x : Item} (timedOut : HoldTimedOut s die since x)
include timedOut

/-- An item held for 100 µs is admitted if it fits by now; otherwise a victim is looked for. -/
theorem execPreemptHoldTimeout_decides : execPreemptHoldTimeout die s =
    if (bindItem x s).isSome then .next (s.postOnce (.admissionDecision die))
    else match s.victimFor die (s.eff x) with
      | some g => .next ((askPreempt g s).post (.preemptHoldTimeout die))
      | none => .next (s.post (.preemptHoldTimeout die)) := by
  obtain ⟨held, due, quiet⟩ := timedOut
  have passed : (decide (s.clock < since + holdCycles) || s.gangs.any (fun g => g.die == die && (g.phase == .stopping || g.wanted))) = false := by
    rw [quiet, decide_eq_false (Nat.not_lt.mpr due), Bool.or_self]
  unfold urgentHeld at held
  rw [execPreemptHoldTimeout, held]
  exact if_neg (ne_true_of_eq_false passed)

/-- An item that fits by now is admitted. -/
theorem execPreemptHoldTimeout_fits {t : State} (fits : bindItem x s = some t) :
    execPreemptHoldTimeout die s = .next (s.postOnce (.admissionDecision die)) :=
  (execPreemptHoldTimeout_decides timedOut).trans (if_pos (congrArg Option.isSome fits))

section

variable (unfit : bindItem x s = none)
include unfit

/-- For an item that does not fit, a victim is pre-empted, and the die looks again. -/
theorem execPreemptHoldTimeout_preempts {g : Gang} (victim : s.victimFor die (s.eff x) = some g) :
    execPreemptHoldTimeout die s = .next ((askPreempt g s).post (.preemptHoldTimeout die)) := by
  rw [execPreemptHoldTimeout_decides timedOut, unfit, victim]
  rfl

/-- Without a victim, the die looks again. -/
theorem execPreemptHoldTimeout_waits (spared : s.victimFor die (s.eff x) = none) :
    execPreemptHoldTimeout die s = .next (s.post (.preemptHoldTimeout die)) := by
  rw [execPreemptHoldTimeout_decides timedOut, unfit, spared]
  rfl

end

end

/-- Settles O32: each event by the lemma about its case; a card of the host driver is posted by definition. -/
theorem admissionEvents : Obligations.AdmissionEvents := by
  intro s id die
  refine ⟨fun m message next way => ?card, fun queue ctx card => rfl, ?decision, execReservationRequest_away, fun x item => ?item,
    fun since x held due quiet => ?held⟩
  case card =>
    have arrives : Arrives s id m := ⟨message, next, way⟩
    exact ⟨execPostArrival_carried arrives, fun t bs p named read unplaced here => execPostArrival_read arrives named read unplaced here⟩
  case decision =>
    exact ⟨fun x card => execAdmissionDecision_dispatcher card, fun noCard => ⟨execAdmissionDecision_idle noCard,
      fun w t chosen bound => execAdmissionDecision_binds noCard chosen bound, fun w chosen unfit => execAdmissionDecision_holds noCard chosen unfit⟩⟩
  case item =>
    refine ⟨execAgeing_ages item, execHouseholdSequenceNumber_numbers item, execReservationRequest_enters item,
      fun numbered reserved elsewhere => ?clears⟩
    have clears : HoldClears s id x := ⟨numbered, reserved, elsewhere⟩
    exact ⟨execHoldClear_resumes item clears, execHoldClear_starts item clears⟩
  case held =>
    have timedOut : HoldTimedOut s die since x := ⟨held, due, quiet⟩
    exact ⟨fun t fits => execPreemptHoldTimeout_fits timedOut fits, fun unfit =>
      ⟨fun g victim => execPreemptHoldTimeout_preempts timedOut unfit victim, execPreemptHoldTimeout_waits timedOut unfit⟩⟩

end Sys2Proof.Proofs
end

section
/-! PROOFS. The machine after reset, the boot, power, measurements and the lifetime records, and attestation (R10, R40, R382–R389). -/

namespace Sys2Proof.Proofs

open Sys2Proof.Machine Sys2Proof.Safety Sys2Proof.Laws

/-! ## Reset (R382) -/

/-- Settles O47: the memory after reset is the empty list of cells. -/
theorem resetMemoryCanonical : Obligations.ResetMemoryCanonical := rfl

/-- The machine after the end of its first cycle. -/
def afterFirstCycle : State := tick { State.reset with turn := true }

theorem afterFirstCycle_boots : afterFirstCycle.agenda = [.bootStage] ∧ afterFirstCycle.turn = true ∧ afterFirstCycle.clock = 1 ∧
    afterFirstCycle.boot.dead = false ∧ afterFirstCycle.boot.failed = none ∧ afterFirstCycle.issue.todo = [] := by decide +kernel

/-- Settles O46: the fields by definition; no thread runs after reset, so that the first step ends the cycle and the second is the boot's. -/
theorem resetState : Obligations.ResetState := by
  obtain ⟨agenda, turn, clock, alive, booted, idle⟩ := afterFirstCycle_boots
  have first : step State.reset = .next afterFirstCycle := step_tick (s := State.reset) rfl rfl rfl (.inl rfl) rfl
  have second := step_event alive booted idle turn agenda
  exact ⟨rfl, rfl, rfl, rfl, rfl, rfl, rfl, rfl, rfl, rfl, rfl, rfl, rfl, rfl, rfl, rfl, rfl, rfl, fun c => rfl, fun a => rfl,
    afterFirstCycle, first, agenda, turn, clock, second⟩

/-! ## The stages of the boot (R382–R384) -/

/-- An image is good where it carries the firmware key and verifies under it (R384). -/
theorem imageGood_iff (s : State) (img : List Byte) : s.imageGood img = true ↔
    shake256 (Config.imageKey img) = s.boot.fuse ∧
      Config.xmssVerify (Config.imageKey img) (Config.imageSignature img) (Config.imageBody img) = true := by
  rw [State.imageGood, Bool.and_eq_true, beq_iff_eq]

section

variable {s : State} (working : s.boot.failed = none)
include working

/-- Stage 1: the ROM measures itself and the module's configuration into cleared registers (R383). -/
theorem execBootStage_rom (finished : s.boot.stage = 0) : execBootStage s = .next ((measure 4 moduleConfig (measure 0 (Config.romIdentity 0)
    { s with boot := { s.boot with mr := List.replicate 16 0, locked := false } })).finishStage 1) := by
  rw [execBootStage, working, finished]
  rfl

/-- Stage 2 loads an image, and what follows depends on whether it is good. -/
theorem execBootStage_links (finished : s.boot.stage = 1) :
    let t := measure 1 (s.boot.images.getD 0 []) s
    execBootStage s = if s.imageGood (s.boot.images.getD 0 []) = true
      then .next (({ t with fab := { t.fab with links := [] } } : State).finishStage 2) else .next (t.failStage 2) := by
  rw [execBootStage, working, finished]
  rfl

/-- Stage 3 loads Serril's image and the bridge's, each measured before it is checked. -/
theorem execBootStage_firmware (finished : s.boot.stage = 2) :
    let t := measure 2 (s.boot.images.getD 1 []) s
    let u := measure 3 (t.boot.images.getD 2 []) t
    execBootStage s = if (!s.imageGood (s.boot.images.getD 1 [])) = true then .next (t.failStage 3)
      else if s.imageGood (t.boot.images.getD 2 []) = true then .next (({ u with boot := { u.boot with locked := true } } : State).finishStage 3)
      else .next (u.failStage 3) := by
  rw [execBootStage, working, finished]
  rfl

/-- Stage 4 tests the cores and clears the module's own memory. -/
theorem execBootStage_cores (finished : s.boot.stage = 3) :
    let t := (List.range Config.cores).foldl bootCore s
    execBootStage s = .next (State.finishStage 4 { t with
      mem := t.mem.filter (fun c => !(ownLoc t.device c.1)), poison := t.poison.filter (fun p => !(ownLoc t.device (p.1 * 128))),
      sch := { t.sch with porches := [], queueSize := [] } }) := by
  rw [execBootStage, working, finished]
  rfl

/-- Stage 5 makes the module ready. -/
theorem execBootStage_ready (finished : s.boot.stage = 4) : execBootStage s = .next (s.finishStage 5) := by
  rw [execBootStage, working, finished]
  rfl

end

/-! ## Measurements and lifetime records at run time (R383, R389) -/

theorem execMeasurementExtend_measures {s : State} {reg : Nat} {data : List Byte} (ready : s.boot.stage = 5) (low : 8 ≤ reg) (high : reg ≤ 15) :
    execMeasurementExtend reg data s = .next (measure reg data s) :=
  if_neg (by omega)

/-- A commit begins where none is under way: the newest copy stays, and the other makes place for one without a check. -/
theorem execLifetimeCommit_begins {s : State} (idle : s.boot.flash.any (fun x => x.2.2.isNone) = false) :
    let new := newestCopy s.boot.flash
    let keep := (s.boot.flash.filter (fun x => x.2.2 == some (lifeCheck x.1 x.2.1) && x.1 == new.1)).take 1
    execLifetimeCommit s =
      .next (({ s with boot := { s.boot with flash := keep ++ [(new.1 + 1, s.boot.life, none)] } } : State).post .lifetimeCommit) :=
  if_neg (ne_true_of_eq_false idle)

/-- One under way ends: its copy takes its check. -/
theorem execLifetimeCommit_ends {s : State} (begun : s.boot.flash.any (fun x => x.2.2.isNone) = true) : execLifetimeCommit s =
    .next { s with boot := { s.boot with flash := s.boot.flash.map (fun x => (x.1, x.2.1, some (x.2.2.getD (lifeCheck x.1 x.2.1)))) } } :=
  if_pos begun

/-- Settles O38: the stages of the boot by the lemma about each, and a commit by whether one is under way; the other events have no condition. -/
theorem bootAndHealthEvents : Obligations.BootAndHealthEvents := by
  intro s reg near data temps
  refine ⟨rfl, rfl, fun working => ⟨execBootStage_rom working, fun finished => ?links, fun finished => ?firmware, execBootStage_cores working,
    execBootStage_ready working⟩, imageGood_iff s, fun i x => rfl, execMeasurementExtend_measures, rfl, execLifetimeCommit_begins,
    execLifetimeCommit_ends, rfl, rfl⟩
  case links =>
    exact ⟨fun good => (execBootStage_links working finished).trans (if_pos good),
      fun bad => (execBootStage_links working finished).trans (if_neg (ne_true_of_eq_false bad))⟩
  case firmware =>
    have loads := execBootStage_firmware working finished
    have passes (good : s.imageGood (s.boot.images.getD 1 []) = true) : ¬(!s.imageGood (s.boot.images.getD 1 [])) = true := by
      rw [good]
      exact Bool.false_ne_true
    exact ⟨fun serril bridge => loads.trans ((if_neg (passes serril)).trans (if_pos bridge)),
      fun serril => loads.trans (if_pos (congrArg not serril)),
      fun serril bridge => loads.trans ((if_neg (passes serril)).trans (if_neg (ne_true_of_eq_false bridge)))⟩

/-! ## Attestation (R385, R386) -/

/-- An answer leaves once the host ports are ready. -/
theorem respond_ready {s : State} (ready : s.boot.stage = 5) (code : Nat) (payload : List Byte) :
    respond code payload s = { s with boot := { s.boot with spdmOut := s.boot.spdmOut ++ [(code, payload)] } } :=
  if_neg (by omega)

/-- An entry of the management log changes neither the signatures nor the answers. -/
theorem log_signing (kind die ctx cause addr info : Nat) (s : State) : (s.log kind die ctx cause addr info).boot.otp = s.boot.otp ∧
    (s.log kind die ctx cause addr info).boot.signing = s.boot.signing ∧ (s.log kind die ctx cause addr info).boot.spdmOut = s.boot.spdmOut := by
  unfold State.log State.logEvent
  split <;> exact ⟨rfl, rfl, rfl⟩

section

variable {s : State}

section

variable (ready : s.boot.stage = 5)
include ready

theorem execNegotiateAlgorithms_answers_selected (asym hash : Bool) : execNegotiateAlgorithms asym hash s =
    .next (respond 0x63 ([if asym then 1 else 0, if hash then 1 else 0] ++ (if asym then extendedField Config.xmssNumber else []) ++
      (if hash then extendedField Config.shakeNumber else [])) { s with boot := { s.boot with spdmAlgs := (asym, hash) } }) :=
  if_neg (by omega)

/-- A request for a signed answer takes its turn, where the requester has selected an algorithm. -/
theorem signed_accepted (selected : (s.boot.spdmAlgs.1 || s.boot.spdmAlgs.2) = true) (request code : Nat) (payload nonce : List Byte) :
    signed request code payload nonce s =
      { s with boot := { s.boot with signing := s.boot.signing ++ [⟨request, code, payload, nonce, none⟩] } } := by
  have either : ¬(!s.boot.spdmAlgs.1 && !s.boot.spdmAlgs.2) = true := by
    rw [← Bool.not_or, selected]
    exact Bool.false_ne_true
  exact (if_neg (by omega)).trans (if_neg either)

end

/-- Measurement blocks are answered as they are, or signed. -/
theorem execGetMeasurements_blocks {index : Nat} {bs : List Byte} (blocks : blocksOf s.boot.mr index = some bs) (sign : Bool) (nonce : List Byte) :
    execGetMeasurements index sign nonce s = if sign then .next (signed 0xE0 0x60 bs nonce s) else .next (respond 0x60 bs s) := by
  rw [execGetMeasurements, blocks]

section

variable {x : Signature} {xs : List Signature} (queue : s.boot.signing = x :: xs)
include queue

/-- The oldest answer takes an index and burns it, before it is signed. -/
theorem signNext_burns (unsigned : x.index = none) (left : s.boot.otp < 1048576) : signNext s =
    { s with boot := { s.boot with otp := s.boot.otp + 1, signing := { x with index := some s.boot.otp } :: xs } } := by
  rw [signNext, queue]
  dsimp only
  rw [unsigned]
  exact if_neg (Nat.not_le.mpr left)

section

variable (ready : s.boot.stage = 5)
include ready

/-- A spent counter signs nothing, and does not change. -/
theorem signNext_spent (unsigned : x.index = none) (spent : 1048576 ≤ s.boot.otp) : (signNext s).boot.otp = s.boot.otp ∧
    (signNext s).boot.signing = xs ∧ (signNext s).boot.spdmOut = s.boot.spdmOut ++ [(0x7F, [0xFF, 0x01])] := by
  have refuses : signNext s = ({ s with boot := { s.boot with signing := xs, spdmOut := s.boot.spdmOut ++ [(0x7F, [0xFF, 0x01])] } } :
      State).log 0x0B 12 0 0 0 0 := by
    rw [signNext, queue]
    dsimp only
    rw [unsigned]
    exact (if_pos spent).trans (congrArg (State.log 0x0B 12 0 0 0 0)
      (respond_ready (s := { s with boot := { s.boot with signing := xs } }) ready _ _))
  rw [refuses]
  exact log_signing ..

/-- An answer that has its index is signed with it. -/
theorem signNext_signs {j : Nat} (burned : x.index = some j) : signNext s = { s with boot := { s.boot with
    signing := xs,
    spdmOut := s.boot.spdmOut ++ [(x.code, x.payload ++ Config.xmssSign j (bytesOf 1 x.request ++ x.nonce ++ x.payload))] } } := by
  rw [signNext, queue]
  dsimp only
  rw [burned]
  exact respond_ready (s := { s with boot := { s.boot with signing := xs } }) ready _ _

end

end

end

/-- Settles O39: every answer of a ready module leaves, by `respond_ready`; the signatures by the cases of `signNext`. -/
theorem attestationEvents : Obligations.AttestationEvents := by
  intro s slot index code asym hash nonce ready say digest field
  have answer (code : Nat) (payload : List Byte) : Host.Outcome.next (respond code payload s) = (.next (say code payload s) : Out) :=
    congrArg _ (respond_ready ready code payload)
  refine ⟨answer _ _, answer _ _, ?algorithms, answer _ _, answer _ _, fun other => ?slots, answer _ _, fun bs blocks => ?blocks, rfl,
    fun request code payload selected => signed_accepted ready selected request code payload nonce,
    fun x xs queue => ⟨signNext_burns queue, signNext_spent queue ready, fun j => signNext_signs queue ready⟩⟩
  case algorithms =>
    exact (execNegotiateAlgorithms_answers_selected ready asym hash).trans
      (congrArg _ (respond_ready (s := { s with boot := { s.boot with spdmAlgs := (asym, hash) } }) ready _ _))
  case slots =>
    exact ⟨(if_neg other).trans (answer _ _), (if_neg other).trans (answer _ _), (if_neg other).trans (answer _ _)⟩
  case blocks =>
    exact ⟨(execGetMeasurements_blocks blocks false nonce).trans (answer _ _), execGetMeasurements_blocks blocks true nonce⟩

end Sys2Proof.Proofs
end

section
/-! PROOFS. The path of a page fault, its answers, and translations, invalidations and context numbers (R299, R302–R309). -/

namespace Sys2Proof.Proofs

open Sys2Proof.Machine Sys2Proof.Laws

/-! ## Filters and stages (R303, R304) -/

section

variable {s : State} {unit ctx page : Nat} {e : FaultEntry} (entry : s.tx.filters.find? (fun e => e.unit == unit && e.on ctx page) = some e)
include entry

/-- An entry whose page has none at the cluster's stage is forwarded while the stage has room. -/
theorem execFaultFilterForward_enters (absent : s.tx.stages.find? (fun x => x.unit == stageOf unit && x.on ctx page) = none)
    (room : (s.tx.stages.filter (fun x => x.unit == stageOf unit)).length < 512) : execFaultFilterForward unit ctx page s =
    .next (({ s with tx := { s.tx with stages := s.tx.stages ++
      [{ e with unit := stageOf unit, waiters := s.stageWaiters (stageOf unit) ctx page }] } } : State).post
        (.clusterStageForward (stageOf unit) ctx page)) := by
  rw [execFaultFilterForward, entry]
  dsimp only
  rw [absent]
  exact if_neg (Nat.not_le.mpr room)

/-- Another joins the stage's entry, which goes on where it asks for more now. -/
theorem execFaultFilterForward_joins {x : FaultEntry} (staged : s.tx.stages.find? (fun x => x.unit == stageOf unit && x.on ctx page) = some x) :
    let joined : FaultEntry := { x with ask := x.ask.join e.ask, waiters := s.stageWaiters (stageOf unit) ctx page }
    let t : State := { s with tx := { s.tx with
      stages := upsert (fun x => x.unit == stageOf unit && x.on ctx page) joined s.tx.stages } }
    execFaultFilterForward unit ctx page s =
      .next (if e.ask.within x.ask = true then t else t.post (.clusterStageForward (stageOf unit) ctx page)) := by
  rw [execFaultFilterForward, entry]
  dsimp only
  rw [staged]

end

/-! ## Groups (R304, R305) -/

section

variable {s : State} {cluster ctx page pasid : Nat} {x : FaultEntry}
  (entry : s.tx.stages.find? (fun x => x.unit == cluster && x.on ctx page) = some x) (bound : s.pasidOf ctx = some pasid)
include entry bound

/-- While PRI is stopped the page is denied (R306). -/
theorem execClusterStageForward_denies (stopped : s.tx.priOn = false) : execClusterStageForward cluster ctx page s = .next (denyPage ctx page s) := by
  rw [execClusterStageForward, entry]
  dsimp only
  rw [bound, stopped]
  rfl

section

variable (on : s.tx.priOn = true)
include on

/-- A page without a group starts one. -/
theorem execClusterStageForward_starts (absent : s.tx.groups.find? (sameGroup pasid page) = none) : execClusterStageForward cluster ctx page s =
    .next ((s.setGroup ⟨pasid, ctx, page, x.ask, .none, s.pageWaiters ctx page, 0, none⟩).post (.pageRequestGroup pasid page)) := by
  rw [execClusterStageForward, entry]
  dsimp only
  rw [bound, on]
  dsimp only
  rw [absent]
  rfl

variable {g : Group} (group : s.tx.groups.find? (sameGroup pasid page) = some g)
include group

/-- What a request changes of its page's group: what the group asks, before it is first sent, and else what it asks next. -/
theorem execClusterStageForward_group : execClusterStageForward cluster ctx page s = .next (if (!g.sent && g.count == 0) = true
    then s.setGroup { g with ask := g.ask.join x.ask, waiters := s.pageWaiters ctx page }
    else s.setGroup { g with more := if x.ask.within g.ask = true then g.more else g.more.join x.ask, waiters := s.pageWaiters ctx page }) := by
  rw [execClusterStageForward, entry]
  dsimp only
  rw [bound, on]
  dsimp only
  rw [group]
  exact (apply_ite Host.Outcome.next ..).symm

theorem execClusterStageForward_joins (unsent : g.sent = false) (first : g.count = 0) : execClusterStageForward cluster ctx page s =
    .next (s.setGroup { g with ask := g.ask.join x.ask, waiters := s.pageWaiters ctx page }) := by
  rw [execClusterStageForward_group entry bound on group, unsent, first]
  rfl

theorem execClusterStageForward_follows (asked : g.sent = true ∨ g.count ≠ 0) : execClusterStageForward cluster ctx page s =
    .next (s.setGroup { g with more := if x.ask.within g.ask = true then g.more else g.more.join x.ask, waiters := s.pageWaiters ctx page }) := by
  have later : ¬(!g.sent && g.count == 0) = true := by
    rcases asked with sent | again
    · rw [sent]
      exact Bool.false_ne_true
    · rw [beq_false_of_ne again, Bool.and_false]
      exact Bool.false_ne_true
  rw [execClusterStageForward_group entry bound on group, if_neg later]

end

end

/-- A group that is not outstanding is sent while PRI is on and another may be outstanding. -/
theorem execPageRequestGroup_sends {s : State} {pasid page : Nat} {g : Group} (group : s.tx.groups.find? (sameGroup pasid page) = some g)
    (unsent : g.sent = false) (on : s.tx.priOn = true) (room : (s.tx.groups.filter (fun g => g.sent)).length < s.groupLimit) :
    execPageRequestGroup pasid page s = .next (s.setGroup { g with index := some s.freePrg, count := g.count + 1 }) := by
  have due : (!s.tx.priOn || decide ((s.tx.groups.filter (fun g => g.sent)).length ≥ s.groupLimit)) = false := by
    rw [on, decide_eq_false (Nat.not_le.mpr room)]
    rfl
  rw [execPageRequestGroup, group]
  exact (if_neg (ne_true_of_eq_false unsent)).trans (if_neg (ne_true_of_eq_false due))

/-! ## Responses (R306) -/

section

variable {s : State} {pasid page : Nat} {g : Group} (outstanding : s.tx.groups.find? (fun g => sameGroup pasid page g && g.sent) = some g)
include outstanding

/-- After success the home asks afresh, where no invalidation of the page is outstanding. -/
theorem execPrgResponseSuccess_asks (bound : s.ctxOfPasid pasid = some g.ctx) : execPrgResponseSuccess pasid page s =
    .next (if (s.setGroup { g with index := none }).invalidating g.ctx page = true then s.setGroup { g with index := none }
      else askAfresh g.ctx page (s.setGroup { g with index := none })) := by
  rw [execPrgResponseSuccess, outstanding]
  exact if_neg (not_not.mpr bound)

theorem execPrgResponseInvalidRequest_denies : execPrgResponseInvalidRequest pasid page s = .next (denyPage g.ctx page s) := by
  rw [execPrgResponseInvalidRequest, outstanding]

/-- After failure every outstanding group is denied, and PRI is off. -/
theorem execPrgResponseFailure_stops : execPrgResponseFailure pasid page s =
    .next (let t := (s.tx.groups.filter (fun x => x.sent)).foldl (fun s x => denyPage x.ctx x.page s) s
      ({ t with tx := { t.tx with priOn := false } } : State).log 0x09 0 g.ctx 0 (page * 65536) 0) := by
  rw [execPrgResponseFailure, outstanding]

end

/-- Settles O24: each event by the lemma about its case; a release and the re-enabling of PRI have no condition. -/
theorem pageFaultEvents : Obligations.PageFaultEvents := by
  intro s unit ctx page pasid
  refine ⟨fun e entry => ⟨execFaultFilterForward_enters entry, fun x staged => execFaultFilterForward_joins entry staged⟩,
    fun x entry bound => ⟨execClusterStageForward_denies entry bound, fun g on group => ⟨execClusterStageForward_joins entry bound on group,
      execClusterStageForward_follows entry bound on group⟩, fun absent on => execClusterStageForward_starts entry bound on absent⟩,
    fun g group => execPageRequestGroup_sends group, rfl, fun g outstanding => ⟨execPrgResponseSuccess_asks outstanding,
      execPrgResponseInvalidRequest_denies outstanding, execPrgResponseFailure_stops outstanding⟩, rfl⟩

/-! ## Translations and invalidations (R299, R307) -/

/-- The state without the request that an answer settles. -/
def atsAnswered (home : Home) (ctx page : Nat) (s : State) : State := { s with tx := { s.tx with atsOut := s.tx.atsOut.erase (home, ctx, page) } }

/-- The state in which the accesses that the home held for a page resolve. -/
def heldResolve (ctx page : Nat) (s : State) : State :=
  s.postAll ((s.accs.filter (fun a => a.phase == .translating && a.ctx == ctx && a.page == page)).map (fun a => .homeResolve a.id))

/-- An answer comes too late for a number that is no longer bound, and where a later request for its page stands (R306, R309). -/
def AnswerLate (home : Home) (ctx page : Nat) (s : State) : Prop :=
  (s.pasidOf ctx).isNone = true ∨ (atsAnswered home ctx page s).tx.atsOut.any (fun o => o.2.1 == ctx && o.2.2 == page) = true

section

variable {s : State} {ctx page : Nat} {reply : AtsReply} {home : Home}
  (asked : s.tx.atsOut.find? (fun o => o.2.1 == ctx && o.2.2 == page) = some (home, ctx, page))
include asked

theorem execAtsTranslationCompletion_answers_request : execAtsTranslationCompletion ctx page reply s =
    let u := atsAnswered home ctx page s
    if ((s.pasidOf ctx).isNone || u.tx.atsOut.any (fun o => o.2.1 == ctx && o.2.2 == page)) = true then .next u
    else if s.invalidating ctx page = true then .next (heldResolve ctx page u)
    else .next (settleGroup ctx page (AtsReply.rights reply)
      (fillTranslation ⟨home, ctx, page, reply.tpage, AtsReply.rights reply⟩ (heldResolve ctx page u))) := by
  rw [execAtsTranslationCompletion, asked]
  rfl

theorem execAtsTranslationCompletion_discards (late : AnswerLate home ctx page s) :
    execAtsTranslationCompletion ctx page reply s = .next (atsAnswered home ctx page s) :=
  (execAtsTranslationCompletion_answers_request asked).trans (if_pos (Bool.or_eq_true_iff.mpr late))

section

variable (timely : ¬AnswerLate home ctx page s)
include timely

/-- Under an invalidation the accesses that were held resolve, and ask again. -/
theorem execAtsTranslationCompletion_overtaken (invalidating : s.invalidating ctx page = true) :
    execAtsTranslationCompletion ctx page reply s = .next (heldResolve ctx page (atsAnswered home ctx page s)) :=
  (execAtsTranslationCompletion_answers_request asked).trans
    ((if_neg (fun late => timely (Bool.or_eq_true_iff.mp late))).trans (if_pos invalidating))

/-- Else the home takes the translation, and the page's group is settled. -/
theorem execAtsTranslationCompletion_fills (valid : s.invalidating ctx page = false) : execAtsTranslationCompletion ctx page reply s =
    .next (settleGroup ctx page (AtsReply.rights reply) (fillTranslation ⟨home, ctx, page, reply.tpage, AtsReply.rights reply⟩
      (heldResolve ctx page (atsAnswered home ctx page s)))) :=
  (execAtsTranslationCompletion_answers_request asked).trans
    ((if_neg (fun late => timely (Bool.or_eq_true_iff.mp late))).trans (if_neg (ne_true_of_eq_false valid)))

end

end

/-- The state once an invalidation's lines and translations are gone from `t`: engines forget the lines that they accepted under it, and accesses
that wait at their homes resolve again. -/
def invalidated (pasid ctx lo hi : Nat) (t : State) : State :=
  resolveAgain ctx lo hi { t with
    engs := t.engs.map (fun e => { e with
      lines := e.lines.filter (fun k => !(e.ctx == ctx && inRange lo hi (globPage (t.lineGlob e (BitVec.ofNat 64 (k / 8 * 128)))))) }),
    tx := { t.tx with invs := t.tx.invs.erase (pasid, lo, hi), invDone := t.tx.invDone + 1 } }

/-- An invalidation completes once nothing accepted under it is in flight, no page of it moves, and its lines have been recalled. -/
theorem execInvalidateCompletion_completes {s t : State} {pasid ctx lo hi : Nat} (running : (pasid, lo, hi) ∈ s.tx.invs)
    (bound : s.ctxOfPasid pasid = some ctx) (performed : s.accIn ctx lo hi = false)
    (still : s.fab.moves.any (fun m => m.ctx == ctx && inRange lo hi m.page && m.phase != .request) = false)
    (dropped : dropPages ctx (inRange lo hi) s = (t, true)) : execInvalidateCompletion pasid lo hi s =
    .next (((invalidated pasid ctx lo hi t).askedIn ctx lo hi).foldl (fun s p => askAfresh ctx p s) (invalidated pasid ctx lo hi t)) := by
  rw [execInvalidateCompletion, if_neg (by simpa using running)]
  dsimp only
  rw [bound]
  dsimp only
  rw [performed, still, dropped]
  rfl

theorem execAtsInvalidateRequest_takes {s : State} {pasid lo hi : Nat} (room : s.tx.invs.length < 32) :
    execAtsInvalidateRequest pasid lo hi s = .next (({ s with
      tx := { s.tx with invs := s.tx.invs ++ [(pasid, lo, hi)] } } : State).post (.invalidateCompletion pasid lo hi)) :=
  if_neg (Nat.not_le.mpr room)

/-! ## Context numbers (R308, R309) -/

/-- A free number of a ready module is bound to a PASID that no number has. -/
theorem execContextBind_binds {s : State} {ctx pasid : Nat} (ready : s.boot.stage = 5) (user : 0 < ctx) (inRange : ctx < 4096)
    (pasidInRange : pasid < 2 ^ 20) (unused : s.ctxOfPasid pasid = none) (free : assoc ctx s.tabs.binds = none) : execContextBind ctx pasid s =
    .next { s with free := s.free + 1, tabs := { s.tabs with
      binds := setAssoc ctx (BitVec.ofNat 64 (2 ^ 63 + pasid * 2 ^ 32)) s.tabs.binds,
      ctxs := setAssoc ctx (keptSettings (Config.ctxSettings s.free ctx)) s.tabs.ctxs } } := by
  have legal : ¬(s.boot.stage < 5 ∨ ctx = 0 ∨ ctx ≥ 4096 ∨ pasid ≥ 2 ^ 20) := by omega
  rw [execContextBind, free, unused]
  exact (if_neg legal).trans rfl

/-- A number that nothing resident, saved or outstanding names is swept. -/
theorem execContextUnbind_sweeps {s : State} {ctx pasid : Nat} (user : 0 < ctx) (bound : s.pasidOf ctx = some pasid)
    (noGang : s.gangs.any (fun g => g.ctx == ctx) = false) (noGroup : s.tx.groups.any (fun g => g.pasid == pasid) = false)
    (valid : s.tx.invs.any (fun i => i.1 == pasid) = false) : execContextUnbind ctx s = .next (({ s with tabs := { s.tabs with
      binds := setAssoc ctx ((assoc ctx s.tabs.binds).getD 0 ||| BitVec.ofNat 64 (2 ^ 62)) s.tabs.binds } } : State).post (.retireSweepEnd ctx)) := by
  rw [execContextUnbind, bound]
  dsimp only
  rw [noGang, noGroup, valid, decide_eq_false (Nat.ne_of_gt user)]
  rfl

/-- A sweep ends once everything tagged with the number has been dropped or recalled. -/
theorem execRetireSweepEnd_frees {s t : State} {ctx : Nat} (sweeping : ((assoc ctx s.tabs.binds).getD 0).getLsbD 62 = true)
    (dropped : dropPages ctx (fun _ => true) (dropBridge ctx s) = (t, true)) : execRetireSweepEnd ctx s = .next { t with
      tabs := { t.tabs with binds := eraseAssoc ctx t.tabs.binds },
      tx := { t.tx with atsOut := t.tx.atsOut.filter (fun o => o.2.1 != ctx) },
      cores := t.cores.map (fun k => { k with icache := k.icache.filter (fun l => l.ctx != ctx) }) } := by
  rw [execRetireSweepEnd, sweeping, dropped]
  rfl

/-- Settles O25: each event by the lemma about its case. -/
theorem translationEvents : Obligations.TranslationEvents := by
  intro s t ctx page pasid lo hi reply
  exact ⟨fun home asked => ⟨execAtsTranslationCompletion_discards asked, execAtsTranslationCompletion_overtaken asked,
      execAtsTranslationCompletion_fills asked⟩,
    execAtsInvalidateRequest_takes, execInvalidateCompletion_completes, execContextBind_binds, execContextUnbind_sweeps,
    execRetireSweepEnd_frees⟩

end Sys2Proof.Proofs
end

section
/-! PROOFS. The system words in the trap warp, the trap warp's start, the watchdog, self-tests, and errors (R313–R328). -/

namespace Sys2Proof.Proofs

open Sys2Proof.Machine Sys2Proof.Safety Sys2Proof.Laws

/-! ## The system words (R315–R323) -/

theorem tracks_of {op : Nat} {f : Fields} {s : State} {th : Thread} {body : Ctx → Res} {wide : Bool} {v : DWord} (h : Issues op f s th)
    (hb : body (atIssue op f s th) = (atIssue op f s th).trackedValue wide v) : Tracks (issueOp op f s body) (atIssue op f s th) wide v :=
  done_of h hb

/-- CTLR of a pair reads the register as 64 bits (R318). -/
theorem execCtlr_wide {f : Fields} {s : State} {th : Thread} (h : Issues 0x380 f s th) (wide : (atIssue 0x380 f s th).w = true) :
    Tracks (execCtlr f s) (atIssue 0x380 f s th) true ((atIssue 0x380 f s th).s.ctl th.ref.core f.a.toNat) := by
  refine tracks_of h ?_
  dsimp only
  rw [wide]
  rfl

/-- CTLR of one register reads a register, or a half of one of 64 bits (R318). -/
theorem execCtlr_word {f : Fields} {s : State} {th : Thread} (h : Issues 0x380 f s th) (narrow : (atIssue 0x380 f s th).w = false) :
    Tracks (execCtlr f s) (atIssue 0x380 f s th) false (ofWord ((atIssue 0x380 f s th).s.ctlWord th.ref.core f.a.toNat)) := by
  refine tracks_of h ?_
  dsimp only
  rw [narrow]
  rfl

/-- CTLW writes what the register takes (R318). -/
theorem execCtlw_writes {f : Fields} {s t : State} {th : Thread} (h : Issues 0x381 f s th)
    (written : ctlWrite th.ref.core f.d.toNat (if Forms.m4 f then ofWord f.imm else (atIssue 0x381 f s th).regv 0 (atIssue 0x381 f s th).w f.a.toNat)
      (atIssue 0x381 f s th).s = some t) : Done (execCtlw f s) (atIssue 0x381 f s th) t := by
  refine done_of h ?_
  dsimp only [Ctx.r]
  rw [written]

section

variable {f : Fields} {s : State} {th : Thread} (h : Issues 0x383 f s th) (legal : ((atIssue 0x383 f s th).reg 0 f.a.toNat).toNat < 2 ^ 12)
include h legal

/-- KILLW of a warp ends every thread of it (R321). -/
theorem execKillw_warp (whole : ((atIssue 0x383 f s th).reg 0 f.a.toNat).toNat / 2 ^ 11 % 2 = 1)
    (held : (atIssue 0x383 f s th).s.threadsOfWarp th.ref.core (((atIssue 0x383 f s th).reg 0 f.a.toNat).toNat % 64) ≠ []) :
    Done (execKillw f s) (atIssue 0x383 f s th) (killWarp ((atIssue 0x383 f s th).s.threadsOfWarp th.ref.core
      (((atIssue 0x383 f s th).reg 0 f.a.toNat).toNat % 64)) (atIssue 0x383 f s th).s) := by
  refine done_of h ?_
  dsimp only [Ctx.r]
  rw [if_neg (not_not.mpr (Nat.div_eq_of_lt legal)), if_pos whole, if_neg (fun empty => held (List.isEmpty_iff.mp empty))]

/-- KILLW of a thread ends it (R321). -/
theorem execKillw_thread {t : Thread} (single : ((atIssue 0x383 f s th).reg 0 f.a.toNat).toNat / 2 ^ 11 % 2 = 0)
    (selected : ((atIssue 0x383 f s th).s.threadsOfWarp th.ref.core (((atIssue 0x383 f s th).reg 0 f.a.toNat).toNat % 64)).find?
      (fun t => t.ref.lane == ((atIssue 0x383 f s th).reg 0 f.a.toNat).toNat / 64 % 32) = some t) :
    Done (execKillw f s) (atIssue 0x383 f s th) (exitThread t.ref (atIssue 0x383 f s th).s) := by
  refine done_of h ?_
  dsimp only [Ctx.r]
  rw [if_neg (not_not.mpr (Nat.div_eq_of_lt legal)), if_neg (by omega), selected]

end

/-- SNAPR reads an item with no result pending (R319). -/
theorem execSnapr_reads {f : Fields} {s : State} {th x : Thread} {v : DWord} (h : Issues 0x384 f s th)
    (selected : (atIssue 0x384 f s th).selected = some x)
    (item : (atIssue 0x384 f s th).s.readItem x (f.imm.toNat % 2 ^ 16) (atIssue 0x384 f s th).w = some v)
    (settled : x.itemPending (f.imm.toNat % 2 ^ 16) (atIssue 0x384 f s th).w = false) :
    Tracks (execSnapr f s) (atIssue 0x384 f s th) (atIssue 0x384 f s th).w v := by
  refine tracks_of h ?_
  dsimp only
  rw [selected]
  dsimp only
  rw [item]
  exact if_neg (ne_true_of_eq_false settled)

/-- SNAPW writes an item (R319). -/
theorem execSnapw_writes {f : Fields} {s t : State} {th x : Thread} (h : Issues 0x385 f s th)
    (selected : (atIssue 0x385 f s th).selected = some x)
    (written : (atIssue 0x385 f s th).s.writeItem x (f.imm.toNat % 2 ^ 16) (atIssue 0x385 f s th).w
      ((atIssue 0x385 f s th).regv 1 (atIssue 0x385 f s th).w f.b.toNat) = some t) : Done (execSnapw f s) (atIssue 0x385 f s th) t := by
  refine done_of h ?_
  dsimp only
  rw [selected]
  dsimp only
  rw [written]

/-! ## RETT (R322) -/

/-- The user trap entry of a thread's task; 0 where it has none. -/
def userEntry (s : State) (x : Thread) : DWord := match s.taskOf x with | some t => jcTrap t.card | none => 0

/-- The state after RETT has sent `x` from `s` to its task's entry, the return address pushed. -/
def sentToUser (core : Nat) (entry : DWord) (cause : Word) (x : Thread) (s : State) : State :=
  resumeCore core (writeUni x.ref.core x.ref.slot [512 + 62]
    (fun u => u.set 62 ((cause &&& 0xFF) + BitVec.ofNat 32 (256 * x.ref.lane))) (s.modThread x.ref (Thread.sendTo entry)))

/-- The selected thread lies on the core of the thread that selects it. -/
theorem selected_core {c : Ctx} {x : Thread} (selected : c.selected = some x) : x.ref.core = c.th.ref.core := by
  unfold Ctx.selected at selected
  dsimp only at selected
  split at selected
  · cases selected
  · rw [thread?_ref selected, Ctx.r]

section

variable {f : Fields} {s : State} {th x : Thread} (h : Issues 0x386 f s th) (selected : (atIssue 0x386 f s th).selected = some x)
include h selected

/-- Without an entry, or with a full call stack, d receives 1. -/
theorem execRett_refuses (refused : userEntry (atIssue 0x386 f s th).s x = 0 ∨ (x.calls.length = 4 ∧ x.callsp = spillLimit)) :
    Tracks (execRett f s) (atIssue 0x386 f s th) false 1 := by
  have full : (userEntry (atIssue 0x386 f s th).s x == 0 || (x.calls.length == 4 && x.callsp == spillLimit)) = true := by
    simpa using refused
  refine tracks_of h ?_
  dsimp only
  rw [selected]
  exact if_pos full

/-- Else the trapped instruction's address is pushed, and the thread goes on at the entry. -/
theorem execRett_pushes (entry : userEntry (atIssue 0x386 f s th).s x ≠ 0) (room : x.calls.length ≠ 4 ∨ x.callsp ≠ spillLimit) {t : State}
    (pushed : pushCall (atIssue 0x386 f s th).s x th.ref (s.core th.ref.core).trappc
      (fun u => .ok (sentToUser th.ref.core (userEntry (atIssue 0x386 f s th).s x) (s.core th.ref.core).recCause x u)) = .ok t) :
    Done (execRett f s) (atIssue 0x386 f s th) t := by
  have goes : ¬(userEntry (atIssue 0x386 f s th).s x == 0 || (x.calls.length == 4 && x.callsp == spillLimit)) = true := by
    rw [beq_false_of_ne entry]
    simpa [← not_and_or] using room
  refine done_of h ?_
  dsimp only
  rw [selected]
  exact (if_neg goes).trans pushed

theorem execRett_few (entry : userEntry (atIssue 0x386 f s th).s x ≠ 0) (few : x.calls.length ≠ 4) :
    Done (execRett f s) (atIssue 0x386 f s th) (sentToUser th.ref.core (userEntry (atIssue 0x386 f s th).s x) (s.core th.ref.core).recCause x
      ((atIssue 0x386 f s th).s.modThread x.ref (fun y => { y with calls := x.calls ++ [(s.core th.ref.core).trappc] }))) :=
  execRett_pushes h selected entry (.inl few) (push_few few)

theorem execRett_spills {w p y z : DWord} {u : State} {loc : Nat} {mode : AccMode} (entry : userEntry (atIssue 0x386 f s th).s x ≠ 0)
    (full : x.calls = [w, p, y, z]) (room : x.callsp ≠ spillLimit)
    (way : privWay (atIssue 0x386 f s th).s x th.ref x.callsp rightsW = .ok u loc mode) :
    Done (execRett f s) (atIssue 0x386 f s th) (sentToUser th.ref.core (userEntry (atIssue 0x386 f s th).s x) (s.core th.ref.core).recCause x
      (spillCall { atIssue 0x386 f s th with th := x } u loc mode [w, p] [y, z, (s.core th.ref.core).trappc])) := by
  have bytes : [w, p].flatMap (fun x => bytesOf 8 x.toNat) = bytesOf 8 w.toNat ++ bytesOf 8 p.toNat := by simp
  refine execRett_pushes h selected entry (.inr room) ?_
  rw [push_spill full room way]
  simp only [spillCall, bytes, selected_core selected]

end

/-- Settles O19: the words that read and write state by the lemma about each, RETT by its three cases; RESUME, HALT and SYSC by definition. -/
theorem systemWords : Obligations.SystemWords := by
  intro f s th core
  refine ⟨fun h => ⟨execCtlr_wide h, execCtlr_word h⟩, fun h t => execCtlw_writes h, fun h => done_of h rfl,
    fun h legal => ⟨execKillw_warp h legal, fun t => execKillw_thread h legal⟩, fun h x v => execSnapr_reads h,
    fun h x t => execSnapw_writes h, fun h x selected => ?rett, fun h => done_of h rfl, fun h => done_of h rfl⟩
  case rett =>
    exact ⟨execRett_refuses h selected, execRett_few h selected, fun w p y z u loc mode => execRett_spills h selected⟩

/-! ## The trap warp starts (R313, R314) -/

/-- A thread of a stopped core once the trap warp runs: its fixed-latency results are written, and the recorded thread's denial is reported. -/
def Thread.atTrapStart (core : Nat) (recorded : TRef) (x : Thread) : Thread :=
  if x.ref.core = core then { x with pend := [], denied := if x.ref = recorded then none else x.denied } else x

theorem Thread.atTrapStart_ref (core : Nat) (recorded : TRef) (x : Thread) : (Thread.atTrapStart core recorded x).ref = x.ref := by
  unfold Thread.atTrapStart
  split <;> rfl

/-- A warp of a stopped core once the trap warp runs. -/
def Warp.atTrapStart (core : Nat) (w : Warp) : Warp := if w.core = core then { w with upend := [] } else w

theorem Warp.at_atTrapStart (core c slot : Nat) (w : Warp) : Warp.at c slot (Warp.atTrapStart core w) = Warp.at c slot w := by
  unfold Warp.atTrapStart
  split <;> rfl

/-- The thread that the trap warp starts: at the trap table's entry of the cause. -/
def trapThread (core : Nat) (s : State) : Thread :=
  Thread.fresh ⟨core, 64, 0⟩ 0 0 64 s.nextId ((s.core core).ttab + 64 * ((s.core core).recCause.zeroExtend 64 &&& 0xFF)) (s.clock + 1)

/-- The state in which the trap warp of a stopped core runs. -/
def trapWarpStarted (core : Nat) (s : State) : State :=
  { s with
    nextId := s.nextId + 1,
    threads := s.threads.map (Thread.atTrapStart core ⟨core, (s.core core).recWarp.toNat % 64, (s.core core).recWarp.toNat / 64 % 32⟩) ++
      [trapThread core s],
    warps := s.warps.map (Warp.atTrapStart core) ++ [Warp.fresh core 64 0 0] }

section

variable {s : State} {core : Nat}

theorem execTrapWarpStart_starts {c : Nat} (stopped : (s.core core).stopped = some c) (unhalted : (s.core core).halted = false)
    (unchecked : (s.core core).mcheck = false) (idle : s.warp? core 64 = none) (later : c < s.clock) :
    execTrapWarpStart core s = .next (trapWarpStarted core s) := by
  rw [execTrapWarpStart]
  dsimp only
  rw [stopped]
  dsimp only
  rw [unhalted, unchecked, idle, if_neg (by decide), if_neg (Nat.not_le.mpr later)]
  rfl

/-- The trap warp's thread starts where no other has its place. -/
theorem trapWarpStarted_thread? (absent : s.thread? ⟨core, 64, 0⟩ = none) :
    (trapWarpStarted core s).thread? ⟨core, 64, 0⟩ = some (trapThread core s) := by
  let recorded : TRef := ⟨core, (s.core core).recWarp.toNat % 64, (s.core core).recWarp.toNat / 64 % 32⟩
  have others : (s.threads.map (Thread.atTrapStart core recorded)).find? (fun t => t.ref = ⟨core, 64, 0⟩) = none :=
    (thread?_map s _ (Thread.atTrapStart_ref core recorded) ⟨core, 64, 0⟩).trans (by rw [absent, Option.map_none])
  rw [State.thread?, trapWarpStarted, List.find?_append, others, Option.none_or]
  exact List.find?_cons_of_pos (decide_eq_true rfl)

theorem trapWarpStarted_warp? (idle : s.warp? core 64 = none) : (trapWarpStarted core s).warp? core 64 = some (Warp.fresh core 64 0 0) := by
  have others : (s.warps.map (Warp.atTrapStart core)).find? (Warp.at core 64) = none := by
    rw [List.find?_map, show Warp.at core 64 ∘ Warp.atTrapStart core = Warp.at core 64 from funext (Warp.at_atTrapStart core core 64)]
    exact congrArg _ idle
  rw [State.warp?, trapWarpStarted, List.find?_append, others, Option.none_or]
  exact List.find?_cons_of_pos (by simp [Warp.at, Warp.fresh])

/-! ## The watchdog, self-tests and the management core (R323, R326, R328) -/

/-- The watchdog of a running gang that has run out, none of its cores stopped, traps on the core of its thread. -/
theorem execWatchdog_traps {gang : Nat} {g : Gang} {th : Thread} (found : s.gang? gang = some g) (live : s.watchdogThread gang = some th)
    (armed : g.wdInterval ≠ 0) (out : g.wdInterval * 65536 ≤ g.wdCount) (running : g.phase = .running)
    (going : (s.coresOfGang gang).any (fun c => (s.core c).stopped.isSome) = false) : execWatchdog gang s =
    .next (((s.modGang gang (fun x => { x with wdCount := 0 })).modCore th.ref.core (fun k =>
      { recordTrap th ⟨.watchdog, 0, 0, 0⟩ k with stopped := some s.clock })).post (.trapWarpStart th.ref.core)) := by
  have due : (decide (g.wdInterval = 0) || decide (g.wdCount < g.wdLimit) || g.phase == .saved || g.phase == .ended) = false := by
    rw [decide_eq_false armed, decide_eq_false (p := g.wdCount < g.wdLimit) (Nat.not_lt.mpr out), running]
    rfl
  have now : ¬(g.phase ≠ .running ∨ (s.coresOfGang gang).any (fun c => (s.core c).stopped.isSome) = true) :=
    not_or.mpr ⟨not_not.mpr running, ne_true_of_eq_false going⟩
  rw [execWatchdog, found, live]
  exact (if_neg (ne_true_of_eq_false due)).trans (if_neg now)

/-- A core that met a machine check is reset and tested once its gangs have ended. -/
theorem execCoreSelfTest_tests (pass : Bool) (checked : (s.core core).mcheck = true) (ended : s.coreBlocks core = []) :
    let t : State := { s with warps := s.warps.filter (fun w => !(Warp.at core 64 w)) }
    let k := { Core.fresh core with ttab := (s.core core).ttab, fmterr := (s.core core).fmterr, inService := pass }
    let u := (t.setCore k).log 0x01 (core / 256) 0 0 (s.core core).trappc.toNat (core * 2 + pass.toNat)
    execCoreSelfTest core pass s = .next (wakeAdmission (core / 256) (if pass then u else u.count 9 0 0)) := by
  rw [execCoreSelfTest]
  dsimp only
  rw [checked, ended]
  rfl

/-- The management core lets a halted core go on, or ends its gangs first. -/
theorem execManagementCoreResume_resumes (halted : (s.core core).halted = true) :
    execManagementCoreResume core true s = .next (resumeCore core s) := by
  rw [execManagementCoreResume, halted]
  rfl

theorem execManagementCoreResume_ends (halted : (s.core core).halted = true) : execManagementCoreResume core false s = .next (resumeCore core
    ((((s.coreBlocks core).map (fun b => b.gang)).eraseDups).foldl (fun s g => endGang g s) s)) := by
  rw [execManagementCoreResume, halted]
  rfl

/-! ## Errors (R327) -/

/-- The state in which an uncorrectable error is counted. -/
abbrev errorCounted (e : ErrorSite) (s : State) : State := s.count 1 (siteUnit e) 0

/-- An error of a warp's own state, beside the trap warp's, poisons the warp. -/
theorem execUncorrectableError_keyFile {slot : Nat} (user : slot < 64) : execUncorrectableError (.keyFile core slot) s =
    .next ((errorCounted (.keyFile core slot) s).modWarp core slot (fun w => { w with poisoned := true })) :=
  congrArg Host.Outcome.next (if_neg (Nat.ne_of_lt user))

theorem execUncorrectableError_rejoinTable {slot : Nat} (user : slot < 64) : execUncorrectableError (.rejoinTable core slot) s =
    .next ((errorCounted (.rejoinTable core slot) s).modWarp core slot (fun w => { w with poisoned := true })) :=
  congrArg Host.Outcome.next (if_neg (Nat.ne_of_lt user))

/-- An error of a register marks it. -/
theorem execUncorrectableError_register {r : TRef} {reg : Nat} (user : r.slot ≠ 64) : execUncorrectableError (.register r reg) s =
    .next ((errorCounted (.register r reg) s).modThread r (fun x => { x with marks := (reg, .poison) :: dropMark reg x.marks })) :=
  congrArg Host.Outcome.next (if_neg user)

/-- An error of a trap warp that runs is a machine check. -/
theorem execUncorrectableError_trapWarp (running : (s.thread? ⟨core, 64, 0⟩).isSome = true) : execUncorrectableError (.trapWarp core) s =
    .next (machineCheck core (errorCounted (.trapWarp core) s)) :=
  congrArg Host.Outcome.next ((if_pos rfl).trans (if_pos running))

end

/-- Settles O28: each event by the lemma about its case; the errors of lines and of the scratchpad have no condition. -/
theorem trapAndErrorEvents : Obligations.TrapAndErrorEvents := by
  intro s core gang
  refine ⟨fun c stopped unhalted unchecked idle later => ?start, fun g th => execWatchdog_traps, execCoreSelfTest_tests,
    fun halted => ⟨execManagementCoreResume_resumes halted, execManagementCoreResume_ends halted⟩, fun unit => rfl,
    fun line slot reg k r => ⟨rfl, rfl, rfl, fun user => ⟨execUncorrectableError_keyFile user, execUncorrectableError_rejoinTable user⟩,
      execUncorrectableError_register, rfl, execUncorrectableError_trapWarp⟩⟩
  case start =>
    exact ⟨trapWarpStarted core s, execTrapWarpStart_starts stopped unhalted unchecked idle later, trapWarpStarted_thread?,
      trapWarpStarted_warp? idle, rfl, rfl, rfl⟩

end Sys2Proof.Proofs
end

section
/-! PROOFS. HHATT, HHDET and HHSTAT, and the notices of attachment and detachment (R369–R375). -/

namespace Sys2Proof.Proofs

open Sys2Proof.Machine Sys2Proof.Safety Sys2Proof.Laws

/-! ## HHATT (R373) -/

/-- A gang that its core's copy shows unattached attaches. -/
def attachOwn (core : Nat) (g : Gang) (h : Household) (s : State) : State :=
  if h.copyOf core g.rank = .unattached then attachGang g s else s

section

variable {f : Fields} {s : State} {th : Thread} {g : Gang} {h h' : Household} (issues : Issues 0x340 f s th)
  (gang : (atIssue 0x340 f s th).s.gangOf th = some g) (household : (atIssue 0x340 f s th).s.hhOf th = some h)
  (stays : (h.copyOf th.ref.core g.rank).gone = false) (found : (attachOwn th.ref.core g h (atIssue 0x340 f s th).s).hh? g.hh = some h')
include issues gang household stays found

/-- A gang that has not departed attaches; its thread goes on where every gang is attached, and else waits. -/
theorem execHhatt_settles : execHhatt f s = .next (settleRes th.ref f (atIssue 0x340 f s th).s (if h'.allAttached th.ref.core = true
    then .ok (attachOwn th.ref.core g h (atIssue 0x340 f s th).s)
    else .wait ((attachOwn th.ref.core g h (atIssue 0x340 f s th).s).modThread th.ref (fun x => { x with status := .hhatt })))) := by
  rw [execHhatt, issueOp_go _ issues]
  dsimp only [Ctx.r]
  rw [gang, household]
  dsimp only
  rw [if_neg (ne_true_of_eq_false stays)]
  simp only [beq_iff_eq]
  unfold attachOwn at found ⊢
  rw [found]

theorem execHhatt_done (all : h'.allAttached th.ref.core = true) :
    Done (execHhatt f s) (atIssue 0x340 f s th) (attachOwn th.ref.core g h (atIssue 0x340 f s th).s) := by
  rw [Done, execHhatt_settles issues gang household stays found, if_pos all]
  rfl

theorem execHhatt_waits (missing : h'.allAttached th.ref.core = false) : Waits (execHhatt f s) (atIssue 0x340 f s th)
    ((attachOwn th.ref.core g h (atIssue 0x340 f s th).s).modThread th.ref (fun x => { x with status := .hhatt })) := by
  rw [Waits, execHhatt_settles issues gang household stays found, if_neg (ne_true_of_eq_false missing)]
  rfl

end

/-! ## HHDET and HHSTAT (R374, R375) -/

/-- What HHDET comes to, by the state of the own gang in the core's copy. -/
def detachRes (th : Thread) (g : Gang) (s : State) : Attach → Res
  | .unattached => .ok s
  | .attached => .wait ((startDetach g.uid s).modThread th.ref (fun x => { x with status := .hhdet }))
  | .detaching => .wait (s.modThread th.ref (fun x => { x with status := .hhdet }))
  | .detached => .ok s

theorem execHhdet_settles {f : Fields} {s : State} {th : Thread} {g : Gang} {h : Household} (issues : Issues 0x341 f s th)
    (gang : (atIssue 0x341 f s th).s.gangOf th = some g) (household : (atIssue 0x341 f s th).s.hhOf th = some h) :
    execHhdet f s = .next (settleRes th.ref f (atIssue 0x341 f s th).s
      (detachRes th g (atIssue 0x341 f s th).s (h.copyOf th.ref.core g.rank))) := by
  rw [execHhdet, issueOp_go _ issues]
  dsimp only [Ctx.r]
  rw [gang, household]
  dsimp only
  cases h.copyOf th.ref.core g.rank <;> rfl

/-- HHSTAT reads the core's copy of the household table. -/
theorem execHhstat_reads {f : Fields} {s : State} {th : Thread} {h : Household} (issues : Issues 0x342 f s th)
    (household : (atIssue 0x342 f s th).s.hhOf th = some h) : Tracks (execHhstat f s) (atIssue 0x342 f s th) false (BitVec.ofNat 64
      (2 ^ 16 * gangBits (h.copy th.ref.core) Attach.gone + gangBits (h.copy th.ref.core) (fun x => x == .attached))) := by
  refine tracks_of issues ?_
  dsimp only [Ctx.r]
  rw [household]

/-- Settles O18: HHATT by whether every gang is attached, HHDET by the state of the own gang. -/
theorem householdWords : Obligations.HouseholdWords := by
  intro f s th
  refine ⟨fun issues g h h' gang household stays found => ⟨execHhatt_done issues gang household stays found,
    execHhatt_waits issues gang household stays found⟩, fun issues g h gang household => ?detach, fun issues h => execHhstat_reads issues⟩
  case detach =>
    intro held
    have settles := execHhdet_settles issues gang household
    cases own : h.copyOf th.ref.core g.rank <;> rw [own] at settles <;> exact settles

/-! ## Notices (R370–R373) -/

/-- The state in which every core of the household shows a gang detached. -/
def detachedEverywhere (g : Gang) (s : State) : State :=
  s.modHh g.hh (fun h => (s.coresOfHh g.hh).foldl (fun h c => h.setCopy c g.rank .detached) { h with att := h.att.set g.rank .detached })

/-- The state in which the threads of a gang that wait at HHDET are released. -/
def detachReleased (gang : Nat) (t : State) : State :=
  (t.threads.filter (fun x => x.status == .hhdet && t.inGang gang x)).foldl (fun s x =>
    ((s.modThread x.ref (fun y => { y with status := .released })).progressOf x).post (.barrierRelease x.ref)) t

section

variable {s : State} {gang core : Nat} {g : Gang} (found : s.gang? gang = some g)
include found

/-- An attachment reaches a core's copy, and releases the threads that wait there for the last. -/
theorem execAttachNotice_attaches : execAttachNotice gang core s = .next (releaseAttached g.hh core
    (s.modHh g.hh (fun h => if h.copyOf core g.rank = .unattached then h.setCopy core g.rank .attached else h))) := by
  rw [execAttachNotice, found]

/-- A detachment that begins reaches a core's copy, and traps the threads that wait there for the household. -/
theorem execDetachNotice_departs : execDetachNotice gang core s = .next (departedTraps g.hh core
    (s.modHh g.hh (fun h => if (h.copyOf core g.rank).gone then h else h.setCopy core g.rank .detaching))) := by
  rw [execDetachNotice, found]

/-- A detachment completes once nothing crosses between the gang and its peers. -/
theorem execDetachComplete_completes {h : Household} (household : s.hh? g.hh = some h) (begun : h.stateOf g.rank = .detaching)
    (due : s.detachDue g = true) :
    let v := postHeldEnds g.hh (detachReleased gang (detachedEverywhere g s))
    execDetachComplete gang s = .next (v.postAll ((v.sch.colls.filter (fun i => i.hh == g.hh)).map (fun i => .collCompute i.id))) := by
  rw [execDetachComplete, found]
  dsimp only
  rw [household]
  dsimp only
  rw [if_neg (not_not.mpr begun), due]
  rfl

end

/-- Settles O27: each notice by the lemma about it. -/
theorem householdEvents : Obligations.HouseholdEvents := by
  intro s gang core g found
  exact ⟨execAttachNotice_attaches found, execDetachNotice_departs found, fun h => execDetachComplete_completes found⟩

end Sys2Proof.Proofs
end

section
/-! PROOFS. Masked writes and atomics at the home and at the host bridge (R346, R347, R357, R358). -/

namespace Sys2Proof.Proofs

open Sys2Proof.Machine Sys2Proof.Laws

section

variable {s t : State} {id : Nat} {a : Access} (ha : s.acc? id = some a)
include ha

/-! ## Writes (R347, R357) -/

section

variable (queued : a.phase = .coreDone)
include queued

/-- A slice sends the access on to the bridge. -/
theorem execBridgeWriteRedirect_hands : execBridgeWriteRedirect id s = .next (s.post (.bridgeMaskedWrite id)) := by
  rw [execBridgeWriteRedirect, ha]
  exact if_pos queued

variable (due : s.drainDue a = true) (snooped : snoopWrites a s = (t, true))
include due snooped

/-- At the home's slice a write that is due, and that no link holds, is applied once the host has given up what it touches. -/
theorem execMaskedWrite_drains (arrived : homeHeld a.die a.loc id s = none) :
    execMaskedWrite id s = .next (drainStores (.maskedWrite id) (t.groupSet a) t) := by
  rw [execMaskedWrite, ha]
  dsimp only
  rw [if_neg (not_not.mpr queued), due, arrived]
  dsimp only
  rw [snooped]
  rfl

/-- At the bridge likewise. -/
theorem execBridgeMaskedWrite_drains : execBridgeMaskedWrite id s = .next (drainStores (.bridgeMaskedWrite id) (t.groupSet a) t) := by
  rw [execBridgeMaskedWrite, ha]
  dsimp only
  rw [if_neg (not_not.mpr queued), due, snooped]
  rfl

end

/-! ## Loads and atomics (R346, R357, R358) -/

section

variable (accepted : a.phase = .accepted)
include accepted

/-- A load at the bridge binds once the host holds none of its line for itself, where no byte of it is poisoned. -/
theorem execBridgeReadRequest_binds (load : a.op.cls = .load) (due : s.accDue a = true) (snooped : snoopData (lineNum a.loc) s = (t, true))
    (clean : t.poisonOf a.loc a.n = none) :
    execBridgeReadRequest id s = .next (bindBytes a (t.seen a.t.core a.loc a.n) (fillL1 a a.loc t)) := by
  have goes : ¬(a.phase ≠ .accepted ∨ a.op.cls ≠ .load) := not_or.mpr ⟨not_not.mpr accepted, not_not.mpr load⟩
  rw [execBridgeReadRequest, ha]
  dsimp only
  rw [if_neg goes, due, snooped]
  dsimp only
  rw [clean]
  rfl

variable (due : s.atomsDue a = true)
include due

/-- At the home an atomic runs once its line has been recalled, in direct mode once the host has given up what it touches. -/
theorem execHearthAtomic_runs (ready : (if a.mode = .cached then recallLine (lineNum a.loc) a.id s else snoopWrites a s) = (t, true)) :
    execHearthAtomic id s = .next (runAtoms (t.groupSet a) t) := by
  rw [execHearthAtomic, ha]
  dsimp only
  rw [if_neg (not_not.mpr accepted), due, ready]
  rfl

/-- At the bridge an atomic on a line of the module runs once the host has given up what it touches. -/
theorem execBridgeAtomic_own (own : a.mode = .cached) (snooped : snoopWrites a s = (t, true)) :
    execBridgeAtomic id s = .next (runAtoms (t.groupSet a) t) := by
  rw [execBridgeAtomic, ha]
  dsimp only
  rw [if_neg (not_not.mpr accepted), due, own, snooped]
  rfl

/-- Another runs on a line that the bridge owns. -/
theorem execBridgeAtomic_outside (outside : a.mode ≠ .cached) (ready : lineReady a true s = (t, true)) :
    execBridgeAtomic id s = .next (runAtoms (t.groupSet a) t) := by
  rw [execBridgeAtomic, ha]
  dsimp only
  rw [if_neg (not_not.mpr accepted), due, ready]
  cases mode : a.mode with
  | cached => exact absurd mode outside
  | _ => rfl

end

end

/-- Settles O22: each event by the lemma about its case. -/
theorem homeAndBridgeEvents : Obligations.HomeAndBridgeEvents := by
  intro s id a ha
  exact ⟨fun t queued due arrived snooped => execMaskedWrite_drains ha queued due snooped arrived, fun t => execHearthAtomic_runs ha,
    fun t => execBridgeReadRequest_binds ha, execBridgeWriteRedirect_hands ha, fun t => execBridgeMaskedWrite_drains ha,
    fun t => execBridgeAtomic_own ha, fun t => execBridgeAtomic_outside ha⟩

end Sys2Proof.Proofs
end

section
/-! PROOFS. The token protocol: requests, answers, persistent requests, messages, evictions and lost tokens (R338–R345, R353). -/

namespace Sys2Proof.Proofs

open Sys2Proof.Machine Sys2Proof.Safety Sys2Proof.Laws

/-! ## Transient requests (R341) -/

/-- The modules in the remote mask of a line's page. -/
def remotePeers (s : State) (line : Nat) : List Holder :=
  (s.fab.remote.filter (fun x => x.1 == line / 512)).flatMap (fun x =>
    (List.range 60).filterMap (fun d => if x.2.testBit d then some (Holder.peer d) else none))

/-- Where the present attempt of a request goes: to the home, to the bridge while it holds tokens, from the second attempt on to the module's other
holders, from the third to other modules. -/
def attemptHolders (s : State) (r : TokenReq) : List Holder :=
  [Holder.home] ++ (if (s.tokens r.line).count .hostBridge = 0 then [] else [.hostBridge]) ++
    (if r.attempt = 1 then [] else moduleHolders.filter (· != r.holder)) ++ (if r.attempt ≥ 3 then remotePeers s r.line else [])

/-- The state in which a holder's table has taken the active entry of a line. -/
def entryAt (line : Nat) (h : Holder) (req : Nat) (s : State) : State :=
  { s with fab := { s.fab with ptable := s.fab.ptable.filter (fun e => !(e.1 == h && e.2.1 == line)) ++ [(h, line, req)] } }

/-- The state in which a request's duration is counted, and every table has dropped its line's entry. -/
def entryGone (line : Nat) (r : TokenReq) (s : State) : State :=
  let t := s.count 4 (dieOfHolder line r.holder) (durationBin (s.clock - r.started))
  { t with fab := { t.fab with ptable := t.fab.ptable.filter (fun e => e.2.1 != line) } }

section

variable {s : State} {id : Nat} {r : TokenReq} (req : s.tokenReq? id = some r)
include req

theorem execTransientRequest_done (satisfied : s.satisfied r = true) : execTransientRequest id s = .next (s.dropReq id) := by
  rw [execTransientRequest, req]
  exact if_pos satisfied

section

variable (unsatisfied : s.satisfied r = false)
include unsatisfied

theorem execTransientRequest_asks : execTransientRequest id s = .next
    (((s.modReq id (fun r => { r with issued := s.clock, started := if r.attempt = 1 then s.clock else r.started })).postAll
      (((attemptHolders s r).filter (· != r.holder)).map (.transientAnswer id))).post (.transientAttemptTimeout id)) := by
  rw [execTransientRequest, req]
  exact if_neg (ne_true_of_eq_false unsatisfied)

variable (transient : r.persistent = false)
include transient

theorem execTransientEscalation_escalates : execTransientEscalation id s = .next
    ((s.modReq id (fun r => { r with persistent := true, started := s.clock })).post (.persistentRequest id)) := by
  rw [execTransientEscalation, req]
  exact (if_neg (ne_true_of_eq_false unsatisfied)).trans (if_neg (ne_true_of_eq_false transient))

/-- Attempts that have taken 2 µs escalate. -/
theorem execTransientAttemptTimeout_late (late : r.started + escalateCycles ≤ s.clock) :
    execTransientAttemptTimeout id s = .next (s.post (.transientEscalation id)) := by
  rw [execTransientAttemptTimeout, req]
  exact (if_neg (ne_true_of_eq_false unsatisfied)).trans ((if_neg (ne_true_of_eq_false transient)).trans (if_pos late))

/-- An attempt that has failed, with no link in training to stop its time, is followed by the next, and the fourth by the escalation. -/
theorem execTransientAttemptTimeout_failed (early : s.clock < r.started + escalateCycles) (failed : r.issued + attemptCycles ≤ s.clock)
    (running : s.linkWaiting r = false) : execTransientAttemptTimeout id s = .next (if 4 ≤ r.attempt then s.post (.transientEscalation id)
      else (s.modReq id (fun r => { r with attempt := r.attempt + 1 })).post (.transientRequest id)) := by
  have ended : ¬(decide (s.clock < r.issued + attemptCycles) || s.linkWaiting r) = true := by
    rw [running, decide_eq_false (Nat.not_lt.mpr failed)]
    exact Bool.false_ne_true
  rw [execTransientAttemptTimeout, req]
  exact (if_neg (ne_true_of_eq_false unsatisfied)).trans ((if_neg (ne_true_of_eq_false transient)).trans
    ((if_neg (Nat.not_le.mpr early)).trans ((if_neg ended).trans (apply_ite Host.Outcome.next ..).symm)))

end

/-! ## Answers (R342) -/

/-- A holder that no link cuts off, that is not the host's, and that no persistent entry or request of its own stops, answers from what it holds. -/
theorem execTransientAnswer_answers_from {h : Holder} (other : h ≠ r.holder) (carried : reqHeld r.holder h r.line s = none)
    (notHost : h = .hostBridge → s.hostHolds r.line = false)
    (free : s.fab.ptable.any (fun e => e.1 == h && e.2.1 == r.line && e.2.2 != id) = false)
    (yields : s.activeReq r.line = some id ∨ s.fab.reqs.any (fun x => x.holder == h && x.line == r.line && x.write) = false) :
    execTransientAnswer id h s = .next (match answerOf (s.tokens r.line) h r.write with
      | some (n, own, data) => sendTokens r.line h r.holder n own data s
      | none => s) := by
  have bridge : ¬(h = .hostBridge ∧ s.hostHolds r.line = true) :=
    fun ⟨isBridge, holds⟩ => Bool.false_ne_true ((notHost isBridge).symm.trans holds)
  have keeps : ¬(s.activeReq r.line ≠ some id ∧ s.fab.reqs.any (fun x => x.holder == h && x.line == r.line && x.write) = true) :=
    fun ⟨waits, wants⟩ => yields.elim waits (fun no => Bool.false_ne_true (no.symm.trans wants))
  rw [execTransientAnswer, req]
  dsimp only
  rw [if_neg other, carried]
  refine (if_neg bridge).trans ((if_neg (ne_true_of_eq_false free)).trans ((if_neg keeps).trans ?_))
  cases answerOf (s.tokens r.line) h r.write <;> rfl

/-! ## Persistent requests (R343) -/

theorem execPersistentRequest_queues (fresh : id ∉ (assoc r.line s.fab.arb).getD []) (carried : reqHeld r.holder .home r.line s = none) :
    execPersistentRequest id s = .next (if ((assoc r.line s.fab.arb).getD []).isEmpty
      then activate r.line (s.setQueue r.line ((assoc r.line s.fab.arb).getD [] ++ [id]))
      else s.setQueue r.line ((assoc r.line s.fab.arb).getD [] ++ [id])) := by
  rw [execPersistentRequest, req]
  dsimp only
  rw [if_neg (by simpa using fresh), carried]

variable {line : Nat} (active : s.activeReq line = some id)
include active

/-- The active entry reaches a holder whose table has room, which sends the requester all that it holds. -/
theorem execPersistentTableEntry_enters {h : Holder} (carried : reqHeld .home h line s = none)
    (notHost : h = .hostBridge → s.hostHolds line = false)
    (room : s.tableFull line h = false) : execPersistentTableEntry line h s = .next
      (if h = r.holder then checkReq r.id (entryAt line h r.id s) else sendAll line h r.holder (entryAt line h r.id s)) := by
  have bridge : ¬(h = .hostBridge ∧ s.hostHolds line = true ∧ r.holder ≠ .hostBridge) :=
    fun ⟨isBridge, holds, _⟩ => Bool.false_ne_true ((notHost isBridge).symm.trans holds)
  rw [execPersistentTableEntry, active, Option.bind_some, req]
  dsimp only
  rw [carried]
  exact (if_neg bridge).trans ((if_neg (ne_true_of_eq_false room)).trans (apply_ite Host.Outcome.next ..).symm)

/-- A request that has been used, or that nothing wants any more, leaves the queue, and the next is activated. -/
theorem execPersistentCompletion_completes (finished : r.used = true ∨ s.stillWants r = false) :
    execPersistentCompletion line s = .next (activate line (((entryGone line r s).dropReq id).setQueue line
      (((assoc line (entryGone line r s).fab.arb).getD []).drop 1))) := by
  have done : ¬(!r.used && s.stillWants r) = true := by
    rcases finished with used | unwanted
    · rw [used]
      exact Bool.false_ne_true
    · rw [unwanted, Bool.and_false]
      exact Bool.false_ne_true
  rw [execPersistentCompletion, active]
  dsimp only
  rw [req]
  exact if_neg done

end

/-! ## Messages (R340) -/

/-- The state in which a message has left its links. -/
def received (id : Nat) (m : TokenMsg) (s : State) : State :=
  m.links.foldl (fun s l => s.flitPassed l) (s.dropMsgs (fun x => x.id == id))

/-- The state in which the holder has the tokens of a message, and has made room for its line. -/
def taken (m : TokenMsg) (t : State) : State :=
  let v := l2Room m.dest m.line (t.setTokens (((t.tokens m.line).give m.dest m.count m.owner m.data).mark m.dest (t.askedFor m.dest m.line)))
  if m.dest = .home then maskTidy m.line v else v

section

variable {s : State} {id : Nat} {m : TokenMsg} (message : s.fab.msgs.find? (fun m => m.id == id) = some m)
  (carried : m.links.any s.linkShut = false)
include message carried

theorem execTokenMessageReceive_arrives : execTokenMessageReceive id s =
    let t := received id m s
    if m.epoch ≠ (t.tokens m.line).epoch then .next { t with fab := { t.fab with discards := t.fab.discards + 1 } }
    else if t.evicts m.dest m.line = true then
      .next (sendAll m.line m.dest .home (t.setTokens ((t.tokens m.line).give m.dest m.count m.owner m.data)))
    else match ((taken m t).activeReq m.line).bind (taken m t).tokenReq? with
      | some r =>
        if m.dest = r.holder then .next (checkReq r.id (taken m t))
        else if (taken m t).fab.ptable.any (fun e => e.1 == m.dest && e.2.1 == m.line) = true then .next (sendAll m.line m.dest r.holder (taken m t))
        else .next (taken m t)
      | none => .next (((taken m t).fab.reqs.filter (fun r => r.holder == m.dest && r.line == m.line)).foldl
          (fun s r => checkReq r.id s) (taken m t)) := by
  rw [execTokenMessageReceive, message]
  exact if_neg (ne_true_of_eq_false carried)

/-- A message of an older epoch is discarded and counted. -/
theorem execTokenMessageReceive_discards (stale : m.epoch ≠ ((received id m s).tokens m.line).epoch) : execTokenMessageReceive id s =
    .next { received id m s with fab := { (received id m s).fab with discards := (received id m s).fab.discards + 1 } } :=
  (execTokenMessageReceive_arrives message carried).trans (if_pos stale)

section

variable (current : m.epoch = ((received id m s).tokens m.line).epoch)
include current

/-- An evictor sends the tokens on to the home. -/
theorem execTokenMessageReceive_evicts (evicts : (received id m s).evicts m.dest m.line = true) : execTokenMessageReceive id s =
    .next (sendAll m.line m.dest .home ((received id m s).setTokens (((received id m s).tokens m.line).give m.dest m.count m.owner m.data))) :=
  (execTokenMessageReceive_arrives message carried).trans ((if_neg (not_not.mpr current)).trans (if_pos evicts))

section

variable (keeps : (received id m s).evicts m.dest m.line = false)
include keeps

/-- With no persistent request active, the tokens serve what their holder asked for. -/
theorem execTokenMessageReceive_serves
    (inactive : ((taken m (received id m s)).activeReq m.line).bind (taken m (received id m s)).tokenReq? = none) : execTokenMessageReceive id s =
    .next (((taken m (received id m s)).fab.reqs.filter (fun r => r.holder == m.dest && r.line == m.line)).foldl (fun s r => checkReq r.id s)
      (taken m (received id m s))) := by
  refine (execTokenMessageReceive_arrives message carried).trans ((if_neg (not_not.mpr current)).trans
    ((if_neg (ne_true_of_eq_false keeps)).trans ?_))
  rw [inactive]

/-- With one active they serve its requester, or go on to it from a holder in whose table its entry stands. -/
theorem execTokenMessageReceive_yields {r : TokenReq}
    (active : ((taken m (received id m s)).activeReq m.line).bind (taken m (received id m s)).tokenReq? = some r) : execTokenMessageReceive id s =
    .next (if m.dest = r.holder then checkReq r.id (taken m (received id m s))
      else if (taken m (received id m s)).fab.ptable.any (fun e => e.1 == m.dest && e.2.1 == m.line) = true
        then sendAll m.line m.dest r.holder (taken m (received id m s))
      else taken m (received id m s)) := by
  refine (execTokenMessageReceive_arrives message carried).trans ((if_neg (not_not.mpr current)).trans
    ((if_neg (ne_true_of_eq_false keeps)).trans ?_))
  rw [active]
  dsimp only
  rw [apply_ite Host.Outcome.next, apply_ite Host.Outcome.next]

end

end

end

/-! ## Evictions and lost tokens (R345, R353) -/

/-- An eviction ends once its tokens are home. -/
theorem execEvictionAck_ends {s : State} {die line : Nat} (evicting : (die, line) ∈ s.fab.evicting)
    (home : (s.msgsOf line).any (fun m => m.dest == .home) = false) : execEvictionAck die line s =
    .next { s with fab := { s.fab with evicting := s.fab.evicting.filter (fun x => x != (die, line)) } } := by
  rw [execEvictionAck, if_neg (by simpa using evicting), home]
  rfl

/-- The messages of a line's present epoch that a retired link has not lost. -/
def liveMsgs (line : Nat) (s : State) : List TokenMsg :=
  (s.msgsOf line).filter (fun m => m.epoch == (s.tokens line).epoch && !(m.sent && m.links.any (fun l => (s.link l).mode == .retired)))

/-- The owner token of a line still exists. -/
def ownerLives (line : Nat) (s : State) : Bool :=
  (s.tokens line).homeOwner || (s.tokens line).holds.any (fun x => x.owner) || (liveMsgs line s).any (fun x => x.owner)

/-- The state in which a line has 32 tokens of a new epoch at its home; without its owner token the line is poisoned. -/
def recreated (line : Nat) (s : State) : State :=
  let own := ownerLives line s
  let t := (s.dropMsgs (fun m => (liveMsgs line s).any (fun x => x.id == m.id))).setTokens ⟨line, ((s.tokens line).epoch + 1) % 4, 32, true, []⟩
  let u := t.log 0x05 (dieOfLoc (line * 128)) 0 (if own then 0 else causeCode .coherenceLost) (line * 128) (if own then 0 else 1)
  if own then u else poisonLine line .coherenceLost u

section

variable {s t : State} {line : Nat} (snooped : snoopInv (line * 128) 128 s = (t, true))
include snooped

/-- Once the host has given up its halves the tokens are recreated, and serve the active persistent request. -/
theorem execTokenRecreation_recreates : execTokenRecreation line s =
    .next (match ((recreated line t).activeReq line).bind (recreated line t).tokenReq? with
      | some r =>
        if r.holder = .home then checkReq r.id (recreated line t)
        else if (recreated line t).fab.ptable.any (fun e => e.1 == .home && e.2.1 == line) = true
          then sendAll line .home r.holder (recreated line t)
        else recreated line t
      | none => recreated line t) := by
  rw [execTokenRecreation, snooped]
  rfl

theorem execTokenRecreation_keeps_at_home (inactive : ((recreated line t).activeReq line).bind (recreated line t).tokenReq? = none) :
    execTokenRecreation line s = .next (recreated line t) := by
  rw [execTokenRecreation_recreates snooped, inactive]

theorem execTokenRecreation_yields {r : TokenReq} (active : ((recreated line t).activeReq line).bind (recreated line t).tokenReq? = some r) :
    execTokenRecreation line s = .next (if r.holder = .home then checkReq r.id (recreated line t)
      else if (recreated line t).fab.ptable.any (fun e => e.1 == .home && e.2.1 == line) = true then sendAll line .home r.holder (recreated line t)
      else recreated line t) := by
  rw [execTokenRecreation_recreates snooped, active]

end

/-- Settles O35: each event by the lemma about its case; an eviction begins by definition. -/
theorem tokenEvents : Obligations.TokenEvents := by
  intro s id line die h
  refine ⟨fun r req => ⟨execTransientRequest_done req, execTransientRequest_asks req, fun other carried notHost free yields => ?answer,
      fun unsatisfied transient => ⟨execTransientAttemptTimeout_late req unsatisfied transient,
        execTransientAttemptTimeout_failed req unsatisfied transient, execTransientEscalation_escalates req unsatisfied transient⟩,
      execPersistentRequest_queues req, fun active => execPersistentTableEntry_enters req active,
      fun active => execPersistentCompletion_completes req active⟩,
    fun m message carried => ⟨execTokenMessageReceive_discards message carried,
      fun current => ⟨execTokenMessageReceive_evicts message carried current,
      fun keeps => ⟨execTokenMessageReceive_serves message carried current keeps,
        fun r => execTokenMessageReceive_yields message carried current keeps⟩⟩⟩,
    rfl, execEvictionAck_ends, fun t snooped => ⟨execTokenRecreation_keeps_at_home snooped, fun r => execTokenRecreation_yields snooped⟩⟩
  case answer =>
    have answers := execTransientAnswer_answers_from req other carried notHost free yields
    exact ⟨fun n own data sends => answers.trans (by rw [sends]), fun nothing => answers.trans (by rw [nothing])⟩

end Sys2Proof.Proofs
end

section
/-! PROOFS. The conservation of tokens (R338, R340). -/

namespace Sys2Proof.Proofs

open Sys2Proof.Machine Sys2Proof.Safety Sys2Proof.Laws

/-- An outcome keeps the number of tokens of every line, held by a list of holders and in flight. -/
def Conserves (H : List Holder) (s : State) (o : Out) : Prop := ∀ t, o = .next t → ∀ line, tokenTotal H t line = tokenTotal H s line

theorem conserves_next {H : List Holder} {s t : State} (h : ∀ line, tokenTotal H t line = tokenTotal H s line) : Conserves H s (.next t) :=
  fun _ same => by cases same; exact h

/-- Changes that conserve, one after another. -/
theorem conserves_after {H : List Holder} {s u : State} {o : Out} (first : ∀ line, tokenTotal H u line = tokenTotal H s line)
    (later : Conserves H u o) : Conserves H s o :=
  fun t next line => (later t next line).trans (first line)

section

variable {H : List Holder}

/-! ## What moves no token -/

theorem reqHeld_total {src dst : Holder} {line : Nat} {s t : State} (held : reqHeld src dst line s = some t) (l : Nat) :
    tokenTotal H t l = tokenTotal H s l := by
  unfold reqHeld at held
  dsimp only at held
  split at held
  · cases held
    exact wakeLinks_total _ s l
  · cases held

theorem askHost_fab (line half : Nat) (inv : Bool) (s : State) : (askHost line half inv s).fab = s.fab := by
  unfold askHost
  split <;> rfl

theorem snoopInv_fab (loc n : Nat) (s : State) : (snoopInv loc n s).1.fab = s.fab :=
  List.foldlRecOn (motive := fun u : State => u.fab = s.fab) (halvesAt loc n) _ rfl fun u same h _ => by
    split
    · exact (askHost_fab _ h true u).trans same
    · exact same

/-- The flits of a message that pass their links leave the tokens and the messages. -/
theorem received_fab (id : Nat) (m : TokenMsg) (s : State) :
    (received id m s).fab.tokens = (s.dropMsgs (fun x => x.id == id)).fab.tokens ∧
    (received id m s).fab.msgs = (s.dropMsgs (fun x => x.id == id)).fab.msgs :=
  List.foldlRecOn (motive := fun u : State => u.fab.tokens = (s.dropMsgs (fun x => x.id == id)).fab.tokens ∧
      u.fab.msgs = (s.dropMsgs (fun x => x.id == id)).fab.msgs) m.links _ ⟨rfl, rfl⟩ fun u same l _ => by
    unfold State.flitPassed
    dsimp only
    split <;> exact same

/-- The mark of a holding is no token. -/
theorem setTokens_mark_total (x : TokenLine) (h : Holder) (k : Option (Nat × Nat)) (s : State) (l : Nat) :
    tokenTotal H (s.setTokens (x.mark h k)) l = tokenTotal H (s.setTokens x) l := by
  obtain ⟨line, epoch⟩ := mark_line x h k
  have counts : (x.mark h k).count = x.count := funext fun y => mark_count x h y k
  unfold tokenTotal
  rw [tokens_setTokens, tokens_setTokens, line]
  split
  · rw [counts, epoch]
    rfl
  · rfl

/-! ## Requests, recalls and entries (R342, R343, R345) -/

variable (distinct : H.Nodup)
include distinct

theorem execTransientAnswer_conserves {h : Holder} (named : h ∈ H) (req : Nat) (s : State) : Conserves H s (execTransientAnswer req h s) := by
  unfold execTransientAnswer
  split
  · exact conserves_next fun l => rfl
  split
  · exact conserves_next fun l => rfl
  split
  · next t held => exact conserves_next fun l => (post_total _ t l).trans (reqHeld_total held l)
  split
  · exact conserves_next fun l => total_of_fab (s := s) (by rw [bridgeTakes_fab]; rfl) (by rw [bridgeTakes_fab]; rfl) l
  split
  · exact conserves_next fun l => rfl
  split
  · exact conserves_next fun l => rfl
  split
  · next n own data sends => exact conserves_next fun l => total_send distinct s _ h _ n own data named (answerOf_le sends) l
  · exact conserves_next fun l => rfl

theorem execBridgeRecall_conserves (named : Holder.hostBridge ∈ H) (line : Nat) (s : State) : Conserves H s (execBridgeRecall line s) := by
  have snooped (l : Nat) : tokenTotal H (snoopInv (line * 128) 128 s).1 l = tokenTotal H s l := total_fab (snoopInv_fab _ _ s) l
  unfold execBridgeRecall
  dsimp only
  split
  · exact conserves_next fun l => (total_sendAll distinct _ line _ _ named l).trans (snooped l)
  · exact conserves_next fun l => (postOnce_total _ _ l).trans (snooped l)

theorem execPersistentTableEntry_conserves {h : Holder} (named : h ∈ H) (line : Nat) (s : State) :
    Conserves H s (execPersistentTableEntry line h s) := by
  unfold execPersistentTableEntry
  split
  · exact conserves_next fun l => rfl
  next r active =>
  split
  · next t held => exact conserves_next fun l => (post_total _ t l).trans (reqHeld_total held l)
  split
  · split
    · exact conserves_next fun l => postOnce_total _ s l
    · exact conserves_next fun l => (postOnce_total _ _ l).trans (total_fab (bridgeTakes_fab r s) l)
  split
  · exact conserves_next fun l => post_total _ s l
  have entered (l : Nat) : tokenTotal H (entryAt line h r.id s) l = tokenTotal H s l := total_of_fab rfl rfl l
  dsimp only
  split
  · exact conserves_next fun l => (checkReq_total r.id _ l).trans (entered l)
  · exact conserves_next fun l => (total_sendAll distinct _ line h _ named l).trans (entered l)

/-! ## Messages (R340) -/

section

variable {s : State} {id : Nat} {m : TokenMsg} (only : s.fab.msgs.filter (fun x => x.id == id) = [m]) (named : m.dest ∈ H)
include only named

/-- The tokens of a message that its holder has received are held, and no longer in flight. -/
theorem given_total (current : m.epoch = (s.tokens m.line).epoch) (l : Nat) :
    tokenTotal H ((received id m s).setTokens (((received id m s).tokens m.line).give m.dest m.count m.owner m.data)) l = tokenTotal H s l := by
  obtain ⟨tokens, msgs⟩ := received_fab id m s
  rw [tokens_of tokens]
  refine (total_of_fab ?_ ?_ l).trans (tt_receive distinct s id m only named current l)
  · simp only [State.setTokens, tokens]
  · simp only [State.setTokens, msgs]

theorem taken_total (current : m.epoch = (s.tokens m.line).epoch) (l : Nat) :
    tokenTotal H (taken m (received id m s)) l = tokenTotal H s l := by
  have given := given_total distinct only named current l
  unfold taken
  dsimp only
  split
  · exact (maskTidy_total m.line _ l).trans ((l2Room_total distinct m.dest m.line _ named l).trans
      ((setTokens_mark_total _ _ _ _ l).trans given))
  · exact (l2Room_total distinct m.dest m.line _ named l).trans ((setTokens_mark_total _ _ _ _ l).trans given)

theorem execTokenMessageReceive_conserves : Conserves H s (execTokenMessageReceive id s) := by
  have message : s.fab.msgs.find? (fun x => x.id == id) = some m := by rw [← List.head?_filter, only, List.head?_cons]
  by_cases shut : m.links.any s.linkShut = true
  · rw [execTokenMessageReceive, message]
    dsimp only
    rw [if_pos shut]
    exact conserves_next fun l => (post_total _ _ l).trans (wakeLinks_total _ s l)
  obtain ⟨tokens, msgs⟩ := received_fab id m s
  have epoch : ((received id m s).tokens m.line).epoch = (s.tokens m.line).epoch := congrArg TokenLine.epoch (tokens_of tokens m.line)
  rw [execTokenMessageReceive_arrives message (Bool.eq_false_of_not_eq_true shut)]
  dsimp only
  split
  · next stale =>
    exact conserves_next fun l => (total_of_fab (s := s.dropMsgs (fun x => x.id == id)) tokens msgs l).trans
      (tt_stale s id m only (fun same => stale (same.trans epoch.symm)) l)
  next same =>
  have current : m.epoch = (s.tokens m.line).epoch := (not_not.mp same).trans epoch
  split
  · refine conserves_next fun l => (total_sendAll distinct _ m.line m.dest _ named l).trans ?_
    exact given_total distinct only named current l
  have kept := taken_total distinct only named current
  split
  · split
    · exact conserves_next fun l => (checkReq_total _ _ l).trans (kept l)
    split
    · exact conserves_next fun l => (total_sendAll distinct _ m.line m.dest _ named l).trans (kept l)
    · exact conserves_next kept
  · exact conserves_next fun l =>
      (foldl_total (fun (u : State) (r : TokenReq) => checkReq r.id u) (fun u r l => checkReq_total r.id u l) _ _ l).trans (kept l)

end

end

/-- Settles O60: each event conserves in every one of its cases. -/
theorem tokensConserved : Obligations.TokensConserved := by
  intro H s t distinct conserved
  exact ⟨fun req h named => execTransientAnswer_conserves distinct named req s t,
    fun die line named => conserves_next (evict_total distinct die line s named) t,
    fun line named => execBridgeRecall_conserves distinct named line s t,
    fun line h named => execPersistentTableEntry_conserves distinct named line s t,
    fun id m only named => execTokenMessageReceive_conserves distinct only named t⟩

end Sys2Proof.Proofs
end

section
/-! PROOFS. Page moves, the links between dies, and the other modules of the Afrik domain (R348–R353, R365, R368). -/

namespace Sys2Proof.Proofs

open Sys2Proof.Machine Sys2Proof.Laws

/-! ## Page moves (R348, R349) -/

/-- The driver asks for a page of this module to be moved. -/
theorem execMigrationDriverRequest_enters {s : State} {ctx page : Nat} {home : Home} (up : Bool) (homed : s.pageHome ctx page = some home)
    (here : movesHere s.device home = true) : execMigrationDriverRequest ctx page up s =
    .next ((({ s with nextId := s.nextId + 1 } : State).setMove ⟨s.nextId, home, ctx, page, 0, up, 0, 0, 0, .request, none⟩).post
      (.migrationClaim s.nextId)) := by
  rw [execMigrationDriverRequest, homed]
  dsimp only
  rw [here]
  rfl

/-- The state in which a move, whose page is placed, has claimed a frame, and its recall begins. -/
def moveClaimed (id : Nat) (m : Move) (src : Nat) (f : FreeFrame) (s : State) : State :=
  let u := setFrame m (m.entry s ||| BitVec.ofNat 64 (2 ^ 59)) { s with fab := { s.fab with freeFrames := s.fab.freeFrames.erase f } }
  (u.setMove { m with engine := f.engine, dst := (framePlace s.device f).1, phase := .recall, srcLoc := src }).postAll
    [.migrationCopy id, .migrationAbandon id]

section

variable {s t : State} {id : Nat} {m : Move} (found : s.move? id = some m)
include found

/-- A move of a translated page that no other moves claims the first frame of an engine with room for it. -/
theorem execMigrationClaim_claims {src tpage : Nat} {f : FreeFrame} (waiting : m.active = false) (bound : (s.pasidOf m.ctx).isNone = false)
    (translated : s.pageAt m = some tpage) (source : moveSource s { m with tpage := tpage } = some src)
    (still : fmMove (Move.entry s { m with tpage := tpage }) = false)
    (frame : (s.framesFor { m with tpage := tpage } src).find? (fun f => decide (s.engineMoves f.engine < 16)) = some f) :
    execMigrationClaim id s = .next (moveClaimed id { m with tpage := tpage } src f s) := by
  have nonempty : (s.framesFor { m with tpage := tpage } src).isEmpty = false :=
    List.isEmpty_eq_false_iff.mpr (List.ne_nil_of_mem (List.mem_of_find?_eq_some frame))
  rw [execMigrationClaim, found]
  dsimp only
  rw [waiting, bound, translated]
  dsimp only
  rw [source]
  dsimp only
  rw [still, nonempty, frame]
  rfl

section

variable (recalled : recallLines (s.tokenLinesIn m.srcLoc) id s = (t, true))
include recalled

section

variable (recalling : m.phase = .recall)
include recalling

/-- What follows once every token of the page is home. -/
theorem execMigrationCopy_home : execMigrationCopy id s = if (t.poisonOf m.srcLoc 65536).isSome = true then .next (abandonMove m t)
    else .next ((({ t with
      mem := copyFrame m.srcLoc m.dst t.mem,
      past := t.past.filter (fun e => !(inFrame m.dst e.2.1)),
      poison := t.poison.filter (fun p => !(decide (m.dst / 128 ≤ p.1) && decide (p.1 < m.dst / 128 + 512))) } : State).setMove
        { m with phase := .copied }).post (.migrationSwitch id)) := by
  rw [execMigrationCopy, found]
  dsimp only
  rw [if_neg (not_not.mpr recalling), recalled]

end

/-- In one step the frame map names the destination, and everything that knew the source knows it. -/
theorem execMigrationSwitch_switches (copied : m.phase = .copied) :
    let u := setFrame m (BitVec.ofNat 64 (framePlace t.device (frameAt m.engine m.dst)).2) t
    execMigrationSwitch id s = .next (State.dropMove id { u with
      accs := u.accs.map (Access.moved m.srcLoc m.dst),
      past := u.past.map (fun e => (e.1, movedLoc m.srcLoc m.dst e.2.1, e.2.2)),
      sch := { u.sch with saved := u.sch.saved.map (fun x => { x with accs := x.accs.map (Access.moved m.srcLoc m.dst) }) },
      cores := u.cores.map (Core.l1Drop (fun l => decide (m.srcLoc / 128 ≤ l.addr) && decide (l.addr < m.srcLoc / 128 + 512))),
      fab := { u.fab with freeFrames := u.fab.freeFrames ++ [frameAt m.engine m.srcLoc] } }) := by
  rw [execMigrationSwitch, found]
  dsimp only
  rw [if_neg (not_not.mpr copied), recalled]

end

/-- A move that has held a write for 40 µs is abandoned. -/
theorem execMigrationAbandon_abandons {since : Nat} (active : m.active = true) (held : m.heldAt = some since)
    (late : since + moveCycles ≤ s.clock) : execMigrationAbandon id s = .next (abandonMove m s) := by
  have unchanged : (m.heldAt.isNone && s.holdsWrite m) = false := by
    rw [held]
    rfl
  rw [execMigrationAbandon, found]
  dsimp only
  rw [active, unchanged, if_neg (ne_true_of_eq_false rfl), held]
  exact (if_neg (ne_true_of_eq_false rfl)).trans (if_pos late)

end

/-! ## Links (R350–R353) -/

section

variable {s : State} {id : Nat}

theorem execLinkWake_trains (asleep : (s.link id).mode = .sleeping) : execLinkWake id s = .next (startTraining id .waking s) := if_pos asleep

section

variable (waking : (s.link id).mode = .waking)
include waking

theorem linkTraining_of_waking : s.linkTraining id = true := by
  rw [State.linkTraining, waking]
  rfl

/-- A wake within 3 µs is counted by its latency, and what the link held goes. -/
theorem execLinkWakeComplete_wakes (first : (s.link id).fails ≠ 1) (inTime : s.clock ≤ (s.link id).since + wakeCycles) :
    execLinkWakeComplete id s = .next ((launch (s.setLink { s.link id with mode := .active, fails := 0, since := s.clock })).count 3 id
      (wakeBin (s.clock - (s.link id).since))) := by
  have young : s.clock < (s.link id).since + retireCycles := Nat.lt_of_le_of_lt inTime (Nat.add_lt_add_left (by decide) _)
  have fresh : ¬((s.link id).mode = .retraining ∨ (s.link id).fails = 1) := not_or.mpr ⟨by rw [waking]; decide, first⟩
  rw [execLinkWakeComplete, linkTraining_of_waking waking, decide_eq_true young]
  exact congrArg Host.Outcome.next ((if_neg fresh).trans (congrArg (fun bin => State.count 3 id bin _) (if_pos inTime)))

/-- A later one is counted as late, once. -/
theorem execLinkWakeLate_late (first : (s.link id).fails ≠ 1) (late : (s.link id).since + wakeCycles < s.clock)
    (young : s.clock < (s.link id).since + retireCycles) : execLinkWakeLate id s =
    .next (((s.setLink { s.link id with fails := 1 }).count 3 id 4).post (.linkWakeLate id)) := by
  have uncounted : ((s.link id).mode == .waking && (s.link id).fails != 1 && decide (s.clock > (s.link id).since + wakeCycles)) = true := by
    rw [waking, bne_iff_ne.mpr first, decide_eq_true late]
    rfl
  rw [execLinkWakeLate, linkTraining_of_waking waking]
  dsimp only
  rw [uncounted]
  exact congrArg (fun e => Host.Outcome.next (State.post e ((s.setLink { s.link id with fails := 1 }).count 3 id 4)))
    (if_neg (Nat.not_le.mpr young))

end

/-- A link that has trained for 100 µs is to be retired. -/
theorem execLinkWakeLate_retires (training : (s.link id).mode = .retraining ∨ ((s.link id).mode = .waking ∧ (s.link id).fails = 1))
    (old : (s.link id).since + retireCycles ≤ s.clock) : execLinkWakeLate id s = .next (s.post (.linkRetire id)) := by
  have trains : s.linkTraining id = true := by
    rw [State.linkTraining]
    rcases training with retraining | ⟨waking, _⟩
    · rw [retraining]
      rfl
    · rw [waking]
      rfl
  have counted : ((s.link id).mode == .waking && (s.link id).fails != 1 && decide (s.clock > (s.link id).since + wakeCycles)) = false := by
    rcases training with retraining | ⟨_, once⟩
    · rw [retraining]
      rfl
    · rw [once, bne_self_eq_false, Bool.and_false]
      rfl
  rw [execLinkWakeLate, trains]
  dsimp only
  rw [counted]
  exact congrArg (fun e => Host.Outcome.next (State.post e s)) (if_pos old)

section

variable (active : (s.link id).mode = .active)
include active

/-- An idle link sleeps. -/
theorem execLinkSleep_sleeps (idle : s.fab.replay.any (fun x => x.link == id) = false) :
    execLinkSleep id s = .next (s.setLink { s.link id with mode := .sleeping, since := s.clock }) := by
  have may : (decide ((s.link id).mode = .active) && !(s.fab.replay.any (fun x => x.link == id))) = true := by
    rw [decide_eq_true active, idle]
    rfl
  exact if_pos may

/-- A failed flit is counted, and the sixteenth retrains the link. -/
theorem execFlitCrcFailure_counts : execFlitCrcFailure id s =
    .next (if (s.link id).fails + 1 ≥ 16 then startTraining id .retraining (s.count 2 id 0)
    else (s.count 2 id 0).setLink { s.link id with fails := (s.link id).fails + 1 }) :=
  (if_neg (not_not.mpr active)).trans (apply_ite Host.Outcome.next ..).symm

end

/-- The die of a package link, or of an Afrik port's. -/
def dieOfLink (id : Nat) : Nat := if id < 72 then id / 4 else (id - 72) / 3

/-- The state in which the retirement of a link is counted and logged. -/
def retirementLogged (id : Nat) (s : State) : State :=
  ((s.setLink { s.link id with mode := .retired, since := s.clock }).count 7 0 0).log 0x04 (dieOfLink id) 0 0 0 id

/-- The state in which a link's replay buffer is empty. -/
def replayGone (id : Nat) (t : State) : State := { t with fab := { t.fab with replay := t.fab.replay.filter (fun x => x.link != id) } }

section

variable (training : (s.link id).mode = .waking ∨ (s.link id).mode = .retraining)
include training

theorem execLinkRetire_trained : ¬((s.link id).mode ≠ .waking ∧ (s.link id).mode ≠ .retraining) :=
  fun ⟨notWaking, notRetraining⟩ => training.elim notWaking notRetraining

/-- With an Afrik port's link its paths are cut, and what it had not delivered goes by another. -/
theorem execLinkRetire_port (port : 72 ≤ id) :
    execLinkRetire id s = .next (reroute id (cutPaths (id - 72) (replayGone id (retirementLogged id s)))) :=
  (if_neg (execLinkRetire_trained training)).trans (if_pos port)

/-- The state in which the lines of a package link's replay buffer are to be recreated. -/
theorem execLinkRetire_package (package : id < 72) :
    let t := retirementLogged id s
    let lines := ((t.fab.replay.filter (fun x => x.link == id)).map (fun x => x.line)).eraseDups
    let u := reroute id ((replayGone id t).postAll (lines.map .tokenRecreation))
    execLinkRetire id s = if (List.range 4).all (fun i => (u.link (4 * dieOfLink id + i)).mode == .retired)
      then .next ((stopModule u).log 0x02 (dieOfLink id) 0 0 0 (dieOfLink id)) else .next u :=
  (if_neg (execLinkRetire_trained training)).trans (if_neg (Nat.not_le.mpr package))

end

end

/-! ## Other modules (R364, R365, R368) -/

section

variable {s : State} {dev : Nat}

/-- A source with demand is granted 4 KiB, and again while it wants more. -/
theorem execAfrikGrant_grants {m : Module} (found : s.ext.modules.find? (fun m => m.dev == dev) = some m) (demand : m.demand ≠ 0) :
    let u := s.modModule dev (fun m => { m with demand := m.demand - 4096, granted := m.granted + 4096 })
    execAfrikGrant dev s = .next (if m.demand > 4096 then u.postOnce (.afrikGrant dev) else u) := by
  rw [execAfrikGrant, found]
  exact if_neg demand

section

variable (known : s.ext.modules.any (fun m => m.dev == dev) = true)
include known

theorem execAfrikDemand_announces (bytes : Nat) : execAfrikDemand dev bytes s =
    .next ((s.modModule dev (fun m => { m with demand := m.demand + bytes })).postOnce (.afrikGrant dev)) := by
  rw [execAfrikDemand, known]
  rfl

/-- A module that no path has reached for 100 µs is lost: the tokens that it held are recreated, its gangs have departed. -/
theorem execModuleLost_loses
    (cut : s.ext.modules.any (fun m => m.dev == dev && m.cut.any (fun t => decide (s.clock < t + retireCycles))) = false) :
    let u := s.modModule dev (fun m => { m with reachable := false, lost := true, paths := [], cut := none })
    let lines := (u.fab.tokens.filter (fun t => t.holds.any (fun h => h.holder == .peer dev && decide (h.count > 0)))).map (fun t => t.line)
    let v := u.postAll (lines.map .tokenRecreation)
    execModuleLost dev s = .next (v.hhs.foldl (departAway dev) v) := by
  rw [execModuleLost, known, cut]
  rfl

end

/-- Another module joins, by the paths that Serril chooses. -/
theorem execModuleReachable_joins (inDomain : dev < 60) (other : dev ≠ s.device) : execModuleReachable dev s =
    .next (({ s with free := s.free + 1, agenda := s.agenda.filter (fun e => e != .moduleLost dev) } : State).modModule dev (fun m =>
      { m with reachable := true, lost := false, paths := chosenPaths s.free dev, cut := none })) :=
  if_neg (not_or.mpr ⟨Nat.not_le.mpr inDomain, other⟩)

end

/-- Settles O36: each event by the lemma about its case. -/
theorem migrationAndLinkEvents : Obligations.MigrationAndLinkEvents := by
  intro s t id ctx page dev bytes up
  refine ⟨fun home => execMigrationDriverRequest_enters up,
    fun m found => ⟨fun src f tpage waiting bound translated => execMigrationClaim_claims found
      waiting bound translated, fun recalling recalled => ?copy, fun copied recalled => execMigrationSwitch_switches found recalled copied,
      fun since => execMigrationAbandon_abandons found⟩,
    ⟨execLinkWake_trains, execLinkWakeComplete_wakes, execLinkWakeLate_late, execLinkWakeLate_retires, execLinkSleep_sleeps,
      execFlitCrcFailure_counts, fun training => ⟨execLinkRetire_port training, execLinkRetire_package training⟩⟩,
    fun m => execAfrikGrant_grants, fun known => ⟨execAfrikDemand_announces known bytes, execModuleLost_loses known⟩, execModuleReachable_joins⟩
  case copy =>
    exact ⟨fun poisoned => (execMigrationCopy_home found recalled recalling).trans (if_pos poisoned),
      fun clean => (execMigrationCopy_home found recalled recalling).trans (if_neg (ne_true_of_eq_false clean))⟩

end Sys2Proof.Proofs
end

section
/-! PROOFS. The host's accesses to memory of the module, host memory behind the bridge, and the pooled tier (R355–R363). -/

namespace Sys2Proof.Proofs

open Sys2Proof.Machine Sys2Proof.Laws

/-! ## The host and memory of the module (R355–R357) -/

/-- What the bridge puts into the table once it has room for a line and every token of it. -/
theorem hostRead_grants {s r t : State} {line half : Nat} {st : HalfState} {again : Instr}
    (unheld : ¬(st = .any ∧ s.heldByMove (line * 128) = true))
    (room : tableRoom line s = (r, true)) (demand : bridgeDemand line true r = (t, true)) :
    hostRead line half st again s = answerHalf line half (grantHalf line half st t) := by
  rw [hostRead, if_neg unheld, room]
  dsimp only
  rw [demand]
  rfl

section

variable {s : State} {line half : Nat} (own : s.ownLine line = true) (inLine : half < 2)
include own inLine

/-- The bridge takes a request of the host for a half of a line of the module. -/
theorem hostRequest_taken : ¬(!(s.ownLine line) || decide (half ≥ 2)) = true := by
  rw [own, decide_eq_false (Nat.not_le.mpr inLine)]
  exact Bool.false_ne_true

/-- A read that leaves the host nothing is answered once the bridge has the line's data, and waits until then. -/
theorem execHostReadNoCache_demands {t : State} {ok : Bool} (demand : bridgeDemand line false s = (t, ok)) : execHostReadNoCache line half s =
    .next (if ok = true then answerHalf line half t else t.post (.hostReadNoCache line half)) := by
  rw [execHostReadNoCache, if_neg (hostRequest_taken own inLine), demand]

/-- The state in which the bridge's copy of a line has taken the bytes of a half, and the host's answers to snoops of it. -/
def halfWritten (line half : Nat) (bytes : List (Nat × Byte)) (t : State) : State :=
  let u : State := { t with ext := { t.ext with snoops := t.ext.snoops.filter (fun x => x.1 != line || x.2.1 != half) } }
  writeHalf line half bytes (u.setTokens ((u.tokens line).soil .hostBridge))

section

variable {r t : State} (room : tableRoom line s = (r, true)) (demand : bridgeDemand line true r = (t, true))
include room demand

theorem execHostReadShared_grants : execHostReadShared line half s = .next (answerHalf line half (grantHalf line half .shared t)) :=
  (if_neg (hostRequest_taken own inLine)).trans (congrArg _ (hostRead_grants (fun ⟨any, _⟩ => nomatch any) room demand))

theorem execHostReadAny_grants (unheld : s.heldByMove (line * 128) = false) :
    execHostReadAny line half s = .next (answerHalf line half (grantHalf line half .any t)) :=
  (if_neg (hostRequest_taken own inLine)).trans
    (congrArg _ (hostRead_grants (fun ⟨_, held⟩ => Bool.false_ne_true (unheld.symm.trans held)) room demand))

end

/-- A write that nothing holds goes into the bridge's copy, and the host keeps of the half what it may. -/
theorem execHostWrite_writes {r t : State} {st : HalfState} {bytes : List (Nat × Byte)} (ours : hostMemLine line = false)
    (unheld : s.hostWriteHeld line half = false) (room : (if st = .invalid then (s, true) else tableRoom line s) = (r, true))
    (demand : bridgeDemand line true r = (t, true)) : execHostWrite line half st bytes s =
    .next (if t.keptHalf line half st = .invalid then (halfWritten line half bytes t).setHalf line half .invalid
      else grantHalf line half (t.keptHalf line half st) (halfWritten line half bytes t)) := by
  rw [execHostWrite, if_neg (Nat.not_le.mpr inLine), if_neg (ne_true_of_eq_false ours),
    if_neg (ne_true_of_eq_false (congrArg not own)), if_neg (ne_true_of_eq_false unheld), room]
  refine (if_neg (ne_true_of_eq_false rfl)).trans ?_
  rw [demand]
  rfl

end

/-- A recall takes both halves from the host: the line's tokens go home once the host holds neither for itself, and else the bridge asks again. -/
theorem execBridgeRecall_yields {s : State} {line : Nat} (free : s.hostOwns (line * 128) 128 = false) :
    execBridgeRecall line s = .next (sendAll line .hostBridge .home (snoopInv (line * 128) 128 s).1) :=
  congrArg Host.Outcome.next (if_pos (congrArg not free))

theorem execBridgeRecall_waits {s : State} {line : Nat} (owned : s.hostOwns (line * 128) 128 = true) :
    execBridgeRecall line s = .next ((snoopInv (line * 128) 128 s).1.postOnce (.bridgeRecall line)) :=
  congrArg Host.Outcome.next (if_neg (ne_true_of_eq_false (congrArg not owned)))

/-! ## Host memory (R358, R359) -/

section

variable {s : State} {line half : Nat}

/-- A host store to host memory reaches it, once the bridge has given up the line. -/
theorem execHostWrite_host (st : HalfState) (bytes : List (Nat × Byte)) (inLine : half < 2) (hosts : hostMemLine line = true) :
    execHostWrite line half st bytes s = .next (hostStore line half st bytes s) :=
  (if_neg (Nat.not_le.mpr inLine)).trans (if_pos hosts)

theorem hostStore_asks {st : HalfState} {bytes : List (Nat × Byte)} (cached : s.ext.hostCache.any (fun x => x.line == 2 * line + half) = true) :
    hostStore line half st bytes s = (s.postOnce (.hostSnoop (2 * line + half) true)).post (.hostWrite line half st bytes) := if_pos cached

theorem hostStore_writes {st : HalfState} {bytes : List (Nat × Byte)} (absent : s.ext.hostCache.any (fun x => x.line == 2 * line + half) = false) :
    hostStore line half st bytes s = writeHalf line half bytes s := if_neg (ne_true_of_eq_false absent)

/-- A line that is in no entry of a bridge's cache: nothing leaves the cache as the line is taken out, and no entry suffices. -/
theorem filter_ne_of_absent {l : List BridgeLine} (absent : l.find? (fun x => x.line == line) = none) : l.filter (fun x => x.line != line) = l :=
  List.filter_eq_self.mpr fun x mem => by simpa using List.find?_eq_none.mp absent x mem

theorem any_and_of_absent {l : List BridgeLine} (absent : l.find? (fun x => x.line == line) = none) (p : BridgeLine → Bool) :
    l.any (fun x => x.line == line && p x) = false :=
  List.any_eq_false.mpr fun x mem => by
    have other : (x.line == line) = false := Bool.eq_false_of_not_eq_true (List.find?_eq_none.mp absent x mem)
    rw [other, Bool.false_and]
    exact Bool.false_ne_true

/-- The state in which the bridge, whose other lines are `l`, has fetched a line of the host. -/
def hostFetched (line : Nat) (own : Bool) (l : List BridgeLine) (s : State) : State :=
  dropAsked line { s with ext := { s.ext with hostCache := l ++ [⟨line, own, false, s.askedCtx line⟩] } }

/-- A new line of a cache with room enters it. -/
theorem execHostLineFetch_enters (own : Bool) (absent : s.ext.hostCache.find? (fun x => x.line == line) = none)
    (room : s.ext.hostCache.length < bridgeLines) : execHostLineFetch line own s = .next (hostFetched line own s.ext.hostCache s) := by
  have others := filter_ne_of_absent absent
  have fetches : execHostLineFetch line own s = .next (hostFetched line own (s.ext.hostCache.filter (fun x => x.line != line)) s) := by
    rw [execHostLineFetch, any_and_of_absent absent, if_neg Bool.false_ne_true, absent, others]
    dsimp only
    rw [decide_eq_false (Nat.not_le.mpr room)]
    cases s.ext.hostCache.head? <;> exact congrArg (fun l => Host.Outcome.next (hostFetched line own l s)) others
  rw [fetches, others]

/-- The state in which the bridge has answered a snoop of the line with what it holds of it. -/
def hostAnswered (line : Nat) (x : BridgeLine) (s : State) : State :=
  s.answerLine line (if x.dirty then s.readBytes (line * 64) 64 else []) (s.poisonOf (line * 64) 64).isSome

section

variable {x : BridgeLine} (cached : s.ext.hostCache.find? (fun x => x.line == line) = some x)
include cached

/-- A snoop takes the line, or leaves it shared. -/
theorem execHostSnoop_answers_line (inv : Bool) : execHostSnoop line inv s =
    .next { hostAnswered line x s with ext := { (hostAnswered line x s).ext with
    hostCache := if inv = true then s.ext.hostCache.filter (fun x => x.line != line)
      else s.ext.hostCache.filter (fun x => x.line != line) ++ [{ x with own := false, dirty := false }] } } := by
  rw [execHostSnoop, cached]
  rfl

/-- A dirty line goes back to the host. -/
theorem execDirtyEvict_releases (dirty : x.dirty = true) : execDirtyEvict line s = .next (releaseHost (· == line) s) := by
  have named : (x.line == line) = true := List.find?_some (p := fun x : BridgeLine => x.line == line) cached
  exact congrArg Host.Outcome.next
    (if_pos (List.any_eq_true.mpr ⟨x, List.mem_of_find?_eq_some cached, Bool.and_eq_true_iff.mpr ⟨named, dirty⟩⟩))

end

/-! ## The pooled tier (R361–R363) -/

/-- What a pool line holds as it is fetched again changes no bridge. -/
theorem freshLine_ext (line : Nat) (s : State) : (freshLine line s).ext = s.ext := by
  unfold freshLine
  dsimp only
  split <;> rfl

/-- The state in which a pool bridge, whose other lines are `l`, has fetched a line and created its tokens. -/
def poolFetched (line : Nat) (l : List BridgeLine) (t : State) : State :=
  dropAsked line (State.setTokens ⟨line, (t.tokens line).epoch, 0, false, [⟨.poolBridge (portOf line), 32, true, true, false, 0, 0⟩]⟩
    { t with ext := { t.ext with poolCache := l ++ [⟨line, true, false, t.askedCtx line⟩] } })

/-- A new line of a live port, whose buffer has room, enters it. -/
theorem execPoolLineFetch_enters (pooled : poolLine line = true) (live : s.ext.portsLost.contains (portOf line) = false)
    (absent : s.ext.poolCache.find? (fun x => x.line == line) = none)
    (room : (s.ext.poolCache.filter (fun x => portOf x.line == portOf line)).length < bridgeLines) :
    execPoolLineFetch line s = .next (poolFetched line (freshLine line s).ext.poolCache (freshLine line s)) := by
  have others : (freshLine line s).ext.poolCache.filter (fun x => x.line != line) = (freshLine line s).ext.poolCache := by
    rw [freshLine_ext]
    exact filter_ne_of_absent absent
  have fetches : execPoolLineFetch line s =
      .next (poolFetched line ((freshLine line s).ext.poolCache.filter (fun x => x.line != line)) (freshLine line s)) := by
    rw [execPoolLineFetch, pooled, live, any_and_of_absent absent, absent]
    dsimp only
    rw [decide_eq_false (Nat.not_le.mpr room)]
    cases (s.ext.poolCache.filter (fun x => portOf x.line == portOf line)).head? <;> rfl
  rw [fetches, others]

/-- The state in which the bridge has answered a snoop of the pool with what it holds of the line. -/
def poolAnswered (line : Nat) (x : BridgeLine) (s : State) : State :=
  s.answerLine line (if x.dirty then s.readBytes (line * 128) 128 else []) (s.poisonOf (line * 128) 128).isSome

section

variable {x : BridgeLine} (cached : s.ext.poolCache.find? (fun x => x.line == line) = some x)
include cached

theorem execPoolBisnpinv_releases : execPoolBisnpinv line s = .next (releasePool (· == line) (poolAnswered line x s)) := by
  rw [execPoolBisnpinv, poolSnoop, cached]
  rfl

theorem execPoolBisnpdata_shares : execPoolBisnpdata line s = .next { poolAnswered line x s with ext := { (poolAnswered line x s).ext with
    poolCache := (poolAnswered line x s).ext.poolCache.map (fun x => if x.line = line then { x with own := false, dirty := false } else x) } } := by
  rw [execPoolBisnpdata, poolSnoop, cached]
  rfl

end

/-- A port that is lost takes its segments with it: its accesses fail, its clean lines are gone, its dirty ones recorded. -/
theorem execPoolPortLost_loses {port : Nat} (portExists : port < 6) (live : s.ext.portsLost.contains port = false) :
    let t : State := { s with
      tabs := { s.tabs with segs := s.tabs.segs.map (fun g => if g.port = port then { g with lost := true } else g) },
      ext := { s.ext with portsLost := s.ext.portsLost ++ [port] },
      accs := s.accs.map (fun a => if s.pendingOfPort port a then { a with phase := .resolved .poolLost } else a) }
    let dirty := (s.ext.poolCache.filter (fun x => portOf x.line == port && x.dirty)).map (fun x => x.line)
    let u := releasePool (fun l => portOf l == port) (dirty.foldl (loseLine port) t)
    execPoolPortLost port s = .next ((((s.accs.filter (s.accOfPort port)).map (fun a => a.id)).foldl (fun s id => failAccess id .poolLost s) u).log
      0x07 (12 + port) 0 0 0 port) :=
  if_neg (not_or.mpr ⟨Nat.not_le.mpr portExists, ne_true_of_eq_false live⟩)

/-- The lines of a segment in the loss lists. -/
def lostLines (g : Segment) (s : State) : List Nat := (s.ext.lossList.filter (fun x => g.hasLine x.2)).map (fun x => x.2)

section

variable {seg : Nat} {g : Segment} (bound : s.tabs.segs.find? (fun g => g.seg == seg) = some g) (lost : g.lost = true)
include bound lost

/-- A segment that returns is in service again, and the lines that were lost stay poisoned. -/
theorem execPoolSegmentReattach_returns :
    let t := ((lostLines g s).foldl (fun s l => poisonLine l .poison s) s).dropLoss g
    execPoolSegmentReattach seg s = .next (State.log 0x07 (12 + g.port) 0 0 0 g.port { t with
      tabs := { t.tabs with segs := t.tabs.segs.map (fun x => if x.seg = seg then { x with lost := false } else x) },
      ext := { t.ext with portsLost := t.ext.portsLost.filter (fun p => p != g.port) } }) := by
  rw [execPoolSegmentReattach, bound]
  dsimp only
  rw [lost]
  rfl

/-- A segment that is unmapped leaves with its home-window entries, and what was lost of it is gone. -/
theorem execPoolSegmentUnmap_leaves :
    let t := ((lostLines g s).foldl forgetLine s).dropLoss g
    execPoolSegmentUnmap seg s = .next (State.log 0x07 (12 + g.port) 0 0 0 g.port { t with tabs := { t.tabs with
      windows := t.tabs.windows.filter (fun w => homeOfEntry t.device w.2 != some (.pool t.device seg)),
      segs := t.tabs.segs.filter (fun x => x.seg != seg) } }) := by
  rw [execPoolSegmentUnmap, bound]
  dsimp only
  rw [lost]
  rfl

end

end

/-- Settles O37: each event by the lemma about its case; a conflict is answered by definition. -/
theorem hostAndPoolEvents : Obligations.HostAndPoolEvents := by
  intro s line half port seg st bytes
  refine ⟨fun own inLine => ⟨fun t ready => ?read, fun t missing => ?waits,
    fun r t room demand => ⟨execHostReadShared_grants own inLine room demand,
      execHostReadAny_grants own inLine room demand⟩, fun r t => execHostWrite_writes own inLine, if_neg (hostRequest_taken own inLine)⟩,
    fun inLine hosts => ⟨fun cached => ?asks, fun absent => ?stores⟩, ⟨execBridgeRecall_yields, execBridgeRecall_waits⟩,
    fun x cached => ⟨⟨execHostSnoop_answers_line cached true, execHostSnoop_answers_line cached false⟩, execDirtyEvict_releases cached⟩,
    execHostLineFetch_enters, execPoolLineFetch_enters, fun x cached => ⟨execPoolBisnpinv_releases cached, execPoolBisnpdata_shares cached⟩,
    execPoolPortLost_loses, fun g bound lost => ⟨execPoolSegmentReattach_returns bound lost, execPoolSegmentUnmap_leaves bound lost⟩⟩
  case read => exact execHostReadNoCache_demands own inLine ready
  case waits => exact execHostReadNoCache_demands own inLine missing
  case asks => exact (execHostWrite_host st bytes inLine hosts).trans (congrArg _ (hostStore_asks cached))
  case stores => exact (execHostWrite_host st bytes inLine hosts).trans (congrArg _ (hostStore_writes absent))

end Sys2Proof.Proofs
end
